-- ==== Sys2Proof/Word.lean ====
section
/-! DEFINITION. The word types of the CQ-940 (spec/00 R1 to R4) and their plainest arithmetic. -/

namespace Sys2Proof

/-- A byte of memory (R2). -/
abbrev Byte := BitVec 8

/-- A 32-bit word: an instruction word, a v or k register (spec/01 Table 1.2). -/
abbrev Word := BitVec 32

/-- A 64-bit value: an address, a register pair, a resume point (R2, R76). -/
abbrev Dword := BitVec 64

/-- The lane numbers of a gang (R9). -/
abbrev lanes32 : List Nat := List.range 32

/-- A 64-bit value from its low and its high word (R2). -/
abbrev pairOf (lo hi : Word) : Dword := hi ++ lo

/-- Bits 31 to 0 of a 64-bit value (R2). -/
abbrev lo32 (x : Dword) : Word := x.extractLsb' 0 32

/-- Bits 63 to 32 of a 64-bit value (R2). -/
abbrev hi32 (x : Dword) : Word := x.extractLsb' 32 32

end Sys2Proof
end

