-- ==== Sys2Proof/Config.lean ====
section
/-! DEFINITION. What the spec leaves to the implementation or leaves open: constants without a body, so that no proof can
see what they are. A statement about a value drawn here holds whatever the value is. -/

namespace Sys2Proof.Config

/-- The free values of the machine, one for each tick of the model's counter: which of overlapping stores lands last (R143,
R168, R173), which line an L1 replaces (R259), whether a stale translation is used (R257), whether an old table entry of the
sixteen of a 64 KiB page is used (R341), and what the notes call open. -/
opaque freeValue : Nat → Nat

/-- Whether a fetch takes the word that the instruction cache holds, for a tick and a code address: each word by itself
(R90). -/
opaque staleWord : Nat → Nat → Bool

/-- The cycles that a core's counter has counted when the device becomes ready, for a boot and a core: each core leaves reset
in its own time (R36). -/
opaque cyclesAtReady : Nat → Nat → BitVec 64

/-- Which of its slice's ten pseudo-channels serves an address (R269, R380). -/
opaque channelOf : Nat → Nat

/-- The result a special function gives for its code and operand bits where the spec gives a bound and no value
(R186): used only where it lies within the bound. -/
opaque specialFunction : Nat → Nat → Nat

/-- The root key hash held in the boot ROM (R396). -/
opaque rootKeyHash : BitVec 256

/-- The 32-byte release identifier of the boot ROM (Table 17.2). -/
opaque romRelease : BitVec 256

/-- The private identity key that the ROM derives from the PUF response and the helper data of flash (R400). -/
opaque identityKey : List Byte → BitVec 256

/-- The private alias key that the ROM derives from the identity key and the digest of the accepted image (R400). -/
opaque aliasKey : BitVec 256 → BitVec 256 → BitVec 256

/-- The identity key's certificate, as the identity region of flash holds it (Table 17.1). -/
opaque identityCertificate : List Byte → List Byte

/-- The pod configuration record among the records of flash (Table 17.1), given as (offset, byte) pairs, and the device
number it holds. -/
opaque podRecord : List (Nat × Byte) → List Byte
opaque podNumber : List (Nat × Byte) → Option Nat

/-- The repair records of flash (Table 17.1): lane swaps by stack, pseudo-channel and value of HSWAP; bank health by
cluster and value of CBHEALTH; and the bytes of those that were applied, in applied order. -/
opaque laneSwaps : List (Nat × Byte) → List (Nat × Nat × Nat)
opaque bankHealths : List (Nat × Byte) → List (Nat × Nat)
opaque appliedRecords : List (Nat × Byte) → List Byte

/-- What the alias certificate says of the alias key's public half, as the bytes that are signed; and the certificate with its
signature by the identity key (R400). -/
opaque certificateBody : List Byte → List Byte
opaque certificateOf : List Byte → BitVec 512 → List Byte

/-- The nonce of a signature, for the key, the digest and a free value drawn (R401). -/
opaque signNonce : BitVec 256 → BitVec 256 → Nat → Nat

end Sys2Proof.Config
end

