-- ==== Sys2Proof/Machine/Table.lean ====
section
/-! DEFINITION. Sparse tables: plain lists of (key, value) pairs in one canonical form, keys strictly rising and no value
equal to what an unlisted key reads as. Memory, register files and every numbered unit of the machine are held so. -/

namespace Sys2Proof.Machine

/-- A sparse table; its default is named where it is read and written. -/
abbrev Table (α : Type) := List (Nat × α)

/-- What a key reads as: its value, or the default where the key is not listed. -/
def tget {α : Type} (dflt : α) : Table α → Nat → α
  | [], _ => dflt
  | (k, v) :: t, n => if k = n then v else tget dflt t n

/-- The table with one key listed with a value, in its place. -/
def tput {α : Type} : Table α → Nat → α → Table α
  | [], n, v => [(n, v)]
  | (k, w) :: t, n, v => if n < k then (n, v) :: (k, w) :: t else if n = k then (n, v) :: t else (k, w) :: tput t n v

/-- The table without a key. -/
def tdrop {α : Type} (t : Table α) (n : Nat) : Table α := t.filter (fun e => e.1 != n)

/-- The table with one key given a value, the default removing the entry. -/
def tset {α : Type} [DecidableEq α] (dflt : α) (t : Table α) (n : Nat) (v : α) : Table α :=
  if v = dflt then tdrop t n else tput t n v

/-- The table with one key's value changed by a function. -/
def tmod {α : Type} [DecidableEq α] (dflt : α) (t : Table α) (n : Nat) (f : α → α) : Table α :=
  tset dflt t n (f (tget dflt t n))

/-- Every key of a table lies above a bound, keys rise and no value is the default. -/
def twfFrom {α : Type} [DecidableEq α] (dflt : α) : Nat → Table α → Bool
  | _, [] => true
  | lo, (k, v) :: t => decide (lo ≤ k) && decide (v ≠ dflt) && twfFrom dflt (k + 1) t

/-- The canonical form of a table. -/
def twf {α : Type} [DecidableEq α] (dflt : α) (t : Table α) : Bool := twfFrom dflt 0 t

/-- The values of consecutive keys. -/
def tgetMany {α : Type} (dflt : α) (t : Table α) (n len : Nat) : List α :=
  (List.range len).map (fun o => tget dflt t (n + o))

/-- The table with consecutive keys given the values of a list. -/
def tsetMany {α : Type} [DecidableEq α] (dflt : α) : Table α → Nat → List α → Table α
  | t, _, [] => t
  | t, n, v :: vs => tsetMany dflt (tset dflt t n v) (n + 1) vs

/-- The table without the keys from a bound on. -/
def tbelow {α : Type} (t : Table α) (n : Nat) : Table α := t.filter (fun e => e.1 < n)

end Sys2Proof.Machine
end

