-- ==== Sys2Proof/Syntax.lean ====
section
/-! DEFINITION. The instruction set and the steps of the device as ONE inductive: one constructor per row of
spec/opcode_table.json. The first 223 constructors are instruction words (spec/03 to spec/07) with their fields as
spec/03 Tables 3.2 to 3.9 lay them out; the last 75 are the steps of the device, the host and peers, which carry the
names of what they act on (spec/95). -/

namespace Sys2Proof

/-- What a home slice access names: an access of an outstanding memory operation (R138), or the next element of a
command of a core's skidder (R336). -/
inductive AccessRef where
  | op (id idx : Nat)
  | engine (core entry : Nat)
  deriving DecidableEq, Repr

/-- The PCIe AtomicOps the device completes (R356). -/
inductive HostAtomic where
  | fetchAdd | swap | cas
  deriving DecidableEq, Repr

/-- What a peer asks for (R363, R365): a read of `n` bytes, a write, or an atomic of Table 5.4 (`op` 0 to 13, or 14 for
compare-and-swap) of 32 or 64 bits. -/
inductive PeerKind where
  | read (n : Nat)
  | write (bytes : List (BitVec 8))
  | atomic (op : Nat) (wide : Bool) (b c : BitVec 64)
  deriving DecidableEq, Repr

/-- A request that arrives from a peer (R365, R366): the source device, its sequence number for this pair, the export
address, the key it sends, and what it asks for. -/
structure PeerReq where
  src  : Nat
  seq  : Nat
  ea   : Nat
  key  : BitVec 16
  kind : PeerKind
  deriving DecidableEq, Repr

/-- The flash regions of Table 17.1 that the flash page writes (R395, R406). -/
inductive FlashRegion where
  | slotA | slotB | records
  deriving DecidableEq, Repr

/-- The two transports that SPDM requests arrive on (R401). -/
inductive Transport where
  | doe | mctp
  deriving DecidableEq, Repr

/-- The instructions and steps of the CQ-940, one constructor per row of the opcode table. -/
inductive Instr where
  /-- ADD (R99). Adds two 32-bit thread registers modulo 2^32 in each active thread. -/
  | add (g : BitVec 4) (d a b : BitVec 6)
  /-- SUB (R99). Subtracts b from a modulo 2^32 in each active thread. -/
  | sub (g : BitVec 4) (d a b : BitVec 6)
  /-- MUL (R99). Writes the low 32 bits of a times b. -/
  | mul (g : BitVec 4) (d a b : BitVec 6)
  /-- MULH (R99). Writes the high 32 bits of the signed product of a and b. -/
  | mulh (g : BitVec 4) (d a b : BitVec 6)
  /-- MAD (R99). Writes a times b plus d, modulo 2^32. -/
  | mad (g : BitVec 4) (d a b : BitVec 6)
  /-- MIN (R99). Writes the signed minimum of a and b. -/
  | min (g : BitVec 4) (d a b : BitVec 6)
  /-- MAX (R99). Writes the signed maximum of a and b. -/
  | max (g : BitVec 4) (d a b : BitVec 6)
  /-- ABS (R99). Writes the absolute value of signed b. -/
  | abs (g : BitVec 4) (d b : BitVec 6)
  /-- NEG (R99). Writes the two's complement negation of b. -/
  | neg (g : BitVec 4) (d b : BitVec 6)
  /-- DIV (R99). Writes the signed quotient truncated toward zero, or all ones for a zero divisor. -/
  | div (g : BitVec 4) (d a b : BitVec 6)
  /-- REM (R99). Writes the signed remainder, or all ones for a zero divisor. -/
  | rem (g : BitVec 4) (d a b : BitVec 6)
  /-- LEA (R99). Adds a signed 32-bit offset to a 64-bit address pair. -/
  | lea (g : BitVec 4) (d a b : BitVec 6)
  /-- SEL (R100). Writes a where the guard holds and b elsewhere, in every issuing thread. -/
  | sel (g : BitVec 4) (d a b : BitVec 6)
  /-- MOV (R99). Copies thread register b to d. -/
  | mov (g : BitVec 4) (d b : BitVec 6)
  /-- ADD_K (R99). ADD with a uniform register as b. -/
  | addK (g : BitVec 4) (d a b : BitVec 6)
  /-- SUB_K (R99). SUB with a uniform register as b. -/
  | subK (g : BitVec 4) (d a b : BitVec 6)
  /-- MUL_K (R99). MUL with a uniform register as b. -/
  | mulK (g : BitVec 4) (d a b : BitVec 6)
  /-- MULH_K (R99). MULH with a uniform register as b. -/
  | mulhK (g : BitVec 4) (d a b : BitVec 6)
  /-- MAD_K (R99). MAD with a uniform register as b. -/
  | madK (g : BitVec 4) (d a b : BitVec 6)
  /-- MIN_K (R99). MIN with a uniform register as b. -/
  | minK (g : BitVec 4) (d a b : BitVec 6)
  /-- MAX_K (R99). MAX with a uniform register as b. -/
  | maxK (g : BitVec 4) (d a b : BitVec 6)
  /-- ABS_K (R99). ABS of a uniform register. -/
  | absK (g : BitVec 4) (d b : BitVec 6)
  /-- NEG_K (R99). NEG of a uniform register. -/
  | negK (g : BitVec 4) (d b : BitVec 6)
  /-- DIV_K (R99). DIV with a uniform register as divisor. -/
  | divK (g : BitVec 4) (d a b : BitVec 6)
  /-- REM_K (R99). REM with a uniform register as divisor. -/
  | remK (g : BitVec 4) (d a b : BitVec 6)
  /-- LEA_K (R99). LEA with a uniform register as offset. -/
  | leaK (g : BitVec 4) (d a b : BitVec 6)
  /-- SEL_K (R100). SEL with a uniform register as b. -/
  | selK (g : BitVec 4) (d a b : BitVec 6)
  /-- MOV_K (R99). Copies a uniform register into a thread register. -/
  | movK (g : BitVec 4) (d b : BitVec 6)
  /-- AND (R101). Bitwise AND of a and b. -/
  | and (g : BitVec 4) (d a b : BitVec 6)
  /-- OR (R101). Bitwise OR of a and b. -/
  | or (g : BitVec 4) (d a b : BitVec 6)
  /-- XOR (R101). Bitwise XOR of a and b. -/
  | xor (g : BitVec 4) (d a b : BitVec 6)
  /-- ANDN (R101). a AND NOT b. -/
  | andn (g : BitVec 4) (d a b : BitVec 6)
  /-- SHL (R101). Shifts a left by b, giving 0 for amounts of 32 or more. -/
  | shl (g : BitVec 4) (d a b : BitVec 6)
  /-- SHR (R101). Logical shift right of a by b. -/
  | shr (g : BitVec 4) (d a b : BitVec 6)
  /-- SRA (R101). Arithmetic shift right of a by b. -/
  | sra (g : BitVec 4) (d a b : BitVec 6)
  /-- ROT (R101). Rotates a left by b[4:0]. -/
  | rot (g : BitVec 4) (d a b : BitVec 6)
  /-- BFE (R101). Extracts a bit field of a, optionally sign-extended, controlled by b. -/
  | bfe (g : BitVec 4) (d a b : BitVec 6)
  /-- BFI (R101). Inserts the low bits of a into a field of d controlled by b. -/
  | bfi (g : BitVec 4) (d a b : BitVec 6)
  /-- POPC (R101). Counts the one bits of b. -/
  | popc (g : BitVec 4) (d b : BitVec 6)
  /-- CLZ (R101). Counts leading zero bits of b. -/
  | clz (g : BitVec 4) (d b : BitVec 6)
  /-- BREV (R101). Reverses the bits of b. -/
  | brev (g : BitVec 4) (d b : BitVec 6)
  /-- AND_K (R101). AND with a uniform register as b. -/
  | andK (g : BitVec 4) (d a b : BitVec 6)
  /-- OR_K (R101). OR with a uniform register as b. -/
  | orK (g : BitVec 4) (d a b : BitVec 6)
  /-- XOR_K (R101). XOR with a uniform register as b. -/
  | xorK (g : BitVec 4) (d a b : BitVec 6)
  /-- ANDN_K (R101). ANDN with a uniform register as b. -/
  | andnK (g : BitVec 4) (d a b : BitVec 6)
  /-- SHL_K (R101). SHL by a uniform amount. -/
  | shlK (g : BitVec 4) (d a b : BitVec 6)
  /-- SHR_K (R101). SHR by a uniform amount. -/
  | shrK (g : BitVec 4) (d a b : BitVec 6)
  /-- SRA_K (R101). SRA by a uniform amount. -/
  | sraK (g : BitVec 4) (d a b : BitVec 6)
  /-- ROT_K (R101). ROT by a uniform amount. -/
  | rotK (g : BitVec 4) (d a b : BitVec 6)
  /-- BFE_K (R101). BFE with a uniform control. -/
  | bfeK (g : BitVec 4) (d a b : BitVec 6)
  /-- BFI_K (R101). BFI with a uniform control. -/
  | bfiK (g : BitVec 4) (d a b : BitVec 6)
  /-- POPC_K (R101). POPC of a uniform register. -/
  | popcK (g : BitVec 4) (d b : BitVec 6)
  /-- CLZ_K (R101). CLZ of a uniform register. -/
  | clzK (g : BitVec 4) (d b : BitVec 6)
  /-- BREV_K (R101). BREV of a uniform register. -/
  | brevK (g : BitVec 4) (d b : BitVec 6)
  /-- ADD64 (R102). 64-bit pair addition. -/
  | add64 (g : BitVec 4) (d a b : BitVec 6)
  /-- SUB64 (R102). 64-bit pair subtraction. -/
  | sub64 (g : BitVec 4) (d a b : BitVec 6)
  /-- MUL64 (R102). Low 64 bits of a 64-bit pair product. -/
  | mul64 (g : BitVec 4) (d a b : BitVec 6)
  /-- MULH64 (R102). Bits 127-64 of the signed 128-bit product. -/
  | mulh64 (g : BitVec 4) (d a b : BitVec 6)
  /-- MIN64 (R102). Signed minimum of two pairs. -/
  | min64 (g : BitVec 4) (d a b : BitVec 6)
  /-- MAX64 (R102). Signed maximum of two pairs. -/
  | max64 (g : BitVec 4) (d a b : BitVec 6)
  /-- SHL64 (R102). Shifts a pair left by a single-register amount. -/
  | shl64 (g : BitVec 4) (d a b : BitVec 6)
  /-- SHR64 (R102). Logical right shift of a pair. -/
  | shr64 (g : BitVec 4) (d a b : BitVec 6)
  /-- SRA64 (R102). Arithmetic right shift of a pair. -/
  | sra64 (g : BitVec 4) (d a b : BitVec 6)
  /-- ADD_IMM (R103). Adds a sign-extended 10-bit immediate. -/
  | addImm (g : BitVec 4) (d a : BitVec 6) (imm : BitVec 10)
  /-- AND_IMM (R103). ANDs with a sign-extended 10-bit immediate. -/
  | andImm (g : BitVec 4) (d a : BitVec 6) (imm : BitVec 10)
  /-- OR_IMM (R103). ORs with a sign-extended 10-bit immediate. -/
  | orImm (g : BitVec 4) (d a : BitVec 6) (imm : BitVec 10)
  /-- XOR_IMM (R103). XORs with a sign-extended 10-bit immediate. -/
  | xorImm (g : BitVec 4) (d a : BitVec 6) (imm : BitVec 10)
  /-- SHL_IMM (R104). Shifts left by an immediate amount, single or pair. -/
  | shlImm (g : BitVec 4) (d a : BitVec 6) (w : BitVec 1) (amt : BitVec 6)
  /-- SHR_IMM (R104). Logical right shift by an immediate amount. -/
  | shrImm (g : BitVec 4) (d a : BitVec 6) (w : BitVec 1) (amt : BitVec 6)
  /-- SRA_IMM (R104). Arithmetic right shift by an immediate amount. -/
  | sraImm (g : BitVec 4) (d a : BitVec 6) (w : BitVec 1) (amt : BitVec 6)
  /-- ROT_IMM (R104). Rotate left by an immediate amount. -/
  | rotImm (g : BitVec 4) (d a : BitVec 6) (w : BitVec 1) (amt : BitVec 6)
  /-- MOVI (R105). Writes a sign-extended 16-bit immediate. -/
  | movi (g : BitVec 4) (d : BitVec 6) (imm : BitVec 16)
  /-- MOVH (R105). Replaces the high half of d with a 16-bit immediate. -/
  | movh (g : BitVec 4) (d : BitVec 6) (imm : BitVec 16)
  /-- CMP (R106). Compares two registers or pairs and sets or combines a predicate. -/
  | cmp (g : BitVec 4) (pd : BitVec 3) (w : BitVec 1) (comb : BitVec 2) (a b : BitVec 6) (cond : BitVec 4)
  /-- CMP_IMM (R107). Compares a register with an immediate into a predicate. -/
  | cmpImm (g : BitVec 4) (pd cond : BitVec 3) (a : BitVec 6) (imm : BitVec 10)
  /-- PLOP (R108). Combines two optionally inverted predicates into a predicate. -/
  | plop (g : BitVec 4) (pd pa pb : BitVec 3) (na nb : BitVec 1) (op : BitVec 2)
  /-- PMOVV (R109). Copies the eight predicates into a thread register. -/
  | pmovv (g : BitVec 4) (d : BitVec 6)
  /-- VPMOV (R109). Writes the masked predicates from bits of a thread register. -/
  | vpmov (g : BitVec 4) (mask : BitVec 7) (a : BitVec 6)
  /-- KMOV (R111). Copies one uniform register to another once per word. -/
  | kmov (g : BitVec 4) (d a : BitVec 6)
  /-- KMOV_IMM (R111). Writes a sign-extended 11-bit immediate to a uniform register. -/
  | kmovImm (g : BitVec 4) (d : BitVec 6) (imm : BitVec 11)
  /-- KLANE (R112). Starts reading one lane's thread register into a uniform register, filled later. -/
  | klane (g : BitVec 4) (d a b : BitVec 6)
  /-- FADD (R182). FP32 addition rounded by rm. -/
  | fadd (g : BitVec 4) (d a b : BitVec 6)
  /-- FSUB (R182). FP32 subtraction rounded by rm. -/
  | fsub (g : BitVec 4) (d a b : BitVec 6)
  /-- FMUL (R182). FP32 multiplication rounded by rm. -/
  | fmul (g : BitVec 4) (d a b : BitVec 6)
  /-- FFMA (R182). FP32 fused multiply-add with one rounding. -/
  | ffma (g : BitVec 4) (d a b : BitVec 6)
  /-- FMIN (R182). FP32 minimumNumber. -/
  | fmin (g : BitVec 4) (d a b : BitVec 6)
  /-- FMAX (R182). FP32 maximumNumber. -/
  | fmax (g : BitVec 4) (d a b : BitVec 6)
  /-- FABS (R182). Clears the FP32 sign bit. -/
  | fabs (g : BitVec 4) (d b : BitVec 6)
  /-- FNEG (R182). Inverts the FP32 sign bit. -/
  | fneg (g : BitVec 4) (d b : BitVec 6)
  /-- FADD_K (R182). FADD with a uniform operand. -/
  | faddK (g : BitVec 4) (d a b : BitVec 6)
  /-- FSUB_K (R182). FSUB with a uniform operand. -/
  | fsubK (g : BitVec 4) (d a b : BitVec 6)
  /-- FMUL_K (R182). FMUL with a uniform operand. -/
  | fmulK (g : BitVec 4) (d a b : BitVec 6)
  /-- FFMA_K (R182). FFMA with a uniform operand. -/
  | ffmaK (g : BitVec 4) (d a b : BitVec 6)
  /-- FMIN_K (R182). FMIN with a uniform operand. -/
  | fminK (g : BitVec 4) (d a b : BitVec 6)
  /-- FMAX_K (R182). FMAX with a uniform operand. -/
  | fmaxK (g : BitVec 4) (d a b : BitVec 6)
  /-- FABS_K (R182). FABS of a uniform operand. -/
  | fabsK (g : BitVec 4) (d b : BitVec 6)
  /-- FNEG_K (R182). FNEG of a uniform operand. -/
  | fnegK (g : BitVec 4) (d b : BitVec 6)
  /-- FADD_F16X2 (R183). Packed FP16 addition, element by element. -/
  | faddF16x2 (g : BitVec 4) (d a b : BitVec 6)
  /-- FSUB_F16X2 (R183). Packed FP16 subtraction. -/
  | fsubF16x2 (g : BitVec 4) (d a b : BitVec 6)
  /-- FMUL_F16X2 (R183). Packed FP16 multiplication. -/
  | fmulF16x2 (g : BitVec 4) (d a b : BitVec 6)
  /-- FFMA_F16X2 (R183). Packed FP16 fused multiply-add. -/
  | ffmaF16x2 (g : BitVec 4) (d a b : BitVec 6)
  /-- FMIN_F16X2 (R183). Packed FP16 minimumNumber. -/
  | fminF16x2 (g : BitVec 4) (d a b : BitVec 6)
  /-- FMAX_F16X2 (R183). Packed FP16 maximumNumber. -/
  | fmaxF16x2 (g : BitVec 4) (d a b : BitVec 6)
  /-- FABS_F16X2 (R183). Packed FP16 absolute value. -/
  | fabsF16x2 (g : BitVec 4) (d b : BitVec 6)
  /-- FNEG_F16X2 (R183). Packed FP16 negation. -/
  | fnegF16x2 (g : BitVec 4) (d b : BitVec 6)
  /-- FADD_BF16X2 (R183). Packed BF16 addition. -/
  | faddBf16x2 (g : BitVec 4) (d a b : BitVec 6)
  /-- FSUB_BF16X2 (R183). Packed BF16 subtraction. -/
  | fsubBf16x2 (g : BitVec 4) (d a b : BitVec 6)
  /-- FMUL_BF16X2 (R183). Packed BF16 multiplication. -/
  | fmulBf16x2 (g : BitVec 4) (d a b : BitVec 6)
  /-- FFMA_BF16X2 (R183). Packed BF16 fused multiply-add. -/
  | ffmaBf16x2 (g : BitVec 4) (d a b : BitVec 6)
  /-- FMIN_BF16X2 (R183). Packed BF16 minimumNumber. -/
  | fminBf16x2 (g : BitVec 4) (d a b : BitVec 6)
  /-- FMAX_BF16X2 (R183). Packed BF16 maximumNumber. -/
  | fmaxBf16x2 (g : BitVec 4) (d a b : BitVec 6)
  /-- FABS_BF16X2 (R183). Packed BF16 absolute value. -/
  | fabsBf16x2 (g : BitVec 4) (d b : BitVec 6)
  /-- FNEG_BF16X2 (R183). Packed BF16 negation. -/
  | fnegBf16x2 (g : BitVec 4) (d b : BitVec 6)
  /-- FRCP (R186). Starts an FP32 reciprocal whose result arrives later. -/
  | frcp (g : BitVec 4) (d b : BitVec 6)
  /-- FRSQ (R186). Starts an FP32 reciprocal square root. -/
  | frsq (g : BitVec 4) (d b : BitVec 6)
  /-- FSQRT (R186). Starts a correctly rounded FP32 square root. -/
  | fsqrt (g : BitVec 4) (d b : BitVec 6)
  /-- FEX2 (R186). Starts an FP32 base-2 exponential. -/
  | fex2 (g : BitVec 4) (d b : BitVec 6)
  /-- FLG2 (R186). Starts an FP32 base-2 logarithm. -/
  | flg2 (g : BitVec 4) (d b : BitVec 6)
  /-- FSIN (R186). Starts sin(pi x). -/
  | fsin (g : BitVec 4) (d b : BitVec 6)
  /-- FCOS (R186). Starts cos(pi x). -/
  | fcos (g : BitVec 4) (d b : BitVec 6)
  /-- FTANH (R186). Starts tanh x. -/
  | ftanh (g : BitVec 4) (d b : BitVec 6)
  /-- FCLS (R187). Starts classification of an FP32 value into a one-hot mask. -/
  | fcls (g : BitVec 4) (d b : BitVec 6)
  /-- FCMP (R188). Compares two FP32 values into a predicate. -/
  | fcmp (g : BitVec 4) (pd : BitVec 3) (comb : BitVec 2) (a b : BitVec 6) (cond : BitVec 4)
  /-- CVT (R190). Converts between floating and integer formats. -/
  | cvt (g : BitVec 4) (d a : BitVec 6) (src : BitVec 4) (sat rz : BitVec 1) (dst : BitVec 4)
  /-- CVTPK (R191). Converts a group of FP32 values and packs them into one word. -/
  | cvtpk (g : BitVec 4) (d a : BitVec 6) (fmt : BitVec 4) (sat rz : BitVec 1)
  /-- CVTUP (R192). Unpacks one word of narrow elements into a register group. -/
  | cvtup (g : BitVec 4) (d a : BitVec 6) (fmt : BitVec 4)
  /-- LD (R141). Starts a load from any space into a thread register or group. -/
  | ld (g : BitVec 4) (d a : BitVec 6) (size : BitVec 3) (sp : BitVec 2) (off : BitVec 5)
  /-- ST (R141). Issues a store from a thread register or group. -/
  | st (g : BitVec 4) (d a : BitVec 6) (size : BitVec 3) (sp : BitVec 2) (off : BitVec 5)
  /-- LDX (R144). Starts one load for the gang into uniform registers. -/
  | ldx (g : BitVec 4) (d a : BitVec 6) (size sp : BitVec 2) (off : BitVec 4)
  /-- STX (R144). Issues one store for the gang from uniform registers. -/
  | stx (g : BitVec 4) (d a : BitVec 6) (size sp : BitVec 2) (off : BitVec 4)
  /-- LDRO (R142). Starts a load through the read-only path. -/
  | ldro (g : BitVec 4) (d a : BitVec 6) (size : BitVec 3) (sp : BitVec 2) (off : BitVec 5)
  /-- FENCE (R145). Release waits for the gang's ld and st counters; acquire invalidates L1 and may advance the shared-line generation. -/
  | fence (g : BitVec 4) (scope : BitVec 3) (kind : BitVec 2)
  /-- WAIT (R146). Suspends the unit until a counter condition holds. -/
  | wait (g : BitVec 4) (ctr : BitVec 3) (thr : BitVec 6)
  /-- PF (R148). Requests lines into L1 or L2. -/
  | pf (g : BitVec 4) (lvl : BitVec 2) (a lines : BitVec 6)
  /-- CMAINT_DROP_L1 (R148). Invalidates every non-read-only line of the core's L1. -/
  | cmaintDropL1 (g : BitVec 4)
  /-- CMAINT_CLEAN_L2 (R148). Writes back dirty bytes of a range from the cluster L2 and keeps the lines. -/
  | cmaintCleanL2 (g : BitVec 4) (a lines : BitVec 6)
  /-- CMAINT_FLUSH_L2 (R148). Writes back and invalidates a range of the cluster L2. -/
  | cmaintFlushL2 (g : BitVec 4) (a lines : BitVec 6)
  /-- CMAINT_DROP_L2 (R148). Invalidates a range of the cluster L2 without write-back. -/
  | cmaintDropL2 (g : BitVec 4) (a lines : BitVec 6)
  /-- LDP (R155). Starts loading the sign and leading planes of a plane block into a q register. -/
  | ldp (g q : BitVec 4) (kq : BitVec 6) (n : BitVec 4) (pd : BitVec 3)
  /-- LDPR (R156). Starts refining a q register with further planes of the same block. -/
  | ldpr (g q : BitVec 4) (kq : BitVec 6) (n : BitVec 4) (pd : BitVec 3)
  /-- STP (R154). Stores a block's planes and head from a q register, serialised at the head. -/
  | stp (g q : BitVec 4) (kq : BitVec 6)
  /-- QUNP (R160). Converts a q register lane to a numeric value. -/
  | qunp (g : BitVec 4) (d : BitVec 6) (q : BitVec 4) (mid : BitVec 1) (ty : BitVec 3)
  /-- QPK (R161). Quantises one value per lane into a q register. -/
  | qpk (g q : BitVec 4) (a : BitVec 6) (n : BitVec 4) (mode : BitVec 1) (ty : BitVec 2)
  /-- QTAG_GET (R162). Reads a q register's tag. -/
  | qtagGet (g : BitVec 4) (d : BitVec 6) (q : BitVec 4)
  /-- QTAG_SET (R162). Writes a q register's tag and clears planes above planes held. -/
  | qtagSet (g : BitVec 4) (d : BitVec 6) (q : BitVec 4)
  /-- SHFL (R129). Reads a register from a lane given by index. -/
  | shfl (g : BitVec 4) (d a b : BitVec 6)
  /-- SHFLD (R129). Reads a register from the lane at a signed offset. -/
  | shfld (g : BitVec 4) (d a b : BitVec 6)
  /-- SHFLX (R129). Reads a register from the lane XOR m. -/
  | shflx (g : BitVec 4) (d a b : BitVec 6)
  /-- PCONS (R130). Writes a predicate consensus over participants. -/
  | pcons (g : BitVec 4) (d a b : BitVec 6)
  /-- LMASK (R130). Writes the lane mask of participants whose predicate is true. -/
  | lmask (g : BitVec 4) (d a : BitVec 6)
  /-- RED (R131). Reduces participants' values in a fixed tree order. -/
  | red (g : BitVec 4) (d a : BitVec 6) (op : BitVec 4)
  /-- SCAN (R131). Computes inclusive or exclusive prefix combinations. -/
  | scan (g : BitVec 4) (d a : BitVec 6) (excl : BitVec 1) (op : BitVec 4)
  /-- MATCH (R132). Writes the mask of participants holding an equal value. -/
  | matchEq (g : BitVec 4) (d a : BitVec 6)
  /-- CONFLICT (R132). Writes the mask of lower participants holding an equal value. -/
  | conflict (g : BitVec 4) (d a : BitVec 6)
  /-- HIST (R132). Writes the count of participants whose value equals the lane number. -/
  | hist (g : BitVec 4) (d a : BitVec 6)
  /-- JINIT (R122). Arms or re-arms a join register with a membership mask. -/
  | jinit (g : BitVec 4) (a j : BitVec 6)
  /-- JSIGN (R122). Makes a plain signature on a join register and returns the phase. -/
  | jsign (g : BitVec 4) (d j : BitVec 6)
  /-- JWAIT (R124). Suspends the unit until the join phase passes the named value. -/
  | jwait (g : BitVec 4) (a j : BitVec 6)
  /-- JLEAVE (R122). Removes active threads from a join register's membership. -/
  | jleave (g : BitVec 4) (j : BitVec 6)
  /-- GSPLIT (R119). Splits the issuing threads into sub-gangs by a predicate. -/
  | gsplit (g : BitVec 4) (d a : BitVec 6) (inv : BitVec 1)
  /-- GJOIN (R120). Threads arrive with a mask and wait to merge into one unit. -/
  | gjoin (g : BitVec 4) (a : BitVec 6)
  /-- BRU (R114). Conditional branch of the whole unit, or NONUNIFORM_BRANCH. -/
  | bru (g : BitVec 4) (off : BitVec 22)
  /-- JMP (R114). Relative jump to a clause header. -/
  | jmp (g : BitVec 4) (off : BitVec 22)
  /-- CALL (R114). Relative call that writes the return address to v62:v63. -/
  | call (g : BitVec 4) (off : BitVec 22)
  /-- RET (R115). Transfers to the address in a thread register pair. -/
  | ret (g : BitVec 4) (d : BitVec 6)
  /-- JMPI (R115). Indirect jump through a v or k pair. -/
  | jmpi (g : BitVec 4) (d : BitVec 6) (cls : BitVec 1)
  /-- EXIT (R116). Ends each active thread and leaves its joins. -/
  | exit (g : BitVec 4)
  /-- BRK (R117). Raises BREAKPOINT in each active thread. -/
  | brk (g : BitVec 4) (imm : BitVec 18)
  /-- TRAP (R117). Raises SOFTWARE in each active thread. -/
  | trap (g : BitVec 4) (imm : BitVec 18)
  /-- YIELD (R118). Ends the run and counts as the unit's last issue. -/
  | yield (g : BitVec 4)
  /-- MADDM (R218). Modular addition with Barrett reduction. -/
  | maddm (g : BitVec 4) (d a b : BitVec 5) (slot : BitVec 2)
  /-- MSUBM (R218). Modular subtraction. -/
  | msubm (g : BitVec 4) (d a b : BitVec 5) (slot : BitVec 2)
  /-- MNEGM (R218). Modular negation. -/
  | mnegm (g : BitVec 4) (d b : BitVec 5) (slot : BitVec 2)
  /-- MMULM (R218). Modular multiplication. -/
  | mmulm (g : BitVec 4) (d a b : BitVec 5) (slot : BitVec 2)
  /-- MMACM (R218). Modular multiply-accumulate into d. -/
  | mmacm (g : BitVec 4) (d a b : BitVec 5) (slot : BitVec 2)
  /-- MREDM (R218). Barrett reduction of b. -/
  | mredm (g : BitVec 4) (d b : BitVec 5) (slot : BitVec 2)
  /-- BFLYCT (R218). Cooley-Tukey butterfly with a twiddle. -/
  | bflyct (g : BitVec 4) (d a b : BitVec 5) (slot : BitVec 2)
  /-- BFLYGS (R218). Gentleman-Sande butterfly with a twiddle. -/
  | bflygs (g : BitVec 4) (d a b : BitVec 5) (slot : BitVec 2)
  /-- NPERM (R220). Exchanges 64-bit values across lane bit s, swapped or ordered. -/
  | nperm (g : BitVec 4) (d a : BitVec 6) (sh : BitVec 3) (mode : BitVec 1)
  /-- NREV (R221). Permutes 64-bit values by reversing the low k lane bits. -/
  | nrev (g : BitVec 4) (d a : BitVec 6) (k : BitVec 3)
  /-- NAUTO (R222). Applies a Galois automorphism to a polynomial held across lanes. -/
  | nauto (g : BitVec 4) (d a kg : BitVec 6)
  /-- MODSET (R216). Writes a modulus slot, computing the constant under .auto. -/
  | modset (g : BitVec 4) (a b : BitVec 6) (slot : BitVec 2) (auto : BitVec 1)
  /-- SPBEGIN (R227). Opens a speculative window on a descriptor and suspends until it is open. -/
  | spbegin (g : BitVec 4) (d kr : BitVec 6)
  /-- SPST (R228). Stores into a window's draft page. -/
  | spst (g : BitVec 4) (d a : BitVec 6) (size : BitVec 3)
  /-- SPLD (R229). Loads, reaching window-owned pages with a current handle. -/
  | spld (g : BitVec 4) (d a : BitVec 6) (size : BitVec 3)
  /-- SPALLOC (R230). Pops one block from the free stack for the window and logs it. -/
  | spalloc (g : BitVec 4) (d a : BitVec 6)
  /-- SPSTATE (R231). Issues a skidder copy of state bytes into a checkpoint slot. -/
  | spstate (g : BitVec 4) (ks kp : BitVec 6)
  /-- SPCOMMIT (R232). Checks the handle and keep and issues the commit to the skidder. -/
  | spcommit (g : BitVec 4) (kh kk : BitVec 6)
  /-- SPABORT (R234). Checks the handle and issues an abort of the window. -/
  | spabort (g : BitVec 4) (kh : BitVec 6)
  /-- SPQUERY (R235). Writes a window's status summary to a uniform register. -/
  | spquery (g : BitVec 4) (d kh : BitVec 6)
  /-- TREEMASK (R239). Builds ancestor masks for a candidate tree across participants. -/
  | treemask (g : BitVec 4) (d a : BitVec 6)
  /-- SYSR (R241). Reads a system register. -/
  | sysr (g : BitVec 4) (d : BitVec 6) (num : BitVec 8)
  /-- SYSW (R241). Writes a system register; a write to sys.tcause leaves handler state. -/
  | sysw (g : BitVec 4) (a : BitVec 6) (num : BitVec 8)
  /-- TRAPRET (R242). Returns the threads to the resume point in sys.tpc and leaves handler state. -/
  | trapret (g : BitVec 4)
  /-- TLBINV (R243). Removes translations from every cluster TLB and matching L1 lines. -/
  | tlbinv (g : BitVec 4) (every ctx : BitVec 1) (ka kn : BitVec 6)
  /-- CWB (R244). Writes back the cluster's dirty L2 lines of the context or all contexts. -/
  | cwb (g : BitVec 4) (ctx : BitVec 1)
  /-- BANKMODE (R245). Requests a change of the cluster's bank modes and returns the result. -/
  | bankmode (g : BitVec 4) (d a : BitVec 6)
  /-- LAUNCH (R246). Pushes a child launch onto the die's device launch queue. -/
  | launch (g : BitVec 4) (d kt kp : BitVec 6)
  /-- FQRP_REPLAY (R247). Retries every parked element of the gang's fault queue. -/
  | fqrpReplay (g : BitVec 4) (d : BitVec 6)
  /-- FQRP_SKIP (R247). Removes every parked element, zero-filling gathers. -/
  | fqrpSkip (g : BitVec 4) (d : BitVec 6)
  /-- FQRP_PEEK (R247). Returns the oldest fault-queue entry without removing it. -/
  | fqrpPeek (g : BitVec 4) (d : BitVec 6)
  /-- HALT (R248). Freezes the issuing context with a code reported to the host. -/
  | halt (g : BitVec 4) (imm : BitVec 18)
  /-- MMA (R203). Signs or issues a matrix multiply-accumulate of unscaled operands into a tile. -/
  | mma (g : BitVec 4) (a : BitVec 3) (fa fb : BitVec 5) (sat : BitVec 1) (ra rb : BitVec 6) (sa sb : BitVec 1) (gm : BitVec 6) (z : BitVec 1) (j : BitVec 4)
  /-- MMAS (R203). Signs or issues a block-scaled matrix multiply-accumulate. -/
  | mmas (g : BitVec 4) (a : BitVec 3) (fa fb : BitVec 5) (sat : BitVec 1) (ra rb : BitVec 6) (sa sb : BitVec 1) (gm : BitVec 6) (z : BitVec 1) (ks : BitVec 6) (j : BitVec 4)
  /-- MCONV (R207). Signs or issues an implicit-convolution matrix operation. -/
  | mconv (g : BitVec 4) (a : BitVec 3) (fa fb : BitVec 5) (sat : BitVec 1) (kr rb : BitVec 6) (sb : BitVec 1) (gm : BitVec 6) (z : BitVec 1) (ko : BitVec 6) (j : BitVec 4)
  /-- MTRN (R209). Signs or issues a tile transposition. -/
  | mtrn (g : BitVec 4) (d t : BitVec 3) (acc sat : BitVec 1) (j : BitVec 4)
  /-- MPERM (R209). Signs or issues a row or column permutation of a tile. -/
  | mperm (g : BitVec 4) (d t : BitVec 3) (acc mode sat : BitVec 1) (kp : BitVec 6) (j : BitVec 4)
  /-- MRED (R209). Signs or issues a row or column reduction of a tile. -/
  | mred (g : BitVec 4) (d t : BitVec 3) (acc mode sat : BitVec 1) (j : BitVec 4)
  /-- ACCZ (R210). Signs or issues zeroing of a tile. -/
  | accz (g : BitVec 4) (t : BitVec 3) (j : BitVec 4)
  /-- ACCLD (R211). Signs or issues a tile load from memory. -/
  | accld (g : BitVec 4) (t : BitVec 3) (fmt sp : BitVec 2) (kx : BitVec 6) (pitch : BitVec 16) (j : BitVec 4)
  /-- ACCST (R211). Signs or issues a tile store to memory. -/
  | accst (g : BitVec 4) (t : BitVec 3) (fmt : BitVec 2) (sat : BitVec 1) (sp : BitVec 2) (kx : BitVec 6) (pitch : BitVec 16) (j : BitVec 4)
  /-- ACCRD (R212). Reads tile elements into thread registers in tile order. -/
  | accrd (g : BitVec 4) (t : BitVec 3) (v : BitVec 6) (n : BitVec 2) (kpos : BitVec 6)
  /-- ACCWR (R212). Writes thread registers into tile elements in tile order. -/
  | accwr (g : BitVec 4) (t : BitVec 3) (v : BitVec 6) (n : BitVec 2) (kpos : BitVec 6)
  /-- ATOM (R149). Performs an atomic read-modify-write at the point of coherence of its scope. -/
  | atom (g : BitVec 4) (d a : BitVec 6) (sp : BitVec 2) (b : BitVec 6) (op : BitVec 4) (w : BitVec 1) (scope : BitVec 3) (order : BitVec 2) (noret : BitVec 1) (off : BitVec 14)
  /-- CAS (R149). Performs an atomic compare-and-swap. -/
  | cas (g : BitVec 4) (d a : BitVec 6) (sp : BitVec 2) (b c : BitVec 6) (w : BitVec 1) (scope : BitVec 3) (order : BitVec 2) (off : BitVec 14)
  /-- CPY (R168). Signs or issues a skidder copy of one segment per participant. -/
  | cpy (g : BitVec 4) (dst src : BitVec 6) (dsp ssp : BitVec 2) (j : BitVec 4) (words : BitVec 10)
  /-- CPYT (R170). Signs or issues a box copy between a tensor and a dense tile. -/
  | cpyt (g : BitVec 4) (kr kc kt : BitVec 6) (dir sp ring : BitVec 1) (j : BitVec 4)
  /-- CPYP (R172). Signs or issues a copy of plane indices of blocks into a plane tile. -/
  | cpyp (g : BitVec 4) (kq kt : BitVec 6) (lo hi : BitVec 5) (sp ring : BitVec 1) (j : BitVec 4) (t : BitVec 10)
  /-- CPYX (R173). Signs or issues a row gather or scatter between a table and a tile. -/
  | cpyx (g : BitVec 4) (vi kb kd : BitVec 6) (sp dir : BitVec 1) (j : BitVec 4) (row : BitVec 12)
  /-- CPYF (R175). Signs or issues a hand-off of rows to the forwarder. -/
  | cpyf (g : BitVec 4) (vd ks kr : BitVec 6) (sp : BitVec 1) (j : BitVec 4) (row : BitVec 12)
  /-- RINGINIT (R177). Writes a ring record and resets every slot header. -/
  | ringinit (g : BitVec 4) (kr : BitVec 6) (slots : BitVec 4) (size : BitVec 16)
  /-- RAWAIT (R179). Suspends until a ring slot reaches a generation and plane count, then acquires. -/
  | rawait (g : BitVec 4) (kr kt : BitVec 6) (n : BitVec 5)
  /-- RREL (R180). Releases a ring slot to its next generation. -/
  | rrel (g : BitVec 4) (kr kt : BitVec 6)
  /-- ARBITRATION (R21). A core chooses a ready unit and begins a run. -/
  | arbitration (core : Nat)
  /-- PRODUCER_COMPLETE (R27). A long-latency producer writes its destinations and marks them full. -/
  | producerComplete (op : Nat)
  /-- STORE_ACKNOWLEDGED (R138). A store is acknowledged at its point of coherence and its counter drains. -/
  | storeAcknowledged (op : Nat)
  /-- PAGE_WALK_COMPLETE (R257). A page-table walk ends and its access proceeds or faults. -/
  | pageWalkComplete (op idx : Nat)
  /-- HOME_SLICE_ACCESS (R269). A home slice performs an access to one of its addresses. -/
  | homeSliceAccess (ref : AccessRef)
  /-- COMMAND_COMPLETE (R138). A skidder or forwarder command completes and its counter drains. -/
  | commandComplete (core entry : Nat)
  /-- MATRIX_COMMAND_COMPLETE (R194). A matrix command finishes writing its tile. -/
  | matrixCommandComplete (core id : Nat)
  /-- RING_COMMAND_START (R178). A ring-targeted command starts once the slot reaches its generation. -/
  | ringCommandStart (core entry : Nat)
  /-- ASYNC_COPY_FAULT (R336). A skidder command meets a fault at an element and stops. -/
  | asyncCopyFault (core entry : Nat)
  /-- ELEMENT_PARKED (R174). A CPYX element with no valid page is parked in the fault queue. -/
  | elementParked (core entry : Nat)
  /-- DEFERRED_FAULT_DELIVERY (R137). A fault known after its word issued is delivered before the thread's next word. -/
  | deferredFaultDelivery (block gang lane : Nat)
  /-- SLOT_RELEASE (R16). An ended gang's slot is released once all its counters read zero. -/
  | slotRelease (block gang : Nat)
  /-- WINDOW_OPEN (R227). The descriptor step of SPBEGIN completes and the window opens. -/
  | windowOpen (block gang lane : Nat)
  /-- SPCOMMIT_EXECUTE (R232). The skidder runs a commit after earlier window work completes. -/
  | spcommitExecute (core entry : Nat)
  /-- SPABORT_EXECUTE (R234). The skidder runs an abort, pushing logged blocks and closing ABORTED. -/
  | spabortExecute (core entry : Nat)
  /-- QUEUE_ENABLE (R306). Setting QCTL enable resets QHEAD and QCSEQ and starts taking records. -/
  | queueEnable (q : BitVec 12) (value : BitVec 32)
  /-- QUEUE_DISABLE (R306). Clearing QCTL enable stops the taking of records. -/
  | queueDisable (q : BitVec 12) (value : BitVec 32)
  /-- QUEUE_PRIORITY_WEIGHT (R306). A write changing a queue's priority or weight. -/
  | queuePriorityWeight (q : BitVec 12) (value : BitVec 32)
  /-- QTAIL (R307). A write of QTAIL makes appended records available to the distributor. -/
  | qtail (q : BitVec 12) (value : BitVec 32)
  /-- QSTAT_CLEAR_STOPPED (R310). Writing 1 to QSTAT bit 30 clears the refusal and rereads the record. -/
  | qstatClearStopped (q : BitVec 12)
  /-- RECORD_TAKE (R307). The distributor reads and checks the next launch record. -/
  | recordTake (q : BitVec 12)
  /-- LANDING_ENTRY (R312). A taken launch enters the landing once its dependences and queue order allow. -/
  | landingEntry (launch : Nat)
  /-- CHAIN_PLACEMENT (R313). The distributor places a stage chain on a run of cores. -/
  | chainPlacement
  /-- BLOCK_SAVE (R346). A block is saved at its run boundary after draining and written to the save area. -/
  | blockSave (block : Nat)
  /-- LAUNCH_COMPLETE (R308). A launch completes and its sequence number is published in order. -/
  | launchComplete (launch : Nat)
  /-- CHILD_TEMPLATE_READ (R320). A child launch's template is read and checked when it is oldest waiting. -/
  | childTemplateRead (die : BitVec 1)
  /-- DQERR_CLEAR (R322). Writing 0 to DQERR clears the device-queue error. -/
  | dqerrClear (die : BitVec 1)
  /-- KERNEL_NODE_RUN (R325). A graph kernel node runs as a launch once its incoming edges resolve. -/
  | kernelNodeRun (launch node : Nat)
  /-- COPY_NODE (R325). A graph copy node copies through the home slices. -/
  | copyNode (launch node : Nat)
  /-- CONDITION_NODE (R325). A graph condition node reads its word and completes. -/
  | conditionNode (launch node : Nat)
  /-- LOOP_NODE (R325). A loop node reads its word and issues its body or completes. -/
  | loopNode (launch node : Nat)
  /-- CONTEXT_ENABLE (R340). Setting CTXCTL enable makes a context resident. -/
  | contextEnable (c : BitVec 6) (value : BitVec 32)
  /-- CONTEXT_FREEZE_REQUEST (R342). A host write of CTXCTL bit 27 freezes the context. -/
  | contextFreezeRequest (c : BitVec 6)
  /-- CONTEXT_EVICT (R346). A host write of CTXCTL bit 26 saves every placed block of the context. -/
  | contextEvict (c : BitVec 6)
  /-- CONTEXT_THAW (R344). A host write of CTXCTL bit 29 thaws a frozen context. -/
  | contextThaw (c : BitVec 6)
  /-- CONTEXT_TEARDOWN (R345). A host write of CTXCTL bit 28 starts teardown of the context. -/
  | contextTeardown (c : BitVec 6)
  /-- TEARDOWN_END (R345). Teardown finishes after outstanding operations complete. -/
  | teardownEnd (c : BitVec 6)
  /-- HOST_BAR2_READ (R359). A host read through BAR2 is performed at the home slice. -/
  | hostBar2Read (pa : BitVec 40) (len : Nat)
  /-- HOST_BAR2_WRITE (R359). A host write through BAR2 is performed at the home slice. -/
  | hostBar2Write (pa : BitVec 40) (bytes : List (BitVec 8))
  /-- HOST_ATOMICOP (R356). The device completes a PCIe AtomicOp from the host. -/
  | hostAtomicop (pa : BitVec 40) (op : HostAtomic) (wide : Bool) (b c : BitVec 64)
  /-- PEER_REQUEST (R365). A request from a peer is checked against the export table and performed. -/
  | peerRequest (req : PeerReq)
  /-- PORT_STATE_CHANGE (R366). A UALink port goes up or down and requests are resent. -/
  | portStateChange (port : BitVec 5) (up : Bool)
  /-- PEER_RESEND (R366). A request returned unacknowledged is resent on the next up port. -/
  | peerResend (op idx : Nat)
  /-- FORWARDER_ROW_SEND (R369). The forwarder sends a row from a send queue to its destination. -/
  | forwarderRowSend (die : BitVec 1)
  /-- FWDERR_CLEAR (R371). Writing 0 to FWDERR clears the forwarder drop record. -/
  | fwderrClear (die : BitVec 1)
  /-- CBREQ (R377). A write to CBREQ requests a bank mode change for the cluster. -/
  | cbreq (cluster : Nat) (value : BitVec 32)
  /-- BANK_MODE_CHANGE (R377). A cluster serves one bank mode change request through its four stages. -/
  | bankModeChange (cluster : Nat)
  /-- CBHEALTH (R389). A write requests bank health changes, retiring banks through a mode change. -/
  | cbhealth (cluster : Nat) (value : BitVec 64)
  /-- SELOG_CLEAR (R375). Writing SELOGCTL bit 0 clears the SRAM error log and overflow. -/
  | selogClear (cluster : Nat)
  /-- TRANSFER_RETRY (R382). A vertical-bus transfer that failed parity is resent alone. -/
  | transferRetry (stack pc : Nat)
  /-- PSEUDO_CHANNEL_HOLD (R382). After the fourth failed retry the controller holds the pseudo-channel and tests its lanes. -/
  | pseudoChannelHold (stack pc : Nat)
  /-- HREL_RELEASE (R383). HREL action 1 resumes a held pseudo-channel with a fresh retry count. -/
  | hrelRelease (stack pc : Nat)
  /-- HREL_FAIL (R383). HREL action 2 completes the failing access as uncorrectable. -/
  | hrelFail (stack pc : Nat)
  /-- HSWAP (R384). A write assigns spare lanes of a pseudo-channel from its next transfer. -/
  | hswap (stack pc : Nat) (value : BitVec 32)
  /-- HLOG_CLEAR_ARRAY (R386). Writing HLOGCTL bit 0 clears the array log and its overflow. -/
  | hlogClearArray (stack : Nat)
  /-- HLOG_CLEAR_TRANSFER (R386). Writing HLOGCTL bit 1 clears the transfer log and its overflow. -/
  | hlogClearTransfer (stack : Nat)
  /-- POWER_ON_RESET (R397). Power-on or reset runs the boot sequence from ROM to ready. -/
  | powerOnReset
  /-- RESETREQ (R399). Writing 0xB007_0001 resets the whole module. -/
  | resetreq (value : BitVec 32)
  /-- FLASH_PAGE_WRITE (R395). A write through the flash page updates a slot or record region. -/
  | flashPageWrite (region : FlashRegion) (offset : Nat) (bytes : List (BitVec 8))
  /-- CLOCK_STEP (R404). The arithmetic clock moves one 250 MHz step to hold power and temperature limits. -/
  | clockStep
  /-- THERMTRIP (R405). A die at 105 C drives THERMTRIP_N low until reset. -/
  | thermtrip (die : BitVec 1)
  /-- GET_VERSION (R401). Answers an SPDM GET_VERSION request. -/
  | getVersion (t : Transport)
  /-- GET_CAPABILITIES (R401). Answers an SPDM GET_CAPABILITIES request. -/
  | getCapabilities (t : Transport)
  /-- NEGOTIATE_ALGORITHMS (R401). Answers an SPDM NEGOTIATE_ALGORITHMS request. -/
  | negotiateAlgorithms (t : Transport) (ecdsaP256 sha256 : Bool)
  /-- GET_DIGESTS (R401). Returns certificate chain digests for slot 0. -/
  | getDigests (t : Transport)
  /-- GET_CERTIFICATE (R401). Returns the certificate chain of slot 0. -/
  | getCertificate (t : Transport) (slot : BitVec 8) (offset len : Nat)
  /-- CHALLENGE (R401). Answers an SPDM CHALLENGE signed with the alias key. -/
  | challenge (t : Transport) (slot : BitVec 8) (nonce : BitVec 256)
  /-- GET_MEASUREMENTS (R401). Returns the boot measurements, signed with the alias key. -/
  | getMeasurements (t : Transport) (index : BitVec 8) (nonce : BitVec 256)
  /-- UNSUPPORTEDREQUEST (R401). Answers session or certificate-setting requests with the error UnsupportedRequest. -/
  | unsupportedrequest (t : Transport) (code : BitVec 8)
  /-- REGISTER_WRITE (R6). A write to a device register that has no row of its own stores the value under its map. -/
  | registerWrite (offset : BitVec 25) (value : BitVec 64)
  /-- ARITHMETIC_CLOCK_CYCLE (R36). Each arithmetic-clock cycle raises every powered core's sys.cyc by one, wrapping modulo 2^64. -/
  | arithmeticClockCycle
  /-- HOST_INVALIDATION (R257). The host's invalidation of translations, after which no device access may use the old page-table entry. -/
  | hostInvalidation (c : BitVec 6) (every : Bool) (va : BitVec 64) (len : Nat)
  /-- CXL_MEM_ACCESS (R356). A host CXL.mem request to the host-managed device memory range is performed at a home slice with back-invalidation. -/
  | cxlMemAccess (pa : BitVec 40) (write : Option (List (BitVec 8))) (len : Nat)
  /-- LINK_TRAINING (R356). The host link trains or retrains, fixing its rate, its width and whether CXL 3.1 is negotiated. -/
  | linkTraining (rate width : Nat) (cxl : Bool)
  /-- POWER_OFF (R395). Removal of module power discards all volatile state, leaving only flash. -/
  | powerOff
  deriving DecidableEq, Repr

/-- Whether the row is an instruction word that code holds (spec/03), rather than a step of the device, the host or a
peer (spec/95). -/
def Instr.isWord : Instr → Bool
  | .add _ _ _ _ => true
  | .sub _ _ _ _ => true
  | .mul _ _ _ _ => true
  | .mulh _ _ _ _ => true
  | .mad _ _ _ _ => true
  | .min _ _ _ _ => true
  | .max _ _ _ _ => true
  | .abs _ _ _ => true
  | .neg _ _ _ => true
  | .div _ _ _ _ => true
  | .rem _ _ _ _ => true
  | .lea _ _ _ _ => true
  | .sel _ _ _ _ => true
  | .mov _ _ _ => true
  | .addK _ _ _ _ => true
  | .subK _ _ _ _ => true
  | .mulK _ _ _ _ => true
  | .mulhK _ _ _ _ => true
  | .madK _ _ _ _ => true
  | .minK _ _ _ _ => true
  | .maxK _ _ _ _ => true
  | .absK _ _ _ => true
  | .negK _ _ _ => true
  | .divK _ _ _ _ => true
  | .remK _ _ _ _ => true
  | .leaK _ _ _ _ => true
  | .selK _ _ _ _ => true
  | .movK _ _ _ => true
  | .and _ _ _ _ => true
  | .or _ _ _ _ => true
  | .xor _ _ _ _ => true
  | .andn _ _ _ _ => true
  | .shl _ _ _ _ => true
  | .shr _ _ _ _ => true
  | .sra _ _ _ _ => true
  | .rot _ _ _ _ => true
  | .bfe _ _ _ _ => true
  | .bfi _ _ _ _ => true
  | .popc _ _ _ => true
  | .clz _ _ _ => true
  | .brev _ _ _ => true
  | .andK _ _ _ _ => true
  | .orK _ _ _ _ => true
  | .xorK _ _ _ _ => true
  | .andnK _ _ _ _ => true
  | .shlK _ _ _ _ => true
  | .shrK _ _ _ _ => true
  | .sraK _ _ _ _ => true
  | .rotK _ _ _ _ => true
  | .bfeK _ _ _ _ => true
  | .bfiK _ _ _ _ => true
  | .popcK _ _ _ => true
  | .clzK _ _ _ => true
  | .brevK _ _ _ => true
  | .add64 _ _ _ _ => true
  | .sub64 _ _ _ _ => true
  | .mul64 _ _ _ _ => true
  | .mulh64 _ _ _ _ => true
  | .min64 _ _ _ _ => true
  | .max64 _ _ _ _ => true
  | .shl64 _ _ _ _ => true
  | .shr64 _ _ _ _ => true
  | .sra64 _ _ _ _ => true
  | .addImm _ _ _ _ => true
  | .andImm _ _ _ _ => true
  | .orImm _ _ _ _ => true
  | .xorImm _ _ _ _ => true
  | .shlImm _ _ _ _ _ => true
  | .shrImm _ _ _ _ _ => true
  | .sraImm _ _ _ _ _ => true
  | .rotImm _ _ _ _ _ => true
  | .movi _ _ _ => true
  | .movh _ _ _ => true
  | .cmp _ _ _ _ _ _ _ => true
  | .cmpImm _ _ _ _ _ => true
  | .plop _ _ _ _ _ _ _ => true
  | .pmovv _ _ => true
  | .vpmov _ _ _ => true
  | .kmov _ _ _ => true
  | .kmovImm _ _ _ => true
  | .klane _ _ _ _ => true
  | .fadd _ _ _ _ => true
  | .fsub _ _ _ _ => true
  | .fmul _ _ _ _ => true
  | .ffma _ _ _ _ => true
  | .fmin _ _ _ _ => true
  | .fmax _ _ _ _ => true
  | .fabs _ _ _ => true
  | .fneg _ _ _ => true
  | .faddK _ _ _ _ => true
  | .fsubK _ _ _ _ => true
  | .fmulK _ _ _ _ => true
  | .ffmaK _ _ _ _ => true
  | .fminK _ _ _ _ => true
  | .fmaxK _ _ _ _ => true
  | .fabsK _ _ _ => true
  | .fnegK _ _ _ => true
  | .faddF16x2 _ _ _ _ => true
  | .fsubF16x2 _ _ _ _ => true
  | .fmulF16x2 _ _ _ _ => true
  | .ffmaF16x2 _ _ _ _ => true
  | .fminF16x2 _ _ _ _ => true
  | .fmaxF16x2 _ _ _ _ => true
  | .fabsF16x2 _ _ _ => true
  | .fnegF16x2 _ _ _ => true
  | .faddBf16x2 _ _ _ _ => true
  | .fsubBf16x2 _ _ _ _ => true
  | .fmulBf16x2 _ _ _ _ => true
  | .ffmaBf16x2 _ _ _ _ => true
  | .fminBf16x2 _ _ _ _ => true
  | .fmaxBf16x2 _ _ _ _ => true
  | .fabsBf16x2 _ _ _ => true
  | .fnegBf16x2 _ _ _ => true
  | .frcp _ _ _ => true
  | .frsq _ _ _ => true
  | .fsqrt _ _ _ => true
  | .fex2 _ _ _ => true
  | .flg2 _ _ _ => true
  | .fsin _ _ _ => true
  | .fcos _ _ _ => true
  | .ftanh _ _ _ => true
  | .fcls _ _ _ => true
  | .fcmp _ _ _ _ _ _ => true
  | .cvt _ _ _ _ _ _ _ => true
  | .cvtpk _ _ _ _ _ _ => true
  | .cvtup _ _ _ _ => true
  | .ld _ _ _ _ _ _ => true
  | .st _ _ _ _ _ _ => true
  | .ldx _ _ _ _ _ _ => true
  | .stx _ _ _ _ _ _ => true
  | .ldro _ _ _ _ _ _ => true
  | .fence _ _ _ => true
  | .wait _ _ _ => true
  | .pf _ _ _ _ => true
  | .cmaintDropL1 _ => true
  | .cmaintCleanL2 _ _ _ => true
  | .cmaintFlushL2 _ _ _ => true
  | .cmaintDropL2 _ _ _ => true
  | .ldp _ _ _ _ _ => true
  | .ldpr _ _ _ _ _ => true
  | .stp _ _ _ => true
  | .qunp _ _ _ _ _ => true
  | .qpk _ _ _ _ _ _ => true
  | .qtagGet _ _ _ => true
  | .qtagSet _ _ _ => true
  | .shfl _ _ _ _ => true
  | .shfld _ _ _ _ => true
  | .shflx _ _ _ _ => true
  | .pcons _ _ _ _ => true
  | .lmask _ _ _ => true
  | .red _ _ _ _ => true
  | .scan _ _ _ _ _ => true
  | .matchEq _ _ _ => true
  | .conflict _ _ _ => true
  | .hist _ _ _ => true
  | .jinit _ _ _ => true
  | .jsign _ _ _ => true
  | .jwait _ _ _ => true
  | .jleave _ _ => true
  | .gsplit _ _ _ _ => true
  | .gjoin _ _ => true
  | .bru _ _ => true
  | .jmp _ _ => true
  | .call _ _ => true
  | .ret _ _ => true
  | .jmpi _ _ _ => true
  | .exit _ => true
  | .brk _ _ => true
  | .trap _ _ => true
  | .yield _ => true
  | .maddm _ _ _ _ _ => true
  | .msubm _ _ _ _ _ => true
  | .mnegm _ _ _ _ => true
  | .mmulm _ _ _ _ _ => true
  | .mmacm _ _ _ _ _ => true
  | .mredm _ _ _ _ => true
  | .bflyct _ _ _ _ _ => true
  | .bflygs _ _ _ _ _ => true
  | .nperm _ _ _ _ _ => true
  | .nrev _ _ _ _ => true
  | .nauto _ _ _ _ => true
  | .modset _ _ _ _ _ => true
  | .spbegin _ _ _ => true
  | .spst _ _ _ _ => true
  | .spld _ _ _ _ => true
  | .spalloc _ _ _ => true
  | .spstate _ _ _ => true
  | .spcommit _ _ _ => true
  | .spabort _ _ => true
  | .spquery _ _ _ => true
  | .treemask _ _ _ => true
  | .sysr _ _ _ => true
  | .sysw _ _ _ => true
  | .trapret _ => true
  | .tlbinv _ _ _ _ _ => true
  | .cwb _ _ => true
  | .bankmode _ _ _ => true
  | .launch _ _ _ _ => true
  | .fqrpReplay _ _ => true
  | .fqrpSkip _ _ => true
  | .fqrpPeek _ _ => true
  | .halt _ _ => true
  | .mma _ _ _ _ _ _ _ _ _ _ _ _ => true
  | .mmas _ _ _ _ _ _ _ _ _ _ _ _ _ => true
  | .mconv _ _ _ _ _ _ _ _ _ _ _ _ => true
  | .mtrn _ _ _ _ _ _ => true
  | .mperm _ _ _ _ _ _ _ _ => true
  | .mred _ _ _ _ _ _ _ => true
  | .accz _ _ _ => true
  | .accld _ _ _ _ _ _ _ => true
  | .accst _ _ _ _ _ _ _ _ => true
  | .accrd _ _ _ _ _ => true
  | .accwr _ _ _ _ _ => true
  | .atom _ _ _ _ _ _ _ _ _ _ _ => true
  | .cas _ _ _ _ _ _ _ _ _ _ => true
  | .cpy _ _ _ _ _ _ _ => true
  | .cpyt _ _ _ _ _ _ _ _ => true
  | .cpyp _ _ _ _ _ _ _ _ _ => true
  | .cpyx _ _ _ _ _ _ _ _ => true
  | .cpyf _ _ _ _ _ _ _ => true
  | .ringinit _ _ _ _ => true
  | .rawait _ _ _ _ => true
  | .rrel _ _ _ => true
  | .arbitration _ => false
  | .producerComplete _ => false
  | .storeAcknowledged _ => false
  | .pageWalkComplete _ _ => false
  | .homeSliceAccess _ => false
  | .commandComplete _ _ => false
  | .matrixCommandComplete _ _ => false
  | .ringCommandStart _ _ => false
  | .asyncCopyFault _ _ => false
  | .elementParked _ _ => false
  | .deferredFaultDelivery _ _ _ => false
  | .slotRelease _ _ => false
  | .windowOpen _ _ _ => false
  | .spcommitExecute _ _ => false
  | .spabortExecute _ _ => false
  | .queueEnable _ _ => false
  | .queueDisable _ _ => false
  | .queuePriorityWeight _ _ => false
  | .qtail _ _ => false
  | .qstatClearStopped _ => false
  | .recordTake _ => false
  | .landingEntry _ => false
  | .chainPlacement => false
  | .blockSave _ => false
  | .launchComplete _ => false
  | .childTemplateRead _ => false
  | .dqerrClear _ => false
  | .kernelNodeRun _ _ => false
  | .copyNode _ _ => false
  | .conditionNode _ _ => false
  | .loopNode _ _ => false
  | .contextEnable _ _ => false
  | .contextFreezeRequest _ => false
  | .contextEvict _ => false
  | .contextThaw _ => false
  | .contextTeardown _ => false
  | .teardownEnd _ => false
  | .hostBar2Read _ _ => false
  | .hostBar2Write _ _ => false
  | .hostAtomicop _ _ _ _ _ => false
  | .peerRequest _ => false
  | .portStateChange _ _ => false
  | .peerResend _ _ => false
  | .forwarderRowSend _ => false
  | .fwderrClear _ => false
  | .cbreq _ _ => false
  | .bankModeChange _ => false
  | .cbhealth _ _ => false
  | .selogClear _ => false
  | .transferRetry _ _ => false
  | .pseudoChannelHold _ _ => false
  | .hrelRelease _ _ => false
  | .hrelFail _ _ => false
  | .hswap _ _ _ => false
  | .hlogClearArray _ => false
  | .hlogClearTransfer _ => false
  | .powerOnReset => false
  | .resetreq _ => false
  | .flashPageWrite _ _ _ => false
  | .clockStep => false
  | .thermtrip _ => false
  | .getVersion _ => false
  | .getCapabilities _ => false
  | .negotiateAlgorithms _ _ _ => false
  | .getDigests _ => false
  | .getCertificate _ _ _ _ => false
  | .challenge _ _ _ => false
  | .getMeasurements _ _ _ => false
  | .unsupportedrequest _ _ => false
  | .registerWrite _ _ => false
  | .arithmeticClockCycle => false
  | .hostInvalidation _ _ _ _ => false
  | .cxlMemAccess _ _ _ => false
  | .linkTraining _ _ _ => false
  | .powerOff => false

/-- How many words of 32 bits the instruction takes (R68, R83); a step of the device takes none. -/
def Instr.words : Instr → Nat
  | .add _ _ _ _ => 1
  | .sub _ _ _ _ => 1
  | .mul _ _ _ _ => 1
  | .mulh _ _ _ _ => 1
  | .mad _ _ _ _ => 1
  | .min _ _ _ _ => 1
  | .max _ _ _ _ => 1
  | .abs _ _ _ => 1
  | .neg _ _ _ => 1
  | .div _ _ _ _ => 1
  | .rem _ _ _ _ => 1
  | .lea _ _ _ _ => 1
  | .sel _ _ _ _ => 1
  | .mov _ _ _ => 1
  | .addK _ _ _ _ => 1
  | .subK _ _ _ _ => 1
  | .mulK _ _ _ _ => 1
  | .mulhK _ _ _ _ => 1
  | .madK _ _ _ _ => 1
  | .minK _ _ _ _ => 1
  | .maxK _ _ _ _ => 1
  | .absK _ _ _ => 1
  | .negK _ _ _ => 1
  | .divK _ _ _ _ => 1
  | .remK _ _ _ _ => 1
  | .leaK _ _ _ _ => 1
  | .selK _ _ _ _ => 1
  | .movK _ _ _ => 1
  | .and _ _ _ _ => 1
  | .or _ _ _ _ => 1
  | .xor _ _ _ _ => 1
  | .andn _ _ _ _ => 1
  | .shl _ _ _ _ => 1
  | .shr _ _ _ _ => 1
  | .sra _ _ _ _ => 1
  | .rot _ _ _ _ => 1
  | .bfe _ _ _ _ => 1
  | .bfi _ _ _ _ => 1
  | .popc _ _ _ => 1
  | .clz _ _ _ => 1
  | .brev _ _ _ => 1
  | .andK _ _ _ _ => 1
  | .orK _ _ _ _ => 1
  | .xorK _ _ _ _ => 1
  | .andnK _ _ _ _ => 1
  | .shlK _ _ _ _ => 1
  | .shrK _ _ _ _ => 1
  | .sraK _ _ _ _ => 1
  | .rotK _ _ _ _ => 1
  | .bfeK _ _ _ _ => 1
  | .bfiK _ _ _ _ => 1
  | .popcK _ _ _ => 1
  | .clzK _ _ _ => 1
  | .brevK _ _ _ => 1
  | .add64 _ _ _ _ => 1
  | .sub64 _ _ _ _ => 1
  | .mul64 _ _ _ _ => 1
  | .mulh64 _ _ _ _ => 1
  | .min64 _ _ _ _ => 1
  | .max64 _ _ _ _ => 1
  | .shl64 _ _ _ _ => 1
  | .shr64 _ _ _ _ => 1
  | .sra64 _ _ _ _ => 1
  | .addImm _ _ _ _ => 1
  | .andImm _ _ _ _ => 1
  | .orImm _ _ _ _ => 1
  | .xorImm _ _ _ _ => 1
  | .shlImm _ _ _ _ _ => 1
  | .shrImm _ _ _ _ _ => 1
  | .sraImm _ _ _ _ _ => 1
  | .rotImm _ _ _ _ _ => 1
  | .movi _ _ _ => 1
  | .movh _ _ _ => 1
  | .cmp _ _ _ _ _ _ _ => 1
  | .cmpImm _ _ _ _ _ => 1
  | .plop _ _ _ _ _ _ _ => 1
  | .pmovv _ _ => 1
  | .vpmov _ _ _ => 1
  | .kmov _ _ _ => 1
  | .kmovImm _ _ _ => 1
  | .klane _ _ _ _ => 1
  | .fadd _ _ _ _ => 1
  | .fsub _ _ _ _ => 1
  | .fmul _ _ _ _ => 1
  | .ffma _ _ _ _ => 1
  | .fmin _ _ _ _ => 1
  | .fmax _ _ _ _ => 1
  | .fabs _ _ _ => 1
  | .fneg _ _ _ => 1
  | .faddK _ _ _ _ => 1
  | .fsubK _ _ _ _ => 1
  | .fmulK _ _ _ _ => 1
  | .ffmaK _ _ _ _ => 1
  | .fminK _ _ _ _ => 1
  | .fmaxK _ _ _ _ => 1
  | .fabsK _ _ _ => 1
  | .fnegK _ _ _ => 1
  | .faddF16x2 _ _ _ _ => 1
  | .fsubF16x2 _ _ _ _ => 1
  | .fmulF16x2 _ _ _ _ => 1
  | .ffmaF16x2 _ _ _ _ => 1
  | .fminF16x2 _ _ _ _ => 1
  | .fmaxF16x2 _ _ _ _ => 1
  | .fabsF16x2 _ _ _ => 1
  | .fnegF16x2 _ _ _ => 1
  | .faddBf16x2 _ _ _ _ => 1
  | .fsubBf16x2 _ _ _ _ => 1
  | .fmulBf16x2 _ _ _ _ => 1
  | .ffmaBf16x2 _ _ _ _ => 1
  | .fminBf16x2 _ _ _ _ => 1
  | .fmaxBf16x2 _ _ _ _ => 1
  | .fabsBf16x2 _ _ _ => 1
  | .fnegBf16x2 _ _ _ => 1
  | .frcp _ _ _ => 1
  | .frsq _ _ _ => 1
  | .fsqrt _ _ _ => 1
  | .fex2 _ _ _ => 1
  | .flg2 _ _ _ => 1
  | .fsin _ _ _ => 1
  | .fcos _ _ _ => 1
  | .ftanh _ _ _ => 1
  | .fcls _ _ _ => 1
  | .fcmp _ _ _ _ _ _ => 1
  | .cvt _ _ _ _ _ _ _ => 1
  | .cvtpk _ _ _ _ _ _ => 1
  | .cvtup _ _ _ _ => 1
  | .ld _ _ _ _ _ _ => 1
  | .st _ _ _ _ _ _ => 1
  | .ldx _ _ _ _ _ _ => 1
  | .stx _ _ _ _ _ _ => 1
  | .ldro _ _ _ _ _ _ => 1
  | .fence _ _ _ => 1
  | .wait _ _ _ => 1
  | .pf _ _ _ _ => 1
  | .cmaintDropL1 _ => 1
  | .cmaintCleanL2 _ _ _ => 1
  | .cmaintFlushL2 _ _ _ => 1
  | .cmaintDropL2 _ _ _ => 1
  | .ldp _ _ _ _ _ => 1
  | .ldpr _ _ _ _ _ => 1
  | .stp _ _ _ => 1
  | .qunp _ _ _ _ _ => 1
  | .qpk _ _ _ _ _ _ => 1
  | .qtagGet _ _ _ => 1
  | .qtagSet _ _ _ => 1
  | .shfl _ _ _ _ => 1
  | .shfld _ _ _ _ => 1
  | .shflx _ _ _ _ => 1
  | .pcons _ _ _ _ => 1
  | .lmask _ _ _ => 1
  | .red _ _ _ _ => 1
  | .scan _ _ _ _ _ => 1
  | .matchEq _ _ _ => 1
  | .conflict _ _ _ => 1
  | .hist _ _ _ => 1
  | .jinit _ _ _ => 1
  | .jsign _ _ _ => 1
  | .jwait _ _ _ => 1
  | .jleave _ _ => 1
  | .gsplit _ _ _ _ => 1
  | .gjoin _ _ => 1
  | .bru _ _ => 1
  | .jmp _ _ => 1
  | .call _ _ => 1
  | .ret _ _ => 1
  | .jmpi _ _ _ => 1
  | .exit _ => 1
  | .brk _ _ => 1
  | .trap _ _ => 1
  | .yield _ => 1
  | .maddm _ _ _ _ _ => 1
  | .msubm _ _ _ _ _ => 1
  | .mnegm _ _ _ _ => 1
  | .mmulm _ _ _ _ _ => 1
  | .mmacm _ _ _ _ _ => 1
  | .mredm _ _ _ _ => 1
  | .bflyct _ _ _ _ _ => 1
  | .bflygs _ _ _ _ _ => 1
  | .nperm _ _ _ _ _ => 1
  | .nrev _ _ _ _ => 1
  | .nauto _ _ _ _ => 1
  | .modset _ _ _ _ _ => 1
  | .spbegin _ _ _ => 1
  | .spst _ _ _ _ => 1
  | .spld _ _ _ _ => 1
  | .spalloc _ _ _ => 1
  | .spstate _ _ _ => 1
  | .spcommit _ _ _ => 1
  | .spabort _ _ => 1
  | .spquery _ _ _ => 1
  | .treemask _ _ _ => 1
  | .sysr _ _ _ => 1
  | .sysw _ _ _ => 1
  | .trapret _ => 1
  | .tlbinv _ _ _ _ _ => 1
  | .cwb _ _ => 1
  | .bankmode _ _ _ => 1
  | .launch _ _ _ _ => 1
  | .fqrpReplay _ _ => 1
  | .fqrpSkip _ _ => 1
  | .fqrpPeek _ _ => 1
  | .halt _ _ => 1
  | .mma _ _ _ _ _ _ _ _ _ _ _ _ => 2
  | .mmas _ _ _ _ _ _ _ _ _ _ _ _ _ => 2
  | .mconv _ _ _ _ _ _ _ _ _ _ _ _ => 2
  | .mtrn _ _ _ _ _ _ => 2
  | .mperm _ _ _ _ _ _ _ _ => 2
  | .mred _ _ _ _ _ _ _ => 2
  | .accz _ _ _ => 2
  | .accld _ _ _ _ _ _ _ => 2
  | .accst _ _ _ _ _ _ _ _ => 2
  | .accrd _ _ _ _ _ => 2
  | .accwr _ _ _ _ _ => 2
  | .atom _ _ _ _ _ _ _ _ _ _ _ => 2
  | .cas _ _ _ _ _ _ _ _ _ _ => 2
  | .cpy _ _ _ _ _ _ _ => 2
  | .cpyt _ _ _ _ _ _ _ _ => 2
  | .cpyp _ _ _ _ _ _ _ _ _ => 2
  | .cpyx _ _ _ _ _ _ _ _ => 2
  | .cpyf _ _ _ _ _ _ _ => 2
  | .ringinit _ _ _ _ => 2
  | .rawait _ _ _ _ => 2
  | .rrel _ _ _ => 2
  | .arbitration _ => 0
  | .producerComplete _ => 0
  | .storeAcknowledged _ => 0
  | .pageWalkComplete _ _ => 0
  | .homeSliceAccess _ => 0
  | .commandComplete _ _ => 0
  | .matrixCommandComplete _ _ => 0
  | .ringCommandStart _ _ => 0
  | .asyncCopyFault _ _ => 0
  | .elementParked _ _ => 0
  | .deferredFaultDelivery _ _ _ => 0
  | .slotRelease _ _ => 0
  | .windowOpen _ _ _ => 0
  | .spcommitExecute _ _ => 0
  | .spabortExecute _ _ => 0
  | .queueEnable _ _ => 0
  | .queueDisable _ _ => 0
  | .queuePriorityWeight _ _ => 0
  | .qtail _ _ => 0
  | .qstatClearStopped _ => 0
  | .recordTake _ => 0
  | .landingEntry _ => 0
  | .chainPlacement => 0
  | .blockSave _ => 0
  | .launchComplete _ => 0
  | .childTemplateRead _ => 0
  | .dqerrClear _ => 0
  | .kernelNodeRun _ _ => 0
  | .copyNode _ _ => 0
  | .conditionNode _ _ => 0
  | .loopNode _ _ => 0
  | .contextEnable _ _ => 0
  | .contextFreezeRequest _ => 0
  | .contextEvict _ => 0
  | .contextThaw _ => 0
  | .contextTeardown _ => 0
  | .teardownEnd _ => 0
  | .hostBar2Read _ _ => 0
  | .hostBar2Write _ _ => 0
  | .hostAtomicop _ _ _ _ _ => 0
  | .peerRequest _ => 0
  | .portStateChange _ _ => 0
  | .peerResend _ _ => 0
  | .forwarderRowSend _ => 0
  | .fwderrClear _ => 0
  | .cbreq _ _ => 0
  | .bankModeChange _ => 0
  | .cbhealth _ _ => 0
  | .selogClear _ => 0
  | .transferRetry _ _ => 0
  | .pseudoChannelHold _ _ => 0
  | .hrelRelease _ _ => 0
  | .hrelFail _ _ => 0
  | .hswap _ _ _ => 0
  | .hlogClearArray _ => 0
  | .hlogClearTransfer _ => 0
  | .powerOnReset => 0
  | .resetreq _ => 0
  | .flashPageWrite _ _ _ => 0
  | .clockStep => 0
  | .thermtrip _ => 0
  | .getVersion _ => 0
  | .getCapabilities _ => 0
  | .negotiateAlgorithms _ _ _ => 0
  | .getDigests _ => 0
  | .getCertificate _ _ _ _ => 0
  | .challenge _ _ _ => 0
  | .getMeasurements _ _ _ => 0
  | .unsupportedrequest _ _ => 0
  | .registerWrite _ _ => 0
  | .arithmeticClockCycle => 0
  | .hostInvalidation _ _ _ _ => 0
  | .cxlMemAccess _ _ _ => 0
  | .linkTraining _ _ _ => 0
  | .powerOff => 0

/-- The guard field of a word, bits 25 to 22 (R77, R78); a step of the device has none and counts as always. -/
def Instr.guard : Instr → BitVec 4
  | .add g _ _ _ => g
  | .sub g _ _ _ => g
  | .mul g _ _ _ => g
  | .mulh g _ _ _ => g
  | .mad g _ _ _ => g
  | .min g _ _ _ => g
  | .max g _ _ _ => g
  | .abs g _ _ => g
  | .neg g _ _ => g
  | .div g _ _ _ => g
  | .rem g _ _ _ => g
  | .lea g _ _ _ => g
  | .sel g _ _ _ => g
  | .mov g _ _ => g
  | .addK g _ _ _ => g
  | .subK g _ _ _ => g
  | .mulK g _ _ _ => g
  | .mulhK g _ _ _ => g
  | .madK g _ _ _ => g
  | .minK g _ _ _ => g
  | .maxK g _ _ _ => g
  | .absK g _ _ => g
  | .negK g _ _ => g
  | .divK g _ _ _ => g
  | .remK g _ _ _ => g
  | .leaK g _ _ _ => g
  | .selK g _ _ _ => g
  | .movK g _ _ => g
  | .and g _ _ _ => g
  | .or g _ _ _ => g
  | .xor g _ _ _ => g
  | .andn g _ _ _ => g
  | .shl g _ _ _ => g
  | .shr g _ _ _ => g
  | .sra g _ _ _ => g
  | .rot g _ _ _ => g
  | .bfe g _ _ _ => g
  | .bfi g _ _ _ => g
  | .popc g _ _ => g
  | .clz g _ _ => g
  | .brev g _ _ => g
  | .andK g _ _ _ => g
  | .orK g _ _ _ => g
  | .xorK g _ _ _ => g
  | .andnK g _ _ _ => g
  | .shlK g _ _ _ => g
  | .shrK g _ _ _ => g
  | .sraK g _ _ _ => g
  | .rotK g _ _ _ => g
  | .bfeK g _ _ _ => g
  | .bfiK g _ _ _ => g
  | .popcK g _ _ => g
  | .clzK g _ _ => g
  | .brevK g _ _ => g
  | .add64 g _ _ _ => g
  | .sub64 g _ _ _ => g
  | .mul64 g _ _ _ => g
  | .mulh64 g _ _ _ => g
  | .min64 g _ _ _ => g
  | .max64 g _ _ _ => g
  | .shl64 g _ _ _ => g
  | .shr64 g _ _ _ => g
  | .sra64 g _ _ _ => g
  | .addImm g _ _ _ => g
  | .andImm g _ _ _ => g
  | .orImm g _ _ _ => g
  | .xorImm g _ _ _ => g
  | .shlImm g _ _ _ _ => g
  | .shrImm g _ _ _ _ => g
  | .sraImm g _ _ _ _ => g
  | .rotImm g _ _ _ _ => g
  | .movi g _ _ => g
  | .movh g _ _ => g
  | .cmp g _ _ _ _ _ _ => g
  | .cmpImm g _ _ _ _ => g
  | .plop g _ _ _ _ _ _ => g
  | .pmovv g _ => g
  | .vpmov g _ _ => g
  | .kmov g _ _ => g
  | .kmovImm g _ _ => g
  | .klane g _ _ _ => g
  | .fadd g _ _ _ => g
  | .fsub g _ _ _ => g
  | .fmul g _ _ _ => g
  | .ffma g _ _ _ => g
  | .fmin g _ _ _ => g
  | .fmax g _ _ _ => g
  | .fabs g _ _ => g
  | .fneg g _ _ => g
  | .faddK g _ _ _ => g
  | .fsubK g _ _ _ => g
  | .fmulK g _ _ _ => g
  | .ffmaK g _ _ _ => g
  | .fminK g _ _ _ => g
  | .fmaxK g _ _ _ => g
  | .fabsK g _ _ => g
  | .fnegK g _ _ => g
  | .faddF16x2 g _ _ _ => g
  | .fsubF16x2 g _ _ _ => g
  | .fmulF16x2 g _ _ _ => g
  | .ffmaF16x2 g _ _ _ => g
  | .fminF16x2 g _ _ _ => g
  | .fmaxF16x2 g _ _ _ => g
  | .fabsF16x2 g _ _ => g
  | .fnegF16x2 g _ _ => g
  | .faddBf16x2 g _ _ _ => g
  | .fsubBf16x2 g _ _ _ => g
  | .fmulBf16x2 g _ _ _ => g
  | .ffmaBf16x2 g _ _ _ => g
  | .fminBf16x2 g _ _ _ => g
  | .fmaxBf16x2 g _ _ _ => g
  | .fabsBf16x2 g _ _ => g
  | .fnegBf16x2 g _ _ => g
  | .frcp g _ _ => g
  | .frsq g _ _ => g
  | .fsqrt g _ _ => g
  | .fex2 g _ _ => g
  | .flg2 g _ _ => g
  | .fsin g _ _ => g
  | .fcos g _ _ => g
  | .ftanh g _ _ => g
  | .fcls g _ _ => g
  | .fcmp g _ _ _ _ _ => g
  | .cvt g _ _ _ _ _ _ => g
  | .cvtpk g _ _ _ _ _ => g
  | .cvtup g _ _ _ => g
  | .ld g _ _ _ _ _ => g
  | .st g _ _ _ _ _ => g
  | .ldx g _ _ _ _ _ => g
  | .stx g _ _ _ _ _ => g
  | .ldro g _ _ _ _ _ => g
  | .fence g _ _ => g
  | .wait g _ _ => g
  | .pf g _ _ _ => g
  | .cmaintDropL1 g => g
  | .cmaintCleanL2 g _ _ => g
  | .cmaintFlushL2 g _ _ => g
  | .cmaintDropL2 g _ _ => g
  | .ldp g _ _ _ _ => g
  | .ldpr g _ _ _ _ => g
  | .stp g _ _ => g
  | .qunp g _ _ _ _ => g
  | .qpk g _ _ _ _ _ => g
  | .qtagGet g _ _ => g
  | .qtagSet g _ _ => g
  | .shfl g _ _ _ => g
  | .shfld g _ _ _ => g
  | .shflx g _ _ _ => g
  | .pcons g _ _ _ => g
  | .lmask g _ _ => g
  | .red g _ _ _ => g
  | .scan g _ _ _ _ => g
  | .matchEq g _ _ => g
  | .conflict g _ _ => g
  | .hist g _ _ => g
  | .jinit g _ _ => g
  | .jsign g _ _ => g
  | .jwait g _ _ => g
  | .jleave g _ => g
  | .gsplit g _ _ _ => g
  | .gjoin g _ => g
  | .bru g _ => g
  | .jmp g _ => g
  | .call g _ => g
  | .ret g _ => g
  | .jmpi g _ _ => g
  | .exit g => g
  | .brk g _ => g
  | .trap g _ => g
  | .yield g => g
  | .maddm g _ _ _ _ => g
  | .msubm g _ _ _ _ => g
  | .mnegm g _ _ _ => g
  | .mmulm g _ _ _ _ => g
  | .mmacm g _ _ _ _ => g
  | .mredm g _ _ _ => g
  | .bflyct g _ _ _ _ => g
  | .bflygs g _ _ _ _ => g
  | .nperm g _ _ _ _ => g
  | .nrev g _ _ _ => g
  | .nauto g _ _ _ => g
  | .modset g _ _ _ _ => g
  | .spbegin g _ _ => g
  | .spst g _ _ _ => g
  | .spld g _ _ _ => g
  | .spalloc g _ _ => g
  | .spstate g _ _ => g
  | .spcommit g _ _ => g
  | .spabort g _ => g
  | .spquery g _ _ => g
  | .treemask g _ _ => g
  | .sysr g _ _ => g
  | .sysw g _ _ => g
  | .trapret g => g
  | .tlbinv g _ _ _ _ => g
  | .cwb g _ => g
  | .bankmode g _ _ => g
  | .launch g _ _ _ => g
  | .fqrpReplay g _ => g
  | .fqrpSkip g _ => g
  | .fqrpPeek g _ => g
  | .halt g _ => g
  | .mma g _ _ _ _ _ _ _ _ _ _ _ => g
  | .mmas g _ _ _ _ _ _ _ _ _ _ _ _ => g
  | .mconv g _ _ _ _ _ _ _ _ _ _ _ => g
  | .mtrn g _ _ _ _ _ => g
  | .mperm g _ _ _ _ _ _ _ => g
  | .mred g _ _ _ _ _ _ => g
  | .accz g _ _ => g
  | .accld g _ _ _ _ _ _ => g
  | .accst g _ _ _ _ _ _ _ => g
  | .accrd g _ _ _ _ => g
  | .accwr g _ _ _ _ => g
  | .atom g _ _ _ _ _ _ _ _ _ _ => g
  | .cas g _ _ _ _ _ _ _ _ _ => g
  | .cpy g _ _ _ _ _ _ => g
  | .cpyt g _ _ _ _ _ _ _ => g
  | .cpyp g _ _ _ _ _ _ _ _ => g
  | .cpyx g _ _ _ _ _ _ _ => g
  | .cpyf g _ _ _ _ _ _ => g
  | .ringinit g _ _ _ => g
  | .rawait g _ _ _ => g
  | .rrel g _ _ => g
  | .arbitration _ => 7
  | .producerComplete _ => 7
  | .storeAcknowledged _ => 7
  | .pageWalkComplete _ _ => 7
  | .homeSliceAccess _ => 7
  | .commandComplete _ _ => 7
  | .matrixCommandComplete _ _ => 7
  | .ringCommandStart _ _ => 7
  | .asyncCopyFault _ _ => 7
  | .elementParked _ _ => 7
  | .deferredFaultDelivery _ _ _ => 7
  | .slotRelease _ _ => 7
  | .windowOpen _ _ _ => 7
  | .spcommitExecute _ _ => 7
  | .spabortExecute _ _ => 7
  | .queueEnable _ _ => 7
  | .queueDisable _ _ => 7
  | .queuePriorityWeight _ _ => 7
  | .qtail _ _ => 7
  | .qstatClearStopped _ => 7
  | .recordTake _ => 7
  | .landingEntry _ => 7
  | .chainPlacement => 7
  | .blockSave _ => 7
  | .launchComplete _ => 7
  | .childTemplateRead _ => 7
  | .dqerrClear _ => 7
  | .kernelNodeRun _ _ => 7
  | .copyNode _ _ => 7
  | .conditionNode _ _ => 7
  | .loopNode _ _ => 7
  | .contextEnable _ _ => 7
  | .contextFreezeRequest _ => 7
  | .contextEvict _ => 7
  | .contextThaw _ => 7
  | .contextTeardown _ => 7
  | .teardownEnd _ => 7
  | .hostBar2Read _ _ => 7
  | .hostBar2Write _ _ => 7
  | .hostAtomicop _ _ _ _ _ => 7
  | .peerRequest _ => 7
  | .portStateChange _ _ => 7
  | .peerResend _ _ => 7
  | .forwarderRowSend _ => 7
  | .fwderrClear _ => 7
  | .cbreq _ _ => 7
  | .bankModeChange _ => 7
  | .cbhealth _ _ => 7
  | .selogClear _ => 7
  | .transferRetry _ _ => 7
  | .pseudoChannelHold _ _ => 7
  | .hrelRelease _ _ => 7
  | .hrelFail _ _ => 7
  | .hswap _ _ _ => 7
  | .hlogClearArray _ => 7
  | .hlogClearTransfer _ => 7
  | .powerOnReset => 7
  | .resetreq _ => 7
  | .flashPageWrite _ _ _ => 7
  | .clockStep => 7
  | .thermtrip _ => 7
  | .getVersion _ => 7
  | .getCapabilities _ => 7
  | .negotiateAlgorithms _ _ _ => 7
  | .getDigests _ => 7
  | .getCertificate _ _ _ _ => 7
  | .challenge _ _ _ => 7
  | .getMeasurements _ _ _ => 7
  | .unsupportedrequest _ _ => 7
  | .registerWrite _ _ => 7
  | .arithmeticClockCycle => 7
  | .hostInvalidation _ _ _ _ => 7
  | .cxlMemAccess _ _ _ => 7
  | .linkTraining _ _ _ => 7
  | .powerOff => 7

end Sys2Proof
end

