-- ==== Sys2Proof/Machine/State.lean ====
section
/-! DEFINITION. The state of the CQ-940 as plain data: every register, memory, queue, cache and record that spec/01 to
spec/17 give the machine, grouped by the unit that owns it, and the state after reset. INVENTORY.md lists each field
with its rule and its value at reset. -/

namespace Sys2Proof.Machine

/-! ### Reasons a step can stop -/

/-- Why the model stops with a fault. -/
inductive Fault where
  /-- Raised by Step when the head of the agenda names an instruction word: words are issued by cores, never by the
  agenda. No state of the machine raises it. Safe: the machine has no such step. -/
  | agendaHoldsWord
  /-- Raised by the meaning of an instruction word run at a core that has no run in progress (R75). Safe: a core
  issues words only within a run. -/
  | noIssuingUnit
  deriving DecidableEq, Repr

/-- Why the model refuses an instruction. -/
inductive Refusal where
  /-- Raised by an arm of Dispatch for an instruction that has no meaning yet. Safe: nothing is claimed of it. -/
  | notModelled (mnemonic : String)
  deriving DecidableEq, Repr

/-! ### Threads, gangs and blocks (spec/01) -/

/-- The three conditions of a thread (R10). -/
inductive Condition where
  | never | live | exited
  deriving DecidableEq, Repr

/-- A v or k register with its side state (Table 1.2, Table 1.3): value, empty bit, poison bit, read locks held. -/
structure Reg where
  val    : Word := 0
  empty  : Bool := false
  poison : Bool := false
  locks  : Nat := 0
  deriving DecidableEq, Repr

/-- A predicate register with its side state. -/
structure Pred where
  val    : Bool := false
  empty  : Bool := false
  poison : Bool := false
  deriving DecidableEq, Repr

/-- A block register (R30): 16 bits for each lane (bit 15 the sign), a 20-bit tag, and the side state. -/
structure QReg where
  lanes  : Table (BitVec 16) := []
  tag    : BitVec 20 := 0
  empty  : Bool := false
  poison : Bool := false
  deriving DecidableEq, Repr

/-- A modulus slot that is set (R26): modulus and reduction constant. -/
structure Modulus where
  q : Dword
  c : Dword
  deriving DecidableEq, Repr

/-- A trap as it is recorded (R329, Table 13.1): cause, resume point (`none` for a deferred fault, which records the
word not yet issued, R137) and the four auxiliary words. -/
structure Trap where
  cause : BitVec 8
  tpc   : Option Dword := none
  aux0  : Word := 0
  aux1  : Word := 0
  aux2  : Word := 0
  aux3  : Word := 0
  deriving DecidableEq, Repr

/-- The state of a thread (Table 1.2, Table 1.4, R331, R344). `stalled` is the trap whose entry froze the context. -/
structure Thread where
  cond     : Condition := .never
  v        : Table Reg := []
  p        : Table Pred := []
  mods     : Table (Option Modulus) := []
  fpmode   : Word := 0
  tcause   : Word := 0
  tpc      : Dword := 0
  taux0    : Word := 0
  taux1    : Word := 0
  taux2    : Word := 0
  taux3    : Word := 0
  plog     : Table Dword := []
  spx      : Word := 0
  handler  : Bool := false
  deferred : List Trap := []
  stalled  : Option Trap := none
  deriving DecidableEq, Repr

/-- What a unit of a gang waits for beyond the readiness of its next word. -/
inductive UnitWait where
  /-- Nothing. -/
  | none
  /-- At the GJOIN word of its resume point, with a mask (R120). -/
  | gjoin (mask : Word)
  /-- After an acquiring atomic, for its operations, then the acquire of a scope (R149). -/
  | acquire (ops : List Nat) (scope : Nat)
  /-- After an SPBEGIN, for the window to open (R227): the active lanes, kd, the descriptor's address, and the resume point
  of the word, at which its faults are taken (R409). -/
  | window (active : BitVec 32) (kd : BitVec 6) (desc word : Dword)
  /-- After a BANKMODE, for the request to be served (R245); whether kd is to be poisoned (R29). -/
  | bankMode (kd : BitVec 6) (poison : Bool)
  /-- After a BANKMODE that has been served, for kd to be full and unlocked, with the value that it receives (R27, R28). -/
  | answer (kd : BitVec 6) (poison : Bool) (value : Word)
  /-- At a HALT (R248). -/
  | halted
  deriving DecidableEq, Repr

/-- A gang or sub-gang that issues as one (R12, R13): its lanes, its resume point (R76: slot 0xF stands at a header),
its last issue (R21) and its wait. `fresh` marks the entry of a launch and `via` a control transfer by which the unit has
reached its resume point, with the resume point of the transferring word and the target; both until the header there has
passed its check (R70, R89). -/
structure ExecUnit where
  lanes     : BitVec 32
  pc        : Dword
  lastIssue : Nat := 0
  wait      : UnitWait := .none
  fresh     : Bool := false
  via       : Option (Dword × Dword) := none
  deriving DecidableEq, Repr

/-- The five counters of a gang (R72). -/
inductive Counter where
  | ld | st | cp | mx | gx
  deriving DecidableEq, Repr

/-- An operation that a counter counts (R138): it leaves the list when it and every older one of its class are done. -/
structure Count where
  cls  : Counter
  id   : Nat
  done : Bool := false
  deriving DecidableEq, Repr

/-- An entry of a fault queue (R174, R247): the handle, the gang and lane, and the row index. -/
structure Parked where
  handle : Nat
  gang   : Nat
  lane   : Nat
  index  : Word
  deriving DecidableEq, Repr

/-- A gang (R12, Table 1.2, Table 1.4, R138, R174). -/
structure Gang where
  slot     : Nat
  k        : Table Reg := []
  q        : Table QReg := []
  mxflags  : Word := 0
  trapbase : Dword := 0
  threads  : Table Thread := []
  units    : List ExecUnit := []
  counts   : List Count := []
  faultq   : List Parked := []
  released : Bool := false
  deriving DecidableEq, Repr

/-- A thread of a block by gang index and lane. -/
abbrev ThreadRef := Nat × Nat

/-- The kind of a phase's signatures (R122, R163): none, plain, or a command named by its words. -/
inductive JoinKind where
  | none
  | plain
  | command (w1 w2 : Word)
  deriving DecidableEq, Repr

/-- What a signer of a command supplied (R163, R164): itself, its per-thread operand values, and the registers its
signature locks. -/
structure Signer where
  who   : ThreadRef
  a     : Dword := 0
  b     : Dword := 0
  vlock : List Nat := []
  klock : List Nat := []
  deriving DecidableEq, Repr

/-- A join register (spec/04 4.10). `leaving` holds members that leave when the phase completes; `uni` the uniform
operands of the phase's first signature; `cmd` the identity of the command being signed. -/
structure JoinReg where
  armed   : Bool := false
  members : List ThreadRef := []
  signed  : List ThreadRef := []
  leaving : List ThreadRef := []
  kind    : JoinKind := .none
  phase   : BitVec 16 := 0
  signers : List Signer := []
  uni     : List Word := []
  cmd     : Nat := 0
  deriving DecidableEq, Repr

/-- What a participant of a command supplies: its thread and its per-thread operands. -/
structure Participant where
  gang : Nat
  lane : Nat
  a    : Dword := 0
  b    : Dword := 0
  deriving DecidableEq, Repr

/-- How far a skidder or forwarder command has come (R163 to R167, R178, R336, R337). -/
inductive CmdPhase where
  /-- Issued; not started. -/
  | ready
  /-- Running; the next element. -/
  | running (next : Nat)
  /-- Stopped at an element by ASYNC_COPY_FAULT, with its kind (R167). -/
  | stopped (next : Nat) (kind : Nat)
  /-- Skipped, and writing zero bytes to a checkpoint slot; the next element (R337). -/
  | skipping (next : Nat)
  deriving DecidableEq, Repr

/-- A command held by a skidder entry (R163): its identity, the words and uniform operands it was issued with, its
participants and issuing thread, its progress, and whether FQ_OVERFLOW has been delivered. `held` keeps the head
entries of a CPYP, the layout record of a CPYT and what an SPCOMMIT read. -/
structure Command where
  id      : Nat
  block   : Nat
  instr   : Instr
  uni     : List Word
  parts   : List Participant
  lead    : ThreadRef
  gangs   : List Nat
  phase   : CmdPhase := .ready
  held    : List Nat := []
  parked  : Nat := 0
  overflowed : Bool := false
  after   : List Nat := []
  deriving DecidableEq, Repr

/-- The requester for whom a step reaches a home slice, as its transfers and waits are told apart (R382, R383): an access
of an operation; a command; a unit's SPBEGIN, SPALLOC or SPQUERY; the publishing of a queue's numbers, or, from 4,096 on, of a
die's; a fetch for a block; a page-table walk; a write-back; the taking of a queue's record or of a die's child template; a
landing entry; a node of a graph; a save; the end of a teardown; a request of the host; a request of a peer. -/
inductive Asker where
  | none
  | access (op idx : Nat)
  | command (block id : Nat)
  | unit (block gang lane : Nat)
  | publish (queue : Nat)
  | fetch (block va : Nat)
  | walk (cluster ctx page : Nat)
  | back
  | record (queue : Nat)
  | template (die : Nat)
  | landing (launch : Nat)
  | node (launch node : Nat)
  | save (block : Nat)
  | teardown (ctx : Nat)
  | host (id : Nat)
  | peer (dev seq : Nat)
  deriving DecidableEq, Repr

/-- Where a block is: on a core; waiting in the landing after a save, with the offset and size of its record and the
cluster it came from (R346). -/
inductive Place where
  | core (c : Nat)
  | saved (offset size : Nat) (cluster : Nat)
  deriving DecidableEq, Repr

/-- A block that has been placed and has not ended (R9, R17, R19). The bytes of its windows are held with it (R254):
local store, scratch window, and its link out (R268).
`slotAfter` holds, by slot, the accesses that an RREL came after (R294); `saveReq` asks for its
save; `ended` marks a block that has ended before its chain (R314); `cmds` holds the commands saved with it, by the entries
they had (R338). -/
structure Block where
  launch  : Nat
  ctx     : Nat
  x       : Nat := 0
  y       : Nat := 0
  z       : Nat := 0
  stage   : Nat := 0
  chain   : Nat := 0
  place   : Place
  gangs   : List Gang := []
  joins   : Table JoinReg := []
  tiles   : Table (BitVec 32) := []
  lstore  : Table Byte := []
  scratch : Table Byte := []
  origin  : Nat := 0
  linkOut : Table Byte := []
  bank    : Option Nat := none
  slotAfter : List (Nat × List Nat) := []
  saveReq : Bool := false
  ended   : Bool := false
  cmds    : List (Nat × Command) := []
  deriving DecidableEq, Repr

/-! ### Outstanding operations (spec/05 R138) -/

/-- A leaf of a page table (R341). -/
structure Leaf where
  page  : Nat
  size  : Nat
  tier  : Nat
  pclass : Nat
  shared : Bool
  x     : Bool
  w     : Bool
  r     : Bool
  owner : Option Nat
  deriving DecidableEq, Repr

/-- The stage of one access of an operation: not translated; on its way to the home slice, host or peer under its leaf,
with the sequence number and port of a request to a peer (R366), or with the stamp of a store whose cluster has it already
(R286), or, for a word of a plane store to a peer whose head is written, with 0 and the address that it is reserved at (R154); performed, with the bytes it read; or ended in poison
or in a fault that has been recorded. -/
inductive Stage where
  | waiting
  | atHome (leaf : Leaf) (seq port : Nat)
  | done (bytes : List Byte)
  | poisoned
  | faulted
  deriving DecidableEq, Repr

/-- One access of an operation: the lanes it counts for, space, address, size, the bytes it writes, if any, the sys.spx
that the thread held at issue (R228, R237), and whether that handle was current then (R225, R232). -/
structure Access where
  lanes : BitVec 32
  space : Nat
  va    : Dword
  size  : Nat
  wr    : Option (List Byte) := none
  key   : Word := 0
  early : Bool := false
  stage : Stage := .waiting
  deriving DecidableEq, Repr

/-- A result that a producer other than a load writes when it completes (R27): register class and number, lane,
value and poison. -/
structure Result where
  lane   : Nat
  isK    : Bool := false
  reg    : Nat
  val    : Word
  poison : Bool
  deriving DecidableEq, Repr

/-- What an outstanding operation does with its accesses. -/
inductive OpKind where
  /-- LD and SPLD: size code and destination register (R141, R229). -/
  | load (code dst : Nat) (sp : Bool)
  /-- LDRO: through the read-only path (R142). -/
  | loadRo (code dst : Nat)
  /-- LDX: number of k registers and the first (R144). -/
  | loadK (regs dst : Nat)
  /-- ST, STX and SPST (R141, R144, R228). -/
  | store (sp : Bool)
  /-- ATOM and CAS (R149): op code (14 for CAS), width 64, destination if any, operands by lane, scope. -/
  | atomic (op : Nat) (wide : Bool) (dst : Option Nat) (b c : Table Dword) (scope : Nat)
  /-- LDP and LDPR (R155, R156): refining, q, pd, planes wanted, the active lanes, the plane operand. -/
  | planeLoad (refine : Bool) (q pd n : Nat) (active : BitVec 32) (base : Dword) (blk stride : Nat)
  /-- STP (R154). -/
  | planeStore (tag : BitVec 20)
  /-- CMAINT clean.l2, flush.l2 (R148) and CWB (R244): the write-backs of the L2 lines at these addresses, or of the
  lines of a context, or of all. -/
  | writeBack (drop : Bool)
  | writeBackContext (ctx : Option Nat)
  /-- A special function, KLANE, ACCRD once its tile has been read: results known (R27). -/
  | producer (res : List Result)
  /-- An ACCRD behind an earlier operation on its tile (R198). -/
  | accRead
  deriving DecidableEq, Repr

/-- An operation between its issue and its completion. -/
structure PendingOp where
  block  : Nat
  gang   : Nat
  lead   : Nat
  cls    : Option Counter
  kind   : OpKind
  accs   : List Access
  deriving DecidableEq, Repr

/-! ### Cores and clusters (spec/09, spec/05, spec/06, spec/16) -/

/-- A run (R75): the unit, by block, gang and a lane it holds, the header in force (R74), and the clauses it has
finished. -/
structure Run where
  block   : Nat
  gang    : Nat
  lane    : Nat
  hdr     : Word := 0
  clauses : Nat := 0
  deriving DecidableEq, Repr

/-- A sector held in an L1 (R259 to R261): tags, the physical sector, the launch of a read-only line, the bytes. -/
structure L1Sector where
  ctx  : Nat
  va   : Nat
  pa   : Nat
  ro   : Option Nat := none
  data : List Byte
  deriving DecidableEq, Repr

/-- A code word held in an L1 instruction cache for a launch (R258, R90). -/
structure CodeWord where
  launch : Nat
  va     : Nat
  word   : Word
  deriving DecidableEq, Repr

/-- A tile operation issued and not completed (R194, R198): a matrix command with the register operands captured at issue
(R196), by 64 × lane + word, its issuing thread's nft field (R66) and the writes it comes after (R199); or an ACCRD or
ACCWR that waits behind an earlier operation on its tile, the ACCWR with its values. -/
structure MatrixCommand where
  id     : Nat
  block  : Nat
  instr  : Instr
  uni    : List Word
  lead   : ThreadRef
  gangs  : List Nat
  nft    : Bool := false
  fragA  : Table Word := []
  fragB  : Table Word := []
  after  : List Nat := []
  deriving DecidableEq, Repr

/-- One of the 320 cores. -/
structure Core where
  cyc    : Dword := 0
  run    : Option Run := none
  l1     : List L1Sector := []
  icache : List CodeWord := []
  skid   : Table (Option Command) := []
  mx     : List MatrixCommand := []
  consts : Table (List Byte) := []
  deriving DecidableEq, Repr

/-- An entry of a cluster TLB (R257): context, virtual base, and the leaf. -/
structure TlbEntry where
  ctx  : Nat
  va   : Nat
  leaf : Leaf
  deriving DecidableEq, Repr

/-- A sector of an L2 line: its bytes, which are held, which are dirty (R264). -/
structure L2Sector where
  data  : List Byte
  held  : BitVec 32
  dirty : BitVec 32
  deriving DecidableEq, Repr

/-- A line of a cluster L2 (R263 to R266): tag, sectors, use bit, plane class, coherence, generation, context. -/
structure L2Line where
  tag     : Nat
  sectors : Table (Option L2Sector) := []
  used    : Bool
  pclass  : Nat
  shared  : Bool
  gen     : Word
  ctx     : Nat
  deriving DecidableEq, Repr

/-- A request for a change of a cluster's banks (R376, R389): a write of CBREQ; a BANKMODE with its unit and the gang's
operations that it comes after; a field of CBHEALTH. -/
inductive BankRequest where
  | mode (value : Word)
  | unit (value : Word) (block gang lane : Nat) (after : List Nat)
  | health (bank : Nat) (value : Nat)
  deriving DecidableEq, Repr

/-- A page-table walk in flight (R257): context, 4 KiB page, and the level and table it has come to. -/
structure Walk where
  ctx   : Nat
  page  : Nat
  level : Nat
  table : Nat
  deriving DecidableEq, Repr

/-- A log entry of two 64-bit words (Tables 16.3, 16.4, 16.6). -/
abbrev LogEntry := Dword × Dword

/-- One of the 40 clusters. `coming` holds the BANKMODEs that have not reached it, `requests` those that have (R376), and
`change` the modes that a change in progress leads to (R377). -/
structure Cluster where
  tlb      : List TlbEntry := []
  walks    : List Walk := []
  l2       : Table (Option L2Line) := []
  gen      : Word := 0
  cbmode   : Word := 0
  cbreq    : Word := 0
  left     : Bool := false
  refused  : Bool := false
  cbhealth : Dword := 0
  notify   : Bool := false
  overflow : Bool := false
  secorr   : Word := 0
  serec    : Word := 0
  seunc    : Word := 0
  selog    : List LogEntry := []
  seseq    : Word := 0
  requests : List BankRequest := []
  coming   : List BankRequest := []
  change   : Option Word := none
  deriving DecidableEq, Repr

/-- A waiting child launch (R320): its template and parameter block, the context and the queue of the launch that pushed
it (R321), and its launch once the template has been read. -/
structure Child where
  seq      : Word
  template : Dword
  params   : Dword
  ctx      : Nat
  root     : Nat
  launch   : Option Nat := none
  deriving DecidableEq, Repr

/-- A row in a send queue of a forwarder (R369): its destination and export address, and the tile row it is read from
(space 1 or 2 of the command's block). -/
structure Row where
  dest   : Nat
  ea     : Nat
  size   : Nat
  space  : Nat
  off    : Nat
  cmd    : Nat
  deriving DecidableEq, Repr

/-- A CPYF command whose rows are not all complete, with the writes it comes after (R165). -/
structure SendCommand where
  id    : Nat
  block : Nat
  lead  : ThreadRef
  gangs : List Nat
  left  : Nat
  after : List Nat := []
  deriving DecidableEq, Repr

/-- One of the two dies: device launch queue and forwarder (R320, R322, R369, R371). `ended` holds the children that have
completed and are not published, with whether their number is to be written. -/
structure Die where
  dqcpl    : Dword := 0
  dqseq    : Word := 0
  dqerr    : Dword := 0
  dq       : List Child := []
  pushSeq  : Word := 0
  ended    : List (Word × Bool) := []
  fwderr   : Dword := 0
  rows     : List Row := []
  sends    : List SendCommand := []
  deriving DecidableEq, Repr

/-- A transfer of a pseudo-channel that failed parity (R382): the sector, the requester's log code and the requester, the
direction, the retries made, and whether its array read was uncorrectable. -/
structure Transfer where
  sector : Nat
  who    : Nat
  asker  : Asker
  write  : Bool
  tries  : Nat
  bad    : Bool
  deriving DecidableEq, Repr

/-- A transfer that has been settled for its requester, which has not gone on yet: 1 clean, 2 uncorrectable, 3 failed
(R382, R383). -/
structure Settled where
  sector  : Nat
  asker   : Asker
  write   : Bool
  outcome : Nat
  deriving DecidableEq, Repr

/-- A transfer that a step asked of a home slice: its address and direction, whether it reads the array, the requester's log
code, and the requester. -/
structure Serve where
  pa    : Nat
  write : Bool
  array : Bool
  who   : Nat
  asker : Asker
  deriving DecidableEq, Repr

/-- Dirty bytes of a sector that a cluster writes back and that wait at their home slice (R264, R382), with the context of
their line. -/
structure Back where
  cluster : Nat
  ctx     : Nat
  sector  : Nat
  data    : List Byte
  mask    : BitVec 32
  deriving DecidableEq, Repr

/-- One of the six HBM4 stacks (Table 16.2), with its failing transfers, those settled, and who waits at which
pseudo-channel. -/
structure Stack where
  hacorr : Word := 0
  haunc  : Word := 0
  htrec  : Word := 0
  htheld : Word := 0
  notify : Bool := false
  arrayOverflow : Bool := false
  transferOverflow : Bool := false
  hseq   : Word := 0
  holds  : Table Bool := []
  halog  : List LogEntry := []
  htlog  : List LogEntry := []
  hswap  : Table Word := []
  xfers  : Table (Option Transfer) := []
  settled : List Settled := []
  waiting : List (Nat × Asker) := []
  deriving DecidableEq, Repr

/-! ### Contexts, queues, launches and windows (spec/12, spec/13, spec/07) -/

/-- One of the 64 contexts (Table 13.2). -/
structure Context where
  root     : Dword := 0
  save     : Dword := 0
  ssz      : Word := 0
  enable   : Bool := false
  privileged : Bool := false
  frozen   : Bool := false
  tearing  : Bool := false
  reason   : BitVec 8 := 0
  later    : BitVec 8 := 0
  frz0     : Dword := 0
  frz1     : Dword := 0
  frz2     : Dword := 0
  frz3     : Dword := 0
  deriving DecidableEq, Repr

/-- One of the 4,096 host queues (Table 12.1); `began` tells that a record has been taken since the
queue was enabled, and `nextRec` is then the address of the next (R307). -/
structure Queue where
  base     : Dword := 0
  tail     : Word := 0
  head     : Word := 0
  cpl      : Dword := 0
  ctl      : Word := 0
  stopped  : Bool := false
  reason   : BitVec 8 := 0
  cseq     : Word := 0
  began    : Bool := false
  nextRec  : Dword := 0
  deriving DecidableEq, Repr

/-- What pushed a launch (R308, R320, R325). -/
inductive Origin where
  | queue (q : Nat) (k : Word)
  | child (die : Nat) (seq : Word)
  | node (launch node : Nat)
  deriving DecidableEq, Repr

/-- How far a launch has come (R308, R312). -/
inductive LaunchPhase where
  | taken | landed | complete
  deriving DecidableEq, Repr

/-- The status of a graph node (R325). -/
inductive NodeStatus where
  | pending | running | completed | skipped
  deriving DecidableEq, Repr

/-- A node of a graph (Table 12.6). -/
structure GraphNode where
  kind  : Nat
  first : Nat
  count : Nat
  a     : Nat
  b     : Nat
  c     : Nat
  deriving DecidableEq, Repr

/-- An edge of a graph, with the node it leaves. -/
structure GraphEdge where
  src  : Nat
  dst  : Nat
  kind : Nat
  deriving DecidableEq, Repr

/-- A run of a graph (R323 to R326): its nodes and edges as read, the address of the node array, the status of each node,
loop counts, and the words that condition nodes have read. -/
structure GraphRun where
  base   : Nat
  nodes  : List GraphNode
  edges  : List GraphEdge
  status : Table NodeStatus := []
  loops  : Table Nat := []
  words  : Table Word := []
  deriving DecidableEq, Repr

/-- A launch that has been taken (R307 to R325): its record's 64 bytes, the host queue whose priority it has (R318,
R321, R323), what its descriptor holds, its progress. -/
structure Launch where
  origin   : Origin
  ctx      : Nat
  root     : Nat
  record   : List Byte
  params   : Dword
  entry    : Dword := 0
  consts   : Dword := 0
  constLen : Nat := 0
  phase    : LaunchPhase := .taken
  nextChain : Nat := 0
  clusters : List Nat := []
  graph    : Option GraphRun := none
  deriving DecidableEq, Repr

/-- An entry of the speculation table (R225); `closer` is the block and gang whose SPCOMMIT or SPABORT is closing it (R232). -/
structure Window where
  live    : Bool := false
  gen     : BitVec 3 := 0
  ctx     : Nat := 0
  desc    : Dword := 0
  number  : Word := 0
  geom    : List Byte := []
  drafts  : List Nat := []
  log     : List (Word × Word) := []
  closing : Bool := false
  closer  : Option (Nat × Nat) := none
  deriving DecidableEq, Repr

/-! ### Host, link, peers and management (spec/15, spec/17) -/

/-- A message the device sends to the host or a verifier. -/
inductive Message where
  /-- An MSI-X message on a vector (R362). -/
  | msix (vector : Nat)
  /-- The data of a BAR2 read (R359), or `none` for a completion with a poisoned TLP (R385). -/
  | readData (data : Option (List Byte))
  /-- The old value an AtomicOp returns (R356). -/
  | atomicData (old : Dword)
  /-- The answer to a CXL.mem read. -/
  | cxlData (data : Option (List Byte))
  /-- The answer to a peer's request (R365): refused with a reason of Table 15.7, data, or a poisoned response. -/
  | peerRefused (dev reason : Nat)
  | peerData (dev : Nat) (data : List Byte)
  | peerPoison (dev : Nat)
  /-- The answer to a read of a register of BAR0. -/
  | registerData (value : Dword)
  /-- An SPDM response (R401): its name, what it carries, and the signature if it is signed. -/
  | spdm (t : Transport) (code : BitVec 8) (content : List (List Byte)) (signature : Option (BitVec 512))
  deriving DecidableEq, Repr

/-- A request of the host that is performed at home slices, or a write of a register of
BAR0 behind one, as the step that it is (R359, R360). -/
inductive HostReq where
  | read (pa n : Nat)
  | write (pa : Nat) (bytes : List Byte)
  | atomic (pa op : Nat) (wide : Bool) (b c : Dword)
  | cxlRead (pa n : Nat)
  | cxlWrite (pa : Nat) (bytes : List Byte)
  | step (e : Instr)
  deriving DecidableEq, Repr

/-- A request of the host that waits, with an identity of its own. -/
structure HostHeld where
  id  : Nat
  req : HostReq
  deriving DecidableEq, Repr

/-- The notification page, what the host keeps of device memory (Table 15.3, R359, R362), and the host's requests that wait
at home slices or behind posted writes that do, in the order that they arrived (R360, R382). -/
structure HostIf where
  nqbase : Dword := 0
  nqctl  : Word := 0
  nqhead : Word := 0
  nqtail : Word := 0
  nqlost : Word := 0
  nseq   : Word := 0
  lines  : List Nat := []
  marked : List Nat := []
  busy   : List Nat := []
  waiting : List HostHeld := []
  deriving DecidableEq, Repr

/-- Another device of the pod as this one can see it (R364 to R367): its HBM4 bytes, the sectors of them that are
uncorrectable (R385), the 2 MiB pages that its windows own (R365), and its export table. -/
structure Peer where
  mem     : Table Byte := []
  bad     : List Nat := []
  marked  : List Nat := []
  pexbase : Nat := 0
  pexcnt  : Nat := 0
  ports   : BitVec 18 := 0
  deriving DecidableEq, Repr

/-- A request of a peer that waits at a home slice (R365, R382): what PEXBASE and PEXCNT were when it arrived, and, once its
checks have passed, the ranges of physical memory that it names. -/
structure PeerHeld where
  req    : PeerReq
  base   : Dword
  cnt    : Word
  ranges : Option (List (Nat × Nat)) := none
  deriving DecidableEq, Repr

/-- The link page, the host link and the pod (Table 15.6, R356, R366), with the requests of peers that wait at home slices
(R382). -/
structure Link where
  rate    : Nat := 0
  width   : Nat := 0
  cxl     : Bool := false
  uadev   : Word := 0
  ports   : BitVec 18 := 0
  released : Bool := false
  pexbase : Dword := 0
  pexcnt  : Word := 0
  pkey    : Word := 0
  sent    : Table Nat := []
  seen    : Table (List Nat) := []
  waiting : List PeerHeld := []
  peers   : Table (Option Peer) := []
  deriving DecidableEq, Repr

/-- The SPDM state of a transport (R401, R403): the stage of negotiation and the transcript of request and response
bytes that the next signature covers. -/
structure SpdmState where
  version    : Bool := false
  caps       : Bool := false
  algorithms : Bool := false
  transcript : List Byte := []
  deriving DecidableEq, Repr

/-- The contents of the module's flash (Table 17.1): image bytes of slots A and B, the identity region, the records. -/
structure Flash where
  slotA    : Table Byte := []
  slotB    : Table Byte := []
  identity : List Byte := []
  records  : Table Byte := []
  deriving DecidableEq, Repr

/-- The management region (Tables 17.4, 17.5), keys and measurements (R400, R402). `boots` numbers the resets, for what each
may do differently. -/
structure Mgmt where
  bootstat : Word := 0
  fwver    : Word := 0
  fwsvn    : Word := 0
  pwrlim   : Word := 2600
  pwrnow   : Word := 0
  vin      : Word := 0
  clknow   : Word := 4000
  throttle : Word := 0
  tempmax  : Word := 0
  tempwarn : Word := 95
  thermtrip : Bool := false
  identityKey : Option (BitVec 256) := none
  aliasKey : Option (BitVec 256) := none
  measurements : List (List Byte) := []
  flash    : Flash := {}
  boots    : Nat := 0
  doe      : SpdmState := {}
  mctp     : SpdmState := {}
  deriving DecidableEq, Repr

/-- Physical facts the environment supplies: cell errors of HBM4 sectors (256 for uncorrectable, else the bit),
failing transfers by sector (how many attempts fail), failed lanes by pseudo-channel, bit errors of stacked SRAM
sectors (cluster, bank, offset; 1 single, 2 double), the 32-byte sectors of host memory that the host answers with an error
(Table 15.7, reason 8), the flash slots that cannot be read, the root key hash that the boot ROM holds (R396), power, voltage and
temperatures. -/
structure Physical where
  cells  : Table (Option Nat) := []
  xfers  : Table Nat := []
  lanes  : Table (List Nat) := []
  sram   : Table Nat := []
  host   : List Nat := []
  flashA : Bool := false
  flashB : Bool := false
  rootKeyHash : BitVec 256 := Config.rootKeyHash
  power  : Nat := 0
  vin    : Nat := 0
  tempA  : Int := 0
  tempB  : Int := 0
  deriving DecidableEq, Repr

/-- Something the environment does between steps of the device. -/
inductive Input where
  /-- The host stores bytes to its own memory or CXL-attached memory. -/
  | hostStore (addr : Nat) (bytes : List Byte)
  /-- The host takes a line of device memory into its caches under CXL. -/
  | hostCaches (line : Nat)
  /-- A physical fact changes. -/
  | cellError (sector : Nat) (err : Option Nat)
  | transferError (sector : Nat) (attempts : Nat)
  | laneError (stack pc : Nat) (lanes : List Nat)
  | sramError (cluster bank offset kind : Nat)
  | hostError (sectors : List Nat)
  | flashError (a b : Bool)
  | sensors (power vin : Nat) (tempA tempB : Int)
  /-- Another device comes, goes or changes as a whole. -/
  | peer (dev : Nat) (p : Option Peer)
  /-- The management controller writes a register of the management region, over I3C (R406). -/
  | management (offset : Nat) (value : Dword)
  /-- The host reads a register of BAR0. -/
  | registerRead (offset : Nat)
  /-- The oldest request of the host, or of peers, that waits at a home slice is tried again. -/
  | retryHost
  | retryPeer
  deriving DecidableEq, Repr

/-- A turn to come (R38, R276): a step of the device, the host or a peer; an issue at a core; an input. -/
inductive Turn where
  | device (e : Instr)
  | issue (core : Nat)
  | input (e : Input)
  deriving DecidableEq, Repr

/-- The distributor's turn within each priority level (R315): the next queue to visit (0 the device launch queues)
and the chains that it has placed there at this visit. -/
structure Visit where
  queue  : Nat := 0
  placed : Nat := 0
  deriving DecidableEq, Repr

/-- A plan of R316 for a launch: the run of cores its chain will take, the blocks still to be saved, and the blocks still to
be moved with the cores they go to. -/
structure Plan where
  launch  : Nat
  chain   : Nat
  cluster : Nat
  core    : Nat
  saves   : List Nat
  moves   : List (Nat × Nat)
  deriving DecidableEq, Repr

/-- The state of the machine. The first seven fields are the model's own: the turns to come, the counter that free values are
drawn at, the core that issues, the requester that the step acts for, the transfers, the latest first, that a step has asked for which
may have to begin again (none for any other step, and between steps), the next identity, and what has been sent out. Every other
field is the spec's, as the types above say; `visits` and `plans` are how far the distributor has come in its turns
(R315) and plans (R316). -/
structure State where
  agenda   : List Turn := []
  tick     : Nat := 0
  focus    : Nat := 0
  asker    : Asker := .none
  serves   : Option (List Serve) := none
  nextId   : Nat := 0
  out      : List Message := []
  visits   : Table Visit := []
  plans    : List Plan := []
  mem      : List Host.Cell := []
  hostMem  : List Host.Cell := []
  blocks   : Table (Option Block) := []
  ops      : Table (Option PendingOp) := []
  backs    : List Back := []
  cores    : Table Core := []
  clusters : Table Cluster := []
  dies     : Table Die := []
  hbmStacks : Table Stack := []
  contexts : Table Context := []
  queues   : Table Queue := []
  launches : Table (Option Launch) := []
  windows  : Table Window := []
  hostIf   : HostIf := {}
  link     : Link := {}
  mgmt     : Mgmt := {}
  phys     : Physical := {}
  deriving DecidableEq, Repr

/-- The machine right after reset: no unit holds anything, and every register stands at its value of the tables
(R374, R395, Tables 12.1, 13.2, 15.3, 15.6, 16.1, 16.2, 17.4, 17.5); each table lists no entry, so that every numbered
unit reads as its default. -/
def State.reset : State :=
  { agenda := [], tick := 0, focus := 0, asker := .none, serves := none, nextId := 0, out := [], visits := [], plans := [], mem := [],
    hostMem := [], blocks := [], ops := [], backs := [], cores := [], clusters := [], dies := [], hbmStacks := [],
    contexts := [], queues := [], launches := [], windows := [], hostIf := {}, link := {}, mgmt := {}, phys := {} }

end Sys2Proof.Machine
end

