-- ==== Sys2Proof/Machine/Access.lean ====
section
/-! DEFINITION. Reading and writing the parts of the state: units by number, threads and registers, bytes and words,
the fields of a launch record, counters, and the free values. -/

namespace Sys2Proof.Machine

/-! ### Bytes (R2) -/

/-- The number that bytes hold, the first the least significant (R2). -/
def leNat : List Byte → Nat
  | [] => 0
  | b :: bs => b.toNat + 256 * leNat bs

/-- The low bytes of a number, least significant first (R2). -/
def natBytes : Nat → Nat → List Byte
  | 0, _ => []
  | n + 1, x => BitVec.ofNat 8 x :: natBytes n (x / 256)

/-- Bits `hi` to `lo` of a number. -/
abbrev bitsOf (x hi lo : Nat) : Nat := x / 2 ^ lo % 2 ^ (hi - lo + 1)

/-- Whether a number is a multiple of another. -/
abbrev multipleOf (x n : Nat) : Bool := x % n == 0

/-- The low 64 bits of an exact address, as registers hold them (R7). -/
abbrev low64 (a : Int) : Dword := BitVec.ofInt 64 a

/-- A 64-bit sum of an address and a signed displacement. -/
abbrev addInt (a : Dword) (d : Int) : Dword := a + BitVec.ofInt 64 d

/-! ### Free values and identities -/

/-- The next free value and the state that has drawn it. -/
def draw (s : State) : Nat × State := (Config.freeValue s.tick, { s with tick := s.tick + 1 })

/-- A fresh identity. -/
def freshId (s : State) : Nat × State := (s.nextId, { s with nextId := s.nextId + 1 })

/-! ### Numbered units -/

/-- The core of a number. -/
def getCore (s : State) (c : Nat) : Core := tget {} s.cores c
/-- The state with a core changed. -/
def modCore (s : State) (c : Nat) (f : Core → Core) : State := { s with cores := tmod {} s.cores c f }
/-- The cluster of a number. -/
def getCluster (s : State) (c : Nat) : Cluster := tget {} s.clusters c
/-- The state with a cluster changed. -/
def modCluster (s : State) (c : Nat) (f : Cluster → Cluster) : State :=
  { s with clusters := tmod {} s.clusters c f }
/-- The die of a number. -/
def getDie (s : State) (d : Nat) : Die := tget {} s.dies d
/-- The state with a die changed. -/
def modDie (s : State) (d : Nat) (f : Die → Die) : State := { s with dies := tmod {} s.dies d f }
/-- The stack of a number. -/
def getStack (s : State) (k : Nat) : Stack := tget {} s.hbmStacks k
/-- The state with a stack changed. -/
def modStack (s : State) (k : Nat) (f : Stack → Stack) : State := { s with hbmStacks := tmod {} s.hbmStacks k f }
/-- The context of a number. -/
def getContext (s : State) (c : Nat) : Context := tget {} s.contexts c
/-- The state with a context changed. -/
def modContext (s : State) (c : Nat) (f : Context → Context) : State :=
  { s with contexts := tmod {} s.contexts c f }
/-- The host queue of a number. -/
def getQueue (s : State) (q : Nat) : Queue := tget {} s.queues q
/-- The state with a host queue changed. -/
def modQueue (s : State) (q : Nat) (f : Queue → Queue) : State := { s with queues := tmod {} s.queues q f }
/-- The speculation-table entry of a number. -/
def getWindow (s : State) (e : Nat) : Window := tget {} s.windows e
/-- The state with a speculation-table entry changed. -/
def modWindow (s : State) (e : Nat) (f : Window → Window) : State := { s with windows := tmod {} s.windows e f }
/-- The launch of an identity. -/
def getLaunch (s : State) (l : Nat) : Option Launch := tget none s.launches l
/-- The state with a launch set or removed. -/
def setLaunch (s : State) (l : Nat) (x : Option Launch) : State := { s with launches := tset none s.launches l x }
/-- The state with a launch changed where it exists. -/
def modLaunch (s : State) (l : Nat) (f : Launch → Launch) : State := setLaunch s l ((getLaunch s l).map f)
/-- The block of an identity. -/
def getBlock (s : State) (b : Nat) : Option Block := tget none s.blocks b
/-- The state with a block set or removed. -/
def setBlock (s : State) (b : Nat) (x : Option Block) : State := { s with blocks := tset none s.blocks b x }
/-- The state with a block changed where it exists. -/
def modBlock (s : State) (b : Nat) (f : Block → Block) : State := setBlock s b ((getBlock s b).map f)
/-- The outstanding operation of an identity. -/
def getOp (s : State) (n : Nat) : Option PendingOp := tget none s.ops n
/-- The state with an outstanding operation set or removed. -/
def setOp (s : State) (n : Nat) (x : Option PendingOp) : State := { s with ops := tset none s.ops n x }

/-- The state with every cluster that differs from its reset changed. -/
def mapClusters (s : State) (f : Cluster → Cluster) : State := s.clusters.foldl (fun s e => modCluster s e.1 f) s
/-- The state with every core that differs from its reset changed. -/
def mapCores (s : State) (f : Core → Core) : State := s.cores.foldl (fun s e => modCore s e.1 f) s

/-- The cluster of a core (R9: eight cores to a cluster). -/
abbrev clusterOf (core : Nat) : Nat := core / 8
/-- The die of a cluster (R33). -/
abbrev dieOf (cluster : Nat) : Nat := cluster / 20

/-! ### Blocks, gangs and threads -/

/-- A gang that does not exist. -/
abbrev noGang : Gang := { slot := 0 }

/-- A gang of a block. -/
def gangOf (b : Block) (g : Nat) : Gang := b.gangs.getD g noGang

/-- The block with a gang changed. -/
def modGangOf (b : Block) (g : Nat) (f : Gang → Gang) : Block := { b with gangs := b.gangs.modify g f }

/-- A gang of the machine. -/
def getGang (s : State) (b g : Nat) : Gang :=
  match getBlock s b with
  | some x => gangOf x g
  | none => noGang

/-- The state with a gang changed. -/
def modGang (s : State) (b g : Nat) (f : Gang → Gang) : State := modBlock s b (fun x => modGangOf x g f)

/-- A thread of a gang by lane. -/
def threadOf (g : Gang) (l : Nat) : Thread := tget {} g.threads l

/-- A thread of the machine. -/
def getThread (s : State) (b g l : Nat) : Thread := threadOf (getGang s b g) l

/-- The gang with a thread changed. -/
def modThreadOf (g : Gang) (l : Nat) (f : Thread → Thread) : Gang := { g with threads := tmod {} g.threads l f }

/-- The state with a thread changed. -/
def modThread (s : State) (b g l : Nat) (f : Thread → Thread) : State := modGang s b g (fun x => modThreadOf x l f)

/-- The lanes that a mask holds, rising. -/
def lanesOf (m : BitVec 32) : List Nat := lanes32.filter (fun l => m.getLsbD l)

/-- The mask that holds one lane. -/
abbrev laneBit (l : Nat) : BitVec 32 := 1#32 <<< l

/-- The mask of the lanes for which a condition holds. -/
def maskWhere (p : Nat → Bool) : BitVec 32 := lanes32.foldl (fun m l => if p l then m ||| laneBit l else m) 0

/-- The lowest lane of a mask, 0 for an empty one. -/
def lowest (m : BitVec 32) : Nat := (lanesOf m).headD 0

/-- The live lanes of a gang (R10). -/
def liveLanes (g : Gang) : BitVec 32 := maskWhere (fun l => (threadOf g l).cond == .live)

/-- The threads of a block as references, by gang and lane, rising. -/
def threadRefs (b : Block) : List ThreadRef :=
  (List.range b.gangs.length).flatMap (fun g => lanes32.map (fun l => (g, l)))

/-- The core that holds a block, `none` for a saved one. -/
def coreOf (b : Block) : Option Nat :=
  match b.place with
  | .core c => some c
  | .saved _ _ _ => none

/-- The blocks of the machine with their identities. -/
def blockList (s : State) : List (Nat × Block) := s.blocks.filterMap (fun e => e.2.map (fun b => (e.1, b)))

/-- The blocks on a core. -/
def blocksOn (s : State) (c : Nat) : List (Nat × Block) := (blockList s).filter (fun e => coreOf e.2 == some c)

/-- The launches of the machine with their identities. -/
def launchList (s : State) : List (Nat × Launch) := s.launches.filterMap (fun e => e.2.map (fun l => (e.1, l)))

/-! ### Registers (Table 1.2); reads of p7 give true -/

/-- A v register of a thread. -/
def vReg (t : Thread) (n : Nat) : Reg := tget {} t.v n
/-- A predicate of a thread; p7 always reads true. -/
def pReg (t : Thread) (n : Nat) : Pred := if n = 7 then { val := true } else tget {} t.p n
/-- A k register of a gang. -/
def kReg (g : Gang) (n : Nat) : Reg := tget {} g.k n
/-- A q register of a gang. -/
def qReg (g : Gang) (n : Nat) : QReg := tget {} g.q n

/-- The thread with a v register written: value and poison; the register becomes full (R27, R29). -/
def writeV (t : Thread) (n : Nat) (x : Word) (poison : Bool) : Thread :=
  { t with v := tmod {} t.v n (fun r => { r with val := x, poison := poison, empty := false }) }
/-- The thread with a predicate written. -/
def writeP (t : Thread) (n : Nat) (x poison : Bool) : Thread :=
  { t with p := tset {} t.p n { val := x, poison := poison } }
/-- The gang with a k register written. -/
def writeK (g : Gang) (n : Nat) (x : Word) (poison : Bool) : Gang :=
  { g with k := tmod {} g.k n (fun r => { r with val := x, poison := poison, empty := false }) }
/-- The gang with a q register written. -/
def writeQ (g : Gang) (n : Nat) (lanes : Table (BitVec 16)) (tag : BitVec 20) (poison : Bool) : Gang :=
  { g with q := tset {} g.q n { lanes := lanes, tag := tag, poison := poison } }
/-- The thread with consecutive v registers written. -/
def writeVs : Thread → Nat → List Word → Bool → Thread
  | t, _, [], _ => t
  | t, n, x :: xs, p => writeVs (writeV t n x p) (n + 1) xs p
/-- The gang with consecutive k registers written. -/
def writeKs : Gang → Nat → List Word → Bool → Gang
  | g, _, [], _ => g
  | g, n, x :: xs, p => writeKs (writeK g n x p) (n + 1) xs p
/-- The thread with a v pair written (R2: the low word in the even register). -/
def writePair (t : Thread) (n : Nat) (x : Dword) (poison : Bool) : Thread :=
  writeVs t n [lo32 x, hi32 x] poison
/-- The value of a v pair. -/
def pairV (t : Thread) (n : Nat) : Dword := pairOf (vReg t n).val (vReg t (n + 1)).val
/-- The value of a k pair. -/
def pairK (g : Gang) (n : Nat) : Dword := pairOf (kReg g n).val (kReg g (n + 1)).val

/-! ### Launch records (Table 12.3) -/

/-- The fields of a launch record. -/
structure RecordFields where
  next    : Nat
  desc    : Nat
  params  : Nat
  gx      : Nat
  gy      : Nat
  gz      : Nat
  stages  : Nat
  kind    : Nat
  overlap : Bool
  joins   : Nat
  tiles   : Nat
  lastLanes : Nat
  gangs   : Nat
  scratch : Nat
  lstore  : Nat
  handler : Nat
  dep0    : Nat
  dep1    : Nat
  resOk   : Bool
  deriving DecidableEq, Repr

/-- The little-endian number in a range of a byte list. -/
abbrev fieldAt (bs : List Byte) (off len : Nat) : Nat := leNat ((bs.drop off).take len)

/-- The fields of a launch record's 64 bytes (R309); for kinds 1 and 2 bytes 24 to 47 are ignored. -/
def recordFields (bs : List Byte) : RecordFields :=
  let g0 := fieldAt bs 24 4
  let g1 := fieldAt bs 28 4
  let bk := fieldAt bs 32 4
  let wn := fieldAt bs 36 4
  let d0 := fieldAt bs 48 8
  let d1 := fieldAt bs 56 8
  let kind := bitsOf bk 19 18
  { next := fieldAt bs 0 8, desc := fieldAt bs 8 8, params := fieldAt bs 16 8,
    gx := bitsOf g0 23 0 + 1, gy := bitsOf g1 15 0 + 1, gz := bitsOf g1 31 16 + 1, stages := bitsOf g0 26 24 + 1,
    kind := kind, overlap := kind == 0 && bk.testBit 17, joins := bitsOf bk 16 13, tiles := bitsOf bk 12 9,
    lastLanes := bitsOf bk 8 4 + 1, gangs := bitsOf bk 3 0 + 1,
    scratch := bitsOf wn 24 12 * 4096, lstore := bitsOf wn 9 0 * 256,
    handler := fieldAt bs 40 8, dep0 := d0, dep1 := d1,
    resOk := bitsOf d0 62 44 == 0 && bitsOf d1 62 44 == 0 &&
      (kind != 0 || (bitsOf bk 31 20 == 0 && bitsOf g0 31 27 == 0 && bitsOf wn 31 25 == 0 && bitsOf wn 11 10 == 0)) }

/-- The record of a block's launch; a record of zero bytes where there is none. -/
def blockRecord (s : State) (b : Block) : RecordFields :=
  recordFields (((getLaunch s b.launch).map Launch.record).getD [])

/-- The priority of a launch (R318, R321, R323): that of the host queue it comes from, as QCTL now holds it. -/
def launchPrio (s : State) (l : Launch) : Nat := bitsOf (getQueue s l.root).ctl.toNat 30 28

/-- The priority of a block. -/
def blockPrio (s : State) (b : Block) : Nat := ((getLaunch s b.launch).map (launchPrio s)).getD 0

/-! ### Bank modes and windows (Table 9.4, R267) -/

/-- The mode of a data bank: 0 CACHE, 1 SCRATCH, 2 FIFO, 3 retired. -/
def bankModeOf (cbmode : Word) (i : Nat) : Nat := bitsOf cbmode.toNat (2 * i + 1) (2 * i)

/-- The data banks in a mode, rising. -/
def banksIn (cbmode : Word) (m : Nat) : List Nat := (List.range 16).filter (fun i => bankModeOf cbmode i == m)

/-- The ways where a fill of a cluster's L2 may allocate: none that a change in progress surrenders (R377). -/
def openWays (c : Cluster) : List Nat :=
  (banksIn c.cbmode 0).filter (fun i => match c.change with | some new => bankModeOf new i == 0 | none => true)

/-- The bytes of a cluster's scratch space (R267). -/
def scratchSpace (cbmode : Word) : Nat := (banksIn cbmode 1).length * 2 ^ 20

/-- The cluster that a block is on, or came from if it is saved. -/
def blockCluster (b : Block) : Nat :=
  match b.place with
  | .core c => clusterOf c
  | .saved _ _ c => c

/-- A block's current scratch size (R267). -/
def scratchSize (s : State) (b : Block) : Nat :=
  min (blockRecord s b).scratch (scratchSpace (getCluster s (blockCluster b)).cbmode - b.origin)

/-- A block's local store size (R133). -/
def lstoreSize (s : State) (b : Block) : Nat := (blockRecord s b).lstore

/-- The block of the same chain at another stage (R20, R268). -/
def stageBlock (s : State) (b : Block) (stage : Nat) : Option (Nat × Block) :=
  (blockList s).find? (fun e => e.2.launch == b.launch && e.2.chain == b.chain && e.2.stage == stage)

/-! ### Counters (R72, R138) -/

/-- What a counter reads: the operations of its class in the gang's list. -/
def counterOf (g : Gang) (c : Counter) : Nat := (g.counts.filter (fun e => e.cls == c)).length

/-- The gang with an operation counted. -/
def countOp (g : Gang) (c : Counter) (id : Nat) : Gang := { g with counts := g.counts ++ [{ cls := c, id := id }] }

/-- The list of operations without those of a class that are done with every older one of the class (R138). -/
def dropDone (c : Counter) : List Count → List Count
  | [] => []
  | e :: es => if e.cls == c then (if e.done then dropDone c es else e :: es) else e :: dropDone c es

/-- The gang with an operation completed (R138). -/
def doneOp (g : Gang) (id : Nat) : Gang :=
  let cs := g.counts.map (fun e => if e.id == id then { e with done := true } else e)
  { g with counts := [Counter.ld, .st, .cp, .mx, .gx].foldl (fun l c => dropDone c l) cs }

/-- The commands of a block that its engines and the forwarders hold. -/
def commandIds (s : State) (blk : Nat) : List Nat :=
  match getBlock s blk with
  | none => []
  | some b =>
    let here := match coreOf b with
      | some c => (getCore s c).skid.filterMap (fun e => e.2.map Command.id) ++ (getCore s c).mx.map MatrixCommand.id
      | none => []
    b.cmds.map (fun e => e.2.id) ++ here ++ [0, 1].flatMap (fun d => (getDie s d).sends.map SendCommand.id)

/-- Whether a BANKMODE has reached its cluster: all that its gang issued before it is over (R376). -/
def hasReached (s : State) : BankRequest → Bool
  | .unit _ blk _ _ after => after.all (fun n => getOp s n == none && !(commandIds s blk).contains n)
  | _ => true

/-- The requests of each cluster with the BANKMODEs that have reached it (R376). -/
def reachClusters (s : State) : State :=
  s.clusters.foldl (fun t e =>
    if e.2.coming.any (hasReached s) then
      modCluster t e.1 (fun c =>
        { c with requests := c.requests ++ c.coming.filter (hasReached s)
                 coming := c.coming.filter (fun r => !hasReached s r) })
    else t) s

/-- The state with an operation completed in each of some gangs of a block. -/
def doneInGangs (s : State) (b : Nat) (gangs : List Nat) (id : Nat) : State :=
  reachClusters (gangs.foldl (fun s g => modGang s b g (fun x => doneOp x id)) s)

/-- Whether a wait on counters holds (R71): code 0 none, 1 to 5 a counter, 6 all five. -/
def waitHolds (g : Gang) (code thr : Nat) : Bool :=
  match code with
  | 0 => true
  | 1 => counterOf g .ld ≤ thr
  | 2 => counterOf g .st ≤ thr
  | 3 => counterOf g .cp ≤ thr
  | 4 => counterOf g .mx ≤ thr
  | 5 => counterOf g .gx ≤ thr
  | _ => counterOf g .ld ≤ thr && counterOf g .st ≤ thr && counterOf g .cp ≤ thr &&
      counterOf g .mx ≤ thr && counterOf g .gx ≤ thr

/-! ### Headers and resume points (R68, R69, R76) -/

/-- The slots of a clause. -/
abbrev hdrCount (h : Word) : Nat := (h.extractLsb' 28 4).toNat
/-- The class of a clause. -/
abbrev hdrClass (h : Word) : Nat := (h.extractLsb' 25 3).toNat
/-- The wait counter of a header. -/
abbrev hdrWait (h : Word) : Nat := (h.extractLsb' 22 3).toNat
/-- The wait threshold of a header. -/
abbrev hdrThreshold (h : Word) : Nat := (h.extractLsb' 16 6).toNat
/-- Whether a slot traps on an empty read. -/
abbrev hdrTraps (h : Word) (slot : Nat) : Bool := h.getLsbD (slot + 1)
/-- The end-of-run bit. -/
abbrev hdrEnds (h : Word) : Bool := h.getLsbD 0

/-- The header check (R69): 0, or the reason code. -/
def headerCheck (h : Word) : Nat :=
  if hdrCount h = 0 then 0x0A
  else if 6 ≤ hdrClass h then 0x0B
  else if hdrWait h = 7 then 0x0C
  else if hdrCount h < 15 ∧ h.extractLsb' 1 15 >>> hdrCount h ≠ 0 then 0x0D
  else 0

/-- A resume point (R76). -/
def resumeAt (addr slot : Nat) : Dword := BitVec.ofNat 64 (addr % 2 ^ 57 + slot * 2 ^ 60)
/-- A value as a register that holds a resume point keeps it: bits 59–57 are reserved and read as 0 (R76, R6). -/
def asResume (v : Dword) : Dword := v &&& 0xF1FFFFFFFFFFFFFF
/-- The slot of a resume point. -/
abbrev rpSlot (r : Dword) : Nat := (r.extractLsb' 60 4).toNat
/-- The address of a resume point. -/
abbrev rpAddr (r : Dword) : Nat := (r.extractLsb' 0 57).toNat
/-- The address of the header that governs a resume point. -/
def rpHeader (r : Dword) : Nat :=
  if rpSlot r = 15 then rpAddr r else (r.extractLsb' 0 57 - BitVec.ofNat 57 (4 * (rpSlot r + 1))).toNat

/-- A code address as a 64-bit virtual address: the 57 bits of a resume point, sign-extended (R133, R76). -/
def codeVa (a : Nat) : Nat := if (a % 2 ^ 57).testBit 56 then a % 2 ^ 57 + 127 * 2 ^ 57 else a % 2 ^ 57

/-- Whether an access has ended. -/
def Stage.over : Stage → Bool
  | .waiting => false
  | .atHome _ _ _ => false
  | _ => true

end Sys2Proof.Machine
end

