-- ==== Sys2Proof/Machine/Numbers.lean ====
section
/-! DEFINITION. Numbers: the floating-point and integer formats as exact values (spec/02 R40 to R46), rounding and
conversion (R52 to R59), the arithmetic of R182 to R184, the special functions within their bounds (R186), plane values
and their quantisation (R49, R51), Barrett reduction (R67). -/

namespace Sys2Proof.Machine

/-! ### Exact values -/

/-- An exact dyadic number: sign, magnitude, exponent of two. The sign of a zero is kept. -/
structure Dyadic where
  neg : Bool
  m   : Nat
  e   : Int
  deriving DecidableEq, Repr

/-- The value of bits under a floating format. -/
inductive Val where
  | nan
  | inf (neg : Bool)
  | fin (x : Dyadic)
  deriving DecidableEq, Repr

/-- Plus or minus zero. -/
abbrev zeroOf (neg : Bool) : Dyadic := { neg := neg, m := 0, e := 0 }

/-- Two to a natural power times a natural. -/
abbrev scaleUp (m : Nat) (k : Int) : Nat := m * 2 ^ k.toNat

/-- The signed magnitude at an exponent not above the number's own. -/
def mantAt (x : Dyadic) (e : Int) : Int :=
  let n : Int := scaleUp x.m (x.e - e)
  if x.neg then -n else n

/-- The exact sum; a zero sum takes the given sign. -/
def dyAdd (x y : Dyadic) (zeroNeg : Bool) : Dyadic :=
  let e := min x.e y.e
  let n := mantAt x e + mantAt y e
  if n = 0 then zeroOf zeroNeg else { neg := decide (n < 0), m := n.natAbs, e := e }

/-- The exact product. -/
def dyMul (x y : Dyadic) : Dyadic := { neg := x.neg != y.neg, m := x.m * y.m, e := x.e + y.e }

/-- Whether one number is at most another. -/
def dyLe (x y : Dyadic) : Bool := let e := min x.e y.e; mantAt x e ≤ mantAt y e

/-- The magnitude. -/
abbrev dyAbs (x : Dyadic) : Dyadic := { x with neg := false }

/-- A natural times a power of two. -/
abbrev dyOf (m : Nat) (e : Int) : Dyadic := { neg := false, m := m, e := e }

/-- floor(log2) of the magnitude of a number that is not zero. -/
def dyLog (x : Dyadic) : Int := (Nat.log2 x.m : Int) + x.e

/-! ### Formats (Table 2.1, Table 2.4) -/

/-- A floating format: bits of exponent and mantissa, bias, whether it has infinities, its NaN codes (0 none, 1 the
all-ones exponent with a non-zero mantissa, 2 only the all-ones code), and the zero bits below its container's field. -/
structure Fmt where
  eb   : Nat
  mb   : Nat
  bias : Nat
  inf  : Bool
  nans : Nat
  low  : Nat := 0
  sgn  : Bool := true
  deriving DecidableEq, Repr

/-- FP32. -/
def fp32 : Fmt := { eb := 8, mb := 23, bias := 127, inf := true, nans := 1 }
/-- FP16. -/
def fp16 : Fmt := { eb := 5, mb := 10, bias := 15, inf := true, nans := 1 }
/-- BF16. -/
def bf16 : Fmt := { eb := 8, mb := 7, bias := 127, inf := true, nans := 1 }
/-- TF32 in its 32-bit container (R41). -/
def tf32 : Fmt := { eb := 8, mb := 10, bias := 127, inf := true, nans := 1, low := 13 }
/-- E4M3. -/
def e4m3 : Fmt := { eb := 4, mb := 3, bias := 7, inf := false, nans := 2 }
/-- E5M2. -/
def e5m2 : Fmt := { eb := 5, mb := 2, bias := 15, inf := true, nans := 1 }
/-- E3M2. -/
def e3m2 : Fmt := { eb := 3, mb := 2, bias := 3, inf := false, nans := 0 }
/-- E2M3. -/
def e2m3 : Fmt := { eb := 2, mb := 3, bias := 1, inf := false, nans := 0 }
/-- E2M1. -/
def e2m1 : Fmt := { eb := 2, mb := 1, bias := 1, inf := false, nans := 0 }
/-- E3M5, unsigned. -/
def e3m5 : Fmt := { eb := 3, mb := 5, bias := 3, inf := false, nans := 0, sgn := false }

/-- The floating formats of Table 6.5 by code. -/
def fmtOf : Nat → Fmt
  | 0 => fp32 | 1 => fp16 | 2 => bf16 | 3 => tf32 | 4 => e4m3 | 5 => e5m2 | 6 => e3m2 | 7 => e2m3 | _ => e2m1

/-- Minimum exponent (Table 2.4). -/
abbrev Fmt.emin (f : Fmt) : Int := 1 - (f.bias : Int)
/-- The largest code of the magnitude that is finite. -/
def Fmt.maxCode (f : Fmt) : Nat :=
  if f.nans = 1 then (2 ^ f.eb - 1) * 2 ^ f.mb - 1 else if f.nans = 2 then 2 ^ (f.eb + f.mb) - 2 else 2 ^ (f.eb + f.mb) - 1

/-- The value of a magnitude code that is finite (R40). -/
def codeValue (f : Fmt) (neg : Bool) (code : Nat) : Dyadic :=
  let e := code / 2 ^ f.mb
  let m := code % 2 ^ f.mb
  if e = 0 then (if m = 0 then zeroOf neg else { neg := neg, m := m, e := f.emin - f.mb })
  else { neg := neg, m := 2 ^ f.mb + m, e := (e : Int) - f.bias - f.mb }

/-- The value of bits under a format (R40, R41); bits outside the format are ignored. -/
def decodeF (f : Fmt) (bits : Nat) : Val :=
  let x := bits / 2 ^ f.low % 2 ^ (f.eb + f.mb + 1)
  let neg := f.sgn && x.testBit (f.eb + f.mb)
  let code := x % 2 ^ (f.eb + f.mb)
  if code ≤ f.maxCode then .fin (codeValue f neg code)
  else if f.inf && code == f.maxCode + 1 then .inf neg
  else .nan

/-- The largest finite value. -/
abbrev Fmt.maxVal (f : Fmt) : Dyadic := codeValue f false f.maxCode

/-- A sign and a magnitude code as bits. -/
def codeBits (f : Fmt) (neg : Bool) (code : Nat) : Nat :=
  ((if neg && f.sgn then 2 ^ (f.eb + f.mb) else 0) + code) * 2 ^ f.low

/-- The canonical NaN (Table 2.1); +0 for a format without NaN (Table 2.5). -/
def canonicalNan (f : Fmt) : Nat :=
  if f.nans = 1 then codeBits f false ((2 ^ f.eb - 1) * 2 ^ f.mb + 2 ^ (f.mb - 1))
  else if f.nans = 2 then codeBits f false (f.maxCode + 1) else 0

/-! ### Rounding (R52) -/

/-- Rounding modes by code (R53): 0 rne, 1 rtz, 2 rdn, 3 rup. -/
abbrev Mode := Nat

/-- The natural quotient of a magnitude by 2^k, rounded under a mode for a sign. -/
def roundShift (neg : Bool) (m k : Nat) (mode : Mode) : Nat :=
  let q := m / 2 ^ k
  let r := m % 2 ^ k
  if r = 0 then q
  else
    match mode with
    | 0 => if 2 * r < 2 ^ k then q else if 2 ^ k < 2 * r then q + 1 else q + q % 2
    | 1 => q
    | 2 => if neg then q + 1 else q
    | _ => if neg then q else q + 1

/-- A number rounded to a precision and minimum exponent (R52). -/
def roundTo (f : Fmt) (x : Dyadic) (mode : Mode) : Dyadic :=
  if x.m = 0 then x
  else
    let q := max (dyLog x) f.emin - f.mb
    if q ≤ x.e then x else { neg := x.neg, m := roundShift x.neg x.m (q - x.e).toNat mode, e := q }

/-- The magnitude code of a number on the format's grid and not above its maximum. -/
def codeOf (f : Fmt) (x : Dyadic) : Nat :=
  if x.m = 0 then 0
  else
    let e := max (dyLog x) f.emin
    let q := e - f.mb
    let m := if q ≤ x.e then scaleUp x.m (x.e - q) else x.m / 2 ^ (q - x.e).toNat
    if m < 2 ^ f.mb then m else (e + f.bias).toNat * 2 ^ f.mb + (m - 2 ^ f.mb)

/-- The bits of plus or minus the largest finite value. -/
abbrev maxBits (f : Fmt) (neg : Bool) : Nat := codeBits f neg f.maxCode
/-- The bits of an infinity. -/
abbrev infBits (f : Fmt) (neg : Bool) : Nat := codeBits f neg (f.maxCode + 1)

/-- A conversion to a floating format (R57, Table 2.5) with R55 on the result: `ftz` applies to FP32, FP16 and BF16.
A non-zero value that rounds to zero keeps its sign: DESIGN CHOICE, log 98. -/
def convert (f : Fmt) (v : Val) (mode : Mode) (sat ftz : Bool) : Nat :=
  match v with
  | .nan => canonicalNan f
  | .inf neg => if f.inf && !sat then infBits f neg
      else if f.nans = 2 && !sat then canonicalNan f else maxBits f neg
  | .fin x =>
    let y := roundTo f x mode
    if !dyLe (dyAbs y) f.maxVal then
      if sat then maxBits f x.neg
      else if f.nans = 2 then canonicalNan f
      else if !f.inf then maxBits f x.neg
      else
        match mode with
        | 0 => infBits f x.neg
        | 1 => maxBits f x.neg
        | 2 => if x.neg then infBits f true else maxBits f false
        | _ => if x.neg then maxBits f true else infBits f false
    else
      let c := codeOf f y
      if ftz && f.low == 0 && (f.mb == 23 || f.mb == 10 || f.mb == 7) && c < 2 ^ f.mb then codeBits f x.neg 0
      else codeBits f x.neg c

/-- An operand read under R55: a subnormal is a zero of its sign when `ftz` applies. -/
def readF (f : Fmt) (ftz : Bool) (bits : Nat) : Val :=
  match decodeF f bits with
  | .fin x => if ftz && f.low == 0 && (f.mb == 23 || f.mb == 10 || f.mb == 7) && dyLog x < f.emin
      then .fin (zeroOf x.neg) else .fin x
  | v => v

/-- Whether bits are finite under a format. -/
def isFinite (f : Fmt) (bits : Nat) : Bool :=
  match decodeF f bits with | .fin _ => true | _ => false

/-! ### Arithmetic (R182, R184) -/

/-- The sum of two values; a zero sum of opposite signs is -0 only under rdn (R184). -/
def addVal (a b : Val) (mode : Mode) : Val :=
  match a, b with
  | .nan, _ => .nan
  | _, .nan => .nan
  | .inf x, .inf y => if x = y then .inf x else .nan
  | .inf x, .fin _ => .inf x
  | .fin _, .inf y => .inf y
  | .fin x, .fin y => .fin (dyAdd x y (if x.m = 0 ∧ y.m = 0 ∧ x.neg = y.neg then x.neg else mode == 2))

/-- The negation of a value. -/
def negVal : Val → Val
  | .nan => .nan
  | .inf x => .inf (!x)
  | .fin x => .fin { x with neg := !x.neg }

/-- The product of two values. -/
def mulVal (a b : Val) : Val :=
  match a, b with
  | .nan, _ => .nan
  | _, .nan => .nan
  | .inf x, .inf y => .inf (x != y)
  | .inf x, .fin y => if y.m = 0 then .nan else .inf (x != y.neg)
  | .fin x, .inf y => if x.m = 0 then .nan else .inf (x.neg != y)
  | .fin x, .fin y => .fin (dyMul x y)

/-- Whether one value is below another, -0 below +0 (R56); neither is a NaN. -/
def ltVal (a b : Val) : Bool :=
  match a, b with
  | .inf x, .inf y => x && !y
  | .inf x, _ => x
  | _, .inf y => !y
  | .fin x, .fin y => if x.m = 0 ∧ y.m = 0 then x.neg && !y.neg else !dyLe y x
  | _, _ => false

/-- minimumNumber (R56) on bits of a format. -/
def minNum (f : Fmt) (a b : Nat) : Nat :=
  match decodeF f a, decodeF f b with
  | .nan, .nan => canonicalNan f
  | .nan, _ => b
  | _, .nan => a
  | x, y => if ltVal y x then b else a

/-- maximumNumber (R56) on bits of a format. -/
def maxNum (f : Fmt) (a b : Nat) : Nat :=
  match decodeF f a, decodeF f b with
  | .nan, .nan => canonicalNan f
  | .nan, _ => b
  | _, .nan => a
  | x, y => if ltVal x y then b else a

/-- The integer nearest to a value under a mode, with saturation (R58). -/
def toInteger (v : Val) (mode : Mode) (lo hi : Int) : Int :=
  match v with
  | .nan => 0
  | .inf neg => if neg then lo else hi
  | .fin x =>
    let n : Nat := if 0 ≤ x.e then scaleUp x.m x.e else roundShift x.neg x.m (-x.e).toNat mode
    max lo (min hi (if x.neg then -(n : Int) else n))

/-- An integer as an exact value; zero is +0 (R59). -/
def intVal (n : Int) : Val := .fin { neg := decide (n < 0), m := n.natAbs, e := 0 }

/-! ### Special functions (R186, Table 6.3): fixed-point enclosures of the exact results -/

/-- floor(sqrt n), bit by bit. -/
def isqrt : Nat → Nat → Nat
  | 0, _ => 0
  | k + 1, n =>
    let r := 2 * isqrt k (n / 4)
    if (r + 1) * (r + 1) ≤ n then r + 1 else r

/-- The fixed point of the enclosures: 2^128. -/
abbrev fx : Nat := 2 ^ 128

/-- The series 1 + x/1 + x²/(1·2) + … in fixed point. -/
def expSeries (x : Nat) : Nat → Nat → Nat → Nat
  | 0, _, _ => 0
  | k + 1, n, term => term + expSeries x k (n + 1) (term * x / fx / (n + 1))

/-- ln 2 in fixed point. -/
abbrev ln2 : Nat := 235865763225513294137944142764154484399
/-- pi in fixed point. -/
abbrev piFx : Nat := 1069028584064966747859680373161870783300

/-- 2^f for f in [0, 1), in fixed point. -/
def exp2Fx (f : Nat) : Nat := expSeries (f * ln2 / fx) 48 0 fx

/-- The fractional bits of log2 of a fixed-point number in [1, 2), one per squaring. -/
def log2Bits : Nat → Nat → Nat
  | 0, _ => 0
  | k + 1, x =>
    let y := x * x / fx
    if 2 * fx ≤ y then 2 ^ k + log2Bits k (y / 2) else log2Bits k y

/-- The alternating series 1 - u/(n(n+1)) + …, in fixed point: sin t / t from n = 2, cos t from n = 1. -/
def altSeries (u : Nat) : Nat → Nat → Int → Int
  | 0, _, _ => 0
  | k + 1, n, term => term + altSeries u k (n + 2) (-(term * u / fx) / (n * (n + 1)))

/-- |x| modulo 2 in fixed point, for an exact x; magnitudes that fixed point cannot hold are even integers or zero. -/
def mod2Fx (x : Dyadic) : Nat :=
  let k := x.e + 128
  (if 0 ≤ k then scaleUp x.m k else x.m / 2 ^ (-k).toNat) % (2 * fx)

/-- An FP32 result that a bound and no value governs (R186): the implementation's, where it keeps the bound; else the number
nearest to the exact result. -/
def within (code x : Nat) (near : Dyadic) (keeps : Dyadic → Bool) : Nat :=
  let c := Config.specialFunction code x % 2 ^ 32
  match decodeF fp32 c with
  | .fin y => if keeps y then c else convert fp32 (.fin near) 0 false false
  | _ => convert fp32 (.fin near) 0 false false

/-- Whether a number differs by at most a bound from each of two. -/
def closeTo (bound lo hi y : Dyadic) : Bool :=
  let off (z : Dyadic) : Dyadic := dyAbs (dyAdd y { z with neg := !z.neg } false)
  dyLe (off lo) bound && dyLe (off hi) bound

/-- The fixed-point error that the enclosures allow for, in units of the last place. -/
abbrev slack : Nat := 2 ^ 14

/-- n spacings of FP32 numbers in the binade of an exponent (R186). -/
def ulpsAt (n : Nat) (l : Int) : Dyadic := dyOf n (max l (-126) - 23)

/-- n units in the last place of FP32 at a number (R186). -/
def ulps (n : Nat) (x : Dyadic) : Dyadic := ulpsAt n (dyLog x)

/-- Whether FP32 holds a number exactly. -/
def exact32 (x : Dyadic) : Bool := dyLe (dyAbs x) fp32.maxVal && (let y := roundTo fp32 x 0; dyLe x y && dyLe y x)

/-- 2^k for an integer exponent as FP32 bits: exact where representable. -/
def pow2Bits (k : Int) : Nat := convert fp32 (.fin (dyOf 1 k)) 0 false false

/-- The result of a special function on an operand that has been read under R55 (Table 6.3). -/
def specialResult (code bits : Nat) (v : Val) : Nat :=
  let zero (neg : Bool) := codeBits fp32 neg 0
  match code, v with
  | _, .nan => canonicalNan fp32
  | 0, .inf neg => zero neg
  | 0, .fin x =>
    if x.m = 0 then infBits fp32 x.neg
    else
      let a : Dyadic := { neg := x.neg, m := 2 ^ 160 / x.m, e := -160 - x.e }
      if x.m = 2 ^ Nat.log2 x.m ∧ exact32 { a with m := 1, e := -x.e - Nat.log2 x.m } then
        codeBits fp32 x.neg (codeOf fp32 (dyOf 1 (-x.e - Nat.log2 x.m)))
      else if !dyLe (dyAbs a) fp32.maxVal then convert fp32 (.fin a) 0 false false
      else
        within 0 bits a (fun y =>
          dyLe (dyAbs (dyAdd (dyMul y x) { dyOf 1 0 with neg := true } false)) (dyMul (ulps 1 a) (dyAbs x)))
  | 1, .inf neg => if neg then canonicalNan fp32 else zero false
  | 1, .fin x =>
    if x.m = 0 then infBits fp32 x.neg
    else if x.neg then canonicalNan fp32
    else
      let l := Nat.log2 x.m
      if x.m = 2 ^ l ∧ (x.e + l) % 2 = 0 then pow2Bits (-(x.e + l) / 2)
      else
        let m := if x.e % 2 = 0 then x.m else 2 * x.m
        let e := if x.e % 2 = 0 then x.e else x.e - 1
        let a := dyOf (isqrt 160 (2 ^ 300 / m)) (-150 - e / 2)
        let b := ulps 2 a
        within 1 bits a (fun y =>
          let lo := dyAdd y { b with neg := true } false
          let hi := dyAdd y b false
          (lo.neg || dyLe (dyMul (dyMul lo lo) x) (dyOf 1 0)) && !hi.neg && dyLe (dyOf 1 0) (dyMul (dyMul hi hi) x))
  | 2, .inf neg => if neg then canonicalNan fp32 else infBits fp32 false
  | 2, .fin x =>
    if x.m = 0 then zero x.neg
    else if x.neg then canonicalNan fp32
    else
      let m := (if x.e % 2 = 0 then x.m else 2 * x.m) * 2 ^ 80
      let e := if x.e % 2 = 0 then x.e else x.e - 1
      let r := isqrt 60 m
      convert fp32 (.fin (dyOf (2 * r + (if r * r = m then 0 else 1)) (e / 2 - 41))) 0 false false
  | 3, .inf neg => if neg then zero false else infBits fp32 false
  | 3, .fin x =>
    if !x.neg && dyLe (dyOf 128 0) x then infBits fp32 false
    else if x.neg && dyLe (dyOf 150 0) (dyAbs x) then zero false
    else
      let k := x.e + 128
      let m : Int := if x.neg then -(x.m : Int) else x.m
      let t : Int := if 0 ≤ k then m * 2 ^ k.toNat else Int.fdiv m (2 ^ (-k).toNat)
      let n := Int.fdiv t fx
      let f := (Int.fmod t fx).toNat
      if f = 0 ∧ (0 ≤ k ∨ x.m % 2 ^ (-k).toNat = 0) then pow2Bits n
      else
        let y := exp2Fx f
        within 3 bits (dyOf y (n - 128))
          (closeTo (ulpsAt 2 n) (dyOf (max fx (y - slack)) (n - 128)) (dyOf (min (2 * fx) (y + slack)) (n - 128)))
  | 4, .inf neg => if neg then canonicalNan fp32 else infBits fp32 false
  | 4, .fin x =>
    if x.m = 0 then infBits fp32 true
    else if x.neg then canonicalNan fp32
    else
      let l := Nat.log2 x.m
      let n := x.e + l
      if x.m = 2 ^ l then convert fp32 (intVal n) 0 false false
      else
        let frac := log2Bits 100 (x.m * fx / 2 ^ l)
        let s : Int := n * 2 ^ 100 + frac
        let put (s : Int) : Dyadic := { neg := decide (s < 0), m := s.natAbs, e := -100 }
        let near := dyLe (dyOf 1 (-1)) x && dyLe x (dyOf 2 0)
        within 4 bits (put s) (closeTo (if near then dyOf 1 (-22) else ulps 2 (put s)) (put (s - 1)) (put (s + 2)))
  | 5, .inf _ => canonicalNan fp32
  | 5, .fin x =>
    let r := mod2Fx x
    if x.m = 0 ∨ (r % fx = 0 ∧ 0 ≤ dyLog x) then zero x.neg
    else
      let small := !dyLe (dyOf 1 (-4)) (dyAbs x)
      let flip := decide (fx ≤ r)
      let h := r % fx
      let g := if fx / 2 < h then fx - h else h
      let u := (g * piFx / fx) * (g * piFx / fx) / fx
      let sinc := (altSeries u 40 2 fx).toNat
      let p := piFx * sinc / fx
      let put (p : Nat) : Dyadic :=
        if small then { neg := x.neg, m := x.m * p, e := x.e - 128 } else { neg := x.neg != flip, m := g * p, e := -256 }
      let lo := put (p - slack)
      within 5 bits (put p)
        (closeTo (if small then { dyAbs lo with e := lo.e - 21 } else dyOf 1 (-22)) lo (put (p + slack)))
  | 6, .inf _ => canonicalNan fp32
  | 6, .fin x =>
    let r := mod2Fx x
    if x.m = 0 ∨ (r % fx = 0 ∧ 0 ≤ dyLog x) then codeBits fp32 (r % (2 * fx) == fx) (codeOf fp32 (dyOf 1 0))
    else if r % fx = fx / 2 ∧ -1 ≤ dyLog x then zero false
    else
      let h := if fx < r then 2 * fx - r else r
      let neg := decide (fx / 2 < h)
      let g := if neg then fx - h else h
      let u := (g * piFx / fx) * (g * piFx / fx) / fx
      let c := (altSeries u 40 1 fx).toNat
      let put (c : Nat) : Dyadic := { neg := neg, m := c, e := -128 }
      within 6 bits (put c) (closeTo (dyOf 1 (-22)) (put (c - slack)) (put (min fx (c + slack))))
  | 7, .inf neg => codeBits fp32 neg (codeOf fp32 (dyOf 1 0))
  | 7, .fin x =>
    if dyLe (dyAbs x) (dyOf 1 (-12)) then convert fp32 (.fin x) 0 false false
    else if dyLe (dyOf 10 0) (dyAbs x) then codeBits fp32 x.neg (codeOf fp32 (dyOf 1 0))
    else
      let t := scaleUp x.m (x.e + 129) * fx / ln2
      let e := exp2Fx (t % fx) * 2 ^ (t / fx)
      let h := (e - fx) * fx / (e + fx)
      let put (h : Nat) : Dyadic := { neg := x.neg, m := h, e := -128 }
      within 7 bits (put h) (fun y =>
        dyLe (dyAbs y) (dyOf 1 0) && closeTo (ulps 2 (put h)) (put (h - slack)) (put (min fx (h + slack))) y)
  | _, _ => canonicalNan fp32

/-- The class mask of FCLS (R187). -/
def classMask (x : Nat) : Nat :=
  let neg := x.testBit 31
  let e := bitsOf x 30 23
  let m := bitsOf x 22 0
  if e = 255 then (if m = 0 then (if neg then 1 else 128) else if x.testBit 22 then 512 else 256)
  else if e = 0 then (if m = 0 then (if neg then 8 else 16) else if neg then 4 else 32)
  else if neg then 2 else 64

/-- Whether a special function raises the condition of R60 on a finite operand: its result is infinite or a NaN. -/
def specialTraps (v : Val) (res : Nat) : Bool :=
  match v with | .fin _ => !isFinite fp32 res | _ => false

/-! ### Plane codes (R49, R51) -/

/-- The magnitude bits M1 to Mh of a 15-bit field. -/
def planesHeld (mag h : Nat) : Nat := mag / 2 ^ (15 - min h 15) * 2 ^ (15 - min h 15)

/-- plane_value (R49). -/
def planeValue (head : Nat) (neg : Bool) (mag h : Nat) (mid : Bool) : Val :=
  let e := bitsOf head 7 0
  let n := bitsOf head 11 8
  if e = 0xFF then .nan
  else if n = 0 then .fin (zeroOf neg)
  else
    let f := 2 * planesHeld mag (min h n) + (if mid ∧ h < n then 2 ^ (15 - h) else 0)
    .fin { neg := neg, m := f, e := (e : Int) - 127 - 16 }

/-- The sign bit of a value as quantisation reads it (R51): a NaN gives 0. -/
def signBit : Val → Bool
  | .nan => false
  | .inf n => n
  | .fin x => x.neg

/-- The magnitude of a value, an infinity counting as 2^128 (R51). -/
def magOf : Val → Dyadic
  | .nan => zeroOf false
  | .inf _ => dyOf 1 128
  | .fin x => dyAbs x

/-- pb_encode (R51): planes stored, E, signs and magnitudes of 32 values. -/
def pbEncode (xs : List Val) (n : Nat) (rz : Bool) : Nat × Nat × List Bool × List Nat :=
  let sgn := xs.map signBit
  let zeros := xs.map (fun _ => 0)
  if xs.any (· == .nan) then (n, 0xFF, sgn, zeros)
  else
    let m := xs.foldl (fun m v => if dyLe m (magOf v) then magOf v else m) (zeroOf false)
    if m.m = 0 then (0, 0, sgn, zeros)
    else
      let e := max 0 (min 254 (dyLog m + 128))
      let mags := xs.map (fun v =>
        let x := magOf v
        let x := if dyLe x (dyOf 1 128) then x else dyOf 1 128
        let k := x.e - (e - 127) + n
        let c := if 0 ≤ k then scaleUp x.m k else roundShift false x.m (-k).toNat (if rz then 1 else 0)
        min c (2 ^ n - 1) * 2 ^ (15 - n))
      (n, e.toNat, sgn, mags)

/-! ### Barrett reduction (R67) -/

/-- The bit length of a number. -/
def bitLength (q : Nat) : Nat := if q = 0 then 0 else Nat.log2 q + 1

/-- barrett (R67). -/
def barrett (x q c : Nat) : Dword :=
  let t := x * c / 2 ^ (2 * bitLength q)
  let r : Int := (x : Int) - (t * q : Nat)
  BitVec.ofInt 64 (if (q : Int) ≤ r then r - q else r)

end Sys2Proof.Machine
end

