-- ==== Sys2Proof/Machine/Formats.lean ====
section
/-! DEFINITION. The operand formats of the matrix engine and of the conversions, as numbers (spec/02 Table 2.7, spec/06
Tables 6.5 and 6.6): element bits, width class, k-group, block length and scales. -/

namespace Sys2Proof.Machine

/-- Element bits of a matrix format code (Table 6.6). -/
def fmtBits : Nat → Nat
  | 0 | 1 | 19 | 23 => 16
  | 2 | 3 => 32
  | 4 | 5 | 9 | 10 | 14 | 15 | 16 | 22 => 8
  | 6 | 7 | 11 | 12 => 6
  | _ => 4

/-- Width class of a matrix format code (Table 2.7): 4, 8, 16 or 32. -/
def fmtClass (c : Nat) : Nat := if fmtBits c = 6 then 8 else fmtBits c

/-- Whether a matrix format code is scaled (Table 6.6). -/
def fmtScaled (c : Nat) : Bool := (9 ≤ c && c ≤ 14) || (20 ≤ c && c ≤ 23)

/-- Block length along k of a scaled format (Table 2.7); 1 for a format without blocks. -/
def fmtBlock (c : Nat) : Nat := if c = 20 then 8 else if fmtScaled c then 32 else 1

/-- The k-group of a width class (Table 2.7). -/
def classGroup (w : Nat) : Nat := if w = 4 then 64 else if w = 8 then 32 else 16

/-- The k-group of an operation on two formats: that of the wider class (R62). -/
def opGroup (fa fb : Nat) : Nat := classGroup (max (fmtClass fa) (fmtClass fb))

/-- Words per row of a register fragment (R196): ceil(kg × bits / 32). -/
def fragWords (kg f : Nat) : Nat := (kg * fmtBits f + 31) / 32

/-- Elements per group of the packing formats of CVTPK and CVTUP (R191): 2, 4 or 8. -/
def packCount (fmt : Nat) : Nat :=
  if fmt ≤ 1 || fmt = 7 || fmt = 8 then 2
  else if fmt = 6 || fmt = 11 || fmt = 12 then 8
  else 4

/-- Bytes of a load or store size code (Table 3.8). -/
def sizeBytes : Nat → Nat
  | 0 | 1 => 1
  | 2 | 3 => 2
  | 4 => 4
  | 5 => 8
  | _ => 16

/-- Registers of a load or store size code (Table 3.8). -/
def sizeRegs (c : Nat) : Nat := if c = 5 then 2 else if c = 6 then 4 else 1

/-- Bytes of an element of ACCLD and ACCST (R211): 4 for f32, 2 for bf16 and f16. -/
def accEsize (fmt : Nat) : Nat := if fmt = 0 then 4 else 2

/-- Byte size of an A format that MCONV admits (R205, R206). -/
def convEsize (fa : Nat) : Nat := fmtBits fa / 8

/-- The numbers of Table 7.8: width 32 or 64, or `none` for a number not in the table. -/
def sysWidth : Nat → Option Nat
  | 0x00 | 0x01 | 0x02 | 0x03 | 0x04 | 0x05 | 0x08 | 0x09 => some 32
  | 0x0A => some 64
  | 0x10 => some 32
  | 0x11 => some 64
  | 0x12 | 0x13 | 0x14 | 0x15 => some 32
  | 0x18 | 0x19 | 0x1A | 0x1B => some 64
  | 0x20 => some 32
  | 0x28 => some 64
  | _ => none

/-- Whether a register of Table 7.8 is read-only. -/
def sysReadOnly (n : Nat) : Bool := n ≤ 0x05 || n = 0x28

end Sys2Proof.Machine
end

