-- ==== Sys2Proof/Machine/Legality.lean ====
section
/-! DEFINITION. Which field values of an instruction are legal (spec/03 R79, R86, R87, Table 3.3, Table 3.7, and each
member's own description): every reason code that applies to the fields, as a list. The reasons that come from the
word's place in its clause (0x07, 0x08, 0x09) and a non-zero reserved field (0x03) are found where the word is
decoded and issued. -/

namespace Sys2Proof.Machine

/-- A v or k pair: 0 to 62 and even (Table 3.7). -/
def pairR (n : BitVec 6) : List Nat := if n = 63 then [4, 5] else if n.getLsbD 0 then [5] else []

/-- A v or k group of four: 0 to 60 and a multiple of 4 (Table 3.7). -/
def quadR (n : BitVec 6) : List Nat :=
  if 60 < n.toNat then [4, 5] else if n.toNat % 4 ≠ 0 then [5] else []

/-- A v group of `c` registers whose first is a multiple of `c` (R191, R192, R212, R222). -/
def groupR (c : Nat) (n : BitVec 6) : List Nat :=
  if c = 2 then pairR n else if c = 4 then quadR n else if n.toNat % c ≠ 0 then [5] else []

/-- A predicate written: p7 raises 0x06 (Table 3.7). -/
def pdR (p : BitVec 3) : List Nat := if p = 7 then [6] else []

/-- Reason 0x0E: a combination not defined for the member. -/
def badR (c : Prop) [Decidable c] : List Nat := if c then [0x0E] else []

/-- Reason 0x02: a reserved condition or format code in the minor field. -/
def minorR (c : Prop) [Decidable c] : List Nat := if c then [2] else []

/-- Reason 0x03: a field that the form reserves is not zero. -/
def resR (c : Prop) [Decidable c] : List Nat := if c then [3] else []

/-- Reason 0x04: a register number outside its class's range. -/
def rangeR (c : Prop) [Decidable c] : List Nat := if c then [4] else []

/-- The data register of an F-M member by size code (Table 3.8). -/
def dataR (size : BitVec 3) (d : BitVec 6) : List Nat :=
  if size = 5 then pairR d else if size = 6 then quadR d else []

/-- The k data register of LDX and STX (R144). -/
def kdataR (size : BitVec 2) (d : BitVec 6) : List Nat :=
  if size = 1 then pairR d else if size = 2 then quadR d else []

/-- A join field of a command: 0 to 8 (R163). -/
def joinR (j : BitVec 4) : List Nat := rangeR (9 ≤ j.toNat)

/-- The register of SYSR and SYSW by the number's width (R241). -/
def sysR (num : BitVec 8) (d : BitVec 6) : List Nat :=
  match sysWidth num.toNat with
  | none => [4]
  | some 64 => pairR d
  | some _ => []

/-- One operand of a matrix command: a register fragment (R196) or a scratch pair (R197). A reserved format code counts as one of
4-bit elements for the registers of its fragment: DESIGN CHOICE, log 117. -/
def mxOperandR (kg f : Nat) (inScratch : Bool) (r : BitVec 6) : List Nat :=
  if inScratch then pairR r
  else rangeR (64 < r.toNat + 2 * fragWords kg f) ++ (if r.toNat % 4 ≠ 0 then [5] else [])

/-- What MMA and MMAS share (R195, R196, R197, R202). -/
def mxR (fa fb : BitVec 5) (ra rb : BitVec 6) (sa sb : BitVec 1) (gm : BitVec 6) : List Nat :=
  let kg := opGroup fa.toNat fb.toNat
  let k := (gm.toNat + 1) * kg
  badR (24 ≤ fa.toNat ∨ 24 ≤ fb.toNat ∨ ((sa = 0 ∨ sb = 0) ∧ gm ≠ 0) ∨
    k % fmtBlock fa.toNat ≠ 0 ∨ k % fmtBlock fb.toNat ≠ 0) ++
  mxOperandR kg fa.toNat (sa = 1) ra ++ mxOperandR kg fb.toNat (sb = 1) rb

/-- The formats and the B operand of MCONV (R205). -/
def convR (fa fb : BitVec 5) (rb : BitVec 6) (sb : BitVec 1) (gm : BitVec 6) : List Nat :=
  badR (¬ (fa.toNat ≤ 5 ∨ fa = 15 ∨ fa = 16 ∨ fa = 19) ∨ 24 ≤ fb.toNat ∨ fmtScaled fb.toNat ∨ (sb = 0 ∧ gm ≠ 0)) ++
  mxOperandR (opGroup fa.toNat fb.toNat) fb.toNat (sb = 1) rb

/-- The reason codes below 0x09 that the first word of a two-word instruction gives it whatever its second word holds (R83): the
second word of one that starts in the last slot is no word of the clause. -/
def firstWordReasons : Instr → List Nat
  | .accrd _ _ v n _ => groupR (2 ^ n.toNat) v
  | .accwr _ _ v n _ => groupR (2 ^ n.toNat) v
  | .atom _ _ a sp _ _ _ _ _ _ _ => if sp = 0 then pairR a else []
  | .cas _ _ a sp _ _ _ _ _ _ => if sp = 0 then pairR a else []
  | .cpyt _ kr kc _ _ _ _ _ => pairR kr ++ quadR kc
  | .cpyp _ kq _ _ _ _ _ _ _ => quadR kq
  | .cpyx _ _ kb _ _ _ _ _ => pairR kb
  | .cpyf _ vd _ _ _ _ _ => pairR vd
  | _ => []

/-- The reason codes that an instruction's fields give it (Table 3.3). A step of the device has none. -/
def legality : Instr → List Nat
  | .add _ _ _ _ => []
  | .sub _ _ _ _ => []
  | .mul _ _ _ _ => []
  | .mulh _ _ _ _ => []
  | .mad _ _ _ _ => []
  | .min _ _ _ _ => []
  | .max _ _ _ _ => []
  | .abs _ _ _ => []
  | .neg _ _ _ => []
  | .div _ _ _ _ => []
  | .rem _ _ _ _ => []
  | .lea _ d a _ => pairR d ++ pairR a
  | .sel _ _ _ _ => []
  | .mov _ _ _ => []
  | .addK _ _ _ _ => []
  | .subK _ _ _ _ => []
  | .mulK _ _ _ _ => []
  | .mulhK _ _ _ _ => []
  | .madK _ _ _ _ => []
  | .minK _ _ _ _ => []
  | .maxK _ _ _ _ => []
  | .absK _ _ _ => []
  | .negK _ _ _ => []
  | .divK _ _ _ _ => []
  | .remK _ _ _ _ => []
  | .leaK _ d a _ => pairR d ++ pairR a
  | .selK _ _ _ _ => []
  | .movK _ _ _ => []
  | .and _ _ _ _ => []
  | .or _ _ _ _ => []
  | .xor _ _ _ _ => []
  | .andn _ _ _ _ => []
  | .shl _ _ _ _ => []
  | .shr _ _ _ _ => []
  | .sra _ _ _ _ => []
  | .rot _ _ _ _ => []
  | .bfe _ _ _ _ => []
  | .bfi _ _ _ _ => []
  | .popc _ _ _ => []
  | .clz _ _ _ => []
  | .brev _ _ _ => []
  | .andK _ _ _ _ => []
  | .orK _ _ _ _ => []
  | .xorK _ _ _ _ => []
  | .andnK _ _ _ _ => []
  | .shlK _ _ _ _ => []
  | .shrK _ _ _ _ => []
  | .sraK _ _ _ _ => []
  | .rotK _ _ _ _ => []
  | .bfeK _ _ _ _ => []
  | .bfiK _ _ _ _ => []
  | .popcK _ _ _ => []
  | .clzK _ _ _ => []
  | .brevK _ _ _ => []
  | .add64 _ d a b => pairR d ++ pairR a ++ pairR b
  | .sub64 _ d a b => pairR d ++ pairR a ++ pairR b
  | .mul64 _ d a b => pairR d ++ pairR a ++ pairR b
  | .mulh64 _ d a b => pairR d ++ pairR a ++ pairR b
  | .min64 _ d a b => pairR d ++ pairR a ++ pairR b
  | .max64 _ d a b => pairR d ++ pairR a ++ pairR b
  | .shl64 _ d a _ => pairR d ++ pairR a
  | .shr64 _ d a _ => pairR d ++ pairR a
  | .sra64 _ d a _ => pairR d ++ pairR a
  | .addImm _ _ _ _ => []
  | .andImm _ _ _ _ => []
  | .orImm _ _ _ _ => []
  | .xorImm _ _ _ _ => []
  | .shlImm _ d a w amt => if w = 1 then pairR d ++ pairR a else badR (32 ≤ amt.toNat)
  | .shrImm _ d a w amt => if w = 1 then pairR d ++ pairR a else badR (32 ≤ amt.toNat)
  | .sraImm _ d a w amt => if w = 1 then pairR d ++ pairR a else badR (32 ≤ amt.toNat)
  | .rotImm _ d a w amt => if w = 1 then pairR d ++ pairR a else badR (32 ≤ amt.toNat)
  | .movi _ _ _ => []
  | .movh _ _ _ => []
  | .cmp _ pd w comb a b cond => pdR pd ++ (if w = 1 then pairR a ++ pairR b else []) ++ badR (comb = 3) ++ minorR (12 ≤ cond.toNat)
  | .cmpImm _ pd _ _ _ => pdR pd
  | .plop _ pd _ _ _ _ op => pdR pd ++ badR (op = 3)
  | .pmovv _ _ => []
  | .vpmov _ _ _ => []
  | .kmov _ _ _ => []
  | .kmovImm _ _ _ => []
  | .klane _ _ _ _ => []
  | .fadd _ _ _ _ => []
  | .fsub _ _ _ _ => []
  | .fmul _ _ _ _ => []
  | .ffma _ _ _ _ => []
  | .fmin _ _ _ _ => []
  | .fmax _ _ _ _ => []
  | .fabs _ _ _ => []
  | .fneg _ _ _ => []
  | .faddK _ _ _ _ => []
  | .fsubK _ _ _ _ => []
  | .fmulK _ _ _ _ => []
  | .ffmaK _ _ _ _ => []
  | .fminK _ _ _ _ => []
  | .fmaxK _ _ _ _ => []
  | .fabsK _ _ _ => []
  | .fnegK _ _ _ => []
  | .faddF16x2 _ _ _ _ => []
  | .fsubF16x2 _ _ _ _ => []
  | .fmulF16x2 _ _ _ _ => []
  | .ffmaF16x2 _ _ _ _ => []
  | .fminF16x2 _ _ _ _ => []
  | .fmaxF16x2 _ _ _ _ => []
  | .fabsF16x2 _ _ _ => []
  | .fnegF16x2 _ _ _ => []
  | .faddBf16x2 _ _ _ _ => []
  | .fsubBf16x2 _ _ _ _ => []
  | .fmulBf16x2 _ _ _ _ => []
  | .ffmaBf16x2 _ _ _ _ => []
  | .fminBf16x2 _ _ _ _ => []
  | .fmaxBf16x2 _ _ _ _ => []
  | .fabsBf16x2 _ _ _ => []
  | .fnegBf16x2 _ _ _ => []
  | .frcp _ _ _ => []
  | .frsq _ _ _ => []
  | .fsqrt _ _ _ => []
  | .fex2 _ _ _ => []
  | .flg2 _ _ _ => []
  | .fsin _ _ _ => []
  | .fcos _ _ _ => []
  | .ftanh _ _ _ => []
  | .fcls _ _ _ => []
  | .fcmp _ pd comb _ _ cond => pdR pd ++ badR (comb = 3) ++ minorR (14 ≤ cond.toNat)
  | .cvt _ d a src _ _ dst => badR (src = 15) ++ minorR (dst = 15) ++ (if dst = 11 ∨ dst = 12 then pairR d else []) ++ (if src = 11 ∨ src = 12 then pairR a else [])
  | .cvtpk _ _ a fmt _ _ => if 13 ≤ fmt.toNat then [0x0E] else groupR (packCount fmt.toNat) a
  | .cvtup _ d _ fmt => if 13 ≤ fmt.toNat then [0x0E] else groupR (packCount fmt.toNat) d
  | .ld _ d a size sp _ => badR (size = 7) ++ dataR size d ++ (if sp = 0 then pairR a else [])
  | .st _ d a size sp _ => badR (size = 1 ∨ size = 3 ∨ size = 7 ∨ sp = 3) ++ dataR size d ++ (if sp = 0 then pairR a else [])
  | .ldx _ d a size sp _ => badR (size = 3) ++ kdataR size d ++ (if sp = 0 then pairR a else [])
  | .stx _ d a size sp _ => badR (size = 3 ∨ sp = 3) ++ kdataR size d ++ (if sp = 0 then pairR a else [])
  | .ldro _ d a size sp _ => badR (size = 7 ∨ sp ≠ 0) ++ dataR size d ++ (if sp = 0 then pairR a else [])
  | .fence _ scope kind => badR (5 ≤ scope.toNat ∨ kind = 3)
  | .wait _ ctr _ => badR (ctr = 0 ∨ ctr = 7)
  | .pf _ lvl a _ => badR (2 ≤ lvl.toNat) ++ pairR a
  | .cmaintDropL1 _ => []
  | .cmaintCleanL2 _ a _ => pairR a
  | .cmaintFlushL2 _ a _ => pairR a
  | .cmaintDropL2 _ a _ => pairR a
  | .ldp _ _ kq _ pd => quadR kq ++ pdR pd
  | .ldpr _ _ kq _ pd => quadR kq ++ pdR pd
  | .stp _ _ kq => quadR kq
  | .qunp _ _ _ _ ty => badR (4 ≤ ty.toNat)
  | .qpk _ _ _ n _ ty => badR (n = 0 ∨ ty = 3)
  | .qtagGet _ _ _ => []
  | .qtagSet _ _ _ => []
  | .shfl _ _ _ _ => []
  | .shfld _ _ _ _ => []
  | .shflx _ _ _ b => badR (32 ≤ b.toNat)
  | .pcons _ d a b => (if d = 7 then [6] else rangeR (8 ≤ d.toNat)) ++ rangeR (8 ≤ a.toNat) ++ badR (4 ≤ b.toNat)
  | .lmask _ _ a => rangeR (8 ≤ a.toNat)
  | .red _ _ _ op => badR (11 ≤ op.toNat)
  | .scan _ _ _ _ op => badR (11 ≤ op.toNat)
  | .matchEq _ _ _ => []
  | .conflict _ _ _ => []
  | .hist _ _ _ => []
  | .jinit _ a j => rangeR (8 ≤ j.toNat) ++ pairR a
  | .jsign _ _ j => rangeR (8 ≤ j.toNat)
  | .jwait _ _ j => rangeR (8 ≤ j.toNat)
  | .jleave _ j => rangeR (8 ≤ j.toNat)
  | .gsplit g _ a _ => rangeR (8 ≤ a.toNat) ++ badR (g ≠ 7)
  | .gjoin g _ => badR (g ≠ 7)
  | .bru _ _ => []
  | .jmp _ _ => []
  | .call _ _ => []
  | .ret _ d => pairR d
  | .jmpi _ d _ => pairR d
  | .exit _ => []
  | .brk _ _ => []
  | .trap _ _ => []
  | .yield _ => []
  | .maddm _ _ _ _ _ => []
  | .msubm _ _ _ _ _ => []
  | .mnegm _ _ _ _ => []
  | .mmulm _ _ _ _ _ => []
  | .mmacm _ _ _ _ _ => []
  | .mredm _ _ _ _ => []
  | .bflyct _ d a _ _ => badR (d = a)
  | .bflygs _ d a _ _ => badR (d = a)
  | .nperm _ d a sh mode => (if mode = 1 then quadR d else pairR d) ++ pairR a ++ badR (5 ≤ sh.toNat)
  | .nrev _ d a k => pairR d ++ pairR a ++ badR (k = 0 ∨ 6 ≤ k.toNat)
  | .nauto _ _ _ _ => []
  | .modset _ a b _ auto => pairR a ++ (if auto = 1 then resR (b ≠ 0) else pairR b)
  | .spbegin _ _ kr => pairR kr
  | .spst _ d a size => badR (size = 0 ∨ size = 1 ∨ size = 3 ∨ size = 7) ++ dataR size d ++ pairR a
  | .spld _ d a size => badR (size = 7) ++ dataR size d ++ pairR a
  | .spalloc _ _ _ => []
  | .spstate _ ks _ => pairR ks
  | .spcommit _ _ _ => []
  | .spabort _ _ => []
  | .spquery _ _ _ => []
  | .treemask _ _ _ => []
  | .sysr _ d num => sysR num d
  | .sysw _ a num => sysR num a ++ badR (sysReadOnly num.toNat)
  | .trapret _ => []
  | .tlbinv _ every _ ka kn => if every = 1 then resR (ka ≠ 0 ∨ kn ≠ 0) else pairR ka
  | .cwb _ _ => []
  | .bankmode _ _ _ => []
  | .launch _ _ kt kp => pairR kt ++ pairR kp
  | .fqrpReplay _ _ => []
  | .fqrpSkip _ _ => []
  | .fqrpPeek _ d => pairR d
  | .halt _ _ => []
  | .mma _ _ fa fb _ ra rb sa sb gm _ j => mxR fa fb ra rb sa sb gm ++ badR (fmtScaled fa.toNat ∨ fmtScaled fb.toNat) ++ joinR j
  | .mmas _ _ fa fb _ ra rb sa sb gm _ _ j => mxR fa fb ra rb sa sb gm ++ badR (¬ (fmtScaled fa.toNat ∨ fmtScaled fb.toNat)) ++ joinR j
  | .mconv _ _ fa fb _ kr rb sb gm _ ko j => convR fa fb rb sb gm ++ pairR kr ++ pairR ko ++ joinR j
  | .mtrn _ _ _ _ _ j => joinR j
  | .mperm _ _ _ _ _ _ _ j => joinR j
  | .mred _ _ _ _ _ _ j => joinR j
  | .accz _ _ j => joinR j
  | .accld _ _ fmt sp kx pitch j => badR (fmt = 3 ∨ sp = 3 ∨ pitch.toNat % accEsize fmt.toNat ≠ 0 ∨ pitch.toNat < 64 * accEsize fmt.toNat) ++ (if sp = 0 then pairR kx else []) ++ joinR j
  | .accst _ _ fmt _ sp kx pitch j => badR (fmt = 3 ∨ sp = 3 ∨ pitch.toNat % accEsize fmt.toNat ≠ 0 ∨ pitch.toNat < 64 * accEsize fmt.toNat) ++ (if sp = 0 then pairR kx else []) ++ joinR j
  | .accrd _ _ v n _ => groupR (2 ^ n.toNat) v
  | .accwr _ _ v n _ => groupR (2 ^ n.toNat) v
  | .atom _ d a sp b op w scope _ noret off => (if noret = 1 then resR (d ≠ 0) else if w = 1 then pairR d else []) ++ (if w = 1 then pairR b else []) ++ (if sp = 0 then pairR a else []) ++ badR (sp = 3 ∨ 14 ≤ op.toNat ∨ (w = 1 ∧ 9 ≤ op.toNat) ∨ 5 ≤ scope.toNat ∨ (off.toNat % (if w = 1 then 8 else 4) ≠ 0))
  | .cas _ d a sp b c w scope _ off => (if w = 1 then pairR d ++ pairR b ++ pairR c else []) ++ (if sp = 0 then pairR a else []) ++ badR (sp = 3 ∨ 5 ≤ scope.toNat ∨ (off.toNat % (if w = 1 then 8 else 4) ≠ 0))
  | .cpy _ dst src dsp ssp j _ => (if dsp = 0 then pairR dst else []) ++ (if ssp = 0 then pairR src else []) ++ badR (dsp = 3 ∨ ssp = 3) ++ joinR j
  | .cpyt _ kr kc kt dir sp ring j => pairR kr ++ quadR kc ++ (if ring = 1 then pairR kt else []) ++ badR (ring = 1 ∧ (dir = 1 ∨ sp = 1)) ++ joinR j
  | .cpyp _ kq kt lo hi sp ring j _ => quadR kq ++ (if ring = 1 then pairR kt else []) ++ badR (hi < lo ∨ 16 < hi.toNat ∨ (ring = 1 ∧ sp = 1)) ++ joinR j
  | .cpyx _ _ kb _ _ _ j _ => pairR kb ++ joinR j
  | .cpyf _ vd _ kr _ j _ => pairR vd ++ pairR kr ++ joinR j
  | .ringinit _ _ _ size => badR (size = 0)
  | .rawait _ _ _ n => badR (18 ≤ n.toNat)
  | .rrel _ _ _ => []
  | .arbitration _ => []
  | .producerComplete _ => []
  | .storeAcknowledged _ => []
  | .pageWalkComplete _ _ => []
  | .homeSliceAccess _ => []
  | .commandComplete _ _ => []
  | .matrixCommandComplete _ _ => []
  | .ringCommandStart _ _ => []
  | .asyncCopyFault _ _ => []
  | .elementParked _ _ => []
  | .deferredFaultDelivery _ _ _ => []
  | .slotRelease _ _ => []
  | .windowOpen _ _ _ => []
  | .spcommitExecute _ _ => []
  | .spabortExecute _ _ => []
  | .queueEnable _ _ => []
  | .queueDisable _ _ => []
  | .queuePriorityWeight _ _ => []
  | .qtail _ _ => []
  | .qstatClearStopped _ => []
  | .recordTake _ => []
  | .landingEntry _ => []
  | .chainPlacement => []
  | .blockSave _ => []
  | .launchComplete _ => []
  | .childTemplateRead _ => []
  | .dqerrClear _ => []
  | .kernelNodeRun _ _ => []
  | .copyNode _ _ => []
  | .conditionNode _ _ => []
  | .loopNode _ _ => []
  | .contextEnable _ _ => []
  | .contextFreezeRequest _ => []
  | .contextEvict _ => []
  | .contextThaw _ => []
  | .contextTeardown _ => []
  | .teardownEnd _ => []
  | .hostBar2Read _ _ => []
  | .hostBar2Write _ _ => []
  | .hostAtomicop _ _ _ _ _ => []
  | .peerRequest _ => []
  | .portStateChange _ _ => []
  | .peerResend _ _ => []
  | .forwarderRowSend _ => []
  | .fwderrClear _ => []
  | .cbreq _ _ => []
  | .bankModeChange _ => []
  | .cbhealth _ _ => []
  | .selogClear _ => []
  | .transferRetry _ _ => []
  | .pseudoChannelHold _ _ => []
  | .hrelRelease _ _ => []
  | .hrelFail _ _ => []
  | .hswap _ _ _ => []
  | .hlogClearArray _ => []
  | .hlogClearTransfer _ => []
  | .powerOnReset => []
  | .resetreq _ => []
  | .flashPageWrite _ _ _ => []
  | .clockStep => []
  | .thermtrip _ => []
  | .getVersion _ => []
  | .getCapabilities _ => []
  | .negotiateAlgorithms _ _ _ => []
  | .getDigests _ => []
  | .getCertificate _ _ _ _ => []
  | .challenge _ _ _ => []
  | .getMeasurements _ _ _ => []
  | .unsupportedrequest _ _ => []
  | .registerWrite _ _ => []
  | .arithmeticClockCycle => []
  | .hostInvalidation _ _ _ _ => []
  | .cxlMemAccess _ _ _ => []
  | .linkTraining _ _ _ => []
  | .powerOff => []

/-- Whether a step of the device names a core, cluster, stack, port or lane that exists (R9, R33, R363, R380), and
whether a write of QCTL or CTXCTL is the write its row describes (R306, R340). A word has none of these. -/
def stepNamesExist : Instr → Bool
  | .add _ _ _ _ => true
  | .sub _ _ _ _ => true
  | .mul _ _ _ _ => true
  | .mulh _ _ _ _ => true
  | .mad _ _ _ _ => true
  | .min _ _ _ _ => true
  | .max _ _ _ _ => true
  | .abs _ _ _ => true
  | .neg _ _ _ => true
  | .div _ _ _ _ => true
  | .rem _ _ _ _ => true
  | .lea _ _ _ _ => true
  | .sel _ _ _ _ => true
  | .mov _ _ _ => true
  | .addK _ _ _ _ => true
  | .subK _ _ _ _ => true
  | .mulK _ _ _ _ => true
  | .mulhK _ _ _ _ => true
  | .madK _ _ _ _ => true
  | .minK _ _ _ _ => true
  | .maxK _ _ _ _ => true
  | .absK _ _ _ => true
  | .negK _ _ _ => true
  | .divK _ _ _ _ => true
  | .remK _ _ _ _ => true
  | .leaK _ _ _ _ => true
  | .selK _ _ _ _ => true
  | .movK _ _ _ => true
  | .and _ _ _ _ => true
  | .or _ _ _ _ => true
  | .xor _ _ _ _ => true
  | .andn _ _ _ _ => true
  | .shl _ _ _ _ => true
  | .shr _ _ _ _ => true
  | .sra _ _ _ _ => true
  | .rot _ _ _ _ => true
  | .bfe _ _ _ _ => true
  | .bfi _ _ _ _ => true
  | .popc _ _ _ => true
  | .clz _ _ _ => true
  | .brev _ _ _ => true
  | .andK _ _ _ _ => true
  | .orK _ _ _ _ => true
  | .xorK _ _ _ _ => true
  | .andnK _ _ _ _ => true
  | .shlK _ _ _ _ => true
  | .shrK _ _ _ _ => true
  | .sraK _ _ _ _ => true
  | .rotK _ _ _ _ => true
  | .bfeK _ _ _ _ => true
  | .bfiK _ _ _ _ => true
  | .popcK _ _ _ => true
  | .clzK _ _ _ => true
  | .brevK _ _ _ => true
  | .add64 _ _ _ _ => true
  | .sub64 _ _ _ _ => true
  | .mul64 _ _ _ _ => true
  | .mulh64 _ _ _ _ => true
  | .min64 _ _ _ _ => true
  | .max64 _ _ _ _ => true
  | .shl64 _ _ _ _ => true
  | .shr64 _ _ _ _ => true
  | .sra64 _ _ _ _ => true
  | .addImm _ _ _ _ => true
  | .andImm _ _ _ _ => true
  | .orImm _ _ _ _ => true
  | .xorImm _ _ _ _ => true
  | .shlImm _ _ _ _ _ => true
  | .shrImm _ _ _ _ _ => true
  | .sraImm _ _ _ _ _ => true
  | .rotImm _ _ _ _ _ => true
  | .movi _ _ _ => true
  | .movh _ _ _ => true
  | .cmp _ _ _ _ _ _ _ => true
  | .cmpImm _ _ _ _ _ => true
  | .plop _ _ _ _ _ _ _ => true
  | .pmovv _ _ => true
  | .vpmov _ _ _ => true
  | .kmov _ _ _ => true
  | .kmovImm _ _ _ => true
  | .klane _ _ _ _ => true
  | .fadd _ _ _ _ => true
  | .fsub _ _ _ _ => true
  | .fmul _ _ _ _ => true
  | .ffma _ _ _ _ => true
  | .fmin _ _ _ _ => true
  | .fmax _ _ _ _ => true
  | .fabs _ _ _ => true
  | .fneg _ _ _ => true
  | .faddK _ _ _ _ => true
  | .fsubK _ _ _ _ => true
  | .fmulK _ _ _ _ => true
  | .ffmaK _ _ _ _ => true
  | .fminK _ _ _ _ => true
  | .fmaxK _ _ _ _ => true
  | .fabsK _ _ _ => true
  | .fnegK _ _ _ => true
  | .faddF16x2 _ _ _ _ => true
  | .fsubF16x2 _ _ _ _ => true
  | .fmulF16x2 _ _ _ _ => true
  | .ffmaF16x2 _ _ _ _ => true
  | .fminF16x2 _ _ _ _ => true
  | .fmaxF16x2 _ _ _ _ => true
  | .fabsF16x2 _ _ _ => true
  | .fnegF16x2 _ _ _ => true
  | .faddBf16x2 _ _ _ _ => true
  | .fsubBf16x2 _ _ _ _ => true
  | .fmulBf16x2 _ _ _ _ => true
  | .ffmaBf16x2 _ _ _ _ => true
  | .fminBf16x2 _ _ _ _ => true
  | .fmaxBf16x2 _ _ _ _ => true
  | .fabsBf16x2 _ _ _ => true
  | .fnegBf16x2 _ _ _ => true
  | .frcp _ _ _ => true
  | .frsq _ _ _ => true
  | .fsqrt _ _ _ => true
  | .fex2 _ _ _ => true
  | .flg2 _ _ _ => true
  | .fsin _ _ _ => true
  | .fcos _ _ _ => true
  | .ftanh _ _ _ => true
  | .fcls _ _ _ => true
  | .fcmp _ _ _ _ _ _ => true
  | .cvt _ _ _ _ _ _ _ => true
  | .cvtpk _ _ _ _ _ _ => true
  | .cvtup _ _ _ _ => true
  | .ld _ _ _ _ _ _ => true
  | .st _ _ _ _ _ _ => true
  | .ldx _ _ _ _ _ _ => true
  | .stx _ _ _ _ _ _ => true
  | .ldro _ _ _ _ _ _ => true
  | .fence _ _ _ => true
  | .wait _ _ _ => true
  | .pf _ _ _ _ => true
  | .cmaintDropL1 _ => true
  | .cmaintCleanL2 _ _ _ => true
  | .cmaintFlushL2 _ _ _ => true
  | .cmaintDropL2 _ _ _ => true
  | .ldp _ _ _ _ _ => true
  | .ldpr _ _ _ _ _ => true
  | .stp _ _ _ => true
  | .qunp _ _ _ _ _ => true
  | .qpk _ _ _ _ _ _ => true
  | .qtagGet _ _ _ => true
  | .qtagSet _ _ _ => true
  | .shfl _ _ _ _ => true
  | .shfld _ _ _ _ => true
  | .shflx _ _ _ _ => true
  | .pcons _ _ _ _ => true
  | .lmask _ _ _ => true
  | .red _ _ _ _ => true
  | .scan _ _ _ _ _ => true
  | .matchEq _ _ _ => true
  | .conflict _ _ _ => true
  | .hist _ _ _ => true
  | .jinit _ _ _ => true
  | .jsign _ _ _ => true
  | .jwait _ _ _ => true
  | .jleave _ _ => true
  | .gsplit _ _ _ _ => true
  | .gjoin _ _ => true
  | .bru _ _ => true
  | .jmp _ _ => true
  | .call _ _ => true
  | .ret _ _ => true
  | .jmpi _ _ _ => true
  | .exit _ => true
  | .brk _ _ => true
  | .trap _ _ => true
  | .yield _ => true
  | .maddm _ _ _ _ _ => true
  | .msubm _ _ _ _ _ => true
  | .mnegm _ _ _ _ => true
  | .mmulm _ _ _ _ _ => true
  | .mmacm _ _ _ _ _ => true
  | .mredm _ _ _ _ => true
  | .bflyct _ _ _ _ _ => true
  | .bflygs _ _ _ _ _ => true
  | .nperm _ _ _ _ _ => true
  | .nrev _ _ _ _ => true
  | .nauto _ _ _ _ => true
  | .modset _ _ _ _ _ => true
  | .spbegin _ _ _ => true
  | .spst _ _ _ _ => true
  | .spld _ _ _ _ => true
  | .spalloc _ _ _ => true
  | .spstate _ _ _ => true
  | .spcommit _ _ _ => true
  | .spabort _ _ => true
  | .spquery _ _ _ => true
  | .treemask _ _ _ => true
  | .sysr _ _ _ => true
  | .sysw _ _ _ => true
  | .trapret _ => true
  | .tlbinv _ _ _ _ _ => true
  | .cwb _ _ => true
  | .bankmode _ _ _ => true
  | .launch _ _ _ _ => true
  | .fqrpReplay _ _ => true
  | .fqrpSkip _ _ => true
  | .fqrpPeek _ _ => true
  | .halt _ _ => true
  | .mma _ _ _ _ _ _ _ _ _ _ _ _ => true
  | .mmas _ _ _ _ _ _ _ _ _ _ _ _ _ => true
  | .mconv _ _ _ _ _ _ _ _ _ _ _ _ => true
  | .mtrn _ _ _ _ _ _ => true
  | .mperm _ _ _ _ _ _ _ _ => true
  | .mred _ _ _ _ _ _ _ => true
  | .accz _ _ _ => true
  | .accld _ _ _ _ _ _ _ => true
  | .accst _ _ _ _ _ _ _ _ => true
  | .accrd _ _ _ _ _ => true
  | .accwr _ _ _ _ _ => true
  | .atom _ _ _ _ _ _ _ _ _ _ _ => true
  | .cas _ _ _ _ _ _ _ _ _ _ => true
  | .cpy _ _ _ _ _ _ _ => true
  | .cpyt _ _ _ _ _ _ _ _ => true
  | .cpyp _ _ _ _ _ _ _ _ _ => true
  | .cpyx _ _ _ _ _ _ _ _ => true
  | .cpyf _ _ _ _ _ _ _ => true
  | .ringinit _ _ _ _ => true
  | .rawait _ _ _ _ => true
  | .rrel _ _ _ => true
  | .arbitration core => core < 320
  | .producerComplete _ => true
  | .storeAcknowledged _ => true
  | .pageWalkComplete _ _ => true
  | .homeSliceAccess _ => true
  | .commandComplete core entry => core < 320 && entry < 48
  | .matrixCommandComplete core _ => core < 320
  | .ringCommandStart core entry => core < 320 && entry < 48
  | .asyncCopyFault core entry => core < 320 && entry < 48
  | .elementParked core entry => core < 320 && entry < 48
  | .deferredFaultDelivery _ _ lane => lane < 32
  | .slotRelease _ _ => true
  | .windowOpen _ _ lane => lane < 32
  | .spcommitExecute core entry => core < 320 && entry < 48
  | .spabortExecute core entry => core < 320 && entry < 48
  | .queueEnable _ value => value.getLsbD 31
  | .queueDisable _ value => !value.getLsbD 31
  | .queuePriorityWeight _ _ => true
  | .qtail _ _ => true
  | .qstatClearStopped _ => true
  | .recordTake _ => true
  | .landingEntry _ => true
  | .chainPlacement => true
  | .blockSave _ => true
  | .launchComplete _ => true
  | .childTemplateRead _ => true
  | .dqerrClear _ => true
  | .kernelNodeRun _ _ => true
  | .copyNode _ _ => true
  | .conditionNode _ _ => true
  | .loopNode _ _ => true
  | .contextEnable _ value => value.getLsbD 31
  | .contextFreezeRequest _ => true
  | .contextEvict _ => true
  | .contextThaw _ => true
  | .contextTeardown _ => true
  | .teardownEnd _ => true
  | .hostBar2Read _ _ => true
  | .hostBar2Write _ _ => true
  | .hostAtomicop _ _ _ _ _ => true
  | .peerRequest _ => true
  | .portStateChange port _ => port.toNat < 18
  | .peerResend _ _ => true
  | .forwarderRowSend _ => true
  | .fwderrClear _ => true
  | .cbreq cluster _ => cluster < 40
  | .bankModeChange cluster => cluster < 40
  | .cbhealth cluster _ => cluster < 40
  | .selogClear cluster => cluster < 40
  | .transferRetry stack pc => stack < 6 && pc < 160
  | .pseudoChannelHold stack pc => stack < 6 && pc < 160
  | .hrelRelease stack pc => stack < 6 && pc < 160
  | .hrelFail stack pc => stack < 6 && pc < 160
  | .hswap stack pc _ => stack < 6 && pc < 160
  | .hlogClearArray stack => stack < 6
  | .hlogClearTransfer stack => stack < 6
  | .powerOnReset => true
  | .resetreq _ => true
  | .flashPageWrite _ _ _ => true
  | .clockStep => true
  | .thermtrip _ => true
  | .getVersion _ => true
  | .getCapabilities _ => true
  | .negotiateAlgorithms _ _ _ => true
  | .getDigests _ => true
  | .getCertificate _ _ _ _ => true
  | .challenge _ _ _ => true
  | .getMeasurements _ _ _ => true
  | .unsupportedrequest _ _ => true
  | .registerWrite _ _ => true
  | .arithmeticClockCycle => true
  | .hostInvalidation _ _ _ _ => true
  | .cxlMemAccess _ _ _ => true
  | .linkTraining _ _ _ => true
  | .powerOff => true

end Sys2Proof.Machine
end

