-- ==== Sys2Proof/WellFormed.lean ====
section
/-! DEFINITION. A well-formed instruction: no reason code of spec/03 Table 3.3 applies to its fields, and, for a step
of the device, the units it names exist. -/

namespace Sys2Proof

/-- No reason code applies to the instruction's fields (R79), and what a step names exists. -/
abbrev Instr.WellFormed (i : Instr) : Prop := Machine.legality i = [] ∧ Machine.stepNamesExist i = true

end Sys2Proof
end

