-- ==== Sys2Proof/Decode.lean ====
section
/-! DEFINITION. The decoder and the encoder of instruction words (spec/03 R77, R84, R85, Tables 3.2, 3.5, 3.6, and the
field maps of spec/04 to spec/07). `decode` is total on any bytes and rejects by reason code. -/

namespace Sys2Proof

/-- Why bytes hold no legal instruction: too few bytes for a word, or the lowest reason code of Table 3.3 that applies,
with the instruction's width in words (R79, R83, R85). -/
inductive Reject where
  | short
  | illegal (reason words : Nat)
  deriving DecidableEq, Repr

/-- The major opcode of a word, bits 31 to 26 (R77). -/
abbrev majorOf (w : Word) : Nat := (w.extractLsb' 26 6).toNat

/-- The minor code of a word, bits 3 to 0 (R84). -/
abbrev minorOf (w : Word) : Nat := (w.extractLsb' 0 4).toNat

/-- The extended opcode of a first word under major 0x3F, bits 21 to 14 (R85). -/
abbrev xopOf (w : Word) : Nat := (w.extractLsb' 14 8).toNat

/-- The guard of a word, bits 25 to 22 (R77). -/
abbrev guardOf (w : Word) : BitVec 4 := w.extractLsb' 22 4

/-- Members of major 0x00 (Table 3.5). -/
def decodeMajor00 (w : Word) : Option Instr :=
  match minorOf w with
  | 0 => some (.add (w.extractLsb' 22 4) (w.extractLsb' 16 6) (w.extractLsb' 10 6) (w.extractLsb' 4 6))
  | 1 => some (.sub (w.extractLsb' 22 4) (w.extractLsb' 16 6) (w.extractLsb' 10 6) (w.extractLsb' 4 6))
  | 2 => some (.mul (w.extractLsb' 22 4) (w.extractLsb' 16 6) (w.extractLsb' 10 6) (w.extractLsb' 4 6))
  | 3 => some (.mulh (w.extractLsb' 22 4) (w.extractLsb' 16 6) (w.extractLsb' 10 6) (w.extractLsb' 4 6))
  | 4 => some (.mad (w.extractLsb' 22 4) (w.extractLsb' 16 6) (w.extractLsb' 10 6) (w.extractLsb' 4 6))
  | 5 => some (.min (w.extractLsb' 22 4) (w.extractLsb' 16 6) (w.extractLsb' 10 6) (w.extractLsb' 4 6))
  | 6 => some (.max (w.extractLsb' 22 4) (w.extractLsb' 16 6) (w.extractLsb' 10 6) (w.extractLsb' 4 6))
  | 7 => some (.abs (w.extractLsb' 22 4) (w.extractLsb' 16 6) (w.extractLsb' 4 6))
  | 8 => some (.neg (w.extractLsb' 22 4) (w.extractLsb' 16 6) (w.extractLsb' 4 6))
  | 9 => some (.div (w.extractLsb' 22 4) (w.extractLsb' 16 6) (w.extractLsb' 10 6) (w.extractLsb' 4 6))
  | 10 => some (.rem (w.extractLsb' 22 4) (w.extractLsb' 16 6) (w.extractLsb' 10 6) (w.extractLsb' 4 6))
  | 11 => some (.lea (w.extractLsb' 22 4) (w.extractLsb' 16 6) (w.extractLsb' 10 6) (w.extractLsb' 4 6))
  | 12 => some (.sel (w.extractLsb' 22 4) (w.extractLsb' 16 6) (w.extractLsb' 10 6) (w.extractLsb' 4 6))
  | 13 => some (.mov (w.extractLsb' 22 4) (w.extractLsb' 16 6) (w.extractLsb' 4 6))
  | _ => none

/-- Members of major 0x01 (Table 3.5). -/
def decodeMajor01 (w : Word) : Option Instr :=
  match minorOf w with
  | 0 => some (.addK (w.extractLsb' 22 4) (w.extractLsb' 16 6) (w.extractLsb' 10 6) (w.extractLsb' 4 6))
  | 1 => some (.subK (w.extractLsb' 22 4) (w.extractLsb' 16 6) (w.extractLsb' 10 6) (w.extractLsb' 4 6))
  | 2 => some (.mulK (w.extractLsb' 22 4) (w.extractLsb' 16 6) (w.extractLsb' 10 6) (w.extractLsb' 4 6))
  | 3 => some (.mulhK (w.extractLsb' 22 4) (w.extractLsb' 16 6) (w.extractLsb' 10 6) (w.extractLsb' 4 6))
  | 4 => some (.madK (w.extractLsb' 22 4) (w.extractLsb' 16 6) (w.extractLsb' 10 6) (w.extractLsb' 4 6))
  | 5 => some (.minK (w.extractLsb' 22 4) (w.extractLsb' 16 6) (w.extractLsb' 10 6) (w.extractLsb' 4 6))
  | 6 => some (.maxK (w.extractLsb' 22 4) (w.extractLsb' 16 6) (w.extractLsb' 10 6) (w.extractLsb' 4 6))
  | 7 => some (.absK (w.extractLsb' 22 4) (w.extractLsb' 16 6) (w.extractLsb' 4 6))
  | 8 => some (.negK (w.extractLsb' 22 4) (w.extractLsb' 16 6) (w.extractLsb' 4 6))
  | 9 => some (.divK (w.extractLsb' 22 4) (w.extractLsb' 16 6) (w.extractLsb' 10 6) (w.extractLsb' 4 6))
  | 10 => some (.remK (w.extractLsb' 22 4) (w.extractLsb' 16 6) (w.extractLsb' 10 6) (w.extractLsb' 4 6))
  | 11 => some (.leaK (w.extractLsb' 22 4) (w.extractLsb' 16 6) (w.extractLsb' 10 6) (w.extractLsb' 4 6))
  | 12 => some (.selK (w.extractLsb' 22 4) (w.extractLsb' 16 6) (w.extractLsb' 10 6) (w.extractLsb' 4 6))
  | 13 => some (.movK (w.extractLsb' 22 4) (w.extractLsb' 16 6) (w.extractLsb' 4 6))
  | _ => none

/-- Members of major 0x02 (Table 3.5). -/
def decodeMajor02 (w : Word) : Option Instr :=
  match minorOf w with
  | 0 => some (.and (w.extractLsb' 22 4) (w.extractLsb' 16 6) (w.extractLsb' 10 6) (w.extractLsb' 4 6))
  | 1 => some (.or (w.extractLsb' 22 4) (w.extractLsb' 16 6) (w.extractLsb' 10 6) (w.extractLsb' 4 6))
  | 2 => some (.xor (w.extractLsb' 22 4) (w.extractLsb' 16 6) (w.extractLsb' 10 6) (w.extractLsb' 4 6))
  | 3 => some (.andn (w.extractLsb' 22 4) (w.extractLsb' 16 6) (w.extractLsb' 10 6) (w.extractLsb' 4 6))
  | 4 => some (.shl (w.extractLsb' 22 4) (w.extractLsb' 16 6) (w.extractLsb' 10 6) (w.extractLsb' 4 6))
  | 5 => some (.shr (w.extractLsb' 22 4) (w.extractLsb' 16 6) (w.extractLsb' 10 6) (w.extractLsb' 4 6))
  | 6 => some (.sra (w.extractLsb' 22 4) (w.extractLsb' 16 6) (w.extractLsb' 10 6) (w.extractLsb' 4 6))
  | 7 => some (.rot (w.extractLsb' 22 4) (w.extractLsb' 16 6) (w.extractLsb' 10 6) (w.extractLsb' 4 6))
  | 8 => some (.bfe (w.extractLsb' 22 4) (w.extractLsb' 16 6) (w.extractLsb' 10 6) (w.extractLsb' 4 6))
  | 9 => some (.bfi (w.extractLsb' 22 4) (w.extractLsb' 16 6) (w.extractLsb' 10 6) (w.extractLsb' 4 6))
  | 10 => some (.popc (w.extractLsb' 22 4) (w.extractLsb' 16 6) (w.extractLsb' 4 6))
  | 11 => some (.clz (w.extractLsb' 22 4) (w.extractLsb' 16 6) (w.extractLsb' 4 6))
  | 12 => some (.brev (w.extractLsb' 22 4) (w.extractLsb' 16 6) (w.extractLsb' 4 6))
  | _ => none

/-- Members of major 0x03 (Table 3.5). -/
def decodeMajor03 (w : Word) : Option Instr :=
  match minorOf w with
  | 0 => some (.andK (w.extractLsb' 22 4) (w.extractLsb' 16 6) (w.extractLsb' 10 6) (w.extractLsb' 4 6))
  | 1 => some (.orK (w.extractLsb' 22 4) (w.extractLsb' 16 6) (w.extractLsb' 10 6) (w.extractLsb' 4 6))
  | 2 => some (.xorK (w.extractLsb' 22 4) (w.extractLsb' 16 6) (w.extractLsb' 10 6) (w.extractLsb' 4 6))
  | 3 => some (.andnK (w.extractLsb' 22 4) (w.extractLsb' 16 6) (w.extractLsb' 10 6) (w.extractLsb' 4 6))
  | 4 => some (.shlK (w.extractLsb' 22 4) (w.extractLsb' 16 6) (w.extractLsb' 10 6) (w.extractLsb' 4 6))
  | 5 => some (.shrK (w.extractLsb' 22 4) (w.extractLsb' 16 6) (w.extractLsb' 10 6) (w.extractLsb' 4 6))
  | 6 => some (.sraK (w.extractLsb' 22 4) (w.extractLsb' 16 6) (w.extractLsb' 10 6) (w.extractLsb' 4 6))
  | 7 => some (.rotK (w.extractLsb' 22 4) (w.extractLsb' 16 6) (w.extractLsb' 10 6) (w.extractLsb' 4 6))
  | 8 => some (.bfeK (w.extractLsb' 22 4) (w.extractLsb' 16 6) (w.extractLsb' 10 6) (w.extractLsb' 4 6))
  | 9 => some (.bfiK (w.extractLsb' 22 4) (w.extractLsb' 16 6) (w.extractLsb' 10 6) (w.extractLsb' 4 6))
  | 10 => some (.popcK (w.extractLsb' 22 4) (w.extractLsb' 16 6) (w.extractLsb' 4 6))
  | 11 => some (.clzK (w.extractLsb' 22 4) (w.extractLsb' 16 6) (w.extractLsb' 4 6))
  | 12 => some (.brevK (w.extractLsb' 22 4) (w.extractLsb' 16 6) (w.extractLsb' 4 6))
  | _ => none

/-- Members of major 0x04 (Table 3.5). -/
def decodeMajor04 (w : Word) : Option Instr :=
  match minorOf w with
  | 0 => some (.add64 (w.extractLsb' 22 4) (w.extractLsb' 16 6) (w.extractLsb' 10 6) (w.extractLsb' 4 6))
  | 1 => some (.sub64 (w.extractLsb' 22 4) (w.extractLsb' 16 6) (w.extractLsb' 10 6) (w.extractLsb' 4 6))
  | 2 => some (.mul64 (w.extractLsb' 22 4) (w.extractLsb' 16 6) (w.extractLsb' 10 6) (w.extractLsb' 4 6))
  | 3 => some (.mulh64 (w.extractLsb' 22 4) (w.extractLsb' 16 6) (w.extractLsb' 10 6) (w.extractLsb' 4 6))
  | 4 => some (.min64 (w.extractLsb' 22 4) (w.extractLsb' 16 6) (w.extractLsb' 10 6) (w.extractLsb' 4 6))
  | 5 => some (.max64 (w.extractLsb' 22 4) (w.extractLsb' 16 6) (w.extractLsb' 10 6) (w.extractLsb' 4 6))
  | 6 => some (.shl64 (w.extractLsb' 22 4) (w.extractLsb' 16 6) (w.extractLsb' 10 6) (w.extractLsb' 4 6))
  | 7 => some (.shr64 (w.extractLsb' 22 4) (w.extractLsb' 16 6) (w.extractLsb' 10 6) (w.extractLsb' 4 6))
  | 8 => some (.sra64 (w.extractLsb' 22 4) (w.extractLsb' 16 6) (w.extractLsb' 10 6) (w.extractLsb' 4 6))
  | _ => none

/-- Members of major 0x09 (Table 3.5). -/
def decodeMajor09 (w : Word) : Option Instr :=
  match (w.extractLsb' 8 2).toNat with
  | 0 => some (.shlImm (w.extractLsb' 22 4) (w.extractLsb' 16 6) (w.extractLsb' 10 6) (w.extractLsb' 6 1) (w.extractLsb' 0 6))
  | 1 => some (.shrImm (w.extractLsb' 22 4) (w.extractLsb' 16 6) (w.extractLsb' 10 6) (w.extractLsb' 6 1) (w.extractLsb' 0 6))
  | 2 => some (.sraImm (w.extractLsb' 22 4) (w.extractLsb' 16 6) (w.extractLsb' 10 6) (w.extractLsb' 6 1) (w.extractLsb' 0 6))
  | _ => some (.rotImm (w.extractLsb' 22 4) (w.extractLsb' 16 6) (w.extractLsb' 10 6) (w.extractLsb' 6 1) (w.extractLsb' 0 6))

/-- Members of major 0x0E (Table 3.5). -/
def decodeMajor0E (w : Word) : Option Instr :=
  match minorOf w with
  | 0 => some (.plop (w.extractLsb' 22 4) (w.extractLsb' 19 3) (w.extractLsb' 16 3) (w.extractLsb' 13 3) (w.extractLsb' 12 1) (w.extractLsb' 11 1) (w.extractLsb' 9 2))
  | 1 => some (.pmovv (w.extractLsb' 22 4) (w.extractLsb' 16 6))
  | 2 => some (.vpmov (w.extractLsb' 22 4) (w.extractLsb' 15 7) (w.extractLsb' 9 6))
  | _ => none

/-- Members of major 0x0F (Table 3.5). -/
def decodeMajor0F (w : Word) : Option Instr :=
  match minorOf w with
  | 0 => if w.getLsbD 15 then some (.kmovImm (w.extractLsb' 22 4) (w.extractLsb' 16 6) (w.extractLsb' 4 11)) else some (.kmov (w.extractLsb' 22 4) (w.extractLsb' 16 6) (w.extractLsb' 9 6))
  | 1 => some (.klane (w.extractLsb' 22 4) (w.extractLsb' 16 6) (w.extractLsb' 10 6) (w.extractLsb' 4 6))
  | _ => none

/-- Members of major 0x10 (Table 3.5). -/
def decodeMajor10 (w : Word) : Option Instr :=
  match minorOf w with
  | 0 => some (.fadd (w.extractLsb' 22 4) (w.extractLsb' 16 6) (w.extractLsb' 10 6) (w.extractLsb' 4 6))
  | 1 => some (.fsub (w.extractLsb' 22 4) (w.extractLsb' 16 6) (w.extractLsb' 10 6) (w.extractLsb' 4 6))
  | 2 => some (.fmul (w.extractLsb' 22 4) (w.extractLsb' 16 6) (w.extractLsb' 10 6) (w.extractLsb' 4 6))
  | 3 => some (.ffma (w.extractLsb' 22 4) (w.extractLsb' 16 6) (w.extractLsb' 10 6) (w.extractLsb' 4 6))
  | 4 => some (.fmin (w.extractLsb' 22 4) (w.extractLsb' 16 6) (w.extractLsb' 10 6) (w.extractLsb' 4 6))
  | 5 => some (.fmax (w.extractLsb' 22 4) (w.extractLsb' 16 6) (w.extractLsb' 10 6) (w.extractLsb' 4 6))
  | 6 => some (.fabs (w.extractLsb' 22 4) (w.extractLsb' 16 6) (w.extractLsb' 4 6))
  | 7 => some (.fneg (w.extractLsb' 22 4) (w.extractLsb' 16 6) (w.extractLsb' 4 6))
  | _ => none

/-- Members of major 0x11 (Table 3.5). -/
def decodeMajor11 (w : Word) : Option Instr :=
  match minorOf w with
  | 0 => some (.faddK (w.extractLsb' 22 4) (w.extractLsb' 16 6) (w.extractLsb' 10 6) (w.extractLsb' 4 6))
  | 1 => some (.fsubK (w.extractLsb' 22 4) (w.extractLsb' 16 6) (w.extractLsb' 10 6) (w.extractLsb' 4 6))
  | 2 => some (.fmulK (w.extractLsb' 22 4) (w.extractLsb' 16 6) (w.extractLsb' 10 6) (w.extractLsb' 4 6))
  | 3 => some (.ffmaK (w.extractLsb' 22 4) (w.extractLsb' 16 6) (w.extractLsb' 10 6) (w.extractLsb' 4 6))
  | 4 => some (.fminK (w.extractLsb' 22 4) (w.extractLsb' 16 6) (w.extractLsb' 10 6) (w.extractLsb' 4 6))
  | 5 => some (.fmaxK (w.extractLsb' 22 4) (w.extractLsb' 16 6) (w.extractLsb' 10 6) (w.extractLsb' 4 6))
  | 6 => some (.fabsK (w.extractLsb' 22 4) (w.extractLsb' 16 6) (w.extractLsb' 4 6))
  | 7 => some (.fnegK (w.extractLsb' 22 4) (w.extractLsb' 16 6) (w.extractLsb' 4 6))
  | _ => none

/-- Members of major 0x12 (Table 3.5). -/
def decodeMajor12 (w : Word) : Option Instr :=
  match minorOf w with
  | 0 => some (.faddF16x2 (w.extractLsb' 22 4) (w.extractLsb' 16 6) (w.extractLsb' 10 6) (w.extractLsb' 4 6))
  | 1 => some (.fsubF16x2 (w.extractLsb' 22 4) (w.extractLsb' 16 6) (w.extractLsb' 10 6) (w.extractLsb' 4 6))
  | 2 => some (.fmulF16x2 (w.extractLsb' 22 4) (w.extractLsb' 16 6) (w.extractLsb' 10 6) (w.extractLsb' 4 6))
  | 3 => some (.ffmaF16x2 (w.extractLsb' 22 4) (w.extractLsb' 16 6) (w.extractLsb' 10 6) (w.extractLsb' 4 6))
  | 4 => some (.fminF16x2 (w.extractLsb' 22 4) (w.extractLsb' 16 6) (w.extractLsb' 10 6) (w.extractLsb' 4 6))
  | 5 => some (.fmaxF16x2 (w.extractLsb' 22 4) (w.extractLsb' 16 6) (w.extractLsb' 10 6) (w.extractLsb' 4 6))
  | 6 => some (.fabsF16x2 (w.extractLsb' 22 4) (w.extractLsb' 16 6) (w.extractLsb' 4 6))
  | 7 => some (.fnegF16x2 (w.extractLsb' 22 4) (w.extractLsb' 16 6) (w.extractLsb' 4 6))
  | _ => none

/-- Members of major 0x13 (Table 3.5). -/
def decodeMajor13 (w : Word) : Option Instr :=
  match minorOf w with
  | 0 => some (.faddBf16x2 (w.extractLsb' 22 4) (w.extractLsb' 16 6) (w.extractLsb' 10 6) (w.extractLsb' 4 6))
  | 1 => some (.fsubBf16x2 (w.extractLsb' 22 4) (w.extractLsb' 16 6) (w.extractLsb' 10 6) (w.extractLsb' 4 6))
  | 2 => some (.fmulBf16x2 (w.extractLsb' 22 4) (w.extractLsb' 16 6) (w.extractLsb' 10 6) (w.extractLsb' 4 6))
  | 3 => some (.ffmaBf16x2 (w.extractLsb' 22 4) (w.extractLsb' 16 6) (w.extractLsb' 10 6) (w.extractLsb' 4 6))
  | 4 => some (.fminBf16x2 (w.extractLsb' 22 4) (w.extractLsb' 16 6) (w.extractLsb' 10 6) (w.extractLsb' 4 6))
  | 5 => some (.fmaxBf16x2 (w.extractLsb' 22 4) (w.extractLsb' 16 6) (w.extractLsb' 10 6) (w.extractLsb' 4 6))
  | 6 => some (.fabsBf16x2 (w.extractLsb' 22 4) (w.extractLsb' 16 6) (w.extractLsb' 4 6))
  | 7 => some (.fnegBf16x2 (w.extractLsb' 22 4) (w.extractLsb' 16 6) (w.extractLsb' 4 6))
  | _ => none

/-- Members of major 0x14 (Table 3.5). -/
def decodeMajor14 (w : Word) : Option Instr :=
  match minorOf w with
  | 0 => some (.frcp (w.extractLsb' 22 4) (w.extractLsb' 16 6) (w.extractLsb' 4 6))
  | 1 => some (.frsq (w.extractLsb' 22 4) (w.extractLsb' 16 6) (w.extractLsb' 4 6))
  | 2 => some (.fsqrt (w.extractLsb' 22 4) (w.extractLsb' 16 6) (w.extractLsb' 4 6))
  | 3 => some (.fex2 (w.extractLsb' 22 4) (w.extractLsb' 16 6) (w.extractLsb' 4 6))
  | 4 => some (.flg2 (w.extractLsb' 22 4) (w.extractLsb' 16 6) (w.extractLsb' 4 6))
  | 5 => some (.fsin (w.extractLsb' 22 4) (w.extractLsb' 16 6) (w.extractLsb' 4 6))
  | 6 => some (.fcos (w.extractLsb' 22 4) (w.extractLsb' 16 6) (w.extractLsb' 4 6))
  | 7 => some (.ftanh (w.extractLsb' 22 4) (w.extractLsb' 16 6) (w.extractLsb' 4 6))
  | 8 => some (.fcls (w.extractLsb' 22 4) (w.extractLsb' 16 6) (w.extractLsb' 4 6))
  | _ => none

/-- Members of major 0x17 (Table 3.5). -/
def decodeMajor17 (w : Word) : Option Instr :=
  match minorOf w with
  | 0 => some (.cvtpk (w.extractLsb' 22 4) (w.extractLsb' 16 6) (w.extractLsb' 10 6) (w.extractLsb' 6 4) (w.extractLsb' 5 1) (w.extractLsb' 4 1))
  | 1 => some (.cvtup (w.extractLsb' 22 4) (w.extractLsb' 16 6) (w.extractLsb' 10 6) (w.extractLsb' 6 4))
  | _ => none

/-- Members of major 0x1A (Table 3.5). -/
def decodeMajor1A (w : Word) : Option Instr :=
  if w.getLsbD 4 then some (.stx (w.extractLsb' 22 4) (w.extractLsb' 16 6) (w.extractLsb' 10 6) (w.extractLsb' 8 2) (w.extractLsb' 6 2) (w.extractLsb' 0 4)) else some (.ldx (w.extractLsb' 22 4) (w.extractLsb' 16 6) (w.extractLsb' 10 6) (w.extractLsb' 8 2) (w.extractLsb' 6 2) (w.extractLsb' 0 4))

/-- Members of major 0x1C (Table 3.5). -/
def decodeMajor1C (w : Word) : Option Instr :=
  match minorOf w with
  | 0 => some (.fence (w.extractLsb' 22 4) (w.extractLsb' 19 3) (w.extractLsb' 17 2))
  | _ => none

/-- Members of major 0x1D (Table 3.5). -/
def decodeMajor1D (w : Word) : Option Instr :=
  match minorOf w with
  | 0 => some (.wait (w.extractLsb' 22 4) (w.extractLsb' 19 3) (w.extractLsb' 13 6))
  | _ => none

/-- Members of major 0x1E (Table 3.5). -/
def decodeMajor1E (w : Word) : Option Instr :=
  match minorOf w with
  | 0 => some (.pf (w.extractLsb' 22 4) (w.extractLsb' 20 2) (w.extractLsb' 10 6) (w.extractLsb' 4 6))
  | 1 => match (w.extractLsb' 20 2).toNat with
    | 0 => some (.cmaintDropL1 (w.extractLsb' 22 4))
    | 1 => some (.cmaintCleanL2 (w.extractLsb' 22 4) (w.extractLsb' 10 6) (w.extractLsb' 4 6))
    | 2 => some (.cmaintFlushL2 (w.extractLsb' 22 4) (w.extractLsb' 10 6) (w.extractLsb' 4 6))
    | _ => some (.cmaintDropL2 (w.extractLsb' 22 4) (w.extractLsb' 10 6) (w.extractLsb' 4 6))
  | _ => none

/-- Members of major 0x1F (Table 3.5). -/
def decodeMajor1F (w : Word) : Option Instr :=
  match minorOf w with
  | 0 => some (.ldp (w.extractLsb' 22 4) (w.extractLsb' 18 4) (w.extractLsb' 12 6) (w.extractLsb' 8 4) (w.extractLsb' 5 3))
  | 1 => some (.ldpr (w.extractLsb' 22 4) (w.extractLsb' 18 4) (w.extractLsb' 12 6) (w.extractLsb' 8 4) (w.extractLsb' 5 3))
  | 2 => some (.stp (w.extractLsb' 22 4) (w.extractLsb' 18 4) (w.extractLsb' 12 6))
  | _ => none

/-- Members of major 0x20 (Table 3.5). -/
def decodeMajor20 (w : Word) : Option Instr :=
  match minorOf w with
  | 0 => some (.qunp (w.extractLsb' 22 4) (w.extractLsb' 16 6) (w.extractLsb' 12 4) (w.extractLsb' 11 1) (w.extractLsb' 8 3))
  | 1 => some (.qpk (w.extractLsb' 22 4) (w.extractLsb' 18 4) (w.extractLsb' 12 6) (w.extractLsb' 8 4) (w.extractLsb' 7 1) (w.extractLsb' 5 2))
  | 2 => if w.getLsbD 11 then some (.qtagSet (w.extractLsb' 22 4) (w.extractLsb' 16 6) (w.extractLsb' 12 4)) else some (.qtagGet (w.extractLsb' 22 4) (w.extractLsb' 16 6) (w.extractLsb' 12 4))
  | _ => none

/-- Members of major 0x21 (Table 3.5). -/
def decodeMajor21 (w : Word) : Option Instr :=
  match minorOf w with
  | 0 => some (.shfl (w.extractLsb' 22 4) (w.extractLsb' 16 6) (w.extractLsb' 10 6) (w.extractLsb' 4 6))
  | 1 => some (.shfld (w.extractLsb' 22 4) (w.extractLsb' 16 6) (w.extractLsb' 10 6) (w.extractLsb' 4 6))
  | 2 => some (.shflx (w.extractLsb' 22 4) (w.extractLsb' 16 6) (w.extractLsb' 10 6) (w.extractLsb' 4 6))
  | 3 => some (.pcons (w.extractLsb' 22 4) (w.extractLsb' 16 6) (w.extractLsb' 10 6) (w.extractLsb' 4 6))
  | 4 => some (.lmask (w.extractLsb' 22 4) (w.extractLsb' 16 6) (w.extractLsb' 10 6))
  | 5 => some (.red (w.extractLsb' 22 4) (w.extractLsb' 16 6) (w.extractLsb' 10 6) (w.extractLsb' 4 4))
  | 6 => some (.scan (w.extractLsb' 22 4) (w.extractLsb' 16 6) (w.extractLsb' 10 6) (w.extractLsb' 8 1) (w.extractLsb' 4 4))
  | 7 => some (.matchEq (w.extractLsb' 22 4) (w.extractLsb' 16 6) (w.extractLsb' 10 6))
  | 8 => some (.conflict (w.extractLsb' 22 4) (w.extractLsb' 16 6) (w.extractLsb' 10 6))
  | 9 => some (.hist (w.extractLsb' 22 4) (w.extractLsb' 16 6) (w.extractLsb' 10 6))
  | _ => none

/-- Members of major 0x22 (Table 3.5). -/
def decodeMajor22 (w : Word) : Option Instr :=
  match minorOf w with
  | 0 => some (.jinit (w.extractLsb' 22 4) (w.extractLsb' 10 6) (w.extractLsb' 4 6))
  | 1 => some (.jsign (w.extractLsb' 22 4) (w.extractLsb' 16 6) (w.extractLsb' 4 6))
  | 2 => some (.jwait (w.extractLsb' 22 4) (w.extractLsb' 10 6) (w.extractLsb' 4 6))
  | 3 => some (.jleave (w.extractLsb' 22 4) (w.extractLsb' 4 6))
  | 4 => some (.gsplit (w.extractLsb' 22 4) (w.extractLsb' 16 6) (w.extractLsb' 10 6) (w.extractLsb' 4 1))
  | 5 => some (.gjoin (w.extractLsb' 22 4) (w.extractLsb' 10 6))
  | _ => none

/-- Members of major 0x26 (Table 3.5). -/
def decodeMajor26 (w : Word) : Option Instr :=
  match minorOf w with
  | 0 => some (.ret (w.extractLsb' 22 4) (w.extractLsb' 16 6))
  | 1 => some (.jmpi (w.extractLsb' 22 4) (w.extractLsb' 16 6) (w.extractLsb' 15 1))
  | 2 => some (.exit (w.extractLsb' 22 4))
  | 3 => some (.brk (w.extractLsb' 22 4) (w.extractLsb' 4 18))
  | 4 => some (.trap (w.extractLsb' 22 4) (w.extractLsb' 4 18))
  | 5 => some (.yield (w.extractLsb' 22 4))
  | _ => none

/-- Members of major 0x30 (Table 3.5). -/
def decodeMajor30 (w : Word) : Option Instr :=
  match minorOf w with
  | 0 => some (.maddm (w.extractLsb' 22 4) (w.extractLsb' 17 5) (w.extractLsb' 12 5) (w.extractLsb' 7 5) (w.extractLsb' 5 2))
  | 1 => some (.msubm (w.extractLsb' 22 4) (w.extractLsb' 17 5) (w.extractLsb' 12 5) (w.extractLsb' 7 5) (w.extractLsb' 5 2))
  | 2 => some (.mnegm (w.extractLsb' 22 4) (w.extractLsb' 17 5) (w.extractLsb' 7 5) (w.extractLsb' 5 2))
  | 3 => some (.mmulm (w.extractLsb' 22 4) (w.extractLsb' 17 5) (w.extractLsb' 12 5) (w.extractLsb' 7 5) (w.extractLsb' 5 2))
  | _ => none

/-- Members of major 0x31 (Table 3.5). -/
def decodeMajor31 (w : Word) : Option Instr :=
  match minorOf w with
  | 0 => some (.mmacm (w.extractLsb' 22 4) (w.extractLsb' 17 5) (w.extractLsb' 12 5) (w.extractLsb' 7 5) (w.extractLsb' 5 2))
  | 1 => some (.mredm (w.extractLsb' 22 4) (w.extractLsb' 17 5) (w.extractLsb' 7 5) (w.extractLsb' 5 2))
  | 2 => some (.bflyct (w.extractLsb' 22 4) (w.extractLsb' 17 5) (w.extractLsb' 12 5) (w.extractLsb' 7 5) (w.extractLsb' 5 2))
  | 3 => some (.bflygs (w.extractLsb' 22 4) (w.extractLsb' 17 5) (w.extractLsb' 12 5) (w.extractLsb' 7 5) (w.extractLsb' 5 2))
  | _ => none

/-- Members of major 0x32 (Table 3.5). -/
def decodeMajor32 (w : Word) : Option Instr :=
  match minorOf w with
  | 0 => some (.nperm (w.extractLsb' 22 4) (w.extractLsb' 16 6) (w.extractLsb' 10 6) (w.extractLsb' 7 3) (w.extractLsb' 6 1))
  | 1 => some (.nrev (w.extractLsb' 22 4) (w.extractLsb' 16 6) (w.extractLsb' 10 6) (w.extractLsb' 7 3))
  | 2 => some (.nauto (w.extractLsb' 22 4) (w.extractLsb' 16 6) (w.extractLsb' 10 6) (w.extractLsb' 4 6))
  | 3 => some (.modset (w.extractLsb' 22 4) (w.extractLsb' 16 6) (w.extractLsb' 10 6) (w.extractLsb' 8 2) (w.extractLsb' 7 1))
  | _ => none

/-- Members of major 0x33 (Table 3.5). -/
def decodeMajor33 (w : Word) : Option Instr :=
  match minorOf w with
  | 0 => some (.spbegin (w.extractLsb' 22 4) (w.extractLsb' 16 6) (w.extractLsb' 10 6))
  | 1 => some (.spst (w.extractLsb' 22 4) (w.extractLsb' 16 6) (w.extractLsb' 10 6) (w.extractLsb' 7 3))
  | 2 => some (.spld (w.extractLsb' 22 4) (w.extractLsb' 16 6) (w.extractLsb' 10 6) (w.extractLsb' 7 3))
  | 3 => some (.spalloc (w.extractLsb' 22 4) (w.extractLsb' 16 6) (w.extractLsb' 10 6))
  | 4 => some (.spstate (w.extractLsb' 22 4) (w.extractLsb' 16 6) (w.extractLsb' 10 6))
  | 5 => some (.spcommit (w.extractLsb' 22 4) (w.extractLsb' 10 6) (w.extractLsb' 4 6))
  | 6 => some (.spabort (w.extractLsb' 22 4) (w.extractLsb' 10 6))
  | 7 => some (.spquery (w.extractLsb' 22 4) (w.extractLsb' 16 6) (w.extractLsb' 10 6))
  | 8 => some (.treemask (w.extractLsb' 22 4) (w.extractLsb' 16 6) (w.extractLsb' 10 6))
  | _ => none

/-- Members of major 0x34 (Table 3.5). -/
def decodeMajor34 (w : Word) : Option Instr :=
  match minorOf w with
  | 0 => some (.sysr (w.extractLsb' 22 4) (w.extractLsb' 16 6) (w.extractLsb' 8 8))
  | 1 => some (.sysw (w.extractLsb' 22 4) (w.extractLsb' 16 6) (w.extractLsb' 8 8))
  | 2 => some (.trapret (w.extractLsb' 22 4))
  | 3 => some (.tlbinv (w.extractLsb' 22 4) (w.extractLsb' 21 1) (w.extractLsb' 20 1) (w.extractLsb' 10 6) (w.extractLsb' 4 6))
  | 4 => some (.cwb (w.extractLsb' 22 4) (w.extractLsb' 21 1))
  | 5 => some (.bankmode (w.extractLsb' 22 4) (w.extractLsb' 16 6) (w.extractLsb' 10 6))
  | 6 => some (.launch (w.extractLsb' 22 4) (w.extractLsb' 16 6) (w.extractLsb' 10 6) (w.extractLsb' 4 6))
  | 7 => match (w.extractLsb' 14 2).toNat with
    | 0 => some (.fqrpReplay (w.extractLsb' 22 4) (w.extractLsb' 16 6))
    | 1 => some (.fqrpSkip (w.extractLsb' 22 4) (w.extractLsb' 16 6))
    | _ => some (.fqrpPeek (w.extractLsb' 22 4) (w.extractLsb' 16 6))
  | 8 => some (.halt (w.extractLsb' 22 4) (w.extractLsb' 4 18))
  | _ => none

/-- Members of major 0x3F by extended opcode (Table 3.6); `w2` is the second word. -/
def decodeMajor3F (w w2 : Word) : Option Instr :=
  match xopOf w with
  | 0x00 => some (.mma (w.extractLsb' 22 4) (w.extractLsb' 11 3) (w.extractLsb' 6 5) (w.extractLsb' 1 5) (w.extractLsb' 0 1) (w2.extractLsb' 26 6) (w2.extractLsb' 20 6) (w2.extractLsb' 19 1) (w2.extractLsb' 18 1) (w2.extractLsb' 12 6) (w2.extractLsb' 11 1) (w2.extractLsb' 0 4))
  | 0x01 => some (.mmas (w.extractLsb' 22 4) (w.extractLsb' 11 3) (w.extractLsb' 6 5) (w.extractLsb' 1 5) (w.extractLsb' 0 1) (w2.extractLsb' 26 6) (w2.extractLsb' 20 6) (w2.extractLsb' 19 1) (w2.extractLsb' 18 1) (w2.extractLsb' 12 6) (w2.extractLsb' 11 1) (w2.extractLsb' 5 6) (w2.extractLsb' 0 4))
  | 0x02 => some (.mconv (w.extractLsb' 22 4) (w.extractLsb' 11 3) (w.extractLsb' 6 5) (w.extractLsb' 1 5) (w.extractLsb' 0 1) (w2.extractLsb' 26 6) (w2.extractLsb' 20 6) (w2.extractLsb' 18 1) (w2.extractLsb' 12 6) (w2.extractLsb' 11 1) (w2.extractLsb' 5 6) (w2.extractLsb' 0 4))
  | 0x03 => some (.mtrn (w.extractLsb' 22 4) (w.extractLsb' 11 3) (w.extractLsb' 8 3) (w.extractLsb' 7 1) (w.extractLsb' 5 1) (w2.extractLsb' 0 4))
  | 0x04 => some (.mperm (w.extractLsb' 22 4) (w.extractLsb' 11 3) (w.extractLsb' 8 3) (w.extractLsb' 7 1) (w.extractLsb' 6 1) (w.extractLsb' 5 1) (w2.extractLsb' 26 6) (w2.extractLsb' 0 4))
  | 0x05 => some (.mred (w.extractLsb' 22 4) (w.extractLsb' 11 3) (w.extractLsb' 8 3) (w.extractLsb' 7 1) (w.extractLsb' 6 1) (w.extractLsb' 5 1) (w2.extractLsb' 0 4))
  | 0x06 => some (.accz (w.extractLsb' 22 4) (w.extractLsb' 11 3) (w2.extractLsb' 0 4))
  | 0x07 => some (.accld (w.extractLsb' 22 4) (w.extractLsb' 11 3) (w.extractLsb' 9 2) (w.extractLsb' 6 2) (w2.extractLsb' 26 6) (w2.extractLsb' 10 16) (w2.extractLsb' 0 4))
  | 0x08 => some (.accst (w.extractLsb' 22 4) (w.extractLsb' 11 3) (w.extractLsb' 9 2) (w.extractLsb' 8 1) (w.extractLsb' 6 2) (w2.extractLsb' 26 6) (w2.extractLsb' 10 16) (w2.extractLsb' 0 4))
  | 0x09 => some (.accrd (w.extractLsb' 22 4) (w.extractLsb' 11 3) (w.extractLsb' 5 6) (w.extractLsb' 3 2) (w2.extractLsb' 26 6))
  | 0x0A => some (.accwr (w.extractLsb' 22 4) (w.extractLsb' 11 3) (w.extractLsb' 5 6) (w.extractLsb' 3 2) (w2.extractLsb' 26 6))
  | 0x20 => some (.atom (w.extractLsb' 22 4) (w.extractLsb' 8 6) (w.extractLsb' 2 6) (w.extractLsb' 0 2) (w2.extractLsb' 26 6) (w2.extractLsb' 22 4) (w2.extractLsb' 21 1) (w2.extractLsb' 18 3) (w2.extractLsb' 16 2) (w2.extractLsb' 15 1) (w2.extractLsb' 0 14))
  | 0x21 => some (.cas (w.extractLsb' 22 4) (w.extractLsb' 8 6) (w.extractLsb' 2 6) (w.extractLsb' 0 2) (w2.extractLsb' 26 6) (w2.extractLsb' 20 6) (w2.extractLsb' 19 1) (w2.extractLsb' 16 3) (w2.extractLsb' 14 2) (w2.extractLsb' 0 14))
  | 0x40 => some (.cpy (w.extractLsb' 22 4) (w.extractLsb' 8 6) (w.extractLsb' 2 6) (w2.extractLsb' 30 2) (w2.extractLsb' 28 2) (w2.extractLsb' 24 4) (w2.extractLsb' 14 10))
  | 0x41 => some (.cpyt (w.extractLsb' 22 4) (w.extractLsb' 8 6) (w.extractLsb' 2 6) (w2.extractLsb' 26 6) (w2.extractLsb' 25 1) (w2.extractLsb' 24 1) (w2.extractLsb' 23 1) (w2.extractLsb' 16 4))
  | 0x42 => some (.cpyp (w.extractLsb' 22 4) (w.extractLsb' 8 6) (w.extractLsb' 2 6) (w2.extractLsb' 27 5) (w2.extractLsb' 22 5) (w2.extractLsb' 21 1) (w2.extractLsb' 20 1) (w2.extractLsb' 16 4) (w2.extractLsb' 6 10))
  | 0x43 => some (.cpyx (w.extractLsb' 22 4) (w.extractLsb' 8 6) (w.extractLsb' 2 6) (w2.extractLsb' 26 6) (w2.extractLsb' 25 1) (w2.extractLsb' 24 1) (w2.extractLsb' 20 4) (w2.extractLsb' 8 12))
  | 0x44 => some (.cpyf (w.extractLsb' 22 4) (w.extractLsb' 8 6) (w.extractLsb' 2 6) (w2.extractLsb' 26 6) (w2.extractLsb' 25 1) (w2.extractLsb' 20 4) (w2.extractLsb' 8 12))
  | 0x50 => some (.ringinit (w.extractLsb' 22 4) (w.extractLsb' 8 6) (w2.extractLsb' 28 4) (w2.extractLsb' 12 16))
  | 0x51 => some (.rawait (w.extractLsb' 22 4) (w.extractLsb' 8 6) (w.extractLsb' 2 6) (w2.extractLsb' 27 5))
  | 0x52 => some (.rrel (w.extractLsb' 22 4) (w.extractLsb' 8 6) (w.extractLsb' 2 6))
  | _ => none

/-- The member that a word's opcode fields choose, with its fields as they stand, legal or not (R84, R85); `none` for a
reserved major, minor or extended opcode. FQRP's reserved operation 3 is read as PEEK here and rejected below. -/
def decodeFields (w w2 : Word) : Option Instr :=
  match majorOf w with
  | 0x00 => decodeMajor00 w
  | 0x01 => decodeMajor01 w
  | 0x02 => decodeMajor02 w
  | 0x03 => decodeMajor03 w
  | 0x04 => decodeMajor04 w
  | 0x05 => some (.addImm (w.extractLsb' 22 4) (w.extractLsb' 16 6) (w.extractLsb' 10 6) (w.extractLsb' 0 10))
  | 0x06 => some (.andImm (w.extractLsb' 22 4) (w.extractLsb' 16 6) (w.extractLsb' 10 6) (w.extractLsb' 0 10))
  | 0x07 => some (.orImm (w.extractLsb' 22 4) (w.extractLsb' 16 6) (w.extractLsb' 10 6) (w.extractLsb' 0 10))
  | 0x08 => some (.xorImm (w.extractLsb' 22 4) (w.extractLsb' 16 6) (w.extractLsb' 10 6) (w.extractLsb' 0 10))
  | 0x09 => decodeMajor09 w
  | 0x0A => some (.movi (w.extractLsb' 22 4) (w.extractLsb' 16 6) (w.extractLsb' 0 16))
  | 0x0B => some (.movh (w.extractLsb' 22 4) (w.extractLsb' 16 6) (w.extractLsb' 0 16))
  | 0x0C => some (.cmp (w.extractLsb' 22 4) (w.extractLsb' 19 3) (w.extractLsb' 18 1) (w.extractLsb' 16 2) (w.extractLsb' 10 6) (w.extractLsb' 4 6) (w.extractLsb' 0 4))
  | 0x0D => some (.cmpImm (w.extractLsb' 22 4) (w.extractLsb' 19 3) (w.extractLsb' 16 3) (w.extractLsb' 10 6) (w.extractLsb' 0 10))
  | 0x0E => decodeMajor0E w
  | 0x0F => decodeMajor0F w
  | 0x10 => decodeMajor10 w
  | 0x11 => decodeMajor11 w
  | 0x12 => decodeMajor12 w
  | 0x13 => decodeMajor13 w
  | 0x14 => decodeMajor14 w
  | 0x15 => some (.fcmp (w.extractLsb' 22 4) (w.extractLsb' 19 3) (w.extractLsb' 16 2) (w.extractLsb' 10 6) (w.extractLsb' 4 6) (w.extractLsb' 0 4))
  | 0x16 => some (.cvt (w.extractLsb' 22 4) (w.extractLsb' 16 6) (w.extractLsb' 10 6) (w.extractLsb' 6 4) (w.extractLsb' 5 1) (w.extractLsb' 4 1) (w.extractLsb' 0 4))
  | 0x17 => decodeMajor17 w
  | 0x18 => some (.ld (w.extractLsb' 22 4) (w.extractLsb' 16 6) (w.extractLsb' 10 6) (w.extractLsb' 7 3) (w.extractLsb' 5 2) (w.extractLsb' 0 5))
  | 0x19 => some (.st (w.extractLsb' 22 4) (w.extractLsb' 16 6) (w.extractLsb' 10 6) (w.extractLsb' 7 3) (w.extractLsb' 5 2) (w.extractLsb' 0 5))
  | 0x1A => decodeMajor1A w
  | 0x1B => some (.ldro (w.extractLsb' 22 4) (w.extractLsb' 16 6) (w.extractLsb' 10 6) (w.extractLsb' 7 3) (w.extractLsb' 5 2) (w.extractLsb' 0 5))
  | 0x1C => decodeMajor1C w
  | 0x1D => decodeMajor1D w
  | 0x1E => decodeMajor1E w
  | 0x1F => decodeMajor1F w
  | 0x20 => decodeMajor20 w
  | 0x21 => decodeMajor21 w
  | 0x22 => decodeMajor22 w
  | 0x23 => some (.bru (w.extractLsb' 22 4) (w.extractLsb' 0 22))
  | 0x24 => some (.jmp (w.extractLsb' 22 4) (w.extractLsb' 0 22))
  | 0x25 => some (.call (w.extractLsb' 22 4) (w.extractLsb' 0 22))
  | 0x26 => decodeMajor26 w
  | 0x30 => decodeMajor30 w
  | 0x31 => decodeMajor31 w
  | 0x32 => decodeMajor32 w
  | 0x33 => decodeMajor33 w
  | 0x34 => decodeMajor34 w
  | 0x3F => decodeMajor3F w w2
  | _ => none

/-- The words of an instruction: its first word and, for a two-word instruction, its second (R77, R85). A step of the
device has no words. -/
def encode : Instr → List Word
  | .add g d a b => [(0#6 ++ g ++ d ++ a ++ b ++ 0#4 : BitVec 32)]
  | .sub g d a b => [(0#6 ++ g ++ d ++ a ++ b ++ 1#4 : BitVec 32)]
  | .mul g d a b => [(0#6 ++ g ++ d ++ a ++ b ++ 2#4 : BitVec 32)]
  | .mulh g d a b => [(0#6 ++ g ++ d ++ a ++ b ++ 3#4 : BitVec 32)]
  | .mad g d a b => [(0#6 ++ g ++ d ++ a ++ b ++ 4#4 : BitVec 32)]
  | .min g d a b => [(0#6 ++ g ++ d ++ a ++ b ++ 5#4 : BitVec 32)]
  | .max g d a b => [(0#6 ++ g ++ d ++ a ++ b ++ 6#4 : BitVec 32)]
  | .abs g d b => [(0#6 ++ g ++ d ++ 0#6 ++ b ++ 7#4 : BitVec 32)]
  | .neg g d b => [(0#6 ++ g ++ d ++ 0#6 ++ b ++ 8#4 : BitVec 32)]
  | .div g d a b => [(0#6 ++ g ++ d ++ a ++ b ++ 9#4 : BitVec 32)]
  | .rem g d a b => [(0#6 ++ g ++ d ++ a ++ b ++ 10#4 : BitVec 32)]
  | .lea g d a b => [(0#6 ++ g ++ d ++ a ++ b ++ 11#4 : BitVec 32)]
  | .sel g d a b => [(0#6 ++ g ++ d ++ a ++ b ++ 12#4 : BitVec 32)]
  | .mov g d b => [(0#6 ++ g ++ d ++ 0#6 ++ b ++ 13#4 : BitVec 32)]
  | .addK g d a b => [(1#6 ++ g ++ d ++ a ++ b ++ 0#4 : BitVec 32)]
  | .subK g d a b => [(1#6 ++ g ++ d ++ a ++ b ++ 1#4 : BitVec 32)]
  | .mulK g d a b => [(1#6 ++ g ++ d ++ a ++ b ++ 2#4 : BitVec 32)]
  | .mulhK g d a b => [(1#6 ++ g ++ d ++ a ++ b ++ 3#4 : BitVec 32)]
  | .madK g d a b => [(1#6 ++ g ++ d ++ a ++ b ++ 4#4 : BitVec 32)]
  | .minK g d a b => [(1#6 ++ g ++ d ++ a ++ b ++ 5#4 : BitVec 32)]
  | .maxK g d a b => [(1#6 ++ g ++ d ++ a ++ b ++ 6#4 : BitVec 32)]
  | .absK g d b => [(1#6 ++ g ++ d ++ 0#6 ++ b ++ 7#4 : BitVec 32)]
  | .negK g d b => [(1#6 ++ g ++ d ++ 0#6 ++ b ++ 8#4 : BitVec 32)]
  | .divK g d a b => [(1#6 ++ g ++ d ++ a ++ b ++ 9#4 : BitVec 32)]
  | .remK g d a b => [(1#6 ++ g ++ d ++ a ++ b ++ 10#4 : BitVec 32)]
  | .leaK g d a b => [(1#6 ++ g ++ d ++ a ++ b ++ 11#4 : BitVec 32)]
  | .selK g d a b => [(1#6 ++ g ++ d ++ a ++ b ++ 12#4 : BitVec 32)]
  | .movK g d b => [(1#6 ++ g ++ d ++ 0#6 ++ b ++ 13#4 : BitVec 32)]
  | .and g d a b => [(2#6 ++ g ++ d ++ a ++ b ++ 0#4 : BitVec 32)]
  | .or g d a b => [(2#6 ++ g ++ d ++ a ++ b ++ 1#4 : BitVec 32)]
  | .xor g d a b => [(2#6 ++ g ++ d ++ a ++ b ++ 2#4 : BitVec 32)]
  | .andn g d a b => [(2#6 ++ g ++ d ++ a ++ b ++ 3#4 : BitVec 32)]
  | .shl g d a b => [(2#6 ++ g ++ d ++ a ++ b ++ 4#4 : BitVec 32)]
  | .shr g d a b => [(2#6 ++ g ++ d ++ a ++ b ++ 5#4 : BitVec 32)]
  | .sra g d a b => [(2#6 ++ g ++ d ++ a ++ b ++ 6#4 : BitVec 32)]
  | .rot g d a b => [(2#6 ++ g ++ d ++ a ++ b ++ 7#4 : BitVec 32)]
  | .bfe g d a b => [(2#6 ++ g ++ d ++ a ++ b ++ 8#4 : BitVec 32)]
  | .bfi g d a b => [(2#6 ++ g ++ d ++ a ++ b ++ 9#4 : BitVec 32)]
  | .popc g d b => [(2#6 ++ g ++ d ++ 0#6 ++ b ++ 10#4 : BitVec 32)]
  | .clz g d b => [(2#6 ++ g ++ d ++ 0#6 ++ b ++ 11#4 : BitVec 32)]
  | .brev g d b => [(2#6 ++ g ++ d ++ 0#6 ++ b ++ 12#4 : BitVec 32)]
  | .andK g d a b => [(3#6 ++ g ++ d ++ a ++ b ++ 0#4 : BitVec 32)]
  | .orK g d a b => [(3#6 ++ g ++ d ++ a ++ b ++ 1#4 : BitVec 32)]
  | .xorK g d a b => [(3#6 ++ g ++ d ++ a ++ b ++ 2#4 : BitVec 32)]
  | .andnK g d a b => [(3#6 ++ g ++ d ++ a ++ b ++ 3#4 : BitVec 32)]
  | .shlK g d a b => [(3#6 ++ g ++ d ++ a ++ b ++ 4#4 : BitVec 32)]
  | .shrK g d a b => [(3#6 ++ g ++ d ++ a ++ b ++ 5#4 : BitVec 32)]
  | .sraK g d a b => [(3#6 ++ g ++ d ++ a ++ b ++ 6#4 : BitVec 32)]
  | .rotK g d a b => [(3#6 ++ g ++ d ++ a ++ b ++ 7#4 : BitVec 32)]
  | .bfeK g d a b => [(3#6 ++ g ++ d ++ a ++ b ++ 8#4 : BitVec 32)]
  | .bfiK g d a b => [(3#6 ++ g ++ d ++ a ++ b ++ 9#4 : BitVec 32)]
  | .popcK g d b => [(3#6 ++ g ++ d ++ 0#6 ++ b ++ 10#4 : BitVec 32)]
  | .clzK g d b => [(3#6 ++ g ++ d ++ 0#6 ++ b ++ 11#4 : BitVec 32)]
  | .brevK g d b => [(3#6 ++ g ++ d ++ 0#6 ++ b ++ 12#4 : BitVec 32)]
  | .add64 g d a b => [(4#6 ++ g ++ d ++ a ++ b ++ 0#4 : BitVec 32)]
  | .sub64 g d a b => [(4#6 ++ g ++ d ++ a ++ b ++ 1#4 : BitVec 32)]
  | .mul64 g d a b => [(4#6 ++ g ++ d ++ a ++ b ++ 2#4 : BitVec 32)]
  | .mulh64 g d a b => [(4#6 ++ g ++ d ++ a ++ b ++ 3#4 : BitVec 32)]
  | .min64 g d a b => [(4#6 ++ g ++ d ++ a ++ b ++ 4#4 : BitVec 32)]
  | .max64 g d a b => [(4#6 ++ g ++ d ++ a ++ b ++ 5#4 : BitVec 32)]
  | .shl64 g d a b => [(4#6 ++ g ++ d ++ a ++ b ++ 6#4 : BitVec 32)]
  | .shr64 g d a b => [(4#6 ++ g ++ d ++ a ++ b ++ 7#4 : BitVec 32)]
  | .sra64 g d a b => [(4#6 ++ g ++ d ++ a ++ b ++ 8#4 : BitVec 32)]
  | .addImm g d a imm => [(5#6 ++ g ++ d ++ a ++ imm : BitVec 32)]
  | .andImm g d a imm => [(6#6 ++ g ++ d ++ a ++ imm : BitVec 32)]
  | .orImm g d a imm => [(7#6 ++ g ++ d ++ a ++ imm : BitVec 32)]
  | .xorImm g d a imm => [(8#6 ++ g ++ d ++ a ++ imm : BitVec 32)]
  | .shlImm g d a w amt => [(9#6 ++ g ++ d ++ a ++ 0#3 ++ w ++ amt : BitVec 32)]
  | .shrImm g d a w amt => [(9#6 ++ g ++ d ++ a ++ 2#3 ++ w ++ amt : BitVec 32)]
  | .sraImm g d a w amt => [(9#6 ++ g ++ d ++ a ++ 4#3 ++ w ++ amt : BitVec 32)]
  | .rotImm g d a w amt => [(9#6 ++ g ++ d ++ a ++ 6#3 ++ w ++ amt : BitVec 32)]
  | .movi g d imm => [(10#6 ++ g ++ d ++ imm : BitVec 32)]
  | .movh g d imm => [(11#6 ++ g ++ d ++ imm : BitVec 32)]
  | .cmp g pd w comb a b cond => [(12#6 ++ g ++ pd ++ w ++ comb ++ a ++ b ++ cond : BitVec 32)]
  | .cmpImm g pd cond a imm => [(13#6 ++ g ++ pd ++ cond ++ a ++ imm : BitVec 32)]
  | .plop g pd pa pb na nb op => [(14#6 ++ g ++ pd ++ pa ++ pb ++ na ++ nb ++ op ++ 0#9 : BitVec 32)]
  | .pmovv g d => [(14#6 ++ g ++ d ++ 1#16 : BitVec 32)]
  | .vpmov g mask a => [(14#6 ++ g ++ mask ++ a ++ 2#9 : BitVec 32)]
  | .kmov g d a => [(15#6 ++ g ++ d ++ 0#1 ++ a ++ 0#9 : BitVec 32)]
  | .kmovImm g d imm => [(15#6 ++ g ++ d ++ 1#1 ++ imm ++ 0#4 : BitVec 32)]
  | .klane g d a b => [(15#6 ++ g ++ d ++ a ++ b ++ 1#4 : BitVec 32)]
  | .fadd g d a b => [(16#6 ++ g ++ d ++ a ++ b ++ 0#4 : BitVec 32)]
  | .fsub g d a b => [(16#6 ++ g ++ d ++ a ++ b ++ 1#4 : BitVec 32)]
  | .fmul g d a b => [(16#6 ++ g ++ d ++ a ++ b ++ 2#4 : BitVec 32)]
  | .ffma g d a b => [(16#6 ++ g ++ d ++ a ++ b ++ 3#4 : BitVec 32)]
  | .fmin g d a b => [(16#6 ++ g ++ d ++ a ++ b ++ 4#4 : BitVec 32)]
  | .fmax g d a b => [(16#6 ++ g ++ d ++ a ++ b ++ 5#4 : BitVec 32)]
  | .fabs g d b => [(16#6 ++ g ++ d ++ 0#6 ++ b ++ 6#4 : BitVec 32)]
  | .fneg g d b => [(16#6 ++ g ++ d ++ 0#6 ++ b ++ 7#4 : BitVec 32)]
  | .faddK g d a b => [(17#6 ++ g ++ d ++ a ++ b ++ 0#4 : BitVec 32)]
  | .fsubK g d a b => [(17#6 ++ g ++ d ++ a ++ b ++ 1#4 : BitVec 32)]
  | .fmulK g d a b => [(17#6 ++ g ++ d ++ a ++ b ++ 2#4 : BitVec 32)]
  | .ffmaK g d a b => [(17#6 ++ g ++ d ++ a ++ b ++ 3#4 : BitVec 32)]
  | .fminK g d a b => [(17#6 ++ g ++ d ++ a ++ b ++ 4#4 : BitVec 32)]
  | .fmaxK g d a b => [(17#6 ++ g ++ d ++ a ++ b ++ 5#4 : BitVec 32)]
  | .fabsK g d b => [(17#6 ++ g ++ d ++ 0#6 ++ b ++ 6#4 : BitVec 32)]
  | .fnegK g d b => [(17#6 ++ g ++ d ++ 0#6 ++ b ++ 7#4 : BitVec 32)]
  | .faddF16x2 g d a b => [(18#6 ++ g ++ d ++ a ++ b ++ 0#4 : BitVec 32)]
  | .fsubF16x2 g d a b => [(18#6 ++ g ++ d ++ a ++ b ++ 1#4 : BitVec 32)]
  | .fmulF16x2 g d a b => [(18#6 ++ g ++ d ++ a ++ b ++ 2#4 : BitVec 32)]
  | .ffmaF16x2 g d a b => [(18#6 ++ g ++ d ++ a ++ b ++ 3#4 : BitVec 32)]
  | .fminF16x2 g d a b => [(18#6 ++ g ++ d ++ a ++ b ++ 4#4 : BitVec 32)]
  | .fmaxF16x2 g d a b => [(18#6 ++ g ++ d ++ a ++ b ++ 5#4 : BitVec 32)]
  | .fabsF16x2 g d b => [(18#6 ++ g ++ d ++ 0#6 ++ b ++ 6#4 : BitVec 32)]
  | .fnegF16x2 g d b => [(18#6 ++ g ++ d ++ 0#6 ++ b ++ 7#4 : BitVec 32)]
  | .faddBf16x2 g d a b => [(19#6 ++ g ++ d ++ a ++ b ++ 0#4 : BitVec 32)]
  | .fsubBf16x2 g d a b => [(19#6 ++ g ++ d ++ a ++ b ++ 1#4 : BitVec 32)]
  | .fmulBf16x2 g d a b => [(19#6 ++ g ++ d ++ a ++ b ++ 2#4 : BitVec 32)]
  | .ffmaBf16x2 g d a b => [(19#6 ++ g ++ d ++ a ++ b ++ 3#4 : BitVec 32)]
  | .fminBf16x2 g d a b => [(19#6 ++ g ++ d ++ a ++ b ++ 4#4 : BitVec 32)]
  | .fmaxBf16x2 g d a b => [(19#6 ++ g ++ d ++ a ++ b ++ 5#4 : BitVec 32)]
  | .fabsBf16x2 g d b => [(19#6 ++ g ++ d ++ 0#6 ++ b ++ 6#4 : BitVec 32)]
  | .fnegBf16x2 g d b => [(19#6 ++ g ++ d ++ 0#6 ++ b ++ 7#4 : BitVec 32)]
  | .frcp g d b => [(20#6 ++ g ++ d ++ 0#6 ++ b ++ 0#4 : BitVec 32)]
  | .frsq g d b => [(20#6 ++ g ++ d ++ 0#6 ++ b ++ 1#4 : BitVec 32)]
  | .fsqrt g d b => [(20#6 ++ g ++ d ++ 0#6 ++ b ++ 2#4 : BitVec 32)]
  | .fex2 g d b => [(20#6 ++ g ++ d ++ 0#6 ++ b ++ 3#4 : BitVec 32)]
  | .flg2 g d b => [(20#6 ++ g ++ d ++ 0#6 ++ b ++ 4#4 : BitVec 32)]
  | .fsin g d b => [(20#6 ++ g ++ d ++ 0#6 ++ b ++ 5#4 : BitVec 32)]
  | .fcos g d b => [(20#6 ++ g ++ d ++ 0#6 ++ b ++ 6#4 : BitVec 32)]
  | .ftanh g d b => [(20#6 ++ g ++ d ++ 0#6 ++ b ++ 7#4 : BitVec 32)]
  | .fcls g d b => [(20#6 ++ g ++ d ++ 0#6 ++ b ++ 8#4 : BitVec 32)]
  | .fcmp g pd comb a b cond => [(21#6 ++ g ++ pd ++ 0#1 ++ comb ++ a ++ b ++ cond : BitVec 32)]
  | .cvt g d a src sat rz dst => [(22#6 ++ g ++ d ++ a ++ src ++ sat ++ rz ++ dst : BitVec 32)]
  | .cvtpk g d a fmt sat rz => [(23#6 ++ g ++ d ++ a ++ fmt ++ sat ++ rz ++ 0#4 : BitVec 32)]
  | .cvtup g d a fmt => [(23#6 ++ g ++ d ++ a ++ fmt ++ 1#6 : BitVec 32)]
  | .ld g d a size sp off => [(24#6 ++ g ++ d ++ a ++ size ++ sp ++ off : BitVec 32)]
  | .st g d a size sp off => [(25#6 ++ g ++ d ++ a ++ size ++ sp ++ off : BitVec 32)]
  | .ldx g d a size sp off => [(26#6 ++ g ++ d ++ a ++ size ++ sp ++ 0#2 ++ off : BitVec 32)]
  | .stx g d a size sp off => [(26#6 ++ g ++ d ++ a ++ size ++ sp ++ 1#2 ++ off : BitVec 32)]
  | .ldro g d a size sp off => [(27#6 ++ g ++ d ++ a ++ size ++ sp ++ off : BitVec 32)]
  | .fence g scope kind => [(28#6 ++ g ++ scope ++ kind ++ 0#17 : BitVec 32)]
  | .wait g ctr thr => [(29#6 ++ g ++ ctr ++ thr ++ 0#13 : BitVec 32)]
  | .pf g lvl a lines => [(30#6 ++ g ++ lvl ++ 0#4 ++ a ++ lines ++ 0#4 : BitVec 32)]
  | .cmaintDropL1 g => [(30#6 ++ g ++ 1#22 : BitVec 32)]
  | .cmaintCleanL2 g a lines => [(30#6 ++ g ++ 16#6 ++ a ++ lines ++ 1#4 : BitVec 32)]
  | .cmaintFlushL2 g a lines => [(30#6 ++ g ++ 32#6 ++ a ++ lines ++ 1#4 : BitVec 32)]
  | .cmaintDropL2 g a lines => [(30#6 ++ g ++ 48#6 ++ a ++ lines ++ 1#4 : BitVec 32)]
  | .ldp g q kq n pd => [(31#6 ++ g ++ q ++ kq ++ n ++ pd ++ 0#5 : BitVec 32)]
  | .ldpr g q kq n pd => [(31#6 ++ g ++ q ++ kq ++ n ++ pd ++ 1#5 : BitVec 32)]
  | .stp g q kq => [(31#6 ++ g ++ q ++ kq ++ 2#12 : BitVec 32)]
  | .qunp g d q mid ty => [(32#6 ++ g ++ d ++ q ++ mid ++ ty ++ 0#8 : BitVec 32)]
  | .qpk g q a n mode ty => [(32#6 ++ g ++ q ++ a ++ n ++ mode ++ ty ++ 1#5 : BitVec 32)]
  | .qtagGet g d q => [(32#6 ++ g ++ d ++ q ++ 2#12 : BitVec 32)]
  | .qtagSet g d q => [(32#6 ++ g ++ d ++ q ++ 2050#12 : BitVec 32)]
  | .shfl g d a b => [(33#6 ++ g ++ d ++ a ++ b ++ 0#4 : BitVec 32)]
  | .shfld g d a b => [(33#6 ++ g ++ d ++ a ++ b ++ 1#4 : BitVec 32)]
  | .shflx g d a b => [(33#6 ++ g ++ d ++ a ++ b ++ 2#4 : BitVec 32)]
  | .pcons g d a b => [(33#6 ++ g ++ d ++ a ++ b ++ 3#4 : BitVec 32)]
  | .lmask g d a => [(33#6 ++ g ++ d ++ a ++ 4#10 : BitVec 32)]
  | .red g d a op => [(33#6 ++ g ++ d ++ a ++ 0#2 ++ op ++ 5#4 : BitVec 32)]
  | .scan g d a excl op => [(33#6 ++ g ++ d ++ a ++ 0#1 ++ excl ++ op ++ 6#4 : BitVec 32)]
  | .matchEq g d a => [(33#6 ++ g ++ d ++ a ++ 7#10 : BitVec 32)]
  | .conflict g d a => [(33#6 ++ g ++ d ++ a ++ 8#10 : BitVec 32)]
  | .hist g d a => [(33#6 ++ g ++ d ++ a ++ 9#10 : BitVec 32)]
  | .jinit g a j => [(34#6 ++ g ++ 0#6 ++ a ++ j ++ 0#4 : BitVec 32)]
  | .jsign g d j => [(34#6 ++ g ++ d ++ 0#6 ++ j ++ 1#4 : BitVec 32)]
  | .jwait g a j => [(34#6 ++ g ++ 0#6 ++ a ++ j ++ 2#4 : BitVec 32)]
  | .jleave g j => [(34#6 ++ g ++ 0#12 ++ j ++ 3#4 : BitVec 32)]
  | .gsplit g d a inv => [(34#6 ++ g ++ d ++ a ++ 0#5 ++ inv ++ 4#4 : BitVec 32)]
  | .gjoin g a => [(34#6 ++ g ++ 0#6 ++ a ++ 5#10 : BitVec 32)]
  | .bru g off => [(35#6 ++ g ++ off : BitVec 32)]
  | .jmp g off => [(36#6 ++ g ++ off : BitVec 32)]
  | .call g off => [(37#6 ++ g ++ off : BitVec 32)]
  | .ret g d => [(38#6 ++ g ++ d ++ 0#16 : BitVec 32)]
  | .jmpi g d cls => [(38#6 ++ g ++ d ++ cls ++ 1#15 : BitVec 32)]
  | .exit g => [(38#6 ++ g ++ 2#22 : BitVec 32)]
  | .brk g imm => [(38#6 ++ g ++ imm ++ 3#4 : BitVec 32)]
  | .trap g imm => [(38#6 ++ g ++ imm ++ 4#4 : BitVec 32)]
  | .yield g => [(38#6 ++ g ++ 5#22 : BitVec 32)]
  | .maddm g d a b slot => [(48#6 ++ g ++ d ++ a ++ b ++ slot ++ 0#5 : BitVec 32)]
  | .msubm g d a b slot => [(48#6 ++ g ++ d ++ a ++ b ++ slot ++ 1#5 : BitVec 32)]
  | .mnegm g d b slot => [(48#6 ++ g ++ d ++ 0#5 ++ b ++ slot ++ 2#5 : BitVec 32)]
  | .mmulm g d a b slot => [(48#6 ++ g ++ d ++ a ++ b ++ slot ++ 3#5 : BitVec 32)]
  | .mmacm g d a b slot => [(49#6 ++ g ++ d ++ a ++ b ++ slot ++ 0#5 : BitVec 32)]
  | .mredm g d b slot => [(49#6 ++ g ++ d ++ 0#5 ++ b ++ slot ++ 1#5 : BitVec 32)]
  | .bflyct g d a b slot => [(49#6 ++ g ++ d ++ a ++ b ++ slot ++ 2#5 : BitVec 32)]
  | .bflygs g d a b slot => [(49#6 ++ g ++ d ++ a ++ b ++ slot ++ 3#5 : BitVec 32)]
  | .nperm g d a sh mode => [(50#6 ++ g ++ d ++ a ++ sh ++ mode ++ 0#6 : BitVec 32)]
  | .nrev g d a k => [(50#6 ++ g ++ d ++ a ++ k ++ 1#7 : BitVec 32)]
  | .nauto g d a kg => [(50#6 ++ g ++ d ++ a ++ kg ++ 2#4 : BitVec 32)]
  | .modset g a b slot auto => [(50#6 ++ g ++ a ++ b ++ slot ++ auto ++ 3#7 : BitVec 32)]
  | .spbegin g d kr => [(51#6 ++ g ++ d ++ kr ++ 0#10 : BitVec 32)]
  | .spst g d a size => [(51#6 ++ g ++ d ++ a ++ size ++ 1#7 : BitVec 32)]
  | .spld g d a size => [(51#6 ++ g ++ d ++ a ++ size ++ 2#7 : BitVec 32)]
  | .spalloc g d a => [(51#6 ++ g ++ d ++ a ++ 3#10 : BitVec 32)]
  | .spstate g ks kp => [(51#6 ++ g ++ ks ++ kp ++ 4#10 : BitVec 32)]
  | .spcommit g kh kk => [(51#6 ++ g ++ 0#6 ++ kh ++ kk ++ 5#4 : BitVec 32)]
  | .spabort g kh => [(51#6 ++ g ++ 0#6 ++ kh ++ 6#10 : BitVec 32)]
  | .spquery g d kh => [(51#6 ++ g ++ d ++ kh ++ 7#10 : BitVec 32)]
  | .treemask g d a => [(51#6 ++ g ++ d ++ a ++ 8#10 : BitVec 32)]
  | .sysr g d num => [(52#6 ++ g ++ d ++ num ++ 0#8 : BitVec 32)]
  | .sysw g a num => [(52#6 ++ g ++ a ++ num ++ 1#8 : BitVec 32)]
  | .trapret g => [(52#6 ++ g ++ 2#22 : BitVec 32)]
  | .tlbinv g every ctx ka kn => [(52#6 ++ g ++ every ++ ctx ++ 0#4 ++ ka ++ kn ++ 3#4 : BitVec 32)]
  | .cwb g ctx => [(52#6 ++ g ++ ctx ++ 4#21 : BitVec 32)]
  | .bankmode g d a => [(52#6 ++ g ++ d ++ a ++ 5#10 : BitVec 32)]
  | .launch g d kt kp => [(52#6 ++ g ++ d ++ kt ++ kp ++ 6#4 : BitVec 32)]
  | .fqrpReplay g d => [(52#6 ++ g ++ d ++ 7#16 : BitVec 32)]
  | .fqrpSkip g d => [(52#6 ++ g ++ d ++ 16391#16 : BitVec 32)]
  | .fqrpPeek g d => [(52#6 ++ g ++ d ++ 32775#16 : BitVec 32)]
  | .halt g imm => [(52#6 ++ g ++ imm ++ 8#4 : BitVec 32)]
  | .mma g a fa fb sat ra rb sa sb gm z j => [(63#6 ++ g ++ 0#8 ++ a ++ fa ++ fb ++ sat : BitVec 32), (ra ++ rb ++ sa ++ sb ++ gm ++ z ++ 0#7 ++ j : BitVec 32)]
  | .mmas g a fa fb sat ra rb sa sb gm z ks j => [(63#6 ++ g ++ 1#8 ++ a ++ fa ++ fb ++ sat : BitVec 32), (ra ++ rb ++ sa ++ sb ++ gm ++ z ++ ks ++ 0#1 ++ j : BitVec 32)]
  | .mconv g a fa fb sat kr rb sb gm z ko j => [(63#6 ++ g ++ 2#8 ++ a ++ fa ++ fb ++ sat : BitVec 32), (kr ++ rb ++ 0#1 ++ sb ++ gm ++ z ++ ko ++ 0#1 ++ j : BitVec 32)]
  | .mtrn g d t acc sat j => [(63#6 ++ g ++ 3#8 ++ d ++ t ++ acc ++ 0#1 ++ sat ++ 0#5 : BitVec 32), (0#28 ++ j : BitVec 32)]
  | .mperm g d t acc mode sat kp j => [(63#6 ++ g ++ 4#8 ++ d ++ t ++ acc ++ mode ++ sat ++ 0#5 : BitVec 32), (kp ++ 0#22 ++ j : BitVec 32)]
  | .mred g d t acc mode sat j => [(63#6 ++ g ++ 5#8 ++ d ++ t ++ acc ++ mode ++ sat ++ 0#5 : BitVec 32), (0#28 ++ j : BitVec 32)]
  | .accz g t j => [(63#6 ++ g ++ 6#8 ++ t ++ 0#11 : BitVec 32), (0#28 ++ j : BitVec 32)]
  | .accld g t fmt sp kx pitch j => [(63#6 ++ g ++ 7#8 ++ t ++ fmt ++ 0#1 ++ sp ++ 0#6 : BitVec 32), (kx ++ pitch ++ 0#6 ++ j : BitVec 32)]
  | .accst g t fmt sat sp kx pitch j => [(63#6 ++ g ++ 8#8 ++ t ++ fmt ++ sat ++ sp ++ 0#6 : BitVec 32), (kx ++ pitch ++ 0#6 ++ j : BitVec 32)]
  | .accrd g t v n kpos => [(63#6 ++ g ++ 9#8 ++ t ++ v ++ n ++ 0#3 : BitVec 32), (kpos ++ 0#26 : BitVec 32)]
  | .accwr g t v n kpos => [(63#6 ++ g ++ 10#8 ++ t ++ v ++ n ++ 0#3 : BitVec 32), (kpos ++ 0#26 : BitVec 32)]
  | .atom g d a sp b op w scope order noret off => [(63#6 ++ g ++ 32#8 ++ d ++ a ++ sp : BitVec 32), (b ++ op ++ w ++ scope ++ order ++ noret ++ 0#1 ++ off : BitVec 32)]
  | .cas g d a sp b c w scope order off => [(63#6 ++ g ++ 33#8 ++ d ++ a ++ sp : BitVec 32), (b ++ c ++ w ++ scope ++ order ++ off : BitVec 32)]
  | .cpy g dst src dsp ssp j words => [(63#6 ++ g ++ 64#8 ++ dst ++ src ++ 0#2 : BitVec 32), (dsp ++ ssp ++ j ++ words ++ 0#14 : BitVec 32)]
  | .cpyt g kr kc kt dir sp ring j => [(63#6 ++ g ++ 65#8 ++ kr ++ kc ++ 0#2 : BitVec 32), (kt ++ dir ++ sp ++ ring ++ 0#3 ++ j ++ 0#16 : BitVec 32)]
  | .cpyp g kq kt lo hi sp ring j t => [(63#6 ++ g ++ 66#8 ++ kq ++ kt ++ 0#2 : BitVec 32), (lo ++ hi ++ sp ++ ring ++ j ++ t ++ 0#6 : BitVec 32)]
  | .cpyx g vi kb kd sp dir j row => [(63#6 ++ g ++ 67#8 ++ vi ++ kb ++ 0#2 : BitVec 32), (kd ++ sp ++ dir ++ j ++ row ++ 0#8 : BitVec 32)]
  | .cpyf g vd ks kr sp j row => [(63#6 ++ g ++ 68#8 ++ vd ++ ks ++ 0#2 : BitVec 32), (kr ++ sp ++ 0#1 ++ j ++ row ++ 0#8 : BitVec 32)]
  | .ringinit g kr slots size => [(63#6 ++ g ++ 80#8 ++ kr ++ 0#8 : BitVec 32), (slots ++ size ++ 0#12 : BitVec 32)]
  | .rawait g kr kt n => [(63#6 ++ g ++ 81#8 ++ kr ++ kt ++ 0#2 : BitVec 32), (n ++ 0#27 : BitVec 32)]
  | .rrel g kr kt => [(63#6 ++ g ++ 82#8 ++ kr ++ kt ++ 0#2 : BitVec 32), (0#32 : BitVec 32)]
  | .arbitration _ => []
  | .producerComplete _ => []
  | .storeAcknowledged _ => []
  | .pageWalkComplete _ _ => []
  | .homeSliceAccess _ => []
  | .commandComplete _ _ => []
  | .matrixCommandComplete _ _ => []
  | .ringCommandStart _ _ => []
  | .asyncCopyFault _ _ => []
  | .elementParked _ _ => []
  | .deferredFaultDelivery _ _ _ => []
  | .slotRelease _ _ => []
  | .windowOpen _ _ _ => []
  | .spcommitExecute _ _ => []
  | .spabortExecute _ _ => []
  | .queueEnable _ _ => []
  | .queueDisable _ _ => []
  | .queuePriorityWeight _ _ => []
  | .qtail _ _ => []
  | .qstatClearStopped _ => []
  | .recordTake _ => []
  | .landingEntry _ => []
  | .chainPlacement => []
  | .blockSave _ => []
  | .launchComplete _ => []
  | .childTemplateRead _ => []
  | .dqerrClear _ => []
  | .kernelNodeRun _ _ => []
  | .copyNode _ _ => []
  | .conditionNode _ _ => []
  | .loopNode _ _ => []
  | .contextEnable _ _ => []
  | .contextFreezeRequest _ => []
  | .contextEvict _ => []
  | .contextThaw _ => []
  | .contextTeardown _ => []
  | .teardownEnd _ => []
  | .hostBar2Read _ _ => []
  | .hostBar2Write _ _ => []
  | .hostAtomicop _ _ _ _ _ => []
  | .peerRequest _ => []
  | .portStateChange _ _ => []
  | .peerResend _ _ => []
  | .forwarderRowSend _ => []
  | .fwderrClear _ => []
  | .cbreq _ _ => []
  | .bankModeChange _ => []
  | .cbhealth _ _ => []
  | .selogClear _ => []
  | .transferRetry _ _ => []
  | .pseudoChannelHold _ _ => []
  | .hrelRelease _ _ => []
  | .hrelFail _ _ => []
  | .hswap _ _ _ => []
  | .hlogClearArray _ => []
  | .hlogClearTransfer _ => []
  | .powerOnReset => []
  | .resetreq _ => []
  | .flashPageWrite _ _ _ => []
  | .clockStep => []
  | .thermtrip _ => []
  | .getVersion _ => []
  | .getCapabilities _ => []
  | .negotiateAlgorithms _ _ _ => []
  | .getDigests _ => []
  | .getCertificate _ _ _ _ => []
  | .challenge _ _ _ => []
  | .getMeasurements _ _ _ => []
  | .unsupportedrequest _ _ => []
  | .registerWrite _ _ => []
  | .arithmeticClockCycle => []
  | .hostInvalidation _ _ _ _ => []
  | .cxlMemAccess _ _ _ => []
  | .linkTraining _ _ _ => []
  | .powerOff => []

/-- Reason codes that come from bits outside the member's fields (Table 3.3): 0x03 for a non-zero reserved field, but
0x0E where the member's description says so (GSPLIT's b field, R119; FQRP's operation 3, Table 7.7). -/
def reservedReasons (w w2 : Word) (i : Instr) : List Nat :=
  match i with
  | .gsplit g d a _ =>
    (if (w.extractLsb' 5 5) ≠ 0 then [0x0E] else []) ++
    (if encode (.gsplit g d a (w.extractLsb' 4 1)) ≠ [w &&& 0xFFFFFC1F#32] then [3] else [])
  | .fqrpPeek _ _ =>
    (if (w.extractLsb' 14 2) = 3 then [0x0E] else []) ++ (if (w.extractLsb' 4 10) ≠ 0 then [3] else [])
  | i => if encode i = [w] ∨ encode i = [w, w2] then [] else [3]

/-- The lowest of a list of reason codes (R79), 0 for none. -/
def lowestReason : List Nat → Nat
  | [] => 0
  | [r] => r
  | r :: rs => min r (lowestReason rs)

/-- Reason codes that come from a member's fields (R79). Under FQRP's operation 3, which is no member, kd is no pair
(Table 7.7). -/
def fieldReasons (w : Word) (i : Instr) : List Nat :=
  match i with
  | .fqrpPeek _ _ => if w.extractLsb' 14 2 = 3 then [] else Machine.legality i
  | i => Machine.legality i

/-- The lowest reason code that applies to a pair of words, apart from those of the clause (R79): 0 when the
words hold a legal instruction. The second word counts only for a two-word instruction. -/
def wordReason (w w2 : Word) : Nat :=
  match decodeFields w w2 with
  | none => if majorOf w ≤ 0x26 ∨ (0x30 ≤ majorOf w ∧ majorOf w ≤ 0x34) ∨ majorOf w = 0x3F then 2 else 1
  | some i => lowestReason (reservedReasons w w2 i ++ fieldReasons w i)

/-- The width in words that a first word gives itself (R83, R85): two under major 0x3F, else one. -/
def widthOf (w w2 : Word) : Nat :=
  match decodeFields w w2 with
  | none => if majorOf w = 0x3F then 2 else 1
  | some i => i.words

/-- The instruction that two consecutive words hold, or the reason they hold none. -/
def decodeWords (w w2 : Word) : Except Reject Instr :=
  match decodeFields w w2 with
  | none => .error (.illegal (wordReason w w2) (widthOf w w2))
  | some i => if wordReason w w2 = 0 then .ok i else .error (.illegal (wordReason w w2) i.words)

/-- A word from four bytes, the first the least significant (R2). -/
def wordOfBytes (a b c d : Byte) : Word := d ++ c ++ b ++ a

/-- The instruction that begins a list of bytes as memory holds them (R2), or why there is none. A two-word
instruction needs eight bytes. -/
def decode : List Byte → Except Reject Instr
  | a :: b :: c :: d :: e :: f :: g :: h :: _ => decodeWords (wordOfBytes a b c d) (wordOfBytes e f g h)
  | [a, b, c, d] =>
    match decodeWords (wordOfBytes a b c d) 0 with
    | .ok i => if i.words = 1 then .ok i else .error .short
    | .error e => .error e
  | _ => .error .short

/-- The four bytes of a word at rising addresses (R2). -/
def bytesOfWord (w : Word) : List Byte :=
  [w.extractLsb' 0 8, w.extractLsb' 8 8, w.extractLsb' 16 8, w.extractLsb' 24 8]

/-- The bytes of an instruction as memory holds them (R2). -/
def encodeBytes (i : Instr) : List Byte := (encode i).flatMap bytesOfWord

/-- The instruction the decoder reads from an instruction whose bits are `w`, bit 0 the least significant bit of the
first word and the second word from bit 32 on; bits at or above `nbits` are 0. -/
def decodeTableWord (nbits w : Nat) : Option Instr :=
  let w := w % 2 ^ nbits
  match decode (bytesOfWord (BitVec.ofNat 32 w) ++ bytesOfWord (BitVec.ofNat 32 (w / 2 ^ 32))) with
  | .ok i => some i
  | .error _ => none

end Sys2Proof
end

