-- ==== Sys2Proof/Machine/Memory.lean ====
section
/-! DEFINITION. Device memory as the home slices hold it, with the HBM4 and stacked-SRAM error rules and their logs
(spec/09 9.7, spec/16), and the notification ring they report to (R362). -/

namespace Sys2Proof.Machine

/-! ### Notifications (R362) -/

/-- The number after `x` in a sequence that runs from 1 to 2^32 - 1 and wraps to 1 (R362, R386, R320). -/
def nextSeq (x : Word) : Word := if x = BitVec.allOnes 32 then 1 else x + 1

/-- A saturating count. -/
def satInc (x : Word) : Word := if x = BitVec.allOnes 32 then x else x + 1

/-- The entries of the notification ring (Table 15.3). -/
def ringEntries (ctl : Word) : Nat := 2 ^ (6 + min 9 (ctl.extractLsb' 0 4).toNat)

/-- An event reported to the host (R362): an entry in the ring, then NQTAIL, then MSI-X; or NQLOST. -/
def notify (s : State) (type source : Nat) (data0 data1 : Dword) : State :=
  let h := s.hostIf
  if h.nqctl.getLsbD 31 = false ∨ (h.nqtail - h.nqhead).toNat = ringEntries h.nqctl then
    { s with hostIf := { h with nqlost := satInc h.nqlost } }
  else
    let seq := nextSeq h.nseq
    let addr := h.nqbase.toNat + 32 * (h.nqtail.toNat % ringEntries h.nqctl)
    let entry := natBytes 4 seq.toNat ++ natBytes 2 type ++ natBytes 2 source ++ natBytes 8 data0.toNat ++
      natBytes 8 data1.toNat ++ natBytes 8 0
    { s with
      hostMem := tsetMany 0 s.hostMem addr entry
      hostIf := { h with nseq := seq, nqtail := h.nqtail + 1 }
      out := s.out ++ [.msix (h.nqctl.extractLsb' 16 5).toNat] }

/-! ### Freezing a context (R342) -/

/-- A freeze event of a context (R342): the record and the notification of the first, the count of later ones. -/
def freezeCtx (s : State) (c : Nat) (reason : Nat) (low : Nat) (frz1 frz2 frz3 : Dword) : State :=
  let x := getContext s c
  if x.frozen then modContext s c (fun x => { x with later := if x.later = 255 then 255 else x.later + 1 })
  else
    let f0 := BitVec.ofNat 64 (reason * 2 ^ 56 + low)
    notify (modContext s c (fun x =>
      { x with frozen := true, reason := BitVec.ofNat 8 reason, later := 0, frz0 := f0, frz1 := frz1, frz2 := frz2,
               frz3 := frz3 })) 2 c f0 frz1

/-! ### The device physical address map (R358) and home slices (R269, R380) -/

/-- HBM4 addresses. -/
def inHbm (pa : Nat) : Bool := pa < 0x6000000000
/-- Capacity-tier addresses. -/
def inCapacity (pa : Nat) : Bool := 0x8000000000 ≤ pa && pa < 0xC000000000
/-- Addresses that hold device memory (R358). -/
def inDevice (pa : Nat) : Bool := inHbm pa || inCapacity pa

/-- The home slice of an address (R269). -/
def homeSlice (pa : Nat) : Nat := (bitsOf pa 20 12 + 32 * bitsOf pa 25 21) % 96
/-- The stack that serves an address (R269). -/
def stackOf (pa : Nat) : Nat := homeSlice pa / 16
/-- The pseudo-channel of its stack that serves a sector (R269, R380): one of the slice's ten. -/
def channelOf (pa : Nat) : Nat := 10 * (homeSlice pa % 16) + Config.channelOf (pa / 32) % 10

/-- Bytes of device memory. -/
def memBytes (s : State) (pa n : Nat) : List Byte := tgetMany 0 s.mem pa n

/-- The state with bytes of device memory written, host copies of their lines back-invalidated first (R359). -/
def memWrite (s : State) (pa : Nat) (bs : List Byte) : State :=
  { s with
    mem := tsetMany 0 s.mem pa bs
    hostIf := { s.hostIf with lines := s.hostIf.lines.filter (fun l => l != pa / 64) } }

/-! ### HBM4 array ECC and transfers (R381, R382, R386) -/

/-- A log entry written to a full or not full log, with its overflow bit (R386). -/
def logPush (cap : Nat) (log : List LogEntry) (lost : Bool) (e : LogEntry) : List LogEntry × Bool :=
  if log.length < cap then (log ++ [e], lost) else (log, true)

/-- The requester code of a cluster (Table 16.3). -/
abbrev whoDevice : Nat := 0xFE
/-- The requester code of the host or a peer (Table 16.3). -/
abbrev whoHost : Nat := 0xFF

/-- An array log entry (Table 16.3) with its counts and its notification (R386, R387). -/
def logArray (s : State) (pa who : Nat) (err : Nat) : State :=
  let k := stackOf pa
  let st := getStack s k
  let seq := nextSeq st.hseq
  let unc := decide (256 ≤ err)
  let w0 := BitVec.ofNat 64 (2 ^ 63 + (if unc then 2 else 1) * 2 ^ 61 + channelOf pa * 2 ^ 48 +
    pa % 2 ^ 40 / 32 * 32)
  let w1 := BitVec.ofNat 64 (seq.toNat * 2 ^ 32 + who * 2 ^ 24 + (if unc then 0xFF else err))
  let (log, lost) := logPush 16 st.halog st.arrayOverflow (w0, w1)
  let s := modStack s k (fun st =>
    { st with hseq := seq, halog := log, arrayOverflow := lost,
              hacorr := if unc then st.hacorr else satInc st.hacorr,
              haunc := if unc then satInc st.haunc else st.haunc })
  if st.halog.length < 16 ∧ (unc ∨ st.notify) then notify s 7 (0x1000 + k) w0 w1 else s

/-- The array read of a sector (R381): whether it is uncorrectable, logged if it is not clean. -/
def arrayCheck (s : State) (pa who : Nat) : Bool × State :=
  match tget none s.phys.cells (pa / 32) with
  | none => (false, s)
  | some e => (decide (256 ≤ e), logArray s pa who e)

/-- The lanes of a pseudo-channel that fail and that no spare carries (R384, Table 16.5). -/
def badLanes (s : State) (k pc : Nat) : List Nat :=
  let sw := (tget 0 (getStack s k).hswap pc).toNat
  (tget [] s.phys.lanes (160 * k + pc)).filter (fun l =>
    ¬ (sw.testBit 31 ∧ bitsOf sw 29 24 = l) ∧ ¬ (sw.testBit 23 ∧ bitsOf sw 21 16 = l))

/-- One attempt of a transfer (R382): whether it fails, and the environment's fact used up. -/
def attempt (s : State) (k pc sector : Nat) : Bool × State :=
  let n := tget 0 s.phys.xfers sector
  if n ≠ 0 then (true, { s with phys := { s.phys with xfers := tset 0 s.phys.xfers sector (n - 1) } })
  else (badLanes s k pc ≠ [], s)

/-- The state with the requester that a step acts for. -/
def askAs (s : State) (a : Asker) : State := { s with asker := a }

/-- The requester of the step waits at a pseudo-channel (R383). -/
def waitAt (s : State) (k pc : Nat) : State :=
  modStack s k (fun st =>
    { st with waiting := if st.waiting.contains (pc, s.asker) then st.waiting else st.waiting ++ [(pc, s.asker)] })

/-- Whether an operation's reads may be served by an L1 (R259). -/
def readsL1 : OpKind → Bool
  | .load _ _ _ | .loadRo _ _ | .loadK _ _ => true
  | _ => false

/-- The cluster for which a requester fills a sector (R259, R264): that of a load's access which has not ended. -/
def fillCluster (s : State) (a : Asker) : Option Nat :=
  match a with
  | .access n i =>
    match getOp s n with
    | some o =>
      if readsL1 o.kind && (match o.accs[i]? with | some x => !x.stage.over | none => false) then
        (getBlock s o.block).map blockCluster
      else none
    | none => none
  | _ => none

/-- The transfer of a sector that has been settled for the requester of the step. -/
def settledFor (s : State) (k sector : Nat) (write : Bool) : Option Settled :=
  (getStack s k).settled.find? (fun x => x.asker == s.asker && x.sector == sector && x.write == write)

/-- The transfer of a sector that has been settled for another load of the cluster that the step's requester fills the sector
for: one fill serves both, without a further read of the array (R264, R391). -/
def settledFill (s : State) (k sector : Nat) (write : Bool) : Option Settled :=
  if write then none
  else
    match fillCluster s s.asker with
    | none => none
    | some cl =>
      (getStack s k).settled.find? (fun x => x.sector == sector && !x.write && fillCluster s x.asker == some cl)

/-- The outcomes of an operation's transfers forgotten. -/
def forgetOp (s : State) (n : Nat) : State :=
  s.hbmStacks.foldl (fun s e => modStack s e.1 (fun st =>
    { st with settled := st.settled.filter (fun x => match x.asker with | .access m _ => m != n | _ => true) })) s

/-- The state in which a requester waits nowhere and has no transfer to its name that is settled. -/
def forgetAsker (s : State) (a : Asker) : State :=
  s.hbmStacks.foldl (fun s e => modStack s e.1 (fun st =>
    { st with settled := st.settled.filter (fun x => x.asker != a), waiting := st.waiting.filter (fun x => x.2 != a) })) s

/-- What a home slice answers to an access (R381 to R383): served clean; uncorrectable; failed by HREL; or it waits. -/
inductive Served where
  | clean | bad | failed | blocked
  deriving DecidableEq, Repr

/-- Whether nothing is known to be wrong with any transfer of a stack. -/
def quiet (s : State) (k sector : Nat) : Bool :=
  let st := getStack s k
  st.holds.isEmpty && st.xfers.isEmpty && st.settled.isEmpty && s.phys.lanes.isEmpty &&
    tget 0 s.phys.xfers sector == 0

/-- A settled transfer as an answer. -/
def Settled.served (x : Settled) : Served := if x.outcome = 1 then .clean else if x.outcome = 2 then .bad else .failed

/-- The array check and the first transfer of an access to a sector of HBM4, or the outcome of its own retries (R381 to
R383), or of those of another load whose fill serves this one too (R391). -/
def serveSector (s : State) (pa : Nat) (write needArray : Bool) (who : Nat) : Served × State :=
  let k := stackOf pa
  let sector := pa / 32
  let array (s : State) : Bool × State := if needArray then arrayCheck s pa who else (false, s)
  if quiet s k sector then
    let (bad, s) := array s
    (if bad then .bad else .clean, s)
  else
    let st := getStack s k
    let pc := channelOf pa
    match settledFor s k sector write with
    | some x => (x.served, modStack s k (fun st => { st with settled := st.settled.erase x }))
    | none =>
      match settledFill s k sector write with
      | some x => (x.served, s)
      | none =>
        if tget false st.holds pc = true ∨ tget none st.xfers pc ≠ none then (.blocked, waitAt s k pc)
        else
          let (bad, s) := array s
          let (fails, s) := attempt s k pc sector
          if fails then
            (.blocked, modStack (waitAt s k pc) k (fun st =>
              { st with xfers := tset none st.xfers pc (some { sector := sector, who := who, asker := s.asker,
                                                               write := write, tries := 0, bad := bad }) }))
          else (if bad then .bad else .clean, s)

/-- A transfer noted, the latest first, in a step that is traced. -/
def noteServe (e : Serve) (r : Served × State) : Served × State :=
  match r.2.serves with
  | none => r
  | some es => (r.1, { r.2 with serves := some (e :: es) })

/-- An access at its home slice (R381 to R383). The capacity tier has neither array check nor transfer. -/
def homeServe (s : State) (pa : Nat) (write needArray : Bool) (who : Nat) : Served × State :=
  if inHbm pa = false then (.clean, s)
  else
    noteServe { pa := pa, write := write, array := needArray, who := who, asker := s.asker }
      (serveSector s pa write needArray who)

/-! ### Steps that begin again (R382, R383)

A step that makes several accesses and must wait for one of them does nothing else, and is made again from its beginning; the
transfers that it has had are not made again: each requester keeps their outcomes, in order. DESIGN CHOICE, log 104. -/

/-- The state in which a step that may have to begin again starts. -/
def tracing (s : State) : State := { s with serves := some [] }

/-- The state after such a step. -/
def untraced (s : State) : State := { s with serves := none }

/-- A transfer asked for again from the state that its step began in, with the outcomes that requesters keep. A walk goes on
from where it stands, so that it keeps none. -/
def replayServe (r : List Settled × State) (e : Serve) : List Settled × State :=
  let keep (outcome : Nat) : List Settled :=
    match e.asker with
    | .walk _ _ _ => r.1
    | a => r.1 ++ [{ sector := e.pa / 32, asker := a, write := e.write, outcome := outcome }]
  match serveSector (askAs r.2 e.asker) e.pa e.write e.array e.who with
  | (.clean, s) => (keep 1, s)
  | (.bad, s) => (keep 2, s)
  | (.failed, s) => (keep 3, s)
  | (.blocked, s) => (r.1, s)

/-- Outcomes kept ahead of those that are kept already. -/
def keepServed (s : State) (xs : List Settled) : State :=
  xs.foldr (fun x s => modStack s (stackOf (x.sector * 32)) (fun st => { st with settled := x :: st.settled })) s

/-- Translations and walks of every cluster as another state has them. -/
def withWalks (s t : State) : State :=
  (s.clusters ++ t.clusters).foldl (fun s e =>
    modCluster s e.1 (fun c => { c with tlb := (getCluster t e.1).tlb, walks := (getCluster t e.1).walks })) s

/-- The outcomes that requesters keep in the order that an earlier state lists them in, where they are the same. -/
def orderServed (s t : State) : State :=
  s.hbmStacks.foldl (fun u e => modStack u e.1 (fun st =>
    if st.settled.isPerm e.2.settled then { st with settled := e.2.settled } else st)) t

/-- A step that began in `s` and has come, in `t`, to a wait: nothing of it is done but its transfers and its walks. -/
def beginAgain (s t : State) : State :=
  match (t.serves.getD []).reverse.foldl replayServe ([], s) with
  | (kept, u) => untraced (askAs (withWalks (orderServed s (keepServed u kept)) t) s.asker)

/-- What a read at a home slice gives. -/
inductive HomeData where
  | bytes (bs : List Byte)
  | bad
  | blocked
  deriving DecidableEq, Repr

/-- A read of bytes of one sector at its home slice. -/
def homeRead (s : State) (pa n who : Nat) : HomeData × State :=
  match homeServe s pa false true who with
  | (.clean, s) => (.bytes (memBytes s pa n), s)
  | (.bad, s) => (.bad, s)
  | (.failed, s) => (.bad, s)
  | (.blocked, s) => (.blocked, s)

/-- The cells of a sector after a write (R381): a whole write replaces them; a partial write of a corrected sector
rewrites it; an uncorrectable sector stays marked until a write covers it whole. -/
def cellsAfterWrite (s : State) (sector : Nat) (whole : Bool) : State :=
  match tget none s.phys.cells sector with
  | none => s
  | some e =>
    if whole ∨ e < 256 then { s with phys := { s.phys with cells := tset none s.phys.cells sector none } } else s

/-- A write of bytes of one sector at its home slice: `clean` when performed, `failed` when HREL failed it. -/
def homeWrite (s : State) (pa : Nat) (bs : List Byte) (who : Nat) : Served × State :=
  let whole := decide (bs.length = 32)
  match homeServe s pa true (!whole) who with
  | (.failed, s) => (.failed, s)
  | (.blocked, s) => (.blocked, s)
  | (_, s) => (.clean, cellsAfterWrite (memWrite s pa bs) (pa / 32) whole)

/-- Dirty bytes of a sector written back (R264) by the device: performed, or waiting at their home slice (R382). A write-back
that HREL failed is lost, and the context of its line freezes (R383, R385): DEDUCED, log 103. -/
def writeBackBytes (s : State) (b : Back) : State :=
  let was := s.asker
  let whole := decide (b.mask = BitVec.allOnes 32)
  match homeServe (askAs s .back) (b.sector * 32) true (!whole) whoDevice with
  | (.blocked, s) => askAs { s with backs := s.backs ++ [b] } was
  | (.failed, s) => freezeCtx (askAs s was) b.ctx 7 0 0 0 0
  | (_, s) =>
    let s := (List.range 32).foldl (fun s i =>
      if b.mask.getLsbD i then memWrite s (b.sector * 32 + i) [b.data.getD i 0] else s) (askAs s was)
    cellsAfterWrite s b.sector whole

/-- The write-backs that wait at their home slices, tried in their order. -/
def drainBacks (s : State) : State := s.backs.foldl writeBackBytes { s with backs := [] }

/-! ### Stacked SRAM (R388 to R390) -/

/-- The health of a bank: 0 good, 1 erased, 2 retired. -/
def healthOf (h : Dword) (i : Nat) : Nat := bitsOf h.toNat (2 * i + 1) (2 * i)

/-- The key of a stacked SRAM sector in the environment's facts. -/
abbrev sramKey (cl bank off : Nat) : Nat := (cl * 18 + bank) * 2 ^ 15 + off % 2 ^ 20 / 32

/-- A stacked SRAM log entry (Table 16.6) with its counts and its notification (R386, R387). -/
def logSram (s : State) (cl kind bank pa off symbols : Nat) : State :=
  let c := getCluster s cl
  let seq := nextSeq c.seseq
  let mode := bankModeOf c.cbmode bank
  let w0 := BitVec.ofNat 64 (2 ^ 63 + kind * 2 ^ 60 + bank * 2 ^ 51 +
    (if mode = 0 ∧ bank < 16 then pa % 2 ^ 40 / 2 ^ 20 * 2 ^ 20 else 0) + off % 2 ^ 20 / 32 * 32)
  let w1 := BitVec.ofNat 64 (seq.toNat * 2 ^ 32 + mode * 2 ^ 24 + symbols * 2 ^ 16)
  let (log, lost) := logPush 8 c.selog c.overflow (w0, w1)
  let s := modCluster s cl (fun c => { c with seseq := seq, selog := log, overflow := lost })
  if c.selog.length < 8 ∧ (kind ≠ 1 ∨ c.notify) then notify s 7 (0x3000 + cl) w0 w1 else s

/-- What a stacked SRAM sector reads as (R388): delivered as it is stored, corrected (kind 1); reconstructed from the stripe,
with the symbols that were unknown, and whether the sector itself was one of them beside the erased banks (kind 2); or
uncorrectable (kind 3). -/
inductive SramFound where
  | stored (corrected : Bool)
  | rebuilt (symbols : Nat) (logged : Bool)
  | lost
  deriving DecidableEq, Repr

/-- The check of a stacked SRAM sector (R388). -/
def sramCheck (s : State) (cl bank off : Nat) : SramFound :=
  let c := getCluster s cl
  if s.phys.sram.isEmpty && c.cbhealth == 0 then .stored false
  else
    let erased := (List.range 18).filter (fun i => healthOf c.cbhealth i == 1)
    let double := (List.range 18).filter (fun i =>
      healthOf c.cbhealth i != 2 && tget 0 s.phys.sram (sramKey cl i off) == 2)
    let mine := tget 0 s.phys.sram (sramKey cl bank off)
    let unknown := (erased ++ double).eraseDups
    if ¬ (bank ∈ erased) ∧ mine ≠ 2 then .stored (mine == 1)
    else if unknown.length ≤ 2 then .rebuilt unknown.length (mine == 2 && !erased.contains bank)
    else .lost

/-- A read of a stacked SRAM sector (R388): whether it is deliverable, with its entry and counts. `pa` is the physical
address for a CACHE bank; `kind` is the entry of an uncorrectable one: 3, or 4 for dirty data lost (R390). -/
def sramReadAs (s : State) (cl bank pa off kind : Nat) : Bool × State :=
  match sramCheck s cl bank off with
  | .stored false => (true, s)
  | .stored true =>
    (true, logSram (modCluster s cl (fun c => { c with secorr := satInc c.secorr })) cl 1 bank pa off 0)
  | .rebuilt n logged =>
    let s := modCluster s cl (fun c => { c with serec := satInc c.serec })
    (true, if logged then logSram s cl 2 bank pa off n else s)
  | .lost => (false, logSram (modCluster s cl (fun c => { c with seunc := satInc c.seunc })) cl kind bank pa off 0)

/-- A read of a stacked SRAM sector whose data are delivered (R388). -/
def sramRead (s : State) (cl bank pa off : Nat) : Bool × State := sramReadAs s cl bank pa off 3

/-- The environment's facts after a stacked SRAM sector is written (R388): the old data sector is read, with its entry and
counts; then the sector's code and both check sectors of its stripe are written afresh. Where the old sector cannot be delivered,
a write of a part of it leaves it as it is found: DEDUCED, log 106. -/
def sramWrite (s : State) (cl bank pa off : Nat) (whole : Bool) : State :=
  let (ok, s) := sramRead s cl bank pa off
  if s.phys.sram.isEmpty || (!ok && !whole) then s
  else
    let clear (t : Table Nat) (b : Nat) : Table Nat := tset 0 t (sramKey cl b off) 0
    { s with phys := { s.phys with sram := clear (clear (clear s.phys.sram bank) 16) 17 } }

/-! ### The cluster L2 (R263 to R266) -/

/-- The set of a physical address (R263). -/
def l2Set (pa : Nat) : Nat := bitsOf pa 19 7

/-- The key of a way (its bank) and a set. -/
abbrev l2Key (bank set : Nat) : Nat := bank * 8192 + set

/-- The line that holds an address in a cluster's L2, with its bank. -/
def l2Find (s : State) (cl pa : Nat) : Option (Nat × L2Line) :=
  let c := getCluster s cl
  (banksIn c.cbmode 0).findSome? (fun bank =>
    match tget none c.l2 (l2Key bank (l2Set pa)) with
    | some l => if l.tag = pa / 2 ^ 20 then some (bank, l) else none
    | none => none)

/-- The sector of a line that holds an address. -/
def l2SectorOf (l : L2Line) (pa : Nat) : Option L2Sector := tget none l.sectors (pa / 32 % 4)

/-- The state with a line set or removed. -/
def setL2 (s : State) (cl bank set : Nat) (l : Option L2Line) : State :=
  modCluster s cl (fun c => { c with l2 := tset none c.l2 (l2Key bank set) l })

/-- The use bits of a set after a way is filled or hit (R266). -/
def l2Touch (s : State) (cl bank set : Nat) : State :=
  let c := getCluster s cl
  let ways := banksIn c.cbmode 0
  let usedAfter := ways.all (fun w => w == bank ||
    (match tget none c.l2 (l2Key w set) with | some l => l.used | none => false))
  ways.foldl (fun s w =>
    match tget none (getCluster s cl).l2 (l2Key w set) with
    | some l => setL2 s cl w set (some { l with used := if w = bank then true else if usedAfter then false else l.used })
    | none => s) s

/-- The sector's address within a line. -/
abbrev lineSector (tag set i : Nat) : Nat := tag * 2 ^ 15 + set * 4 + i

/-- The dirty bytes of one sector of a line written back (R264), with the sector that stays: clean, or none where it is
uncorrectable, whose dirty bytes are dropped (R390). -/
def writeBackSector (s : State) (cl bank set : Nat) (l : L2Line) (i : Nat) : Option L2Sector × State :=
  match tget none l.sectors i with
  | none => (none, s)
  | some x =>
    if x.dirty = 0 then (some x, s)
    else
      let sec := lineSector l.tag set i
      match sramReadAs s cl bank (sec * 32) (sec * 32) 4 with
      | (true, s) =>
        (some { x with dirty := 0 },
          writeBackBytes s { cluster := cl, ctx := l.ctx, sector := sec, data := x.data, mask := x.dirty })
      | (false, s) => (none, s)

/-- A line with its sectors written back, and the state that leaves. -/
def cleanSectors (s : State) (cl bank set : Nat) (l : L2Line) : L2Line × State :=
  (List.range 4).foldl (fun r i =>
    let (x, s) := writeBackSector r.2 cl bank set l i
    ({ r.1 with sectors := tset none r.1.sectors i x }, s)) (l, s)

/-- A line written back and kept clean, or removed. -/
def writeBackLine (s : State) (cl bank set : Nat) (l : L2Line) (keep : Bool) : State :=
  let (x, s) := cleanSectors s cl bank set l
  setL2 s cl bank set (if keep then some x else none)

/-- Every line of a cluster's L2 for which a condition holds, written back and kept or removed. -/
def writeBackWhere (s : State) (cl : Nat) (p : Nat → L2Line → Bool) (keep : Bool) : State :=
  (getCluster s cl).l2.foldl (fun s e =>
    match e.2 with
    | some l => if p (e.1 / 8192) l then writeBackLine s cl (e.1 / 8192) (e.1 % 8192) l keep else s
    | none => s) s

/-- The way that a fill replaces (R266). -/
def l2Victim (c : Cluster) (set : Nat) : Option Nat :=
  let ways := openWays c
  match ways.find? (fun w => tget none c.l2 (l2Key w set) == none) with
  | some w => some w
  | none =>
    let lines := ways.filterMap (fun w => (tget none c.l2 (l2Key w set)).map (fun l => (w, l)))
    let cand := if lines.any (fun e => !e.2.used) then lines.filter (fun e => !e.2.used) else lines
    let top := cand.foldl (fun m e => max m e.2.pclass) 0
    (cand.find? (fun e => e.2.pclass == top)).map (fun e => e.1)

/-- The line of an address, allocated if absent: the victim is written back and replaced (R266). A shared line of an
older generation starts empty with the current one (R265). `none` when the cluster has no CACHE bank. -/
def l2Alloc (s : State) (cl ctx pa pclass : Nat) (shared : Bool) : Option (Nat × L2Line) × State :=
  let c := getCluster s cl
  let set := l2Set pa
  match l2Find s cl pa with
  | some (bank, l) =>
    (some (bank, if l.shared && l.gen != c.gen then { l with sectors := [], gen := c.gen, shared := shared, ctx := ctx }
      else { l with shared := shared, ctx := ctx }), s)
  | none =>
    match l2Victim c set with
    | none => (none, s)
    | some bank =>
      let s := match tget none c.l2 (l2Key bank set) with
        | some old => writeBackLine s cl bank set old false
        | none => s
      (some (bank, { tag := pa / 2 ^ 20, used := false, pclass := pclass, shared := shared, gen := c.gen, ctx := ctx }), s)

/-- The mask of `n` bytes from an offset of a sector. -/
def byteMask (off n : Nat) : BitVec 32 := BitVec.ofNat 32 ((2 ^ n - 1) * 2 ^ off)

/-- A sector's bytes with some overwritten. -/
def overlay (data : List Byte) (off : Nat) (bs : List Byte) : List Byte :=
  (List.range 32).map (fun i => if off ≤ i ∧ i < off + bs.length then bs.getD (i - off) 0 else data.getD i 0)

/-- The sector with the bytes that it holds kept and the others filled (R264). -/
def fillSector (old : Option L2Sector) (data : List Byte) : L2Sector :=
  match old with
  | none => { data := data, held := BitVec.allOnes 32, dirty := 0 }
  | some x =>
    { data := (List.range 32).map (fun i => if x.held.getLsbD i then x.data.getD i 0 else data.getD i 0)
      held := BitVec.allOnes 32, dirty := x.dirty }

/-- A fill of the L2 from a home slice (R264 to R266). -/
def l2Fill (s : State) (cl ctx pa pclass : Nat) (shared : Bool) (data : List Byte) : State :=
  match l2Alloc s cl ctx pa pclass shared with
  | (none, s) => s
  | (some (bank, l), s) =>
    let x := fillSector (l2SectorOf l pa) data
    let s := setL2 s cl bank (l2Set pa) (some { l with sectors := tset none l.sectors (pa / 32 % 4) (some x) })
    l2Touch (sramWrite s cl bank pa pa true) cl bank (l2Set pa)

/-- A store to a local page in the L2 (R264): the sector is allocated without reading memory, its bytes dirty.
`false` when the cluster has no CACHE bank (R263). -/
def l2StoreLocal (s : State) (cl ctx pa pclass : Nat) (bs : List Byte) : Bool × State :=
  match l2Alloc s cl ctx pa pclass false with
  | (none, s) => (false, s)
  | (some (bank, l), s) =>
    let m := byteMask (pa % 32) bs.length
    let x := match l2SectorOf l pa with
      | some x => { data := overlay x.data (pa % 32) bs, held := x.held ||| m, dirty := x.dirty ||| m }
      | none => { data := overlay [] (pa % 32) bs, held := m, dirty := m }
    let s := setL2 s cl bank (l2Set pa) (some { l with sectors := tset none l.sectors (pa / 32 % 4) (some x) })
    (true, l2Touch (sramWrite s cl bank pa pa (bs.length == 32)) cl bank (l2Set pa))

/-- A sector's held bytes overwritten from an offset; bytes that are not held stay absent. -/
def overlayHeld (x : L2Sector) (off : Nat) (bs : List Byte) : L2Sector :=
  { x with data := (List.range 32).map (fun i =>
      if off ≤ i ∧ i < off + bs.length ∧ x.held.getLsbD i = true then bs.getD (i - off) 0 else x.data.getD i 0) }

/-- A store to a shared page writes the bytes that the L2 holds, a hit (R264, R266). -/
def l2WriteThrough (s : State) (cl pa : Nat) (bs : List Byte) : State :=
  match l2Find s cl pa with
  | none => s
  | some (bank, l) =>
    match l2SectorOf l pa with
    | none => s
    | some x =>
      let x := overlayHeld x (pa % 32) bs
      let s := setL2 s cl bank (l2Set pa) (some { l with sectors := tset none l.sectors (pa / 32 % 4) (some x) })
      l2Touch (sramWrite s cl bank pa pa (bs.length == 32)) cl bank (l2Set pa)

/-- What a read finds in the L2: the bytes, an uncorrectable sector, or a miss; a sector of which only some bytes are held is to
be filled (R264). -/
def l2Read (s : State) (cl pa n : Nat) : Option HomeData × State :=
  match l2Find s cl pa with
  | none => (none, s)
  | some (bank, l) =>
    if l.shared && l.gen != (getCluster s cl).gen then (none, s)
    else
      match l2SectorOf l pa with
      | none => (none, s)
      | some x =>
        if x.held ≠ BitVec.allOnes 32 then (none, s)
        else
          let (ok, s) := sramRead s cl bank pa pa
          (some (if ok then .bytes ((x.data.drop (pa % 32)).take n) else .bad), l2Touch s cl bank (l2Set pa))

/-- The sector of an address written back and removed, before a device-scope atomic or engine access (R264). -/
def l2Purge (s : State) (cl pa : Nat) : State :=
  match l2Find s cl pa with
  | none => s
  | some (bank, l) =>
    let s := (writeBackSector s cl bank (l2Set pa) l (pa / 32 % 4)).2
    setL2 s cl bank (l2Set pa) (some { l with sectors := tset none l.sectors (pa / 32 % 4) none })

/-! ### L1 data caches (R259 to R261) -/

/-- The set of a virtual address (spec/09 9.3). -/
def l1Set (va : Nat) : Nat := bitsOf va 13 7

/-- The sector of an L1 that serves a read: an ordinary one, or for LDRO a read-only one of its launch first. -/
def l1Find (c : Core) (ctx va : Nat) (ro : Option Nat) : Option L1Sector :=
  match c.l1.find? (fun x => x.ctx == ctx && x.va == va / 32 * 32 && x.ro == ro && ro != none) with
  | some x => some x
  | none => c.l1.find? (fun x => x.ctx == ctx && x.va == va / 32 * 32 && x.ro == none)

/-- The lines held in a set of an L1, by context, line address and launch. -/
def l1Lines (c : Core) (set : Nat) : List (Nat × Nat × Option Nat) :=
  ((c.l1.filter (fun x => l1Set x.va == set)).map (fun x => (x.ctx, x.va / 128, x.ro))).eraseDups

/-- An L1 without the sectors of a line. -/
def l1DropLine (c : Core) (k : Nat × Nat × Option Nat) : Core :=
  { c with l1 := c.l1.filter (fun x => (x.ctx, x.va / 128, x.ro) != k) }

/-- A fill of an L1 (R259): other names of the physical sector leave the cluster's L1s first (R260), but read-only lines,
which leave only as R261 says; when the set's
four ways hold other lines, a free choice of line is replaced. -/
def l1Fill (s : State) (core ctx va pa : Nat) (ro : Option Nat) (data : List Byte) : State :=
  let va := va / 32 * 32
  let pa := pa / 32 * 32
  let cl := clusterOf core
  let s := (List.range 8).foldl (fun s i => modCore s (8 * cl + i) (fun c =>
    { c with l1 := c.l1.filter (fun x => ¬ (x.pa = pa ∧ x.ro = none ∧ (x.ctx ≠ ctx ∨ x.va ≠ va))) })) s
  let key := (ctx, va / 128, ro)
  let lines := l1Lines (getCore s core) (l1Set va)
  let (victim, s) := if key ∈ lines ∨ lines.length < 4 then (none, s)
    else let (n, s) := draw s; (lines[n % lines.length]?, s)
  modCore s core (fun c =>
    let c := match victim with | some k => l1DropLine c k | none => c
    { c with l1 := c.l1.filter (fun x => ¬ (x.ctx = ctx ∧ x.va = va ∧ x.ro = ro)) ++
        [{ ctx := ctx, va := va, pa := pa, ro := ro, data := data }] })

/-- A store writes the bytes that its core's L1 holds (R259), read-only lines too (R261), under whatever name it holds
them (R260). -/
def l1Store (s : State) (core pa : Nat) (bs : List Byte) : State :=
  modCore s core (fun c => { c with l1 := c.l1.map (fun x =>
    if x.pa = pa / 32 * 32 then { x with data := overlay x.data (pa % 32) bs } else x) })

/-- The physical sector of an address removed from a core's L1, before an atomic of the core (R259); read-only lines stay. -/
def l1Remove (s : State) (core pa : Nat) : State :=
  modCore s core (fun c => { c with l1 := c.l1.filter (fun x => ¬ (x.pa = pa / 32 * 32 ∧ x.ro = none)) })

/-- Bytes that a read of a core has taken past its L1, put into what the L1 holds of them, read-only lines apart: no later read
of the thread may return older ones (R283). DEDUCED, log 107. -/
def l1Refresh (s : State) (core pa : Nat) (bs : List Byte) : State :=
  modCore s core (fun c => { c with l1 := c.l1.map (fun x =>
    if x.pa = pa / 32 * 32 ∧ x.ro = none then { x with data := overlay x.data (pa % 32) bs } else x) })

/-- Every line of a core's L1 invalidated but the read-only ones (R145, R148, R261). -/
def l1Invalidate (s : State) (core : Nat) : State :=
  modCore s core (fun c => { c with l1 := c.l1.filter (fun x => x.ro != none) })

/-- The lines of a core's L1 that an engine command wrote, removed (R147), read-only ones too (R261). -/
def l1DropPhysical (s : State) (core pa : Nat) : State :=
  modCore s core (fun c => { c with l1 := c.l1.filter (fun x => x.pa / 128 != pa / 128) })

/-- The shared-line generation of a cluster advanced (R265): at the wrap every shared line is invalidated. -/
def advanceGeneration (s : State) (cl : Nat) : State :=
  modCluster s cl (fun c =>
    { c with
      gen := c.gen + 1
      l2 := if c.gen + 1 = 0 then c.l2.filter (fun e =>
              match e.2 with | some l => !l.shared | none => false) else c.l2 })

end Sys2Proof.Machine
end

