-- ==== Sys2Proof/Machine/Peers.lean ====
section
/-! DEFINITION. Other devices of the pod: ports and sequence numbers (R366), the export table (R365), and how this device
reads and writes another's memory (R364 to R368, R385); and the host's memory as the device reaches it (R361, R368). -/

namespace Sys2Proof.Machine

/-! ### Peers and the export table (R364 to R368) -/

/-- What a read, write or atomic is answered with. -/
inductive Reply where
  | bytes (bs : List Byte)
  /-- Uncorrectable data (R385). -/
  | bad
  /-- A write failed by HREL: acknowledged, not performed (R383). -/
  | failed
  /-- It waits at the home slice (R382, R383) or for a port. -/
  | blocked
  /-- It cannot be carried out, for a reason of Table 15.7. -/
  | unreachable (reason : Nat)
  deriving DecidableEq, Repr

/-- The up ports of the device, rising (R366). -/
def upPorts (s : State) : List Nat := (List.range 18).filter (fun p => s.link.ports.getLsbD p)

/-- The port that a request to a device at an export address leaves on (R366). -/
def firstPort (s : State) (dest ea : Nat) : Option Nat :=
  let u := upPorts s
  u[(dest + bitsOf ea 25 12) % u.length]?

/-- A peer as this device can see it. -/
def peerOf (s : State) (d : Nat) : Option Peer := tget none s.link.peers d

/-- The state with a peer set. -/
def setPeer (s : State) (d : Nat) (p : Option Peer) : State :=
  { s with link := { s.link with peers := tset none s.link.peers d p } }

/-- Whether a port is up here and at the destination. -/
def portReaches (s : State) (dest port : Nat) : Bool :=
  s.link.ports.getLsbD port && (match peerOf s dest with | some p => p.ports.getLsbD port | none => false)

/-- The next port of U after one, in rising order and wrapping, that reaches the destination (R366). -/
def nextPort (s : State) (dest port : Nat) : Option Nat :=
  let u := upPorts s
  (u.filter (fun p => port < p) ++ u.filter (fun p => p ≤ port)).find? (portReaches s dest)

/-- The destination device of a peer leaf, and the export address of a virtual address under it (R364). -/
def peerDest (l : Leaf) : Nat := bitsOf l.page 46 37
/-- The export address that an address under a peer leaf names. -/
def peerAddress (l : Leaf) (va : Nat) : Nat := bitsOf l.page 36 21 * 2 ^ 21 + va % 2 ^ 21

/-- What a request needs of an export entry (R365): bit 62 read, 61 write, 60 atomic. -/
inductive PeerNeed where
  | read | write | atomic
  deriving DecidableEq, Repr

/-- The bit of an export entry for a permission. -/
def PeerNeed.bit : PeerNeed → Nat
  | .read => 62
  | .write => 61
  | .atomic => 60

/-- The checks of R365 in their order: the HBM4 address, or the reason of the first that fails. `entry` reads an export
entry; `marked` tells the pages that are window-owned. -/
def exportCheck (cnt : Nat) (entry : Nat → Nat) (marked : Nat → Bool) (ea key : Nat) (need : PeerNeed) : Except Nat Nat :=
  let i := ea / 2 ^ 21
  let e := entry i
  let pa := bitsOf e 47 21 * 2 ^ 21 + ea % 2 ^ 21
  if cnt ≤ i then .error 2
  else if e.testBit 63 = false ∨ bitsOf e 59 48 ≠ 0 ∨ bitsOf e 20 16 ≠ 0 ∨ inHbm pa = false then .error 2
  else if e.testBit need.bit = false then .error 3
  else if bitsOf e 15 0 ≠ 0 ∧ bitsOf e 15 0 ≠ key then .error 4
  else if marked (pa / 2 ^ 21) then .error 5
  else .ok pa

/-- PEXCNT as the device uses it (Table 15.6). -/
def exportCount (w : Word) : Nat := min w.toNat 65536

/-- What the checks of a request give: the HBM4 address; a refusal; or a wait for the export entry's read (R382). -/
inductive Export where
  | ok (pa : Nat)
  | refused (reason : Nat)
  | blocked
  deriving DecidableEq, Repr

/-- The checks of a request as an answer. -/
def exportAnswer : Except Nat Nat → Export
  | .ok pa => .ok pa
  | .error r => .refused r

/-- The checks of a request under a table of this device, whose export entry is read at its home slice (R381). An entry that
is uncorrectable counts as not valid: DESIGN CHOICE, log 85. -/
def exportAt (s : State) (base : Dword) (pexcnt : Word) (ea key : Nat) (need : PeerNeed) : Export × State :=
  let cnt := exportCount pexcnt
  let at_ := base.toNat + 8 * (ea / 2 ^ 21)
  let check (e : Nat) (s : State) : Export :=
    exportAnswer (exportCheck cnt (fun _ => e) (fun p => s.hostIf.marked.contains p) ea key need)
  if cnt ≤ ea / 2 ^ 21 ∨ inDevice at_ = false then (check 0 s, s)
  else
    match homeRead s at_ 8 whoHost with
    | (.bytes bs, s) => (check (leNat bs) s, s)
    | (.bad, s) => (check 0 s, s)
    | (.blocked, s) => (.blocked, s)

/-- The checks of a request that arrives now. -/
def ownExport (s : State) (ea key : Nat) (need : PeerNeed) : Export × State :=
  exportAt s s.link.pexbase s.link.pexcnt ea key need

/-- The checks of a request at another device. -/
def peerExport (p : Peer) (ea key : Nat) (need : PeerNeed) : Except Nat Nat :=
  exportCheck (min p.pexcnt 65536) (fun i => leNat (tgetMany 0 p.mem (p.pexbase + 8 * i) 8)) (fun q => p.marked.contains q)
    ea key need

/-- The HBM4 address that an export address of this device's own table names, as the table now stands, whatever its entry
permits; `none` where no valid entry does. -/
def exportPlace (s : State) (ea : Nat) : Option Nat :=
  let e := leNat (memBytes s (s.link.pexbase.toNat + 8 * (ea / 2 ^ 21)) 8)
  if exportCount s.link.pexcnt ≤ ea / 2 ^ 21 ∨ e.testBit 63 = false then none
  else some (bitsOf e 47 21 * 2 ^ 21 + ea % 2 ^ 21)

/-- The key sent with every request (PKEY). -/
def ownKey (s : State) : Nat := bitsOf s.link.pkey.toNat 15 0

/-- The number of this device. -/
def ownNumber (s : State) : Nat := bitsOf s.link.uadev.toNat 9 0

/-- Notification type 6: a host or peer access refused (Table 15.5). -/
def refusedAccess (s : State) (who addr reason : Nat) : State :=
  notify s 6 who (BitVec.ofNat 64 addr) (BitVec.ofNat 64 reason)

/-- Whether a number names this device (R367). -/
def isSelf (s : State) (dest : Nat) : Bool := dest == ownNumber s && s.link.uadev.getLsbD 31

/-- A request to this device's own number, checked and performed by a home slice. -/
def selfRequest (s : State) (dest ea : Nat) (need : PeerNeed) (f : State → Nat → Reply × State) : Reply × State :=
  match ownExport s ea (ownKey s) need with
  | (.refused r, s) => (.unreachable r, refusedAccess s dest ea r)
  | (.blocked, s) => (.blocked, s)
  | (.ok pa, s) => f s pa

/-- A request performed at another device, under its checks. -/
def farRequest (s : State) (dest ea : Nat) (need : PeerNeed) (f : Peer → Nat → Reply × State) : Reply × State :=
  match peerOf s dest with
  | none => (.unreachable 1, s)
  | some p =>
    match peerExport p ea (ownKey s) need with
    | .error r => (.unreachable r, s)
    | .ok pa => f p pa

/-- Whether bytes of a peer's memory are uncorrectable (R385). -/
def peerBad (p : Peer) (pa n : Nat) : Bool := p.bad.any (fun k => decide (k * 32 < pa + n ∧ pa < k * 32 + 32))

/-- A home read as an answer. -/
def homeReply : HomeData × State → Reply × State
  | (.bytes bs, s) => (.bytes bs, s)
  | (.bad, s) => (.bad, s)
  | (.blocked, s) => (.blocked, s)

/-- A home write as an answer. -/
def writeReply : Served × State → Reply × State
  | (.blocked, s) => (.blocked, s)
  | (.failed, s) => (.failed, s)
  | (_, s) => (.bytes [], s)

/-- A read of a peer's memory, performed at its destination. -/
def peerRead (s : State) (dest ea n : Nat) : Reply × State :=
  if 576 ≤ dest then (.unreachable 6, s)
  else if isSelf s dest then selfRequest s dest ea .read (fun s pa => homeReply (homeRead s pa n whoHost))
  else farRequest s dest ea .read (fun p pa =>
    (if peerBad p pa n then .bad else .bytes (tgetMany 0 p.mem pa n), s))

/-- A write of a peer's memory, performed at its destination. A write that covers an uncorrectable sector whole renews it. -/
def peerWrite (s : State) (dest ea : Nat) (bs : List Byte) : Reply × State :=
  if 576 ≤ dest then (.unreachable 6, s)
  else if isSelf s dest then selfRequest s dest ea .write (fun s pa => writeReply (homeWrite s pa bs whoHost))
  else farRequest s dest ea .write (fun p pa =>
    (.bytes [], setPeer s dest (some { p with
      mem := tsetMany 0 p.mem pa bs
      bad := p.bad.filter (fun k => ¬ (pa ≤ k * 32 ∧ k * 32 + 32 ≤ pa + bs.length)) })))

/-- A request that a unit of the device makes in one step leaves with the next sequence number of its pair, on its port or on
one that the destination is reached by; `none` where no up port reaches it (R366). -/
def peerLeave (s : State) (dest ea : Nat) : Option State :=
  if isSelf s dest then some s
  else
    match firstPort s dest ea with
    | none => none
    | some p =>
      if portReaches s dest p = true ∨ (nextPort s dest p).isSome = true then
        some { s with link := { s.link with sent := tset 0 s.link.sent dest (tget 0 s.link.sent dest + 1) } }
      else none

/-- A request that leaves and is performed in one step. -/
def peerSend (s : State) (dest ea : Nat) (f : State → Reply × State) : Reply × State :=
  if 576 ≤ dest then (.unreachable 6, s)
  else
    match peerLeave s dest ea with
    | none => (.unreachable 1, s)
    | some s => f s

/-! ### Host memory (R361, R368) -/

/-- Whether the host answers an access to its memory with an error (Table 15.7, reason 8). -/
def hostFails (s : State) (pa n : Nat) : Bool :=
  s.phys.host.any (fun k => decide (k * 32 < pa + n ∧ pa < k * 32 + 32))

/-- The host's answer to a read of host memory (R361, R368). -/
def hostRead (s : State) (pa n : Nat) : Reply :=
  if hostFails s pa n then .unreachable 8 else .bytes (tgetMany 0 s.hostMem pa n)

/-- A write of host memory (R361, R368). -/
def hostWrite (s : State) (pa : Nat) (bs : List Byte) : Reply × State :=
  if hostFails s pa bs.length then (.unreachable 8, s)
  else (.bytes [], { s with hostMem := tsetMany 0 s.hostMem pa bs })

end Sys2Proof.Machine
end

