-- ==== Sys2Proof/Machine/Errand.lean ====
section
/-! DEFINITION. Errands: several reads and writes of memory that the device makes as one step (R224, R227, R232, R307, R308,
R325). Where a home slice keeps one of them waiting (R382, R383), nothing of the errand is done but the transfers it has had, and it
is made again from its beginning: DESIGN CHOICE, log 104. -/

namespace Sys2Proof.Machine

/-- How an errand stops: it fails, with the state it leaves; or it waits at a home slice, in the state it has come to. -/
inductive ErrandStop where
  | failed (s : State)
  | waits (s : State)

/-- An errand. -/
abbrev Errand (α : Type) := StateT State (Except ErrandStop) α

/-- An errand that fails. -/
def Errand.fail {α : Type} : Errand α := fun s => .error (.failed s)

/-- An errand that waits for something other than a home slice. -/
def Errand.wait {α : Type} : Errand α := fun s => .error (.waits s)

/-- An errand whose failure is an answer. -/
def Errand.attempt {α : Type} (f : Errand α) : Errand (Option α) := fun s =>
  match f s with
  | .ok (x, s) => .ok (some x, s)
  | .error (.failed s) => .ok (none, s)
  | .error (.waits s) => .error (.waits s)

/-- The next free value. -/
def Errand.free : Errand Nat := fun s => .ok (draw s)

/-- A question to memory: its bytes, or a wait; every other answer is a failure. -/
def Errand.ask (f : State → Reply × State) : Errand (List Byte) := fun s =>
  match f s with
  | (.bytes bs, s) => .ok (bs, s)
  | (.blocked, s) => .error (.waits s)
  | (_, s) => .error (.failed s)

/-- What an errand comes to. -/
inductive ErrandEnd (α : Type) where
  | done (x : α) (s : State)
  | failed (s : State)
  | waits (s : State)

/-- An errand run for a requester: as one step, or, where it waits, nothing of it but its transfers. -/
def runErrand {α : Type} (who : Asker) (f : Errand α) (s : State) : ErrandEnd α :=
  match f (tracing (askAs s who)) with
  | .ok (x, t) => .done x (untraced (forgetAsker (askAs t s.asker) who))
  | .error (.failed t) => .failed (untraced (forgetAsker (askAs t s.asker) who))
  | .error (.waits t) => .waits (beginAgain s t)

end Sys2Proof.Machine
end

