-- ==== Sys2Proof/Machine/Translate.lean ====
section
/-! DEFINITION. The four spaces and their extents (R133, R252), the page-table walk (R341, R358), the cluster TLB (R257),
sectors read through a cluster's L2, stores that their cluster has before their home (R286), and the fetch of code words
(R258, R90). -/

namespace Sys2Proof.Machine

/-! ### Spaces and windows (R133, R252, R253) -/

/-- What an address of a space names. -/
inductive Target where
  /-- A translated address. -/
  | virtual (va : Nat)
  /-- A byte of the block's local store, scratch window or links. -/
  | lstore (o : Nat)
  | scratch (o : Nat)
  | linkIn (o : Nat)
  | linkOut (o : Nat)
  /-- A byte of the launch's const section. -/
  | const (o : Nat)
  /-- Nothing: not canonical, or in no window of the region. -/
  | nothing
  deriving DecidableEq, Repr

/-- Whether a generic address is canonical (Table 5.1). -/
def canonical (va : Nat) : Bool := va / 2 ^ 57 == (if va.testBit 56 then 127 else 0)

/-- What an exact address names (R7, R133, R252): space 0 generic, 1 local, 2 scratch, 3 const. One below 0 or beyond 64 bits lies
in no space. -/
def targetOf (space : Nat) (va : Int) : Target :=
  if va < 0 ∨ 2 ^ 64 ≤ va then .nothing
  else
  let a := va.toNat
  match space with
  | 1 => .lstore a
  | 2 => .scratch a
  | 3 => .const a
  | _ =>
    if a / 2 ^ 40 = 0xFF0000 then
      match bitsOf a 39 32 with
      | 0 => .lstore (a % 2 ^ 32)
      | 1 => .scratch (a % 2 ^ 32)
      | 2 => .linkIn (a % 2 ^ 32)
      | 3 => .linkOut (a % 2 ^ 32)
      | _ => .nothing
    else if canonical a then .virtual a else .nothing

/-- The stage count of a block's chain. -/
def stagesOf (s : State) (b : Block) : Nat := (blockRecord s b).stages

/-- Whether all bytes of an access lie within its space's extent (R133, Table 9.1). -/
def inExtent (s : State) (b : Block) (t : Target) (n : Nat) : Bool :=
  match t with
  | .virtual va => canonical (va + n - 1) && (va + n - 1) / 2 ^ 40 != 0xFF0000 && va + n ≤ 2 ^ 64
  | .lstore o => o + n ≤ lstoreSize s b
  | .scratch o => o + n ≤ scratchSize s b
  | .linkIn o => 0 < b.stage && o + n ≤ 2 ^ 20
  | .linkOut o => b.stage + 1 < stagesOf s b && o + n ≤ 2 ^ 20
  | .const o => o + n ≤ ((getLaunch s b.launch).map Launch.constLen).getD 0
  | .nothing => false

/-- The bank and offset of a byte of a scratch window (R267). -/
def scratchBank (s : State) (b : Block) (o : Nat) : Option (Nat × Nat) :=
  ((banksIn (getCluster s (blockCluster b)).cbmode 1)[(b.origin + o) / 2 ^ 20]?).map
    (fun k => (k, (b.origin + o) % 2 ^ 20))

/-- The bank and offset of a byte of a link (R268). -/
def linkBank (b : Block) (o : Nat) : Option (Nat × Nat) := b.bank.map (fun k => (k, o))

/-- The first offsets of the sectors that a range of a window touches. -/
def windowSectors (o n : Nat) : List Nat := (List.range ((o % 32 + n + 31) / 32)).map (fun i => o / 32 * 32 + 32 * i)

/-- The sectors of stacked SRAM behind a range of a window read (R388): whether all are deliverable. -/
def sectorsRead (s : State) (cl : Nat) (bank : Nat → Option (Nat × Nat)) (o n : Nat) : Bool × State :=
  (windowSectors o n).foldl (fun r q =>
    match bank q with
    | none => r
    | some (k, p) =>
      let (ok, s) := sramRead r.2 cl k 0 p
      (r.1 && ok, s)) (true, s)

/-- The sectors of stacked SRAM behind a range of a window written (R388). -/
def sectorsWrite (s : State) (cl : Nat) (bank : Nat → Option (Nat × Nat)) (o n : Nat) : State :=
  (windowSectors o n).foldl (fun s q =>
    match bank q with
    | none => s
    | some (k, p) => sramWrite s cl k 0 p (decide (o ≤ q ∧ q + 32 ≤ o + n))) s

/-- Bytes read through a window: the bytes, or an uncorrectable sector of the stacked SRAM (R388). -/
def windowRead (s : State) (b : Block) (t : Target) (n : Nat) : HomeData × State :=
  let fromBank (bank : Nat → Option (Nat × Nat)) (o : Nat) (bs : List Byte) : HomeData × State :=
    let (ok, s) := sectorsRead s (blockCluster b) bank o n
    (if ok then .bytes bs else .bad, s)
  match t with
  | .lstore o => (.bytes (tgetMany 0 b.lstore o n), s)
  | .scratch o => fromBank (scratchBank s b) o (tgetMany 0 b.scratch o n)
  | .linkOut o => fromBank (linkBank b) o (tgetMany 0 b.linkOut o n)
  | .linkIn o =>
    match stageBlock s b (b.stage - 1) with
    | some (_, p) => fromBank (linkBank p) o (tgetMany 0 p.linkOut o n)
    | none => (.bytes (natBytes n 0), s)
  | .const o => (.bytes (((tget [] (getCore s ((coreOf b).getD 0)).consts b.launch).drop o).take n), s)
  | _ => (.bytes (natBytes n 0), s)

/-- Bytes written through a window. -/
def windowWrite (s : State) (id : Nat) (b : Block) (t : Target) (bs : List Byte) : State :=
  match t with
  | .lstore o => modBlock s id (fun b => { b with lstore := tsetMany 0 b.lstore o bs })
  | .scratch o =>
    let s := sectorsWrite s (blockCluster b) (scratchBank s b) o bs.length
    modBlock s id (fun b => { b with scratch := tsetMany 0 b.scratch o bs })
  | .linkOut o =>
    let s := sectorsWrite s (blockCluster b) (linkBank b) o bs.length
    modBlock s id (fun b => { b with linkOut := tsetMany 0 b.linkOut o bs })
  | .linkIn o =>
    match stageBlock s b (b.stage - 1) with
    | some (pid, p) =>
      let s := sectorsWrite s (blockCluster p) (linkBank p) o bs.length
      modBlock s pid (fun b => { b with linkOut := tsetMany 0 b.linkOut o bs })
    | none => s
  | _ => s

/-! ### The walk (R341, R358, R364) -/

/-- Whether a leaf maps another device's export space (R364): tier 0 with address bit 47. -/
def isPeer (l : Leaf) : Bool := l.tier == 0 && l.page.testBit 47

/-- Whether an L2 may hold a leaf's bytes (Table 9.2, R364). -/
def inL2 (l : Leaf) : Bool := (l.tier == 0 && !l.page.testBit 47) || l.tier == 1

/-- The page size of a tier (Table 9.2). -/
def tierPage (tier : Nat) : Nat := if tier = 0 then 2 ^ 21 else if tier = 3 then 2 ^ 12 else 2 ^ 16

/-- The leaf that a page-table entry of a level holds; `none` for no valid page (R341, R358). -/
def leafOf (pte level : Nat) : Option Leaf :=
  let size := if level = 1 then 2 ^ 21 else if pte.testBit 11 then 2 ^ 16 else 2 ^ 12
  let tier := bitsOf pte 10 9
  let page := bitsOf pte 47 12 * 4096 / size * size
  if pte.testBit 0 = false ∨ pte.testBit 1 = false ∨ 2 ≤ level ∨ bitsOf pte 50 48 ≠ 0 ∨ size ≠ tierPage tier then none
  else if tier = 0 ∧ inHbm page = false ∧ page.testBit 47 = false then none
  else if tier = 1 ∧ inCapacity page = false then none
  else
    some { page := page, size := size, tier := tier, pclass := bitsOf pte 8 6, shared := 2 ≤ tier || !pte.testBit 5,
           x := pte.testBit 4, w := pte.testBit 3, r := pte.testBit 2,
           owner := if pte.testBit 51 then some (bitsOf pte 63 52) else none }

/-- A page-table entry of memory. -/
def readPte (s : State) (pa : Nat) : Nat := if inDevice pa then leNat (memBytes s pa 8) else 0

/-- The entry of a 64 KiB range that an access uses (R341): any of the sixteen where they differ. -/
def range64 (s : State) (table idx pte : Nat) : Nat :=
  let es := (List.range 16).map (fun i => readPte s (table + 8 * (idx / 16 * 16 + i)))
  if es.all (· == pte) then pte else es.getD (Config.freeValue s.tick % 16) pte

/-- The address of the entry that ends a walk, with the entry and its level: the levels 4 to 0 in turn (R341). -/
def walkFrom (s : State) (va : Nat) : Nat → Nat → Option (Nat × Nat × Nat)
  | level, table =>
    let idx := bitsOf va (12 + 9 * level + 8) (12 + 9 * level)
    let pa := table + 8 * idx
    let pte := readPte s pa
    if pte.testBit 0 = false ∨ bitsOf pte 50 48 ≠ 0 then none
    else if pte.testBit 1 then
      some (pa, if level = 0 ∧ pte.testBit 11 then range64 s table idx pte else pte, level)
    else
      match level with
      | 0 => none
      | l + 1 => walkFrom s va l (bitsOf pte 47 12 * 4096)

/-- The leaf of a virtual address in a context (R341). -/
def walk (s : State) (ctx va : Nat) : Option Leaf :=
  match walkFrom s va 4 (getContext s ctx).root.toNat with
  | some (_, pte, level) => leafOf pte level
  | none => none

/-- The TLB entry of a cluster for an address. -/
def tlbFind (c : Cluster) (ctx va : Nat) : Option Leaf :=
  (c.tlb.find? (fun e => e.ctx == ctx && e.va ≤ va && va < e.va + e.leaf.size)).map TlbEntry.leaf

/-- The TLB of a cluster with an address's entry replaced (R257): 8,192 entries. Which entry leaves a full TLB is not stated: the
one put in longest ago. DESIGN CHOICE, log 108. -/
def tlbInsert (c : Cluster) (ctx va : Nat) (l : Option Leaf) : Cluster :=
  let rest := c.tlb.filter (fun e => ¬ (e.ctx = ctx ∧ e.va ≤ va ∧ va < e.va + e.leaf.size))
  match l with
  | none => { c with tlb := rest }
  | some l => { c with tlb := ({ ctx := ctx, va := va / l.size * l.size, leaf := l } :: rest).take 8192 }

/-- What a walk that reads its entries at their home slices gives (R257, R381, R382): a leaf; no valid page; an entry that is
uncorrectable; or a wait for an entry, or for one of the cluster's 64 walks. -/
inductive Walked where
  | leaf (l : Leaf)
  | none
  | bad
  | blocked
  deriving DecidableEq, Repr

/-- A page-table entry read at its home slice (R381). -/
def pteRead (s : State) (cl pa : Nat) : HomeData × State :=
  if inDevice pa then homeRead s pa 8 cl else (.bytes (natBytes 8 0), s)

/-- A cluster without a walk in flight. -/
def dropWalk (s : State) (cl ctx page : Nat) : State :=
  if (getCluster s cl).walks.isEmpty then s
  else modCluster s cl (fun c => { c with walks := c.walks.filter (fun w => ¬ (w.ctx = ctx ∧ w.page = page)) })

/-- A walk that waits at a table. -/
def keepWalk (s : State) (cl ctx page level table : Nat) : State :=
  modCluster s cl (fun c => { c with walks := c.walks ++ [{ ctx := ctx, page := page, level := level, table := table }] })

/-- What an entry that ends a walk gives. -/
def walkedLeaf (pte level : Nat) : Walked :=
  match leafOf pte level with
  | some l => .leaf l
  | none => .none

/-- The entry of a 64 KiB range that an access uses (R341), read at its home slice: a free choice where the sixteen
differ. -/
def rangeHome (s : State) (cl table idx pte : Nat) : HomeData × State :=
  let es := (List.range 16).map (fun i => readPte s (table + 8 * (idx / 16 * 16 + i)))
  if es.all (· == pte) then (.bytes (natBytes 8 pte), s)
  else let (n, s) := draw s; pteRead s cl (table + 8 * (idx / 16 * 16 + n % 16))

/-- The walk of a virtual address from a level and table on, each entry read at its home slice (R341, R381, R382). -/
def walkHome (s : State) (cl ctx va : Nat) : Nat → Nat → Walked × State
  | level, table =>
    let idx := bitsOf va (12 + 9 * level + 8) (12 + 9 * level)
    match pteRead s cl (table + 8 * idx) with
    | (.blocked, s) => (.blocked, keepWalk s cl ctx (va / 4096) level table)
    | (.bad, s) => (.bad, s)
    | (.bytes bs, s) =>
      let pte := leNat bs
      if pte.testBit 0 = false ∨ bitsOf pte 50 48 ≠ 0 then (.none, s)
      else if pte.testBit 1 then
        if level = 0 ∧ pte.testBit 11 then
          match rangeHome s cl table idx pte with
          | (.bytes bs, s) => (walkedLeaf (leNat bs) level, s)
          | (.bad, s) => (.bad, s)
          | (.blocked, s) => (.blocked, keepWalk s cl ctx (va / 4096) level table)
        else (walkedLeaf pte level, s)
      else
        match level with
        | 0 => (.none, s)
        | l + 1 => walkHome s cl ctx va l (bitsOf pte 47 12 * 4096)

/-- A walk for a page (R257): the one in flight goes on; a new one waits while 64 are in flight. Before a walk's end tells the
page's size, two addresses count as on one page where they lie in one 4 KiB frame: DESIGN CHOICE, log 109. -/
def walkNow (s : State) (cl ctx va : Nat) : Walked × State :=
  let page := va / 4096
  let ws := (getCluster s cl).walks
  let mine := ws.find? (fun w => w.ctx == ctx && w.page == page)
  if mine = none ∧ 64 ≤ ws.length then (.blocked, s)
  else
    let start := (mine.map (fun w => (w.level, w.table))).getD (4, (getContext s ctx).root.toNat)
    match walkHome (askAs (dropWalk s cl ctx page) (.walk cl ctx page)) cl ctx va start.1 start.2 with
    | (r, t) => (r, askAs t s.asker)

/-- A walk whose leaf enters the TLB; one that finds no valid page leaves no entry (R257). -/
def walkInto (s : State) (cl ctx va : Nat) : Walked × State :=
  match walkNow s cl ctx va with
  | (.leaf l, s) => (.leaf l, modCluster s cl (fun c => tlbInsert c ctx va (some l)))
  | (.none, s) =>
    (.none, if tlbFind (getCluster s cl) ctx va = none then s else modCluster s cl (fun c => tlbInsert c ctx va none))
  | r => r

/-- A translation in a cluster (R257): the entry that the TLB holds, or a walk; where the tables now say otherwise, a free
choice of the two. -/
def translate (s : State) (cl ctx va : Nat) : Walked × State :=
  match tlbFind (getCluster s cl) ctx va with
  | none => walkInto s cl ctx va
  | some l =>
    if walk s ctx va = some l then (.leaf l, s)
    else
      let (n, s) := draw s
      if n % 2 = 0 then (.leaf l, s) else walkInto s cl ctx va

/-- The physical address of a virtual address under its leaf (R255). -/
abbrev physical (l : Leaf) (va : Nat) : Nat := l.page + va % l.size

/-- The physical address as the L1s and their reverse map know it (R260): host memory apart from the device's. -/
def l1Key (l : Leaf) (va : Nat) : Nat := physical l va + (if 2 ≤ l.tier then 2 ^ 60 else 0)

/-- Translations of a context (`none` for every context) removed from every cluster TLB, walks in flight among them, and the
matching lines from every L1 (R243): a range of bytes, which may be empty, or all. -/
def invalidateTranslations (s : State) (ctx : Option Nat) (range : Option (Nat × Nat)) : State :=
  let hit (c va size : Nat) : Bool := (ctx == none || ctx == some c) &&
    (match range with | none => true | some (a, n) => decide (0 < n) && va < a + n && a < va + size)
  mapCores (mapClusters s (fun c =>
      { c with tlb := c.tlb.filter (fun t => ¬ hit t.ctx t.va t.leaf.size)
               walks := c.walks.filter (fun w => ¬ hit w.ctx (w.page * 4096) 4096) }))
    (fun c => { c with l1 := c.l1.filter (fun x => ¬ hit x.ctx (x.va / 128 * 128) 128) })

/-! ### Where bytes lie, and who owns their page -/

/-- Where the byte at an address under a leaf really lies, as one number: device memory by its physical address, behind this
device's own export table too (R367); host memory; another device's export space. -/
def realPlace (s : State) (l : Leaf) (va : Nat) : Nat :=
  if isPeer l then
    match if isSelf s (peerDest l) then exportPlace s (peerAddress l va) else none with
    | some pa => pa
    | none => 2 ^ 62 + peerDest l * 2 ^ 48 + peerAddress l va
  else l1Key l va

/-- The speculation-table entry whose window owns the page of a leaf (R226): the entry that its page-table entry names, or the
one that has the physical page as a draft page, whatever address leads to it (DEDUCED, log 35). -/
def windowOwner (s : State) (l : Leaf) : Option Nat :=
  match l.owner with
  | some e => some e
  | none =>
    if l.tier = 0 ∧ isPeer l = false ∧ s.hostIf.marked.contains (l.page / 2 ^ 21) = true then
      (s.windows.find? (fun e => e.2.live && e.2.drafts.contains (l.page / 2 ^ 21))).map Prod.fst
    else none

/-! ### Stores that their cluster has before their home (R286) -/

/-- The state with the stage of one access set. -/
def setStage (s : State) (n idx : Nat) (x : Stage) : State :=
  match getOp s n with
  | none => s
  | some o => setOp s n (some { o with accs := o.accs.modify idx (fun a => { a with stage := x }) })

/-- A store to a shared page or to host memory, once its home has agreed to it, is in its core's L1 and its cluster's L2 before
the home performs it (R286; DEDUCED, log 105): its sector and its stamp. -/
def onWay (o : PendingOp) (a : Access) : Option (Nat × Nat) :=
  match o.kind, a.stage with
  | .store false, .atHome l seq _ => if seq = 0 ∨ isPeer l = true then none else some (l1Key l a.va.toNat / 32, seq)
  | _, _ => none

/-- The stores on their way of the operations for which a condition on cluster and sector holds: stamp, operation, access. -/
def storesOnWay (s : State) (p : Nat → Nat → Bool) : List (Nat × Nat × Nat) :=
  s.ops.flatMap (fun e =>
    match e.2 with
    | none => []
    | some o =>
      (List.range o.accs.length).filterMap (fun i =>
        match (o.accs[i]?).bind (onWay o), getBlock s o.block with
        | some (k, n), some b => if p (blockCluster b) k then some (n, e.1, i) else none
        | _, _ => none))

/-- Whether a cluster has such a store to a sector on its way, with a stamp below `bound` if there is one: what else the
cluster does to the sector at its home comes after it. -/
def storeOnWay (s : State) (cl sector : Nat) (bound : Option Nat) : Bool :=
  (storesOnWay s (fun c k => c == cl && k == sector)).any (fun x =>
    match bound with | none => true | some m => decide (x.1 < m))

/-- A store taken by its core's L1 and its cluster's L2, which write the bytes they hold (R259, R264). -/
def storeNear (s : State) (core va : Nat) (l : Leaf) (bs : List Byte) : State :=
  let s := if inL2 l then l2WriteThrough s (clusterOf core) (physical l va) bs else s
  l1Store s core (l1Key l va) bs

/-- The bytes of a store that its home has agreed to, performed there. -/
def storeAgreed (s : State) (l : Leaf) (va : Nat) (bs : List Byte) : State :=
  if 2 ≤ l.tier then { s with hostMem := tsetMany 0 s.hostMem (physical l va) bs }
  else cellsAfterWrite (memWrite s (physical l va) bs) (physical l va / 32) (bs.length == 32)

/-- A store on its way performed at its home (R286). -/
def performStore (s : State) (n idx : Nat) : State :=
  match (getOp s n).bind (fun o => o.accs[idx]?) with
  | none => s
  | some a =>
    match a.stage with
    | .atHome l _ _ => setStage (storeAgreed s l a.va.toNat (a.wr.getD [])) n idx (.done [])
    | _ => s

/-- A list of stores by rising stamp, with one put in its place. -/
def insertStore (x : Nat × Nat × Nat) : List (Nat × Nat × Nat) → List (Nat × Nat × Nat)
  | [] => [x]
  | y :: ys => if x.1 < y.1 then x :: y :: ys else y :: insertStore x ys

/-- The stores on their way for which a condition holds performed at their homes, in the order of their stamps. -/
def performStores (s : State) (p : Nat → Nat → Bool) : State :=
  ((storesOnWay s p).foldl (fun l x => insertStore x l) []).foldl (fun s x => performStore s x.2.1 x.2.2) s

/-- What a cluster's engines read or write at its home comes after the stores to the sector that the cluster has already (R283,
R286, R291). -/
def storesFirst (s : State) (cl sector : Nat) : State := performStores s (fun c k => c == cl && k == sector)

/-! ### Reads through the L2 (R264, R265, R385) -/

/-- A sector of device memory read at its home slice into the cluster's L2 (R264, R266): its bytes with any dirty bytes of
the L2 kept; uncorrectable data allocate nothing (R385). -/
def fillFromHome (s : State) (cl ctx pa : Nat) (l : Leaf) : Reply × State :=
  let sec := pa / 32 * 32
  match homeRead s sec 32 cl with
  | (.bad, s) => (.bad, s)
  | (.blocked, s) => (.blocked, s)
  | (.bytes bs, s) =>
    let old := match l2Find s cl sec with
      | some (_, x) => if x.shared && x.gen != (getCluster s cl).gen then none else l2SectorOf x sec
      | none => none
    let data := (fillSector old bs).data
    (.bytes data, l2Fill s cl ctx sec l.pclass l.shared bs)

/-- Bytes of one sector read through the cluster's L2 (R264, R265): a hit, or a fill. -/
def readThroughL2 (s : State) (cl ctx va n : Nat) (l : Leaf) : Reply × State :=
  let pa := physical l va
  match l2Read s cl pa n with
  | (some (.bytes bs), s) => (.bytes bs, s)
  | (some .bad, s) => (.bad, s)
  | (some .blocked, s) => (.blocked, s)
  | (none, s) =>
    match fillFromHome s cl ctx pa l with
    | (.bytes bs, s) => (.bytes ((bs.drop (pa % 32)).take n), s)
    | (r, s) => (r, s)

/-! ### Instruction fetch (R258, R90) -/

/-- What the fetch of a code word gives. -/
inductive Fetched where
  | word (w : Word)
  /-- No valid page, or memory that cannot be reached (R258, R368). -/
  | noPage
  /-- A page without execute permission (R258). -/
  | noExec
  /-- Uncorrectable data (R385). -/
  | bad
  /-- It waits at a home slice, for its word or for a page-table entry (R382, R383). -/
  | wait
  deriving DecidableEq, Repr

/-- Whether a requester waits at some pseudo-channel (R382, R383). -/
def waitsFor (s : State) (a : Asker) : Bool := s.hbmStacks.any (fun k => k.2.waiting.any (fun w => w.2 == a))

/-- The four bytes of a code word from where its page lies: the L2 or a home slice, the host, or a peer (R264, R361, R364). -/
def fetchBytes (s : State) (cl ctx va : Nat) (l : Leaf) : Reply × State :=
  if isPeer l then peerSend s (peerDest l) (peerAddress l va) (fun s => peerRead s (peerDest l) (peerAddress l va) 4)
  else if 2 ≤ l.tier then
    if l.tier = 2 ∧ s.link.cxl = false then (.unreachable 7, s) else (hostRead s (physical l va) 4, s)
  else if storeOnWay s cl (l1Key l va / 32) none then homeReply (homeRead s (physical l va) 4 cl)
  else readThroughL2 s cl ctx va 4 l

/-- A code word that the instruction cache of a core holds for a launch. -/
def cachedWord (s : State) (core launch va : Nat) : Option Word :=
  ((getCore s core).icache.find? (fun e => e.launch == launch && e.va == va)).map CodeWord.word

/-- A code word put into the instruction cache, which holds 8,192 words. Which word leaves a full one is not stated: the one put
in longest ago. DESIGN CHOICE, log 110. -/
def cacheWord (s : State) (core launch va : Nat) (w : Word) : State :=
  modCore s core (fun c =>
    { c with icache := { launch := launch, va := va, word := w } ::
        c.icache.filter (fun e => ¬ (e.launch = launch ∧ e.va = va)) |>.take 8192 })

/-- A code word fetched from memory for a block (R257, R258, R364, R381 to R385). A fetch from a window-owned page finds no page:
R226's table lists no fetch, and this is a DESIGN CHOICE, log 111. -/
def fetchMiss (s : State) (core blk launch ctx va : Nat) : Fetched × State :=
  let cl := clusterOf core
  if va / 2 ^ 40 = 0xFF0000 then (.noPage, s)
  else
    let left (t : State) : State := untraced (forgetAsker (askAs t s.asker) (.fetch blk va))
    match translate (tracing (askAs s (.fetch blk va))) cl ctx va with
    | (.blocked, t) => (.wait, beginAgain s t)
    | (.bad, t) => (.bad, left t)
    | (.none, t) => (.noPage, left t)
    | (.leaf l, t) =>
      if (windowOwner t l).isSome then (.noPage, left t)
      else if l.x = false then (.noExec, left t)
      else
        match fetchBytes t cl ctx va l with
        | (.bytes bs, t) =>
          let w := BitVec.ofNat 32 (leNat bs)
          (.word w, cacheWord (left t) core launch va w)
        | (.blocked, t) => (.wait, beginAgain s t)
        | (.unreachable _, t) => (.noPage, left t)
        | (_, t) => (.bad, left t)

/-- The word that memory now holds at a code address, `none` where the tables lead to no word that could be fetched. -/
def codeWord (s : State) (ctx va : Nat) : Option Word :=
  match walk s ctx va with
  | none => none
  | some l =>
    if (windowOwner s l).isSome = true ∨ l.x = false then none
    else if isPeer l then
      (match (peerRead s (peerDest l) (peerAddress l va) 4).1 with
       | .bytes bs => some (BitVec.ofNat 32 (leNat bs))
       | _ => none)
    else if l.tier ≤ 1 then some (BitVec.ofNat 32 (leNat (memBytes s (physical l va) 4)))
    else some (BitVec.ofNat 32 (leNat (tgetMany 0 s.hostMem (physical l va) 4)))

/-- The fetch of a code word for a block at a core: the word that the instruction cache holds for the launch, or, where
memory now holds another, a free choice of the two (R90). -/
def fetchAccess (s : State) (core blk launch ctx va : Nat) : Fetched × State :=
  match cachedWord s core launch va with
  | none => fetchMiss s core blk launch ctx va
  | some w =>
    if codeWord s ctx va = some w then (.word w, s)
    else if Config.staleWord s.tick va then (.word w, { s with tick := s.tick + 1 })
    else fetchMiss { s with tick := s.tick + 1 } core blk launch ctx va

/-- The fetch at a code address of 57 bits, with the state it leaves. -/
def fetchNow (s : State) (core blk launch ctx a : Nat) : Fetched × State := fetchAccess s core blk launch ctx (codeVa a)

/-- What the fetch at a code address gives. -/
def fetchWord (s : State) (core blk launch ctx a : Nat) : Fetched := (fetchNow s core blk launch ctx a).1

/-- Whether a fetch has come to a wait that is not over. -/
def fetchWaits (s : State) (core blk ctx a : Nat) : Bool :=
  waitsFor s (.fetch blk (codeVa a)) || waitsFor s (.walk (clusterOf core) ctx (codeVa a / 4096))

end Sys2Proof.Machine
end

