-- ==== Sys2Proof/Machine/Ops.lean ====
section
/-! DEFINITION. The named operations that the meanings share: the freeze of a context by a thread (R343), taking a trap and returning
from one (R329 to R331, R344, R242), deferred faults (R137), the poison log (R334), and the units of a gang (R13, R14). -/

namespace Sys2Proof.Machine

/-! ### Freezing (R342, R343) -/

/-- The address that a freeze record names for a trap (R343). -/
def trapAddress (t : Trap) : Dword :=
  match t.cause.toNat with
  | 0x02 | 0x06 | 0x07 | 0x08 | 0x09 => pairOf t.aux0 t.aux1
  | 0x0A | 0x0D | 0x0E | 0x0F => pairOf t.aux2 t.aux3
  | _ => 0

/-- Where a thread is, as CTXFRZ0 holds it (R343). -/
def placeBits (b : Block) (g l : Nat) (cause : Nat) : Nat :=
  let core := match b.place with | .core c => c | .saved _ _ cl => 8 * cl
  cause * 2 ^ 48 + clusterOf core * 2 ^ 16 + core % 8 * 2 ^ 12 + (gangOf b g).slot * 2 ^ 8 + l

/-- A freeze that a thread's trap causes. -/
def freezeTrap (s : State) (id g l reason : Nat) (t : Trap) (frz2 : Dword) : State :=
  match getBlock s id with
  | none => s
  | some b => freezeCtx s b.ctx reason (placeBits b g l t.cause.toNat) (t.tpc.getD 0) frz2 (pairOf t.aux0 t.aux1)

/-- The unit of a gang that holds a lane. -/
def unitWith (g : Gang) (l : Nat) : Option ExecUnit := g.units.find? (fun u => u.lanes.getLsbD l)

/-- The resume point at which a thread stands, 0 for a thread that is not live. -/
def standsAt (s : State) (id g l : Nat) : Dword := ((unitWith (getGang s id g) l).map ExecUnit.pc).getD 0

/-- A freeze for uncorrectable data that a thread's access met (R385): reason 0x07. -/
def freezeData (s : State) (id g l : Nat) (rp va : Dword) : State :=
  match getBlock s id with
  | none => s
  | some b => freezeCtx s b.ctx 7 (placeBits b g l 0) rp va 0

/-- Whether a block's context is frozen. -/
def isFrozen (s : State) (b : Block) : Bool := (getContext s b.ctx).frozen

/-! ### Deferred faults (R137, R136) -/

/-- A deferred fault becomes known (R137): it is held for its thread; a permission violation freezes the context at
once (R136); any other fault of an exited thread freezes it with reason 0x03. -/
def defer (s : State) (id g l : Nat) (t : Trap) : State :=
  let live := (getThread s id g l).cond == .live
  let known := { t with tpc := some (standsAt s id g l) }
  let s := if t.cause = 9 then freezeTrap s id g l 1 known (pairOf t.aux0 t.aux1)
    else if live then s else freezeTrap s id g l 3 known (trapAddress t)
  if live then modThread s id g l (fun x => { x with deferred := x.deferred ++ [t] }) else s

/-- A deferred fault of every thread that an access or a fetch counts for: one freeze event for a permission violation (R136,
R258). -/
def deferLanes (s : State) (id g : Nat) (lanes : List Nat) (t : Trap) : State :=
  match lanes with
  | [] => s
  | l :: rest =>
    rest.foldl (fun s l =>
      if (getThread s id g l).cond = .live then modThread s id g l (fun x => { x with deferred := x.deferred ++ [t] })
      else if t.cause = 9 then s
      else freezeTrap s id g l 3 t (trapAddress t)) (defer s id g l t)

/-! ### The poison log (R334) -/

/-- An address entered in a thread's poison log: the lowest entry that is not valid, else the overflow bit. -/
def logPoison (t : Thread) (kind : Nat) (va : Dword) : Thread :=
  match (List.range 4).find? (fun i => !(tget 0 t.plog i).getLsbD 63) with
  | some i =>
    let e := BitVec.ofNat 64 (2 ^ 63 + kind * 2 ^ 60 + va.toNat % 2 ^ 57)
    { t with plog := tmod 0 t.plog i (fun old => e ||| (old &&& 0x4000000000000000#64)) }
  | none => { t with plog := tmod 0 t.plog 3 (fun e => e ||| 0x4000000000000000#64) }

/-! ### Units of a gang (R13, R14) -/

/-- The units without the lanes of a mask; a unit left with no lane is gone. -/
def dropLanes (us : List ExecUnit) (m : BitVec 32) : List ExecUnit :=
  (us.map (fun u => { u with lanes := u.lanes &&& ~~~m })).filter (fun u => u.lanes != 0)

/-- The units with the lanes of a mask made a unit of their own, unless the mask is empty. -/
def splitOff (us : List ExecUnit) (u : ExecUnit) : List ExecUnit :=
  if u.lanes = 0 then dropLanes us u.lanes else dropLanes us u.lanes ++ [u]

/-- The gang's units with one of its own put in place of the lanes it holds. -/
def putUnit (s : State) (id g : Nat) (u : ExecUnit) : State :=
  modGang s id g (fun x => { x with units := splitOff x.units u })

/-- The unit that holds a lane, changed. -/
def modUnit (s : State) (id g l : Nat) (f : ExecUnit → ExecUnit) : State :=
  modGang s id g (fun x => { x with units := x.units.map (fun u => if u.lanes.getLsbD l then f u else u) })

/-! ### Transfer targets (R89) -/

/-- The check of a transfer's target (R89, R76): none when the transfer takes place, else what sys.taux2 receives. -/
def targetFault (s : State) (core blk launch ctx : Nat) (addr : Dword) (slot : Nat) : Option Nat :=
  if addr.extractLsb' 0 2 ≠ 0 then some 0
  else
    let h := if slot = 15 then addr.toNat else (addr - BitVec.ofNat 64 (4 * (slot + 1))).toNat
    match fetchWord s core blk launch ctx h with
    | .word w =>
      if headerCheck w ≠ 0 then some (headerCheck w)
      else if slot ≠ 15 ∧ hdrCount w ≤ slot then some 0x10
      else none
    | _ => none

/-! ### Taking a trap (R329, R331) -/

/-- The thread with a trap recorded and its handler state set (R329, steps 1 to 3). -/
def recordTrap (t : Thread) (x : Trap) : Thread :=
  { t with tcause := BitVec.setWidth 32 x.cause, tpc := x.tpc.getD 0, taux0 := x.aux0, taux1 := x.aux1, taux2 := x.aux2,
           taux3 := x.aux3, handler := true }

/-- Whether a gang's handler can be entered (R329): sys.trapbase is not 0 and passes R89. -/
def handlerOk (s : State) (id g : Nat) : Bool :=
  match getBlock s id with
  | none => false
  | some b =>
    let base := (gangOf b g).trapbase
    base != 0 && targetFault s ((coreOf b).getD 0) id b.launch b.ctx base 15 == none

/-- One thread meets a trap: recorded, or, for a thread in handler state (R331) or a handler that cannot be entered
(R329), the trap pending for the thaw (R344), each such thread a freeze event of its own (R342). -/
def meetTrap (s : State) (id g l : Nat) (x : Trap) (enter : Bool) : State :=
  if (getThread s id g l).handler then
    modThread (freezeTrap s id g l 4 x (trapAddress x)) id g l (fun t => { t with stalled := some x })
  else
    let s := modThread s id g l (fun t => recordTrap t x)
    if enter then s
    else
      modThread (freezeTrap s id g l 2 x (getGang s id g).trapbase) id g l (fun t => { t with stalled := some x })

/-- Whether a thread that meets a trap goes to the handler. -/
def entersHandler (s : State) (id g l : Nat) (enter : Bool) : Bool := enter && !(getThread s id g l).handler

/-- Traps taken by some threads of a gang at one word or point (R14, R329): those that enter the handler become one
unit there, those that cannot stay as a unit at `stay`; both keep the last issue of the unit they came from. -/
def takeTraps (s : State) (id g : Nat) (traps : List (Nat × Trap)) (stay : Dword) (last : Nat) : State :=
  let enter := handlerOk s id g
  let go := maskWhere (fun l => traps.any (fun e => e.1 == l) && entersHandler s id g l enter)
  let hold := maskWhere (fun l => traps.any (fun e => e.1 == l) && !entersHandler s id g l enter)
  let base := (getGang s id g).trapbase
  let s := traps.foldl (fun s e => meetTrap s id g e.1 e.2 enter) s
  let s := if go = 0 then s
    else putUnit s id g { lanes := go, pc := resumeAt base.toNat 15, lastIssue := last, via := some (stay, base) }
  if hold = 0 then s else putUnit s id g { lanes := hold, pc := stay, lastIssue := last }

/-! ### Leaving a handler and returning (R331, R242) -/

/-- The thread out of its handler state. -/
def outOfHandler (t : Thread) : Thread := { t with handler := false }

/-- A freeze for the deferred faults that an exiting thread still holds (R331, R137); permission violations have
frozen the context already (R136). -/
def dropDeferred (s : State) (id g l : Nat) : State :=
  (getThread s id g l).deferred.foldl (fun s t =>
    if t.cause = 9 then s else freezeTrap s id g l 3 { t with tpc := some 0 } (trapAddress t))
    (modThread s id g l (fun t => { t with deferred := [] }))

/-! ### Acquires (R145, R265) -/

/-- The acquire of a core at a scope (R145): 0 gang, 1 block, 2 cluster, 3 device, 4 system. -/
def acquire (s : State) (core scope : Nat) : State :=
  let s := if 1 ≤ scope then l1Invalidate s core else s
  if 3 ≤ scope then advanceGeneration s (clusterOf core) else s

/-- The device-scope acquire and the removal of local lines that precede the placement of a context's block on a
cluster (R312, R348). -/
def placementAcquire (s : State) (cl ctx : Nat) : State :=
  let s := (List.range 8).foldl (fun s i => l1Invalidate s (8 * cl + i)) s
  let s := advanceGeneration s cl
  writeBackWhere s cl (fun _ l => l.ctx == ctx && !l.shared) false

/-- The write-back of a context's dirty lines in a cluster's L2, which keeps them (R244). -/
def cleanContext (s : State) (cl : Nat) (ctx : Option Nat) : State :=
  writeBackWhere s cl (fun _ l => ctx == none || ctx == some l.ctx) true

end Sys2Proof.Machine
end

