-- ==== Sys2Proof/Machine/Operands.lean ====
section
/-! DEFINITION. The operand forms of every instruction word: which registers it reads and writes, which it consumes so that
poison traps (R335), its engine class (Table 3.4), and how the values are read. -/

namespace Sys2Proof.Machine

/-- A register of a word, by class and number. -/
inductive RegRef where
  | v (n : Nat)
  | k (n : Nat)
  | p (n : Nat)
  | q (n : Nat)
  deriving DecidableEq, Repr

/-- Consecutive v registers. -/
def vs (n c : Nat) : List RegRef := (List.range c).map (fun i => .v (n + i))
/-- Consecutive k registers. -/
def ks (n c : Nat) : List RegRef := (List.range c).map (fun i => .k (n + i))

/-- A register identity (R333). -/
def RegRef.identity : RegRef → Word
  | .v n => BitVec.ofNat 32 n
  | .k n => BitVec.ofNat 32 (0x100 + n)
  | .p n => BitVec.ofNat 32 (0x200 + n)
  | .q n => BitVec.ofNat 32 (0x300 + n)

/-- The registers a word reads in each active thread, its guard apart (R15, R73, R97). -/
def sources : Instr → List RegRef
  | .add _ _ a b | .sub _ _ a b | .mul _ _ a b | .mulh _ _ a b | .min _ _ a b | .max _ _ a b | .div _ _ a b
   | .rem _ _ a b | .sel _ _ a b | .and _ _ a b | .or _ _ a b | .xor _ _ a b | .andn _ _ a b | .shl _ _ a b
   | .shr _ _ a b | .sra _ _ a b | .rot _ _ a b | .bfe _ _ a b | .fadd _ _ a b | .fsub _ _ a b | .fmul _ _ a b
   | .fmin _ _ a b | .fmax _ _ a b | .faddF16x2 _ _ a b | .fsubF16x2 _ _ a b | .fmulF16x2 _ _ a b
   | .fminF16x2 _ _ a b | .fmaxF16x2 _ _ a b | .faddBf16x2 _ _ a b | .fsubBf16x2 _ _ a b | .fmulBf16x2 _ _ a b
   | .fminBf16x2 _ _ a b | .fmaxBf16x2 _ _ a b | .shfl _ _ a b =>
    vs a.toNat 1 ++ vs b.toNat 1
  | .mad _ d a b | .bfi _ d a b | .ffma _ d a b | .ffmaF16x2 _ d a b | .ffmaBf16x2 _ d a b =>
    vs a.toNat 1 ++ vs b.toNat 1 ++ vs d.toNat 1
  | .abs _ _ b | .neg _ _ b | .mov _ _ b | .popc _ _ b | .clz _ _ b | .brev _ _ b | .fabs _ _ b | .fneg _ _ b
   | .fabsF16x2 _ _ b | .fnegF16x2 _ _ b | .fabsBf16x2 _ _ b | .fnegBf16x2 _ _ b | .frcp _ _ b | .frsq _ _ b
   | .fsqrt _ _ b | .fex2 _ _ b | .flg2 _ _ b | .fsin _ _ b | .fcos _ _ b | .ftanh _ _ b | .fcls _ _ b =>
    vs b.toNat 1
  | .lea _ _ a b | .shl64 _ _ a b | .shr64 _ _ a b | .sra64 _ _ a b =>
    vs a.toNat 2 ++ vs b.toNat 1
  | .addK _ _ a b | .subK _ _ a b | .mulK _ _ a b | .mulhK _ _ a b | .minK _ _ a b | .maxK _ _ a b | .divK _ _ a b
   | .remK _ _ a b | .selK _ _ a b | .andK _ _ a b | .orK _ _ a b | .xorK _ _ a b | .andnK _ _ a b | .shlK _ _ a b
   | .shrK _ _ a b | .sraK _ _ a b | .rotK _ _ a b | .bfeK _ _ a b | .klane _ _ a b | .faddK _ _ a b
   | .fsubK _ _ a b | .fmulK _ _ a b | .fminK _ _ a b | .fmaxK _ _ a b =>
    vs a.toNat 1 ++ ks b.toNat 1
  | .madK _ d a b | .bfiK _ d a b | .ffmaK _ d a b =>
    vs a.toNat 1 ++ ks b.toNat 1 ++ vs d.toNat 1
  | .absK _ _ b | .negK _ _ b | .movK _ _ b | .popcK _ _ b | .clzK _ _ b | .brevK _ _ b | .fabsK _ _ b | .fnegK _ _ b =>
    ks b.toNat 1
  | .leaK _ _ a b =>
    vs a.toNat 2 ++ ks b.toNat 1
  | .add64 _ _ a b | .sub64 _ _ a b | .mul64 _ _ a b | .mulh64 _ _ a b | .min64 _ _ a b | .max64 _ _ a b =>
    vs a.toNat 2 ++ vs b.toNat 2
  | .addImm _ _ a _ | .andImm _ _ a _ | .orImm _ _ a _ | .xorImm _ _ a _ | .cmpImm _ _ _ a _ | .vpmov _ _ a
   | .cvtup _ _ a _ | .shfld _ _ a _ | .shflx _ _ a _ | .red _ _ a _ | .scan _ _ a _ _ | .matchEq _ _ a
   | .conflict _ _ a | .hist _ _ a | .jwait _ a _ | .gjoin _ a | .treemask _ _ a =>
    vs a.toNat 1
  | .shlImm _ _ a w _ | .shrImm _ _ a w _ | .sraImm _ _ a w _ | .rotImm _ _ a w _ =>
    vs a.toNat (1 + w.toNat)
  | .movh _ d _ =>
    vs d.toNat 1
  | .cmp _ pd w comb a b _ =>
    vs a.toNat (1 + w.toNat) ++ vs b.toNat (1 + w.toNat) ++ (if comb = 0 then [] else [.p pd.toNat])
  | .plop _ _ pa pb _ _ _ =>
    [.p pa.toNat, .p pb.toNat]
  | .pmovv _ _ =>
    (List.range 7).map RegRef.p
  | .kmov _ _ a | .spalloc _ _ a | .bankmode _ _ a =>
    ks a.toNat 1
  | .fcmp _ pd comb a b _ =>
    vs a.toNat 1 ++ vs b.toNat 1 ++ (if comb = 0 then [] else [.p pd.toNat])
  | .cvt _ _ a src _ _ _ =>
    vs a.toNat (if src = 11 ∨ src = 12 then 2 else 1)
  | .cvtpk _ _ a fmt _ _ =>
    vs a.toNat (packCount fmt.toNat)
  | .ld _ _ a _ sp _ =>
    (if sp = 0 then vs a.toNat 2 else if sp = 3 then ks a.toNat 1 else vs a.toNat 1)
  | .st _ d a size sp _ =>
    vs d.toNat (sizeRegs size.toNat) ++ (if sp = 0 then vs a.toNat 2 else if sp = 3 then ks a.toNat 1 else vs a.toNat 1)
  | .ldx _ _ a _ sp _ =>
    ks a.toNat (if sp = 0 then 2 else 1)
  | .stx _ d a size sp _ =>
    ks d.toNat (2 ^ size.toNat) ++ ks a.toNat (if sp = 0 then 2 else 1)
  | .ldro _ _ a _ _ _ | .pf _ _ a _ | .cmaintCleanL2 _ a _ | .cmaintFlushL2 _ a _ | .cmaintDropL2 _ a _
   | .nperm _ _ a _ _ | .nrev _ _ a _ | .spld _ _ a _ =>
    vs a.toNat 2
  | .ldp _ _ kq _ _ =>
    ks kq.toNat 4
  | .ldpr _ q kq _ _ | .stp _ q kq =>
    ks kq.toNat 4 ++ [.q q.toNat]
  | .qunp _ _ q _ _ | .qtagGet _ _ q =>
    [.q q.toNat]
  | .qpk _ q a _ _ _ =>
    vs a.toNat 1 ++ [.q q.toNat]
  | .qtagSet _ d q =>
    vs d.toNat 1 ++ [.q q.toNat]
  | .pcons _ _ a _ | .lmask _ _ a | .gsplit _ _ a _ =>
    [.p a.toNat]
  | .jinit _ a _ =>
    ks a.toNat 2
  | .ret _ d =>
    vs d.toNat 2
  | .jmpi _ d cls =>
    (if cls = 1 then ks d.toNat 2 else vs d.toNat 2)
  | .maddm _ _ a b _ | .msubm _ _ a b _ | .mmulm _ _ a b _ =>
    vs (2 * a.toNat) 2 ++ vs (2 * b.toNat) 2
  | .mnegm _ _ b _ | .mredm _ _ b _ =>
    vs (2 * b.toNat) 2
  | .mmacm _ d a b _ | .bflyct _ d a b _ | .bflygs _ d a b _ =>
    vs (2 * a.toNat) 2 ++ vs (2 * b.toNat) 2 ++ vs (2 * d.toNat) 2
  | .nauto _ _ _ kg =>
    ks kg.toNat 1
  | .modset _ a b _ auto =>
    vs a.toNat 2 ++ (if auto = 1 then [] else vs b.toNat 2)
  | .spbegin _ _ kr =>
    ks kr.toNat 2
  | .spst _ d a size =>
    vs d.toNat (sizeRegs size.toNat) ++ vs a.toNat 2
  | .spstate _ ks_ kp =>
    ks ks_.toNat 2 ++ ks kp.toNat 1
  | .spcommit _ kh kk =>
    ks kh.toNat 1 ++ ks kk.toNat 1
  | .spabort _ kh | .spquery _ _ kh =>
    ks kh.toNat 1
  | .sysw _ a num =>
    vs a.toNat (if sysWidth num.toNat = some 64 then 2 else 1)
  | .tlbinv _ every _ ka kn =>
    (if every = 1 then [] else ks ka.toNat 2 ++ ks kn.toNat 1)
  | .launch _ _ kt kp =>
    ks kt.toNat 2 ++ ks kp.toNat 2
  | .mma _ _ fa fb _ ra rb sa sb _ _ _ =>
    (if sa = 1 then ks ra.toNat 2 else vs ra.toNat (2 * fragWords (opGroup fa.toNat fb.toNat) fa.toNat)) ++ (if sb = 1 then ks rb.toNat 2 else vs rb.toNat (2 * fragWords (opGroup fa.toNat fb.toNat) fb.toNat))
  | .mmas _ _ fa fb _ ra rb sa sb _ _ ks_ _ =>
    (if sa = 1 then ks ra.toNat 2 else vs ra.toNat (2 * fragWords (opGroup fa.toNat fb.toNat) fa.toNat)) ++ (if sb = 1 then ks rb.toNat 2 else vs rb.toNat (2 * fragWords (opGroup fa.toNat fb.toNat) fb.toNat)) ++ ks ks_.toNat 1
  | .mconv _ _ fa fb _ kr rb sb _ _ ko _ =>
    (if sb = 1 then ks rb.toNat 2 else vs rb.toNat (2 * fragWords (opGroup fa.toNat fb.toNat) fb.toNat)) ++ ks kr.toNat 2 ++ ks ko.toNat 2
  | .mperm _ _ _ _ _ _ kp _ =>
    ks kp.toNat 1
  | .accld _ _ _ sp kx _ _ | .accst _ _ _ _ sp kx _ _ =>
    ks kx.toNat (if sp = 0 then 2 else 1)
  | .accrd _ _ _ _ kpos =>
    ks kpos.toNat 1
  | .accwr _ _ v n kpos =>
    ks kpos.toNat 1 ++ vs v.toNat (2 ^ n.toNat)
  | .atom _ _ a sp b _ w _ _ _ _ =>
    vs a.toNat (if sp = 0 then 2 else 1) ++ vs b.toNat (1 + w.toNat)
  | .cas _ _ a sp b c w _ _ _ =>
    vs a.toNat (if sp = 0 then 2 else 1) ++ vs b.toNat (1 + w.toNat) ++ vs c.toNat (1 + w.toNat)
  | .cpy _ dst src dsp ssp _ _ =>
    vs dst.toNat (if dsp = 0 then 2 else 1) ++ vs src.toNat (if ssp = 0 then 2 else 1)
  | .cpyt _ kr kc kt _ _ ring _ =>
    ks kr.toNat 2 ++ ks kc.toNat 4 ++ ks kt.toNat (1 + ring.toNat)
  | .cpyp _ kq kt _ _ _ ring _ _ =>
    ks kq.toNat 4 ++ ks kt.toNat (1 + ring.toNat)
  | .cpyx _ vi kb kd _ _ _ _ =>
    vs vi.toNat 1 ++ ks kb.toNat 2 ++ ks kd.toNat 1
  | .cpyf _ vd ks_ kr _ _ _ =>
    vs vd.toNat 2 ++ ks ks_.toNat 1 ++ ks kr.toNat 2
  | .ringinit _ kr _ _ =>
    ks kr.toNat 1
  | .rawait _ kr kt _ | .rrel _ kr kt =>
    ks kr.toNat 1 ++ ks kt.toNat 1
  | _ => []

/-- The registers a word writes, at the word or when it completes (R27, R28). -/
def dests : Instr → List RegRef
  | .add _ d _ _ | .sub _ d _ _ | .mul _ d _ _ | .mulh _ d _ _ | .mad _ d _ _ | .min _ d _ _ | .max _ d _ _
   | .abs _ d _ | .neg _ d _ | .div _ d _ _ | .rem _ d _ _ | .sel _ d _ _ | .mov _ d _ | .addK _ d _ _
   | .subK _ d _ _ | .mulK _ d _ _ | .mulhK _ d _ _ | .madK _ d _ _ | .minK _ d _ _ | .maxK _ d _ _ | .absK _ d _
   | .negK _ d _ | .divK _ d _ _ | .remK _ d _ _ | .selK _ d _ _ | .movK _ d _ | .and _ d _ _ | .or _ d _ _
   | .xor _ d _ _ | .andn _ d _ _ | .shl _ d _ _ | .shr _ d _ _ | .sra _ d _ _ | .rot _ d _ _ | .bfe _ d _ _
   | .bfi _ d _ _ | .popc _ d _ | .clz _ d _ | .brev _ d _ | .andK _ d _ _ | .orK _ d _ _ | .xorK _ d _ _
   | .andnK _ d _ _ | .shlK _ d _ _ | .shrK _ d _ _ | .sraK _ d _ _ | .rotK _ d _ _ | .bfeK _ d _ _ | .bfiK _ d _ _
   | .popcK _ d _ | .clzK _ d _ | .brevK _ d _ | .addImm _ d _ _ | .andImm _ d _ _ | .orImm _ d _ _
   | .xorImm _ d _ _ | .movi _ d _ | .movh _ d _ | .pmovv _ d | .fadd _ d _ _ | .fsub _ d _ _ | .fmul _ d _ _
   | .ffma _ d _ _ | .fmin _ d _ _ | .fmax _ d _ _ | .fabs _ d _ | .fneg _ d _ | .faddK _ d _ _ | .fsubK _ d _ _
   | .fmulK _ d _ _ | .ffmaK _ d _ _ | .fminK _ d _ _ | .fmaxK _ d _ _ | .fabsK _ d _ | .fnegK _ d _
   | .faddF16x2 _ d _ _ | .fsubF16x2 _ d _ _ | .fmulF16x2 _ d _ _ | .ffmaF16x2 _ d _ _ | .fminF16x2 _ d _ _
   | .fmaxF16x2 _ d _ _ | .fabsF16x2 _ d _ | .fnegF16x2 _ d _ | .faddBf16x2 _ d _ _ | .fsubBf16x2 _ d _ _
   | .fmulBf16x2 _ d _ _ | .ffmaBf16x2 _ d _ _ | .fminBf16x2 _ d _ _ | .fmaxBf16x2 _ d _ _ | .fabsBf16x2 _ d _
   | .fnegBf16x2 _ d _ | .frcp _ d _ | .frsq _ d _ | .fsqrt _ d _ | .fex2 _ d _ | .flg2 _ d _ | .fsin _ d _
   | .fcos _ d _ | .ftanh _ d _ | .fcls _ d _ | .cvtpk _ d _ _ _ _ | .qunp _ d _ _ _ | .qtagGet _ d _
   | .shfl _ d _ _ | .shfld _ d _ _ | .shflx _ d _ _ | .lmask _ d _ | .red _ d _ _ | .scan _ d _ _ _
   | .matchEq _ d _ | .conflict _ d _ | .hist _ d _ | .jsign _ d _ | .gsplit _ d _ _ | .treemask _ d _ =>
    vs d.toNat 1
  | .lea _ d _ _ | .leaK _ d _ _ | .add64 _ d _ _ | .sub64 _ d _ _ | .mul64 _ d _ _ | .mulh64 _ d _ _
   | .min64 _ d _ _ | .max64 _ d _ _ | .shl64 _ d _ _ | .shr64 _ d _ _ | .sra64 _ d _ _ | .nrev _ d _ _ =>
    vs d.toNat 2
  | .shlImm _ d _ w _ | .shrImm _ d _ w _ | .sraImm _ d _ w _ | .rotImm _ d _ w _ | .cas _ d _ _ _ _ w _ _ _ =>
    vs d.toNat (1 + w.toNat)
  | .cmp _ pd _ _ _ _ _ | .cmpImm _ pd _ _ _ | .plop _ pd _ _ _ _ _ | .fcmp _ pd _ _ _ _ =>
    [.p pd.toNat]
  | .vpmov _ mask _ =>
    ((List.range 7).filter (fun i => mask.getLsbD i)).map RegRef.p
  | .kmov _ d _ | .kmovImm _ d _ | .klane _ d _ _ | .spbegin _ d _ | .spalloc _ d _ | .spquery _ d _
   | .bankmode _ d _ | .launch _ d _ _ | .fqrpReplay _ d | .fqrpSkip _ d =>
    ks d.toNat 1
  | .cvt _ d _ _ _ _ dst =>
    vs d.toNat (if dst = 11 ∨ dst = 12 then 2 else 1)
  | .cvtup _ d _ fmt =>
    vs d.toNat (packCount fmt.toNat)
  | .ld _ d _ size _ _ | .ldro _ d _ size _ _ | .spld _ d _ size =>
    vs d.toNat (sizeRegs size.toNat)
  | .ldx _ d _ size _ _ =>
    ks d.toNat (2 ^ size.toNat)
  | .ldp _ q _ _ pd | .ldpr _ q _ _ pd =>
    [.q q.toNat, .p pd.toNat]
  | .qpk _ q _ _ _ _ | .qtagSet _ _ q =>
    [.q q.toNat]
  | .pcons _ d _ _ =>
    [.p d.toNat]
  | .call _ _ =>
    vs 62 2
  | .maddm _ d _ _ _ | .msubm _ d _ _ _ | .mnegm _ d _ _ | .mmulm _ d _ _ _ | .mmacm _ d _ _ _ | .mredm _ d _ _ =>
    vs (2 * d.toNat) 2
  | .bflyct _ d a _ _ | .bflygs _ d a _ _ =>
    vs (2 * d.toNat) 2 ++ vs (2 * a.toNat) 2
  | .nperm _ d _ _ mode =>
    vs d.toNat (if mode = 1 then 4 else 2)
  | .sysr _ d num =>
    vs d.toNat (if sysWidth num.toNat = some 64 then 2 else 1)
  | .fqrpPeek _ d =>
    ks d.toNat 2
  | .accrd _ _ v n _ =>
    vs v.toNat (2 ^ n.toNat)
  | .atom _ d _ _ _ _ w _ _ noret _ =>
    (if noret = 1 then [] else vs d.toNat (1 + w.toNat))
  | _ => []

/-- The registers whose poison raises POISON_CONSUMED (R335, R135, R115, R241, R212). -/
def consumed : Instr → List RegRef
  | .ld _ _ a _ sp _ =>
    (if sp = 0 then vs a.toNat 2 else if sp = 3 then ks a.toNat 1 else vs a.toNat 1)
  | .st _ d a size sp _ =>
    (if sp = 0 then vs a.toNat 2 else if sp = 3 then ks a.toNat 1 else vs a.toNat 1) ++ vs d.toNat (sizeRegs size.toNat)
  | .ldx _ _ a _ sp _ =>
    ks a.toNat (if sp = 0 then 2 else 1)
  | .stx _ d a size sp _ =>
    ks a.toNat (if sp = 0 then 2 else 1) ++ ks d.toNat (2 ^ size.toNat)
  | .ldro _ _ a _ _ _ | .pf _ _ a _ | .cmaintCleanL2 _ a _ | .cmaintFlushL2 _ a _ | .cmaintDropL2 _ a _
   | .spld _ _ a _ =>
    vs a.toNat 2
  | .ldp _ _ kq _ _ | .ldpr _ _ kq _ _ =>
    ks kq.toNat 4
  | .stp _ q kq =>
    ks kq.toNat 4 ++ [.q q.toNat]
  | .ret _ d =>
    vs d.toNat 2
  | .jmpi _ d cls =>
    (if cls = 1 then ks d.toNat 2 else vs d.toNat 2)
  | .spbegin _ _ kr =>
    ks kr.toNat 2
  | .spst _ d a size =>
    vs a.toNat 2 ++ vs d.toNat (sizeRegs size.toNat)
  | .spstate _ ks_ kp =>
    ks ks_.toNat 2 ++ ks kp.toNat 1
  | .spcommit _ kh kk =>
    ks kh.toNat 1 ++ ks kk.toNat 1
  | .spabort _ kh =>
    ks kh.toNat 1
  | .sysw _ a num =>
    vs a.toNat (if sysWidth num.toNat = some 64 then 2 else 1)
  | .tlbinv _ every _ ka _ =>
    (if every = 1 then [] else ks ka.toNat 2)
  | .launch _ _ kt kp =>
    ks kt.toNat 2 ++ ks kp.toNat 2
  | .mma _ _ fa fb _ ra rb sa sb _ _ _ =>
    (if sa = 1 then ks ra.toNat 2 else vs ra.toNat (2 * fragWords (opGroup fa.toNat fb.toNat) fa.toNat)) ++ (if sb = 1 then ks rb.toNat 2 else vs rb.toNat (2 * fragWords (opGroup fa.toNat fb.toNat) fb.toNat))
  | .mmas _ _ fa fb _ ra rb sa sb _ _ ks_ _ =>
    (if sa = 1 then ks ra.toNat 2 else vs ra.toNat (2 * fragWords (opGroup fa.toNat fb.toNat) fa.toNat)) ++ (if sb = 1 then ks rb.toNat 2 else vs rb.toNat (2 * fragWords (opGroup fa.toNat fb.toNat) fb.toNat)) ++ ks ks_.toNat 1
  | .mconv _ _ fa fb _ kr rb sb _ _ ko _ =>
    (if sb = 1 then ks rb.toNat 2 else vs rb.toNat (2 * fragWords (opGroup fa.toNat fb.toNat) fb.toNat)) ++ ks kr.toNat 2 ++ ks ko.toNat 2
  | .mperm _ _ _ _ _ _ kp _ =>
    ks kp.toNat 1
  | .accld _ _ _ sp kx _ _ | .accst _ _ _ _ sp kx _ _ =>
    ks kx.toNat (if sp = 0 then 2 else 1)
  | .accrd _ _ _ _ kpos =>
    ks kpos.toNat 1
  | .accwr _ _ v n kpos =>
    ks kpos.toNat 1 ++ vs v.toNat (2 ^ n.toNat)
  | .atom _ _ a sp b _ w _ _ _ _ =>
    vs a.toNat (if sp = 0 then 2 else 1) ++ vs b.toNat (1 + w.toNat)
  | .cas _ _ a sp b c w _ _ _ =>
    vs a.toNat (if sp = 0 then 2 else 1) ++ vs b.toNat (1 + w.toNat) ++ vs c.toNat (1 + w.toNat)
  | .cpy _ dst src dsp ssp _ _ =>
    vs dst.toNat (if dsp = 0 then 2 else 1) ++ vs src.toNat (if ssp = 0 then 2 else 1)
  | .cpyt _ kr kc kt _ _ ring _ =>
    ks kr.toNat 2 ++ ks kc.toNat 4 ++ ks kt.toNat (1 + ring.toNat)
  | .cpyp _ kq kt _ _ _ ring _ _ =>
    ks kq.toNat 4 ++ ks kt.toNat (1 + ring.toNat)
  | .cpyx _ vi kb kd _ _ _ _ =>
    vs vi.toNat 1 ++ ks kb.toNat 2 ++ ks kd.toNat 1
  | .cpyf _ vd ks_ kr _ _ _ =>
    vs vd.toNat 2 ++ ks ks_.toNat 1 ++ ks kr.toNat 2
  | .ringinit _ kr _ _ =>
    ks kr.toNat 1
  | .rawait _ kr kt _ | .rrel _ kr kt =>
    ks kr.toNat 1 ++ ks kt.toNat 1
  | _ => []

/-- The engine class of a word (Table 3.4); none for a free word or a step. -/
def engineClass : Instr → Option Nat
  | .add _ _ _ _ | .sub _ _ _ _ | .mul _ _ _ _ | .mulh _ _ _ _ | .mad _ _ _ _ | .min _ _ _ _ | .max _ _ _ _
   | .abs _ _ _ | .neg _ _ _ | .div _ _ _ _ | .rem _ _ _ _ | .lea _ _ _ _ | .sel _ _ _ _ | .addK _ _ _ _
   | .subK _ _ _ _ | .mulK _ _ _ _ | .mulhK _ _ _ _ | .madK _ _ _ _ | .minK _ _ _ _ | .maxK _ _ _ _ | .absK _ _ _
   | .negK _ _ _ | .divK _ _ _ _ | .remK _ _ _ _ | .leaK _ _ _ _ | .selK _ _ _ _ | .and _ _ _ _ | .or _ _ _ _
   | .xor _ _ _ _ | .andn _ _ _ _ | .shl _ _ _ _ | .shr _ _ _ _ | .sra _ _ _ _ | .rot _ _ _ _ | .bfe _ _ _ _
   | .bfi _ _ _ _ | .popc _ _ _ | .clz _ _ _ | .brev _ _ _ | .andK _ _ _ _ | .orK _ _ _ _ | .xorK _ _ _ _
   | .andnK _ _ _ _ | .shlK _ _ _ _ | .shrK _ _ _ _ | .sraK _ _ _ _ | .rotK _ _ _ _ | .bfeK _ _ _ _ | .bfiK _ _ _ _
   | .popcK _ _ _ | .clzK _ _ _ | .brevK _ _ _ | .add64 _ _ _ _ | .sub64 _ _ _ _ | .mul64 _ _ _ _ | .mulh64 _ _ _ _
   | .min64 _ _ _ _ | .max64 _ _ _ _ | .shl64 _ _ _ _ | .shr64 _ _ _ _ | .sra64 _ _ _ _ | .addImm _ _ _ _
   | .andImm _ _ _ _ | .orImm _ _ _ _ | .xorImm _ _ _ _ | .shlImm _ _ _ _ _ | .shrImm _ _ _ _ _ | .sraImm _ _ _ _ _
   | .rotImm _ _ _ _ _ | .pmovv _ _ | .vpmov _ _ _ | .kmov _ _ _ | .kmovImm _ _ _ | .klane _ _ _ _ | .fadd _ _ _ _
   | .fsub _ _ _ _ | .fmul _ _ _ _ | .ffma _ _ _ _ | .fmin _ _ _ _ | .fmax _ _ _ _ | .fabs _ _ _ | .fneg _ _ _
   | .faddK _ _ _ _ | .fsubK _ _ _ _ | .fmulK _ _ _ _ | .ffmaK _ _ _ _ | .fminK _ _ _ _ | .fmaxK _ _ _ _
   | .fabsK _ _ _ | .fnegK _ _ _ | .faddF16x2 _ _ _ _ | .fsubF16x2 _ _ _ _ | .fmulF16x2 _ _ _ _
   | .ffmaF16x2 _ _ _ _ | .fminF16x2 _ _ _ _ | .fmaxF16x2 _ _ _ _ | .fabsF16x2 _ _ _ | .fnegF16x2 _ _ _
   | .faddBf16x2 _ _ _ _ | .fsubBf16x2 _ _ _ _ | .fmulBf16x2 _ _ _ _ | .ffmaBf16x2 _ _ _ _ | .fminBf16x2 _ _ _ _
   | .fmaxBf16x2 _ _ _ _ | .fabsBf16x2 _ _ _ | .fnegBf16x2 _ _ _ | .frcp _ _ _ | .frsq _ _ _ | .fsqrt _ _ _
   | .fex2 _ _ _ | .flg2 _ _ _ | .fsin _ _ _ | .fcos _ _ _ | .ftanh _ _ _ | .fcls _ _ _ | .fcmp _ _ _ _ _ _
   | .cvt _ _ _ _ _ _ _ | .cvtpk _ _ _ _ _ _ | .cvtup _ _ _ _ | .qunp _ _ _ _ _ | .qpk _ _ _ _ _ _ | .qtagGet _ _ _
   | .qtagSet _ _ _ | .shfl _ _ _ _ | .shfld _ _ _ _ | .shflx _ _ _ _ | .pcons _ _ _ _ | .lmask _ _ _
   | .red _ _ _ _ | .scan _ _ _ _ _ | .matchEq _ _ _ | .conflict _ _ _ | .hist _ _ _ | .jinit _ _ _ | .jsign _ _ _
   | .jwait _ _ _ | .jleave _ _ | .gsplit _ _ _ _ | .gjoin _ _ | .bru _ _ | .jmp _ _ | .call _ _ | .ret _ _
   | .jmpi _ _ _ | .exit _ | .brk _ _ | .trap _ _ | .yield _ =>
    some 0
  | .ld _ _ _ _ _ _ | .st _ _ _ _ _ _ | .ldx _ _ _ _ _ _ | .stx _ _ _ _ _ _ | .ldro _ _ _ _ _ _ | .fence _ _ _
   | .pf _ _ _ _ | .cmaintDropL1 _ | .cmaintCleanL2 _ _ _ | .cmaintFlushL2 _ _ _ | .cmaintDropL2 _ _ _
   | .ldp _ _ _ _ _ | .ldpr _ _ _ _ _ | .stp _ _ _ | .atom _ _ _ _ _ _ _ _ _ _ _ | .cas _ _ _ _ _ _ _ _ _ _ =>
    some 1
  | .maddm _ _ _ _ _ | .msubm _ _ _ _ _ | .mnegm _ _ _ _ | .mmulm _ _ _ _ _ | .mmacm _ _ _ _ _ | .mredm _ _ _ _
   | .bflyct _ _ _ _ _ | .bflygs _ _ _ _ _ | .nperm _ _ _ _ _ | .nrev _ _ _ _ | .nauto _ _ _ _ | .modset _ _ _ _ _ =>
    some 3
  | .spbegin _ _ _ | .spst _ _ _ _ | .spld _ _ _ _ | .spalloc _ _ _ | .spstate _ _ _ | .spcommit _ _ _
   | .spabort _ _ | .spquery _ _ _ | .treemask _ _ _ | .sysr _ _ _ | .sysw _ _ _ | .trapret _ | .tlbinv _ _ _ _ _
   | .cwb _ _ | .bankmode _ _ _ | .launch _ _ _ _ | .fqrpReplay _ _ | .fqrpSkip _ _ | .fqrpPeek _ _ | .halt _ _ =>
    some 5
  | .mma _ _ _ _ _ _ _ _ _ _ _ _ | .mmas _ _ _ _ _ _ _ _ _ _ _ _ _ | .mconv _ _ _ _ _ _ _ _ _ _ _ _
   | .mtrn _ _ _ _ _ _ | .mperm _ _ _ _ _ _ _ _ | .mred _ _ _ _ _ _ _ | .accz _ _ _ | .accld _ _ _ _ _ _ _
   | .accst _ _ _ _ _ _ _ _ | .accrd _ _ _ _ _ | .accwr _ _ _ _ _ =>
    some 2
  | .cpy _ _ _ _ _ _ _ | .cpyt _ _ _ _ _ _ _ _ | .cpyp _ _ _ _ _ _ _ _ _ | .cpyx _ _ _ _ _ _ _ _
   | .cpyf _ _ _ _ _ _ _ | .ringinit _ _ _ _ | .rawait _ _ _ _ | .rrel _ _ _ =>
    some 4
  | _ => none

/-- The control transfers (R82). -/
def isControl : Instr → Bool
  | .gsplit _ _ _ _ | .gjoin _ _ | .bru _ _ | .jmp _ _ | .call _ _ | .ret _ _ | .jmpi _ _ _ | .exit _ | .brk _ _
   | .trap _ _ | .yield _ | .trapret _ | .halt _ _ =>
    true
  | _ => false

/-- The counter a word counts on (Table 5.2, R194, R231, R232, R234, R244). -/
def counterClass : Instr → Option Counter
  | .ld _ _ _ _ _ _ | .ldx _ _ _ _ _ _ | .ldro _ _ _ _ _ _ | .ldp _ _ _ _ _ | .ldpr _ _ _ _ _ | .spld _ _ _ _
   | .cas _ _ _ _ _ _ _ _ _ _ =>
    some .ld
  | .st _ _ _ _ _ _ | .stx _ _ _ _ _ _ | .cmaintCleanL2 _ _ _ | .cmaintFlushL2 _ _ _ | .stp _ _ _ | .spst _ _ _ _
   | .cwb _ _ =>
    some .st
  | .spstate _ _ _ | .spcommit _ _ _ | .spabort _ _ | .cpy _ _ _ _ _ _ _ | .cpyt _ _ _ _ _ _ _ _
   | .cpyp _ _ _ _ _ _ _ _ _ =>
    some .cp
  | .mma _ _ _ _ _ _ _ _ _ _ _ _ | .mmas _ _ _ _ _ _ _ _ _ _ _ _ _ | .mconv _ _ _ _ _ _ _ _ _ _ _ _
   | .mtrn _ _ _ _ _ _ | .mperm _ _ _ _ _ _ _ _ | .mred _ _ _ _ _ _ _ | .accz _ _ _ | .accld _ _ _ _ _ _ _
   | .accst _ _ _ _ _ _ _ _ =>
    some .mx
  | .atom _ _ _ _ _ _ _ _ _ noret _ =>
    if noret = 1 then some .st else some .ld
  | .cpyx _ _ _ _ _ _ _ _ | .cpyf _ _ _ _ _ _ _ =>
    some .gx
  | _ => none

/-- The join field of a command (R163, R194). -/
def joinField : Instr → Option Nat
  | .mma _ _ _ _ _ _ _ _ _ _ _ j | .mmas _ _ _ _ _ _ _ _ _ _ _ _ j | .mconv _ _ _ _ _ _ _ _ _ _ _ j
   | .mtrn _ _ _ _ _ j | .mperm _ _ _ _ _ _ _ j | .mred _ _ _ _ _ _ j | .accz _ _ j | .accld _ _ _ _ _ _ j
   | .accst _ _ _ _ _ _ _ j | .cpy _ _ _ _ _ j _ | .cpyt _ _ _ _ _ _ _ j | .cpyp _ _ _ _ _ _ _ j _
   | .cpyx _ _ _ _ _ _ j _ | .cpyf _ _ _ _ _ j _ =>
    some j.toNat
  | _ => none

end Sys2Proof.Machine
end

