-- ==== Sys2Proof/Machine/Flags.lean ====
section
/-! DEFINITION. Every condition a word meets before it takes effect: condition codes (Tables 4.2, 6.4), guards (R78, R80),
legality in the clause (R79 to R83), privilege (R240), register numbers (R25), empty and poisoned registers (R15, R73,
R135, R335), locks, full counters and engines (R27, R28, R72, R165, R194), and the waits of WAIT, FENCE, ATOM, JWAIT,
RAWAIT and LAUNCH (R75). -/

namespace Sys2Proof.Machine

/-! ### Condition codes -/

/-- The integer condition codes (Table 4.2) on values of one width. -/
def intCond {w : Nat} (c : Nat) (a b : BitVec w) : Bool :=
  match c with
  | 0 => a == b
  | 1 => a != b
  | 2 => a.slt b
  | 3 => a.sle b
  | 4 => b.slt a
  | 5 => b.sle a
  | 6 => a.ult b
  | 7 => a.ule b
  | 8 => b.ult a
  | 9 => b.ule a
  | 10 => (a &&& b) != 0
  | _ => (a &&& b) == 0

/-- The conditions of CMP immediate (R107) as codes of Table 4.2: 7 is hs. -/
def immCond (c : Nat) : Nat := if c = 7 then 9 else c

/-- How a comparison combines with the old predicate (R106): 0 set, 1 and, 2 or. -/
def combine (comb : Nat) (c old : Bool) : Bool := if comb = 1 then old && c else if comb = 2 then old || c else c

/-! ### Where a word stands -/

/-- The site of a word: core, block, gang, the issuing unit, the header in force, slot, the word's own bits. -/
structure Site where
  core : Nat
  blk  : Nat
  gang : Nat
  unit : ExecUnit
  hdr  : Word
  slot : Nat
  w    : Word
  w2   : Word
  wide : Nat
  deriving DecidableEq, Repr

/-- The address of the header in force. -/
abbrev Site.hdrAddr (t : Site) : Nat := rpHeader t.unit.pc

/-- The lowest lane of the unit. -/
abbrev Site.lane (t : Site) : Nat := lowest t.unit.lanes

/-- The resume point after a word of some slots at a site: the next slot, or the next clause's header (R68). -/
def Site.after (t : Site) (width : Nat) : Dword :=
  if t.slot + width < hdrCount t.hdr then resumeAt (rpAddr t.unit.pc + 4 * width) (t.slot + width)
  else resumeAt (t.hdrAddr + 4 * (hdrCount t.hdr + 1)) 15

/-- The site of the word that the run of the core in focus stands at, for words of the given bits. -/
def siteFor (s : State) (w w2 : Word) (wide : Nat) : Option Site :=
  match (getCore s s.focus).run with
  | none => none
  | some r =>
    match unitWith (getGang s r.block r.gang) r.lane with
    | none => none
    | some u =>
      if rpSlot u.pc = 15 then none
      else some { core := s.focus, blk := r.block, gang := r.gang, unit := u, hdr := r.hdr, slot := rpSlot u.pc,
                  w := w, w2 := w2, wide := wide }

/-- The site's gang. -/
abbrev Site.g (t : Site) (s : State) : Gang := getGang s t.blk t.gang

/-! ### Side state of the registers a word names -/

/-- Whether a register is empty for a lane (Table 1.3). -/
def refEmpty (g : Gang) (l : Nat) : RegRef → Bool
  | .v n => (vReg (threadOf g l) n).empty
  | .k n => (kReg g n).empty
  | .p n => (pReg (threadOf g l) n).empty
  | .q n => (qReg g n).empty

/-- Whether a register is poisoned for a lane. -/
def refPoison (g : Gang) (l : Nat) : RegRef → Bool
  | .v n => (vReg (threadOf g l) n).poison
  | .k n => (kReg g n).poison
  | .p n => (pReg (threadOf g l) n).poison
  | .q n => (qReg g n).poison

/-- Whether a register is read-locked for a lane (R28). -/
def refLocked (g : Gang) (l : Nat) : RegRef → Bool
  | .v n => (vReg (threadOf g l) n).locks != 0
  | .k n => (kReg g n).locks != 0
  | _ => false

/-- Whether a k register can be written now by a word that has issued: no fill of it is pending (R27), and no engine has
still to read it (R28). -/
def kWritable (g : Gang) (n : Nat) : Bool := !refEmpty g 0 (.k n) && !refLocked g 0 (.k n)

/-- Whether any of a word's sources is poisoned for a lane: what it writes is then poisoned (R29). -/
def anyPoison (g : Gang) (l : Nat) (rs : List RegRef) : Bool := rs.any (refPoison g l)

/-! ### Legality in the clause (R79 to R83, R119, R120, R222, R245) -/

/-- Reason codes that come from the word's place in its clause (R81, R82, R83). -/
def placeReasons (t : Site) (i : Instr) : List Nat :=
  (match engineClass i with | some c => if c = hdrClass t.hdr then [] else [7] | none => []) ++
  (if isControl i ∧ t.slot + 1 ≠ hdrCount t.hdr then [8] else []) ++
  (if i.words = 2 ∧ hdrCount t.hdr ≤ t.slot + 1 then [9] else [])

/-- Whether a two-word instruction starts in its clause's last slot (R83). -/
abbrev startsLast (t : Site) (i : Instr) : Bool := i.words == 2 && decide (hdrCount t.hdr ≤ t.slot + 1)

/-- Reason codes that an instruction's fields give it at its place: in the last slot of a clause those of the first word alone. -/
def fieldReasonsAt (t : Site) (i : Instr) : List Nat := if startsLast t i then firstWordReasons i else legality i

/-- The pairs a lane holds for NAUTO, as a power of two (R222). -/
abbrev nautoLog (kg : Word) : Nat := bitsOf kg.toNat 9 8

/-- Reason codes that come from operand values (R222, R245) and from a guard that the member does not admit (R119, R120). -/
def valueReasons (g : Gang) (i : Instr) : List Nat :=
  match i with
  | .gsplit gd _ _ _ => if gd = 7 then [] else [0x0E]
  | .gjoin gd _ => if gd = 7 then [] else [0x0E]
  | .nauto _ d a kg =>
    let k := (kReg g kg.toNat).val
    let c := 2 * 2 ^ nautoLog k
    let gv := bitsOf k.toNat 7 0
    if (kReg g kg.toNat).empty then []
    else if nautoLog k = 3 then [0x0E]
    else (if gv % 2 = 0 ∨ 64 * 2 ^ nautoLog k ≤ gv then [0x0E] else []) ++
      groupR c d ++ groupR c a
  | .bankmode _ _ a =>
    let k := kReg g a.toNat
    if ¬ k.empty ∧ (List.range 16).any (fun b => bankModeOf k.val b == 3) then [0x0E] else []
  | _ => []

/-- Whether a word is privileged (R240). -/
def needsPrivilege : Instr → Bool
  | .bankmode _ _ _ => true
  | .tlbinv _ _ ctx _ _ => ctx == 1
  | .cwb _ ctx => ctx == 1
  | _ => false

/-- The join register a word names (R123, R163). -/
def joinIndex (i : Instr) : Option Nat :=
  match i with
  | .jinit _ _ j | .jwait _ _ j | .jsign _ _ j => some j.toNat
  | .jleave _ j => some j.toNat
  | i => match joinField i with | some j => if j < 8 then some j else none | none => none

/-- The tiles a word names (R25). -/
def tilesNamed : Instr → List Nat
  | .mma _ a _ _ _ _ _ _ _ _ _ _ | .mmas _ a _ _ _ _ _ _ _ _ _ _ _ | .mconv _ a _ _ _ _ _ _ _ _ _ _ => [a.toNat]
  | .mtrn _ d t _ _ _ | .mperm _ d t _ _ _ _ _ | .mred _ d t _ _ _ _ => [d.toNat, t.toNat]
  | .accz _ t _ | .accld _ t _ _ _ _ _ | .accst _ t _ _ _ _ _ _ | .accrd _ t _ _ _ | .accwr _ t _ _ _ => [t.toNat]
  | _ => []

/-- The trap for a register number at or above what the block declared (R25, R125, Table 6.8). Of two tiles that are both not
allocated, d is recorded: DESIGN CHOICE, log 120. -/
def numberTrap (s : State) (b : Block) (i : Instr) : Option Trap :=
  let r := blockRecord s b
  match joinIndex i with
  | some j =>
    if r.joins ≤ j then
      some { cause := 0x0C, aux0 := BitVec.ofNat 32 j, aux1 := 1, aux2 := BitVec.setWidth 32 (tget {} b.joins j).phase }
    else ((tilesNamed i).find? (fun t => r.tiles ≤ t)).map (fun t => { cause := 0x15, aux0 := BitVec.ofNat 32 t, aux1 := 1 })
  | none => ((tilesNamed i).find? (fun t => r.tiles ≤ t)).map (fun t => { cause := 0x15, aux0 := BitVec.ofNat 32 t, aux1 := 1 })

/-! ### Rings (R176 to R180) -/

/-- A 32-bit word of a block's local store. -/
def lword (b : Block) (o : Nat) : Nat := leNat (tgetMany 0 b.lstore o 4)

/-- A slot of a ring: its offset, its generation, its gap bit and its f. -/
structure RingSlot where
  off : Nat
  gen : Nat
  gap : Bool
  f   : Nat
  deriving DecidableEq, Repr

/-- Why a ring's slot cannot be reached: a reason of RING_STATE (R181), or the offset of bytes outside the window (R133). -/
inductive RingFault where
  | state (reason : Nat)
  | range (off : Nat)
  deriving DecidableEq, Repr

/-- The header of the slot that a ticket names in the ring at an offset (R176, R179, R180): 1 no marker, 2 no such slot. -/
def ringHeader (b : Block) (size kr : Nat) (ticket : Word) : Except RingFault RingSlot :=
  if size < kr + 16 then .error (.range kr)
  else
    let w0 := lword b kr
    let n := bitsOf ticket.toNat 19 16
    let o := kr + 16 + n * lword b (kr + 4)
    if w0 / 2 ^ 16 ≠ 0x91A7 then .error (.state 1)
    else if bitsOf w0 15 12 < n then .error (.state 2)
    else if size < o + 16 then .error (.range o)
    else .ok { off := o, gen := lword b (o + 4) % 2 ^ 16, gap := (lword b o).testBit 15, f := bitsOf (lword b o) 4 0 }

/-- The slot that a ticket names, where its header can be read: what RING_STATE records in sys.taux2 (R181). -/
def headedSlot (b : Block) (size kr : Nat) (ticket : Word) : Option RingSlot :=
  match ringHeader b size kr ticket with
  | .ok x => some x
  | .error _ => none

/-- The slot that a ring command targets, or the reason of RING_STATE (R178): 1 no marker, 2 no such slot, or one that does
not lie wholly within the window. The word has checked that the record lies there (R164). -/
def ringSlot (b : Block) (size kr : Nat) (ticket : Word) : Except Nat RingSlot :=
  match ringHeader b size kr ticket with
  | .ok x => if size < x.off + lword b (kr + 4) then .error 2 else .ok x
  | .error (.state r) => .error r
  | .error (.range o) => .error (if o = kr then 1 else 2)

/-- Whether a slot has passed a generation (R178). -/
def genPassed (slotGen g : Nat) : Bool := let d := (slotGen + 2 ^ 16 - g) % 2 ^ 16; 1 ≤ d && d ≤ 32767

/-- What RAWAIT finds (R179): the wait holds, it goes on, or what it raises. -/
def ringAwait (b : Block) (size kr : Nat) (ticket : Word) (n : Nat) : Except RingFault Bool :=
  match ringHeader b size kr ticket with
  | .error r => .error r
  | .ok x =>
    let g := ticket.toNat % 2 ^ 16
    if genPassed x.gen g then .error (.state 3)
    else if x.gen ≠ g then .ok false
    else if n ≤ x.f then .ok true
    else if x.gap then .error (.state 4) else .ok false

/-! ### What holds a word back (R75, item 4) -/

/-- The kind of a command signature (R163): xop, bits 13 to 0 of the first word and the second word. -/
def commandKind (i : Instr) : JoinKind :=
  let ws := Sys2Proof.encode i
  .command ((ws.headD 0).extractLsb' 0 22 |>.setWidth 32) (ws.getD 1 0)

/-- What a signature of a thread meets (R122): the reason of JOIN_STATE, or none where it is made. -/
def signError (j : JoinReg) (who : ThreadRef) (kind : JoinKind) : Option Nat :=
  if j.armed = false ∨ ¬ (who ∈ j.members) then some 2
  else if who ∈ j.signed then some 3
  else if j.kind ≠ .none ∧ j.kind ≠ kind then some 5
  else none

/-- Whether every member has signed. -/
def allSigned (j : JoinReg) : Bool := j.armed && j.members != [] && j.members.all (fun m => j.signed.contains m)

/-- The commands that go to the skidder (R165, R231, R232). -/
def isSkidder : Instr → Bool
  | .cpy _ _ _ _ _ _ _ | .cpyt _ _ _ _ _ _ _ _ | .cpyp _ _ _ _ _ _ _ _ _ | .cpyx _ _ _ _ _ _ _ _ => true
  | .spstate _ _ _ | .spcommit _ _ _ | .spabort _ _ => true
  | _ => false

/-- Whether a command goes to the forwarder (R175). -/
def isForwarder : Instr → Bool
  | .cpyf _ _ _ _ _ _ _ => true
  | _ => false

/-- The tile operations that are commands, in flight at a core (R194). -/
def commandsIn (c : Core) : Nat := (c.mx.filter (fun m => counterClass m.instr == some .mx)).length

/-- Whether the engine of a command has no room for it (R165, R194). -/
def engineAtLimit (s : State) (core : Nat) (i : Instr) : Bool :=
  (isSkidder i && 48 ≤ (getCore s core).skid.length) ||
  (counterClass i == some .mx && 8 ≤ commandsIn (getCore s core))

/-- The join register after the signatures of some lanes of a gang. -/
def signedBy (j : JoinReg) (g : Nat) (act : BitVec 32) (kind : JoinKind) : JoinReg :=
  { j with signed := j.signed ++ ((lanesOf act).map (fun l => (g, l))).filter (fun m => signError j m kind == none) }

/-- The join register without some members that have not signed (R122). -/
def withoutMembers (j : JoinReg) (g : Nat) (act : BitVec 32) : JoinReg :=
  { j with members := j.members.filter (fun m => j.signed.contains m || !(m.1 == g && act.getLsbD m.2)) }

/-- Whether the engine is full for a command that lanes leaving a join register would issue (R122, R165, R194). -/
def leaveIsFull (s : State) (core g : Nat) (act : BitVec 32) (j : JoinReg) : Bool :=
  !allSigned j && allSigned (withoutMembers j g act) &&
    (match j.kind with
     | .command w1 w2 =>
       (match decodeWords (w1 ||| 0xFDC00000) w2 with
        | .ok i => engineAtLimit s core i
        | .error _ => false)
     | _ => false)

/-- Whether a counter or an engine is full for a word (R72, R165, R194). -/
def engineFull (s : State) (t : Site) (b : Block) (act : BitVec 32) (i : Instr) : Bool :=
  let g := gangOf b t.gang
  let signed := match joinField i with | some j => if j < 8 then some (tget ({} : JoinReg) b.joins j) else none | none => none
  let issues := match signed with | some j => allSigned (signedBy j t.gang act (commandKind i)) | none => true
  let counts := match signed with | some j => !j.signed.any (fun m => m.1 == t.gang) | none => true
  (match counterClass i with | some c => counts && 63 ≤ counterOf g c | none => false) ||
  (issues && engineAtLimit s t.core i) ||
  (match i with
   | .jleave _ j => leaveIsFull s t.core t.gang act (tget {} b.joins j.toNat)
   | .exit _ => b.joins.any (fun e => leaveIsFull s t.core t.gang act e.2)
   | _ => false)

/-- Whether an access of some threads of a gang to the local store has not taken effect: the ring members read and write
it at their words, after the accesses that their threads issued before them (R139). -/
def lstoreBusy (s : State) (blk g : Nat) (act : BitVec 32) : Bool :=
  s.ops.any (fun e =>
    match e.2 with
    | none => false
    | some o =>
      o.block == blk && o.gang == g &&
        o.accs.any (fun a =>
          !a.stage.over && a.lanes &&& act != 0 && (match targetOf a.space a.va.toNat with | .lstore _ => true | _ => false)))

/-- Whether a word's own description suspends its unit at the word (R75, R139, R145, R146, R149, R124, R179, R246). -/
def ownWait (s : State) (t : Site) (b : Block) (act : BitVec 32) (i : Instr) : Bool :=
  let g := gangOf b t.gang
  let drained := counterOf g .st == 0 && counterOf g .ld == 0
  match i with
  | .wait _ ctr thr => !waitHolds g ctr.toNat thr.toNat
  | .fence _ _ kind => kind != 0 && !drained
  | .atom _ _ _ _ _ _ _ _ order _ _ => 2 ≤ order.toNat && !drained
  | .cas _ _ _ _ _ _ _ _ order _ => 2 ≤ order.toNat && !drained
  | .launch _ _ _ _ => counterOf g .st != 0
  | .jwait _ a j =>
    let x := tget ({} : JoinReg) b.joins j.toNat
    x.armed && (lanesOf act).any (fun l => (vReg (threadOf g l) a.toNat).val.extractLsb' 0 16 == x.phase)
  | .ringinit _ _ _ _ => lstoreBusy s t.blk t.gang act
  | .rrel _ _ _ => lstoreBusy s t.blk t.gang act
  | .rawait _ kr kt n =>
    if lstoreBusy s t.blk t.gang act then true
    else if (kReg g kr.toNat).val.toNat % 64 ≠ 0 then false
    else
    match ringAwait b (lstoreSize s b) (kReg g kr.toNat).val.toNat (kReg g kt.toNat).val n.toNat with
    | .ok go => !go
    | .error _ => false
  | _ => false

/-! ### The gate -/

/-- What a word meets: no unit; a hold at the word (R75); or it issues, for the lanes that do not trap on their guard
(`issuing`), with the lanes it is active for, and traps already raised. -/
inductive Gate where
  | noUnit
  | hold
  | go (t : Site) (issuing active : BitVec 32) (traps : List (Nat × Trap))
  deriving DecidableEq, Repr

/-- Whether a word takes effect whatever its guard (R100). -/
def isSel : Instr → Bool
  | .sel _ _ _ _ => true
  | .selK _ _ _ _ => true
  | _ => false

/-- The registers a word reads; NAUTO's group has the size its k register gives (R222). -/
def sourcesAt (g : Gang) (i : Instr) : List RegRef :=
  match i with
  | .nauto _ _ a kg => sources i ++ vs a.toNat (2 * 2 ^ nautoLog (kReg g kg.toNat).val)
  | i => sources i

/-- The registers a word writes; NAUTO's group has the size its k register gives (R222). -/
def destsAt (g : Gang) (i : Instr) : List RegRef :=
  match i with
  | .nauto _ d _ kg => vs d.toNat (2 * 2 ^ nautoLog (kReg g kg.toNat).val)
  | i => dests i

/-- A trap at the word of a site, whose resume point is the word's own (R330). -/
def Site.trap (t : Site) (x : Trap) : Trap := { x with tpc := some t.unit.pc }

/-- EMPTY_READ or POISON_CONSUMED for a register (Table 13.1). -/
def regTrap (t : Site) (cause : BitVec 8) (r : RegRef) : Trap := t.trap { cause := cause, aux0 := t.w, aux1 := r.identity }

/-- ILLEGAL (R79). -/
def illegalTrap (t : Site) (reason : Nat) : Trap :=
  t.trap { cause := 1, aux0 := t.w, aux1 := BitVec.ofNat 32 reason, aux2 := if t.wide = 2 then t.w2 else 0 }

/-- The registers whose empty bit traps in a lane (R73): every source, but for SEL the source that the lane chooses (R100). -/
def trapSources (g : Gang) (i : Instr) (l : Nat) : List RegRef :=
  let chosen (gd : BitVec 4) (x y : RegRef) : List RegRef :=
    [if (pReg (threadOf g l) (gd.extractLsb' 0 3).toNat).val != gd.getLsbD 3 then x else y]
  match i with
  | .sel gd _ a b => chosen gd (.v a.toNat) (.v b.toNat)
  | .selK gd _ a b => chosen gd (.v a.toNat) (.k b.toNat)
  | i => sourcesAt g i

/-- The first empty source of a lane. -/
def emptyOf (g : Gang) (l : Nat) (rs : List RegRef) : Option RegRef := rs.find? (refEmpty g l)

/-- Guards (R78, R80, R73): the traps that reading the guard raises in each lane. -/
def guardTraps (t : Site) (g : Gang) (gd : BitVec 4) : List (Nat × Trap) :=
  let p := (gd.extractLsb' 0 3).toNat
  (lanesOf t.unit.lanes).filterMap (fun l =>
    if refEmpty g l (.p p) then some (l, regTrap t 4 (.p p))
    else if refPoison g l (.p p) then some (l, regTrap t 5 (.p p))
    else none)

/-- The lanes of a mask that a list of traps names. -/
def trapMask (traps : List (Nat × Trap)) : BitVec 32 := maskWhere (fun l => traps.any (fun e => e.1 == l))

/-- The lanes whose guard holds (R78). -/
def guardHolds (g : Gang) (gd : BitVec 4) (m : BitVec 32) : BitVec 32 :=
  maskWhere (fun l => m.getLsbD l && (pReg (threadOf g l) (gd.extractLsb' 0 3).toNat).val != gd.getLsbD 3)

/-- Whether a gang's unit may not issue at all: it waits, a deferred fault of one of its threads comes first (R137), or a
thread's trap is pending (R344). -/
def unitBlocked (g : Gang) (u : ExecUnit) : Bool :=
  u.wait != .none || (lanesOf u.lanes).any (fun l =>
    let x := threadOf g l
    (!x.deferred.isEmpty && !x.handler) || x.stalled != none)

/-- The traps of each active lane from its operands (R332, items 4 and 5): EMPTY_READ where the policy bit says so, then
POISON_CONSUMED. -/
def operandTraps (t : Site) (g : Gang) (i : Instr) (act : BitVec 32) : List (Nat × Trap) :=
  (lanesOf act).filterMap (fun l =>
    match emptyOf g l (trapSources g i l) with
    | some r => some (l, regTrap t 4 r)
    | none => ((consumed i).find? (refPoison g l)).map (fun r => (l, regTrap t 5 r)))

/-- What an instruction's word meets at a site, once its guard has been read: legality, privilege and register numbers
for every active lane, then the operands of each lane, then what holds it back. -/
def gateActive (s : State) (t : Site) (b : Block) (i : Instr) (iss act : BitVec 32) (traps : List (Nat × Trap)) : Gate :=
  let g := gangOf b t.gang
  let everyone (x : Trap) : Gate := .go t iss 0 (traps ++ (lanesOf act).map (fun l => (l, x)))
  let reason := lowestReason (fieldReasonsAt t i ++ placeReasons t i ++ valueReasons g i)
  if reason ≠ 0 then everyone (illegalTrap t reason)
  else if needsPrivilege i ∧ (getContext s b.ctx).privileged = false then everyone (t.trap { cause := 0x16, aux0 := t.w })
  else
    match numberTrap s b i with
    | some x => everyone (t.trap x)
    | none =>
      if hdrTraps t.hdr t.slot = false ∧ (lanesOf act).any (fun l => (emptyOf g l (sourcesAt g i)).isSome) then .hold
      else
        let more := operandTraps t g i act
        let act' := act &&& ~~~ trapMask more
        if act' ≠ 0 ∧
            ((lanesOf act').any (fun l => (destsAt g i).any (fun r => refEmpty g l r || refLocked g l r)) ||
             engineFull s t b act' i || ownWait s t b act' i) then .hold
        else .go t iss act' (traps ++ more)

/-- Whether a word would block on its guard, empty in an issuing thread, under a policy bit of 0 (R15, R73). -/
def guardBlocked (t : Site) (g : Gang) (gd : BitVec 4) : Bool :=
  gd != 15 && !hdrTraps t.hdr t.slot && (guardTraps t g gd).any (fun e => e.2.cause == 4)

/-- Whether a word would block on an empty register (R15, R73): its guard in an issuing thread, or a source in an active
one, under a policy bit of 0. -/
def readsBlocked (t : Site) (g : Gang) (i : Instr) : Bool :=
  let gd := i.guard
  if gd = 15 ∨ hdrTraps t.hdr t.slot = true then false
  else
    guardBlocked t g gd ||
    (lanesOf (if isSel i then t.unit.lanes else guardHolds g gd t.unit.lanes)).any
      (fun l => (emptyOf g l (sourcesAt g i)).isSome)

/-- The gate of an instruction at a site. An issuing thread whose guard is poisoned takes POISON_CONSUMED before the word's
legality is judged: DESIGN CHOICE, log 84. -/
def gateAt (i : Instr) (s : State) (t : Site) : Gate :=
  match getBlock s t.blk with
  | none => .noUnit
  | some b =>
    let g := gangOf b t.gang
    let gd := i.guard
    if unitBlocked g t.unit then .hold
    else if gd = 15 then .go t t.unit.lanes 0 []
    else
      let traps := guardTraps t g gd
      if hdrTraps t.hdr t.slot = false ∧ traps.any (fun e => e.2.cause == 4) then .hold
      else
        let iss := t.unit.lanes &&& ~~~ trapMask traps
        let act := if isSel i then iss else guardHolds g gd iss
        if act = 0 then .go t iss 0 traps else gateActive s t b i iss act traps

/-- The gate of an instruction at the core in focus. -/
def gate (i : Instr) (s : State) : Gate :=
  let ws := Sys2Proof.encode i
  match siteFor s (ws.headD 0) (ws.getD 1 0) i.words with
  | none => .noUnit
  | some t => gateAt i s t

/-- The gate of words that hold no instruction (R79, R83, R85): ILLEGAL in the active lanes, with the lowest reason that
the words, or the place of the member they name, give; in the last slot of a clause the first word alone is judged. -/
def gateIllegalAt (reason : Nat) (s : State) (t : Site) : Gate :=
  let g := getGang s t.blk t.gang
  let gd := guardOf t.w
  if unitBlocked g t.unit then .hold
  else if gd = 15 then .go t t.unit.lanes 0 []
  else
    let traps := guardTraps t g gd
    if hdrTraps t.hdr t.slot = false ∧ traps.any (fun e => e.2.cause == 4) then .hold
    else
      let iss := t.unit.lanes &&& ~~~ trapMask traps
      let act := guardHolds g gd iss
      let reasons := match decodeFields t.w t.w2 with
        | some i =>
          (if startsLast t i then reservedReasons t.w t.w2 i ++ firstWordReasons i else [reason]) ++ placeReasons t i
        | none => [reason]
      .go t iss 0 (traps ++ (lanesOf act).map (fun l => (l, illegalTrap t (lowestReason reasons))))

end Sys2Proof.Machine
end

