-- ==== Sys2Proof/Machine/Issue.lean ====
section
/-! DEFINITION. How a word issues and what follows it: its effect on the unit that issues it (R11, R14), the end of a run
(R75), clause headers (R68 to R71), the fetch of a clause (R258), and the choice of a unit (R21). Every instruction
word's meaning is one of the shapes here applied to what its description says it does in the active threads. -/

namespace Sys2Proof.Machine

/-! ### What a word does to its unit -/

/-- Lanes that go on together after a word: where, what they wait for, and the transfer that takes them there (R89). -/
structure Move where
  lanes : BitVec 32
  pc    : Dword
  wait  : UnitWait := .none
  via   : Option (Dword × Dword) := none
  deriving DecidableEq, Repr

/-- The effect of a word: the state it leaves, the traps it raises, where lanes go, and whether it ends the run. -/
structure Effect where
  st    : State
  traps : List (Nat × Trap) := []
  moves : List Move
  ends  : Bool := false
  deriving DecidableEq, Repr

/-- The run of a core ended (R75). -/
def endRun (s : State) (core : Nat) : State := modCore s core (fun c => { c with run := none })

/-- The run goes on at a resume point; at the end of a clause it is counted, and the run ends after a clause whose
header says so and after the fourth (R75, items 1 and 2). -/
def goOn (s : State) (core : Nat) (pc : Dword) : State :=
  match (getCore s core).run with
  | none => s
  | some r =>
    if rpSlot pc ≠ 15 then s
    else if hdrEnds r.hdr ∨ 4 ≤ r.clauses + 1 then endRun s core
    else modCore s core (fun c => { c with run := some { r with clauses := r.clauses + 1 } })

/-- A move made: its lanes become one unit, which keeps the last issue of the unit they leave (R21). -/
def makeMove (t : Site) (s : State) (m : Move) : State :=
  putUnit s t.blk t.gang { lanes := m.lanes, pc := m.pc, lastIssue := t.unit.lastIssue, wait := m.wait, via := m.via }

/-- The state after a word (R14, R75): traps are taken, the other lanes go on, and the run goes on only where the whole
unit goes on without waiting. -/
def finish (t : Site) (e : Effect) : State :=
  let trapped := trapMask e.traps
  let s := if e.traps.isEmpty then e.st else takeTraps e.st t.blk t.gang e.traps t.unit.pc t.unit.lastIssue
  let moves := (e.moves.map (fun m => { m with lanes := m.lanes &&& ~~~trapped })).filter (fun m => m.lanes != 0)
  let s := moves.foldl (makeMove t) s
  match moves with
  | [m] => if m.lanes = t.unit.lanes ∧ e.ends = false ∧ m.wait = .none then goOn s t.core m.pc else endRun s t.core
  | _ => endRun s t.core

/-- All lanes of a mask go on after a word of some slots. -/
abbrev Site.onward (t : Site) (width : Nat) (lanes : BitVec 32) : List Move := [{ lanes := lanes, pc := t.after width }]

/-- A word run through its gate: `eff` gives the effect for the issuing and the active lanes when any is active. -/
def throughGate (gt : Gate) (width : Nat) (s : State) (eff : Site → BitVec 32 → BitVec 32 → Effect) :
    Host.Outcome State Fault Refusal :=
  match gt with
  | .noUnit => .fault .noIssuingUnit
  | .hold => .next (endRun s s.focus)
  | .go t iss act traps =>
    if act = 0 then .next (finish t { st := s, traps := traps, moves := t.onward width iss })
    else
      let e := eff t iss act
      .next (finish t { e with traps := traps ++ e.traps })

/-- An instruction word at the core in focus. -/
def runWord (i : Instr) (s : State) (eff : Site → BitVec 32 → BitVec 32 → Effect) :
    Host.Outcome State Fault Refusal := throughGate (gate i s) i.words s eff

/-! ### The shapes of words -/

/-- A thread's outcome at a word: its new state, or a trap at the word. -/
abbrev LaneResult := Except Trap Thread

/-- A word that acts in each active thread from the gang's registers before it, for the word's participants (R128): a
thread that meets a trap keeps its registers (R14). -/
def lanesWord (i : Instr) (s : State) (f : Site → Gang → List Nat → Nat → LaneResult) : Host.Outcome State Fault Refusal :=
  runWord i s (fun t iss act =>
    let g := t.g s
    { st := modGang s t.blk t.gang (fun x => (lanesOf act).foldl (fun x l =>
        match f t g (lanesOf act) l with
        | .ok y => modThreadOf x l (fun _ => y)
        | .error _ => x) x)
      traps := (lanesOf act).filterMap (fun l =>
        match f t g (lanesOf act) l with
        | .ok _ => none
        | .error x => some (l, t.trap x))
      moves := t.onward i.words iss })

/-- A word that acts in each active thread alone. -/
def laneWord (i : Instr) (s : State) (f : Site → Gang → Nat → LaneResult) : Host.Outcome State Fault Refusal :=
  lanesWord i s (fun t g _ l => f t g l)

/-- A word that writes one v register in each active thread; poison travels from its sources (R29, R97). -/
def vWord (i : Instr) (s : State) (d : Nat) (f : Gang → Nat → Thread → Word) : Host.Outcome State Fault Refusal :=
  laneWord i s (fun _ g l =>
    let x := threadOf g l
    .ok (writeV x d (f g l x) (anyPoison g l (sources i))))

/-- A word that writes a v pair in each active thread. -/
def pairWord (i : Instr) (s : State) (d : Nat) (f : Gang → Nat → Thread → Dword) : Host.Outcome State Fault Refusal :=
  laneWord i s (fun _ g l =>
    let x := threadOf g l
    .ok (writePair x d (f g l x) (anyPoison g l (sources i))))

/-- A word that writes one predicate in each active thread. -/
def predWord (i : Instr) (s : State) (pd : Nat) (f : Gang → Nat → Thread → Bool) : Host.Outcome State Fault Refusal :=
  laneWord i s (fun _ g l =>
    let x := threadOf g l
    .ok (writeP x pd (f g l x) (anyPoison g l (sources i))))

/-- A word that acts across its active threads (R128): `f` gives each participant's result and its poison. -/
def crossWord (i : Instr) (s : State) (f : Gang → List Nat → Nat → Thread → Thread) :
    Host.Outcome State Fault Refusal :=
  runWord i s (fun t iss act =>
    let g := t.g s
    { st := modGang s t.blk t.gang (fun x => (lanesOf act).foldl (fun x l =>
        modThreadOf x l (fun _ => f g (lanesOf act) l (threadOf g l))) x)
      moves := t.onward i.words iss })

/-- A word that acts once for its unit on its gang. -/
def gangWord (i : Instr) (s : State) (f : Gang → BitVec 32 → Gang) : Host.Outcome State Fault Refusal :=
  runWord i s (fun t iss act =>
    { st := modGang s t.blk t.gang (fun g => f g act), moves := t.onward i.words iss })

/-- A word that acts once for its unit on the machine; the run goes on unless `ends`. -/
def onceWord (i : Instr) (s : State) (ends : Bool) (f : Site → BitVec 32 → State) : Host.Outcome State Fault Refusal :=
  runWord i s (fun t iss act => { st := f t act, moves := t.onward i.words iss, ends := ends })

/-! ### Fetching (R68 to R71, R258) -/

/-- A code word fetched for a block at its core. -/
abbrev fetchFor (s : State) (core id : Nat) (b : Block) (addr : Nat) : Fetched × State :=
  fetchNow s core id b.launch b.ctx addr

/-- The two words at a place in code, with the state that has fetched them. The second is 0 after the last slot of a
clause, where the next clause's header stands (R83): DESIGN CHOICE, log 77; where it cannot be read; and behind a reserved xop of
major 0x3F: DESIGN CHOICE, log 99. sys.taux2 then records 0 (R79, R85). -/
def fetchPair (s : State) (core id : Nat) (b : Block) (addr : Nat) (last : Bool) : Option (Word × Word) × State :=
  match fetchFor s core id b addr with
  | (.word w, s) =>
    if last then (some (w, 0), s)
    else
      match fetchFor s core id b (addr + 4) with
      | (.word w2, s) => (some (w, if decodeFields w w2 = none then 0 else w2), s)
      | (_, s) => (some (w, 0), s)
  | (_, s) => (none, s)

/-- The words of a clause fetched in turn, by their places after its header: the first that cannot be, with what its fetch
gives. -/
def fetchWords (s : State) (core id : Nat) (b : Block) (hdr : Nat) : List Nat → Option (Nat × Fetched) × State
  | [] => (none, s)
  | i :: is =>
    match fetchFor s core id b (hdr + 4 * (i + 1)) with
    | (.word _, s) => fetchWords s core id b hdr is
    | (f, s) => (some (hdr + 4 * (i + 1), f), s)

/-- The end of a run at a clause that cannot be fetched (R258, R136, R385): PAGE_FAULT in every issuing thread with the
header's resume point, one permission violation (R342), or a freeze for uncorrectable data; a fetch that waits is made again. -/
def fetchFault (s : State) (core id g : Nat) (u : ExecUnit) (addr : Nat) (f : Fetched) : State :=
  let va : Dword := BitVec.ofNat 64 (codeVa addr)
  let here := resumeAt (rpHeader u.pc) 15
  let s := endRun s core
  match f with
  | .noExec => deferLanes s id g (lanesOf u.lanes)
      { cause := 9, tpc := none, aux0 := lo32 va, aux1 := hi32 va, aux3 := 0x300 }
  | .bad => freezeData s id g (lowest u.lanes) here va
  | .noPage =>
    takeTraps s id g ((lanesOf u.lanes).map (fun l =>
      (l, { cause := 8, tpc := some here, aux0 := lo32 va, aux1 := hi32 va })))
      u.pc u.lastIssue
  | _ => s

/-- What a unit finds at the clause it stands in or before. -/
inductive Clause where
  /-- A word that cannot be fetched. -/
  | unfetched (addr : Nat) (f : Fetched)
  /-- A header that fails its check, or a slot at or above its count (0x10): the header and the reason. -/
  | failed (h : Word) (reason : Nat)
  | valid (h : Word)
  deriving DecidableEq, Repr

/-- The clause a unit stands at (R69, R76, R258), and the state that has fetched it: all its words are to be fetched before
its first issues. Only the entry of a launch can stand at an address that is not a multiple of 4 (R89, R310). -/
def clauseNow (s : State) (core id : Nat) (b : Block) (pc : Dword) : Clause × State :=
  if rpHeader pc % 4 ≠ 0 then (.failed 0 0, s)
  else
    match fetchFor s core id b (rpHeader pc) with
    | (.word h, s) =>
      if headerCheck h ≠ 0 then (.failed h (headerCheck h), s)
      else if rpSlot pc ≠ 15 ∧ hdrCount h ≤ rpSlot pc then (.failed h 0x10, s)
      else
        match fetchWords s core id b (rpHeader pc) (List.range (hdrCount h)) with
        | (some (a, f), s) => (.unfetched a f, s)
        | (none, s) => (.valid h, s)
    | (f, s) => (.unfetched (rpHeader pc) f, s)

/-- The clause a unit stands at. -/
def clauseAt (s : State) (core id : Nat) (b : Block) (pc : Dword) : Clause := (clauseNow s core id b pc).1

/-- The unit's resume point once it has entered its clause. -/
def firstSlot (pc : Dword) : Dword := if rpSlot pc = 15 then resumeAt (rpAddr pc + 4) 0 else pc

/-- The site of the next word of a unit in a valid clause. -/
def siteIn (s : State) (core id g : Nat) (b : Block) (u : ExecUnit) (h : Word) : Site × Except Reject Instr :=
  let u := { u with pc := firstSlot u.pc }
  let (ws, _) := fetchPair s core id b (rpAddr u.pc) (hdrCount h ≤ rpSlot u.pc + 1)
  let w := ws.getD (0, 0)
  let d := decodeWords w.1 w.2
  ({ core := core, blk := id, gang := g, unit := u, hdr := h, slot := rpSlot u.pc, w := w.1, w2 := w.2,
     wide := widthOf w.1 w.2 }, d)

/-- Whether a unit's next word could issue now (R21, R15): at a header, the wait condition holds and the first word does
not block on an empty register; in mid-clause, the word is not held. A header that faults can issue its fault; one whose fetch
waits at a home slice cannot. -/
def canIssue (s : State) (core id g : Nat) (b : Block) (u : ExecUnit) : Bool :=
  match clauseAt s core id b u.pc with
  | .unfetched a f => f != .wait || !fetchWaits s core id b.ctx a
  | .failed _ _ => true
  | .valid h =>
    let gg := gangOf b g
    match siteIn s core id g b u h with
    | (t, .ok i) =>
      if rpSlot u.pc = 15 then waitHolds gg (hdrWait h) (hdrThreshold h) && !readsBlocked t gg i
      else gateAt i s t != .hold
    | (t, .error (.illegal r _)) =>
      if rpSlot u.pc = 15 then waitHolds gg (hdrWait h) (hdrThreshold h) && !guardBlocked t gg (guardOf t.w)
      else gateIllegalAt r s t != .hold
    | (_, .error _) => true

/-- Whether a unit is ready (R21): it waits for nothing else, no deferred fault or pending trap of its threads comes
first, its context is not frozen (R342), nor is its block being saved (R346) or its context torn down (R345). -/
def isReady (s : State) (core id g : Nat) (b : Block) (u : ExecUnit) : Bool :=
  !unitBlocked (gangOf b g) u && !isFrozen s b && !(getContext s b.ctx).tearing && !b.saveReq &&
    canIssue s core id g b u

/-- The ready units of a core: block, gang, unit, priority. -/
def readyUnits (s : State) (core : Nat) : List (Nat × Nat × ExecUnit × Nat) :=
  (blocksOn s core).flatMap (fun e =>
    (List.range e.2.gangs.length).flatMap (fun g =>
      ((gangOf e.2 g).units.filter (isReady s core e.1 g e.2)).map (fun u => (e.1, g, u, blockPrio s e.2))))

/-- Whether one ready unit goes before another (R21, R318): the higher priority, then the earlier last issue, then the lower
slot. -/
def goesBefore (s : State) (x y : Nat × Nat × ExecUnit × Nat) : Bool :=
  let slot (e : Nat × Nat × ExecUnit × Nat) : Nat := (getGang s e.1 e.2.1).slot
  decide (y.2.2.2 < x.2.2.2) || (x.2.2.2 == y.2.2.2 &&
    (decide (x.2.2.1.lastIssue < y.2.2.1.lastIssue) ||
      (x.2.2.1.lastIssue == y.2.2.1.lastIssue && decide (slot x < slot y))))

/-- The ready units that no other goes before: one, but for sub-gangs of one gang that have not issued since they parted. -/
def firstUnits (s : State) (core : Nat) : List (Nat × Nat × ExecUnit × Nat) :=
  let us := readyUnits s core
  us.filter (fun x => us.all (fun y => !goesBefore s y x))

/-- The unit a core chooses (R21), a free choice among those that nothing sets apart. -/
def chooseUnit (s : State) (core : Nat) : Option (Nat × Nat × ExecUnit) × State :=
  match firstUnits s core with
  | [] => (none, s)
  | [x] => (some (x.1, x.2.1, x.2.2.1), s)
  | x :: xs =>
    let (n, s) := draw s
    let y := (x :: xs).getD (n % (xs.length + 1)) x
    (some (y.1, y.2.1, y.2.2.1), s)

/-- The trap of a clause whose header fails its check, for a unit that stands there: reached by a control transfer, at a
resume point within the clause, at the entry of a launch, or at a header that is fallen into or waited at (R70, R76, R89). For a
unit that resumes in mid-clause no rule names the cause: ILLEGAL at the header, DESIGN CHOICE, log 115. -/
def headerTrap (u : ExecUnit) (h : Word) (r : Nat) : Trap :=
  let pc := u.pc
  match u.via with
  | some (w, x) => { cause := 2, tpc := some w, aux0 := lo32 x, aux1 := hi32 x, aux2 := BitVec.ofNat 32 r }
  | none =>
  if r = 0x10 then { cause := 2, tpc := some pc, aux0 := lo32 pc, aux1 := hi32 pc, aux2 := 0x10 }
  else if u.fresh then
    let va : Dword := BitVec.ofNat 64 (codeVa (rpAddr pc))
    { cause := 2, tpc := some pc, aux0 := lo32 va, aux1 := hi32 va, aux2 := BitVec.ofNat 32 r }
  else { cause := 1, tpc := some (if rpSlot pc = 15 then pc else resumeAt (rpHeader pc) 15), aux0 := h,
         aux1 := BitVec.ofNat 32 r }

/-- Whether the first word of the clause that a unit stands at the header of blocks before it (R71, R75). -/
def firstBlocked (s : State) (core id g : Nat) (b : Block) (u : ExecUnit) (h : Word) : Bool :=
  match siteIn s core id g b u h with
  | (t, .ok i) => readsBlocked t (gangOf b g) i
  | (t, .error _) => guardBlocked t (gangOf b g) (guardOf t.w)

/-- The run's unit enters the clause it stands at (R70, R71, R75): the fault of its header or fetch, the end of the run
before a clause whose wait does not hold or whose first word blocks, or the first slot. A deferred fault or pending trap of
one of its threads comes before all of these (R137, R332). -/
def enterClause (s : State) (core id g : Nat) (b : Block) (u : ExecUnit) : State :=
  if unitBlocked (gangOf b g) u then endRun s core
  else
  match clauseNow s core id b u.pc with
  | (.unfetched a f, s) => fetchFault s core id g u a f
  | (.failed h r, s) =>
    takeTraps (endRun s core) id g ((lanesOf u.lanes).map (fun l => (l, headerTrap u h r)))
      ((u.via.map Prod.fst).getD u.pc) u.lastIssue
  | (.valid h, s) =>
    let s := modUnit s id g (lowest u.lanes) (fun v => { v with fresh := false, via := none })
    let waits : Bool := waitHolds (gangOf b g) (hdrWait h) (hdrThreshold h) == false || firstBlocked s core id g b u h
    if rpSlot u.pc = 15 && waits then endRun s core
    else
      let s := modUnit s id g (lowest u.lanes) (fun v => { v with pc := firstSlot u.pc })
      modCore s core (fun c => { c with run := c.run.map (fun r => { r with hdr := h }) })

/-- A run begun by a unit (R75): it is the unit's last issue, and the clause it stands at comes into force. -/
def beginRun (s : State) (core id g : Nat) (u : ExecUnit) : State :=
  let (n, s) := freshId s
  let s := modUnit s id g (lowest u.lanes) (fun v => { v with lastIssue := n + 1 })
  let s := modCore s core (fun c => { c with run := some { block := id, gang := g, lane := lowest u.lanes } })
  match getBlock s id with
  | some b => enterClause s core id g b { u with lastIssue := n + 1 }
  | none => s

/-! ### Deferred faults delivered (R137, R331) -/

/-- Whether a unit's wait lets a deferred fault be delivered: its threads are between words, or suspended (R137). A halted
unit goes on at the thaw of its context (R344). -/
def betweenWords (u : ExecUnit) : Bool := u.wait != .halted

/-- What the lanes that take a deferred fault go on waiting for in the handler: an acquire that their atomic still owes
them (R149); and what their unit waited for, where they are all of it, so that it is done once (R227, R245). -/
def waitCarried (u : ExecUnit) (lanes : BitVec 32) : UnitWait :=
  match u.wait with
  | .none => .none
  | .gjoin _ => .none
  | .acquire ops scope => .acquire ops scope
  | w => if u.lanes &&& ~~~lanes = 0 then w else .none

/-- The lanes of a unit that have a deferred fault to take. -/
def deferredLanes (g : Gang) (u : ExecUnit) : List Nat :=
  (lanesOf u.lanes).filter (fun l =>
    let x := threadOf g l
    !x.deferred.isEmpty && !x.handler && x.stalled == none)

/-- The threads of a unit that have a deferred fault take their oldest one as one trap each (R137): sys.tpc is the word
not yet issued. The run of the core ends if it is theirs. -/
def deliverDeferred (s : State) (id g : Nat) (u : ExecUnit) : State :=
  let gg := getGang s id g
  let ls := deferredLanes gg u
  let traps := ls.filterMap (fun l => ((threadOf gg l).deferred.head?).map (fun x => (l, { x with tpc := some u.pc })))
  let s := ls.foldl (fun s l => modThread s id g l (fun x => { x with deferred := x.deferred.drop 1 })) s
  let s := takeTraps s id g traps u.pc u.lastIssue
  let keep := waitCarried u (maskWhere (fun l => ls.contains l))
  let s := ls.foldl (fun s l => modUnit s id g l (fun v => { v with wait := keep })) s
  match (getBlock s id).bind coreOf with
  | none => s
  | some c =>
    match (getCore s c).run with
    | none => s
    | some r => if r.block = id ∧ r.gang = g ∧ u.lanes.getLsbD r.lane then endRun s c else s

end Sys2Proof.Machine
end

