-- ==== Sys2Proof/Machine/Pending.lean ====
section
/-! DEFINITION. Starting an outstanding operation: its destination registers become empty (R27) and its gang counts it
(R72, R138). -/

namespace Sys2Proof.Machine

/-- A register made empty for a lane (R27). -/
def emptyRef (g : Gang) (l : Nat) : RegRef → Gang
  | .v n => modThreadOf g l (fun x => { x with v := tmod {} x.v n (fun r => { r with empty := true }) })
  | .p n => modThreadOf g l (fun x => { x with p := tmod {} x.p n (fun r => { r with empty := true }) })
  | .k n => { g with k := tmod {} g.k n (fun r => { r with empty := true }) }
  | .q n => { g with q := tmod {} g.q n (fun r => { r with empty := true }) }

/-- Registers made empty in some lanes. -/
def emptyRefs (g : Gang) (lanes : List Nat) (rs : List RegRef) : Gang :=
  lanes.foldl (fun g l => rs.foldl (fun g r => emptyRef g l r) g) g

/-- An operation started by a word for some lanes: its destinations empty, its class counted. -/
def startOp (s : State) (t : Site) (lanes : List Nat) (dst : List RegRef) (cls : Option Counter) (kind : OpKind)
    (accs : List Access) : State :=
  let (id, s) := freshId s
  let s := modGang s t.blk t.gang (fun g =>
    let g := emptyRefs g lanes dst
    match cls with
    | some c => countOp g c id
    | none => g)
  setOp s id (some { block := t.blk, gang := t.gang, lead := lanes.headD 0, cls := cls, kind := kind, accs := accs })

/-- A producer whose results are known at issue: they are written when it completes (R27). -/
def startProducer (s : State) (t : Site) (lanes : List Nat) (dst : List RegRef) (res : List Result) : State :=
  startOp s t lanes dst none (.producer res) []

end Sys2Proof.Machine
end

