-- ==== Sys2Proof/Machine/FloatOps.lean ====
section
/-! DEFINITION. The floating-point mode of a thread (R53) and the operations of spec/06 6.1 to 6.4 on bits: arithmetic
(R182 to R184), comparison (R188) and conversion (R189 to R192), with the condition of FP_NONFINITE (R60, R193). -/

namespace Sys2Proof.Machine

/-- The fields of sys.fpmode (R53). -/
structure FpMode where
  rm  : Nat
  ftz : Bool
  nft : Bool
  deriving DecidableEq, Repr

/-- The mode a thread's word captures at issue (R31, R53). -/
def fpMode (x : Thread) : FpMode :=
  { rm := (x.fpmode.extractLsb' 0 2).toNat, ftz := x.fpmode.getLsbD 2, nft := x.fpmode.getLsbD 3 }

/-- FADD (R182). -/
def fAdd (f : Fmt) (m : FpMode) (a b : Nat) : Nat :=
  convert f (addVal (readF f m.ftz a) (readF f m.ftz b) m.rm) m.rm false m.ftz
/-- FSUB (R182). -/
def fSub (f : Fmt) (m : FpMode) (a b : Nat) : Nat :=
  convert f (addVal (readF f m.ftz a) (negVal (readF f m.ftz b)) m.rm) m.rm false m.ftz
/-- FMUL (R182). -/
def fMul (f : Fmt) (m : FpMode) (a b : Nat) : Nat :=
  convert f (mulVal (readF f m.ftz a) (readF f m.ftz b)) m.rm false m.ftz
/-- FFMA (R182): the product and the sum are exact, and one rounding follows (R54). -/
def fFma (f : Fmt) (m : FpMode) (a b d : Nat) : Nat :=
  convert f (addVal (mulVal (readF f m.ftz a) (readF f m.ftz b)) (readF f m.ftz d) m.rm) m.rm false m.ftz
/-- FABS (R182, R56). -/
def fAbs (f : Fmt) (b : Nat) : Nat :=
  match decodeF f b with
  | .nan => canonicalNan f
  | _ => b % 2 ^ (f.eb + f.mb)
/-- FNEG (R182, R56). -/
def fNeg (f : Fmt) (b : Nat) : Nat :=
  match decodeF f b with
  | .nan => canonicalNan f
  | _ => b ^^^ 2 ^ (f.eb + f.mb)

/-- Whether FP_NONFINITE is raised for an element (R60): a result that is not finite from finite sources, in non-finite
trap mode. -/
def nonFinite (m : FpMode) (finite : Bool) (srcs : List Bool) : Bool := m.nft && !finite && srcs.all id

/-- The element that FP_NONFINITE records where some element raises it: the lowest whose result is not finite, whatever its
sources are (R60, R193). -/
def nonFiniteElement (m : FpMode) (idx : List Nat) (finite : Nat → Bool) (srcs : Nat → List Bool) : Option Nat :=
  if idx.any (fun k => nonFinite m (finite k) (srcs k)) then idx.find? (fun k => !finite k) else none

/-- FP_NONFINITE (R193): the word and an element. -/
def nonFiniteTrap (t : Site) (element : Nat) : Trap := { cause := 0x0B, aux0 := t.w, aux1 := BitVec.ofNat 32 element }

/-- The elements of a register value: one of 32 bits, or two of 16 (R42). -/
def elementsOf (packed : Bool) (x : Word) : List Nat :=
  if packed then [x.toNat % 2 ^ 16, x.toNat / 2 ^ 16] else [x.toNat]

/-- A register value from its elements. -/
def fromElements (packed : Bool) (es : List Nat) : Word :=
  if packed then BitVec.ofNat 32 (es.getD 0 0 % 2 ^ 16 + es.getD 1 0 * 2 ^ 16) else BitVec.ofNat 32 (es.getD 0 0)

/-- The element of each of some operands. -/
def elementAt (packed : Bool) (xs : List Word) (i : Nat) : List Nat := xs.map (fun x => (elementsOf packed x).getD i 0)

/-- A floating-point word (R182, R183): `op` on each element of the operands, for the mode of the thread; a thread whose
result is not finite under R60 traps and keeps its destination. -/
def fpWord (i : Instr) (s : State) (f : Fmt) (packed : Bool) (d : Nat) (srcs : Gang → Thread → List Word)
    (op : FpMode → List Nat → Nat) : Host.Outcome State Fault Refusal :=
  laneWord i s (fun t g l =>
    let x := threadOf g l
    let m := fpMode x
    let idx := if packed then [0, 1] else [0]
    let res := idx.map (fun k => op m (elementAt packed (srcs g x) k))
    match nonFiniteElement m idx (fun k => isFinite f (res.getD k 0))
        (fun k => (elementAt packed (srcs g x) k).map (isFinite f)) with
    | some k => .error (nonFiniteTrap t k)
    | none => .ok (writeV x d (fromElements packed res) (anyPoison g l (sources i))))

/-- The floating-point condition codes (Table 6.4) on FP32 values. -/
def fpCond (c : Nat) (a b : Val) : Bool :=
  let un := a == .nan || b == .nan
  let zero (v : Val) : Bool := match v with | .fin x => x.m == 0 | _ => false
  let lt := !(zero a && zero b) && ltVal a b
  let gt := !(zero a && zero b) && ltVal b a
  let eq := !lt && !gt
  let base (k : Nat) : Bool :=
    match k with
    | 0 => eq
    | 1 => !eq
    | 2 => lt
    | 3 => lt || eq
    | 4 => gt
    | _ => gt || eq
  if c < 6 then !un && base c else if c = 6 then !un else if c = 7 then un else un || base (c - 8)

/-! ### Conversions (R189 to R192) -/

/-- The integer formats of Table 6.5: width, signed. -/
def intFormat : Nat → Nat × Bool
  | 9 => (32, true) | 10 => (32, false) | 11 => (64, true) | 12 => (64, false) | 13 => (16, true) | _ => (16, false)

/-- The least and greatest value of an integer format (Table 2.2). -/
def intRange (w : Nat) (sg : Bool) : Int × Int :=
  if sg then (-(2 ^ (w - 1) : Int), 2 ^ (w - 1) - 1) else (0, 2 ^ w - 1)

/-- The integer that bits hold. -/
def intOf (w : Nat) (sg : Bool) (bits : Nat) : Int :=
  let x := bits % 2 ^ w
  if sg ∧ x.testBit (w - 1) then (x : Int) - 2 ^ w else x

/-- A saturated integer as bits, sign- or zero-extended to a register of 32 or 64 bits (R190). -/
def intBits (w : Nat) (n : Int) : Nat := (n % (2 : Int) ^ (if w = 64 then 64 else 32)).toNat

/-- CVT (R190): the bits written, and whether the source was finite and the result is. -/
def convertBits (src dst : Nat) (sat rz : Bool) (m : FpMode) (bits : Nat) : Nat × Bool × Bool :=
  let mode := if rz then 1 else m.rm
  if src ≤ 8 then
    let v := readF (fmtOf src) m.ftz bits
    let fin := isFinite (fmtOf src) bits
    if dst ≤ 8 then
      let y := convert (fmtOf dst) v mode sat m.ftz
      (y, fin, isFinite (fmtOf dst) y)
    else
      let (w, sg) := intFormat dst
      let (lo, hi) := intRange w sg
      (intBits w (toInteger v mode lo hi), fin, true)
  else
    let (w, sg) := intFormat src
    let n := intOf w sg bits
    if dst ≤ 8 then
      let y := convert (fmtOf dst) (intVal n) mode sat m.ftz
      (y, true, isFinite (fmtOf dst) y)
    else
      let (w', sg') := intFormat dst
      let (lo, hi) := intRange w' sg'
      let y := if sat then max lo (min hi n) else intOf w' sg' (n % (2 : Int) ^ w').toNat
      (intBits w' y, true, true)

/-- The packing formats of CVTPK and CVTUP (R191): a floating format, or an integer width and sign. -/
def packFormat : Nat → Fmt ⊕ (Nat × Bool)
  | 0 => .inl fp16 | 1 => .inl bf16 | 2 => .inl e4m3 | 3 => .inl e5m2 | 4 => .inl e3m2 | 5 => .inl e2m3 | 6 => .inl e2m1
  | 7 => .inr (16, true) | 8 => .inr (16, false) | 9 => .inr (8, true) | 10 => .inr (8, false) | 11 => .inr (4, true)
  | _ => .inr (4, false)

/-- The element width of a packing format. -/
def packWidth (fmt : Nat) : Nat := if fmt = 4 ∨ fmt = 5 then 6 else 32 / packCount fmt

/-- One element of CVTPK (R191): its bits, and whether it is finite. -/
def packElement (fmt : Nat) (sat rz : Bool) (m : FpMode) (bits : Nat) : Nat × Bool :=
  let mode := if rz then 1 else m.rm
  let v := readF fp32 m.ftz bits
  match packFormat fmt with
  | .inl f => let y := convert f v mode sat m.ftz; (y, isFinite f y)
  | .inr (w, sg) =>
    let (lo, hi) := intRange w sg
    ((toInteger v mode lo hi % (2 : Int) ^ w).toNat, true)

/-- One element of CVTUP (R192): FP32 exactly, NaNs canonical, or an extended integer. -/
def unpackElement (fmt : Nat) (bits : Nat) : Word :=
  match packFormat fmt with
  | .inl f => BitVec.ofNat 32 (convert fp32 (decodeF f bits) 0 false false)
  | .inr (w, sg) => BitVec.ofInt 32 (intOf w sg bits)

end Sys2Proof.Machine
end

