-- ==== Sys2Proof/Machine/Commands.lean ====
section
/-! DEFINITION. Engine commands from signature to issue (R163, R164, R194): what a participant and a gang supply, and how a
command enters the skidder, the matrix engine or the forwarder. -/

namespace Sys2Proof.Machine

/-! ### What a command takes from its gangs and participants (R163) -/

/-- The uniform operands of a command, in the order of its sources: the values of its k registers. -/
def uniformsOf (g : Gang) (i : Instr) : List Word :=
  (sources i).filterMap (fun r => match r with | .k n => some (kReg g n).val | _ => none)

/-- The k registers of a command. -/
def kNumbers (i : Instr) : List Nat := (sources i).filterMap (fun r => match r with | .k n => some n | _ => none)

/-- The v registers of a command. -/
def vNumbers (i : Instr) : List Nat := (sources i).filterMap (fun r => match r with | .v n => some n | _ => none)

/-- An address operand in v registers: a pair for the generic space, a single register otherwise. -/
def addressV (x : Thread) (r : BitVec 6) (sp : BitVec 2) : Dword :=
  if sp = 0 then pairV x r.toNat else (vReg x r.toNat).val.setWidth 64

/-- The per-thread operands of a command (R168, R173, R175). -/
def threadOperands (x : Thread) : Instr → Dword × Dword
  | .cpy _ dst src dsp ssp _ _ => (addressV x dst dsp, addressV x src ssp)
  | .cpyx _ vi _ _ _ _ _ _ => ((vReg x vi.toNat).val.setWidth 64, 0)
  | .cpyf _ vd _ _ _ _ _ => ((vReg x vd.toNat).val.setWidth 64, (vReg x (vd.toNat + 1)).val.setWidth 64)
  | _ => (0, 0)

/-- What a thread supplies to a command as a participant. -/
def participant (g : Gang) (gi l : Nat) (i : Instr) : Participant :=
  let o := threadOperands (threadOf g l) i
  { gang := gi, lane := l, a := o.1, b := o.2 }

/-- References in the order of sys.gang, then lane (R164). -/
def refLt (a b : ThreadRef) : Bool := a.1 < b.1 || (a.1 == b.1 && a.2 < b.2)

/-- The lowest reference of a list. -/
def lowestRef (rs : List ThreadRef) : ThreadRef :=
  match rs with
  | [] => (0, 0)
  | r :: rest => rest.foldl (fun m x => if refLt x m then x else m) r

/-- A list of participants with one put in its place by gang and lane. -/
def insertPart (p : Participant) : List Participant → List Participant
  | [] => [p]
  | q :: qs => if refLt (p.gang, p.lane) (q.gang, q.lane) then p :: q :: qs else q :: insertPart p qs

/-- Participants in rising gang and lane (R336). -/
def sortParts (ps : List Participant) : List Participant := ps.foldl (fun l p => insertPart p l) []

/-! ### Earlier writes (R165, R199) -/

/-- Whether an operation writes memory as a store, STX, STP or atomic does. -/
def writesMemory : OpKind → Bool
  | .store _ | .atomic _ _ _ _ _ _ | .planeStore _ => true
  | _ => false

/-- The outstanding stores and atomics of some gangs of a block: a command reads memory after them. -/
def earlierWrites (s : State) (blk : Nat) (gangs : List Nat) : List Nat :=
  s.ops.filterMap (fun e =>
    match e.2 with
    | some o => if o.block = blk ∧ o.gang ∈ gangs ∧ writesMemory o.kind = true then some e.1 else none
    | none => none)

/-- Whether all of some operations have been performed. -/
def opsOver (s : State) (after : List Nat) : Bool := after.all (fun n => getOp s n == none)

/-! ### Entry into an engine -/

/-- The lowest free entry of a skidder (R165, R167). Which free entry a command takes, and so its handle, is not stated: DESIGN
CHOICE, log 94. -/
def freeEntry (c : Core) : Option Nat := (List.range 48).find? (fun e => tget none c.skid e == none)

/-- A command put into a skidder entry. -/
def setEntry (s : State) (core e : Nat) (x : Option Command) : State :=
  modCore s core (fun c => { c with skid := tset none c.skid e x })

/-- A command that goes to the skidder. -/
def issueSkidder (s : State) (core blk id : Nat) (i : Instr) (uni : List Word) (parts : List Participant)
    (lead : ThreadRef) (gangs : List Nat) : State :=
  match freeEntry (getCore s core) with
  | none => s
  | some e => setEntry s core e (some { id := id, block := blk, instr := i, uni := uni, parts := sortParts parts,
                                        lead := lead, gangs := gangs, after := earlierWrites s blk gangs })

/-- The register fragments of a matrix command (R196): the first register and the count for A and for B. -/
def fragments : Instr → Option (Nat × Nat) × Option (Nat × Nat)
  | .mma _ _ fa fb _ ra rb sa sb _ _ _ | .mmas _ _ fa fb _ ra rb sa sb _ _ _ _ =>
    let kg := opGroup fa.toNat fb.toNat
    (if sa = 0 then some (ra.toNat, 2 * fragWords kg fa.toNat) else none,
     if sb = 0 then some (rb.toNat, 2 * fragWords kg fb.toNat) else none)
  | .mconv _ _ fa fb _ _ rb sb _ _ _ _ =>
    (none, if sb = 0 then some (rb.toNat, 2 * fragWords (opGroup fa.toNat fb.toNat) fb.toNat) else none)
  | _ => (none, none)

/-- The words of a fragment, by 64 × lane + word: each lane's from the participant of the lowest sys.gang (R196). -/
def captureFragment (b : Block) (parts : List Participant) (frag : Option (Nat × Nat)) : Table Word :=
  match frag with
  | none => []
  | some (r, n) =>
    lanes32.foldl (fun t l =>
      match parts.find? (fun p => p.lane == l) with
      | none => t
      | some p => tsetMany 0 t (64 * l) ((List.range n).map (fun w => (vReg (threadOf (gangOf b p.gang) l) (r + w)).val)))
      []

/-- A command that goes to the matrix engine. -/
def issueMatrix (s : State) (core blk id : Nat) (i : Instr) (uni : List Word) (parts : List Participant)
    (lead : ThreadRef) (gangs : List Nat) : State :=
  match getBlock s blk with
  | none => s
  | some b =>
    let ps := sortParts parts
    let fr := fragments i
    modCore s core (fun c =>
      { c with mx := c.mx ++ [{ id := id, block := blk, instr := i, uni := uni, lead := lead, gangs := gangs,
                                nft := (fpMode (threadOf (gangOf b lead.1) lead.2)).nft,
                                fragA := captureFragment b ps fr.1, fragB := captureFragment b ps fr.2,
                                after := earlierWrites s blk gangs }] })

/-- A row dropped by a forwarder (R371, Table 15.8): FWDERR, and the notification of the first drop. -/
def dropRow (s : State) (die reason dest : Nat) : State :=
  let e := (getDie s die).fwderr
  let n := bitsOf e.toNat 15 0
  if e.getLsbD 63 then modDie s die (fun d => { d with fwderr := if n = 0xFFFF then e else e + 1 })
  else
    let e : Dword := BitVec.ofNat 64 (2 ^ 63 + reason * 2 ^ 40 + dest % 1024 * 2 ^ 16 + 1)
    notify (modDie s die (fun d => { d with fwderr := e })) 4 die e 0

/-- A command that goes to the forwarder (R175, R369): each row enters the send queue of its destination; a destination
that names no device drops the row, 0x3FF skips the participant. -/
def issueForwarder (s : State) (core blk id : Nat) (i : Instr) (uni : List Word) (parts : List Participant)
    (lead : ThreadRef) (gangs : List Nat) : State :=
  match i with
  | .cpyf _ _ _ _ sp _ row =>
    let size := 16 * (row.toNat + 1)
    let tile := (uni.getD 0 0).toNat
    let base := (pairOf (uni.getD 1 0) (uni.getD 2 0)).toNat
    let die := dieOf (clusterOf core)
    let ps := (sortParts parts).filter (fun p => p.a != 0x3FF)
    let bad := ps.filter (fun p => 576 ≤ p.a.toNat)
    let rows : List Row := (ps.filter (fun p => p.a.toNat < 576)).map (fun p =>
      { dest := p.a.toNat, ea := base + p.b.toNat * size, size := size, space := 1 + sp.toNat,
        off := tile + (32 * p.gang + p.lane) * size, cmd := id })
    let s := bad.foldl (fun s p => dropRow s die 6 p.a.toNat) s
    let after := earlierWrites s blk gangs
    modDie s die (fun d =>
      { d with rows := d.rows ++ rows
               sends := d.sends ++ [{ id := id, block := blk, lead := lead, gangs := gangs, left := rows.length,
                                      after := after }] })
  | _ => s

/-- A command issued (R163, R164): to the engine its member names. -/
def issueCommand (s : State) (core blk id : Nat) (i : Instr) (uni : List Word) (parts : List Participant)
    (lead : ThreadRef) (gangs : List Nat) : State :=
  if isSkidder i then issueSkidder s core blk id i uni parts lead gangs
  else if isForwarder i then issueForwarder s core blk id i uni parts lead gangs
  else issueMatrix s core blk id i uni parts lead gangs

/-- An operation counted in a gang. -/
def countIn (s : State) (blk g : Nat) (i : Instr) (id : Nat) : State :=
  match counterClass i with
  | some c => modGang s blk g (fun x => countOp x c id)
  | none => s

/-- An unsigned command (R163): it counts on the issuing gang and issues from the word. -/
def issueUnsigned (s : State) (t : Site) (i : Instr) (lanes : List Nat) : State :=
  let (id, s) := freshId s
  let g := t.g s
  let s := countIn s t.blk t.gang i id
  issueCommand s t.core t.blk id i (uniformsOf g i) (lanes.map (fun l => participant g t.gang l i))
    (t.gang, lanes.headD 0) [t.gang]

end Sys2Proof.Machine
end

