-- ==== Sys2Proof/Machine/Join.lean ====
section
/-! DEFINITION. Join registers (spec/04 4.10): the events of Table 4.3, signatures of commands with their read locks (R163,
R164), the completion of a phase, and JINIT, JSIGN, JWAIT and JLEAVE (R123). -/

namespace Sys2Proof.Machine

/-! ### The register -/

/-- The state with a join register of a block changed. -/
def modJoin (s : State) (blk j : Nat) (f : JoinReg → JoinReg) : State :=
  modBlock s blk (fun b => { b with joins := tmod {} b.joins j f })

/-- A join register of a block. -/
def getJoin (s : State) (blk j : Nat) : JoinReg :=
  match getBlock s blk with
  | some b => tget {} b.joins j
  | none => {}

/-- A change of the read locks on some registers of a thread (R28). -/
def lockV (x : Thread) (rs : List Nat) (f : Nat → Nat) : Thread :=
  { x with v := rs.foldl (fun v n => tmod {} v n (fun r => { r with locks := f r.locks })) x.v }

/-- A change of the read locks on some k registers of a gang. -/
def lockK (g : Gang) (rs : List Nat) (f : Nat → Nat) : Gang :=
  { g with k := rs.foldl (fun k n => tmod {} k n (fun r => { r with locks := f r.locks })) g.k }

/-- The locks of a signer changed. -/
def lockSigner (s : State) (blk : Nat) (x : Signer) (f : Nat → Nat) : State :=
  modGang s blk x.who.1 (fun g => lockK (modThreadOf g x.who.2 (fun t => lockV t x.vlock f)) x.klock f)

/-- The register after its phase completes (R122): the phase advances, the members that were leaving have left.
DESIGN CHOICE, log 101: where they were the last, the register becomes idle. -/
def nextPhase (j : JoinReg) : JoinReg :=
  let ms := j.members.filter (fun m => ¬ (m ∈ j.leaving))
  { armed := ms != [], members := ms, phase := j.phase + 1 }

/-- A phase completes where every member has signed (R122): it advances, and a command kind issues its command, whose
registers are read then (R164). -/
def settle (s : State) (core blk j : Nat) (lead : ThreadRef) : State :=
  let x := getJoin s blk j
  if allSigned x = false then s
  else
    let s := x.signers.foldl (fun s g => lockSigner s blk g (fun n => n - 1)) s
    let s := modJoin s blk j nextPhase
    match x.kind with
    | .command w1 w2 =>
      match decodeWords (w1 ||| 0xFDC00000) w2 with
      | .ok i =>
        issueCommand s core blk x.cmd i x.uni
          (x.signers.map (fun g => { gang := g.who.1, lane := g.who.2, a := g.a, b := g.b }))
          lead ((x.signers.map (fun g => g.who.1)).eraseDups)
      | .error _ => s
    | _ => s

/-- Signatures of one kind by some threads of a gang, none of which meets an error (R122); the phase completes where they
complete it, and the issuing thread is the lowest of them (R164). -/
def signLanes (s : State) (t : Site) (j : Nat) (kind : JoinKind) (lanes : List Nat) (mk : Nat → Signer) : State :=
  if lanes.isEmpty then s
  else
    let s := modJoin s t.blk j (fun x =>
      { x with signed := x.signed ++ lanes.map (fun l => (t.gang, l)), kind := kind, signers := x.signers ++ lanes.map mk })
    settle s t.core t.blk j (t.gang, lanes.headD 0)

/-- The signer that a thread of a command is: its operands, and the registers its signature locks (R164). -/
def signerOf (g : Gang) (gi l : Nat) (i : Instr) : Signer :=
  let o := threadOperands (threadOf g l) i
  { who := (gi, l), a := o.1, b := o.2, vlock := vNumbers i, klock := kNumbers i }

/-- Command signatures by some lanes of a word (R163, R164, R138): the first signature of the phase gives the uniform
operands and the command's identity, the first of each gang starts its count, and every signature locks its registers. -/
def signCommand (s : State) (t : Site) (j : Nat) (i : Instr) (lanes : List Nat) : State :=
  if lanes.isEmpty then s
  else
    let x := getJoin s t.blk j
    let g := t.g s
    let s := if x.signers.isEmpty then
        let (id, s) := freshId s
        modJoin s t.blk j (fun x => { x with uni := uniformsOf g i, cmd := id })
      else s
    let id := (getJoin s t.blk j).cmd
    let s := if x.signers.any (fun y => y.who.1 == t.gang) then s else countIn s t.blk t.gang i id
    let s := lanes.foldl (fun s l => lockSigner s t.blk (signerOf g t.gang l i) (fun n => n + 1)) s
    signLanes s t j (commandKind i) lanes (fun l => signerOf g t.gang l i)

/-- Threads of a gang leave a join register (R122, R116): one that has not signed leaves at once, which can complete the
phase; one that has signed leaves when the phase completes; a non-member has no effect. A phase completed so has its
lowest participant as issuing thread (R164). -/
def leaveJoin (s : State) (core blk j g : Nat) (act : BitVec 32) : State :=
  let x := getJoin s blk j
  let gone := x.members.filter (fun m => m.1 == g && act.getLsbD m.2)
  if gone.isEmpty then s
  else
    let y := withoutMembers x g act
    let s := modJoin s blk j (fun _ =>
      { y with armed := y.members != [], leaving := (x.leaving ++ gone.filter (fun m => x.signed.contains m)).eraseDups })
    if y.members.length = x.members.length then s
    else settle s core blk j (lowestRef (y.signers.map Signer.who))

/-- JOIN_STATE for a join register (R125). -/
def joinTrap (j : Nat) (reason : Nat) (x : JoinReg) : Trap :=
  { cause := 0x0C, aux0 := BitVec.ofNat 32 j, aux1 := BitVec.ofNat 32 reason, aux2 := x.phase.setWidth 32 }

/-! ### Command words (R163, R164) -/

/-- A command word: in each active thread the operand checks, then the signature or, unsigned, the issue of the command
from the threads that raise nothing. -/
def commandWord (i : Instr) (s : State) (check : Block → Site → Gang → Nat → Option Trap) :
    Host.Outcome State Fault Refusal :=
  runWord i s (fun t iss act =>
    match getBlock s t.blk with
    | none => { st := s, moves := t.onward i.words iss }
    | some b =>
      let g := gangOf b t.gang
      let signed : Option Nat := match joinField i with | some j => if j < 8 then some j else none | none => none
      let err (l : Nat) : Option Trap :=
        match check b t g l with
        | some x => some x
        | none =>
          match signed with
          | none => none
          | some j =>
            let x := tget ({} : JoinReg) b.joins j
            (signError x (t.gang, l) (commandKind i)).map (fun r => joinTrap j r x)
      let ok := (lanesOf act).filter (fun l => err l == none)
      { st := match signed with
          | some j => signCommand s t j i ok
          | none => if ok.isEmpty then s else issueUnsigned s t i ok
        traps := (lanesOf act).filterMap (fun l => (err l).map (fun x => (l, t.trap x)))
        moves := t.onward i.words iss })

/-! ### JINIT, JSIGN, JWAIT, JLEAVE (R123) -/

/-- The live threads of a block that a JINIT mask selects: lanes by the low word, gangs by bits 15 to 0 of the high. -/
def jinitMembers (b : Block) (lanes gangs : Word) : List ThreadRef :=
  (threadRefs b).filter (fun m =>
    m.1 < 16 && gangs.getLsbD m.1 && lanes.getLsbD m.2 && (threadOf (gangOf b m.1) m.2).cond == .live)

/-- JINIT (R122, R123): one event for the word; with some signature in the phase, JOIN_STATE with reason 4. -/
def execJinit (gd : BitVec 4) (a j : BitVec 6) (s : State) : Host.Outcome State Fault Refusal :=
  let i : Instr := .jinit gd a j
  runWord i s (fun t iss act =>
    match getBlock s t.blk with
    | none => { st := s, moves := t.onward i.words iss }
    | some b =>
      let g := gangOf b t.gang
      let x := tget ({} : JoinReg) b.joins j.toNat
      let ms := jinitMembers b (kReg g a.toNat).val (kReg g (a.toNat + 1)).val
      if x.armed ∧ x.signed ≠ [] then
        { st := s, traps := (lanesOf act).map (fun l => (l, t.trap (joinTrap j.toNat 4 x))),
          moves := t.onward i.words iss }
      else
        { st := modJoin s t.blk j.toNat (fun x => { armed := ms != [], members := ms, phase := x.phase })
          moves := t.onward i.words iss })

/-- JSIGN (R122, R123): d receives the phase before the event; then a plain signature of each active thread. -/
def execJsign (gd : BitVec 4) (d j : BitVec 6) (s : State) : Host.Outcome State Fault Refusal :=
  let i : Instr := .jsign gd d j
  runWord i s (fun t iss act =>
    let x := getJoin s t.blk j.toNat
    let err (l : Nat) := signError x (t.gang, l) .plain
    let ok := (lanesOf act).filter (fun l => err l == none)
    let s := modGang s t.blk t.gang (fun g => ok.foldl (fun g l =>
      modThreadOf g l (fun y => writeV y d.toNat (x.phase.setWidth 32) false)) g)
    { st := signLanes s t j.toNat .plain ok (fun l => { who := (t.gang, l) })
      traps := (lanesOf act).filterMap (fun l => (err l).map (fun r => (l, t.trap (joinTrap j.toNat r x))))
      moves := t.onward i.words iss })

/-- JWAIT (R123, R124): past the gate the phase differs from a's low half in every active thread, or the register is
IDLE, and then a thread whose value equals the phase takes JOIN_STATE with reason 6. -/
def execJwait (gd : BitVec 4) (a j : BitVec 6) (s : State) : Host.Outcome State Fault Refusal :=
  let i : Instr := .jwait gd a j
  runWord i s (fun t iss act =>
    let x := getJoin s t.blk j.toNat
    let g := t.g s
    let stuck := (lanesOf act).filter (fun l =>
      !x.armed && (vReg (threadOf g l) a.toNat).val.extractLsb' 0 16 == x.phase)
    { st := s, traps := stuck.map (fun l => (l, t.trap (joinTrap j.toNat 6 x))), moves := t.onward i.words iss })

/-- JLEAVE (R122, R123): each active thread leaves the register. -/
def execJleave (gd : BitVec 4) (j : BitVec 6) (s : State) : Host.Outcome State Fault Refusal :=
  onceWord (.jleave gd j) s false (fun t act => leaveJoin s t.core t.blk j.toNat t.gang act)

end Sys2Proof.Machine
end

