-- ==== Sys2Proof/Machine/Paths.lean ====
section
/-! DEFINITION. The way of one access through memory: translation and permissions (R133, R136, R226, R255 to R258), the
caches (R259 to R266), home slices, host memory (R361) and peers (R364 to R368), for reads, writes and atomics. -/

namespace Sys2Proof.Machine

/-! ### Translation (R136, R226, R257, R364, R368) -/

/-- The allocated speculation-table entry whose generation and window a handle names (R225). -/
def namedEntry (s : State) (h : Word) : Option Nat :=
  let e := bitsOf h.toNat 11 0
  let w := getWindow s e
  if h.getLsbD 31 ∧ w.live = true ∧ w.gen = h.extractLsb' 28 3 ∧ bitsOf w.number.toNat 15 0 = bitsOf h.toNat 27 12 then some e
  else none

/-- The speculation-table entry a handle names, when the handle is current (R225). -/
def currentEntry (s : State) (h : Word) : Option Nat :=
  match namedEntry s h with
  | some e => if (getWindow s e).closing then none else some e
  | none => none

/-- The entry that a store of an SPST holds: that of its handle while it is current; and, where the gang of the closing SPCOMMIT
or SPABORT issued it before, under a handle then current, while the entry closes: the commit waits for it (R228, R232; DEDUCED, log 122). -/
def heldEntry (s : State) (o : PendingOp) (a : Access) : Option Nat :=
  match currentEntry s a.key with
  | some e => some e
  | none =>
    match namedEntry s a.key with
    | some e => if a.early = true ∧ (getWindow s e).closer = some (o.block, o.gang) then some e else none
    | none => none

/-- Where a translated access goes. -/
inductive Way where
  | noPage
  /-- A permission is lacking: 1 read, 2 write (Table 13.1). -/
  | denied (lack : Nat)
  /-- The page is owned by the window of an entry (R226). -/
  | owned (entry : Nat) (l : Leaf)
  | unreachable (reason : Nat)
  | page (l : Leaf)
  /-- A page-table entry of its walk is uncorrectable (R381): uncorrectable data for the access. DESIGN CHOICE, log 86. -/
  | bad
  /-- Its walk waits (R257, R382). -/
  | blocked
  deriving DecidableEq, Repr

/-- The way of an access of a context's cluster to a virtual address, needing read, write or both: no valid page, then the
owner (R226), then a permission, then reachability. -/
def wayOf (s : State) (cl ctx va : Nat) (rd wr : Bool) : Way × State :=
  match translate s cl ctx va with
  | (.none, s) => (.noPage, s)
  | (.bad, s) => (.bad, s)
  | (.blocked, s) => (.blocked, s)
  | (.leaf l, s) =>
    match windowOwner s l with
    | some e => (.owned e l, s)
    | none =>
      if rd && !l.r then (.denied 1, s)
      else if wr && !l.w then (.denied 2, s)
      else if isPeer l && 576 ≤ peerDest l then (.unreachable 6, s)
      else if l.tier == 2 && !s.link.cxl then (.unreachable 7, s)
      else (.page l, s)

/-! ### Reads (R253, R259 to R266, R269, R361) -/

/-- Bytes read at the home slice, the host or a peer, past every cache. -/
def readAtHome (s : State) (va n who : Nat) (l : Leaf) : Reply × State :=
  if isPeer l then peerRead s (peerDest l) (peerAddress l va) n
  else if 2 ≤ l.tier then (hostRead s (physical l va) n, s)
  else homeReply (homeRead s (physical l va) n who)

/-- The bytes an L1 holds for a read (R259, R261), but of a page that a window owns now (R226, R296): only a translation tells who
may read it. -/
def l1Bytes (s : State) (core ctx va n : Nat) (ro : Option Nat) : Option (List Byte) :=
  match l1Find (getCore s core) ctx va ro with
  | none => none
  | some x => if s.hostIf.marked.contains (x.pa / 2 ^ 21) then none else some ((x.data.drop (va % 32)).take n)

/-- A whole sector for a load that missed in L1: through the L2 where it may hold the page, else from the host or peer;
an L1 fill follows (R259), in a read-only line of a launch for LDRO (R261). -/
def loadSector (s : State) (core ctx va n : Nat) (l : Leaf) (ro : Option Nat) : Reply × State :=
  let cl := clusterOf core
  let base := va / 32 * 32
  let (r, s) := if inL2 l then readThroughL2 s cl ctx base 32 l else readAtHome s base 32 cl l
  match r with
  | .bytes bs =>
    (.bytes ((bs.drop (va % 32)).take n), l1Fill s core ctx va (l1Key l va) ro bs)
  | r => (r, s)

/-- A read by an engine (R264, R265, R291): of a shared sector whose bytes the cluster's L2 holds, a free choice of that copy
and of the home slice; else its home, once the cluster's dirty bytes of it are written back and it has left the L2. It comes
after the stores to the sector that the cluster has already. -/
def engineRead (s : State) (cl va n who : Nat) (l : Leaf) : Reply × State :=
  let pa := physical l va
  let s := storesFirst s cl (l1Key l va / 32)
  let home (s : State) : Reply × State := readAtHome (if inL2 l then l2Purge s cl pa else s) va n who l
  match if inL2 l && l.shared then l2Read s cl pa n else (none, s) with
  | (some h, t) =>
    let (f, s) := draw s
    if f % 2 = 1 then homeReply (h, { t with tick := s.tick }) else home s
  | (none, _) => home s

/-! ### Writes (R259, R264, R361) -/

/-- A store performed at its home alone: the home slice, the host or the peer. -/
def storeHome (s : State) (cl va : Nat) (l : Leaf) (bs : List Byte) : Reply × State :=
  if isPeer l then peerWrite s (peerDest l) (peerAddress l va) bs
  else if 2 ≤ l.tier then hostWrite s (physical l va) bs
  else writeReply (homeWrite s (physical l va) bs cl)

/-- A store of bytes of one sector at its point of coherence: the L2 for a local page where the cluster has one, the home
slice, the host or the peer. The issuing core's L1 and the cluster's L2 take the bytes they hold. `through` forces the
home slices (R154, R228). -/
def storeBytes (s : State) (core ctx va : Nat) (l : Leaf) (bs : List Byte) (through : Bool) : Reply × State :=
  let home (s : State) : Reply × State :=
    match storeHome s (clusterOf core) va l bs with
    | (.bytes _, s) => (.bytes [], storeNear s core va l bs)
    | r => r
  if inL2 l && !l.shared && !through then
    match l2StoreLocal s (clusterOf core) ctx (physical l va) l.pclass bs with
    | (true, s) => (.bytes [], l1Store s core (l1Key l va) bs)
    | (false, s) => home s
  else home s

/-! ### Atomics (R149, R150, R264, R361, R367) -/

/-- FP32 operations of atomics: rne, subnormals kept (Table 5.4). -/
abbrev atomMode : FpMode := { rm := 0, ftz := false, nft := false }

/-- The new value of an atomic (Table 5.4) on values of one width; code 14 is CAS, with b compared and c stored. -/
def atomNew {w : Nat} (op : Nat) (old b c : BitVec w) : BitVec w :=
  match op with
  | 0 => old + b
  | 1 => if b.slt old then b else old
  | 2 => if old.slt b then b else old
  | 3 => if b.ult old then b else old
  | 4 => if old.ult b then b else old
  | 5 => old &&& b
  | 6 => old ||| b
  | 7 => old ^^^ b
  | 8 => b
  | 9 => if b.ule old then 0 else old + 1
  | 10 => if old == 0 || b.ult old then b else old - 1
  | 11 => BitVec.ofNat w (fAdd fp32 atomMode old.toNat b.toNat)
  | 12 => BitVec.ofNat w (minNum fp32 old.toNat b.toNat)
  | 13 => BitVec.ofNat w (maxNum fp32 old.toNat b.toNat)
  | _ => if old == b then c else old

/-- The bytes an atomic leaves in place of others. -/
def atomBytes (op : Nat) (wide : Bool) (old : List Byte) (b c : Dword) : List Byte :=
  if wide then natBytes 8 (atomNew op (BitVec.ofNat 64 (leNat old)) b c).toNat
  else natBytes 4 (atomNew op (BitVec.ofNat 32 (leNat old)) (lo32 b) (lo32 c)).toNat

/-- Bytes of one sector read at their home slice and, as one step there, replaced by others: the old bytes. The array is read once,
for the read, and the sector is transferred once for the read and once for the write (R381, R382): DEDUCED, log 112. Where either
transfer is failed by HREL, nothing is written. -/
def homeUpdate (s : State) (pa n who : Nat) (f : List Byte → List Byte) : Reply × State :=
  match homeRead s pa n who with
  | (.bad, s) => (.bad, s)
  | (.blocked, s) => (.blocked, s)
  | (.bytes old, s) =>
    match homeServe s pa true false who with
    | (.blocked, s) => (.blocked, s)
    | (.failed, s) => (.failed, s)
    | (_, s) => (.bytes old, cellsAfterWrite (memWrite s pa (f old)) (pa / 32) false)

/-- An atomic at a home slice: the old bytes. One that HREL failed is not performed. -/
def atomHome (s : State) (pa who op : Nat) (wide : Bool) (b c : Dword) : Reply × State :=
  match homeUpdate s pa (if wide then 8 else 4) who (fun old => atomBytes op wide old b c) with
  | (.failed, s) => (.bad, s)
  | r => r

/-- Whether an atomic exists towards the host without CXL (R361): add, exch and CAS, as PCIe AtomicOps. -/
def pcieAtomic (op : Nat) : Bool := op == 0 || op == 8 || op == 14

/-- An atomic to a peer at its destination's home slice (R367); on uncorrectable data none is performed (R385). -/
def peerAtomic (s : State) (dest ea op : Nat) (wide : Bool) (b c : Dword) : Reply × State :=
  if 576 ≤ dest then (.unreachable 6, s)
  else if isSelf s dest then selfRequest s dest ea .atomic (fun s pa => atomHome s pa whoHost op wide b c)
  else farRequest s dest ea .atomic (fun p pa =>
    let n := if wide then 8 else 4
    let old := tgetMany 0 p.mem pa n
    if peerBad p pa n then (.bad, s)
    else (.bytes old, setPeer s dest (some { p with mem := tsetMany 0 p.mem pa (atomBytes op wide old b c) })))

/-- An atomic at the host (R361, R368). -/
def hostAtomic (s : State) (pa op : Nat) (wide : Bool) (b c : Dword) : Reply × State :=
  if s.link.cxl = false ∧ pcieAtomic op = false then (.unreachable 7, s)
  else
    match hostRead s pa (if wide then 8 else 4) with
    | .bytes old => (.bytes old, (hostWrite s pa (atomBytes op wide old b c)).2)
    | r => (r, s)

/-- An atomic in the cluster's L2 (R150, R264): on a shared page it is written through; where HREL failed that write, it is
not performed. -/
def atomL2 (s : State) (cl ctx va : Nat) (l : Leaf) (op : Nat) (wide : Bool) (b c : Dword) : Reply × State :=
  let pa := physical l va
  match readThroughL2 s cl ctx va (if wide then 8 else 4) l with
  | (.bytes old, s) =>
    let bs := atomBytes op wide old b c
    if l.shared then
      match homeWrite s pa bs cl with
      | (.blocked, s) => (.blocked, s)
      | (.failed, s) => (.bad, s)
      | (_, s) => (.bytes old, l2WriteThrough s cl pa bs)
    else (.bytes old, (l2StoreLocal s cl ctx pa l.pclass bs).2)
  | r => r

/-- An atomic to a translated address at the point of coherence of its scope (R150): the old bytes. -/
def atomAt (s : State) (core ctx va : Nat) (l : Leaf) (scope op : Nat) (wide : Bool) (b c : Dword) : Reply × State :=
  let cl := clusterOf core
  let pa := physical l va
  let s := l1Remove s core (l1Key l va)
  if isPeer l then peerAtomic s (peerDest l) (peerAddress l va) op wide b c
  else if 2 ≤ l.tier then hostAtomic s pa op wide b c
  else if 3 ≤ scope ∨ openWays (getCluster s cl) = [] then atomHome (l2Purge s cl pa) pa cl op wide b c
  else atomL2 s cl ctx va l op wide b c

/-- An atomic through a window (R150, R268): performed in that store. -/
def atomWindow (s : State) (id : Nat) (bl : Block) (t : Target) (op : Nat) (wide : Bool) (b c : Dword) : Reply × State :=
  match windowRead s bl t (if wide then 8 else 4) with
  | (.bytes old, s) => (.bytes old, windowWrite s id bl t (atomBytes op wide old b c))
  | (.bad, s) => (.bad, s)
  | (.blocked, s) => (.blocked, s)

end Sys2Proof.Machine
end

