-- ==== Sys2Proof/Machine/Service.lean ====
section
/-! DEFINITION. Outstanding operations on their way (R137 to R139): which access may go, what its translation, its home
slice or its window gives it, and what the operation leaves when it completes. -/

namespace Sys2Proof.Machine

/-! ### Accesses of an operation -/

/-- The state with every access of an operation ended in a fault (R154: a plane store writes nothing on any fault). -/
def faultAll (s : State) (n : Nat) : State :=
  match getOp s n with
  | none => s
  | some o => setOp s n (some { o with accs := o.accs.map (fun a => { a with stage := .faulted }) })

/-- What an access names. -/
abbrev Access.target (a : Access) : Target := targetOf a.space a.va.toNat

/-- Whether an access is translated. -/
def Access.translated (a : Access) : Bool :=
  match a.target with
  | .virtual _ => true
  | _ => false

/-- Whether an operation writes registers when it completes, so that a fault poisons them (R136). -/
def poisons : OpKind → Bool
  | .load _ _ _ | .loadRo _ _ | .loadK _ _ | .planeLoad _ _ _ _ _ _ _ _ => true
  | .atomic _ _ dst _ _ _ => dst.isSome
  | _ => false

/-- Whether an operation is an LDRO, which R139 exempts. -/
def isReadOnly : OpKind → Bool
  | .loadRo _ _ => true
  | _ => false

/-- Whether an address lies in a link window. -/
def isLink : Target → Bool
  | .linkIn _ => true
  | .linkOut _ => true
  | _ => false

/-- The address of plane word k of a block: the sign word for k = 0 (spec/05 5.7). -/
def planeAddress (base : Dword) (blk stride k : Nat) : Nat := base.toNat + (k + 1) * stride + 4 * blk

/-- The address of the head entry of a block. -/
def headAddress (base : Dword) (blk : Nat) : Nat := base.toNat + 2 * blk

/-- The magnitude planes that a load reads: from, to (R155, R156). -/
def planesWanted (refine : Bool) (n : Nat) (tag : BitVec 20) (head : Nat) : Nat × Nat :=
  (if refine then bitsOf tag.toNat 15 12 + 1 else 1, min n (bitsOf head 11 8))

/-- The bytes that an access has read. -/
def Access.got (a : Access) : Option Nat :=
  match a.stage with
  | .done bs => some (leNat bs)
  | _ => none

/-- The reads that an LDP or LDPR will still make after those it has listed: before its first head read every plane word that it
wants, stored or not, and the second head read; after it, the second head read (R155, R156). -/
def readsToCome (s : State) (o : PendingOp) : List (Nat × Nat) :=
  match o.kind with
  | .planeLoad refine q _ n _ base blk stride =>
    let second : Nat × Nat := (headAddress base blk, 2)
    let from_ := if refine then bitsOf (qReg (getGang s o.block o.gang) q).tag.toNat 15 12 + 1 else 0
    if o.accs.any (fun a => a.stage.over && a.got == none) then []
    else
      match o.accs with
      | [h] =>
        if h.stage.over then []
        else ((List.range (n + 1)).drop from_).map (fun k => (planeAddress base blk stride k, 4)) ++ [second]
      | _ => if (o.accs.getLast?.map Access.size) == some 4 then [second] else []
  | _ => []

/-! ### Order within a thread (R139, R260, R268, R276) -/

/-- Whether two ranges of numbers meet. -/
abbrev rangesMeet (a n b m : Nat) : Bool := decide (a < b + m ∧ b < a + n)

/-- The places where an access to a virtual address may lie: that of the leaf it is translated under; before its translation,
those that its cluster's TLB and the page tables lead to. -/
def placesOf (s : State) (cl ctx va : Nat) (st : Stage) : List Nat :=
  match st with
  | .atHome l _ _ => [realPlace s l va]
  | _ => ((tlbFind (getCluster s cl) ctx va).toList ++ (walk s ctx va).toList).map (fun l => realPlace s l va)

/-- Whether an earlier access may touch a byte of a later one. Different virtual addresses may name one physical byte (R260): they
do not where their offsets in a 4 KiB frame differ, and else the places tell; an earlier access that no translation is known
for is taken to (DEDUCED, log 113). One thread's accesses to a link keep their order (R268). -/
def mayMeet (s : State) (cl ctx : Nat) (x : Target) (n : Nat) (xs : Stage) (y : Target) (m : Nat) (ys : Stage) : Bool :=
  match x, y with
  | .virtual a, .virtual b =>
    if rangesMeet a n b m then true
    else
      let p := a % 4096
      let q := b % 4096
      if rangesMeet p n q m || decide (p + 4096 < q + m) || decide (q + 4096 < p + n) then
        let ps := placesOf s cl ctx a xs
        ps.isEmpty || ps.any (fun p => (placesOf s cl ctx b ys).any (fun q => rangesMeet p n q m))
      else false
  | .lstore a, .lstore b => rangesMeet a n b m
  | .scratch a, .scratch b => rangesMeet a n b m
  | .linkIn _, .linkIn _ => true
  | .linkOut _, .linkOut _ => true
  | _, _ => false

/-- Whether an access waits for an earlier access of one of its threads to the same bytes (R139), those that an LDP or LDPR has
still to make among them, or, in a link window, for any earlier one of them, LDRO's too (R268). -/
def heldBack (s : State) (n : Nat) (o : PendingOp) (a : Access) : Bool :=
  let b := getBlock s o.block
  let cl := (b.map blockCluster).getD 0
  let ctx := (b.map Block.ctx).getD 0
  s.ops.any (fun e =>
    decide (e.1 < n) &&
    (match e.2 with
     | none => false
     | some p =>
       p.block == o.block && p.gang == o.gang &&
       (isLink a.target || (!isReadOnly p.kind && !isReadOnly o.kind)) &&
       (p.accs.any (fun x => !x.stage.over && x.lanes &&& a.lanes != 0 &&
          mayMeet s cl ctx x.target x.size x.stage a.target a.size a.stage) ||
        (p.accs.any (fun x => x.lanes &&& a.lanes != 0) && (readsToCome s p).any (fun x =>
          mayMeet s cl ctx (targetOf 0 x.1) x.2 .waiting a.target a.size a.stage)))))

/-- Whether a gang has an earlier store, STX, STP, SPST or atomic that is not acknowledged: a write-back of lines comes after
it (R148, R244, R285). -/
def writesBefore (s : State) (n : Nat) (o : PendingOp) : Bool :=
  s.ops.any (fun e =>
    decide (e.1 < n) &&
    (match e.2 with
     | none => false
     | some p => p.block == o.block && p.gang == o.gang && writesMemory p.kind))

/-! ### Faults that become known (R136, R137, R226, R228, R267, R368, R385) -/

/-- The key of the head that a plane store has marked busy, as its first access keeps it (R154). -/
def busyHead (o : PendingOp) : Option Nat :=
  match o.kind, o.accs.head?.map Access.stage with
  | .planeStore _, some (.done bs) => some (leNat bs)
  | _, _ => none

/-- The state without a busy mark. -/
def unmark (s : State) (key : Nat) : State := { s with hostIf := { s.hostIf with busy := s.hostIf.busy.erase key } }

/-- An access that ends in a fault: the fault is deferred to its threads, and the access performs nothing; of a plane store, which
meets faults only before its head is written, no access performs anything (R154). -/
def faultAccess (s : State) (n idx : Nat) (o : PendingOp) (a : Access) (t : Trap) : State :=
  let s := deferLanes s o.block o.gang (lanesOf a.lanes) t
  match o.kind with
  | .planeStore _ => faultAll s n
  | k => setStage s n idx (if poisons k then .poisoned else .faulted)

/-- The auxiliary words that hold an address. -/
abbrev addressTrap (cause : BitVec 8) (va : Dword) (aux2 aux3 : Nat) : Trap :=
  { cause := cause, aux0 := lo32 va, aux1 := hi32 va, aux2 := BitVec.ofNat 32 aux2, aux3 := BitVec.ofNat 32 aux3 }

/-- The auxiliary words of a window fault (R237). -/
abbrev windowTrap (cause : BitVec 8) (reason : Nat) (handle : Word) (va : Dword) : Trap :=
  { cause := cause, aux0 := BitVec.ofNat 32 reason, aux1 := handle, aux2 := lo32 va, aux3 := hi32 va }

/-- An access that ends in poison, with its address logged in the lowest thread (R136, R334). -/
def poisonAccess (s : State) (n idx : Nat) (o : PendingOp) (a : Access) (kind : Nat) : State :=
  setStage (modThread s o.block o.gang (lowest a.lanes) (fun t => logPoison t kind a.va)) n idx .poisoned

/-- An access that finds no valid page (R136, R137). -/
def missAccess (s : State) (n idx : Nat) (o : PendingOp) (a : Access) : State :=
  if poisons o.kind then poisonAccess s n idx o a 1
  else faultAccess s n idx o a (addressTrap 8 a.va a.space 0)

/-- An access that cannot be carried out (R368). -/
def unreachableAccess (s : State) (n idx : Nat) (o : PendingOp) (a : Access) (reason : Nat) : State :=
  if poisons o.kind then poisonAccess s n idx o a 3
  else faultAccess s n idx o a (addressTrap 8 a.va (0x10 + reason) 0)

/-- An access to a page that a window owns, by a thread that may not make it (R226): the poison log and WINDOW_PRIVATE. -/
def privateAccess (s : State) (n idx : Nat) (o : PendingOp) (a : Access) : State :=
  let s := if poisons o.kind then modThread s o.block o.gang (lowest a.lanes) (fun t => logPoison t 2 a.va) else s
  faultAccess s n idx o a (windowTrap 0x0D 0 a.key a.va)

/-- An access that meets uncorrectable data (R385): poison with no log entry, and the freeze. A plane store whose head is
uncorrectable, or cannot be translated for such data, stores nothing: DEDUCED, log 114. -/
def badAccess (s : State) (n idx : Nat) (o : PendingOp) (a : Access) : State :=
  let l := lowest a.lanes
  let s := freezeData s o.block o.gang l (standsAt s o.block o.gang l) a.va
  match o.kind with
  | .planeStore _ => faultAll s n
  | k => setStage s n idx (if poisons k then .poisoned else .faulted)

/-- What an answer leaves of an access. -/
def answerAccess (s : State) (n idx : Nat) (o : PendingOp) (a : Access) (r : Reply) : State :=
  match r with
  | .bytes bs => setStage s n idx (.done bs)
  | .bad => badAccess s n idx o a
  | .failed =>
    let l := lowest a.lanes
    setStage (freezeData s o.block o.gang l (standsAt s o.block o.gang l) a.va) n idx (.done [])
  | .blocked => s
  | .unreachable reason => unreachableAccess s n idx o a reason

/-! ### Plane memory (R151 to R158) -/

/-- Whether the first head read of an LDPR matches the tag of its q register (R156). -/
def headMatches (tag : BitVec 20) (head : Nat) : Bool :=
  bitsOf head 15 12 == bitsOf tag.toNat 19 16 && bitsOf head 11 0 == bitsOf tag.toNat 11 0

/-- The accesses that a plane load makes after those it has made: the plane words after the first head read, then the
second head read (R155, R156). -/
def morePlanes (refine : Bool) (n : Nat) (active : BitVec 32) (base : Dword) (blk stride : Nat) (tag : BitVec 20)
    (accs : List Access) : List Access :=
  let mk (va size : Nat) : Access := { lanes := active, space := 0, va := BitVec.ofNat 64 va, size := size }
  if accs.any (fun a => a.got == none) then []
  else
    match accs with
    | [h] =>
      let head := (h.got).getD 0
      let (lo, hi) := planesWanted refine n tag head
      let words := (List.range (hi + 1 - lo)).map (fun i => mk (planeAddress base blk stride (lo + i)) 4)
      if refine then (if headMatches tag head ∧ lo ≤ hi then words else [])
      else mk (planeAddress base blk stride 0) 4 :: words
    | _ =>
      match accs.getLast? with
      | some a => if a.size = 4 then [mk (headAddress base blk) 2] else []
      | none => []

/-- A plane load after one of its reads: the accesses that follow are listed. -/
def advancePlanes (s : State) (n : Nat) : State :=
  match getOp s n with
  | none => s
  | some o =>
    match o.kind with
    | .planeLoad refine q _ want active base blk stride =>
      let tag := (qReg (getGang s o.block o.gang) q).tag
      setOp s n (some { o with accs := o.accs ++ morePlanes refine want active base blk stride tag o.accs })
    | _ => s

/-- A read past the L1, of whose bytes the L1 and, for a page that is not local, the cluster's L2 may hold older values: they take
what was read, so that no later read of the thread returns an older one (R283). -/
def readFresh (core va : Nat) (l : Leaf) (r : Reply × State) : Reply × State :=
  match r with
  | (.bytes bs, s) =>
    let s := if inL2 l && l.shared then l2WriteThrough s (clusterOf core) (physical l va) bs else s
    (.bytes bs, l1Refresh s core (l1Key l va) bs)
  | r => r

/-- A read of a plane load (R153, R158): a head at its home slice, past the caches, while the block is not marked busy; a
plane word of a local page through the L2, of any other at its home. -/
def planeRead (s : State) (core ctx : Nat) (a : Access) (l : Leaf) : Reply × State :=
  let va := a.va.toNat
  let cl := clusterOf core
  if a.size = 2 then
    if s.hostIf.busy.contains (realPlace s l va) then (.blocked, s) else readFresh core va l (readAtHome s va 2 cl l)
  else
    readFresh core va l
      (if inL2 l && !l.shared then readThroughL2 s cl ctx va 4 l else readAtHome s va 4 cl l)

/-! ### Plane stores (R154) -/

/-- The head that follows another (R154): the next version, with the planes held and the exponent of a tag. -/
def nextHead (tag : BitVec 20) (old : List Byte) : List Byte :=
  natBytes 2 ((bitsOf (leNat old) 15 12 + 1) % 16 * 2 ^ 12 + bitsOf tag.toNat 15 12 * 2 ^ 8 + bitsOf tag.toNat 7 0)

/-- The head of a plane store taken to its next version at its home, as one step: the old head. -/
def updateHead (s : State) (cl va : Nat) (l : Leaf) (tag : BitVec 20) : Reply × State :=
  if isPeer l then
    let dest := peerDest l
    if isSelf s dest then
      selfRequest s dest (peerAddress l va) .write (fun s pa => homeUpdate s pa 2 whoHost (nextHead tag))
    else
      farRequest s dest (peerAddress l va) .write (fun p pa =>
        if peerBad p pa 2 then (.bad, s)
        else
          let old := tgetMany 0 p.mem pa 2
          (.bytes old, setPeer s dest (some { p with mem := tsetMany 0 p.mem pa (nextHead tag old) })))
  else if 2 ≤ l.tier then
    match hostRead s (physical l va) 2 with
    | .bytes old => (.bytes old, (hostWrite s (physical l va) (nextHead tag old)).2)
    | r => (r, s)
  else homeUpdate s (physical l va) 2 cl (nextHead tag)

/-- What the home of a plane word says before the head is written: it will take the word, a peer's at an address; it refuses; or
its answer must wait. -/
inductive Reserved where
  | ok (at_ : Nat)
  | refused (reason : Nat)
  | blocked
  deriving DecidableEq, Repr

/-- A plane word reserved at its home (R154, R364 to R368): the checks that its write needs, made before anything is written. -/
def reserveWord (s : State) (l : Leaf) (va : Nat) : Reserved × State :=
  if isPeer l then
    let dest := peerDest l
    if isSelf s dest then
      match ownExport s (peerAddress l va) (ownKey s) .write with
      | (.ok pa, s) => (.ok pa, s)
      | (.refused r, s) => (.refused r, refusedAccess s dest (peerAddress l va) r)
      | (.blocked, s) => (.blocked, s)
    else
      match peerOf s dest with
      | none => (.refused 1, s)
      | some p =>
        match peerExport p (peerAddress l va) (ownKey s) .write with
        | .error r => (.refused r, s)
        | .ok pa => (.ok pa, s)
  else if l.tier = 2 ∧ s.link.cxl = false then (.refused 7, s)
  else if 2 ≤ l.tier ∧ hostFails s (physical l va) 4 = true then (.refused 8, s)
  else (.ok 0, s)

/-- What the homes of some plane words say in turn: the stages in which they follow their head, or the first that is refused or
must wait. -/
def reserveWords (s : State) : List Access → Except (Access × Reserved) (List Access) × State
  | [] => (.ok [], s)
  | a :: as =>
    match a.stage with
    | .atHome l _ _ =>
      match reserveWord s l a.va.toNat with
      | (.ok pa, s) =>
        match reserveWords s as with
        | (.ok rest, s) => (.ok ({ a with stage := .atHome l 0 pa } :: rest), s)
        | r => r
      | (r, s) => (.error (a, r), s)
    | _ => (.error (a, .blocked), s)

/-- A plane word that follows its head is written through to its home (R154), which has agreed to it. -/
def planeWordWrite (s : State) (core va : Nat) (l : Leaf) (at_ : Nat) (bs : List Byte) : Reply × State :=
  let done (s : State) : Reply × State := (.bytes [], storeNear s core va l bs)
  if isPeer l && !isSelf s (peerDest l) then
    done (match peerOf s (peerDest l) with
      | some p => setPeer s (peerDest l) (some { p with mem := tsetMany 0 p.mem at_ bs })
      | none => s)
  else if 2 ≤ l.tier then done { s with hostMem := tsetMany 0 s.hostMem (physical l va) bs }
  else
    match writeReply (homeWrite s (if isPeer l then at_ else physical l va) bs
        (if isPeer l then whoHost else clusterOf core)) with
    | (.bytes _, s) => done s
    | r => r

/-! ### Translation (PAGE_WALK_COMPLETE) -/

/-- The permissions an operation needs of a page (Table 9.3): read, write. -/
def needs : OpKind → Bool × Bool
  | .load _ _ _ | .loadRo _ _ | .loadK _ _ | .planeLoad _ _ _ _ _ _ _ _ => (true, false)
  | .store _ | .planeStore _ => (false, true)
  | .atomic _ _ _ _ _ _ => (true, true)
  | _ => (false, false)

/-- The write-back of the L2 line of an address (R148): skipped where no page or no L2 holds it. -/
def writeBackAt (s : State) (cl : Nat) (l : Leaf) (va : Nat) (drop : Bool) : State :=
  if inL2 l = false then s
  else
    match l2Find s cl (physical l va) with
    | some (bank, x) => writeBackLine s cl bank (l2Set (physical l va)) x (!drop)
    | none => s

/-- A request to a peer leaves on a port with the next sequence number of its pair (R366); with no up port it is
unreachable. -/
def sendToPeer (s : State) (n idx : Nat) (o : PendingOp) (a : Access) (l : Leaf) : State :=
  let d := peerDest l
  if isSelf s d then setStage s n idx (.atHome l 0 0)
  else
    match firstPort s d (peerAddress l a.va.toNat) with
    | none => unreachableAccess s n idx o a 1
    | some p =>
      let seq := tget 0 s.link.sent d + 1
      setStage { s with link := { s.link with sent := tset 0 s.link.sent d seq } } n idx (.atHome l seq p)

/-- What the home of a store says before its cluster has it: it will take the store, or how it answers it. -/
def agreeStore (s : State) (cl va : Nat) (l : Leaf) (bs : List Byte) : Reply × State :=
  if 2 ≤ l.tier then (if hostFails s (physical l va) bs.length then .unreachable 8 else .bytes [], s)
  else writeReply (homeServe s (physical l va) true (bs.length != 32) cl)

/-- A store to a shared page or to host memory (R286): once its home has agreed to it, its core's L1 and its cluster's L2 take it,
and it goes on with its stamp; one whose home keeps it waiting goes on alone (DEDUCED, log 105). -/
def sendStore (s : State) (core n idx : Nat) (o : PendingOp) (a : Access) (l : Leaf) : State :=
  let bs := a.wr.getD []
  match agreeStore s (clusterOf core) a.va.toNat l bs with
  | (.bytes _, s) =>
    let (id, s) := freshId s
    setStage (storeNear s core a.va.toNat l bs) n idx (.atHome l (id + 1) 0)
  | (.blocked, s) => setStage s n idx (.atHome l 0 0)
  | (r, s) => answerAccess s n idx o a r

/-- A translated access whose page admits it: an L2 hit or a store to a local page ends here; any other goes on. -/
def proceed (s : State) (core ctx n idx : Nat) (o : PendingOp) (a : Access) (l : Leaf) (mayCache : Bool) : State :=
  let cl := clusterOf core
  let va := a.va.toNat
  if isPeer l then sendToPeer s n idx o a l
  else
    match o.kind with
    | .load _ _ _ | .loadK _ _ | .loadRo _ _ =>
      if inL2 l then
        match l2Read s cl (physical l (va / 32 * 32)) 32 with
        | (some (.bytes bs), s) =>
          let ro := match o.kind with | .loadRo _ _ => (getBlock s o.block).map Block.launch | _ => none
          let bytes := (bs.drop (va % 32)).take a.size
          let s := if mayCache then l1Fill s core ctx va (l1Key l va) ro bs else l1Refresh s core (l1Key l va) bytes
          setStage s n idx (.done bytes)
        | (some .bad, s) => badAccess s n idx o a
        | (_, s) => setStage s n idx (.atHome l 0 0)
      else setStage s n idx (.atHome l 0 0)
    | .store false =>
      if inL2 l && !l.shared then
        match storeBytes s core ctx va l (a.wr.getD []) false with
        | (.blocked, s) => setStage s n idx (.atHome l 0 0)
        | (r, s) => answerAccess s n idx o a r
      else sendStore s core n idx o a l
    | .writeBack drop => setStage (writeBackAt s cl l va drop) n idx (.done [])
    | _ => setStage s n idx (.atHome l 0 0)

/-- Whether the handle that an SPST presents is valid and names no entry that the store holds (R228, check 1). -/
def staleHandle (s : State) (o : PendingOp) (a : Access) : Bool := a.key.getLsbD 31 && heldEntry s o a == none

/-- The checks of SPST at translation (R228), in their order: a fault, or the leaf it stores under. -/
def spstCheck (s : State) (o : PendingOp) (a : Access) (owner : Option Nat) : Option Trap :=
  if staleHandle s o a then some (windowTrap 0x0E 1 a.key a.va)
  else
    match owner with
    | some e => if heldEntry s o a = some e then none else some (windowTrap 0x0D 0 a.key a.va)
    | none =>
      if a.key.getLsbD 31 then some (windowTrap 0x0F 2 a.key a.va) else some (windowTrap 0x0D 0 a.key a.va)

/-- A fault where there is one, else what goes on. -/
def faultOr (s : State) (n idx : Nat) (o : PendingOp) (a : Access) (t : Option Trap) (go : State) : State :=
  match t with
  | some x => faultAccess s n idx o a x
  | none => go

/-- An access that reaches a page without a permission (R136). -/
abbrev deniedTrap (a : Access) (lack : Nat) : Trap := addressTrap 9 a.va a.space (lack * 2 ^ 8)

/-- An SPST's walk ends (R228): the handle is checked first, then whether there is a page, then its owner, then the permission:
DESIGN CHOICE, log 24. -/
def translateSpst (s : State) (core ctx n idx : Nat) (o : PendingOp) (a : Access) (way : Way) : State :=
  let stale : Option Trap := if staleHandle s o a then some (windowTrap 0x0E 1 a.key a.va) else none
  match way with
  | .blocked => s
  | .noPage => faultOr s n idx o a stale (missAccess s n idx o a)
  | .bad => faultOr s n idx o a stale (badAccess s n idx o a)
  | .owned e l =>
    faultOr s n idx o a (spstCheck s o a (some e))
      (if l.w then proceed s core ctx n idx o a l false else faultAccess s n idx o a (deniedTrap a 2))
  | _ => faultOr s n idx o a (spstCheck s o a none) s

/-- The walk of a translated access ends (R136, R137, R226, R229, R257). DESIGN CHOICE, log 89: CMAINT clean.l2 and flush.l2 of a
window-owned page are carried out and raise nothing. -/
def translateAccess (s : State) (core ctx n idx : Nat) (o : PendingOp) (a : Access) : State :=
  let nd := needs o.kind
  let skips := match o.kind with | .writeBack _ => true | _ => false
  match o.kind, wayOf s (clusterOf core) ctx a.va.toNat nd.1 nd.2 with
  | .store true, (w, s) => translateSpst s core ctx n idx o a w
  | _, (.noPage, s) => if skips then setStage s n idx (.done []) else missAccess s n idx o a
  | _, (.bad, s) => if skips then setStage s n idx (.done []) else badAccess s n idx o a
  | _, (.blocked, s) => s
  | _, (.denied k, s) => faultAccess s n idx o a (deniedTrap a k)
  | _, (.unreachable r, s) => if skips then setStage s n idx (.done []) else unreachableAccess s n idx o a r
  | .load _ _ true, (.owned e l, s) =>
    if currentEntry s a.key ≠ some e then privateAccess s n idx o a
    else if l.r then proceed s core ctx n idx o a l false
    else faultAccess s n idx o a (deniedTrap a 1)
  | .writeBack _, (.owned _ l, s) => proceed s core ctx n idx o a l false
  | _, (.owned _ _, s) => privateAccess s n idx o a
  | _, (.page l, s) => proceed s core ctx n idx o a l true

/-- The core and context of an operation's block, while it is on a core. -/
def opPlace (s : State) (o : PendingOp) : Option (Block × Nat) :=
  match getBlock s o.block with
  | none => none
  | some b => (coreOf b).map (fun c => (b, c))

/-- The read-only launch of an LDRO, none for any other. -/
def roLaunch (b : Block) : OpKind → Option Nat
  | .loadRo _ _ => some b.launch
  | _ => none

/-- Whether an operation is a CMAINT clean.l2 or flush.l2. -/
def isWriteBack : OpKind → Bool
  | .writeBack _ => true
  | _ => false

/-- PAGE_WALK_COMPLETE for one access: a read that hits in the L1 needs no translation (R257). -/
def walkAccess (s : State) (n idx : Nat) : State :=
  match getOp s n with
  | none => s
  | some o =>
    match o.accs[idx]?, opPlace s o with
    | some a, some (b, core) =>
      if a.stage ≠ .waiting ∨ heldBack s n o a = true ∨ (isWriteBack o.kind && writesBefore s n o) = true then s
      else if inExtent s b a.target a.size = false then faultAccess s n idx o a (addressTrap 7 a.va a.space 0)
      else if a.translated = false then s
      else
        match if readsL1 o.kind then l1Bytes s core b.ctx a.va.toNat a.size (roLaunch b o.kind) else none with
        | some bs => setStage s n idx (.done bs)
        | none => askAs (advancePlanes (translateAccess (askAs s (.access n idx)) core b.ctx n idx o a) n) s.asker
    | _, _ => s

/-! ### The home slice, the host or a peer (HOME_SLICE_ACCESS) -/

/-- What an access is answered at its home, by the kind of its operation. It comes after every store to the sector that its
cluster has taken already (R283, R286). -/
def serveAccess (s : State) (core ctx : Nat) (o : PendingOp) (a : Access) (b : Block) (l : Leaf) (at_ : Nat) :
    Reply × State :=
  let va := a.va.toNat
  let cl := clusterOf core
  if storeOnWay s cl (l1Key l va / 32) none then (.blocked, s)
  else
    match o.kind with
    | .load _ _ sp =>
      if sp && (windowOwner s l).isSome then
        readFresh core va l (if inL2 l then readThroughL2 s cl ctx va a.size l else readAtHome s va a.size cl l)
      else loadSector s core ctx va a.size l none
    | .loadK _ _ => loadSector s core ctx va a.size l none
    | .loadRo _ _ => loadSector s core ctx va a.size l (some b.launch)
    | .store sp => storeBytes s core ctx va l (a.wr.getD []) sp
    | .atomic op wide _ bt ct scope =>
      atomAt s core ctx va l scope op wide (tget 0 bt (lowest a.lanes)) (tget 0 ct (lowest a.lanes))
    | .planeLoad _ _ _ _ _ _ _ _ => planeRead s core ctx a l
    | .planeStore _ =>
      match busyHead o with
      | some _ => planeWordWrite s core va l at_ (a.wr.getD [])
      | none => (.blocked, s)
    | _ => (.bytes [], s)

/-- Whether the page of an access has come into the hands of a window since its translation (R226, R296). -/
def ownedSince (s : State) (l : Leaf) : Bool := (windowOwner s l).isSome && windowOwner s l != l.owner

/-- Whether every access of a plane store stands ready at its home (R154): translated, on a port that reaches it, on a page that no
window has taken since. -/
def planeReady (s : State) (o : PendingOp) : Bool :=
  o.accs.all (fun a =>
    match a.stage with
    | .atHome l seq port =>
      !ownedSince s l && (!isPeer l || seq == 0 || portReaches s (peerDest l) port)
    | _ => false)

/-- The head of a plane store at its home (R154): once every address is translated and the block is not busy, the homes of the
plane words are asked whether they will take them; then the head takes the next version, the block is busy, and the words
follow. A fault, or a head that is uncorrectable or that HREL failed, ends the whole store with nothing written (log 114). -/
def headAccess (s : State) (core n : Nat) (o : PendingOp) (a : Access) (l : Leaf) (tag : BitVec 20) : State :=
  let va := a.va.toNat
  let cl := clusterOf core
  let key := realPlace s l va
  if planeReady s o = false ∨ s.hostIf.busy.contains key = true ∨ storeOnWay s cl (l1Key l va / 32) none = true then s
  else
    match reserveWords (tracing (askAs s (.access n 0))) (o.accs.drop 1) with
    | (.error (x, .refused r), t) => unreachableAccess (untraced (askAs t s.asker)) n 0 o x r
    | (.error _, t) => beginAgain s t
    | (.ok ws, t) =>
      match updateHead t cl va l tag with
      | (.bytes old, t) =>
        let t := storeNear (untraced (askAs t s.asker)) core va l (nextHead tag old)
        setOp { t with hostIf := { t.hostIf with busy := t.hostIf.busy ++ [key] } } n
          (some { o with accs := { a with stage := .done (natBytes 8 key) } :: ws })
      | (.blocked, t) => beginAgain s t
      | (.unreachable r, t) => unreachableAccess (untraced (askAs t s.asker)) n 0 o a r
      | (_, t) => badAccess (untraced (askAs t s.asker)) n 0 o a

/-- Whether an access would be served by the fill of a sector that another load of its cluster has begun: it is on its way to
the same sector, or names it and has not been translated (R259, R264). -/
def sharesFill (s : State) (core ctx va : Nat) (l : Leaf) (n : Nat) (o : PendingOp) (a : Access) : Bool :=
  readsL1 o.kind && (match opPlace s o with
    | some (b, c) =>
      clusterOf c == clusterOf core &&
      (match a.stage with
       | .atHome m _ _ => l1Key m a.va.toNat / 32 == l1Key l va / 32
       | .waiting => b.ctx == ctx && a.translated && a.va.toNat / 32 == va / 32 && !heldBack s n o a
       | _ => false)
    | none => false)

/-- The other loads that an uncorrectable fill was to serve meet the same data, without a further read of the array (R385,
R392). -/
def spreadBad (s : State) (core ctx va : Nat) (l : Leaf) : State :=
  (s.ops.flatMap (fun e => match e.2 with
    | some o => ((List.range o.accs.length).map (fun i => (e.1, o, i)))
    | none => [])).foldl (fun t x =>
      match getOp t x.1, x.2.1.accs[x.2.2]? with
      | some o, some a => if sharesFill s core ctx va l x.1 x.2.1 a then badAccess t x.1 x.2.2 o a else t
      | _, _ => t) s

/-- What the answer of its home leaves of an access and of what it shares. -/
def settleAccess (s : State) (core ctx n idx : Nat) (o : PendingOp) (a : Access) (l : Leaf) (r : Reply) : State :=
  match r with
  | .bad => if readsL1 o.kind then spreadBad s core ctx a.va.toNat l else answerAccess s n idx o a r
  | r => answerAccess s n idx o a r

/-- An access at its home, as one step, or, where it waits, nothing of it but its transfers. -/
def reachHome (s : State) (core n idx : Nat) (o : PendingOp) (a : Access) (b : Block) (l : Leaf) (at_ : Nat) : State :=
  match serveAccess (tracing (askAs s (.access n idx))) core b.ctx o a b l at_ with
  | (.blocked, t) => beginAgain s t
  | (r, t) => advancePlanes (settleAccess (untraced (askAs t s.asker)) core b.ctx n idx o a l r) n

/-- HOME_SLICE_ACCESS for an access that has been translated; a request to a peer goes where its port reaches it. A store on its
way is performed, after those before it. One whose page a window has taken is translated again (R296), but not the words of a
plane store whose head is written (R154). -/
def homeAccess (s : State) (n idx : Nat) : State :=
  match getOp s n with
  | none => s
  | some o =>
    match o.accs[idx]?, opPlace s o with
    | some a, some (b, core) =>
      match a.stage with
      | .atHome l seq port =>
        match onWay o a with
        | some (k, m) => if storeOnWay s (clusterOf core) k (some m) then s else performStore s n idx
        | none =>
          if isPeer l && seq != 0 && !portReaches s (peerDest l) port then s
          else if ownedSince s l && (busyHead o).isNone then setStage s n idx .waiting
          else
            match o.kind with
            | .planeStore tag => if idx = 0 then headAccess s core n o a l tag else reachHome s core n idx o a b l port
            | _ => reachHome s core n idx o a b l port
      | _ => s
    | _, _ => s

/-- PEER_RESEND (R366): a request whose port does not reach its destination leaves on the next port that does; where no
up port does, it is unreachable with reason 1. -/
def resendAccess (s : State) (n idx : Nat) : State :=
  match getOp s n with
  | none => s
  | some o =>
    match o.accs[idx]? with
    | none => s
    | some a =>
      match a.stage with
      | .atHome l seq port =>
        if isPeer l = false ∨ seq = 0 ∨ portReaches s (peerDest l) port = true then s
        else
          match nextPort s (peerDest l) port with
          | some p => setStage s n idx (.atHome l seq p)
          | none => unreachableAccess s n idx o a 1
      | _ => s

/-! ### Accesses through windows (R133, R253, R267, R268) -/

/-- An access through a window performed in its store; one that the space no longer holds is a deferred SPACE_RANGE. An SPST
names no draft page there (R228). -/
def windowAccess (s : State) (n : Nat) (o : PendingOp) (idx : Nat) (a : Access) (b : Block) : State :=
  if inExtent s b a.target a.size = false then faultAccess s n idx o a (addressTrap 7 a.va a.space 0)
  else
    match o.kind with
    | .store true =>
      match spstCheck s o a none with
      | some t => faultAccess s n idx o a t
      | none => s
    | .atomic op wide _ bt ct _ =>
      match atomWindow s o.block b a.target op wide (tget 0 bt (lowest a.lanes)) (tget 0 ct (lowest a.lanes)) with
      | (r, s) => answerAccess s n idx o a r
    | _ =>
      match a.wr with
      | some bs => setStage (windowWrite s o.block b a.target bs) n idx (.done [])
      | none =>
        match windowRead s b a.target a.size with
        | (.bytes bs, s) => setStage s n idx (.done bs)
        | (.bad, s) => badAccess s n idx o a
        | (.blocked, s) => s

/-- Every access of an operation through a window that may go, performed. DESIGN CHOICE, logs 87 and 88: the lanes of one
word go in rising order, so that of several stores to one byte the highest lane's stands (R143), and atomics on one word of a
window are performed from the lowest lane up (R149). -/
def windowAccesses (s : State) (n : Nat) : State :=
  match getOp s n with
  | none => s
  | some o =>
    (List.range o.accs.length).foldl (fun s idx =>
      match getOp s n, getBlock s o.block with
      | some o, some b =>
        match o.accs[idx]? with
        | some a =>
          if a.stage = .waiting ∧ a.translated = false ∧ heldBack s n o a = false then windowAccess s n o idx a b else s
        | none => s
      | _, _ => s) s

/-! ### Completion (PRODUCER_COMPLETE, STORE_ACKNOWLEDGED) -/

/-- The words that a load of a size code writes from its bytes (Table 3.8, R141). -/
def loadWords (code : Nat) (bs : List Byte) : List Word :=
  match code with
  | 0 | 2 | 4 => [BitVec.ofNat 32 (leNat bs)]
  | 1 => [(BitVec.ofNat 8 (leNat bs)).signExtend 32]
  | 3 => [(BitVec.ofNat 16 (leNat bs)).signExtend 32]
  | 5 => [BitVec.ofNat 32 (leNat bs), BitVec.ofNat 32 (leNat (bs.drop 4))]
  | _ => (List.range 4).map (fun i => BitVec.ofNat 32 (leNat (bs.drop (4 * i) |>.take 4)))

/-- The words of a poisoned result: the spec gives poisoned registers no value, so each is part of a free number. -/
def poisonWords (free lane count : Nat) : List Word :=
  (List.range count).map (fun i => BitVec.ofNat 32 (free / 2 ^ (32 * (lane * 4 + i))))

/-- The result of one access put into v registers of its lane. -/
def loadLane (g : Gang) (a : Access) (dst regs free : Nat) (words : List Byte → List Word) : Gang :=
  let l := lowest a.lanes
  modThreadOf g l (fun t =>
    match a.stage with
    | .done bs => writeVs t dst (words bs) false
    | _ => writeVs t dst (poisonWords free l regs) true)

/-- The block register that a plane load leaves, with pd: none where it completes poisoned (R136); no change of q where pd
is false or where nothing is read. -/
def planeResult (refine : Bool) (n : Nat) (q : QReg) (accs : List Access) : Option (Bool × QReg) :=
  if accs.any (fun a => a.got == none) then none
  else
    let vals := accs.map (fun a => (a.got).getD 0)
    let h1 := vals.headD 0
    let (lo, hi) := planesWanted refine n q.tag h1
    let keep := { q with empty := false }
    if refine && !headMatches q.tag h1 then some (false, keep)
    else if refine && hi < lo then some (true, keep)
    else if vals.getLast? ≠ some h1 ∨ accs.length < 2 then some (false, keep)
    else
      let words := (vals.drop 1).take (accs.length - 2)
      let planes := if refine then words else words.drop 1
      let lane (l : Nat) : BitVec 16 :=
        let old : Nat := if refine then (tget 0 q.lanes l).toNat else (if (words.headD 0).testBit l then 2 ^ 15 else 0)
        BitVec.ofNat 16 ((List.range planes.length).foldl (fun x i =>
          let bit := 2 ^ (15 - (lo + i))
          if (planes.getD i 0).testBit l then (if x / bit % 2 = 1 then x else x + bit)
          else if x / bit % 2 = 1 then x - bit else x) old)
      let tag := if refine then q.tag.toNat - bitsOf q.tag.toNat 15 12 * 2 ^ 12 + hi * 2 ^ 12
        else bitsOf h1 15 12 * 2 ^ 16 + hi * 2 ^ 12 + bitsOf h1 11 0
      some (true, { lanes := lanes32.foldl (fun t l => tset 0 t l (lane l)) [], tag := BitVec.ofNat 20 tag,
                    empty := false, poison := if refine then q.poison else false })

/-- The gang with a plane load complete (R155, R156): an LDPR's pd comes from the tag of q, and is poisoned with it (R29). -/
def finishPlanes (g : Gang) (refine : Bool) (q pd n : Nat) (active : BitVec 32) (accs : List Access) (free : Nat) : Gang :=
  let old := qReg g q
  let stale := refine && old.poison
  let put (g : Gang) (v poison : Bool) : Gang :=
    (lanesOf active).foldl (fun g l => modThreadOf g l (fun t => writeP t pd v poison)) g
  match planeResult refine n old accs with
  | some (v, x) => put { g with q := tset {} g.q q x } v stale
  | none =>
    put (writeQ g q (lanes32.foldl (fun t l => tset 0 t l (BitVec.ofNat 16 (free / 2 ^ (16 * l)))) []) old.tag true)
      (free.testBit 0) true

/-- A producer's result put into its register. -/
def putResult (g : Gang) (r : Result) : Gang :=
  if r.isK then writeK g r.reg r.val r.poison
  else modThreadOf g r.lane (fun t => writeV t r.reg r.val r.poison)

/-- The gang with the registers of a completed operation written and full (R27). -/
def writeResults (g : Gang) (o : PendingOp) (free : Nat) : Gang :=
  match o.kind with
  | .load code dst _ | .loadRo code dst =>
    o.accs.foldl (fun g a => loadLane g a dst (sizeRegs code) free (loadWords code)) g
  | .atomic _ wide (some dst) _ _ _ =>
    o.accs.foldl (fun g a => loadLane g a dst (if wide then 2 else 1) free (loadWords (if wide then 5 else 4))) g
  | .loadK regs dst =>
    o.accs.foldl (fun g a =>
      match a.stage with
      | .done bs => writeKs g dst ((List.range regs).map (fun i => BitVec.ofNat 32 (leNat ((bs.drop (4 * i)).take 4)))) false
      | _ => writeKs g dst (poisonWords free 0 regs) true) g
  | .planeLoad refine q pd n active _ _ _ => finishPlanes g refine q pd n active o.accs free
  | .producer res => res.foldl putResult g
  | _ => g

/-- Whether an operation is one that PRODUCER_COMPLETE ends. -/
def isProducer : OpKind → Bool
  | .producer _ => true
  | k => poisons k

/-- The units of a gang whose acquiring atomics have all completed take their acquire and go on (R149, R145). -/
def settleAcquires (s : State) (blk g : Nat) : State :=
  (getGang s blk g).units.foldl (fun s u =>
    match u.wait with
    | .acquire ops scope =>
      if opsOver s ops then
        let s := match (getBlock s blk).bind coreOf with | some c => acquire s c scope | none => s
        modUnit s blk g (lowest u.lanes) (fun v => { v with wait := .none })
      else s
    | _ => s) s

/-- An operation removed, its counter told (R138). -/
def endOp (s : State) (n : Nat) (o : PendingOp) : State :=
  reachClusters (settleAcquires (setOp (modGang (forgetOp s n) o.block o.gang (fun g => doneOp g n)) n none) o.block o.gang)

/-- PRODUCER_COMPLETE: once every access has ended, the destinations are written and full and the count drains. -/
def completeProducer (s : State) (n : Nat) : State :=
  let s := windowAccesses s n
  match getOp s n with
  | none => s
  | some o =>
    if isProducer o.kind = false ∨ o.accs.any (fun a => !a.stage.over) = true then s
    else
      let (free, s) := draw s
      endOp (modGang s o.block o.gang (fun g => writeResults g o free)) n o

/-- The busy marks without the head of a completed plane store (R154). -/
def clearBusy (s : State) (o : PendingOp) : State :=
  match busyHead o with
  | some key => unmark s key
  | none => s

/-- Whether some write-back of a cluster waits at its home slice (R382). -/
def backsWait (s : State) (cl : Nat) : Bool := s.backs.any (fun b => b.cluster == cl)

/-- CWB's write-backs, made after every earlier write of its gang (R244, R285); none for any other operation, or once they
have been made. -/
def startCwb (s : State) (n : Nat) (o : PendingOp) : State :=
  match o.kind, opPlace s o with
  | .writeBackContext ctx, some (_, core) =>
    if writesBefore s n o then s
    else setOp (cleanContext s (clusterOf core) ctx) n (some { o with kind := .writeBack false })
  | _, _ => s

/-- Whether an operation still waits for a write-back: CWB and CMAINT complete once every one is acknowledged. -/
def backPending (s : State) (o : PendingOp) : Bool :=
  match o.kind, opPlace s o with
  | .writeBackContext _, some _ => true
  | .writeBack _, some (_, core) => backsWait s (clusterOf core)
  | _, _ => false

/-- STORE_ACKNOWLEDGED: once every access has ended, the operation is acknowledged; a plane store clears its busy mark; a
write-back is acknowledged by the home slices (R148, R244). -/
def acknowledgeStore (s : State) (n : Nat) : State :=
  let s := windowAccesses s n
  let s := match getOp s n with | some o => startCwb s n o | none => s
  match getOp s n with
  | none => s
  | some o =>
    if isProducer o.kind = true ∨ o.kind = .accRead ∨ o.accs.any (fun a => !a.stage.over) = true ∨ backPending s o = true
    then s
    else endOp (clearBusy s o) n o

end Sys2Proof.Machine
end

