-- ==== Sys2Proof/Machine/Load.lean ====
section
/-! DEFINITION. LD, ST, LDRO (R141 to R143), LDX, STX (R144), FENCE (R145), WAIT (R146), PF and CMAINT (R148), ATOM and CAS
(R149), and the steps PRODUCER_COMPLETE, STORE_ACKNOWLEDGED, PAGE_WALK_COMPLETE and PEER_RESEND. -/

namespace Sys2Proof.Machine

/-! ### Addresses and checks (R87, R133, R134) -/

/-- The effective address of a thread's access, the exact sum of operand and displacement (R7, R87): a 64-bit operand in the
generic space, a 32-bit one in the others. -/
def effectiveAddress (g : Gang) (l : Nat) (a : BitVec 6) (sp : Nat) (off : Int) : Int :=
  match sp with
  | 0 => (pairV (threadOf g l) a.toNat).toNat + off
  | 3 => (kReg g a.toNat).val.toNat + off
  | _ => (vReg (threadOf g l) a.toNat).val.toNat + off

/-- The address of an access made once for a gang (R144). -/
def uniformAddress (g : Gang) (a : BitVec 6) (sp : Nat) (off : Int) : Int :=
  if sp = 0 then (pairK g a.toNat).toNat + off else (kReg g a.toNat).val.toNat + off

/-- SPACE_RANGE (R133), then MISALIGNED (R134), of an access of `n` bytes at an exact address. -/
def accessTrap (s : State) (b : Block) (sp : Nat) (va : Int) (n : Nat) : Option Trap :=
  if inExtent s b (targetOf sp va) n = false then some (addressTrap 7 (low64 va) sp 0)
  else if va % n ≠ 0 then some (addressTrap 6 (low64 va) sp 0)
  else none

/-- The low `n` bytes of consecutive v registers. -/
def bytesV (x : Thread) (r n : Nat) : List Byte :=
  (((List.range 4).flatMap (fun i => natBytes 4 (vReg x (r + i)).val.toNat))).take n

/-- The bytes of consecutive k registers. -/
def bytesK (g : Gang) (r c : Nat) : List Byte := (List.range c).flatMap (fun i => natBytes 4 (kReg g (r + i)).val.toNat)

/-! ### Accesses by each thread -/

/-- A word that starts one access in each active thread, at the thread's address: SPACE_RANGE and MISALIGNED are precise, and the
operation counts from its issue (R138). -/
def accessWord (i : Instr) (s : State) (dst : List RegRef) (kind : OpKind) (addr : Gang → Nat → Int)
    (acc : Gang → Nat → Access) : Host.Outcome State Fault Refusal :=
  runWord i s (fun t iss act =>
    match getBlock s t.blk with
    | none => { st := s, moves := t.onward i.words iss }
    | some b =>
      let g := gangOf b t.gang
      let err (l : Nat) : Option Trap := let a := acc g l; accessTrap s b a.space (addr g l) a.size
      let ok := (lanesOf act).filter (fun l => err l == none)
      { st := if ok.isEmpty then s else startOp s t ok dst (counterClass i) kind (ok.map (acc g))
        traps := (lanesOf act).filterMap (fun l => (err l).map (fun x => (l, t.trap x)))
        moves := t.onward i.words iss })

/-- A thread's access of a size code. -/
def laneAccess (g : Gang) (l : Nat) (a : BitVec 6) (sp : Nat) (off : Int) (n : Nat) (wr : Option (List Byte)) : Access :=
  { lanes := laneBit l, space := sp, va := low64 (effectiveAddress g l a sp off), size := n, wr := wr,
    key := (threadOf g l).spx }

/-- A thread's access by SPLD or SPST, with whether its handle is current at issue (R225). -/
def heldAccess (s : State) (g : Gang) (l : Nat) (a : BitVec 6) (n : Nat) (wr : Option (List Byte)) : Access :=
  { laneAccess g l a 0 0 n wr with early := (currentEntry s (threadOf g l).spx).isSome }

/-- LD (R141): a long-latency producer on ld. -/
def execLd (gd : BitVec 4) (d a : BitVec 6) (size : BitVec 3) (sp : BitVec 2) (off : BitVec 5) (s : State) :
    Host.Outcome State Fault Refusal :=
  let n := sizeBytes size.toNat
  accessWord (.ld gd d a size sp off) s (vs d.toNat (sizeRegs size.toNat)) (.load size.toNat d.toNat false)
    (fun g l => effectiveAddress g l a sp.toNat (off.toInt * n))
    (fun g l => laneAccess g l a sp.toNat (off.toInt * n) n none)

/-- ST (R141): the data registers are read at issue; it counts on st. -/
def execSt (gd : BitVec 4) (d a : BitVec 6) (size : BitVec 3) (sp : BitVec 2) (off : BitVec 5) (s : State) :
    Host.Outcome State Fault Refusal :=
  let n := sizeBytes size.toNat
  accessWord (.st gd d a size sp off) s [] (.store false)
    (fun g l => effectiveAddress g l a sp.toNat (off.toInt * n))
    (fun g l => laneAccess g l a sp.toNat (off.toInt * n) n (some (bytesV (threadOf g l) d.toNat n)))

/-- LDRO (R141, R142): through the read-only path. -/
def execLdro (gd : BitVec 4) (d a : BitVec 6) (size : BitVec 3) (sp : BitVec 2) (off : BitVec 5) (s : State) :
    Host.Outcome State Fault Refusal :=
  let n := sizeBytes size.toNat
  accessWord (.ldro gd d a size sp off) s (vs d.toNat (sizeRegs size.toNat)) (.loadRo size.toNat d.toNat)
    (fun g l => effectiveAddress g l a sp.toNat (off.toInt * n))
    (fun g l => laneAccess g l a sp.toNat (off.toInt * n) n none)

/-- SPLD (R229): as LD in the generic space, presenting sys.spx. -/
def execSpld (gd : BitVec 4) (d a : BitVec 6) (size : BitVec 3) (s : State) : Host.Outcome State Fault Refusal :=
  let n := sizeBytes size.toNat
  accessWord (.spld gd d a size) s (vs d.toNat (sizeRegs size.toNat)) (.load size.toNat d.toNat true)
    (fun g l => effectiveAddress g l a 0 0)
    (fun g l => heldAccess s g l a n none)

/-- SPST (R228): a store into a draft page, presenting sys.spx. -/
def execSpst (gd : BitVec 4) (d a : BitVec 6) (size : BitVec 3) (s : State) : Host.Outcome State Fault Refusal :=
  let n := sizeBytes size.toNat
  accessWord (.spst gd d a size) s [] (.store true)
    (fun g l => effectiveAddress g l a 0 0)
    (fun g l => heldAccess s g l a n (some (bytesV (threadOf g l) d.toNat n)))

/-! ### Accesses made once for a gang (R144) -/

/-- A word that makes one access for its gang: its traps are raised in every active thread. -/
def onceAccess (i : Instr) (s : State) (dst : List RegRef) (kind : OpKind) (addr : Gang → Int)
    (acc : Gang → BitVec 32 → Access) : Host.Outcome State Fault Refusal :=
  runWord i s (fun t iss act =>
    match getBlock s t.blk with
    | none => { st := s, moves := t.onward i.words iss }
    | some b =>
      let a := acc (gangOf b t.gang) act
      match accessTrap s b a.space (addr (gangOf b t.gang)) a.size with
      | some x => { st := s, traps := (lanesOf act).map (fun l => (l, t.trap x)), moves := t.onward i.words iss }
      | none => { st := startOp s t (lanesOf act) dst (counterClass i) kind [a], moves := t.onward i.words iss })

/-- The access of LDX or STX (R144). -/
def gangAccess (g : Gang) (act : BitVec 32) (a : BitVec 6) (sp : Nat) (off : Int) (n : Nat) (wr : Option (List Byte)) :
    Access :=
  { lanes := act, space := sp, va := low64 (uniformAddress g a sp off), size := n, wr := wr,
    key := (threadOf g (lowest act)).spx }

/-- LDX (R144). -/
def execLdx (gd : BitVec 4) (d a : BitVec 6) (size sp : BitVec 2) (off : BitVec 4) (s : State) :
    Host.Outcome State Fault Refusal :=
  let n : Nat := 4 * 2 ^ size.toNat
  onceAccess (.ldx gd d a size sp off) s (ks d.toNat (2 ^ size.toNat)) (.loadK (2 ^ size.toNat) d.toNat)
    (fun g => uniformAddress g a sp.toNat (off.toInt * n))
    (fun g act => gangAccess g act a sp.toNat (off.toInt * n) n none)

/-- STX (R144). -/
def execStx (gd : BitVec 4) (d a : BitVec 6) (size sp : BitVec 2) (off : BitVec 4) (s : State) :
    Host.Outcome State Fault Refusal :=
  let n : Nat := 4 * 2 ^ size.toNat
  onceAccess (.stx gd d a size sp off) s [] (.store false)
    (fun g => uniformAddress g a sp.toNat (off.toInt * n))
    (fun g act => gangAccess g act a sp.toNat (off.toInt * n) n (some (bytesK g d.toNat (2 ^ size.toNat))))

/-! ### FENCE and WAIT (R145, R146) -/

/-- FENCE (R145): past the gate a release has drained st and ld; an acquire acts on the L1 and the generation. -/
def execFence (gd : BitVec 4) (scope : BitVec 3) (kind : BitVec 2) (s : State) : Host.Outcome State Fault Refusal :=
  onceWord (.fence gd scope kind) s false (fun t _ => if kind = 1 then s else acquire s t.core scope.toNat)

/-- WAIT (R146): past the gate its condition holds. -/
def execWait (gd : BitVec 4) (ctr : BitVec 3) (thr : BitVec 6) (s : State) : Host.Outcome State Fault Refusal :=
  onceWord (.wait gd ctr thr) s false (fun _ _ => s)

/-! ### PF and CMAINT (R148) -/

/-- The line addresses of a thread's cache operation: `lines` + 1 lines from the one that holds the address. -/
def lineAddresses (g : Gang) (l : Nat) (a lines : BitVec 6) : List Nat :=
  let va := (pairV (threadOf g l) a.toNat).toNat / 128 * 128
  (List.range (lines.toNat + 1)).map (fun i => va + 128 * i)

/-- Whether a line address is translated and within the generic space. DESIGN CHOICE, log 90: a CMAINT operation skips any other
line, and raises no SPACE_RANGE for it. -/
def lineIsVirtual (va : Nat) : Bool :=
  match targetOf 0 va with
  | .virtual a => canonical (a + 127) && a + 128 ≤ 2 ^ 64
  | _ => false

/-- The fill of one sector for a prefetch, into the L2 or the L1 of its core; none where the level holds it. -/
def prefetchSector (s : State) (core ctx lvl a : Nat) (l : Leaf) : State :=
  if storeOnWay s (clusterOf core) (l1Key l a / 32) none then s
  else if lvl = 1 then
    match (l2Read s (clusterOf core) (physical l a) 32).1 with
    | none => (fillFromHome s (clusterOf core) ctx (physical l a) l).2
    | some _ => s
  else
    match l1Bytes s core ctx a 32 none with
    | some _ => s
    | none =>
      if isPeer l then (peerSend s (peerDest l) (peerAddress l a) (fun s => loadSector s core ctx a 32 l none)).2
      else (loadSector s core ctx a 32 l none).2

/-- A prefetch of one line (R148): dropped where no readable page of a level that holds it maps it. -/
def prefetchLine (s : State) (core ctx lvl va : Nat) : State :=
  if lineIsVirtual va = false then s
  else
    match wayOf s (clusterOf core) ctx va true false with
    | (.page l, s) =>
      if lvl = 1 ∧ inL2 l = false then s
      else (List.range 4).foldl (fun s i => prefetchSector s core ctx lvl (va + 32 * i) l) s
    | (_, s) => s

/-- The prefetches of one thread (R148), none for a misaligned address: one that is not a multiple of a line's 128 bytes, which
is DEDUCED, log 91. -/
def prefetchLanes (s : State) (core ctx lvl : Nat) (g : Gang) (l : Nat) (a lines : BitVec 6) : State :=
  if (pairV (threadOf g l) a.toNat).toNat % 128 ≠ 0 then s
  else (lineAddresses g l a lines).foldl (fun s va => prefetchLine s core ctx lvl va) s

/-- PF (R148): the lines are requested into the level; nothing is raised and nothing counts. Its requests wait for no one: they
are made under an identity of their own (R382). -/
def execPf (gd : BitVec 4) (lvl : BitVec 2) (a lines : BitVec 6) (s : State) : Host.Outcome State Fault Refusal :=
  onceWord (.pf gd lvl a lines) s false (fun t act =>
    match getBlock s t.blk with
    | none => s
    | some b =>
      let (id, s) := freshId s
      askAs ((lanesOf act).foldl (fun s l => prefetchLanes s t.core b.ctx lvl.toNat (gangOf b t.gang) l a lines)
        (askAs s (.access id 0))) s.asker)

/-- CMAINT drop.l1 (R148): every line of the core's L1 but the read-only ones. -/
def execCmaintDropL1 (gd : BitVec 4) (s : State) : Host.Outcome State Fault Refusal :=
  onceWord (.cmaintDropL1 gd) s false (fun t _ => l1Invalidate s t.core)

/-- A write-back of lines (R148), which counts on st until every one is acknowledged. -/
def writeBackWord (i : Instr) (s : State) (a lines : BitVec 6) (drop : Bool) : Host.Outcome State Fault Refusal :=
  onceWord i s false (fun t act =>
    let g := t.g s
    let accs := (lanesOf act).flatMap (fun l => (lineAddresses g l a lines).filterMap (fun va =>
      if lineIsVirtual va then some { lanes := laneBit l, space := 0, va := BitVec.ofNat 64 va, size := 128 } else none))
    startOp s t (lanesOf act) [] (some .st) (.writeBack drop) accs)

/-- CMAINT clean.l2 (R148). -/
def execCmaintCleanL2 (gd : BitVec 4) (a lines : BitVec 6) (s : State) : Host.Outcome State Fault Refusal :=
  writeBackWord (.cmaintCleanL2 gd a lines) s a lines false

/-- CMAINT flush.l2 (R148). -/
def execCmaintFlushL2 (gd : BitVec 4) (a lines : BitVec 6) (s : State) : Host.Outcome State Fault Refusal :=
  writeBackWord (.cmaintFlushL2 gd a lines) s a lines true

/-- What CMAINT drop.l2 does with a line: it is dropped or skipped; skipped for want of write permission; or its walk waits. -/
inductive Dropped where
  | done | denied | blocked
  deriving DecidableEq, Repr

/-- One line of CMAINT drop.l2: dropped with its dirty bytes, or the permission violation that its page is. DESIGN CHOICE, log
92: a line of a tier that no L2 holds is skipped before its permission is looked at. -/
def dropLine (s : State) (core ctx va : Nat) : Dropped × State :=
  if lineIsVirtual va = false then (.done, s)
  else
    match translate s (clusterOf core) ctx va with
    | (.blocked, s) => (.blocked, s)
    | (.leaf l, s) =>
      if inL2 l = false then (.done, s)
      else if l.w = false then (.denied, s)
      else
        match l2Find s (clusterOf core) (physical l va) with
        | some (bank, _) => (.done, setL2 s (clusterOf core) bank (l2Set (physical l va)) none)
        | none => (.done, s)
    | (_, s) => (.done, s)

/-- Lines dropped in turn: the first that lacks write permission, and whether some walk waits. -/
def dropLines (s : State) (core ctx : Nat) : List (Nat × Nat) → Option (Nat × Nat) × Bool × State
  | [] => (none, false, s)
  | e :: es =>
    match dropLine s core ctx e.2 with
    | (.blocked, s) => (none, true, s)
    | (d, s) =>
      match dropLines s core ctx es with
      | (bad, waits, s) => (if d = .denied then some e else bad, waits, s)

/-- CMAINT drop.l2 (R148): PROTECTION is raised once for the word, for the first line it skips for want of write
permission. While a walk waits, the word is done again. -/
def execCmaintDropL2 (gd : BitVec 4) (a lines : BitVec 6) (s : State) : Host.Outcome State Fault Refusal :=
  let i : Instr := .cmaintDropL2 gd a lines
  runWord i s (fun t iss act =>
    match getBlock s t.blk with
    | none => { st := s, moves := t.onward i.words iss }
    | some b =>
      let all := (lanesOf act).flatMap (fun l => (lineAddresses (gangOf b t.gang) l a lines).map (fun va => (l, va)))
      match dropLines s t.core b.ctx all with
      | (_, true, s) => { st := s, moves := [{ lanes := iss, pc := t.unit.pc }], ends := true }
      | (some (l, va), false, s) =>
        { st := defer s t.blk t.gang l (addressTrap 9 (BitVec.ofNat 64 va) 0 0x200), moves := t.onward i.words iss }
      | (none, false, s) => { st := s, moves := t.onward i.words iss })

/-! ### ATOM and CAS (R149) -/

/-- An atomic word: one atomic in each active thread; an acquiring one suspends its unit after the word. -/
def atomicWord (i : Instr) (s : State) (dst : List RegRef) (a : BitVec 6) (sp : BitVec 2) (off : BitVec 14) (w : BitVec 1)
    (order : BitVec 2) (scope : BitVec 3) (kind : Gang → List Nat → OpKind) : Host.Outcome State Fault Refusal :=
  runWord i s (fun t iss act =>
    match getBlock s t.blk with
    | none => { st := s, moves := t.onward i.words iss }
    | some b =>
      let g := gangOf b t.gang
      let n := 4 * (1 + w.toNat)
      let acc (l : Nat) : Access := laneAccess g l a sp.toNat off.toInt n none
      let err (l : Nat) : Option Trap := accessTrap s b sp.toNat (effectiveAddress g l a sp.toNat off.toInt) n
      let ok := (lanesOf act).filter (fun l => err l == none)
      let waits := order.getLsbD 0 && !ok.isEmpty
      { st := if ok.isEmpty then s else startOp s t ok dst (counterClass i) (kind g ok) (ok.map acc)
        traps := (lanesOf act).filterMap (fun l => (err l).map (fun x => (l, t.trap x)))
        moves := [{ lanes := iss, pc := t.after i.words,
                    wait := if waits then .acquire [s.nextId] scope.toNat else .none }] })

/-- A per-lane table of an operand of one or two registers. -/
def operandTable (g : Gang) (lanes : List Nat) (r : BitVec 6) (w : BitVec 1) : Table Dword :=
  lanes.foldl (fun t l =>
    let x := threadOf g l
    tset 0 t l (if w = 1 then pairV x r.toNat else (vReg x r.toNat).val.setWidth 64)) []

/-- ATOM (R149). -/
def execAtom (gd : BitVec 4) (d a : BitVec 6) (sp : BitVec 2) (b : BitVec 6) (op : BitVec 4) (w : BitVec 1)
    (scope : BitVec 3) (order : BitVec 2) (noret : BitVec 1) (off : BitVec 14) (s : State) :
    Host.Outcome State Fault Refusal :=
  atomicWord (.atom gd d a sp b op w scope order noret off) s (if noret = 1 then [] else vs d.toNat (1 + w.toNat)) a sp off w
    order scope (fun g lanes => .atomic op.toNat (w == 1) (if noret = 1 then none else some d.toNat)
      (operandTable g lanes b w) [] scope.toNat)

/-- CAS (R149): b is compared and c stored. -/
def execCas (gd : BitVec 4) (d a : BitVec 6) (sp : BitVec 2) (b c : BitVec 6) (w : BitVec 1) (scope : BitVec 3)
    (order : BitVec 2) (off : BitVec 14) (s : State) : Host.Outcome State Fault Refusal :=
  atomicWord (.cas gd d a sp b c w scope order off) s (vs d.toNat (1 + w.toNat)) a sp off w order scope
    (fun g lanes => .atomic 14 (w == 1) (some d.toNat) (operandTable g lanes b w) (operandTable g lanes c w) scope.toNat)

/-! ### The steps of operations -/

/-- PRODUCER_COMPLETE (R27). -/
def execProducerComplete (op : Nat) (s : State) : Host.Outcome State Fault Refusal := .next (completeProducer s op)

/-- STORE_ACKNOWLEDGED (R138). -/
def execStoreAcknowledged (op : Nat) (s : State) : Host.Outcome State Fault Refusal := .next (acknowledgeStore s op)

/-- PAGE_WALK_COMPLETE (R257). -/
def execPageWalkComplete (op idx : Nat) (s : State) : Host.Outcome State Fault Refusal := .next (walkAccess s op idx)

/-- PEER_RESEND (R366). -/
def execPeerResend (op idx : Nat) (s : State) : Host.Outcome State Fault Refusal := .next (resendAccess s op idx)

end Sys2Proof.Machine
end

