-- ==== Sys2Proof/Machine/Engine.lean ====
section
/-! DEFINITION. The skidder's reach (R147, R165, R264): how an engine reads and writes a window or memory, the faults it can
meet (Table 13.1, R226, R368, R385), and how a command stops, completes and leaves its entry. -/

namespace Sys2Proof.Machine

/-! ### The way of an engine's access -/

/-- The xop of a command (R83), 0 for a one-word command. -/
def xopOf (i : Instr) : Nat := if i.words = 2 then (((Sys2Proof.encode i).headD 0).extractLsb' 14 8).toNat else 0

/-- Where an engine's access goes, or why it does not take place. -/
inductive EngineWay where
  | window (t : Target)
  | page (l : Leaf)
  | noPage
  | stop (t : Trap)
  /-- A page-table entry of its walk is uncorrectable (log 86). -/
  | bad
  /-- Its walk waits. -/
  | blocked
  deriving DecidableEq, Repr

/-- Whether some up port of this device reaches a device (R366); its own number needs none. -/
def reachable (s : State) (d : Nat) : Bool :=
  (d == ownNumber s && s.link.uadev.getLsbD 31) || (upPorts s).any (portReaches s d)

/-- The way of an engine's access for a command: its window, its page, or the fault it meets. -/
def engineWay (s : State) (core : Nat) (b : Block) (blk : Nat) (lead : ThreadRef) (xop space : Nat) (at_ : Int) (n : Nat)
    (rd wr : Bool) : EngineWay × State :=
  let t := targetOf space at_
  let va := low64 at_
  if inExtent s b t n = false then (.stop (addressTrap 7 va space xop), s)
  else
    match t with
    | .virtual a =>
      match wayOf s (clusterOf core) b.ctx a rd wr with
      | (.noPage, s) => (.noPage, s)
      | (.denied k, s) => (.stop (addressTrap 9 va space (xop + k * 2 ^ 8)), s)
      | (.owned _ _, s) => (.stop (windowTrap 0x0D 0 (getThread s blk lead.1 lead.2).spx va), s)
      | (.unreachable r, s) => (.stop (addressTrap 8 va (0x10 + r) xop), s)
      | (.bad, s) => (.bad, s)
      | (.blocked, s) => (.blocked, s)
      | (.page l, s) =>
        if isPeer l && !reachable s (peerDest l) then (.stop (addressTrap 8 va 0x11 xop), s) else (.page l, s)
    | t => (.window t, s)

/-- The state with the dirty bytes of an address's sector written back and the sector removed (R264). -/
def purgeFor (s : State) (cl va : Nat) (l : Leaf) : State := if inL2 l then l2Purge s cl (physical l va) else s

/-- An access of an engine under a leaf, which leaves on a port where the page is a peer's (R366). -/
def engineSend (s : State) (va : Nat) (l : Leaf) (f : State → Reply × State) : Reply × State :=
  if isPeer l then peerSend s (peerDest l) (peerAddress l va) f else f s

/-- Bytes of up to sixteen that an engine reads from memory. -/
def engineFetch (s : State) (core va n : Nat) (l : Leaf) : Reply × State :=
  engineSend s va l (fun s => engineRead s (clusterOf core) va n (clusterOf core) l)

/-- Bytes that an engine writes to memory at their home, after the stores to the sector that the cluster has already; the issuing
core's lines of them go (R147). -/
def enginePut (s : State) (core ctx va : Nat) (l : Leaf) (bs : List Byte) : Reply × State :=
  let s := storesFirst s (clusterOf core) (l1Key l va / 32)
  match engineSend s va l (fun s => storeBytes (purgeFor s (clusterOf core) va l) core ctx va l bs true) with
  | (r, s) => (r, l1DropPhysical s core (l1Key l va))

/-! ### The result of a step of a command -/

/-- What a command's next step does: it changes the command; ends it; meets a fault that stops it at the element (R336);
parks an element (R174); meets one that ends it (Table 13.1); meets uncorrectable data (R385); or waits. -/
inductive Progress where
  | go (c : Command) (s : State)
  | finished
  | fault (kind : Nat) (aux1 : Word) (va : Dword) (s : State)
  | park (p : Participant) (index : Word) (s : State)
  | stop (t : Trap) (s : State)
  | bad (va : Dword) (s : State)
  | wait (s : State)
  deriving DecidableEq, Repr

/-- The progress with what its state holds changed. -/
def Progress.mapState (f : State → State) : Progress → Progress
  | .go c s => .go c (f s)
  | .finished => .finished
  | .fault k a va s => .fault k a va (f s)
  | .park p i s => .park p i (f s)
  | .stop t s => .stop t (f s)
  | .bad va s => .bad va (f s)
  | .wait s => .wait (f s)

/-- What a step of a command does where no valid page holds what it reads or writes. -/
abbrev Miss := State → Progress

/-- ASYNC_COPY_FAULT at an element (R167, R336). -/
abbrev faultAt (kind : Nat) (aux1 : Word) (va : Int) : Miss := Progress.fault kind aux1 (low64 va)

/-- A step of a command runs at a core, for a block, with the command. -/
structure Engine where
  core : Nat
  blk  : Nat
  b    : Block
  c    : Command
  deriving DecidableEq, Repr

/-- The command's xop. -/
abbrev Engine.xop (e : Engine) : Nat := xopOf e.c.instr

/-- The way of an access of this engine. -/
abbrev Engine.way (e : Engine) (s : State) (space : Nat) (va : Int) (n : Nat) (rd wr : Bool) : EngineWay × State :=
  engineWay s e.core e.b e.blk e.c.lead e.xop space va n rd wr

/-- A read of `n` bytes by a command: `miss` where no valid page holds them, then `k` with the bytes. -/
def Engine.load (e : Engine) (s : State) (space : Nat) (at_ : Int) (n : Nat) (miss : Miss)
    (k : List Byte → State → Progress) : Progress :=
  let va := low64 at_
  let answer (r : Reply × State) : Progress :=
    match r with
    | (.bytes bs, s) => k bs s
    | (.blocked, s) => .wait s
    | (.unreachable r, s) => .stop (addressTrap 8 va (0x10 + r) e.xop) s
    | (_, s) => .bad va s
  match e.way s space at_ n true false with
  | (.noPage, s) => miss s
  | (.bad, s) => .bad va s
  | (.blocked, s) => .wait s
  | (.stop t, s) => .stop t s
  | (.page l, s) => answer (engineFetch s e.core va.toNat n l)
  | (.window t, s) =>
    match windowRead s e.b t n with
    | (.bytes bs, s) => k bs s
    | (_, s) => .bad va s

/-- The freeze for data of a command that could not be read or written (R385, R343): its issuing thread is named. -/
def Engine.freeze (e : Engine) (s : State) (va : Dword) : State :=
  freezeData s e.blk e.c.lead.1 e.c.lead.2 (standsAt s e.blk e.c.lead.1 e.c.lead.2) va

/-- A write of bytes by a command: `miss` where no valid page holds them, then `k`; a write that HREL failed freezes the
context and the command goes on (R383, R385). -/
def Engine.store (e : Engine) (s : State) (space : Nat) (at_ : Int) (bs : List Byte) (miss : Miss)
    (k : State → Progress) : Progress :=
  let va := low64 at_
  let answer (r : Reply × State) : Progress :=
    match r with
    | (.bytes _, s) => k s
    | (.blocked, s) => .wait s
    | (.unreachable r, s) => .stop (addressTrap 8 va (0x10 + r) e.xop) s
    | (_, s) => k (e.freeze s va)
  match e.way s space at_ bs.length false true with
  | (.noPage, s) => miss s
  | (.bad, s) => .bad va s
  | (.blocked, s) => .wait s
  | (.stop t, s) => .stop t s
  | (.page l, s) => answer (enginePut s e.core e.b.ctx va.toNat l bs)
  | (.window t, s) => k (windowWrite s e.blk e.b t bs)

/-- Whether the writes of one element can all be made: what keeps the first that cannot from it. -/
def Engine.checkAll (e : Engine) (miss : Miss) : List (Nat × Int × List Byte) → State → Option Progress
  | [], _ => none
  | w :: ws, s =>
    match e.way s w.1 w.2.1 w.2.2.length false true with
    | (.noPage, s) => some (miss s)
    | (.stop t, s) => some (.stop t s)
    | (.bad, s) => some (.bad (low64 w.2.1) s)
    | (.blocked, s) => some (.wait s)
    | (_, s) => e.checkAll miss ws s

/-- Several writes of one element, each checked before any is made. -/
def Engine.storeAll (e : Engine) (s : State) (ws : List (Nat × Int × List Byte)) (miss : Miss)
    (k : State → Progress) : Progress :=
  match e.checkAll miss ws s with
  | some r => r
  | none => ws.foldr (fun w (k : State → Progress) (s : State) => e.store s w.1 w.2.1 w.2.2 miss k) k s

/-- Reads of consecutive sixteen-byte pieces. -/
def Engine.loadPieces (e : Engine) (space : Nat) (va : Int) (miss : Miss)
    (k : List Byte → State → Progress) : Nat → List Byte → State → Progress
  | 0, acc, s => k acc s
  | n + 1, acc, s =>
    e.load s space (va + acc.length) 16 miss (fun bs s => e.loadPieces space va miss k n (acc ++ bs) s)

/-- Bytes cut into sixteen-byte pieces with their addresses. -/
def pieces (space : Nat) (va : Int) (bs : List Byte) : List (Nat × Int × List Byte) :=
  (List.range ((bs.length + 15) / 16)).map (fun i =>
    (space, va + (16 * i : Nat), (bs.drop (16 * i)).take 16))

/-! ### Entries -/

/-- The command at an entry of a core. -/
def commandAt (s : State) (core e : Nat) : Option Command := tget none (getCore s core).skid e

/-- A command leaves its entry and completes for its counter (R138, R165). -/
def retire (s : State) (core e : Nat) (c : Command) : State :=
  doneInGangs (setEntry s core e none) c.block c.gangs c.id

/-- A deferred fault of a command, to its issuing thread (R164, R137). -/
def tellLead (s : State) (c : Command) (t : Trap) : State := defer s c.block c.lead.1 c.lead.2 t

/-- ASYNC_COPY_FAULT as a command's issuing thread records it (R167). -/
def copyTrap (e kind : Nat) (aux1 : Word) (va : Dword) : Trap :=
  { cause := 0x0A, aux0 := BitVec.ofNat 32 (e + kind * 2 ^ 8), aux1 := aux1, aux2 := lo32 va, aux3 := hi32 va }

/-! ### Windows as engines write them -/

/-- The size of the local store (1) or scratch (2) window of a block. -/
def windowSize (s : State) (b : Block) (sp : Nat) : Nat := if sp = 1 then lstoreSize s b else scratchSize s b

/-- A target's byte at an offset. -/
def targetAt (sp o : Nat) : Target := if sp = 1 then .lstore o else .scratch o

/-- Zero bytes written to a range of a window, those outside it left out (R337). -/
def zeroTile (s : State) (blk : Nat) (b : Block) (sp o n : Nat) : State :=
  let m := min n (windowSize s b sp - o)
  if m = 0 then s else windowWrite s blk b (targetAt sp o) (List.replicate m 0)

/-- A number that an engine reads from a tile (R388): uncorrectable data stop the command (R385). -/
def Engine.tileLoad (e : Engine) (s : State) (sp o n : Nat) (k : Nat → State → Progress) : Progress :=
  match windowRead s ((getBlock s e.blk).getD e.b) (targetAt sp o) n with
  | (.bytes bs, s) => k (leNat bs) s
  | (_, s) => .bad (BitVec.ofNat 64 o) s

/-- A 32-bit word of a tile as it is stored. -/
def tileWord (b : Block) (sp o : Nat) : Nat :=
  leNat (if sp = 1 then tgetMany 0 b.lstore o 4 else tgetMany 0 b.scratch o 4)

/-- A byte of a tile as it is stored. -/
def tileByte (b : Block) (sp o : Nat) : Nat := (if sp = 1 then tget 0 b.lstore o else tget 0 b.scratch o).toNat

/-- The state with a 32-bit word of a tile written, if it lies in the window. -/
def putTileWord (s : State) (blk sp o x : Nat) : State :=
  match getBlock s blk with
  | some b => if o + 4 ≤ windowSize s b sp then windowWrite s blk b (targetAt sp o) (natBytes 4 x) else s
  | none => s

/-- The state with a byte of a tile written, if it lies in the window. -/
def putTileByte (s : State) (blk sp o x : Nat) : State :=
  match getBlock s blk with
  | some b => if o < windowSize s b sp then windowWrite s blk b (targetAt sp o) [BitVec.ofNat 8 x] else s
  | none => s

/-- A tile's count of planes f set (R171). -/
def setTileF (s : State) (blk sp o f : Nat) : State :=
  match getBlock s blk with
  | some b => let w := tileWord b sp o; putTileWord s blk sp o (w - w % 32 + f)
  | none => s

/-- A tile's gap bit set (R171). -/
def setTileGap (s : State) (blk sp o : Nat) : State :=
  match getBlock s blk with
  | some b => let w := tileWord b sp o; putTileWord s blk sp o (if w.testBit 15 then w else w + 2 ^ 15)
  | none => s

end Sys2Proof.Machine
end

