-- ==== Sys2Proof/Machine/Skidder.lean ====
section
/-! DEFINITION. The skidder's commands element by element (R168 to R174, R231, R336): what a command's next step is, and the
handler's choice after a fault (R337). -/

namespace Sys2Proof.Machine

/-! ### CPY (R168) -/

/-- The segment of a CPY: spaces and the number of words. -/
structure CopyShape where
  dsp   : Nat
  ssp   : Nat
  words : Nat
  deriving DecidableEq, Repr

/-- The shape of a command that is a CPY. -/
def copyShape : Instr → CopyShape
  | .cpy _ _ _ dsp ssp _ words => { dsp := dsp.toNat, ssp := ssp.toNat, words := words.toNat + 1 }
  | _ => { dsp := 0, ssp := 0, words := 0 }

/-- The participant of an element of a CPY, with the offset in its segment. -/
def copyAt (c : Command) (n : Nat) : Participant × Nat :=
  let w := (copyShape c.instr).words
  (c.parts.getD (n / w) { gang := 0, lane := 0 }, 4 * (n % w))

/-- Whether an address lies in a segment. -/
def inSegment (va : Nat) (start : Dword) (words : Nat) : Bool :=
  decide (start.toNat ≤ va ∧ va < start.toNat + 4 * words)

/-- The old values of overwritten words that are also sources of the command: pairs of address and value. -/
def oldValues : List Nat → Nat → List Nat
  | a :: x :: rest, va => if a = va then x :: oldValues rest va else oldValues rest va
  | _, _ => []

/-- The value that a CPY reads at a source that is also a destination of it (R168): the word there, an old value of it, or
the word that the command writes to it, a free choice. -/
def copySource (e : Engine) (s : State) (va now : Nat) : Nat × State :=
  let sh := copyShape e.c.instr
  if sh.dsp ≠ sh.ssp then (now, s)
  else
    match e.c.parts.find? (fun p => inSegment va p.a sh.words) with
    | none => (now, s)
    | some p =>
      let next := match e.load s sh.ssp (p.b.toNat + (va - p.a.toNat) : Nat) 4 .wait (fun bs s => .fault (leNat bs) 0 0 s) with
        | .fault x _ _ _ => [x]
        | _ => []
      let all := now :: (oldValues e.c.held va ++ next)
      let (n, s) := draw s
      (all.getD (n % all.length) now, s)

/-- The command with the value that a word holds before it is overwritten, if the word is also a source. -/
def keepOld (e : Engine) (s : State) (va : Nat) : Command :=
  let sh := copyShape e.c.instr
  if sh.dsp = sh.ssp ∧ e.c.parts.any (fun p => inSegment va p.b sh.words) = true then
    match e.load s sh.dsp va 4 .wait (fun bs s => .fault (leNat bs) 0 0 s) with
    | .fault x _ _ _ => { e.c with held := va :: x :: e.c.held }
    | _ => e.c
  else e.c

/-- An element of a CPY: one word. A word that an earlier participant also writes keeps the value of one of them. -/
def copyElement (e : Engine) (s : State) (n : Nat) : Progress :=
  let sh := copyShape e.c.instr
  let (p, o) := copyAt e.c n
  let aux : Word := BitVec.ofNat 32 (p.lane + p.gang * 2 ^ 8 + o * 2 ^ 16)
  let src := p.b.toNat + o
  let dst := p.a.toNat + o
  e.load s sh.ssp src 4 (faultAt 1 aux src) (fun bs s =>
    let (x, s) := copySource e s src (leNat bs)
    let c := keepOld e s dst
    let shared := (e.c.parts.take (n / sh.words)).any (fun q => inSegment dst q.a sh.words)
    let (f, s) := if shared then draw s else (0, s)
    if f % 2 = 1 then .go c s else e.store s sh.dsp dst (natBytes 4 x) (faultAt 1 aux dst) (fun s => .go c s))

/-! ### CPYT and layout records (R169, R170) -/

/-- A layout record as it is read (R169). -/
structure Layout where
  base   : Nat
  ext    : List Nat
  stride : List Nat
  box    : List Nat
  esize  : Nat
  rank   : Nat
  fill   : Nat
  deriving DecidableEq, Repr

/-- The layout that 64 bytes hold. -/
def layoutOf (bs : List Byte) : Layout :=
  { base := fieldAt bs 0 8, ext := (List.range 4).map (fun i => fieldAt bs (8 + 4 * i) 4)
    stride := (List.range 3).map (fun i => fieldAt bs (24 + 8 * i) 8)
    box := (List.range 4).map (fun i => fieldAt bs (48 + i) 1 + 1)
    esize := 2 ^ fieldAt bs 52 1, rank := fieldAt bs 53 1, fill := fieldAt bs 54 1 }

/-- Whether 64 bytes keep the table of R169. -/
def layoutOk (bs : List Byte) : Bool :=
  let x := layoutOf bs
  decide (fieldAt bs 52 1 ≤ 3) && decide (1 ≤ x.rank) && decide (x.rank ≤ 4) && decide (x.fill ≤ 1) &&
  (bs.drop 55).all (· == 0) && x.base % x.esize == 0 && x.stride.all (fun d => d % x.esize == 0) &&
  (List.range 4).all (fun i => if i < x.rank then x.ext.getD i 0 != 0 else x.box.getD i 1 == 1)

/-- The layout record that a started CPYT holds: its bytes after the tile and the slot's limit. -/
def heldLayout (c : Command) : Layout := layoutOf ((c.held.drop 2).map (BitVec.ofNat 8))

/-- The elements of a box. -/
def boxCount (x : Layout) : Nat := x.box.foldl (· * ·) 1

/-- The four coordinates of an element of a box. -/
def boxAt (x : Layout) (n : Nat) : List Nat :=
  let b (i : Nat) := x.box.getD i 1
  [n % b 0, n / b 0 % b 1, n / (b 0 * b 1) % b 2, n / (b 0 * b 1 * b 2)]

/-- The tensor address of an element, and whether it lies inside (R170). -/
def tensorAt (x : Layout) (c : Command) (n : Nat) : Int × Bool :=
  let i := boxAt x n
  let g (k : Nat) : Int := ((c.uni.getD (2 + k) 0).toInt) + (i.getD k 0 : Nat)
  ((x.base : Int) + x.esize * g 0 + (x.stride.getD 0 0 : Nat) * g 1 + (x.stride.getD 1 0 : Nat) * g 2 +
      (x.stride.getD 2 0 : Nat) * g 3,
   (List.range x.rank).all (fun k => decide (0 ≤ g k) && decide (g k < (x.ext.getD k 0 : Nat))))

/-- The space, direction and ring bit of a CPYT: tile space (1 or 2), whether it stores. -/
def boxShape : Instr → Nat × Bool × Bool
  | .cpyt _ _ _ _ dir sp ring _ => (1 + sp.toNat, dir == 1, ring == 1)
  | _ => (1, false, false)

/-- A CPYT starts: it reads its layout record; a tile must fit its window, or the slot. `tile` and `limit` are the tile's
offset and, in a ring, the bytes it may take. -/
def startBox (e : Engine) (s : State) (tile : Nat) (limit : Option Nat) (late : State → Progress) : Progress :=
  let va := (pairOf (e.c.uni.getD 0 0) (e.c.uni.getD 1 0)).toNat
  e.loadPieces 0 va (faultAt 1 0 va) (fun bs s =>
    let x := layoutOf bs
    if layoutOk bs = false then .fault 2 0 0 s
    else
      let n := x.esize * boxCount x
      let c := { e.c with phase := .running 0, held := tile :: limit.getD 0 :: bs.map BitVec.toNat }
      match limit with
      | some m => if m < n then late s else .go c s
      | none => if windowSize s e.b (boxShape e.c.instr).1 < tile + n then .fault 3 0 0 s else .go c s) 4 [] s

/-- An element of a CPYT. -/
def boxElement (e : Engine) (s : State) (n : Nat) : Progress :=
  let x := heldLayout e.c
  let (sp, stores, _) := boxShape e.c.instr
  let (va, inside) := tensorAt x e.c n
  let tile : Int := (e.c.held.getD 0 0 + x.esize * n : Nat)
  let i := boxAt x n
  let aux : Word := BitVec.ofNat 32 (i.getD 0 0 + i.getD 1 0 * 2 ^ 8 + i.getD 2 0 * 2 ^ 16 + i.getD 3 0 * 2 ^ 24)
  let put (bs : List Byte) (s : State) : Progress := e.store s sp tile bs .wait (fun s => .go e.c s)
  if stores then
    if inside then
      e.load s sp tile x.esize .wait (fun bs s => e.store s 0 va bs (faultAt 1 aux va) (fun s => .go e.c s))
    else .go e.c s
  else if inside then e.load s 0 va x.esize (faultAt 1 aux va) put
  else put (List.replicate x.esize (if x.fill = 1 then 0xFF else 0)) s

/-! ### CPYP and plane tiles (R171, R172) -/

/-- The shape of a CPYP: lowest and highest plane index, tile space, ring, blocks. -/
structure PlaneShape where
  lo   : Nat
  hi   : Nat
  sp   : Nat
  ring : Bool
  t    : Nat
  deriving DecidableEq, Repr

/-- The shape of a command that is a CPYP. -/
def planeShape : Instr → PlaneShape
  | .cpyp _ _ _ lo hi sp ring _ t =>
    { lo := lo.toNat, hi := hi.toNat, sp := 1 + sp.toNat, ring := ring == 1, t := t.toNat + 1 }
  | _ => { lo := 0, hi := 0, sp := 1, ring := false, t := 0 }

/-- The number of blocks rounded up to a multiple of 16 (R171). -/
abbrev planeU (t : Nat) : Nat := (t + 15) / 16 * 16
/-- The bytes of a plane tile (R171). -/
abbrev planeTileSize (t : Nat) : Nat := 16 + 3 * planeU t + 64 * t
/-- The offset of an array entry in a tile: 0 the E array, 1 the versions, 2 the planes stored. -/
abbrev arrayAt (t k j : Nat) : Nat := 16 + planeU t * k + j
/-- The offset of a plane word in a tile. -/
abbrev planeWordAt (t i j : Nat) : Nat := 16 + 3 * planeU t + 4 * t * (i - 1) + 4 * j

/-- The first plane index above 0 that a CPYP copies. -/
abbrev PlaneShape.first (x : PlaneShape) : Nat := max x.lo 1
/-- The plane indices above 0 that a CPYP copies. -/
abbrev PlaneShape.planes (x : PlaneShape) : Nat := x.hi + 1 - x.first
/-- The elements of a CPYP (R336): the opening head read of each block, each plane word, each closing head read. -/
abbrev PlaneShape.count (x : PlaneShape) : Nat := x.t * (x.planes + 2)

/-- The base of the plane operand of a command. -/
def Engine.planeBase (e : Engine) : Dword := pairOf (e.c.uni.getD 0 0) (e.c.uni.getD 1 0)
/-- The block index of the plane operand of a command. -/
def Engine.planeBlock (e : Engine) : Nat := (e.c.uni.getD 2 0).toNat
/-- The plane stride of the plane operand of a command. -/
def Engine.planeStride (e : Engine) : Nat := (e.c.uni.getD 3 0).toNat
/-- The tile of a started CPYT or CPYP. -/
def Engine.tile (e : Engine) : Nat := e.c.held.getD 0 0

/-- A head read by a command (R153, R172): it waits while the block is marked busy. -/
def Engine.loadHead (e : Engine) (s : State) (va : Nat) (miss : Miss) (k : Nat → State → Progress) : Progress :=
  match e.way s 0 va 2 true false with
  | (.page l, _) =>
    if s.hostIf.busy.contains (realPlace s l va) then .wait s
    else e.load s 0 va 2 miss (fun bs s => k (leNat bs) s)
  | _ => e.load s 0 va 2 miss (fun bs s => k (leNat bs) s)

/-- A block's mismatch flag set, and word 2 counted, unless it is flagged already (R171, R172). -/
def flagBlock (s : State) (blk sp tile t j : Nat) : State :=
  match getBlock s blk with
  | none => s
  | some b =>
    let v := tileByte b sp (tile + arrayAt t 1 j)
    if v.testBit 7 then s
    else
      putTileWord (putTileByte s blk sp (tile + arrayAt t 1 j) (v + 128)) blk sp (tile + 8)
        ((tileWord b sp (tile + 8) + 1) % 2 ^ 32)

/-- A CPYP starts (R172): its tile must fit; for `lo` above 0 a tile with too few planes gets its gap bit. -/
def startPlanes (e : Engine) (s : State) (tile : Nat) (limit : Option Nat) (late : State → Progress) : Progress :=
  let x := planeShape e.c.instr
  let n := planeTileSize x.t
  let fits := match limit with | some m => decide (n ≤ m) | none => decide (tile + n ≤ windowSize s e.b x.sp)
  let c := { e.c with phase := .running 0, held := [tile, limit.getD 0] }
  if fits = false then (if limit = none then .fault 3 0 0 s else late s)
  else if x.lo = 0 then
    .go c (putTileWord (putTileWord s e.blk x.sp tile (x.t * 2 ^ 16)) e.blk x.sp (tile + 8) 0)
  else
    e.tileLoad s x.sp tile 4 (fun w s =>
      if w % 32 < x.lo then
        .go { c with phase := .running x.count, held := [tile, limit.getD 0, 2 ^ 16] } (setTileGap s e.blk x.sp tile)
      else .go c s)

/-- The opening head read of a block, with its array entries. -/
def openingHead (e : Engine) (s : State) (x : PlaneShape) (j : Nat) : Progress :=
  let va := headAddress e.planeBase (e.planeBlock + j)
  e.loadHead s va (faultAt 1 (BitVec.ofNat 32 j) va) (fun h s =>
    let c := { e.c with held := e.c.held ++ [h] }
    let put (s : State) (k v : Nat) : State := putTileByte s e.blk x.sp (e.tile + arrayAt x.t k j) v
    if x.lo = 0 then
      let s := put (put (put s 0 (h % 256)) 1 (bitsOf h 15 12)) 2 (bitsOf h 11 8)
      .go c (if j + 1 = x.t ∧ 0 < x.hi then setTileF s e.blk x.sp e.tile 1 else s)
    else
      e.tileLoad s x.sp (e.tile + arrayAt x.t 1 j) 1 (fun v s =>
        .go c (if v % 16 ≠ bitsOf h 15 12 then flagBlock s e.blk x.sp e.tile x.t j else s)))

/-- What a command does with a block of its tile, by whether the block is flagged. -/
def Engine.ifFlagged (e : Engine) (s : State) (x : PlaneShape) (j : Nat) (yes no : State → Progress) : Progress :=
  e.tileLoad s x.sp (e.tile + arrayAt x.t 1 j) 1 (fun v s => if v.testBit 7 then yes s else no s)

/-- A plane word; after the last of a plane below `hi`, f rises if it stands at that plane (R172). -/
def planeElement (e : Engine) (s : State) (x : PlaneShape) (i j : Nat) : Progress :=
  let va := e.planeBase.toNat + i * e.planeStride + 4 * (e.planeBlock + j)
  let after (s : State) : Progress :=
    if j + 1 = x.t ∧ i < x.hi then
      e.tileLoad s x.sp e.tile 4 (fun w s => .go e.c (if w % 32 = i then setTileF s e.blk x.sp e.tile (i + 1) else s))
    else .go e.c s
  let put (bs : List Byte) (s : State) : Progress :=
    e.store s x.sp (e.tile + planeWordAt x.t i j : Nat) bs .wait after
  let copy (s : State) : Progress := e.load s 0 va 4 (faultAt 1 (BitVec.ofNat 32 (j + i * 2 ^ 16)) va) put
  e.ifFlagged s x j after (fun s =>
    if i = 1 then copy s
    else e.tileLoad s x.sp (e.tile + arrayAt x.t 2 j) 1 (fun p s => if i - 1 ≤ p then copy s else put (natBytes 4 0) s))

/-- The closing head read of a block. -/
def closingHead (e : Engine) (s : State) (x : PlaneShape) (j : Nat) : Progress :=
  let va := headAddress e.planeBase (e.planeBlock + j)
  e.ifFlagged s x j (fun s => .go e.c s) (fun s =>
    e.loadHead s va (faultAt 1 (BitVec.ofNat 32 (j + 17 * 2 ^ 16)) va) (fun h s =>
      .go e.c (if h = e.c.held.getD (2 + j) 0 then s else flagBlock s e.blk x.sp e.tile x.t j)))

/-- An element of a CPYP. -/
def planesElement (e : Engine) (s : State) (n : Nat) : Progress :=
  let x := planeShape e.c.instr
  let j := n % x.t
  let stage := n / x.t
  if stage = 0 then openingHead e s x j
  else if stage ≤ x.planes then planeElement e s x (x.first + stage - 1) j
  else closingHead e s x j

/-! ### CPYX (R173, R174) -/

/-- The shape of a CPYX: tile space, whether it scatters, row bytes. -/
def rowShape : Instr → Nat × Bool × Nat
  | .cpyx _ _ _ _ sp dir _ row => (1 + sp.toNat, dir == 1, 16 * (row.toNat + 1))
  | _ => (1, false, 16)

/-- The participants of a CPYX that it does not skip. -/
def rowParts (c : Command) : List Participant := c.parts.filter (fun p => p.a != 0xFFFFFFFF)

/-- The table address of a row. -/
def rowAddress (c : Command) (index : Nat) : Nat :=
  (pairOf (c.uni.getD 0 0) (c.uni.getD 1 0)).toNat + index * (rowShape c.instr).2.2

/-- The tile offset of a lane's row. -/
def rowTile (c : Command) (g l : Nat) : Nat := (c.uni.getD 2 0).toNat + (32 * g + l) * (rowShape c.instr).2.2

/-- A row of a CPYX copied: `miss` where its table row has no valid page. A scatter to a row that an earlier participant
names leaves the bytes of one of them (R173). -/
def copyRow (e : Engine) (s : State) (g l index : Nat) (shared : Bool) (miss : Miss) : Progress :=
  let (sp, scatter, n) := rowShape e.c.instr
  let va := rowAddress e.c index
  let tile := rowTile e.c g l
  if scatter then
    let (f, s) := if shared then draw s else (0, s)
    if f % 2 = 1 then .go e.c s
    else
      e.loadPieces sp tile .wait (fun bs s => e.storeAll s (pieces 0 va bs) miss (fun s => .go e.c s)) (n / 16) [] s
  else
    e.loadPieces 0 va miss (fun bs s => e.storeAll s (pieces sp tile bs) .wait (fun s => .go e.c s)) (n / 16) [] s

/-- An element of a CPYX: a row; one whose tile row lies beyond the window stops the command with kind 3. -/
def rowElement (e : Engine) (s : State) (n : Nat) : Progress :=
  let ps := rowParts e.c
  let p := ps.getD n { gang := 0, lane := 0 }
  let (sp, _, size) := rowShape e.c.instr
  let (f, s) := draw s
  if windowSize s e.b sp < rowTile e.c p.gang p.lane + size then .fault 3 (BitVec.ofNat 32 f) 0 s
  else copyRow e s p.gang p.lane p.a.toNat ((ps.take n).any (fun q => q.a == p.a)) (.park p (lo32 p.a))

/-! ### SPSTATE (R231, R224) -/

/-- Whether the device's steps for a window may use a page (R224): the module's own HBM4 or capacity tier, readable and
writable. -/
def windowPage (l : Leaf) : Bool := inL2 l && l.r && l.w

/-- A write to a window's structures: `miss` where R224 finds no valid translation. -/
def Engine.storeOwn (e : Engine) (s : State) (va : Nat) (bs : List Byte) (miss : Miss) (k : State → Progress) :
    Progress :=
  match targetOf 0 va with
  | .virtual a =>
    match translate s (clusterOf e.core) e.b.ctx a with
    | (.leaf l, t) => if windowPage l then e.store s 0 va bs miss k else miss t
    | (.none, t) => miss t
    | (.bad, t) => .bad (low64 va) t
    | (.blocked, t) => .wait t
  | _ => miss s

/-- An element of an SPSTATE: one word from the source to the checkpoint slot; its coordinates in sys.taux1 are not
stated, hence free. -/
def stateElement (e : Engine) (s : State) (n : Nat) : Progress :=
  let src := (pairOf (e.c.uni.getD 0 0) (e.c.uni.getD 1 0)).toNat + 4 * n
  let dst := e.c.held.getD 0 0 + 4 * n
  let (f, s) := draw s
  e.load s 0 src 4 (faultAt 1 (BitVec.ofNat 32 f) src) (fun bs s =>
    e.storeOwn s dst bs (faultAt 1 (BitVec.ofNat 32 f) dst) (fun s => .go e.c s))

/-! ### The next step of a command -/

/-- The elements of a started command. -/
def elementCount (c : Command) : Nat :=
  match c.instr with
  | .cpy .. => c.parts.length * (copyShape c.instr).words
  | .cpyt .. => boxCount (heldLayout c)
  | .cpyp .. => (planeShape c.instr).count
  | .cpyx .. => (rowParts c).length
  | .spstate .. => c.held.getD 1 0 / 4
  | _ => 0

/-- The element of a number. -/
def commandElement (e : Engine) (s : State) (n : Nat) : Progress :=
  match e.c.instr with
  | .cpy .. => copyElement e s n
  | .cpyt .. => boxElement e s n
  | .cpyp .. => planesElement e s n
  | .cpyx .. => rowElement e s n
  | .spstate .. => stateElement e s n
  | _ => .wait s

/-- A zero word that a skipped SPSTATE writes to its checkpoint slot; one that cannot be written is left out (R337). -/
def skipElement (e : Engine) (s : State) (n : Nat) : Progress :=
  let go (s : State) : Progress := .go { e.c with phase := .skipping (n + 1) } s
  match e.storeOwn s (e.c.held.getD 0 0 + 4 * n) (natBytes 4 0) go go with
  | .stop _ s => go s
  | .bad _ s => go s
  | r => r

/-- The progress with the next element reached. -/
def stepOn (n : Nat) : Progress → Progress
  | .go c s => .go { c with phase := .running (n + 1) } s
  | r => r

/-- The ring offset and ticket of a ring command (R178). -/
def ringOperands (c : Command) : Option (Nat × Word) :=
  match c.instr with
  | .cpyt _ _ _ _ _ _ ring _ => if ring = 1 then some ((c.uni.getD 6 0).toNat, c.uni.getD 7 0) else none
  | .cpyp _ _ _ _ _ _ ring _ _ => if ring = 1 then some ((c.uni.getD 4 0).toNat, c.uni.getD 5 0) else none
  | _ => none

/-- RING_STATE (R181). -/
def ringTrap (kr : Nat) (ticket : Word) (x : Option RingSlot) (reason : Nat) : Trap :=
  { cause := 0x14, aux0 := BitVec.ofNat 32 kr, aux1 := ticket
    aux2 := match x with | some y => BitVec.ofNat 32 (y.gen * 2 ^ 16 + y.f) | none => 0
    aux3 := BitVec.ofNat 32 reason }

/-- The tile that a command without a ring names. -/
def plainTile (c : Command) : Nat :=
  match c.instr with
  | .cpyt .. => (c.uni.getD 6 0).toNat
  | _ => (c.uni.getD 4 0).toNat

/-- A command starts with its tile known. -/
def startAt (e : Engine) (s : State) (tile : Nat) (limit : Option Nat) (late : State → Progress) : Progress :=
  match e.c.instr with
  | .cpyt .. => startBox e s tile limit late
  | .cpyp .. => startPlanes e s tile limit late
  | _ => .go { e.c with phase := .running 0 } s

/-- The accesses that the RREL of a slot came after, which a command for its next generation comes after too (R294). -/
def slotAfter (b : Block) (off : Nat) : List Nat := ((b.slotAfter.find? (fun x => x.1 == off)).map Prod.snd).getD []

/-- The start of a command that targets a ring slot (R178): it is discarded, waits for its generation and for what its
release came after (R294), or starts. -/
def startInRing (e : Engine) (s : State) (kr : Nat) (ticket : Word) : Progress :=
  match ringSlot e.b (lstoreSize s e.b) kr ticket with
  | .error r => .stop (ringTrap kr ticket (headedSlot e.b (lstoreSize s e.b) kr ticket) r) s
  | .ok x =>
    let g := ticket.toNat % 2 ^ 16
    if genPassed x.gen g then .stop (ringTrap kr ticket (some x) 3) s
    else if x.gen ≠ g ∨ opsOver s (slotAfter e.b x.off) = false then .wait s
    else
      let len := lword e.b (kr + 4)
      let late (s : State) : Progress := .stop (ringTrap kr ticket (some x) 5) s
      match e.c.instr with
      | .cpyt .. => startAt e s (x.off + 16) (some (len - 16)) late
      | _ => startAt e s x.off (some len) late

/-- What a command does next, by its phase. -/
def progressOf (e : Engine) (s : State) : Progress :=
  match e.c.phase with
  | .stopped _ _ => .wait s
  | .skipping n => if elementCount e.c ≤ n then .finished else skipElement e s n
  | .running n =>
    if elementCount e.c ≤ n then (if e.c.parked = 0 then .finished else .wait s) else stepOn n (commandElement e s n)
  | .ready =>
    if opsOver s e.c.after = false then .wait s
    else
      match e.c.instr with
      | .spcommit .. => .wait s
      | .spabort .. => .wait s
      | _ =>
        match ringOperands e.c with
        | some (kr, ticket) => startInRing e s kr ticket
        | none => startAt e s (plainTile e.c) none .wait

/-- A step of a command made under a name of its own at the home slices (R382, R383): where it waits, nothing of it but its
transfers. -/
def asStep (who : Asker) (f : State → Progress) (s : State) : Progress :=
  match f (tracing (askAs s who)) with
  | .wait t => .wait (beginAgain s t)
  | r => r.mapState (fun t => untraced (forgetAsker (askAs t s.asker) who))

/-- What a command at an entry does next. -/
def progress (e : Engine) (s : State) : Progress := asStep (.command e.blk e.c.id) (progressOf e) s

/-- The engine of an entry of a core's skidder. -/
def engineAt (s : State) (core entry : Nat) : Option Engine :=
  match commandAt s core entry with
  | none => none
  | some c => (getBlock s c.block).map (fun b => { core := core, blk := c.block, b := b, c := c })

/-- What an entry of a core's skidder does next. -/
def progressAt (s : State) (core entry : Nat) : Progress :=
  match engineAt s core entry with
  | some e => progress e s
  | none => .wait s

/-! ### The handler's choice (R337) -/

/-- The zero bytes that a skip writes to windows at once (R337): for CPY to the local or scratch space, to the tile for CPYT
and for a gather; CPYT to a tensor, a CPY whose destination space is generic and a scatter write nothing more. -/
def skipFill (e : Engine) (s : State) (next : Nat) : State :=
  match e.c.instr with
  | .cpy .. =>
    let sh := copyShape e.c.instr
    if sh.dsp = 0 then s
    else
      (List.range (elementCount e.c - next)).foldl (fun s i =>
        let (p, o) := copyAt e.c (next + i)
        let t := targetOf sh.dsp (p.a.toNat + o : Nat)
        if inExtent s e.b t 4 then windowWrite s e.blk e.b t (natBytes 4 0) else s) s
  | .cpyt .. =>
    let x := heldLayout e.c
    let (sp, stores, _) := boxShape e.c.instr
    if stores then s else zeroTile s e.blk e.b sp (e.tile + x.esize * next) (x.esize * (boxCount x - next))
  | .cpyx .. =>
    let (sp, scatter, size) := rowShape e.c.instr
    if scatter then s
    else ((rowParts e.c).drop next).foldl (fun s p => zeroTile s e.blk e.b sp (rowTile e.c p.gang p.lane) size) s
  | _ => s

/-- The skip of a CPYP that has started (R337): zero bytes in the tile from the element on, the flag of every block with a
skipped element, f := hi + 1. -/
def skipPlanes (e : Engine) (s : State) (next : Nat) : State :=
  let x := planeShape e.c.instr
  let s := (List.range (x.t * (x.planes + 1) - next)).foldl (fun s i =>
    let n := next + i
    let j := n % x.t
    let stage := n / x.t
    if stage = 0 then
      (if x.lo = 0 then
        (List.range 3).foldl (fun s k => putTileByte s e.blk x.sp (e.tile + arrayAt x.t k j) 0) s
      else s)
    else zeroTile s e.blk e.b x.sp (e.tile + planeWordAt x.t (x.first + stage - 1) j) 4) s
  let from_ := next - x.t * (x.planes + 1)
  let s := ((List.range x.t).drop from_).foldl (fun s j => flagBlock s e.blk x.sp e.tile x.t j) s
  setTileF s e.blk x.sp e.tile (x.hi + 1)

/-- The slot or plane tile whose gap bit an abort sets (R337): the space and offset. -/
def gapTile (e : Engine) (s : State) : Option (Nat × Nat) :=
  match ringOperands e.c with
  | some (kr, ticket) =>
    (match ringSlot e.b (lstoreSize s e.b) kr ticket with
     | .ok x => some (1, x.off)
     | .error _ => none)
  | none =>
    match e.c.instr with
    | .cpyp .. => some ((planeShape e.c.instr).sp, if e.c.held = [] then plainTile e.c else e.tile)
    | _ => none

/-- The f of a ring slot raised as the completion of a CPYT does (R178). -/
def raiseSlot (e : Engine) (s : State) : State :=
  match e.c.instr, gapTile e s with
  | .cpyt .., some (sp, o) => setTileF s e.blk sp o 1
  | _, _ => s

/-- What a completing command writes last: a CPYT in a ring raises f to 1 (R178); a CPYP raises f past its last plane, or to
1 where it names none (R172). -/
def lastWrites (e : Engine) (s : State) : Progress :=
  match e.c.instr with
  | .cpyp .. =>
    let x := planeShape e.c.instr
    if e.c.held.getD 2 0 = 2 ^ 16 then .go e.c s
    else
      e.tileLoad s x.sp e.tile 4 (fun w s =>
        .go e.c (if w % 32 = x.hi then setTileF s e.blk x.sp e.tile (x.hi + 1) else s))
  | _ => .go e.c (raiseSlot e s)

/-- The choice of skip: the bytes it zero-fills, then the end of the command, which waits for parked rows. -/
def skipCommand (e : Engine) (s : State) (entry next kind : Nat) : State :=
  let done (s : State) : State := retire s e.core entry e.c
  match e.c.instr with
  | .cpyp .. =>
    if kind = 3 then done s
    else if e.c.held = [] then done s
    else done (skipPlanes e s next)
  | .cpyt .. =>
    if kind = 3 then done s
    else if e.c.held = [] then done (raiseSlot e s)
    else done (raiseSlot e (skipFill e s next))
  | .spstate .. => setEntry s e.core entry (some { e.c with phase := .skipping next })
  | _ =>
    let s := skipFill e s next
    if e.c.parked = 0 then done s
    else setEntry s e.core entry (some { e.c with phase := .running (elementCount e.c) })

/-- The choice of abort: nothing more is written but the gap bit (R337). -/
def abortCommand (e : Engine) (s : State) (entry kind : Nat) : State :=
  let s := match gapTile e s with
    | some (sp, o) => if kind = 3 then s else setTileGap s e.blk sp o
    | none => s
  if e.c.parked = 0 then retire s e.core entry e.c
  else setEntry s e.core entry (some { e.c with phase := .running (elementCount e.c) })

/-- The choice that a leaving handler makes for the stopped command that it names (R337, R410): 0 retry, 1 skip, 2 and 3 abort.
An entry that holds another block's command is left alone: DESIGN CHOICE, log 95. -/
def chooseCopy (s : State) (core entry blk choice : Nat) : State :=
  match engineAt s core entry with
  | none => s
  | some e =>
    if e.c.block ≠ blk then s
    else
      match e.c.phase with
      | .stopped next kind =>
        if choice = 0 then
          setEntry s core entry (some { e.c with phase := if e.c.held = [] ∧ next = 0 then .ready else .running next })
        else
          match e.c.instr with
          | .spcommit .. => retire s core entry e.c
          | .spabort .. => retire s core entry e.c
          | _ => if choice = 1 then skipCommand e s entry next kind else abortCommand e s entry kind
      | _ => s

/-- The choice read as a thread leaves its handler (R337): only where sys.tcause held 0x0A just before; EXIT aborts. -/
def readChoice (s : State) (core blk : Nat) (before : Thread) (exits : Bool) : State :=
  if before.handler = false ∨ before.tcause ≠ 0x0A then s
  else
    chooseCopy s core (bitsOf before.taux0.toNat 5 0) blk (if exits then 2 else bitsOf before.taux0.toNat 17 16)

end Sys2Proof.Machine
end

