-- ==== Sys2Proof/Machine/Copy.lean ====
section
/-! DEFINITION. CPY, CPYT, CPYP, CPYX and CPYF (R168 to R175), the ring words (R176 to R181), FQRP (R247), and the steps
HOME_SLICE_ACCESS, RING_COMMAND_START, ASYNC_COPY_FAULT, ELEMENT_PARKED and COMMAND_COMPLETE. -/

namespace Sys2Proof.Machine

/-! ### Operand checks at signing or issue (R134, R164) -/

/-- MISALIGNED of an engine or ring operand: its value and the space it names (R134). -/
abbrev operandTrap (value : Dword) (space : Nat) : Trap := addressTrap 6 value space 0

/-- MISALIGNED where an operand is not a multiple. -/
def alignTrap (value : Dword) (n space : Nat) : Option Trap :=
  if value.toNat % n ≠ 0 then some (operandTrap value space) else none

/-- A k register as a 64-bit value. -/
abbrev kWide (g : Gang) (r : BitVec 6) : Dword := (kReg g r.toNat).val.setWidth 64

/-- SPACE_RANGE or MISALIGNED of a segment of a CPY. -/
def segmentTrap (s : State) (b : Block) (sp : Nat) (va : Dword) (n : Nat) : Option Trap :=
  if inExtent s b (targetOf sp va.toNat) n = false then some (addressTrap 7 va sp 0) else alignTrap va 4 sp

/-- Q_FORMAT of a plane operand in a k quad (R152). -/
def quadTrap (g : Gang) (kq : Nat) : Option Trap :=
  let base := pairK g kq
  let p := (kReg g (kq + 3)).val.toNat
  let x (r : Nat) : Trap := { cause := 0x17, aux0 := BitVec.ofNat 32 r, aux1 := (kReg g (kq + 2)).val }
  if base.toNat % 256 ≠ 0 then some (x 1)
  else if p = 0 ∨ p % 256 ≠ 0 then some (x 2)
  else if base.toNat / 2 ^ 40 = 0xFF0000 then some (x 3)
  else none

/-- SPACE_RANGE where bytes that a register operand of a command names do not lie in their space (R133, R164). -/
def rangeTrap (s : State) (b : Block) (sp : Nat) (va : Dword) (n : Nat) : Option Trap :=
  if inExtent s b (targetOf sp va.toNat) n = false then some (addressTrap 7 va sp 0) else none

/-- The checks of a ring operand of a command: the 16-byte record lies in the local store (R133, R164), DEDUCED, log 96, and
at a multiple of 64. -/
def recordTraps (s : State) (b : Block) (g : Gang) (kt : BitVec 6) (ring : BitVec 1) : List (Option Trap) :=
  if ring = 1 then [rangeTrap s b 1 (kWide g kt) 16, alignTrap (kWide g kt) 64 1] else []

/-- The first of several checks that raises something. -/
def firstTrap (ts : List (Option Trap)) : Option Trap := ts.findSome? id

/-- CPY (R168). -/
def execCpy (gd : BitVec 4) (dst src : BitVec 6) (dsp ssp : BitVec 2) (j : BitVec 4) (words : BitVec 10) (s : State) :
    Host.Outcome State Fault Refusal :=
  commandWord (.cpy gd dst src dsp ssp j words) s (fun b _ g l =>
    let n := 4 * (words.toNat + 1)
    let x := threadOf g l
    firstTrap [segmentTrap s b dsp.toNat (addressV x dst dsp) n, segmentTrap s b ssp.toNat (addressV x src ssp) n])

/-- CPYT (R170, R164): the record's bytes lie in the generic space, at a multiple of 64, as a ring's do in the local store. -/
def execCpyt (gd : BitVec 4) (kr kc kt : BitVec 6) (dir sp ring : BitVec 1) (j : BitVec 4) (s : State) :
    Host.Outcome State Fault Refusal :=
  commandWord (.cpyt gd kr kc kt dir sp ring j) s (fun b _ g _ =>
    firstTrap ([rangeTrap s b 0 (pairK g kr.toNat) 64, alignTrap (pairK g kr.toNat) 64 0] ++ recordTraps s b g kt ring))

/-- CPYP (R172, R164): the base of the plane operand is a generic address. -/
def execCpyp (gd : BitVec 4) (kq kt : BitVec 6) (lo hi : BitVec 5) (sp ring : BitVec 1) (j : BitVec 4) (t : BitVec 10)
    (s : State) : Host.Outcome State Fault Refusal :=
  commandWord (.cpyp gd kq kt lo hi sp ring j t) s (fun b _ g _ =>
    firstTrap ([quadTrap g kq.toNat, rangeTrap s b 0 (pairK g kq.toNat) 1] ++
      (if ring = 1 then recordTraps s b g kt ring else [alignTrap (kWide g kt) 16 (1 + sp.toNat)])))

/-- CPYX (R173, R164): the table's base is a generic address. -/
def execCpyx (gd : BitVec 4) (vi kb kd : BitVec 6) (sp dir : BitVec 1) (j : BitVec 4) (row : BitVec 12) (s : State) :
    Host.Outcome State Fault Refusal :=
  commandWord (.cpyx gd vi kb kd sp dir j row) s (fun b _ g _ =>
    firstTrap [rangeTrap s b 0 (pairK g kb.toNat) 16, alignTrap (pairK g kb.toNat) 16 0,
      alignTrap (kWide g kd) 16 (1 + sp.toNat)])

/-- CPYF (R175): a row that is sent must lie in its window. -/
def execCpyf (gd : BitVec 4) (vd ks kr : BitVec 6) (sp : BitVec 1) (j : BitVec 4) (row : BitVec 12) (s : State) :
    Host.Outcome State Fault Refusal :=
  commandWord (.cpyf gd vd ks kr sp j row) s (fun b t g l =>
    let size := 16 * (row.toNat + 1)
    let off := (kReg g ks.toNat).val.toNat + (32 * t.gang + l) * size
    let sends := (vReg (threadOf g l) vd.toNat).val.toNat < 576
    firstTrap [alignTrap (kWide g ks) 16 (1 + sp.toNat),
      if sends ∧ inExtent s b (targetOf (1 + sp.toNat) off) size = false then
        some (addressTrap 7 (BitVec.ofNat 64 off) (1 + sp.toNat) 0)
      else none])

/-! ### Rings (R176 to R181) -/

/-- A word that acts once for its unit on its block, or raises one trap in every active thread. -/
def ringWord (i : Instr) (s : State) (f : Site → Block → Gang → Except Trap State) : Host.Outcome State Fault Refusal :=
  runWord i s (fun t iss act =>
    match getBlock s t.blk with
    | none => { st := s, moves := t.onward i.words iss }
    | some b =>
      match f t b (gangOf b t.gang) with
      | .ok s => { st := s, moves := t.onward i.words iss }
      | .error x => { st := s, traps := (lanesOf act).map (fun l => (l, t.trap x)), moves := t.onward i.words iss })

/-- The bytes of a ring's record (R177). -/
def ringRecord (slots size : Nat) : List Byte :=
  natBytes 4 (0x91A7 * 2 ^ 16 + (slots - 1) * 2 ^ 12) ++ natBytes 4 size ++ natBytes 8 0

/-- The header of a ring slot with f, gap and word 2 cleared and a generation set (R177, R180). -/
def resetSlot (s : State) (blk o g : Nat) : State :=
  match getBlock s blk with
  | none => s
  | some b =>
    let w0 := lword b o
    let w1 := lword b (o + 4)
    let clear := w0 - w0 % 32 - (if w0.testBit 15 then 2 ^ 15 else 0)
    windowWrite s blk b (.lstore o) (natBytes 4 clear ++ natBytes 4 (w1 / 2 ^ 16 * 2 ^ 16 + g) ++ natBytes 4 0)

/-- RINGINIT (R177). -/
def execRinginit (gd : BitVec 4) (kr : BitVec 6) (slots : BitVec 4) (size : BitVec 16) (s : State) :
    Host.Outcome State Fault Refusal :=
  ringWord (.ringinit gd kr slots size) s (fun t b g =>
    let o := (kReg g kr.toNat).val.toNat
    let n := slots.toNat + 1
    let len := 16 * size.toNat
    if o % 64 ≠ 0 then .error (operandTrap (kWide g kr) 1)
    else if lstoreSize s b < o + 16 + n * len then .error (addressTrap 7 (kWide g kr) 1 0)
    else
      let s := windowWrite s t.blk b (.lstore o) (ringRecord n len)
      .ok ((List.range n).foldl (fun s i => resetSlot s t.blk (o + 16 + i * len) 0) s))

/-- What RAWAIT or RREL raises where it cannot reach its slot (R133, R181). -/
def ringFaultTrap (kr : Nat) (ticket : Word) (x : Option RingSlot) : RingFault → Trap
  | .state r => ringTrap kr ticket x r
  | .range o => addressTrap 7 (BitVec.ofNat 64 o) 1 0

/-- The accesses of its gang that an RREL comes after, kept with its slot (R294). -/
def releaseSlot (s : State) (blk g off : Nat) : State :=
  let after := s.ops.filterMap (fun e =>
    match e.2 with
    | some o => if o.block = blk ∧ o.gang = g then some e.1 else none
    | none => none)
  modBlock s blk (fun b => { b with slotAfter := (off, after) :: b.slotAfter.filter (fun x => x.1 != off) })

/-- RAWAIT (R179): past the gate the slot has its generation and planes, or RING_STATE; then an acquire of block scope. MISALIGNED
comes before SPACE_RANGE: DESIGN CHOICE, log 116. -/
def execRawait (gd : BitVec 4) (kr kt : BitVec 6) (n : BitVec 5) (s : State) : Host.Outcome State Fault Refusal :=
  ringWord (.rawait gd kr kt n) s (fun t b g =>
    let o := (kReg g kr.toNat).val.toNat
    let ticket := (kReg g kt.toNat).val
    let slot := headedSlot b (lstoreSize s b) o ticket
    if o % 64 ≠ 0 then .error (operandTrap (kWide g kr) 1)
    else
      match ringAwait b (lstoreSize s b) o ticket n.toNat with
      | .error r => .error (ringFaultTrap o ticket slot r)
      | .ok _ => .ok (acquire s t.core 1))

/-- RREL (R180, R294). MISALIGNED comes before SPACE_RANGE: DESIGN CHOICE, log 116. -/
def execRrel (gd : BitVec 4) (kr kt : BitVec 6) (s : State) : Host.Outcome State Fault Refusal :=
  ringWord (.rrel gd kr kt) s (fun t b g =>
    let o := (kReg g kr.toNat).val.toNat
    let ticket := (kReg g kt.toNat).val
    let gen := ticket.toNat % 2 ^ 16
    if o % 64 ≠ 0 then .error (operandTrap (kWide g kr) 1)
    else
      match ringHeader b (lstoreSize s b) o ticket with
      | .error r => .error (ringFaultTrap o ticket none r)
      | .ok x =>
        if x.gen ≠ gen then .error (ringTrap o ticket (some x) 6)
        else .ok (resetSlot (releaseSlot s t.blk t.gang x.off) t.blk x.off ((gen + 1) % 2 ^ 16)))

/-! ### The fault queue (R174, R247) -/

/-- The command that parked an entry has one parked element fewer. -/
def unpark (s : State) (core entry : Nat) : State :=
  match commandAt s core entry with
  | some c => setEntry s core entry (some { c with parked := c.parked - 1 })
  | none => s

/-- What a parked element comes to when it is tried again: it leaves the queue, stays, or must wait. -/
inductive Replayed where
  | left | stays | waits
  deriving DecidableEq, Repr

/-- A parked element tried again. -/
def replayEntry (s : State) (core : Nat) (x : Parked) : Replayed × State :=
  match engineAt s core x.handle with
  | none => (.left, s)
  | some e =>
    match copyRow e s x.gang x.lane x.index.toNat false (.park { gang := x.gang, lane := x.lane } x.index) with
    | .go _ s => (.left, s)
    | .wait s => (.waits, s)
    | .bad va s => (.stays, e.freeze s va)
    | .park _ _ s => (.stays, s)
    | .stop _ s => (.stays, s)
    | _ => (.stays, s)

/-- Every element of a queue tried again, oldest first: those that leave, those that stay, and whether one must wait. -/
def replayAll (core : Nat) : List Parked → State → List Parked × List Parked × Bool × State
  | [], s => ([], [], false, s)
  | x :: xs, s =>
    match replayEntry s core x with
    | (.waits, s) => ([], x :: xs, true, s)
    | (r, s) =>
      match replayAll core xs s with
      | (gone, rest, w, s) => if r = .left then (x :: gone, rest, w, s) else (gone, x :: rest, w, s)

/-- A parked element removed: a gather's tile row becomes zero. -/
def skipEntry (s : State) (core : Nat) (x : Parked) : State :=
  match engineAt s core x.handle with
  | none => s
  | some e =>
    let (sp, scatter, size) := rowShape e.c.instr
    unpark (if scatter then s else zeroTile s e.blk e.b sp (rowTile e.c x.gang x.lane) size) core x.handle

/-- FQRP replay (R247): where an element must wait for its home slice, none leaves the queue yet and the word is done again. -/
def execFqrpReplay (gd : BitVec 4) (d : BitVec 6) (s : State) : Host.Outcome State Fault Refusal :=
  let i : Instr := .fqrpReplay gd d
  runWord i s (fun t iss act =>
    let who : Asker := .unit t.blk t.gang (lowest act)
    match replayAll t.core (t.g s).faultq (tracing (askAs s who)) with
    | (_, _, true, u) => { st := beginAgain s u, moves := [{ lanes := iss, pc := t.unit.pc }], ends := true }
    | (gone, rest, false, u) =>
      let s := untraced (forgetAsker (askAs u s.asker) who)
      let s := gone.foldl (fun s x => unpark s t.core x.handle) s
      { st := modGang s t.blk t.gang (fun g => writeK { g with faultq := rest } d.toNat (BitVec.ofNat 32 gone.length) false)
        moves := t.onward i.words iss, ends := true })

/-- FQRP skip (R247). -/
def execFqrpSkip (gd : BitVec 4) (d : BitVec 6) (s : State) : Host.Outcome State Fault Refusal :=
  onceWord (.fqrpSkip gd d) s true (fun t _ =>
    let q := (t.g s).faultq
    modGang (q.foldl (fun s x => skipEntry s t.core x) s) t.blk t.gang
      (fun g => writeK { g with faultq := [] } d.toNat (BitVec.ofNat 32 q.length) false))

/-- The two words of a fault-queue entry (R247). -/
def entryWords (x : Parked) : List Word :=
  [BitVec.ofNat 32 (2 ^ 31 + x.handle * 2 ^ 16 + x.gang * 2 ^ 8 + x.lane), x.index]

/-- FQRP peek (R247). -/
def execFqrpPeek (gd : BitVec 4) (d : BitVec 6) (s : State) : Host.Outcome State Fault Refusal :=
  onceWord (.fqrpPeek gd d) s true (fun t _ =>
    modGang s t.blk t.gang (fun g =>
      writeKs g d.toNat ((g.faultq.head?.map entryWords).getD [0, 0]) false))

/-! ### The steps of a skidder -/

/-- A command that ends in a fault of Table 13.1 or in uncorrectable data: it stops, and completes once no row of it is
parked. -/
def endCommand (s : State) (core entry : Nat) (c : Command) : State :=
  if c.parked = 0 then retire s core entry c
  else setEntry s core entry (some { c with phase := .running (elementCount c) })

/-- Whether a command is one that RING_COMMAND_START starts. -/
def startsInRing (c : Command) : Bool := c.phase == .ready && (ringOperands c).isSome

/-- A step of a command that goes on or ends. -/
def takeProgress (s : State) (core entry : Nat) (c : Command) : Progress → State
  | .go c' s' => setEntry s' core entry (some c')
  | .stop t s' => endCommand (tellLead s' c t) core entry c
  | .bad va s' =>
    endCommand (freezeData s' c.block c.lead.1 c.lead.2 (standsAt s' c.block c.lead.1 c.lead.2) va) core entry c
  | .wait s' => s'
  | _ => s

/-- HOME_SLICE_ACCESS (R269): an access of an operation, or the next element of a skidder command. -/
def execHomeSliceAccess (ref : AccessRef) (s : State) : Host.Outcome State Fault Refusal :=
  match ref with
  | .op id idx => .next (homeAccess s id idx)
  | .engine core entry =>
    match commandAt s core entry with
    | none => .next s
    | some c => if startsInRing c then .next s else .next (takeProgress s core entry c (progressAt s core entry))

/-- RING_COMMAND_START (R178). -/
def execRingCommandStart (core entry : Nat) (s : State) : Host.Outcome State Fault Refusal :=
  match commandAt s core entry with
  | none => .next s
  | some c => if startsInRing c then .next (takeProgress s core entry c (progressAt s core entry)) else .next s

/-- The elements after a faulting one that may have been performed before the command stops (R336): every one; of a CPYP that
has not read all its opening heads, the opening heads alone, since the others depend on them (log 32). -/
def pastElements (c : Command) (next : Nat) : Nat :=
  match c.instr with
  | .cpyp .. => let t := (planeShape c.instr).t; if next ≤ t then t - next else elementCount c - next
  | _ => elementCount c - next

/-- A plane tile's count of planes as it was before a range of elements (R172): it rises only past planes that are whole. -/
def keepCount (s : State) (before : Engine) (blk : Nat) : State :=
  match before.c.instr with
  | .cpyp .. =>
    let x := planeShape before.c.instr
    setTileF s blk x.sp before.tile (tileWord before.b x.sp before.tile % 32)
  | _ => s

/-- Elements after a faulting one, each performed or not, a free choice (R336); the command itself stays as it stopped. -/
def runPast (s : State) (core entry next : Nat) : State :=
  match engineAt s core entry with
  | none => s
  | some e0 =>
    let s := (List.range (pastElements e0.c next)).foldl (fun s n =>
      let (f, s) := draw s
      if f % 2 = 0 then s
      else
        match engineAt s core entry with
        | none => s
        | some e =>
          match commandElement e s (next + n) with
          | .go c s => setEntry s core entry (some { c with held := match c.instr with | .cpyp .. => e0.c.held | _ => c.held })
          | _ => s) s
    keepCount s e0 e0.blk

/-- ASYNC_COPY_FAULT (R167, R336): the command stops at the element, and its issuing thread is told. -/
def execAsyncCopyFault (core entry : Nat) (s : State) : Host.Outcome State Fault Refusal :=
  match commandAt s core entry, progressAt s core entry with
  | some c, .fault kind aux1 va s =>
    let next := match c.phase with | .running n => n | _ => 0
    let s := match c.phase with | .running n => runPast s core entry (n + 1) | _ => s
    let s := match commandAt s core entry with
      | some c => setEntry s core entry (some { c with phase := .stopped next kind })
      | none => s
    .next (tellLead s c (copyTrap entry kind aux1 va))
  | _, _ => .next s

/-- ELEMENT_PARKED (R174): the element enters its gang's fault queue; a full queue makes it wait and raises FQ_OVERFLOW
once for the command. -/
def execElementParked (core entry : Nat) (s : State) : Host.Outcome State Fault Refusal :=
  match commandAt s core entry, progressAt s core entry with
  | some c, .park p index s =>
    if 32 ≤ (getGang s c.block p.gang).faultq.length then
      if c.overflowed then .next s
      else
        .next (tellLead (setEntry s core entry (some { c with overflowed := true })) c
          { cause := 0x18, aux0 := BitVec.ofNat 32 entry, aux1 := 32 })
    else
      let next := match c.phase with | .running n => n + 1 | _ => 0
      let x : Parked := { handle := entry, gang := p.gang, lane := p.lane, index := index }
      .next (setEntry (modGang s c.block p.gang (fun g => { g with faultq := g.faultq ++ [x] })) core entry
        (some { c with phase := .running next, parked := c.parked + 1 }))
  | _, _ => .next s

/-- The end of a forwarder command all of whose rows are acknowledged or dropped (R175). -/
def endSend (s : State) (die n : Nat) : State :=
  match (getDie s die).sends[n]? with
  | none => s
  | some c =>
    if c.left ≠ 0 then s
    else doneInGangs (modDie s die (fun d => { d with sends := d.sends.eraseIdx n })) c.block c.gangs c.id

/-- COMMAND_COMPLETE (R138): a skidder command of an entry, or, from 48 on, a forwarder command of the core's die. -/
def execCommandComplete (core entry : Nat) (s : State) : Host.Outcome State Fault Refusal :=
  if 48 ≤ entry then .next (endSend s (dieOf (clusterOf core)) (entry - 48))
  else
    match engineAt s core entry, progressAt s core entry with
    | some e, .finished =>
      .next (match lastWrites e s with
        | .go _ s => retire s core entry e.c
        | .bad va s => retire (e.freeze s va) core entry e.c
        | _ => s)
    | _, _ => .next s

end Sys2Proof.Machine
end

