-- ==== Sys2Proof/Machine/Control.lean ====
section
/-! DEFINITION. Control transfers (R113 to R115), EXIT (R116), BRK and TRAP (R117), YIELD (R118), and divergence: GSPLIT
(R119) and GJOIN with its merge sets (R120, R121). -/

namespace Sys2Proof.Machine

/-! ### Transfers (R113, R89) -/

/-- NONUNIFORM_BRANCH (R113): the mask concerned and the mask of U. -/
def nonuniformTrap (mask u : BitVec 32) : Trap := { cause := 3, aux0 := mask, aux1 := u }

/-- BAD_TARGET (R89). -/
def badTargetTrap (target : Dword) (reason : Nat) : Trap :=
  { cause := 2, aux0 := lo32 target, aux1 := hi32 target, aux2 := BitVec.ofNat 32 reason }

/-- A transfer of a whole unit (R113): `target` gives each lane's 64-bit target, `point` its address and slot, `also`
what the transfer does besides, and `left` what it does once its target has passed the check. DESIGN CHOICE, log 100: the
targets that are compared are those of the threads that do not trap at reading one. -/
def transferWord (i : Instr) (s : State) (target : Site → Gang → Nat → Dword) (point : Dword → Dword × Nat)
    (also left : Site → BitVec 32 → State → State) : Host.Outcome State Fault Refusal :=
  match gate i s with
  | .noUnit => .fault .noIssuingUnit
  | .hold => .next (endRun s s.focus)
  | .go t iss act traps =>
    let g := t.g s
    let taken := guardHolds g i.guard iss
    if taken = 0 ∨ traps.any (fun e => e.2.cause == 1 && taken.getLsbD e.1) then
      .next (finish t { st := s, traps := traps, moves := t.onward i.words iss })
    else if taken ≠ iss then
      let rest := iss &&& ~~~trapMask traps
      let more := (lanesOf rest).map (fun l => (l, t.trap (nonuniformTrap taken iss)))
      .next (finish t { st := s, traps := traps ++ more, moves := [] })
    else if act = 0 then .next (finish t { st := s, traps := traps, moves := [] })
    else
      let x := target t g (lowest act)
      let same := maskWhere (fun l => act.getLsbD l && target t g l == x)
      if same ≠ act then
        let more := (lanesOf act).map (fun l => (l, t.trap (nonuniformTrap same iss)))
        .next (finish t { st := s, traps := traps ++ more, moves := [] })
      else
        let p := point x
        let s := also t act s
        match getBlock s t.blk with
        | none => .next s
        | some b =>
          match targetFault s t.core t.blk b.launch b.ctx p.1 p.2 with
          | some r =>
            let more := (lanesOf act).map (fun l => (l, t.trap (badTargetTrap x r)))
            .next (finish t { st := s, traps := traps ++ more, moves := [] })
          | none =>
            .next (finish t { st := left t act s, traps := traps, moves := [{ lanes := act, pc := resumeAt p.1.toNat p.2, via := some (t.unit.pc, x) }],
                              ends := p.2 != 15 })

/-- The target of a relative transfer (R88): the clause's header address plus four times the offset. -/
def relativeTarget (t : Site) (off : BitVec 22) : Dword :=
  addInt (BitVec.ofNat 64 (codeVa t.hdrAddr)) (4 * off.toInt)

/-- A target that is a clause header. -/
abbrev headerPoint (x : Dword) : Dword × Nat := (x, 15)

/-- BRU (R113, R114). -/
def execBru (gd : BitVec 4) (off : BitVec 22) (s : State) : Host.Outcome State Fault Refusal :=
  transferWord (.bru gd off) s (fun t _ _ => relativeTarget t off) headerPoint (fun _ _ s => s) (fun _ _ s => s)

/-- JMP (R113, R114). -/
def execJmp (gd : BitVec 4) (off : BitVec 22) (s : State) : Host.Outcome State Fault Refusal :=
  transferWord (.jmp gd off) s (fun t _ _ => relativeTarget t off) headerPoint (fun _ _ s => s) (fun _ _ s => s)

/-- The address of the clause after a site's own. -/
def nextClause (t : Site) : Dword := BitVec.ofNat 64 (codeVa (t.hdrAddr + 4 * (hdrCount t.hdr + 1)))

/-- CALL (R113, R114): v62:v63 receive the address of the next clause in every thread that transfers. -/
def execCall (gd : BitVec 4) (off : BitVec 22) (s : State) : Host.Outcome State Fault Refusal :=
  transferWord (.call gd off) s (fun t _ _ => relativeTarget t off) headerPoint (fun t act s =>
    modGang s t.blk t.gang (fun g => (lanesOf act).foldl (fun g l =>
      modThreadOf g l (fun x => writePair x 62 (nextClause t) false)) g)) (fun _ _ s => s)

/-- RET (R113, R115). -/
def execRet (gd : BitVec 4) (d : BitVec 6) (s : State) : Host.Outcome State Fault Refusal :=
  transferWord (.ret gd d) s (fun _ g l => pairV (threadOf g l) d.toNat) headerPoint (fun _ _ s => s) (fun _ _ s => s)

/-- JMPI (R113, R115): through a v or a k pair. -/
def execJmpi (gd : BitVec 4) (d : BitVec 6) (cls : BitVec 1) (s : State) : Host.Outcome State Fault Refusal :=
  transferWord (.jmpi gd d cls) s (fun _ g l => if cls = 1 then pairK g d.toNat else pairV (threadOf g l) d.toNat)
    headerPoint (fun _ _ s => s) (fun _ _ s => s)

/-! ### GJOIN and its merge sets (R120, R121) -/

/-- The mask that a unit waits with at a GJOIN. -/
def gjoinMask (u : ExecUnit) : Option Word :=
  match u.wait with
  | .gjoin m => some m
  | _ => none

/-- The lanes that arrived at the word of a waiting unit with its mask. -/
def arrived (us : List ExecUnit) (u : ExecUnit) : BitVec 32 :=
  us.foldl (fun m v => if gjoinMask v = gjoinMask u ∧ v.pc = u.pc then m ||| v.lanes else m) 0

/-- Whether a waiting unit's merge set holds every live thread of its mask (R120). -/
def mergeComplete (g : Gang) (u : ExecUnit) : Bool :=
  match gjoinMask u with
  | some m => (m &&& liveLanes g) &&& ~~~arrived g.units u == 0
  | none => false

/-- The units with a merge set made one unit at the next clause: its last issue is the earliest of its parts. -/
def mergeUnits (us : List ExecUnit) (u : ExecUnit) : List ExecUnit :=
  let inSet (v : ExecUnit) : Bool := gjoinMask v == gjoinMask u && v.pc == u.pc
  let last := (us.filter inSet).foldl (fun n v => min n v.lastIssue) u.lastIssue
  us.filter (fun v => !inSet v) ++
    [{ lanes := arrived us u, pc := resumeAt (rpAddr u.pc + 4) 15, lastIssue := last }]

/-- The gang with every complete merge set merged. -/
def mergeSets (g : Gang) : Nat → Gang
  | 0 => g
  | n + 1 =>
    match g.units.find? (mergeComplete g) with
    | some u => mergeSets { g with units := mergeUnits g.units u } n
    | none => g

/-- Whether every live thread of a gang waits at a GJOIN (R121). -/
def allJoining (g : Gang) : Bool := !g.units.isEmpty && g.units.all (fun u => (gjoinMask u).isSome)

/-- JOIN_STATE of a GJOIN (R125). -/
def gjoinTrap (m : Word) : Trap := { cause := 0x0C, aux0 := 0xFF, aux1 := 7, aux2 := m }

/-- The gang after an arrival or an exit: complete sets merge; where every live thread waits and none can, JOIN_STATE. -/
def settleMerges (s : State) (blk gi : Nat) : State :=
  let s := modGang s blk gi (fun g => mergeSets g g.units.length)
  let g := getGang s blk gi
  if allJoining g = false then s
  else
    g.units.foldl (fun s u =>
      takeTraps s blk gi
        ((lanesOf u.lanes).map (fun l => (l, { gjoinTrap ((gjoinMask u).getD 0) with tpc := some u.pc })))
        u.pc u.lastIssue) s

/-- The gang that the run of the core in focus belongs to. -/
def focusGang (s : State) : Nat × Nat :=
  match (getCore s s.focus).run with
  | some r => (r.block, r.gang)
  | none => (0, 0)

/-- An outcome followed by the merge sets of a gang. -/
def thenMerges (g : Nat × Nat) : Host.Outcome State Fault Refusal → Host.Outcome State Fault Refusal
  | .next s => .next (settleMerges s g.1 g.2)
  | o => o

/-- The masks of some lanes, each once. -/
def masksOf (g : Gang) (a : Nat) (lanes : List Nat) : List Word :=
  (lanes.map (fun l => (vReg (threadOf g l) a).val)).eraseDups

/-- GJOIN (R120): a thread whose own bit is clear in its mask raises JOIN_STATE; the others wait at the word, those with
equal masks together. -/
def execGjoin (gd : BitVec 4) (a : BitVec 6) (s : State) : Host.Outcome State Fault Refusal :=
  let i : Instr := .gjoin gd a
  thenMerges (focusGang s) (runWord i s (fun t iss act =>
    let g := t.g s
    let mask (l : Nat) : Word := (vReg (threadOf g l) a.toNat).val
    let ok := (lanesOf act).filter (fun l => (mask l).getLsbD l)
    { st := s
      traps := ((lanesOf act).filter (fun l => !(mask l).getLsbD l)).map (fun l => (l, t.trap (gjoinTrap (mask l))))
      moves := (masksOf g a.toNat ok).map (fun m =>
        { lanes := maskWhere (fun l => iss.getLsbD l && ok.contains l && mask l == m), pc := t.unit.pc,
          wait := .gjoin m }) }))

/-- GSPLIT (R119): d receives the mask of the threads that split; each side goes on as a sub-gang, and the run ends. -/
def execGsplit (gd : BitVec 4) (d a : BitVec 6) (inv : BitVec 1) (s : State) : Host.Outcome State Fault Refusal :=
  let i : Instr := .gsplit gd d a inv
  runWord i s (fun t _ act =>
    let g := t.g s
    let bad := maskWhere (fun l => act.getLsbD l && (pReg (threadOf g l) a.toNat).poison)
    let all := act &&& ~~~bad
    let yes := maskWhere (fun l => all.getLsbD l && (pReg (threadOf g l) a.toNat).val != (inv == 1))
    { st := modGang s t.blk t.gang (fun g => (lanesOf all).foldl (fun g l =>
        modThreadOf g l (fun x => writeV x d.toNat all false)) g)
      traps := (lanesOf bad).map (fun l => (l, regTrap t 5 (.p a.toNat)))
      moves := [{ lanes := yes, pc := t.after i.words }, { lanes := all &&& ~~~yes, pc := t.after i.words }]
      ends := true })

/-! ### EXIT (R116) -/

/-- The thread ended (R10): it leaves its handler; its registers stay for the commands that hold them. -/
def endThread (x : Thread) : Thread := { x with cond := .exited, handler := false, stalled := none }

/-- A thread exits (R116, R331, R337): an unchosen copy fault is aborted, and deferred faults it holds freeze the
context (R137). -/
def exitLane (s : State) (core blk g l : Nat) : State :=
  let before := getThread s blk g l
  let s := readChoice s core blk before true
  modThread (dropDeferred s blk g l) blk g l endThread

/-- Threads of a gang exit: each leaves every join register of its block. -/
def exitLanes (s : State) (core blk g : Nat) (act : BitVec 32) : State :=
  let s := (lanesOf act).foldl (fun s l => exitLane s core blk g l) s
  let s := (List.range 8).foldl (fun s j => leaveJoin s core blk j g act) s
  modGang s blk g (fun x => { x with units := dropLanes x.units act })

/-- EXIT (R116): the issuing threads that are not active go on; an exit can complete a merge set (R120). -/
def execExit (gd : BitVec 4) (s : State) : Host.Outcome State Fault Refusal :=
  let i : Instr := .exit gd
  thenMerges (focusGang s) (runWord i s (fun t iss act =>
    { st := exitLanes s t.core t.blk t.gang act
      moves := t.onward i.words (iss &&& ~~~act)
      ends := true }))

/-! ### BRK, TRAP, YIELD (R117, R118) -/

/-- A trap in every active thread whose resume point is the next clause's header. -/
def softwareWord (i : Instr) (s : State) (cause : BitVec 8) (imm : BitVec 18) : Host.Outcome State Fault Refusal :=
  runWord i s (fun t iss act =>
    { st := s
      traps := (lanesOf act).map (fun l =>
        (l, { cause := cause, tpc := some (t.after i.words), aux0 := imm.setWidth 32 }))
      moves := t.onward i.words iss })

/-- BRK (R117). -/
def execBrk (gd : BitVec 4) (imm : BitVec 18) (s : State) : Host.Outcome State Fault Refusal :=
  softwareWord (.brk gd imm) s 0x12 imm

/-- TRAP (R117). -/
def execTrap (gd : BitVec 4) (imm : BitVec 18) (s : State) : Host.Outcome State Fault Refusal :=
  softwareWord (.trap gd imm) s 0x13 imm

/-- YIELD (R118): the run ends. -/
def execYield (gd : BitVec 4) (s : State) : Host.Outcome State Fault Refusal :=
  onceWord (.yield gd) s true (fun _ _ => s)

end Sys2Proof.Machine
end

