-- ==== Sys2Proof/Machine/System.lean ====
section
/-! DEFINITION. System instructions (spec/07 7.4: R240 to R248), FQRP apart: SYSR, SYSW, TRAPRET, TLBINV, CWB, BANKMODE,
LAUNCH and HALT. -/

namespace Sys2Proof.Machine

/-! ### SYSR and SYSW (R241, Table 7.8) -/

/-- Where a core stands, as a thread on it reads (R32, R33). -/
def placeValue (core num : Nat) : Nat :=
  match num with
  | 0x02 => core % 8
  | 0x03 => clusterOf core
  | _ => dieOf (clusterOf core)

/-- sys.cyc of a core (R36): what it had counted when the device became ready, and the cycles since. -/
def cycleCount (s : State) (core : Nat) : Dword := Config.cyclesAtReady s.mgmt.boots core + (getCore s core).cyc

/-- The value of a system register in a thread; a 32-bit register in the low half. -/
def sysValue (s : State) (core : Nat) (b : Block) (g : Nat) (l num : Nat) : Dword :=
  let gg := gangOf b g
  let x := threadOf gg l
  match num with
  | 0x00 => BitVec.ofNat 64 l
  | 0x01 => BitVec.ofNat 64 g
  | 0x05 => BitVec.ofNat 64 b.stage
  | 0x08 => x.fpmode.setWidth 64
  | 0x09 => gg.mxflags.setWidth 64
  | 0x0A => gg.trapbase
  | 0x10 => x.tcause.setWidth 64
  | 0x11 => x.tpc
  | 0x12 => x.taux0.setWidth 64
  | 0x13 => x.taux1.setWidth 64
  | 0x14 => x.taux2.setWidth 64
  | 0x15 => x.taux3.setWidth 64
  | 0x18 => tget 0 x.plog 0
  | 0x19 => tget 0 x.plog 1
  | 0x1A => tget 0 x.plog 2
  | 0x1B => tget 0 x.plog 3
  | 0x20 => x.spx.setWidth 64
  | 0x28 => cycleCount s core
  | n => BitVec.ofNat 64 (placeValue core n)

/-- SYSR (R241): never poisoned. -/
def execSysr (gd : BitVec 4) (d : BitVec 6) (num : BitVec 8) (s : State) : Host.Outcome State Fault Refusal :=
  laneWord (.sysr gd d num) s (fun t g l =>
    match getBlock s t.blk with
    | none => .ok (threadOf g l)
    | some b =>
      let x := sysValue s t.core b t.gang l num.toNat
      if sysWidth num.toNat = some 64 then .ok (writePair (threadOf g l) d.toNat x false)
      else .ok (writeV (threadOf g l) d.toNat (lo32 x) false))

/-- An entry of the poison log as a write leaves it (R334): reserved bits, and the overflow bit of the first three, 0. -/
def poisonEntry (n : Nat) (x : Dword) : Dword :=
  x &&& (if n = 3 then 0xF1FFFFFFFFFFFFFF#64 else 0xB1FFFFFFFFFFFFFF#64)

/-- A thread after SYSW to a thread-scope register (R241, R53, R331): a write of sys.tcause leaves handler state. -/
def sysWriteThread (x : Thread) (num : Nat) (v : Dword) : Thread :=
  match num with
  | 0x08 => { x with fpmode := lo32 v &&& 0xF }
  | 0x10 => outOfHandler { x with tcause := lo32 v &&& 0xFF }
  | 0x11 => { x with tpc := asResume v }
  | 0x12 => { x with taux0 := lo32 v }
  | 0x13 => { x with taux1 := lo32 v }
  | 0x14 => { x with taux2 := lo32 v }
  | 0x15 => { x with taux3 := lo32 v }
  | 0x18 => { x with plog := tset 0 x.plog 0 (poisonEntry 0 v) }
  | 0x19 => { x with plog := tset 0 x.plog 1 (poisonEntry 1 v) }
  | 0x1A => { x with plog := tset 0 x.plog 2 (poisonEntry 2 v) }
  | 0x1B => { x with plog := tset 0 x.plog 3 (poisonEntry 3 v) }
  | 0x20 => { x with spx := lo32 v }
  | _ => x

/-- A gang after SYSW to a gang-scope register (R241, R213). -/
def sysWriteGang (g : Gang) (num : Nat) (v : Dword) : Gang :=
  match num with
  | 0x09 => { g with mxflags := lo32 v &&& 0xF }
  | 0x0A => { g with trapbase := v }
  | _ => g

/-- The source of a SYSW in a thread. -/
def sysSource (g : Gang) (l : Nat) (a : BitVec 6) (num : Nat) : Dword :=
  if sysWidth num = some 64 then pairV (threadOf g l) a.toNat else (vReg (threadOf g l) a.toNat).val.setWidth 64

/-- SYSW (R241): thread registers in each active thread, gang registers once from the lowest; a write of sys.tcause reads
the choice of a copy fault as its thread leaves its handler (R337). -/
def execSysw (gd : BitVec 4) (a : BitVec 6) (num : BitVec 8) (s : State) : Host.Outcome State Fault Refusal :=
  onceWord (.sysw gd a num) s false (fun t act =>
    let g := t.g s
    if num = 0x09 ∨ num = 0x0A then
      modGang s t.blk t.gang (fun x => sysWriteGang x num.toNat (sysSource g (lowest act) a num.toNat))
    else
      (lanesOf act).foldl (fun s l =>
        let before := getThread s t.blk t.gang l
        let s := modThread s t.blk t.gang l (fun x => sysWriteThread x num.toNat (sysSource g l a num.toNat))
        if num = 0x10 then readChoice s t.core t.blk before false else s) s)

/-! ### TRAPRET (R242) -/

/-- A resume point as a transfer's target: its address and its slot (R76). -/
def resumePoint (x : Dword) : Dword × Nat := (BitVec.ofNat 64 (codeVa (rpAddr x)), rpSlot x)

/-- The threads of a unit leave their handlers (R331); the choices of their copy faults are read (R337). -/
def leaveHandlers (t : Site) (act : BitVec 32) (s : State) : State :=
  (lanesOf act).foldl (fun s l =>
    let before := getThread s t.blk t.gang l
    readChoice (modThread s t.blk t.gang l outOfHandler) t.core t.blk before false) s

/-- TRAPRET (R242). -/
def execTrapret (gd : BitVec 4) (s : State) : Host.Outcome State Fault Refusal :=
  transferWord (.trapret gd) s (fun _ g l => (threadOf g l).tpc) resumePoint (fun _ _ s => s) leaveHandlers

/-! ### TLBINV and CWB (R243, R244) -/

/-- TLBINV (R243): every TLB and L1 acts at once. -/
def execTlbinv (gd : BitVec 4) (every ctx : BitVec 1) (ka kn : BitVec 6) (s : State) : Host.Outcome State Fault Refusal :=
  onceWord (.tlbinv gd every ctx ka kn) s true (fun t _ =>
    let g := t.g s
    let c := if ctx = 1 then none else (getBlock s t.blk).map Block.ctx
    invalidateTranslations s c
      (if every = 1 then none else some ((pairK g ka.toNat).toNat, (kReg g kn.toNat).val.toNat)))

/-- CWB (R244): it counts on st until its write-backs are acknowledged. -/
def execCwb (gd : BitVec 4) (ctx : BitVec 1) (s : State) : Host.Outcome State Fault Refusal :=
  onceWord (.cwb gd ctx) s false (fun t act =>
    startOp s t (lanesOf act) [] (some .st)
      (.writeBackContext (if ctx = 1 then none else (getBlock s t.blk).map Block.ctx)) [])

/-! ### BANKMODE (R245, R376) -/

/-- The outstanding operations of a gang, engine commands among them. -/
def gangOps (s : State) (blk g : Nat) : List Nat :=
  s.ops.filterMap (fun e =>
    match e.2 with
    | some o => if o.block = blk ∧ o.gang = g then some e.1 else none
    | none => none) ++
  (getGang s blk g).counts.filterMap (fun c => if c.done then none else some c.id)

/-- BANKMODE (R245): the request goes to the issuing cluster, which it reaches after all that its gang has issued (R376), and
the unit suspends until it has been served. -/
def execBankmode (gd : BitVec 4) (d a : BitVec 6) (s : State) : Host.Outcome State Fault Refusal :=
  let i : Instr := .bankmode gd d a
  runWord i s (fun t iss _ =>
    let v := (kReg (t.g s) a.toNat).val
    let bad := (kReg (t.g s) a.toNat).poison
    { st := reachClusters (modCluster s (clusterOf t.core) (fun c =>
        { c with coming := c.coming ++ [.unit v t.blk t.gang (lowest iss) (gangOps s t.blk t.gang)] }))
      moves := [{ lanes := iss, pc := t.after i.words, wait := .bankMode d bad }] })

/-! ### LAUNCH (R246) -/

/-- LAUNCH (R246): past the gate st reads zero; a push onto the die's device launch queue, or 0 where it is full. -/
def execLaunch (gd : BitVec 4) (d kt kp : BitVec 6) (s : State) : Host.Outcome State Fault Refusal :=
  onceWord (.launch gd d kt kp) s false (fun t _ =>
    let g := t.g s
    let die := dieOf (clusterOf t.core)
    let b := getBlock s t.blk
    let put (s : State) (x : Word) : State := modGang s t.blk t.gang (fun g => writeK g d.toNat x false)
    if 1024 ≤ (getDie s die).dq.length then put s 0
    else
      let seq := nextSeq (getDie s die).pushSeq
      let c : Child := { seq := seq, template := pairK g kt.toNat, params := pairK g kp.toNat,
                         ctx := (b.map Block.ctx).getD 0,
                         root := ((b.bind (fun b => getLaunch s b.launch)).map Launch.root).getD 0 }
      put (modDie s die (fun x => { x with dq := x.dq ++ [c], pushSeq := seq })) seq)

/-! ### HALT (R248) -/

/-- HALT (R248): the context freezes with reason 0x05; the unit stops before the clause after HALT. -/
def execHalt (gd : BitVec 4) (imm : BitVec 18) (s : State) : Host.Outcome State Fault Refusal :=
  let i : Instr := .halt gd imm
  runWord i s (fun t iss act =>
    { st := match getBlock s t.blk with
        | some b => freezeCtx s b.ctx 5 (placeBits b t.gang (lowest act) 0) (t.after i.words) (imm.setWidth 64) 0
        | none => s
      moves := [{ lanes := iss, pc := t.after i.words, wait := .halted }] })

end Sys2Proof.Machine
end

