-- ==== Sys2Proof/Machine/Banks.lean ====
section
/-! DEFINITION. Bank modes and bank health of a cluster (spec/16 16.2, 16.4: R376 to R379, R389), the error logs (R386), and
the retries, holds and lane swaps of HBM4 transfers (R382 to R384). -/

namespace Sys2Proof.Machine

/-! ### Bank mode changes (R376, R377) -/

/-- Whether a FIFO bank of a cluster is bound to a link of a chain on it (R314). -/
def bankBound (s : State) (cl bank : Nat) : Bool :=
  (blockList s).any (fun e => e.2.bank == some bank && (match e.2.place with | .core c => clusterOf c == cl | _ => false))

/-- The modes of sixteen banks as a register value. -/
def modesValue (f : Nat → Nat) : Word := BitVec.ofNat 32 ((List.range 16).foldl (fun n i => n + f i * 4 ^ i) 0)

/-- The mode that a bank takes for a requested value (R377): 3, a retired bank and a bound FIFO bank change nothing. -/
def newMode (s : State) (cl : Nat) (v : Word) (i : Nat) : Nat :=
  let old := bankModeOf (getCluster s cl).cbmode i
  let want := bankModeOf v i
  if want = 3 ∨ old = 3 ∨ (old = 2 ∧ bankBound s cl i = true) then old else want

/-- The bytes of a block's scratch window at or above its current size are lost (R267). -/
def trimScratch (s : State) (cl : Nat) : State :=
  (blockList s).foldl (fun s e =>
    if (coreOf e.2).map clusterOf = some cl then modBlock s e.1 (fun b => { b with scratch := tbelow b.scratch (scratchSize s b) }) else s) s

/-- The modes that a requested value leads to (R377). -/
def requestedModes (s : State) (cl : Nat) (v : Word) : Word := modesValue (newMode s cl v)

/-- A 64-bit health value with one field set. -/
def setHealth (h : Dword) (i v : Nat) : Dword := BitVec.ofNat 64 (h.toNat - healthOf h i * 4 ^ i + v * 4 ^ i)

/-- Whether a bank that is to be retired is bound by now, so that it stays (R389). -/
def retireBarred (s : State) (cl bank v : Nat) : Bool :=
  v == 2 && bankModeOf (getCluster s cl).cbmode bank == 2 && bankBound s cl bank

/-- The modes that a health field leads to (R389): a retirement takes the bank out of its mode; the end of one brings it into
CACHE; good and erased change none. -/
def healthModes (s : State) (cl bank v : Nat) : Word :=
  let c := getCluster s cl
  if retireBarred s cl bank v then c.cbmode
  else modesValue (fun i =>
    if i = bank ∧ v = 2 then 3 else if i = bank ∧ healthOf c.cbhealth i = 2 then 0 else bankModeOf c.cbmode i)

/-- The modes that a request leads to. -/
def modesAfter (s : State) (cl : Nat) : BankRequest → Word
  | .mode v => requestedModes s cl v
  | .unit v _ _ _ _ => requestedModes s cl v
  | .health bank v => healthModes s cl bank v

/-- Stage 2 of a change (R377): the ways surrendered are written back and emptied. -/
def surrender (s : State) (cl : Nat) (new : Word) : State :=
  let old := (getCluster s cl).cbmode
  writeBackWhere s cl (fun bank _ => bankModeOf old bank == 0 && bankModeOf new bank != 0) false

/-- A change of a cluster's modes carried out (R377): surrendered ways are written back and emptied, scratch offsets that
stay in range keep their bytes, and the register takes its value. -/
def changeModes (s : State) (cl : Nat) (new : Word) : State :=
  trimScratch (modCluster (surrender s cl new) cl (fun c => { c with cbmode := new })) cl

/-- A requested value served with the modes that it leads to (R377), and whether some bank was left unchanged. -/
def serveModes (s : State) (cl : Nat) (new v : Word) : State :=
  modCluster (changeModes s cl new) cl (fun c => { c with left := new != v })

/-- A field of CBHEALTH served (R389): a retirement or its end by the procedure of R377; good and erased by themselves. -/
def serveHealth (s : State) (cl : Nat) (new : Word) (bank v : Nat) : State :=
  if v = 2 ∧ bankModeOf new bank ≠ 3 then modCluster s cl (fun c => { c with left := true })
  else if v ≠ 2 ∧ healthOf (getCluster s cl).cbhealth bank ≠ 2 then
    modCluster s cl (fun c => { c with cbhealth := setHealth c.cbhealth bank v })
  else
    modCluster (changeModes s cl new) cl (fun c => { c with left := false, cbhealth := setHealth c.cbhealth bank v })

/-- The result of a BANKMODE written, and its unit goes on, once kd is full and unlocked (R27, R28); until then it waits. -/
def deliverAnswer (s : State) (blk g lane : Nat) : State :=
  match unitWith (getGang s blk g) lane with
  | some u =>
    match u.wait with
    | .answer kd poison v =>
      if kWritable (getGang s blk g) kd.toNat then
        modUnit (modGang s blk g (fun x => writeK x kd.toNat v poison)) blk g lane (fun v => { v with wait := .none })
      else s
    | _ => s
  | none => s

/-- A BANKMODE's unit has its result (R245). -/
def answerUnit (s : State) (cl blk g lane : Nat) : State :=
  match unitWith (getGang s blk g) lane with
  | some u =>
    match u.wait with
    | .bankMode kd poison =>
      deliverAnswer (modUnit s blk g lane (fun v => { v with wait := .answer kd poison (getCluster s cl).cbmode })) blk g lane
    | _ => s
  | none => s

/-- Every result of a BANKMODE that can be written. -/
def deliverAnswers (s : State) : State :=
  (blockList s).foldl (fun s e =>
    (List.range e.2.gangs.length).foldl (fun s g =>
      (gangOf e.2 g).units.foldl (fun s u => deliverAnswer s e.1 g (lowest u.lanes)) s) s) s

/-- A request served with the modes that it leads to. -/
def serveRequest (s : State) (cl : Nat) (new : Word) : BankRequest → State
  | .mode v => serveModes s cl new v
  | .unit v blk g lane _ => answerUnit (serveModes s cl new v) cl blk g lane
  | .health bank v => serveHealth s cl new bank v

/-- The first request of a cluster served: the modes that it leads to are settled as it begins, and the rest follows once the
write-backs of its stage 2 are acknowledged (R376, R377). -/
def serveFirst (s : State) (cl : Nat) : State :=
  let c := getCluster s cl
  match c.requests with
  | [] => s
  | r :: rs =>
    let new := c.change.getD (modesAfter s cl r)
    let t := surrender s cl new
    if backsWait t cl then modCluster t cl (fun c => { c with change := some new })
    else serveRequest (modCluster t cl (fun c => { c with requests := rs, change := none })) cl new r

/-- BANK_MODE_CHANGE (R376, R377): the requests in the order that they have reached the cluster. -/
def execBankModeChange (cluster : Nat) (s : State) : Host.Outcome State Fault Refusal :=
  .next (serveFirst (deliverAnswers s) cluster)

/-- A write of CBREQ (R376, Table 16.1). -/
def requestModes (s : State) (cl : Nat) (value : Word) : State :=
  modCluster s cl (fun c => { c with cbreq := value, requests := c.requests ++ [.mode value] })

/-- CBREQ (R377). -/
def execCbreq (cluster : Nat) (value : BitVec 32) (s : State) : Host.Outcome State Fault Refusal :=
  .next (requestModes s cluster value)

/-! ### Bank health (R389) -/

/-- The health a bank has or is to have once the requests that wait have been served. -/
def healthToCome (c : Cluster) (i : Nat) : Nat :=
  c.requests.foldl (fun h r => match r with | .health b v => if b = i then v else h | _ => h) (healthOf c.cbhealth i)

/-- Whether a request for a bank's health waits. -/
def healthWaits (c : Cluster) (i : Nat) : Bool :=
  c.requests.any (fun r => match r with | .health b _ => b == i | _ => false)

/-- How many banks a write of CBHEALTH asks to have a health. -/
def healthCount (c : Cluster) (value : Dword) (h : Nat) : Nat :=
  ((List.range 18).filter (fun i =>
    let v := healthOf value i
    (if v = 3 ∨ (v = 2 ∧ 16 ≤ i) then healthToCome c i else v) == h)).length

/-- Whether a field of a write of CBHEALTH is refused (R389). -/
def healthRefused (s : State) (cl : Nat) (value : Dword) (i : Nat) : Bool :=
  let c := getCluster s cl
  let v := healthOf value i
  let old := healthToCome c i
  v == 3 || (v == 2 && 16 ≤ i) || (v == 2 && old != 2 && bankModeOf c.cbmode i == 2 && bankBound s cl i) ||
    (v == 1 && old != 1 && 2 < healthCount c value 1) || (v == 2 && old != 2 && 1 < healthCount c value 2)

/-- A write of CBHEALTH (R389): each field by itself; a retirement and its end, and what comes after one that waits, join the
cluster's requests. -/
def writeHealth (s : State) (cl : Nat) (value : Dword) : State :=
  let bad := (List.range 18).filter (healthRefused s cl value)
  let old := getCluster s cl
  modCluster s cl (fun c =>
    (List.range 18).foldl (fun c i =>
      let v := healthOf value i
      if bad.contains i || v == healthToCome old i then c
      else if v == 2 || healthOf old.cbhealth i == 2 || healthWaits old i then { c with requests := c.requests ++ [.health i v] }
      else { c with cbhealth := setHealth c.cbhealth i v }) { c with refused := !bad.isEmpty })

/-- CBHEALTH (R389). -/
def execCbhealth (cluster : Nat) (value : BitVec 64) (s : State) : Host.Outcome State Fault Refusal :=
  .next (writeHealth s cluster value)

/-! ### Clearing logs (R375, R386) -/

/-- The SRAM log cleared. -/
def clearSelog (s : State) (cl : Nat) : State := modCluster s cl (fun c => { c with selog := [], overflow := false })

/-- SELOG_CLEAR (R375). -/
def execSelogClear (cluster : Nat) (s : State) : Host.Outcome State Fault Refusal := .next (clearSelog s cluster)

/-- The array log of a stack cleared. -/
def clearArrayLog (s : State) (k : Nat) : State := modStack s k (fun st => { st with halog := [], arrayOverflow := false })

/-- HLOG_CLEAR_ARRAY (R386). -/
def execHlogClearArray (stack : Nat) (s : State) : Host.Outcome State Fault Refusal := .next (clearArrayLog s stack)

/-- The transfer log of a stack cleared. -/
def clearTransferLog (s : State) (k : Nat) : State :=
  modStack s k (fun st => { st with htlog := [], transferOverflow := false })

/-- HLOG_CLEAR_TRANSFER (R386). -/
def execHlogClearTransfer (stack : Nat) (s : State) : Host.Outcome State Fault Refusal := .next (clearTransferLog s stack)

/-! ### Retries, holds and releases (R382, R383) -/

/-- A transfer log entry (Table 16.4) with its counts and its notification (R386, R387): outcome 1 recovered, 2 held. -/
def logTransfer (s : State) (k pc : Nat) (t : Transfer) (outcome retries : Nat) (lanes : List Nat) : State :=
  let st := getStack s k
  let seq := nextSeq st.hseq
  let w0 := BitVec.ofNat 64 (2 ^ 63 + outcome * 2 ^ 61 + (if t.write then 1 else 0) * 2 ^ 60 + retries * 2 ^ 57 +
    pc * 2 ^ 48 + t.sector * 32 % 2 ^ 40)
  let w1 := BitVec.ofNat 64 (seq.toNat * 2 ^ 32 + t.who * 2 ^ 24 + lanes.length * 2 ^ 16 +
    lanes.getD 0 0xFF * 2 ^ 8 + lanes.getD 1 0xFF)
  let (log, lost) := logPush 16 st.htlog st.transferOverflow (w0, w1)
  let s := modStack s k (fun st =>
    { st with hseq := seq, htlog := log, transferOverflow := lost,
              htrec := if outcome = 1 then satInc st.htrec else st.htrec,
              htheld := if outcome = 2 then satInc st.htheld else st.htheld })
  if st.htlog.length < 16 ∧ (outcome = 2 ∨ st.notify) then notify s 7 (0x2000 + k) w0 w1 else s

/-- A transfer settled for its requester, where that still waits: 1 clean, 2 uncorrectable, 3 failed; all who wait at the
pseudo-channel may ask again, and the write-backs do so. -/
def settleTransfer (s : State) (k pc : Nat) (t : Transfer) (outcome : Nat) : State :=
  drainBacks (modStack s k (fun st =>
    { st with
      xfers := tset none st.xfers pc none
      settled := if st.waiting.contains (pc, t.asker) then
          st.settled ++ [{ sector := t.sector, asker := t.asker, write := t.write, outcome := outcome }]
        else st.settled
      waiting := st.waiting.filter (fun w => w.1 != pc) }))

/-- The outcome of a transfer that has succeeded. -/
abbrev goodOutcome (t : Transfer) : Nat := if t.bad then 2 else 1

/-- The state with a transfer of a pseudo-channel set. -/
def putTransfer (s : State) (k pc : Nat) (t : Transfer) : State :=
  modStack s k (fun st => { st with xfers := tset none st.xfers pc (some t) })

/-- TRANSFER_RETRY (R382): the same sector again, up to four times, with no new array read. -/
def execTransferRetry (stack pc : Nat) (s : State) : Host.Outcome State Fault Refusal :=
  match tget none (getStack s stack).xfers pc with
  | none => .next s
  | some t =>
    if 4 ≤ t.tries ∨ tget false (getStack s stack).holds pc = true then .next s
    else
      match attempt s stack pc t.sector with
      | (true, s) => .next (putTransfer s stack pc { t with tries := t.tries + 1 })
      | (false, s) => .next (settleTransfer (logTransfer s stack pc t 1 (t.tries + 1) []) stack pc t (goodOutcome t))

/-- The lanes that the controller's test finds, rising (R382). -/
def testLanes (s : State) (k pc : Nat) : List Nat := (List.range 36).filter (fun l => (badLanes s k pc).contains l)

/-- PSEUDO_CHANNEL_HOLD (R382): after the fourth failed retry. -/
def execPseudoChannelHold (stack pc : Nat) (s : State) : Host.Outcome State Fault Refusal :=
  match tget none (getStack s stack).xfers pc with
  | none => .next s
  | some t =>
    if t.tries < 4 ∨ tget false (getStack s stack).holds pc = true then .next s
    else
      let lanes := testLanes s stack pc
      let s := modStack s stack (fun st => { st with holds := tset false st.holds pc true })
      .next (logTransfer s stack pc t 2 4 lanes)

/-- All who wait at a pseudo-channel may ask again. -/
def freeChannel (s : State) (k pc : Nat) : State :=
  drainBacks (modStack s k (fun st => { st with waiting := st.waiting.filter (fun w => w.1 != pc) }))

/-- A held pseudo-channel released (R383): the failing transfer starts again. -/
def releaseChannel (s : State) (k pc : Nat) : State :=
  if tget false (getStack s k).holds pc = false then s
  else
    let s := modStack s k (fun st => { st with holds := tset false st.holds pc false })
    match tget none (getStack s k).xfers pc with
    | none => freeChannel s k pc
    | some t =>
      match attempt s k pc t.sector with
      | (true, s) => putTransfer s k pc { t with tries := 0 }
      | (false, s) => settleTransfer s k pc t (goodOutcome t)

/-- HREL_RELEASE (R383). -/
def execHrelRelease (stack pc : Nat) (s : State) : Host.Outcome State Fault Refusal := .next (releaseChannel s stack pc)

/-- A held pseudo-channel failed (R383): its failing access completes as uncorrectable. -/
def failChannel (s : State) (k pc : Nat) : State :=
  if tget false (getStack s k).holds pc = false then s
  else
    let s := modStack s k (fun st => { st with holds := tset false st.holds pc false })
    match tget none (getStack s k).xfers pc with
    | none => freeChannel s k pc
    | some t => settleTransfer s k pc t 3

/-- HREL_FAIL (R383). -/
def execHrelFail (stack pc : Nat) (s : State) : Host.Outcome State Fault Refusal := .next (failChannel s stack pc)

/-! ### Lane swaps (R384, Table 16.5) -/

/-- Whether a write of HSWAPn is taken. -/
def swapOk (v : Word) : Bool :=
  let a := bitsOf v.toNat 29 24
  let b := bitsOf v.toNat 21 16
  let va := v.getLsbD 31
  let vb := v.getLsbD 23
  !((va && vb && a == b) || (va && 35 < a) || (vb && 35 < b))

/-- A write of HSWAPn. -/
def writeSwap (s : State) (k pc : Nat) (v : Word) : State :=
  if swapOk v = false then s
  else modStack s k (fun st => { st with hswap := tset 0 st.hswap pc (v &&& 0xBFBF0000) })

/-- HSWAP (R384). -/
def execHswap (stack pc : Nat) (value : BitVec 32) (s : State) : Host.Outcome State Fault Refusal :=
  .next (writeSwap s stack pc value)

end Sys2Proof.Machine
end

