-- ==== Sys2Proof/Machine/Distributor.lean ====
section
/-! DEFINITION. Host queues, launch records, the landing and completion (spec/12: R304 to R312, R320 to R322), and the
structures of graphs as records name them (R323, R324). -/

namespace Sys2Proof.Machine

/-- Whether the boot has reached stage 3 (R397, R398). -/
def ready (s : State) : Bool := s.mgmt.bootstat.extractLsb' 28 4 == 3

/-! ### Accesses of the distributor (R304, R309, R326) -/

/-- A page-table entry as the distributor reads it, at its home slice (R381). -/
def farPte (pa : Nat) : Errand Nat := do
  if inDevice pa then return leNat (← Errand.ask (fun s => homeReply (homeRead s pa 8 whoDevice))) else return 0

/-- The entry of a 64 KiB range that the distributor uses (R341): a free choice where the sixteen differ. -/
def farRangePte (table idx pte : Nat) : Errand Nat := do
  let s ← get
  if (List.range 16).all (fun i => readPte s (table + 8 * (idx / 16 * 16 + i)) == pte) then return pte
  else
    let n ← Errand.free
    farPte (table + 8 * (idx / 16 * 16 + n % 16))

/-- The walk of the distributor (R304, R341), from a level and table on. -/
def farWalk (va : Nat) : Nat → Nat → Errand Leaf
  | level, table => do
    let idx := bitsOf va (12 + 9 * level + 8) (12 + 9 * level)
    let pte ← farPte (table + 8 * idx)
    if pte.testBit 0 = false ∨ bitsOf pte 50 48 ≠ 0 then Errand.fail
    else if pte.testBit 1 then
      let pte ← if level = 0 ∧ pte.testBit 11 then farRangePte table idx pte else pure pte
      match leafOf pte level with
      | some l => return l
      | none => Errand.fail
    else
      match level with
      | 0 => Errand.fail
      | l + 1 => farWalk va l (bitsOf pte 47 12 * 4096)

/-- Whether the device may use a page in a context, with the permission it needs. -/
def farAllowed (s : State) (l : Leaf) (rd wr : Bool) : Bool :=
  !((rd && !l.r) || (wr && !l.w) || (windowOwner s l).isSome || (l.tier == 2 && !s.link.cxl))

/-- Whether an address lies on a page that the device may use, as the tables now stand. -/
def farPage (s : State) (ctx va : Nat) (rd wr : Bool) : Bool :=
  match targetOf 0 va with
  | .virtual a => (match walk s ctx a with | some l => farAllowed s l rd wr | none => false)
  | _ => false

/-- The page that a device access in a context uses. -/
def farLeaf (ctx va : Nat) (rd wr : Bool) : Errand Leaf := do
  match targetOf 0 va with
  | .virtual a =>
    let l ← farWalk a 4 (getContext (← get) ctx).root.toNat
    if farAllowed (← get) l rd wr then return l else Errand.fail
  | _ => Errand.fail

/-- A request of the device to where a page lies: to a peer it takes a port and a number of its pair (R366). -/
def farSend (va : Nat) (l : Leaf) (f : State → Reply × State) (s : State) : Reply × State :=
  if isPeer l then peerSend s (peerDest l) (peerAddress l va) f else f s

/-- A read of bytes of one sector in a context, at their home. -/
def farRead (ctx va n : Nat) : Errand (List Byte) := do
  let l ← farLeaf ctx va true false
  Errand.ask (farSend va l (fun s => readAtHome s va n whoDevice l))

/-- A read of consecutive bytes by pieces of one sector each: `fuel` bounds the pieces. -/
def farPieces (ctx : Nat) : Nat → Nat → Nat → Errand (List Byte)
  | 0, _, _ => return []
  | fuel + 1, va, n => do
    if n = 0 then return []
    else
      let k := min n (32 - va % 32)
      let bs ← farRead ctx va k
      let more ← farPieces ctx fuel (va + k) (n - k)
      return bs ++ more

/-- A read of a range in a context. -/
def farRange (ctx va n : Nat) : Errand (List Byte) := farPieces ctx (n / 32 + 2) va n

/-- A write of bytes of one sector in a context at their home; one that HREL failed is acknowledged, and the context freezes
(R383, R385). -/
def farWrite (ctx va : Nat) (bs : List Byte) : Errand Unit := do
  let l ← farLeaf ctx va false true
  fun s =>
    match farSend va l (fun s => storeHome s whoDevice va l bs) s with
    | (.bytes _, s) => .ok ((), s)
    | (.failed, s) => .ok ((), freezeCtx s ctx 7 0 0 (BitVec.ofNat 64 va) 0)
    | (.blocked, s) => .error (.waits s)
    | (_, s) => .error (.failed s)

/-! ### Queue registers (R304 to R307) -/

/-- Whether a queue is enabled. -/
abbrev Queue.enabled (q : Queue) : Bool := q.ctl.getLsbD 31
/-- The context of a queue's launches. -/
abbrev Queue.ctx (q : Queue) : Nat := bitsOf q.ctl.toNat 5 0
/-- The weight of a queue. -/
abbrev Queue.weight (q : Queue) : Nat := max 1 (bitsOf q.ctl.toNat 23 16)

/-- A value of QCTL as it is held (Table 12.2). -/
def ctlValue (v : Word) : Word := (v &&& 0xF0FF003F) ||| (if v &&& 0x00FF0000 = 0 then 0x00010000 else 0)

/-- A write of QCTL (R306): setting enable resets QHEAD and QCSEQ. -/
def writeQctl (s : State) (n : Nat) (v : Word) : State :=
  if ready s = false then s
  else
    modQueue s n (fun q =>
      if v.getLsbD 31 ∧ q.enabled = false then { q with ctl := ctlValue v, head := 0, cseq := 0, began := false }
      else { q with ctl := ctlValue v })

/-- QUEUE_ENABLE (R306). -/
def execQueueEnable (q : BitVec 12) (value : BitVec 32) (s : State) : Host.Outcome State Fault Refusal :=
  .next (writeQctl s q.toNat value)

/-- QUEUE_DISABLE (R306): launches already taken go on. -/
def execQueueDisable (q : BitVec 12) (value : BitVec 32) (s : State) : Host.Outcome State Fault Refusal :=
  .next (writeQctl s q.toNat value)

/-- QUEUE_PRIORITY_WEIGHT (R306): the distributor and the cores read QCTL at each decision. -/
def execQueuePriorityWeight (q : BitVec 12) (value : BitVec 32) (s : State) : Host.Outcome State Fault Refusal :=
  .next (writeQctl s q.toNat value)

/-- A write of QTAIL (R307). -/
def writeQtail (s : State) (n : Nat) (v : Word) : State :=
  if ready s then modQueue s n (fun q => { q with tail := v }) else s

/-- QTAIL (R307). -/
def execQtail (q : BitVec 12) (value : BitVec 32) (s : State) : Host.Outcome State Fault Refusal :=
  .next (writeQtail s q.toNat value)

/-- The refusal of a queue cleared (R305, R310). -/
def clearStopped (s : State) (n : Nat) : State :=
  if ready s then modQueue s n (fun q => { q with stopped := false, reason := 0 }) else s

/-- QSTAT_CLEAR_STOPPED (R310). -/
def execQstatClearStopped (q : BitVec 12) (s : State) : Host.Outcome State Fault Refusal :=
  .next (clearStopped s q.toNat)

/-! ### Records and descriptors (R309, R310, Table 12.5) -/

/-- What a record's check gives: the reasons it breaks, or what its launch holds. -/
structure Checked where
  reasons  : List Nat := []
  entry    : Nat := 0
  consts   : Nat := 0
  constLen : Nat := 0
  graph    : Option GraphRun := none
  deriving DecidableEq, Repr

/-- The reasons that a kernel launch's own fields give. -/
def kernelReasons (r : RecordFields) (params : Nat) : List Nat :=
  (if 2 ^ 32 < r.gx * r.gy * r.gz * r.stages then [3] else []) ++
  (if 8 < r.tiles ∨ 8 < r.joins then [4] else []) ++
  (if 768 * 256 < r.lstore ∨ 4096 * 4096 < r.scratch then [5] else []) ++
  (if params % 256 ≠ 0 then [6] else [])

/-- The reasons that every record's fields give: reserved fields, the kind, the next field. -/
def commonReasons (r : RecordFields) : List Nat := if r.resOk = false ∨ r.kind = 3 ∨ r.next % 64 ≠ 0 then [7] else []

/-- A kernel descriptor checked (R310). -/
def checkDescriptor (ctx desc : Nat) : Errand Checked := do
  if desc % 64 ≠ 0 then return { reasons := [2] }
  else
    match ← (farRange ctx desc 64).attempt with
    | none => return { reasons := [2] }
    | some bs =>
      let len := fieldAt bs 24 4
      return { reasons := (if fieldAt bs 0 4 ≠ 0xD6B10001 ∨ 65536 < len then [2] else []) ++
                 (if fieldAt bs 4 4 ≠ 0 ∨ fieldAt bs 28 36 ≠ 0 then [7] else [])
               entry := fieldAt bs 8 8, consts := fieldAt bs 16 8, constLen := len }

/-- A kernel launch's record and descriptor checked. -/
def checkKernel (ctx : Nat) (r : RecordFields) (params : Nat) : Errand Checked := do
  let c ← checkDescriptor ctx r.desc
  return { c with reasons := commonReasons r ++ kernelReasons r params ++ c.reasons }

/-! ### Graphs as they are read (R323, R324) -/

/-- A node of a graph from its bytes, with whether its reserved fields are zero. -/
def nodeOf (bs : List Byte) : GraphNode × Bool :=
  let k := fieldAt bs 0 4
  let kind := bitsOf k 31 28
  ({ kind := kind, first := fieldAt bs 4 4, count := fieldAt bs 8 4, a := fieldAt bs 16 8, b := fieldAt bs 24 8,
     c := fieldAt bs 32 8 },
   bitsOf k 27 0 == 0 && fieldAt bs 12 4 == 0 && fieldAt bs 40 24 == 0 &&
     (kind == 0 || kind == 4 || fieldAt bs 64 64 == 0))

/-- The body of a loop node: its first and last node. -/
abbrev GraphNode.body (n : GraphNode) : Nat × Nat := (bitsOf n.b 15 0, bitsOf n.b 31 16)

/-- Whether a node lies in the body of a loop node. -/
def inBody (n : GraphNode) (k : Nat) : Bool := n.kind == 2 && decide (n.body.1 ≤ k ∧ k ≤ n.body.2)

/-- The loops whose bodies hold a node. -/
def loopsAround (nodes : List GraphNode) (k : Nat) : List Nat :=
  (List.range nodes.length).filter (fun j => match nodes[j]? with | some n => inBody n k | none => false)

/-- Whether a graph breaks R324, its nodes' launch records apart. -/
def graphBreaks (nodes : List GraphNode) (edges : List GraphEdge) (edgeCount : Nat) : Bool :=
  let kindAt (k : Nat) : Nat := ((nodes[k]?).map GraphNode.kind).getD 5
  edges.any (fun e =>
    decide (e.dst ≤ e.src) || kindAt e.dst == 4 || kindAt e.src == 4 || decide (5 ≤ kindAt e.dst) || e.kind == 3 ||
    (e.kind != 0 && kindAt e.src != 3) || loopsAround nodes e.src != loopsAround nodes e.dst) ||
  nodes.any (fun n => decide (5 ≤ n.kind) || decide (edgeCount < n.first + n.count)) ||
  (List.range nodes.length).any (fun j =>
    match nodes[j]? with
    | some n =>
      n.kind == 2 && (decide (n.body.1 ≤ j ∨ n.body.2 < n.body.1 ∨ nodes.length ≤ n.body.2) ||
        decide (4 ≤ (loopsAround nodes j).length))
    | none => false)

/-- The edges that leave each node, with whether their reserved fields are zero. -/
def edgesOf (nodes : List GraphNode) (bs : List Byte) : List GraphEdge × Bool :=
  let es := (List.range nodes.length).flatMap (fun k =>
    match nodes[k]? with
    | some n => (List.range n.count).map (fun j => (k, fieldAt bs (8 * (n.first + j)) 8))
    | none => [])
  (es.map (fun e => { src := e.1, dst := bitsOf e.2 15 0, kind := bitsOf e.2 17 16 }),
   es.all (fun e => e.2 / 2 ^ 18 == 0))

/-- The reasons of the launch records of a graph's kernel and template nodes, checked in turn. -/
def checkNodes (ctx base : Nat) (nodes : List GraphNode) : List Nat → Errand (List Nat)
  | [] => return []
  | k :: ks => do
    let rs ← checkNodes ctx base nodes ks
    let n := nodes.getD k { kind := 5, first := 0, count := 0, a := 0, b := 0, c := 0 }
    if n.kind ≠ 0 ∧ n.kind ≠ 4 then return rs
    else
      match ← (farRange ctx (base + 128 * k + 64) 64).attempt with
      | none => return 8 :: rs
      | some bs =>
        let r := recordFields bs
        let c ← checkKernel ctx r r.params
        return if c.reasons = [] ∧ r.kind = 0 then rs else 8 :: rs

/-- An array of a graph read where its header's fields are in range (Table 12.6): reason 8 where they are not, 2 where it cannot
be read. -/
def graphArray (ctx base len : Nat) (ok : Bool) : Errand (List Nat × List Byte) := do
  if ok = false then return ([8], [])
  else
    match ← (farRange ctx base len).attempt with
    | some bs => return ([], bs)
    | none => return ([2], [])

/-- A graph read and checked (R310, R323, R324): all that it breaks. -/
def checkGraph (ctx hdr : Nat) : Errand Checked := do
  if hdr % 64 ≠ 0 then return { reasons := [2] }
  else
    match ← (farRange ctx hdr 64).attempt with
    | none => return { reasons := [2] }
    | some h =>
      let count := fieldAt h 4 4
      let base := fieldAt h 8 8
      let edgeBase := fieldAt h 16 8
      let edgeCount := fieldAt h 24 4
      if fieldAt h 0 4 ≠ 0xD6B10002 then return { reasons := [2] }
      else
        let (nodeBad, nb) ← graphArray ctx base (128 * count) (decide (1 ≤ count ∧ count ≤ 65535) && multipleOf base 128)
        let (edgeBad, eb) ← graphArray ctx edgeBase (8 * edgeCount) (decide (edgeCount ≤ 2 ^ 20) && multipleOf edgeBase 8)
        let ns := (List.range (nb.length / 128)).map (fun k => nodeOf ((nb.drop (128 * k)).take 128))
        let nodes := ns.map (fun n => n.1)
        let (edges, edgesOk) := if edgeBad = [] then edgesOf nodes eb else ([], true)
        let rs ← checkNodes ctx base nodes (List.range nodes.length)
        return { reasons := nodeBad ++ edgeBad ++
                   (if fieldAt h 28 36 = 0 ∧ edgesOk = true ∧ ns.all (fun n => n.2) = true then [] else [7]) ++
                   (if graphBreaks nodes edges edgeCount then [8] else []) ++ rs
                 graph := some { base := base, nodes := nodes, edges := edges } }

/-- A record checked for a context (R310): its reasons in no order, or what its launch holds. Kinds 1 and 2 ignore the fields of
a kernel launch (R309). -/
def checkRecord (ctx : Nat) (r : RecordFields) (params : Nat) : Errand Checked := do
  match r.kind with
  | 0 => checkKernel ctx r params
  | 1 =>
    let c ← checkGraph ctx r.desc
    return { c with reasons := commonReasons r ++ c.reasons }
  | 2 => return { reasons := commonReasons r }
  | _ => return { reasons := commonReasons r ++ kernelReasons r params }

/-- The lowest of some reasons, 0 for none. -/
def leastReason : List Nat → Nat
  | [] => 0
  | [x] => x
  | x :: xs => min x (leastReason xs)

/-! ### The landing (R312) -/

/-- The chains of a launch's grid. -/
def chainTotal (l : Launch) : Nat := let r := recordFields l.record; if r.kind = 0 then r.gx * r.gy * r.gz else 0

/-- Whether a launch has chains to place: new ones, or saved ones that have returned. -/
def hasUnplaced (s : State) (id : Nat) (l : Launch) : Bool :=
  l.phase == .landed && (decide (l.nextChain < chainTotal l) ||
    (blockList s).any (fun e => e.2.launch == id && (coreOf e.2).isNone && !e.2.ended))

/-- The launches that the landing holds. -/
def landingCount (s : State) : Nat := ((launchList s).filter (fun e => hasUnplaced s e.1 e.2)).length

/-- Whether a dependence of a record holds (R311). -/
def depHolds (s : State) (d : Nat) : Bool :=
  !d.testBit 63 ||
    ((getQueue s (bitsOf d 43 32)).cseq - BitVec.ofNat 32 (bitsOf d 31 0)).toNat < 2 ^ 31

/-- Whether the launch before a launch in its queue lets it into the landing: it is complete, or, under overlap, in the
landing (R312, R321). A node of a graph has none (R325). -/
def followsOn (s : State) (l : Launch) (overlap : Bool) : Bool :=
  (launchList s).all (fun e =>
    let before := match l.origin, e.2.origin with
      | .queue q k, .queue q' k' => q == q' && k == k' + 1
      | .child d k, .child d' k' => d == d' && k == nextSeq k'
      | _, _ => false
    !before || e.2.phase == .complete || (overlap && e.2.phase != .taken))

/-- LANDING_ENTRY (R312). -/
def execLandingEntry (launch : Nat) (s : State) : Host.Outcome State Fault Refusal :=
  match getLaunch s launch with
  | none => .next s
  | some l =>
    let r := recordFields l.record
    let c := getContext s l.ctx
    if l.phase = .taken ∧ depHolds s r.dep0 ∧ depHolds s r.dep1 ∧ followsOn s l r.overlap = true ∧ c.frozen = false ∧
        c.tearing = false ∧ landingCount s < 512 then
      .next (modLaunch s launch (fun l => { l with phase := .landed }))
    else .next s

/-! ### Taking records (R307, R310) -/

/-- A record refused (R310). -/
def refuseRecord (s : State) (q reason addr : Nat) : State :=
  notify (modQueue s q (fun x => { x with stopped := true, reason := BitVec.ofNat 8 reason })) 1 q
    (BitVec.ofNat 64 reason) (BitVec.ofNat 64 addr)

/-- A launch added under a fresh identity. -/
def addLaunch (s : State) (l : Launch) : Nat × State :=
  let (id, s) := freshId s
  (id, setLaunch s id (some l))

/-- The launch that a checked record describes. -/
def launchOf (origin : Origin) (ctx root : Nat) (bs : List Byte) (params : Nat) (c : Checked) : Launch :=
  { origin := origin, ctx := ctx, root := root, record := bs, params := BitVec.ofNat 64 params,
    entry := BitVec.ofNat 64 c.entry, consts := BitVec.ofNat 64 c.consts, constLen := c.constLen, graph := c.graph }

/-- Whether a queue has a record to take. -/
def mayTake (s : State) (n : Nat) : Bool :=
  let q := getQueue s n
  let d := (q.tail - q.head).toNat
  ready s && q.enabled && !q.stopped && decide (1 ≤ d ∧ d ≤ 2 ^ 31 - 1) && decide (landingCount s < 512)

/-- The address of a queue's next record (R307): QBASE until one has been taken. -/
def recordAddress (q : Queue) : Nat := (if q.began then q.nextRec else q.base).toNat

/-- A launch record read and checked at an address (R307, R310, R320): its bytes, what it holds, and the lowest reason that it
breaks; it fails where it cannot be read. `fix` is what a template's use changes of its fields, `params` its parameter block. -/
def readRecord (ctx addr : Nat) (fix : RecordFields → RecordFields) (params : Option Nat) : Errand (List Byte × Checked × Nat) := do
  let bs ← farRange ctx addr 64
  let r := fix (recordFields bs)
  let c ← checkRecord ctx r (params.getD r.params)
  return (bs, c, leastReason ((if addr % 64 ≠ 0 then [7] else []) ++ c.reasons))

/-- RECORD_TAKE (R307, R310): the record is read once and taken, or refused. -/
def execRecordTake (q : BitVec 12) (s : State) : Host.Outcome State Fault Refusal :=
  let n := q.toNat
  if mayTake s n = false then .next s
  else
    let x := getQueue s n
    let addr := recordAddress x
    if (getContext s x.ctx).enable = false then .next (refuseRecord s n 9 addr)
    else
      match runErrand (.record n) (readRecord x.ctx addr id none) s with
      | .waits s => .next s
      | .failed s => .next (refuseRecord s n 1 addr)
      | .done (bs, c, reason) s =>
        if reason ≠ 0 then .next (refuseRecord s n reason addr)
        else
          let r := recordFields bs
          let s := modQueue s n (fun y => { y with head := y.head + 1, began := true, nextRec := BitVec.ofNat 64 r.next })
          .next (addLaunch s (launchOf (.queue n x.head) x.ctx n bs r.params c)).2

/-! ### Child launches (R320 to R322) -/

/-- A completion word written at a physical address for a die (R322); it fails where none lies. -/
def dieWord (pa : Nat) (bs : List Byte) : Errand Unit := fun s =>
  if pa % 4 ≠ 0 ∨ inDevice pa = false then .error (.failed s)
  else
    match homeWrite s pa bs whoDevice with
    | (.blocked, s) => .error (.waits s)
    | (_, s) => .ok ((), s)

/-- The numbers of a die's children published in push order (R321, R322), as far as they have completed; `fuel` bounds
them. A number that teardown dropped is passed over without a write (R345). -/
def publishDie (die : Nat) : Nat → State → State
  | 0, s => s
  | fuel + 1, s =>
    let d := getDie s die
    let seq := nextSeq d.dqseq
    match d.ended.find? (fun e => e.1 == seq) with
    | none => s
    | some (_, written) =>
      let done (s : State) (advance : Bool) : State :=
        publishDie die fuel (modDie s die (fun d =>
          { d with dqseq := if advance then seq else d.dqseq, ended := d.ended.filter (fun e => e.1 != seq) }))
      if written = false then done s true
      else
        match runErrand (.publish (4096 + die)) (dieWord d.dqcpl.toNat (natBytes 4 seq.toNat)) s with
        | .waits s => s
        | .done _ s => done s true
        | .failed s => done (notify s 8 (0x8000 + die) (seq.setWidth 64) d.dqcpl) true

/-- A child has completed: its number is published when its turn comes. -/
def endChild (s : State) (die : Nat) (seq : Word) (written : Bool) : State :=
  let s := modDie s die (fun d => { d with ended := d.ended ++ [(seq, written)], dq := d.dq.filter (fun c => c.seq != seq) })
  publishDie die (getDie s die).ended.length s

/-- A child refused (R320): DQERR if it is empty, the notification, and its completion. -/
def refuseChild (s : State) (die : Nat) (seq : Word) (reason : Nat) : State :=
  let s := modDie s die (fun d =>
    if d.dqerr.getLsbD 63 then d
    else { d with dqerr := BitVec.ofNat 64 (2 ^ 63 + reason * 2 ^ 40 + seq.toNat) })
  endChild (notify s 3 die (getDie s die).dqerr 0) die seq true

/-- The oldest entry of a die's queue that is not in the landing, if its template has not been read (R320). -/
def nextChild (s : State) (die : Nat) : Option Child :=
  let waits (c : Child) : Bool :=
    match c.launch with
    | none => true
    | some l => ((getLaunch s l).map Launch.phase) == some .taken
  match (getDie s die).dq.find? waits with
  | some c => if c.launch = none then some c else none
  | none => none

/-- CHILD_TEMPLATE_READ (R320): the template is read and checked as a record is. -/
def execChildTemplateRead (die : BitVec 1) (s : State) : Host.Outcome State Fault Refusal :=
  match nextChild s die.toNat with
  | none => .next s
  | some ch =>
    let addr := ch.template.toNat
    let params := ch.params.toNat
    match runErrand (.template die.toNat) (readRecord ch.ctx addr (fun r => { r with next := 0 }) (some params)) s with
    | .waits s => .next s
    | .failed s => .next (refuseChild s die.toNat ch.seq 1)
    | .done (bs, c, reason) s =>
      if reason ≠ 0 then .next (refuseChild s die.toNat ch.seq reason)
      else
        let (id, s) := addLaunch s (launchOf (.child die.toNat ch.seq) ch.ctx ch.root bs params c)
        .next (modDie s die.toNat (fun d =>
          { d with dq := d.dq.map (fun c => if c.seq = ch.seq then { c with launch := some id } else c) }))

/-- DQERR cleared (R322). -/
def clearDqerr (s : State) (die : Nat) : State := if ready s then modDie s die (fun d => { d with dqerr := 0 }) else s

/-- DQERR_CLEAR (R322). -/
def execDqerrClear (die : BitVec 1) (s : State) : Host.Outcome State Fault Refusal := .next (clearDqerr s die.toNat)

/-! ### Completion (R308) -/

/-- The completion word of a queue written (R308). -/
def queueWord (q : Queue) (seq : Word) : Errand Unit :=
  if q.cpl.toNat % 4 ≠ 0 then Errand.fail else farWrite q.ctx q.cpl.toNat (natBytes 4 seq.toNat)

/-- The numbers of a queue's complete launches published in order (R308), as far as they go; `fuel` bounds them. A
published launch is gone. -/
def publishQueue (n : Nat) : Nat → State → State
  | 0, s => s
  | fuel + 1, s =>
    let q := getQueue s n
    match (launchList s).find? (fun e => e.2.phase == .complete && e.2.origin == .queue n q.cseq) with
    | none => s
    | some (id, _) =>
      let seq := q.cseq + 1
      let done (s : State) : State :=
        publishQueue n fuel (setLaunch (modQueue s n (fun q => { q with cseq := seq })) id none)
      match runErrand (.publish n) (queueWord q seq) s with
      | .waits s => s
      | .done _ s => done s
      | .failed s => done (notify s 8 n (seq.setWidth 64) q.cpl)

/-- The dirty lines of a launch's context written back in every cluster that held its blocks (R308, item 2). -/
def cleanLaunch (s : State) (l : Launch) : State := l.clusters.foldl (fun s cl => cleanContext s cl (some l.ctx)) s

/-- The read-only lines of a launch gone from the L1s, and its code from the instruction caches (R308, item 3). -/
def settleLines (s : State) (id : Nat) : State :=
  mapCores s (fun c =>
    { c with l1 := c.l1.filter (fun x => x.ro != some id), icache := c.icache.filter (fun x => x.launch != id) })

end Sys2Proof.Machine
end

