-- ==== Sys2Proof/Machine/Graph.lean ====
section
/-! DEFINITION. Graphs on the device (spec/12 12.6: R323 to R326), and the completion of launches (R308, R321, R325). -/

namespace Sys2Proof.Machine

/-! ### Levels and edges (R325) -/

/-- The status of a node. -/
abbrev GraphRun.statusOf (g : GraphRun) (k : Nat) : NodeStatus := tget .pending g.status k
/-- A node by number; a template node where there is none. -/
def GraphRun.node (g : GraphRun) (k : Nat) : GraphNode :=
  g.nodes.getD k { kind := 4, first := 0, count := 0, a := 0, b := 0, c := 0 }
/-- The run with a node's status set. -/
def GraphRun.setStatus (g : GraphRun) (k : Nat) (x : NodeStatus) : GraphRun :=
  { g with status := tset .pending g.status k x }

/-- Whether a node is resolved. -/
def isResolved (g : GraphRun) (k : Nat) : Bool := g.statusOf k == .completed || g.statusOf k == .skipped

/-- The loop whose body holds a node at its own level, `none` for the top level. -/
def levelOf (g : GraphRun) (k : Nat) : Option Nat := (loopsAround g.nodes k).getLast?

/-- Whether every node of a level is resolved; template nodes never run. -/
def levelResolved (g : GraphRun) (level : Option Nat) : Bool :=
  (List.range g.nodes.length).all (fun k => (g.node k).kind == 4 || levelOf g k != level || isResolved g k)

/-- Whether an edge is taken: its source has completed, and its kind holds for the word read then. -/
def edgeTaken (g : GraphRun) (e : GraphEdge) : Bool :=
  g.statusOf e.src == .completed &&
    (e.kind == 0 || (e.kind == 1 && tget 0 g.words e.src != 0) || (e.kind == 2 && tget 0 g.words e.src == 0))

/-- The edges that come into a node. -/
def edgesInto (g : GraphRun) (k : Nat) : List GraphEdge := g.edges.filter (fun e => e.dst == k)

/-- Whether a node's turn has come: it is pending, its level has started, and the sources of its edges are resolved. -/
def isDue (g : GraphRun) (k : Nat) : Bool :=
  (g.node k).kind != 4 && g.statusOf k == .pending && decide (k < g.nodes.length) &&
    (match levelOf g k with | none => true | some j => g.statusOf j == .running) &&
    (edgesInto g k).all (fun e => isResolved g e.src)

/-- Whether a node that is due is skipped: it has edges and none is taken. -/
def isPassedOver (g : GraphRun) (k : Nat) : Bool :=
  !(edgesInto g k).isEmpty && !(edgesInto g k).any (edgeTaken g)

/-- Whether a node is to run. -/
def runsNow (g : GraphRun) (k : Nat) : Bool := isDue g k && !isPassedOver g k

/-- The nodes that are due without a taken edge skipped, in rising order, so that one pass reaches them all: an edge goes
from a lower node to a higher (R324). -/
def skipNodes (g : GraphRun) : GraphRun :=
  (List.range g.nodes.length).foldl (fun g k => if isDue g k && isPassedOver g k then g.setStatus k .skipped else g) g

/-- A node completed, and the nodes that are skipped for it. -/
def completeNode (g : GraphRun) (k : Nat) : GraphRun := skipNodes (g.setStatus k .completed)

/-- The state with a launch's graph changed. -/
def modGraph (s : State) (id : Nat) (f : GraphRun → GraphRun) : State :=
  modLaunch s id (fun l => { l with graph := l.graph.map f })

/-- The graph of a launch that has entered the landing in a context that is neither frozen nor torn down (R342). -/
def graphOf (s : State) (id : Nat) : Option (Launch × GraphRun) :=
  match getLaunch s id with
  | some l =>
    let c := getContext s l.ctx
    if l.phase = .landed ∧ c.frozen = false ∧ c.tearing = false then l.graph.map (fun g => (l, g)) else none
  | none => none

/-! ### Kernel nodes (R325, R326) -/

/-- The record of a launch without blocks. -/
def emptyRecord : List Byte := natBytes 32 0 ++ natBytes 4 (2 * 2 ^ 18) ++ natBytes 28 0

/-- The launch record that a kernel node now holds, checked: the launch's fields; a record that would be refused leaves a
launch without blocks. -/
def readNode (ctx : Nat) (g : GraphRun) (k : Nat) (l : Launch) : Errand Launch := do
  match ← (farRange ctx (g.base + 128 * k + 64) 64).attempt with
  | none => return { l with record := emptyRecord }
  | some bs =>
    let r := recordFields bs
    let c ← checkKernel ctx r r.params
    return if c.reasons = [] ∧ r.kind = 0 then
        { l with record := bs, params := BitVec.ofNat 64 r.params, entry := BitVec.ofNat 64 c.entry,
                 consts := BitVec.ofNat 64 c.consts, constLen := c.constLen }
      else { l with record := emptyRecord }

/-- A launch without blocks for a node, until its record is read. -/
abbrev nodeLaunch (launch node : Nat) (l : Launch) : Launch :=
  { origin := .node launch node, ctx := l.ctx, root := l.root, record := [], params := 0 }

/-- KERNEL_NODE_RUN (R325): the node becomes a launch. -/
def execKernelNodeRun (launch node : Nat) (s : State) : Host.Outcome State Fault Refusal :=
  match graphOf s launch with
  | none => .next s
  | some (l, g) =>
    if (g.node node).kind ≠ 0 ∨ runsNow g node = false then .next s
    else
      match runErrand (.node launch node) (readNode l.ctx g node (nodeLaunch launch node l)) s with
      | .done x s => .next (modGraph (addLaunch s x).2 launch (fun g => g.setStatus node .running))
      | .failed s => .next s
      | .waits s => .next s

/-! ### Copy nodes (R325, R326) -/

/-- How a copy node's work ended: all done, or stopped at an offset by a fault at an address, or waiting. -/
inductive CopyEnd where
  | done
  | fault (o va : Nat)
  | wait (o : Nat)
  deriving DecidableEq, Repr

/-- One piece of a copy node: bytes within one sector of either side; where the ranges overlap, any bytes are written. It answers
the address of a fault. -/
def copyPiece (ctx src dst k : Nat) (overlap : Bool) : Errand (Option Nat) := do
  match ← (farRead ctx src k).attempt with
  | none => return some src
  | some bs =>
    let bs ← if overlap then do let n ← Errand.free; pure (natBytes bs.length n) else pure bs
    match ← (farWrite ctx dst bs).attempt with
    | none => return some dst
    | some _ => return none

/-- A copy node's pieces from an offset on, each made for the node's step; `fuel` bounds them. -/
def copyPieces (who : Asker) (ctx src dst len : Nat) (overlap : Bool) : Nat → Nat → State → CopyEnd × State
  | 0, _, s => (.done, s)
  | fuel + 1, o, s =>
    if len ≤ o then (.done, s)
    else
      let k := min (len - o) (min (32 - (src + o) % 32) (32 - (dst + o) % 32))
      match runErrand who (copyPiece ctx (src + o) (dst + o) k overlap) s with
      | .done none s => copyPieces who ctx src dst len overlap fuel (o + k) s
      | .done (some va) s => (.fault o va, s)
      | .failed s => (.fault o (src + o), s)
      | .waits s => (.wait o, s)

/-- COPY_NODE (R325, R326): the copy goes on from where it stands; a fault freezes the context. -/
def execCopyNode (launch node : Nat) (s : State) : Host.Outcome State Fault Refusal :=
  match graphOf s launch with
  | none => .next s
  | some (l, g) =>
    let n := g.node node
    if n.kind ≠ 1 ∨ (runsNow g node = false ∧ g.statusOf node ≠ .running) then .next s
    else
      let from' := if g.statusOf node = .running then tget 0 g.loops node else 0
      let stay (s : State) (o : Nat) : State :=
        modGraph s launch (fun g => { g.setStatus node .running with loops := tset 0 g.loops node o })
      match copyPieces (.node launch node) l.ctx n.a n.b n.c (decide (n.a < n.b + n.c ∧ n.b < n.a + n.c)) (n.c + 1) from' s with
      | (.done, s) => .next (modGraph s launch (fun g => completeNode { g with loops := tset 0 g.loops node 0 } node))
      | (.wait o, s) => .next (stay s o)
      | (.fault o va, s) => .next (freezeCtx (stay s o) l.ctx 6 0 0 (BitVec.ofNat 64 va) 0)

/-! ### Condition and loop nodes (R325, R326) -/

/-- The word of a condition or loop node; a word that cannot be read is any word. -/
def nodeWord (ctx va : Nat) : Errand Word := do
  match ← (farRange ctx va 4).attempt with
  | some bs => return BitVec.ofNat 32 (leNat bs)
  | none => return BitVec.ofNat 32 (← Errand.free)

/-- CONDITION_NODE (R325). -/
def execConditionNode (launch node : Nat) (s : State) : Host.Outcome State Fault Refusal :=
  match graphOf s launch with
  | none => .next s
  | some (l, g) =>
    if (g.node node).kind ≠ 3 ∨ runsNow g node = false then .next s
    else
      match runErrand (.node launch node) (nodeWord l.ctx (g.node node).a) s with
      | .done w s => .next (modGraph s launch (fun g => completeNode { g with words := tset 0 g.words node w } node))
      | .failed s => .next s
      | .waits s => .next s

/-- The nodes of a loop's body unresolved, and the body issued as a level. -/
def issueBody (g : GraphRun) (node : Nat) : GraphRun :=
  let n := g.node node
  let ks := (List.range g.nodes.length).filter (fun k => inBody n k)
  skipNodes ((ks.foldl (fun g k => g.setStatus k .pending) g).setStatus node .running)

/-- A loop's word read with a count (R325): the node completes, or its body is issued. -/
def readLoop (g : GraphRun) (node count : Nat) (w : Word) : GraphRun :=
  let n := g.node node
  let g := { g with loops := tset 0 g.loops node count }
  if w = 0 ∨ (n.c ≠ 0 ∧ n.c ≤ count) then completeNode { g with loops := tset 0 g.loops node 0 } node
  else issueBody g node

/-- LOOP_NODE (R325): the word is read as the node becomes runnable and again each time its body is resolved. -/
def execLoopNode (launch node : Nat) (s : State) : Host.Outcome State Fault Refusal :=
  match graphOf s launch with
  | none => .next s
  | some (l, g) =>
    let again := g.statusOf node == .running && levelResolved g (some node)
    if (g.node node).kind ≠ 2 ∨ (runsNow g node = false ∧ again = false) then .next s
    else
      match runErrand (.node launch node) (nodeWord l.ctx (g.node node).a) s with
      | .done w s => .next (modGraph s launch (fun g => readLoop g node (if again then tget 0 g.loops node + 1 else 0) w))
      | .failed s => .next s
      | .waits s => .next s

/-! ### Completion (R308, R321, R325) -/

/-- Whether a launch has no more to do: its chains are placed and their blocks have ended, or its graph's top level is
resolved. -/
def isOver (s : State) (id : Nat) (l : Launch) : Bool :=
  l.phase == .landed &&
    (match l.graph with
     | some g => levelResolved g none
     | none => decide (chainTotal l ≤ l.nextChain) && (blockList s).all (fun e => e.2.launch != id))

/-- What a complete launch's origin does with it: its number is published in its queue's or die's order, or its node is
complete. -/
def concludeLaunch (s : State) (id : Nat) (l : Launch) : State :=
  match l.origin with
  | .queue q _ => publishQueue q ((launchList s).length + 1) (modLaunch s id (fun l => { l with phase := .complete }))
  | .child die seq => endChild (setLaunch s id none) die seq true
  | .node g k => modGraph (setLaunch s id none) g (fun x => completeNode x k)

/-- LAUNCH_COMPLETE (R308): the launch's lines are settled, once every write-back is acknowledged, and its completion
concluded; for a launch that is complete or a child that is gone, publication is tried again. -/
def execLaunchComplete (launch : Nat) (s : State) : Host.Outcome State Fault Refusal :=
  match getLaunch s launch with
  | none => .next ([0, 1].foldl (fun s d => publishDie d (getDie s d).ended.length s) s)
  | some l =>
    match l.phase, l.origin with
    | .complete, .queue q _ => .next (publishQueue q ((launchList s).length + 1) s)
    | _, _ =>
      if isOver s launch l = false then .next s
      else
        let s := cleanLaunch s l
        .next (if l.clusters.any (backsWait s) then s else concludeLaunch (settleLines s launch) launch l)

end Sys2Proof.Machine
end

