-- ==== Sys2Proof/Machine/Placement.lean ====
section
/-! DEFINITION. The placement of stage chains (spec/12 12.3: R312 to R317, R348; R18, R20, R34, R272, R338): what fits, where
the registers and windows of a block start, whose turn it is, and the plans that make room. -/

namespace Sys2Proof.Machine

/-! ### Chains -/

/-- The blocks of a chain with their identities, by stage. -/
def chainBlocks (s : State) (launch chain : Nat) : List (Nat × Block) :=
  let bs := (blockList s).filter (fun e => e.2.launch == launch && e.2.chain == chain)
  (List.range 8).flatMap (fun k => bs.filter (fun e => e.2.stage == k))

/-- The first core of the run that holds a chain, `none` for one that is saved. -/
def chainCore (bs : List (Nat × Block)) : Option Nat :=
  bs.head?.bind (fun e => (coreOf e.2).map (fun c => c - e.2.stage))

/-- What a block needs of a core and its cluster (R18, R272, R267); `none` at a stage whose block has ended. -/
structure Need where
  launch  : Nat
  gangs   : Nat
  lstore  : Nat
  tiles   : Nat
  joins   : Nat
  cmds    : Nat
  scratch : Nat
  constLen : Nat
  deriving DecidableEq, Repr

/-- What each block of a launch's record needs. -/
def recordNeed (id : Nat) (l : Launch) : Need :=
  let r := recordFields l.record
  { launch := id, gangs := r.gangs, lstore := r.lstore, tiles := r.tiles, joins := r.joins, cmds := 0, scratch := r.scratch,
    constLen := l.constLen }

/-- The entries of a core's skidder that a block's commands hold. -/
def entriesOf (s : State) (core id : Nat) : List (Nat × Command) :=
  (getCore s core).skid.filterMap (fun e => match e.2 with | some c => if c.block = id then some (e.1, c) else none | none => none)

/-- What a placed or saved block needs: the slots of its gangs that are not released, and an entry for each command. -/
def blockNeed (s : State) (id : Nat) (b : Block) : Need :=
  let n := match getLaunch s b.launch with
    | some l => recordNeed b.launch l
    | none => { launch := b.launch, gangs := 0, lstore := 0, tiles := 0, joins := 0, cmds := 0, scratch := 0, constLen := 0 }
  { n with gangs := (b.gangs.filter (fun g => !g.released)).length
           cmds := match coreOf b with | some c => (entriesOf s c id).length | none => b.cmds.length }

/-! ### Fit (R18, R313) -/

/-- The bytes of the const sections that some blocks hold on a core, each launch's once (R272). -/
def constBytes (ns : List Need) : Nat :=
  ((ns.map (fun n => (n.launch, n.constLen))).eraseDups).foldl (fun k e => k + e.2) 0

/-- Whether a core can hold some blocks together (R18, R272, R165). -/
def coreHolds (ns : List Need) : Bool :=
  let sum (f : Need → Nat) : Nat := ns.foldl (fun k n => k + f n) 0
  decide (ns.length ≤ 16 ∧ sum Need.gangs ≤ 16 ∧ sum Need.lstore ≤ 196608 ∧ sum Need.tiles ≤ 8 ∧ sum Need.joins ≤ 128 ∧
    sum Need.cmds ≤ 48 ∧ constBytes ns ≤ 65536)

/-- The lowest free scratch origin for a size (R267, R313): a multiple of 4 KiB, disjoint from every granted window. -/
def lowestOrigin (space : Nat) (granted : List (Nat × Nat)) (size : Nat) : Option Nat :=
  let free (o : Nat) : Bool := decide (o + size ≤ space) && granted.all (fun g => decide (o + size ≤ g.1 ∨ g.1 + g.2 ≤ o))
  (0 :: granted.map (fun g => g.1 + g.2)).foldl (fun best o =>
    if free o then (match best with | some x => some (min x o) | none => some o) else best) none

/-- The lowest free origins for the stages of a chain, in stage order. -/
def stageOrigins (space : Nat) : List (Nat × Nat) → List (Option Need) → Option (List Nat)
  | _, [] => some []
  | granted, none :: ns => (stageOrigins space granted ns).map (fun os => 0 :: os)
  | granted, some n :: ns =>
    if n.scratch = 0 then (stageOrigins space granted ns).map (fun os => 0 :: os)
    else
      match lowestOrigin space granted n.scratch with
      | none => none
      | some o => (stageOrigins space ((o, n.scratch) :: granted) ns).map (fun os => o :: os)

/-- A chain as it stands on a cluster, for judging what fits: its launch and number, its first core, its stages' needs, the
banks it holds, and its granted windows. -/
structure Standing where
  launch  : Nat
  chain   : Nat
  core    : Nat
  needs   : List (Option Need)
  banks   : List Nat
  windows : List (Nat × Nat)
  deriving DecidableEq, Repr

/-- A block's need, `none` once it has ended. -/
def stageNeed (s : State) (e : Nat × Block) : Option Need := if e.2.ended then none else some (blockNeed s e.1 e.2)

/-- The chains that stand on a cluster. -/
def standings (s : State) (cl : Nat) : List Standing :=
  let here := (blockList s).filter (fun e => e.2.stage == 0 && (coreOf e.2).map clusterOf == some cl)
  here.map (fun e =>
    let bs := chainBlocks s e.2.launch e.2.chain
    { launch := e.2.launch, chain := e.2.chain, core := (chainCore bs).getD 0, needs := bs.map (stageNeed s)
      banks := bs.filterMap (fun x => x.2.bank)
      windows := bs.filterMap (fun x =>
        match stageNeed s x with
        | some n => if n.scratch = 0 then none else some (x.2.origin, n.scratch)
        | none => none) })

/-- The needs at one core of some chains. -/
def needsAt (cs : List Standing) (core : Nat) : List Need :=
  cs.filterMap (fun c => if c.core ≤ core then (c.needs[core - c.core]?).join else none)

/-- The scratch space of a cluster that a chain may be placed in: none while its bank modes change (R379). -/
def openScratch (s : State) (cl : Nat) : Nat :=
  if (getCluster s cl).change.isSome then 0 else scratchSpace (getCluster s cl).cbmode

/-- The FIFO banks of a cluster that some chains leave free: none while its bank modes change (R379). -/
def freeBanks (s : State) (cl : Nat) (cs : List Standing) : List Nat :=
  if (getCluster s cl).change.isSome then [] else
  (banksIn (getCluster s cl).cbmode 2).filter (fun k => !cs.any (fun c => c.banks.contains k))

/-- A place that fits a chain (R313): its first core, its banks and its origins. -/
structure Spot where
  core    : Nat
  banks   : List Nat
  origins : List Nat
  deriving DecidableEq, Repr

/-- Whether a chain fits a run of cores of a cluster beside some chains, and with which banks and origins. -/
def spotAt (s : State) (cl : Nat) (cs : List Standing) (needs : List (Option Need)) (core : Nat) : Option Spot :=
  let holds := (List.range needs.length).all (fun i =>
    match (needs[i]?).join with
    | some n => coreHolds (n :: needsAt cs (core + i))
    | none => true)
  let free := freeBanks s cl cs
  if core % 8 + needs.length ≤ 8 ∧ holds = true ∧ needs.length - 1 ≤ free.length then
    (stageOrigins (openScratch s cl) (cs.flatMap Standing.windows) needs).map (fun os =>
      { core := core, banks := free.take (needs.length - 1), origins := os })
  else none

/-! ### The clusters a launch may take -/

/-- The die that a launch's blocks are bound to (R321): that of the child launch it is or belongs to. -/
def launchDie (s : State) (l : Launch) : Option Nat :=
  match l.origin with
  | .child d _ => some d
  | .node g _ =>
    match (getLaunch s g).map Launch.origin with
    | some (.child d _) => some d
    | _ => none
  | .queue _ _ => none

/-- Whether a plan keeps a launch from its cluster (R315): another launch's, at the same or a higher level, that is acting. -/
def planBars (s : State) (id : Nat) (l : Launch) (p : Plan) : Bool :=
  p.launch != id &&
    (match getLaunch s p.launch with
     | some x => decide (launchPrio s l ≤ launchPrio s x) && !(getContext s x.ctx).frozen
     | none => false)

/-- The clusters where a launch may place a chain: of its die, and with no plan in progress that bars it (R315). -/
def clustersFor (s : State) (id : Nat) (l : Launch) : List Nat :=
  (List.range 40).filter (fun cl =>
    (match launchDie s l with | some d => dieOf cl == d | none => true) &&
      s.plans.all (fun p => p.cluster != cl || !planBars s id l p))

/-- The cores of a cluster, rising. -/
def coresOf (cl : Nat) : List Nat := (List.range 8).map (fun i => 8 * cl + i)

/-- The lowest place that fits a chain of a launch (R313). -/
def findSpot (s : State) (id : Nat) (l : Launch) (needs : List (Option Need)) : Option Spot :=
  (clustersFor s id l).findSome? (fun cl =>
    let cs := standings s cl
    (coresOf cl).findSome? (spotAt s cl cs needs))

/-! ### Const sections (R272) -/

/-- Whether a launch has a block on a core that has not ended. -/
def residentOn (s : State) (core launch : Nat) : Bool := (blocksOn s core).any (fun e => e.2.launch == launch && !e.2.ended)

/-- The bytes of a launch's const section; bytes that cannot be read are any bytes. -/
def constSection (l : Launch) : Errand (List Byte) := do
  match ← (farRange l.ctx l.consts.toNat l.constLen).attempt with
  | some bs => return bs
  | none => return natBytes l.constLen (← Errand.free)

/-- A core with a launch's const section, loaded unless it is resident. -/
def loadConsts (s : State) (core launch : Nat) (bs : List Byte) : State :=
  if residentOn s core launch then s
  else modCore s core (fun c => { c with consts := tset [] c.consts launch bs })

/-- A core without a launch's const section, where no block of the launch is left on it. -/
def dropConsts (s : State) (core launch : Nat) : State :=
  if residentOn s core launch then s else modCore s core (fun c => { c with consts := tset [] c.consts launch [] })

/-! ### Slots and windows -/

/-- The slots of a core that are free, rising. -/
def freeSlots (s : State) (core : Nat) : List Nat :=
  let used := (blocksOn s core).flatMap (fun e => (e.2.gangs.filter (fun g => !g.released)).map Gang.slot)
  (List.range 16).filter (fun k => !used.contains k)

/-- Gangs given the slots of a list in turn, their last issue the moment of placement (R318). -/
def seatGangs : List Gang → List Nat → Nat → List Gang
  | [], _, _ => []
  | g :: gs, slots, moment =>
    let g' := { g with units := g.units.map (fun u => { u with lastIssue := moment }) }
    if g.released then g' :: seatGangs gs slots moment
    else { g' with slot := slots.headD 0 } :: seatGangs gs (slots.drop 1) moment

/-- The stacked SRAM sectors of a bank, or of a scratch range, written afresh (R388). -/
def freshSram (s : State) (cl : Nat) (banks : List Nat) (origin size : Nat) : State :=
  if s.phys.sram.isEmpty then s
  else
    let sb := banksIn (getCluster s cl).cbmode 1
    let inRange (k : Nat) : Bool :=
      let bank := k / 2 ^ 15 % 18
      k / 2 ^ 15 / 18 == cl && (banks.contains bank ||
        (match sb.findIdx? (· == bank) with
         | some j => let o := j * 2 ^ 20 + k % 2 ^ 15 * 32; decide (origin ≤ o ∧ o < origin + size)
         | none => false))
    { s with phys := { s.phys with sram := s.phys.sram.filter (fun e => !inRange e.1) } }

/-! ### A new chain (R34, R23) -/

/-- The gangs of a new block (R34, Table 1.4): k0 to k6, the handler's address, every launched thread live at the entry. -/
def newGangs (l : Launch) (r : RecordFields) (x y z stage : Nat) : List Gang :=
  let lin := x + r.gx * (y + r.gy * (z + r.gz * stage))
  let ks : List Word := [lo32 l.params, hi32 l.params, BitVec.ofNat 32 x, BitVec.ofNat 32 y, BitVec.ofNat 32 z,
    BitVec.ofNat 32 stage, BitVec.ofNat 32 lin]
  (List.range r.gangs).map (fun g =>
    let n := if g + 1 = r.gangs then r.lastLanes else 32
    let lanes := (List.range n).map (fun i => (i, ({ cond := .live } : Thread)))
    writeKs { slot := 0, trapbase := BitVec.ofNat 64 r.handler, threads := lanes
              units := [{ lanes := maskWhere (fun i => decide (i < n)), pc := resumeAt (rpAddr l.entry) 15, fresh := true }] }
      0 ks false)

/-- A block of a chain that begins. -/
def newBlock (id : Nat) (l : Launch) (chain stage : Nat) (p : Spot) (slots : List Nat) (moment : Nat) : Block :=
  let r := recordFields l.record
  let x := chain % r.gx
  let y := chain / r.gx % r.gy
  let z := chain / (r.gx * r.gy)
  { launch := id, ctx := l.ctx, x := x, y := y, z := z, stage := stage, chain := chain, place := .core (p.core + stage)
    gangs := seatGangs (newGangs l r x y z stage) slots moment, origin := p.origins.getD stage 0, bank := p.banks[stage]? }

/-- The device-scope acquire before a launch's first block on a cluster (R312). -/
def firstOnCluster (s : State) (id cl : Nat) (l : Launch) : State :=
  if l.clusters.contains cl then s
  else modLaunch (placementAcquire s cl l.ctx) id (fun l => { l with clusters := l.clusters ++ [cl] })

/-- The entry of a child in its die's queue, freed as its launch's first block is placed (R320). -/
def freeChildEntry (s : State) (id : Nat) (l : Launch) : State :=
  let root := match l.origin with | .node g _ => g | _ => id
  [0, 1].foldl (fun s d => modDie s d (fun x => { x with dq := x.dq.filter (fun c => c.launch != some root) })) s

/-- A new chain placed. -/
def placeNew (s : State) (id : Nat) (l : Launch) (p : Spot) (bs : List Byte) : State :=
  let cl := clusterOf p.core
  let stages := (recordFields l.record).stages
  let s := freeChildEntry (firstOnCluster s id cl l) id l
  let (n, s) := freshId s
  let s := (List.range stages).foldl (fun s k =>
    let b := newBlock id l l.nextChain k p (freeSlots s (p.core + k)) (n + 1)
    let s := loadConsts s (p.core + k) id bs
    let s := freshSram s cl b.bank.toList b.origin (recordFields l.record).scratch
    let (m, s) := freshId s
    setBlock s m (some b)) s
  modLaunch s id (fun l => { l with nextChain := l.nextChain + 1 })

/-! ### A saved or migrated chain restored (R338, R348, R317) -/

/-- A handle after a command has moved to another entry. -/
def renamed (names : List (Nat × Nat)) (h : Nat) : Nat := ((names.find? (fun e => e.1 == h)).map (fun e => e.2)).getD h

/-- A word whose bits 5 to 0 are a handle, after the move. -/
def renameHandle (names : List (Nat × Nat)) (w : Word) : Word :=
  BitVec.ofNat 32 (w.toNat / 64 * 64 + renamed names (w.toNat % 64))

/-- Whether a cause records a handle in sys.taux0: ASYNC_COPY_FAULT and FQ_OVERFLOW (Table 13.1). -/
def namesHandle (cause : BitVec 8) : Bool := cause == 0x0A || cause == 0x18

/-- A thread's records of its commands' faults after the commands have moved (R338). -/
def renameThread (names : List (Nat × Nat)) (t : Thread) : Thread :=
  let fix (x : Trap) : Trap := if namesHandle x.cause then { x with aux0 := renameHandle names x.aux0 } else x
  { t with taux0 := if t.handler ∧ namesHandle (t.tcause.setWidth 8) = true then renameHandle names t.taux0 else t.taux0
           deferred := t.deferred.map fix, stalled := t.stalled.map fix }

/-- A block's records of its commands' handles after they have moved (R338). -/
def renameBlock (names : List (Nat × Nat)) (b : Block) : Block :=
  { b with gangs := b.gangs.map (fun g =>
      { g with threads := g.threads.map (fun e => (e.1, renameThread names e.2))
               faultq := g.faultq.map (fun x => { x with handle := renamed names x.handle }) }) }

/-- The commands saved with a block given entries of its core's skidder: the new names of the old entries. -/
def seatCommands (s : State) (core : Nat) : List (Nat × Command) → List (Nat × Nat) × State
  | [] => ([], s)
  | (old, c) :: rest =>
    match freeEntry (getCore s core) with
    | none => ([], s)
    | some e =>
      let (names, s) := seatCommands (setEntry s core e (some c)) core rest
      ((old, e) :: names, s)

/-- A block put on a core again: slots, commands, and its records of their handles. -/
def seatBlock (s : State) (id : Nat) (core origin : Nat) (bank : Option Nat) (moment : Nat) : State :=
  match getBlock s id with
  | none => s
  | some b =>
    let (names, s) := seatCommands s core b.cmds
    let b := renameBlock names b
    let b := { b with place := .core core, origin := origin, bank := bank, cmds := [], saveReq := false
                      gangs := seatGangs b.gangs (freeSlots s core) moment }
    setBlock s id (some b)

/-- What a restoration does on its target (R348): the core's L1 invalidated, the cluster's generation advanced, and, on
another cluster than the source, the local lines of the context written back and removed. -/
def restoreAcquire (s : State) (core source ctx : Nat) : State :=
  let cl := clusterOf core
  let s := advanceGeneration (l1Invalidate s core) cl
  if cl = source then s else writeBackWhere s cl (fun _ l => l.ctx == ctx && !l.shared) false

/-- A saved chain placed again. -/
def placeSaved (s : State) (id : Nat) (l : Launch) (es : List (Nat × Block)) (p : Spot) (bs : List Byte) : State :=
  let cl := clusterOf p.core
  let s := firstOnCluster s id cl l
  let (n, s) := freshId s
  es.foldl (fun s e =>
    let k := e.2.stage
    let s := restoreAcquire s (p.core + k) (blockCluster e.2) l.ctx
    let s := if e.2.ended then s else loadConsts s (p.core + k) id bs
    let s := freshSram s cl (p.banks[k]?).toList (p.origins.getD k 0) (if e.2.ended then 0 else (recordFields l.record).scratch)
    seatBlock s e.1 (p.core + k) (p.origins.getD k 0) (p.banks[k]?) (n + 1)) s

/-! ### The next chain of a launch -/

/-- The chain that a launch places next: a saved one ahead of the others (R316), or a new one. -/
inductive NextChain where
  | saved (blocks : List (Nat × Block))
  | new
  deriving DecidableEq, Repr

/-- The next chain of a launch (R313, R316). -/
def nextChainOf (s : State) (id : Nat) (l : Launch) : Option NextChain :=
  let saved := ((blockList s).filter (fun e => e.2.launch == id && (coreOf e.2).isNone && !e.2.ended)).map (fun e => e.2.chain)
  match saved with
  | c :: cs => some (.saved (chainBlocks s id (cs.foldl min c)))
  | [] => if l.nextChain < chainTotal l then some .new else none

/-- What the stages of a chain need. -/
def chainNeeds (s : State) (id : Nat) (l : Launch) : NextChain → List (Option Need)
  | .saved bs => bs.map (stageNeed s)
  | .new => List.replicate (recordFields l.record).stages (some (recordNeed id l))

/-- A kernel node's launch as it is read again before its first block is placed (R326). -/
def refreshNode (id : Nat) (l : Launch) : Errand Launch := do
  match l.origin with
  | .node g k =>
    match (getLaunch (← get) g).bind Launch.graph with
    | none => return l
    | some x =>
      if l.nextChain ≠ 0 then return l
      else
        let l ← readNode l.ctx x k l
        modify (fun s => setLaunch s id (some l))
        return l
  | _ => return l

/-- A chain placed at a spot, with its const section. -/
def placeAt (id : Nat) (l : Launch) (n : NextChain) (p : Spot) : Errand Unit := do
  let bs ← constSection l
  modify (fun s =>
    match n with
    | .saved es => placeSaved s id l es p bs
    | .new => placeNew s id l p bs)

/-- The next chain of a launch placed where it fits; it fails where it fits nowhere. -/
def tryPlace (id : Nat) : Errand Unit := do
  match getLaunch (← get) id with
  | none => Errand.fail
  | some l =>
    let l ← refreshNode id l
    let s ← get
    match nextChainOf s id l with
    | none => return ()
    | some n =>
      match findSpot s id l (chainNeeds s id l n) with
      | some p => placeAt id l n p
      | none => Errand.fail

/-! ### Save areas (R346, R347, Table 13.4) -/

/-- The links of a block's chain that meet the block (R268). -/
def linksOf (r : RecordFields) (stage : Nat) : Nat := (if stage = 0 then 0 else 1) + (if stage + 1 < r.stages then 1 else 0)

/-- The bytes of a block's record (Table 13.4); the windows are left out when it moves within its cluster. A block that has
ended before its chain holds its links only (R314). -/
def recordSize (s : State) (id : Nat) (b : Block) (moves : Bool) : Nat :=
  let r := blockRecord s b
  let links := if moves then 0 else linksOf r b.stage * 2 ^ 20
  if b.ended then 256 + links
  else
    let joins := (List.range r.joins).foldl (fun n j =>
      n + 32 + (match (tget ({} : JoinReg) b.joins j).kind with | .command _ _ => 128 | _ => 0)) 0
    let threads := (b.gangs.map (fun g => (g.threads.filter (fun e => e.2.cond != .never)).length)).foldl (· + ·) 0
    256 + 2560 * b.gangs.length + 448 * threads + joins + 16384 * r.tiles + r.lstore +
      64 * (match coreOf b with | some c => (entriesOf s c id).length | none => b.cmds.length) +
      (if moves then 0 else scratchSize s b) + links

/-- The records that a context's save area holds: offset and size. -/
def savedRecords (s : State) (ctx : Nat) : List (Nat × Nat) :=
  (blockList s).filterMap (fun e =>
    match e.2.place with
    | .saved o n _ => if e.2.ctx = ctx then some (o, n) else none
    | _ => none)

/-- The lowest free place for a record in a save area of some bytes: a multiple of 256. -/
def recordPlace (area : Nat) (held : List (Nat × Nat)) (size : Nat) : Option Nat :=
  lowestOrigin area (held.map (fun e => (e.1, (e.2 + 255) / 256 * 256))) size

/-- The offsets of the records of some blocks, with their sizes; `none` where they do not all fit. -/
def recordPlaces (s : State) (area : Nat) (moves : Bool) : List (Nat × Nat) → List (Nat × Block) → Option (List (Nat × Nat))
  | _, [] => some []
  | held, e :: es =>
    let n := recordSize s e.1 e.2 moves
    match recordPlace area held n with
    | none => none
    | some o => (recordPlaces s area moves ((o, n) :: held) es).map (fun xs => (o, n) :: xs)

/-- Whether a page of a context can be written by the device, for every 4 KiB of a range. -/
def areaWritable (s : State) (ctx base n : Nat) : Bool :=
  (List.range ((n + 4095) / 4096 + 1)).all (fun i => farPage s ctx (base + min (4096 * i) (n - 1)) false true)

/-- The places of a chain's records in its context's save area, which must be written there. -/
def chainRecords (s : State) (bs : List (Nat × Block)) (moves : Bool) : Option (List (Nat × Nat)) :=
  match bs with
  | [] => some []
  | e :: _ =>
    let c := getContext s e.2.ctx
    match recordPlaces s (c.ssz.toNat * 4096) moves (savedRecords s e.2.ctx) bs with
    | some ps => if ps.all (fun p => areaWritable s e.2.ctx (c.save.toNat + p.1) p.2) then some ps else none
    | none => none

/-- Whether a requester of a home slice belongs to a block: one of its operations, commands, fetches or units; or a walk that its
cluster makes in its context. -/
def asksFor (s : State) (id : Nat) (b : Block) : Asker → Bool
  | .access n _ => (match getOp s n with | some o => o.block == id | none => false)
  | .command blk _ => blk == id
  | .unit blk _ _ => blk == id
  | .fetch blk _ => blk == id
  | .walk cl ctx _ => cl == blockCluster b && ctx == b.ctx
  | _ => false

/-- Whether a block has an access outstanding to a held pseudo-channel (R383), its commands' and fetches' among them. -/
def onHeldChannel (s : State) (id : Nat) : Bool :=
  match getBlock s id with
  | none => false
  | some b => s.hbmStacks.any (fun k => k.2.waiting.any (fun w => tget false k.2.holds w.1 && asksFor s id b w.2))

/-- Whether a chain can be saved, or moved within its cluster (R346, R383). -/
def chainSavable (s : State) (bs : List (Nat × Block)) (moves : Bool) : Bool :=
  bs.all (fun e => !onHeldChannel s e.1 && !e.2.saveReq && !(getContext s e.2.ctx).tearing) && (chainRecords s bs moves).isSome

/-! ### Plans (R316) -/

/-- What a plan does with a chain of a cluster. -/
inductive Fate where
  | stays
  | leaves
  | moves (core : Nat)
  deriving DecidableEq, Repr

/-- A chain of a cluster with what a plan may do with it: save it, or move it within the cluster. -/
structure Candidate where
  stand  : Standing
  leaves : Bool
  moves  : Bool
  deriving DecidableEq, Repr

/-- The chains of a cluster as a plan for a launch of a priority finds them: those that nothing can be done with first. -/
def candidates (s : State) (prio cl : Nat) : List Candidate :=
  let cs := (standings s cl).map (fun c =>
    let bs := chainBlocks s c.launch c.chain
    let p := ((getLaunch s c.launch).map (launchPrio s)).getD 0
    { stand := c, leaves := decide (p < prio) && chainSavable s bs false
      moves := decide (p ≤ prio) && chainSavable s bs true : Candidate })
  let flexible := cs.filter (fun c => c.leaves || c.moves)
  cs.filter (fun c => !c.leaves && !c.moves) ++
    ((flexible.map (fun c => c.stand.needs)).eraseDups).flatMap (fun ns => flexible.filter (fun c => c.stand.needs == ns))

/-- The first cores that a moved chain may take: a run inside its cluster. -/
def runsOf (c : Standing) : List Nat := (coresOf (clusterOf c.core)).filter (fun k => decide (k % 8 + c.needs.length ≤ 8))

/-- Whether a fate is open to a chain. -/
def fateOpen (c : Candidate) : Fate → Bool
  | .stays => true
  | .leaves => c.leaves
  | .moves k => c.moves && k != c.stand.core && (runsOf c.stand).contains k

/-- The chains as they stand after some fates. -/
def after (fs : List (Standing × Fate)) : List Standing :=
  fs.filterMap (fun e =>
    match e.2 with
    | .stays => some e.1
    | .leaves => none
    | .moves k => some { e.1 with core := k })

/-- The blocks of a chain that have not ended. -/
def liveStages (c : Standing) : Nat := (c.needs.filter Option.isSome).length

/-- The counts of a plan: blocks saved, then blocks moved. -/
def planCost (fs : List (Standing × Fate)) : Nat × Nat :=
  fs.foldl (fun n e =>
    match e.2 with
    | .stays => n
    | .leaves => (n.1 + liveStages e.1, n.2)
    | .moves _ => (n.1, n.2 + liveStages e.1)) (0, 0)

/-- Whether the cores of a cluster hold what stands on them after some fates. -/
def clusterHolds (cl : Nat) (cs : List Standing) : Bool := (coresOf cl).all (fun k => coreHolds (needsAt cs k))

/-- Whether some fates make room for a chain at a run, with every fate open to its chain. -/
def planFits (s : State) (cl core : Nat) (needs : List (Option Need)) (cands : List Candidate) (fs : List (Standing × Fate)) : Bool :=
  fs.map (fun e => e.1) == cands.map Candidate.stand && (cands.zip fs).all (fun e => fateOpen e.1 e.2.2) &&
    clusterHolds cl (after fs) && (spotAt s cl (after fs) needs core).isSome

/-- How many more blocks of a need a core could take beside some: a bound from the resources that add up. -/
def roomFor (n : Need) (ns : List Need) : Nat :=
  let sum (f : Need → Nat) : Nat := ns.foldl (fun k n => k + f n) 0
  let part (f : Need → Nat) (cap best : Nat) : Nat := if f n = 0 then best else min best ((cap - sum f) / f n)
  part Need.gangs 16 (part Need.lstore 196608 (part Need.tiles 8 (part Need.joins 128 (part Need.cmds 48 (16 - ns.length)))))

/-- Whether the cores of a cluster might take the chains like one chain that are left to place. -/
def roomAhead (cl : Nat) (c : Candidate) (rest : List Candidate) (placed : List Standing) : Bool :=
  let like := (rest.filter (fun d => d.stand.needs == c.stand.needs)).length + 1
  (c.stand.needs.eraseDups).all (fun n =>
    match n with
    | none => true
    | some n => decide (like * (c.stand.needs.filter (· == some n)).length ≤
        (coresOf cl).foldl (fun k core => k + roomFor n (needsAt placed core)) 0))

/-- Whether a chain may stand at a core beside those placed. -/
def fitsBeside (placed : List Standing) (c : Standing) (core : Nat) : Bool :=
  (List.range c.needs.length).all (fun i =>
    match (c.needs[i]?).join with
    | some n => coreHolds (n :: needsAt placed (core + i))
    | none => true)

/-- Whether the cores of a cluster together have the resources that add up for some chains. -/
def roomInAll (cs : List Standing) : Bool :=
  let ns := cs.flatMap (fun c => c.needs.filterMap id)
  let sum (f : Need → Nat) : Nat := ns.foldl (fun k n => k + f n) 0
  decide (ns.length ≤ 128 ∧ sum Need.gangs ≤ 128 ∧ sum Need.lstore ≤ 1572864 ∧ sum Need.tiles ≤ 64 ∧ sum Need.joins ≤ 1024 ∧
    sum Need.cmds ≤ 384)

/-- Whether two chains can change places in a plan; where moves are free of cost, even between cores. -/
def alike (free : Bool) (c d : Candidate) : Bool :=
  c.stand.needs == d.stand.needs && c.moves == d.moves && c.leaves == d.leaves &&
    (c.stand.core == d.stand.core || (free && c.moves))

/-- The first cores that a chain need try after the chain placed last: two chains that can change places are tried in one
order only. -/
def coresToTry (free : Bool) (prev : Option (Candidate × Nat)) (c : Candidate) : List Nat :=
  let own := c.stand.core
  let cores := if c.moves = false then [own] else if free then runsOf c.stand else own :: (runsOf c.stand).filter (· != own)
  match prev with
  | some (d, k) =>
    if alike free c d = true ∧ (free = true ∨ k ≠ own) then cores.filter (fun x => decide (k ≤ x ∧ (free = true ∨ x ≠ own)))
    else cores
  | none => cores

/-- First cores for the chains that a plan does not save, beside those placed, with at most `budget` blocks moved, or any
number where moves are free. -/
def seatChains (free : Bool) (cl : Nat) :
    List Candidate → List Standing → Nat → Option (Candidate × Nat) → Option (List (Standing × Fate))
  | [], _, _, _ => some []
  | c :: rest, placed, budget, prev =>
    if roomAhead cl c rest placed then
      (coresToTry free prev c).findSome? (fun k =>
        let cost := if k = c.stand.core ∨ free = true then 0 else liveStages c.stand
        if cost ≤ budget ∧ fitsBeside placed c.stand k = true then
          (seatChains free cl rest ({ c.stand with core := k } :: placed) (budget - cost) (some (c, k))).map (fun fs =>
            (c.stand, if k = c.stand.core then Fate.stays else Fate.moves k) :: fs)
        else none)
    else none

/-- A plan with exactly `saved` blocks saved whose other chains find places, among the choices of the chains to save. Of two
chains that can change places and have no windows, the first is saved. -/
def leaveChains (free : Bool) (find : List Candidate → Option (List (Standing × Fate))) :
    List Candidate → List Candidate → Nat → Option (List (Standing × Fate))
  | [], kept, saved => if saved = 0 then find kept.reverse else none
  | c :: rest, kept, saved =>
    let n := liveStages c.stand
    let second := match kept with | d :: _ => alike free c d && c.stand.windows.isEmpty && d.stand.windows.isEmpty | [] => false
    if saved = 0 then find (kept.reverse ++ c :: rest)
    else
      (if c.leaves = true ∧ second = false ∧ n ≤ saved then
        (leaveChains free find rest kept (saved - n)).map (fun fs => (c.stand, Fate.leaves) :: fs) else none).or
        (leaveChains free find rest (c :: kept) saved)

/-- A plan for a chain at a run with exactly `saved` blocks saved and at most `moved` moved, or any number where free. -/
def planWithin (free : Bool) (s : State) (cl core : Nat) (needs : List (Option Need)) (cands : List Candidate) (saved moved : Nat) :
    Option (List (Standing × Fate)) :=
  let new : Standing := { launch := 0, chain := 0, core := core, needs := needs, banks := [], windows := [] }
  leaveChains free (fun kept =>
    let cs := kept.map Candidate.stand
    if needs.length - 1 ≤ (freeBanks s cl cs).length ∧ roomInAll (new :: cs) = true ∧
        (stageOrigins (openScratch s cl) (cs.flatMap Standing.windows) needs).isSome = true then
      seatChains free cl kept [new] moved none
    else none) cands [] saved

/-- A run of cores that a plan might make fit, with the chains of its cluster. -/
structure CoreRun where
  cluster : Nat
  core    : Nat
  cands   : List Candidate
  deriving DecidableEq, Repr

/-- The runs where something can be saved or moved, by cluster and core. -/
def runsFor (s : State) (id : Nat) (l : Launch) (stages : Nat) : List CoreRun :=
  (clustersFor s id l).flatMap (fun cl =>
    let cs := candidates s (launchPrio s l) cl
    if cs.any (fun c => c.leaves || c.moves) then
      ((coresOf cl).filter (fun k => decide (k % 8 + stages ≤ 8))).map (fun k => { cluster := cl, core := k, cands := cs })
    else [])

/-- The blocks of some chains. -/
def blockCount (cs : List Candidate) : Nat := cs.foldl (fun n c => n + liveStages c.stand) 0

/-- The least number of blocks saved by a plan for a run; saving every chain that can be saved makes the most room. -/
def leastSaved (s : State) (needs : List (Option Need)) (r : CoreRun) : Option Nat :=
  let most := blockCount (r.cands.filter Candidate.leaves)
  let fits (n : Nat) : Bool := (planWithin true s r.cluster r.core needs r.cands n 0).isSome
  if fits most then (List.range (most + 1)).find? fits else none

/-- The chosen run with a best plan for it (R316): the fewest saved, then moved, then the lowest cluster, then the lowest
core. -/
def chosenRun (s : State) (id : Nat) (l : Launch) (needs : List (Option Need)) : Option (CoreRun × List (Standing × Fate)) :=
  let runs := (runsFor s id l needs.length).filterMap (fun r => (leastSaved s needs r).map (fun n => (r, n)))
  match runs with
  | [] => none
  | r :: rs =>
    let least := rs.foldl (fun n x => min n x.2) r.2
    let best := (runs.filter (fun x => x.2 == least)).map (fun x => x.1)
    let most := best.foldl (fun n r => max n (blockCount (r.cands.filter Candidate.moves))) 0
    (List.range (most + 1)).findSome? (fun moved =>
      best.findSome? (fun r => (planWithin false s r.cluster r.core needs r.cands least moved).map (fun fs => (r, fs))))

/-- The fates that a free number proposes for some chains, one decimal digit each. -/
def proposed : Nat → List Candidate → List (Standing × Fate)
  | _, [] => []
  | k, c :: cs =>
    let d := k % 10
    (c.stand, if d = 0 then Fate.stays else if d = 9 then Fate.leaves else .moves (8 * clusterOf c.stand.core + (d - 1))) ::
      proposed (k / 10) cs

/-- The plan as the state holds it. -/
def planOf (s : State) (id chain core : Nat) (fs : List (Standing × Fate)) : Plan :=
  let blocks (c : Standing) : List (Nat × Block) := chainBlocks s c.launch c.chain
  { launch := id, chain := chain, cluster := clusterOf core, core := core
    saves := fs.flatMap (fun e => if e.2 = .leaves then (blocks e.1).map (fun b => b.1) else [])
    moves := fs.flatMap (fun e => match e.2 with | .moves k => (blocks e.1).map (fun b => (b.1, k + b.2.stage)) | _ => []) }

/-- A plan taken up: its blocks are to be saved at their next run boundary. -/
def startPlan (s : State) (p : Plan) : State :=
  let s := (p.saves ++ p.moves.map (fun m => m.1)).foldl (fun s b => modBlock s b (fun b => { b with saveReq := true })) s
  { s with plans := s.plans ++ [p] }

/-- A plan given up: the blocks that it still asks for stay. -/
def dropPlan (s : State) (p : Plan) : State :=
  let s := (p.saves ++ p.moves.map (fun m => m.1)).foldl (fun s b => modBlock s b (fun b => { b with saveReq := false })) s
  { s with plans := s.plans.filter (fun q => q.launch != p.launch) }

/-- The state without the plans of lower levels than a launch's on some clusters: its own plan looks past them (R316). -/
def clearBelow (s : State) (id : Nat) (l : Launch) (on : Nat → Bool) : State :=
  (s.plans.filter (fun p => p.launch != id && on p.cluster && !planBars s id l p)).foldl dropPlan s

/-- A plan made for a launch whose next chain fits nowhere; it fails where no run would fit. Any of the best plans may be
taken: a free number may propose one. -/
def makePlan (id : Nat) : Errand Unit := do
  match getLaunch (← get) id with
  | none => Errand.fail
  | some l =>
    let l ← refreshNode id l
    let s ← get
    match nextChainOf s id l with
    | none => Errand.fail
    | some n =>
      let needs := chainNeeds s id l n
      let open_ := clearBelow s id l (fun _ => true)
      match findSpot s id l needs, chosenRun open_ id l needs with
      | none, some (r, fs) =>
        let k ← Errand.free
        let other := proposed k r.cands
        let fs := if planCost other = planCost fs ∧ planFits open_ r.cluster r.core needs r.cands other = true then other else fs
        let chain := match n with | .saved bs => ((bs.head?).map (fun e => e.2.chain)).getD 0 | .new => l.nextChain
        modify (fun s => startPlan (clearBelow s id l (fun cl => cl == r.cluster)) (planOf s id chain r.core fs))
      | _, _ => Errand.fail

/-- Whether the blocks a plan saves have left their cores. -/
def savesDone (s : State) (p : Plan) : Bool :=
  p.saves.all (fun id => match getBlock s id with | some b => (coreOf b).isNone | none => true)

/-- The chain of a plan whose room has been made: placed on its run, or the plan given up where it no longer fits. It fails while
the room is not made. -/
def finishPlan (p : Plan) : Errand Unit := do
  if p.moves ≠ [] ∨ savesDone (← get) p = false then Errand.fail
  else
    modify (fun s => { s with plans := s.plans.filter (fun q => q.launch != p.launch) })
    match getLaunch (← get) p.launch with
    | none => return ()
    | some l =>
      let l ← refreshNode p.launch l
      let s ← get
      match nextChainOf s p.launch l with
      | none => return ()
      | some n =>
        match spotAt s p.cluster (standings s p.cluster) (chainNeeds s p.launch l n) p.core with
        | none => return ()
        | some q => placeAt p.launch l n q

/-! ### Whose turn it is (R315) -/

/-- The key of the queue that a launch is visited under: 0 and 1 the dies' device launch queues, q + 2 host queue q. -/
def visitKey (s : State) (l : Launch) : Nat :=
  match launchDie s l with
  | some d => d
  | none => l.root + 2

/-- The weight of a queue at a visit. -/
def visitWeight (s : State) (key : Nat) : Nat := if key < 2 then 16 else (getQueue s (key - 2)).weight

/-- The launches of a priority that have chains to place, oldest first. -/
def waitingAt (s : State) (prio : Nat) : List (Nat × Launch) :=
  (launchList s).filter (fun e =>
    let c := getContext s e.2.ctx
    hasUnplaced s e.1 e.2 && launchPrio s e.2 == prio && !c.frozen && !c.tearing)

/-- A list of keys, rising, without repeats, from a first one on and round. -/
def roundFrom (q : Nat) (keys : List Nat) : List Nat :=
  let ks := (keys.foldl max 0 + 1) |> List.range |>.filter (fun k => keys.contains k)
  ks.filter (fun k => decide (q ≤ k)) ++ ks.filter (fun k => decide (k < q))

/-- An errand of the distributor for a launch: whether it was done. One that fails leaves no trace; one that waits has asked. -/
def attemptFor (id : Nat) (f : Errand Unit) (s : State) : Bool × State :=
  match runErrand (.landing id) f s with
  | .done _ t => (true, t)
  | .failed _ => (false, s)
  | .waits t => (false, t)

/-- A chain of the first of some launches that has one ready to place or whose plan has been carried out: whether there is
one. -/
def placeFirst : List Nat → State → Bool × State
  | [], s => (false, s)
  | id :: ids, s =>
    match attemptFor id (match s.plans.find? (fun p => p.launch == id) with | some p => finishPlan p | none => tryPlace id) s with
    | (true, t) => (true, t)
    | (false, t) => placeFirst ids t

/-- The weight that remains at the visit of a queue: the queue's weight as it now stands, less the chains that this visit has
placed (R306, R315). -/
def weightLeft (s : State) (v : Visit) (key : Nat) : Nat := if key = v.queue then visitWeight s key - v.placed else visitWeight s key

/-- A chain placed by the visits to some queues in turn. -/
def visitQueues (prio : Nat) (ls : List (Nat × Launch)) (v : Visit) : List Nat → State → Bool × State
  | [], s => (false, s)
  | k :: ks, s =>
    if weightLeft s v k = 0 then visitQueues prio ls v ks s
    else
      match placeFirst ((ls.filter (fun e => visitKey s e.2 == k)).map (fun e => e.1)) s with
      | (true, t) =>
        let n := (if k = v.queue then v.placed else 0) + 1
        (true, { t with visits := tset {} t.visits prio (if weightLeft s v k ≤ 1 then { queue := k + 1 } else { queue := k, placed := n }) })
      | (false, t) => visitQueues prio ls v ks t

/-- One chain placed by the visits of a priority level, false where no launch of it can place any. -/
def visitLevel (prio : Nat) (s : State) : Bool × State :=
  let ls := waitingAt s prio
  let v := tget {} s.visits prio
  let keys := ls.map (fun e => visitKey s e.2)
  let v := if weightLeft s v v.queue = 0 then { queue := v.queue + 1 } else v
  visitQueues prio ls v (roundFrom v.queue keys) s

/-- A plan for the first of some launches that needs one (R316). -/
def planFirst : List Nat → State → Bool × State
  | [], s => (false, s)
  | id :: ids, s =>
    if s.plans.any (fun p => p.launch == id) then planFirst ids s
    else
      match attemptFor id (makePlan id) s with
      | (true, t) => (true, t)
      | (false, t) => planFirst ids t

/-- A plan for the first launch of a level that needs one (R316). -/
def planLevel (prio : Nat) (s : State) : Bool × State := planFirst ((waitingAt s prio).map (fun e => e.1)) s

/-- A chain placed or a plan made, by the levels in turn. -/
def placeLevels : List Nat → State → State
  | [], s => s
  | p :: ps, s =>
    match visitLevel p s with
    | (true, t) => t
    | (false, t) =>
      match planLevel p t with
      | (true, t) => t
      | (false, t) => placeLevels ps t

/-- CHAIN_PLACEMENT (R313, R315, R316): by falling priority, a chain placed or a plan made. -/
def execChainPlacement (s : State) : Host.Outcome State Fault Refusal := .next (placeLevels [7, 6, 5, 4, 3, 2, 1, 0] s)

end Sys2Proof.Machine
end

