-- ==== Sys2Proof/Machine/Saving.lean ====
section
/-! DEFINITION. How blocks leave their cores: the release of slots and the end of blocks (R16, R17), saves and migrations
(R346, R347, R317), and, beside them, arbitration (R21) and the delivery of deferred faults (R137). -/

namespace Sys2Proof.Machine

/-! ### Slots and blocks end (R16, R17, R314) -/

/-- Whether a gang has ended with all its counters zero (R16). -/
def gangOver (g : Gang) : Bool := g.units.isEmpty && liveLanes g == 0 && g.counts.isEmpty

/-- A state without the operations of a block. -/
def dropOps (s : State) (id : Nat) : State :=
  s.ops.foldl (fun s e =>
    match e.2 with
    | some o => if o.block = id then setOp s e.1 none else s
    | none => s) s

/-- A block that ends before its chain: what it holds is released, its link out kept (R17, R314). -/
def huskOf (b : Block) : Block :=
  { b with gangs := [], joins := [], tiles := [], lstore := [], scratch := [], saveReq := false, ended := true, cmds := [] }

/-- The read-only lines of a launch gone from a core's L1, where its last block there has ended (R261). -/
def dropReadOnly (s : State) (core launch : Nat) : State :=
  if residentOn s core launch then s
  else modCore s core (fun c => { c with l1 := c.l1.filter (fun x => x.ro != some launch) })

/-- A block ended (R17): its windows, tiles and join registers are released; with the chain's last block its links go. -/
def endBlock (s : State) (id : Nat) (b : Block) : State :=
  let s := setBlock (dropOps s id) id (some (huskOf b))
  let s := match coreOf b with | some c => dropReadOnly (dropConsts s c b.launch) c b.launch | none => s
  let es := chainBlocks s b.launch b.chain
  if es.all (fun e => e.2.ended) then es.foldl (fun s e => setBlock s e.1 none) s else s

/-- SLOT_RELEASE (R16, R17). -/
def execSlotRelease (block gang : Nat) (s : State) : Host.Outcome State Fault Refusal :=
  match getBlock s block with
  | none => .next s
  | some b =>
    match b.gangs[gang]? with
    | none => .next s
    | some g =>
      if b.ended = true ∨ g.released = true ∨ gangOver g = false then .next s
      else
        let b := modGangOf b gang (fun g => { g with released := true })
        let s := setBlock s block (some b)
        .next (if b.gangs.all (fun g => g.released) then endBlock s block b else s)

/-! ### Saves (R346, R166, R200) -/

/-- Whether a command waits for the generation of its ring slot (R178). -/
def waitsForRing (s : State) (c : Command) : Bool :=
  match getBlock s c.block, ringOperands c with
  | some b, some (kr, ticket) =>
    (match ringSlot b (lstoreSize s b) kr ticket with
     | .ok x => let g := ticket.toNat % 2 ^ 16; !genPassed x.gen g && x.gen != g
     | .error _ => false)
  | _, _ => false

/-- Whether an element of a command waits for an entry of a full fault queue, with its FQ_OVERFLOW told (R174). -/
def waitsForQueue (s : State) (core entry : Nat) (c : Command) : Bool :=
  c.overflowed &&
    (match progressAt s core entry with
     | .park p _ _ => decide (32 ≤ (getGang s c.block p.gang).faultq.length)
     | _ => false)

/-- Whether a command may be saved as it is (R166): stopped, waiting on a ring generation, with only parked elements left, or
waiting for an entry of the fault queue. -/
def savable (s : State) (core entry : Nat) (c : Command) : Bool :=
  match c.phase with
  | .stopped _ _ => true
  | .ready => opsOver s c.after && waitsForRing s c
  | .running n => (decide (elementCount c ≤ n) && c.parked != 0) || waitsForQueue s core entry c
  | .skipping _ => false

/-- Whether a unit has reached a boundary, its run over: suspended at SPBEGIN, BANKMODE, GJOIN or HALT too (R346, item 1); one
that an acquiring atomic suspends goes on once its operations are over, as they must be. -/
def atBoundary (u : ExecUnit) : Bool :=
  match u.wait with
  | .acquire _ _ => false
  | _ => true

/-- Whether a block has drained (R346, items 1 and 2). -/
def isDrained (s : State) (id : Nat) (b : Block) : Bool :=
  match coreOf b with
  | none => true
  | some c =>
    (match (getCore s c).run with | some r => r.block != id | none => true) &&
      s.ops.all (fun e => match e.2 with | some o => o.block != id | none => true) &&
      (getCore s c).mx.all (fun m => m.block != id) &&
      (getDie s (dieOf (clusterOf c))).sends.all (fun x => x.block != id) &&
      (entriesOf s c id).all (fun e => savable s c e.1 e.2) &&
      b.gangs.all (fun g => g.units.all atBoundary)

/-- A range of a context's memory given bytes of the device's own layout (R347), from a piece on; `fuel` counts the pieces. -/
def writePieces (ctx va n : Nat) : Nat → Nat → Errand Unit
  | 0, _ => return ()
  | fuel + 1, i => do
    let x ← Errand.free
    let _ ← (farWrite ctx (va + 32 * i) (natBytes (min 32 (n - 32 * i)) x)).attempt
    writePieces ctx va n fuel (i + 1)

/-- The records of some blocks written at their places of the save area of a context. -/
def writeRecords (ctx base : Nat) : List (Nat × Nat) → Errand Unit
  | [] => return ()
  | p :: ps => do
    writePieces ctx (base + p.1) p.2 ((p.2 + 31) / 32) 0
    writeRecords ctx base ps

/-- A block taken off its core: its commands go with it, its bank is freed, and its core drops what only it needed. -/
def unseatBlock (s : State) (id : Nat) (place : Place) : State :=
  match getBlock s id with
  | none => s
  | some b =>
    match coreOf b with
    | none => s
    | some c =>
      let cmds := entriesOf s c id
      let s := cmds.foldl (fun s e => setEntry s c e.1 none) s
      let s := setBlock s id (some { b with place := place, cmds := cmds, saveReq := false, bank := none })
      dropConsts s c b.launch

/-- A chain saved (R346): its records are written, its blocks wait in the landing, and the context's dirty lines in the
source cluster's L2 are written back. -/
def saveChain (es : List (Nat × Block)) (ps : List (Nat × Nat)) : Errand Unit := do
  match es with
  | [] => return ()
  | e :: _ =>
    let cl := blockCluster e.2
    writeRecords e.2.ctx (getContext (← get) e.2.ctx).save.toNat ps
    modify (fun s => (es.zip ps).foldl (fun s x => unseatBlock s x.1.1 (.saved x.2.1 x.2.2 cl)) s)
    modify (fun s => cleanContext s cl (some e.2.ctx))

/-! ### Migration (R317) -/

/-- The chains that a plan moves, as lists of blocks. -/
def movedChains (s : State) (p : Plan) : List (List (Nat × Block)) :=
  (((p.moves.filterMap (fun m => getBlock s m.1)).map (fun b => (b.launch, b.chain))).eraseDups).map
    (fun c => chainBlocks s c.1 c.2)

/-- The const section that a core holds for a launch. -/
def heldConsts (s : State) (core launch : Nat) : List Byte := tget [] (getCore s core).consts launch

/-- A block seated on its new core of the same cluster. -/
def moveBlock (s : State) (id core : Nat) (consts : List Byte) (origin : Nat) (bank : Option Nat) (moment : Nat) : State :=
  match getBlock s id with
  | none => s
  | some b =>
    let s := restoreAcquire s core (clusterOf core) b.ctx
    let s := if b.ended then s else loadConsts s core b.launch consts
    seatBlock s id core origin bank moment

/-- The records of the chains that a plan moves, written. -/
def writeMoved : List (List (Nat × Block)) → Errand Unit
  | [] => return ()
  | es :: rest => do
    let s ← get
    match es, chainRecords s es true with
    | e :: _, some ps => writeRecords e.2.ctx (getContext s e.2.ctx).save.toNat ps
    | _, _ => pure ()
    writeMoved rest

/-- The moves of a plan made as one step (R317): the records are written, every moved block leaves its core, and each is
seated again with its origin, its bank and its windows. -/
def moveAll (p : Plan) : Errand Unit := do
  writeMoved (movedChains (← get) p)
  modify (fun s =>
    let held := p.moves.filterMap (fun m => (getBlock s m.1).map (fun b =>
      (m.1, m.2, heldConsts s ((coreOf b).getD 0) b.launch, b.origin, b.bank)))
    let s := p.moves.foldl (fun s m => unseatBlock s m.1 (.saved 0 0 p.cluster)) s
    let (n, s) := freshId s
    let s := held.foldl (fun s h => moveBlock s h.1 h.2.1 h.2.2.1 h.2.2.2.1 h.2.2.2.2 (n + 1)) s
    { s with plans := s.plans.map (fun q => if q.launch = p.launch then { q with moves := [] } else q) })

/-- A chain that cannot be saved stays (R346, R383): its requests and the plan that asked for it are given up. -/
def keepChain (s : State) (es : List (Nat × Block)) : State :=
  let ids := es.map (fun e => e.1)
  let s := (s.plans.filter (fun p => ids.any (fun n => p.saves.contains n || p.moves.any (fun m => m.1 == n)))).foldl dropPlan s
  es.foldl (fun s e => modBlock s e.1 (fun b => { b with saveReq := false })) s

/-- Whether every block that a plan moves has drained, and those that it saves have left. -/
def movesReady (s : State) (p : Plan) : Bool :=
  savesDone s p && p.moves.all (fun m => match getBlock s m.1 with | some x => isDrained s m.1 x | none => true)

/-- An errand for a block's save: it leaves its effect, or what its asking leaves. -/
def saveErrand (block : Nat) (f : Errand Unit) (s : State) : State :=
  match runErrand (.save block) f s with
  | .done _ s => s
  | .failed s => s
  | .waits s => s

/-- BLOCK_SAVE (R346, R317): the chain of a block that is to be saved, once it has drained, where its records then fit; the
moves of a plan are made together, once its saves are done. -/
def execBlockSave (block : Nat) (s : State) : Host.Outcome State Fault Refusal :=
  match getBlock s block with
  | none => .next s
  | some b =>
    if b.saveReq = false ∨ (coreOf b).isNone = true then .next s
    else
      let es := chainBlocks s b.launch b.chain
      let plan := s.plans.find? (fun p => p.moves.any (fun m => m.1 == block))
      if es.any (fun e => onHeldChannel s e.1) then .next (keepChain s es)
      else if es.all (fun e => isDrained s e.1 e.2) = false then .next s
      else
        match chainRecords s es plan.isSome, plan with
        | none, _ => .next (keepChain s es)
        | some ps, none => .next (saveErrand block (saveChain es ps) s)
        | some _, some p => if movesReady s p then .next (saveErrand block (moveAll p) s) else .next s

/-- A chain that a plan was to move is to be saved instead. -/
def saveInstead (p : Plan) (ids : List Nat) : Plan :=
  let gone := p.moves.filter (fun m => ids.contains m.1)
  if gone = [] then p
  else { p with moves := p.moves.filter (fun m => !ids.contains m.1), saves := p.saves ++ gone.map (fun m => m.1) }

/-- A chain asked to be saved (R346), unless an access to a held pseudo-channel keeps it; whether its records fit is judged when
it has drained. -/
def askSave (s : State) (es : List (Nat × Block)) : State :=
  if es.any (fun e => onHeldChannel s e.1 || (getContext s e.2.ctx).tearing) then s
  else
    let s := { s with plans := s.plans.map (fun p => saveInstead p (es.map (fun e => e.1))) }
    es.foldl (fun s e => modBlock s e.1 (fun b => { b with saveReq := true })) s

/-! ### Arbitration (R21) and deferred faults (R137) -/

/-- ARBITRATION (R21): with no run in progress, the core begins one with the unit it chooses. -/
def execArbitration (core : Nat) (s : State) : Host.Outcome State Fault Refusal :=
  if (getCore s core).run.isSome then .next s
  else
    match chooseUnit s core with
    | (some (id, g, u), s) => .next (beginRun s core id g u)
    | (none, s) => .next s

/-- DEFERRED_FAULT_DELIVERY (R137): before the next word of a thread's unit, in a context that is not frozen (R342). -/
def execDeferredFaultDelivery (block gang lane : Nat) (s : State) : Host.Outcome State Fault Refusal :=
  match getBlock s block with
  | none => .next s
  | some b =>
    match unitWith (gangOf b gang) lane with
    | none => .next s
    | some u =>
      if (coreOf b).isNone = true ∨ isFrozen s b = true ∨ (getContext s b.ctx).tearing = true ∨ betweenWords u = false ∨
          deferredLanes (gangOf b gang) u = [] then .next s
      else .next (deliverDeferred s block gang u)

end Sys2Proof.Machine
end

