-- ==== Sys2Proof/Machine/Window.lean ====
section
/-! DEFINITION. Speculative windows (spec/07 7.3: R223 to R239, R409, R410): the descriptor and the structures of a window,
SPBEGIN, SPALLOC, SPSTATE, SPCOMMIT, SPABORT, SPQUERY, TREEMASK, and the steps WINDOW_OPEN, SPCOMMIT_EXECUTE and
SPABORT_EXECUTE. SPST and SPLD stand with the loads and stores. -/

namespace Sys2Proof.Machine

/-! ### A window's geometry (Table 7.3, R224, R225) -/

/-- A field of the descriptor's bytes 20 to 87. -/
abbrev Window.field (w : Window) (off len : Nat) : Nat := fieldAt w.geom (off - 20) len

/-- Tokens per KV block. -/
abbrev Window.tpb (w : Window) : Nat := w.field 20 2
/-- Draft pages. -/
abbrev Window.pages (w : Window) : Nat := w.field 22 2
/-- Bytes of a token position. -/
abbrev Window.pb (w : Window) : Nat := w.field 24 4
/-- Checkpoint slots. -/
abbrev Window.slots (w : Window) : Nat := w.field 28 4
/-- The block table. -/
abbrev Window.table (w : Window) : Nat := w.field 32 8
/-- The KV pool. -/
abbrev Window.pool (w : Window) : Nat := w.field 40 8
/-- The free stack. -/
abbrev Window.stack (w : Window) : Nat := w.field 48 8
/-- The draft base. -/
abbrev Window.draft (w : Window) : Nat := w.field 56 8
/-- The live state. -/
abbrev Window.live' (w : Window) : Nat := w.field 64 8
/-- The state bytes. -/
abbrev Window.stateBytes (w : Window) : Nat := w.field 72 4
/-- The checkpoint base. -/
abbrev Window.checkpoints (w : Window) : Nat := w.field 80 8

/-- The draft capacity (R224). -/
def Window.capacity (w : Window) : Nat := if w.pb = 0 then 0 else w.pages * 2 ^ 21 / w.pb

/-- The handle of an entry (R225). -/
def handleOf (e : Nat) (w : Window) : Word :=
  BitVec.ofNat 32 (2 ^ 31 + w.gen.toNat * 2 ^ 28 + bitsOf w.number.toNat 15 0 * 2 ^ 12 + e)

/-- The bytes 20 to 87 of a descriptor obey Table 7.3, and none of its addresses lies in the window region (R253). -/
def geometryOk (d : List Byte) : Bool :=
  let f (off len : Nat) := fieldAt d off len
  (List.range 13).any (fun k => f 20 2 == 2 ^ k) && decide (1 ≤ f 22 2 ∧ f 22 2 ≤ 8) &&
    decide (32 ≤ f 24 4 ∧ f 24 4 ≤ 65536) && multipleOf (f 24 4) 32 && decide (f 28 4 ≤ 64) &&
    multipleOf (f 32 8) 4 && multipleOf (f 40 8) 32 && multipleOf (f 48 8) 16 && multipleOf (f 56 8) (2 ^ 21) &&
    multipleOf (f 64 8) 256 && decide (f 72 4 ≤ 65536) && multipleOf (f 72 4) 256 && multipleOf (f 80 8) 256 &&
    [32, 40, 48, 56, 64, 80].all (fun o => f o 8 / 2 ^ 40 != 0xFF0000)

/-- The reserved bytes of a descriptor are zero. -/
def reservedOk (d : List Byte) : Bool := fieldAt d 76 4 == 0 && fieldAt d 104 152 == 0

/-! ### The device's accesses for a window (R224) -/

/-- For whom a window step acts: the core and context it acts at, and the thread a freeze would name. -/
structure Doer where
  core : Nat
  ctx  : Nat
  blk  : Nat
  gang : Nat
  lane : Nat
  deriving DecidableEq, Repr

/-- The physical address of a byte of a window's structures, with its leaf, on a page that R224 admits: owned by no window, or,
for the draft pages, by the given entry. -/
def winLeaf (d : Doer) (own : Option Nat) (va : Nat) : Errand Leaf := fun s =>
  match targetOf 0 va with
  | .virtual a =>
    match translate s (clusterOf d.core) d.ctx a with
    | (.leaf l, s) => if windowPage l && windowOwner s l == own then .ok (l, s) else .error (.failed s)
    | (.none, s) => .error (.failed s)
    | (.bad, s) => .error (.failed (freezeData s d.blk d.gang d.lane (standsAt s d.blk d.gang d.lane) (BitVec.ofNat 64 va)))
    | (.blocked, s) => .error (.waits s)
  | _ => .error (.failed s)

/-- The physical address of a byte of a window's structures. -/
def winPage (d : Doer) (own : Option Nat) (va : Nat) : Errand Nat := do
  let l ← winLeaf d own va
  return physical l va

/-- What an answer of a home slice is to a window step: bytes; a failure, with the freeze that uncorrectable data give (R385);
or a wait. -/
def winReply (d : Doer) (va : Nat) (f : State → Reply × State) : Errand (List Byte) := fun s =>
  match f s with
  | (.bytes bs, s) => .ok (bs, s)
  | (.blocked, s) => .error (.waits s)
  | (_, s) => .error (.failed (freezeData s d.blk d.gang d.lane (standsAt s d.blk d.gang d.lane) (BitVec.ofNat 64 va)))

/-- Up to 32 bytes of one sector read at their home slice. -/
def winRead (d : Doer) (own : Option Nat) (va n : Nat) : Errand (List Byte) := do
  let pa ← winPage d own va
  modify (fun s => storesFirst s (clusterOf d.core) (pa / 32))
  winReply d va (fun s => homeReply (homeRead (l2Purge s (clusterOf d.core) pa) pa n whoDevice))

/-- Up to 32 bytes of one sector read as a command reads them (R291): those of a draft position or a checkpoint slot. -/
def winFetch (d : Doer) (own : Option Nat) (va n : Nat) : Errand (List Byte) := do
  let l ← winLeaf d own va
  winReply d va (fun s => engineRead s (clusterOf d.core) va n whoDevice l)

/-- A 32-bit word read. -/
def winWord (d : Doer) (va : Nat) : Errand Nat := do
  let bs ← winRead d none va 4
  return leNat bs

/-- Up to 32 bytes of one sector written at their home slice. -/
def winWrite (d : Doer) (va : Nat) (bs : List Byte) : Errand Unit := do
  let pa ← winPage d none va
  modify (fun s => storesFirst s (clusterOf d.core) (pa / 32))
  fun s =>
    match homeWrite (l2Purge s (clusterOf d.core) pa) pa bs whoDevice with
    | (.blocked, s) => .error (.waits s)
    | (.failed, s) =>
      .ok ((), freezeData s d.blk d.gang d.lane (standsAt s d.blk d.gang d.lane) (BitVec.ofNat 64 va))
    | (_, s) => .ok ((), l1DropPhysical s d.core pa)

/-- Several steps in turn. -/
def winEach {α : Type} (f : α → Errand Unit) : List α → Errand Unit
  | [] => return ()
  | x :: xs => do f x; winEach f xs

/-- Bytes copied by pieces of 32. -/
def winCopy (d : Doer) (own : Option Nat) (src dst len : Nat) : Errand Unit :=
  winEach (fun i => do
    let bs ← winFetch d own (src + 32 * i) 32
    winWrite d (dst + 32 * i) bs) (List.range (len / 32))

/-- Every piece of a range lies on a page that R224 admits. -/
def winReach (d : Doer) (own : Option Nat) (va len : Nat) : Errand Unit :=
  winEach (fun i => do
    let _ ← winPage d own (va + 32 * i)
    return ()) (List.range ((len + 31) / 32))

/-- A pop of the free stack (R224, R230): the block, or `none` from an empty stack. -/
def popBlock (d : Doer) (w : Window) : Errand (Option Nat) := do
  let count ← winWord d w.stack
  if count = 0 then return none
  else
    let top := w.stack + 16 + 4 * (count - 1)
    let b ← winWord d top
    winWrite d w.stack (natBytes 4 (count - 1))
    return some b

/-- A push onto the free stack (R224); it fails on a full one. -/
def pushBlock (d : Doer) (w : Window) (b : Word) : Errand Unit := do
  let count ← winWord d w.stack
  let cap ← winWord d (w.stack + 4)
  if cap ≤ count then Errand.fail
  else
    winWrite d (w.stack + 16 + 4 * count) (natBytes 4 b.toNat)
    winWrite d w.stack (natBytes 4 (count + 1))

/-! ### Draft pages (R226, R341) -/

/-- The page-table entry of a page given or relieved of an owner (R341, bits 51 and 63 to 52). -/
def ownPage (s : State) (ctx va : Nat) (owner : Option Nat) : State :=
  match walkFrom s va 4 (getContext s ctx).root.toNat with
  | some (pa, pte, _) =>
    memWrite s pa (natBytes 8 (pte % 2 ^ 51 + match owner with | some e => 2 ^ 51 + e * 2 ^ 52 | none => 0))
  | none => s

/-- The virtual addresses of a window's draft pages. -/
def draftPages (w : Window) : List Nat := (List.range w.pages).map (fun i => w.draft + 2 ^ 21 * i)

/-- The translations of physical 2 MiB pages removed from every cluster TLB. -/
def dropPages (s : State) (pages : List Nat) : State :=
  mapClusters s (fun c => { c with tlb := c.tlb.filter (fun t => !pages.contains (t.leaf.page / 2 ^ 21)) })

/-- The 2 MiB page of HBM4 that a draft page lies on, as the page tables now map it to the context; it fails on any other, and
on one that a window owns. -/
def draftTarget (d : Doer) (va : Nat) : Errand Nat := fun s =>
  match targetOf 0 va with
  | .virtual a =>
    match walkNow s (clusterOf d.core) d.ctx a with
    | (.leaf l, s) =>
      if l.tier = 0 ∧ isPeer l = false ∧ l.owner = none ∧ s.hostIf.marked.contains (l.page / 2 ^ 21) = false then
        .ok (l.page / 2 ^ 21, s)
      else .error (.failed s)
    | (.blocked, s) => .error (.waits s)
    | (_, s) => .error (.failed s)
  | _ => .error (.failed s)

/-- Whether a plane word whose head is written is still on its way to some 2 MiB pages: its store runs to completion (R154). -/
def wordsComing (s : State) (pages : List Nat) : Bool :=
  s.ops.any (fun e =>
    match e.2 with
    | none => false
    | some o =>
      (busyHead o).isSome && o.accs.any (fun a =>
        match a.stage with
        | .atHome l _ port => pages.contains ((if isPeer l then port else physical l a.va.toNat) / 2 ^ 21)
        | _ => false))

/-- The pages that a window's draft positions lie on. -/
def draftTargets (d : Doer) : List Nat → Errand (List Nat)
  | [] => return []
  | va :: vas => do
    let p ← draftTarget d va
    let ps ← draftTargets d vas
    return p :: ps

/-- The draft pages of a window released (R232): no longer owned, translations removed. -/
def releaseDrafts (s : State) (e : Nat) : State :=
  let w := getWindow s e
  let s := (draftPages w).foldl (fun s va =>
    match walk s w.ctx va with
    | some l => if l.owner = some e then ownPage s w.ctx va none else s
    | none => s) s
  dropPages { s with hostIf := { s.hostIf with marked := s.hostIf.marked.filter (fun p => !w.drafts.contains p) } } w.drafts

/-- A window's entry freed (R232): its generation stays for the next allocation. -/
def freeEntryOf (s : State) (e : Nat) : State := modWindow (releaseDrafts s e) e (fun w => { gen := w.gen })

/-! ### Opening (R227) -/

/-- The first bytes of a descriptor, read whole. -/
def readDescriptor (d : Doer) (desc : Nat) : Errand (List Byte) :=
  (List.range 8).foldl (fun (acc : Errand (List Byte)) i => do
    let bs ← acc
    let more ← winRead d none (desc + 32 * i) 32
    return bs ++ more) (return [])

/-- What SPBEGIN's step gives (R227): a reason of WINDOW_STALE or WINDOW_OVERFLOW, or the handle. -/
inductive Opened where
  | stale (reason : Nat)
  | overflow (reason : Nat)
  | handle (h : Word)
  deriving DecidableEq, Repr

/-- The entries of the speculation table that are free. -/
def freeWindows (s : State) : List Nat := (List.range 4096).filter (fun e => !(getWindow s e).live)

/-- The descriptor step of SPBEGIN: the checks in their order, then the window; which free entry it takes is free. The stores that
clusters have sent to the draft pages are performed before the pages are marked (R226, R286). -/
def openWindow (d : Doer) (desc : Dword) : Errand Opened := do
  if desc.toNat % 256 ≠ 0 then return .overflow 7
  else
    let bs ← readDescriptor d desc.toNat
    let st := fieldAt bs 8 4
    let w : Window := { live := true, ctx := d.ctx, desc := desc, geom := (bs.drop 20).take 68 }
    if st = 1 then return .stale 3
    else if (st ≠ 0 ∧ st ≠ 2) ∨ reservedOk bs = false ∨ geometryOk bs = false then return .overflow 7
    else
      let drafts ← (draftTargets d (draftPages w)).attempt
      let s ← get
      match drafts, freeWindows s with
      | none, _ => return .overflow 7
      | _, [] => return .overflow 1
      | some ps, e0 :: es =>
        if wordsComing s ps then Errand.wait
        let (n, s) := draw s
        set (performStores s (fun _ k => ps.contains (k * 32 / 2 ^ 21)))
        let e := (e0 :: es).getD (n % (es.length + 1)) e0
        let num : Word := BitVec.ofNat 32 (fieldAt bs 12 4) + 1
        winWrite d (desc.toNat + 8) (natBytes 4 1 ++ natBytes 4 num.toNat)
        winWrite d (desc.toNat + 92) (natBytes 4 0)
        let w := { w with gen := (getWindow s e).gen + 1, number := num, drafts := ps }
        modify (fun s => modWindow s e (fun _ => w))
        modify (fun s => (draftPages w).foldl (fun s va => ownPage s d.ctx va (some e)) s)
        modify (fun s => dropPages { s with hostIf := { s.hostIf with marked := s.hostIf.marked ++ ps } } ps)
        return .handle (handleOf e w)

/-- SPBEGIN (R227): the unit suspends after the word until the window is open. -/
def execSpbegin (gd : BitVec 4) (d kr : BitVec 6) (s : State) : Host.Outcome State Fault Refusal :=
  let i : Instr := .spbegin gd d kr
  runWord i s (fun t iss act =>
    { st := s
      moves := [{ lanes := iss, pc := t.after i.words, wait := .window act d (pairK (t.g s) kr.toNat) t.unit.pc }] })

/-- A fault of SPBEGIN (R409): taken at the word by its active threads, while the unit's other threads go on. -/
def spbeginFault (s : State) (blk g : Nat) (u : ExecUnit) (active : BitVec 32) (word : Dword) (t : Trap) : State :=
  let s := modUnit s blk g (lowest u.lanes) (fun v => { v with wait := .none })
  takeTraps s blk g ((lanesOf (active &&& u.lanes)).map (fun l => (l, { t with tpc := some word }))) word u.lastIssue

/-- WINDOW_OPEN (R227): it waits while a fill of kd is pending or kd is locked (R27, R28). -/
def execWindowOpen (blk gang lane : Nat) (s : State) : Host.Outcome State Fault Refusal :=
  match getBlock s blk, unitWith (getGang s blk gang) lane with
  | some b, some u =>
    match u.wait, coreOf b with
    | .window active kd desc word, some core =>
      if kWritable (gangOf b gang) kd.toNat = false then .next s
      else
        let l := lowest active
        let spx := (getThread s blk gang l).spx
        let d : Doer := { core := core, ctx := b.ctx, blk := blk, gang := gang, lane := l }
        .next (match runErrand (.unit blk gang l) (openWindow d desc) s with
          | .done (.handle h) s =>
            modUnit (modGang s blk gang (fun g => writeK g kd.toNat h false)) blk gang (lowest u.lanes)
              (fun v => { v with wait := .none })
          | .done (.stale r) s => spbeginFault s blk gang u active word (windowTrap 0x0E r spx desc)
          | .done (.overflow r) s => spbeginFault s blk gang u active word (windowTrap 0x0F r spx desc)
          | .failed s => spbeginFault s blk gang u active word (windowTrap 0x0F 7 spx desc)
          | .waits s => s)
    | _, _ => .next s
  | _, _ => .next s

/-! ### SPALLOC and SPQUERY (R230, R235) -/

/-- What a word of a window step comes to: its effect; a trap in every active thread; or a wait at a home slice, after which it
is done again. -/
inductive UnitStep where
  | done (s : State)
  | trap (x : Trap) (s : State)
  | again (s : State)
  deriving DecidableEq, Repr

/-- A word that acts once for its unit and may trap in every active thread, or be done again where it must wait. -/
def unitWord (i : Instr) (s : State) (f : Site → BitVec 32 → UnitStep) : Host.Outcome State Fault Refusal :=
  runWord i s (fun t iss act =>
    match f t act with
    | .again s => { st := s, moves := [{ lanes := iss, pc := t.unit.pc }], ends := true }
    | .done s => { st := s, moves := t.onward i.words iss, ends := true }
    | .trap x s =>
      { st := s, traps := (lanesOf act).map (fun l => (l, t.trap x)), moves := t.onward i.words iss })

/-- Who acts for a word of a unit: its lowest active thread. -/
def doerOf (s : State) (t : Site) (act : BitVec 32) : Doer :=
  { core := t.core, ctx := ((getBlock s t.blk).map Block.ctx).getD 0, blk := t.blk, gang := t.gang, lane := lowest act }

/-- SPALLOC (R230): the handle is that of sys.spx of the lowest active thread. -/
def execSpalloc (gd : BitVec 4) (d a : BitVec 6) (s : State) : Host.Outcome State Fault Refusal :=
  unitWord (.spalloc gd d a) s (fun t act =>
    let h := (getThread s t.blk t.gang (lowest act)).spx
    match currentEntry s h with
    | none => .trap (windowTrap 0x0E 2 h 0) s
    | some e =>
      let w := getWindow s e
      if 16 ≤ w.log.length then .trap (windowTrap 0x0F 3 h 0) s
      else
        match runErrand (.unit t.blk t.gang (lowest act)) (popBlock (doerOf s t act) w) s with
        | .done (some b) s =>
          let b : Word := BitVec.ofNat 32 b
          let s := modWindow s e (fun w => { w with log := w.log ++ [((kReg (t.g s) a.toNat).val, b)] })
          .done (modGang s t.blk t.gang (fun g => writeK g d.toNat b false))
        | .done none s => .trap (windowTrap 0x0F 4 h 0) s
        | .failed s => .trap (windowTrap 0x0F 8 h 0) s
        | .waits s => .again s)

/-- SPQUERY (R235): where the descriptor cannot be read, whether the cancel flag is set is not stated, hence free. -/
def execSpquery (gd : BitVec 4) (d kh : BitVec 6) (s : State) : Host.Outcome State Fault Refusal :=
  unitWord (.spquery gd d kh) s (fun t act =>
    let h := (kReg (t.g s) kh.toNat).val
    let put (s : State) (x : Nat) : UnitStep :=
      .done (modGang s t.blk t.gang (fun g => writeK g d.toNat (BitVec.ofNat 32 x) (kReg g kh.toNat).poison))
    match currentEntry s h with
    | none => put s 0
    | some e =>
      let w := getWindow s e
      let x := 2 ^ 31 + w.log.length * 2 ^ 16 + w.pages * 2 ^ 8
      match runErrand (.unit t.blk t.gang (lowest act)) (winWord (doerOf s t act) (w.desc.toNat + 88)) s with
      | .done flag s => put s (x + if flag = 0 then 0 else 2 ^ 30)
      | .failed s => let (n, s) := draw s; put s (x + n % 2 * 2 ^ 30)
      | .waits s => .again s)

/-! ### SPSTATE, SPCOMMIT and SPABORT at the word (R231, R232, R234) -/

/-- A window command issued to the skidder (R231, R232): `held` is what it needs of its window. -/
def issueWindow (s : State) (t : Site) (i : Instr) (act : BitVec 32) (held : List Nat) : State :=
  match freeEntry (getCore s t.core) with
  | none => s
  | some e =>
    let s := issueUnsigned s t i (lanesOf act)
    modCore s t.core (fun c => { c with skid := tmod none c.skid e (fun x => x.map (fun y => { y with held := held })) })

/-- A window command word: a trap in every active thread, or the command. -/
def windowWord (i : Instr) (s : State) (f : Site → BitVec 32 → Except Trap State) : Host.Outcome State Fault Refusal :=
  runWord i s (fun t iss act =>
    match f t act with
    | .ok s => { st := s, moves := t.onward i.words iss }
    | .error x =>
      { st := s, traps := (lanesOf act).map (fun l => (l, t.trap x)), moves := t.onward i.words iss })

/-- SPSTATE (R231): the command keeps its checkpoint slot's address and the state bytes. -/
def execSpstate (gd : BitVec 4) (ks kp : BitVec 6) (s : State) : Host.Outcome State Fault Refusal :=
  let i : Instr := .spstate gd ks kp
  windowWord i s (fun t act =>
    let h := (getThread s t.blk t.gang (lowest act)).spx
    match currentEntry s h with
    | none => .error (windowTrap 0x0E 2 h 0)
    | some e =>
      let w := getWindow s e
      let p := (kReg (t.g s) kp.toNat).val.toNat
      if w.slots ≤ p then .error (windowTrap 0x0F 5 h 0)
      else
        match alignTrap (pairK (t.g s) ks.toNat) 4 0 with
        | some x => .error x
        | none => .ok (issueWindow s t i act [w.checkpoints + p * w.stateBytes, w.stateBytes]))

/-- The checks of a close at its word (R232, R234): the entry of a current handle. -/
def closeEntry (s : State) (h : Word) (keep : Nat) : Except Trap Nat :=
  match currentEntry s h with
  | none => .error (windowTrap 0x0E 2 h 0)
  | some e =>
    let w := getWindow s e
    if w.capacity < keep ∨ (w.stateBytes ≠ 0 ∧ w.slots < keep) then .error (windowTrap 0x0F 6 h 0) else .ok e

/-- A close issued: the entry becomes closing, for the gang that closes it. -/
def issueClose (s : State) (t : Site) (i : Instr) (act : BitVec 32) (h : Word) (keep : Nat) : Except Trap State :=
  match closeEntry s h keep with
  | .error x => .error x
  | .ok e => .ok (modWindow (issueWindow s t i act []) e (fun w => { w with closing := true, closer := some (t.blk, t.gang) }))

/-- SPCOMMIT (R232). -/
def execSpcommit (gd : BitVec 4) (kh kk : BitVec 6) (s : State) : Host.Outcome State Fault Refusal :=
  let i : Instr := .spcommit gd kh kk
  windowWord i s (fun t act =>
    let g := t.g s
    issueClose s t i act (kReg g kh.toNat).val (kReg g kk.toNat).val.toNat)

/-- SPABORT (R234). -/
def execSpabort (gd : BitVec 4) (kh : BitVec 6) (s : State) : Host.Outcome State Fault Refusal :=
  let i : Instr := .spabort gd kh
  windowWord i s (fun t act => issueClose s t i act (kReg (t.g s) kh.toNat).val 0)

/-! ### Closing (R232 to R234) -/

/-- The status and the next sequence number of a descriptor written. -/
def writeStatus (d : Doer) (desc status : Nat) : Errand Unit := do
  let old ← winRead d none (desc + 96) 8
  winWrite d (desc + 92) (natBytes 4 status)
  winWrite d (desc + 96) (natBytes 8 (leNat old + 1))

/-- close (R232): draft pages released, entry freed, state, status and sequence written; the blocks given are pushed. -/
def closeWindow (d : Doer) (e status state : Nat) (pushes : List Word) : Errand Unit := do
  let s ← get
  let w := getWindow s e
  winEach (pushBlock d w) pushes
  modify (fun s => freeEntryOf s e)
  winWrite d (w.desc.toNat + 8) (natBytes 4 state)
  writeStatus d w.desc.toNat status

/-- reopen (R232): status and sequence written, the entry stops closing. -/
def reopenWindow (d : Doer) (e status : Nat) : Errand Unit := do
  let s ← get
  writeStatus d (getWindow s e).desc.toNat status
  modify (fun s => modWindow s e (fun w => { w with closing := false, closer := none }))

/-- A close of a window as teardown makes it (R345): a block that cannot be pushed is not, and a descriptor that cannot
be written is left. -/
def tearWindow (d : Doer) (e : Nat) : Errand Unit := do
  let w := getWindow (← get) e
  winEach (fun p => do let _ ← (pushBlock d w p.2).attempt) w.log
  modify (fun s => freeEntryOf s e)
  let _ ← (do
    winWrite d (w.desc.toNat + 8) (natBytes 4 0)
    writeStatus d w.desc.toNat 3 : Errand Unit).attempt

/-- The address of a token position (R224), given the physical block that holds it. -/
def tokenAddress (w : Window) (block p : Nat) : Nat := w.pool + block * w.tpb * w.pb + p % w.tpb * w.pb

/-- The earliest block logged for a logical block. -/
def loggedFor (w : Window) (b : Nat) : Option Word := (w.log.find? (fun p => p.1.toNat == b)).map (fun p => p.2)

/-- The logical blocks that a commit needs, each with its entry of the block table. -/
def neededBlocks (d : Doer) (w : Window) (len keep : Nat) : Errand (List (Nat × Nat)) :=
  if keep = 0 then return []
  else
    let lo := len / w.tpb
    let hi := (len + keep - 1) / w.tpb
    (List.range (hi + 1 - lo)).foldl (fun (acc : Errand (List (Nat × Nat))) i => do
      let xs ← acc
      let x ← winWord d (w.table + 4 * (lo + i))
      return xs ++ [(lo + i, x)]) (return [])

/-- The physical block of a logical one as the commit will have it. -/
def blockFor (w : Window) (need : List (Nat × Nat)) (b : Nat) : Option Nat :=
  match need.find? (fun x => x.1 == b) with
  | some (_, x) => if x = 0xFFFFFFFF then (loggedFor w b).map BitVec.toNat else some x
  | none => none

/-- The room and the reach of the stack for every logged block (R232, R234). -/
def stackRoom (d : Doer) (w : Window) : Errand Unit := do
  let count ← winWord d w.stack
  let cap ← winWord d (w.stack + 4)
  if cap < count + w.log.length then Errand.fail
  else winEach (fun i => winReach d none (w.stack + 16 + 4 * (count + i)) 4) (List.range w.log.length)

/-- The checks of a commit before its linearisation point (R232): every address that it could touch. -/
def commitReach (d : Doer) (e : Nat) (w : Window) (need : List (Nat × Nat)) (len keep : Nat) : Errand Unit := do
  stackRoom d w
  winEach (fun i =>
    match blockFor w need ((len + i) / w.tpb) with
    | some b => do
      winReach d (some e) (w.draft + i * w.pb) w.pb
      winReach d none (tokenAddress w b (len + i)) w.pb
    | none => return ()) (List.range keep)
  if 1 ≤ keep then do
    winReach d none w.live' w.stateBytes
    winReach d none (w.checkpoints + (keep - 1) * w.stateBytes) w.stateBytes
  else return ()

/-- A commit past its checks (R232): the linearisation point, then the close or the writes. -/
def commitWrite (d : Doer) (e : Nat) (w : Window) (need : List (Nat × Nat)) (len keep : Nat) : Errand Unit := do
  let flag ← winWord d (w.desc.toNat + 88)
  if flag ≠ 0 then do
    winWrite d (w.desc.toNat + 88) (natBytes 4 0)
    closeWindow d e 2 2 (w.log.map (fun p => p.2))
  else if need.any (fun x => x.2 == 0xFFFFFFFF && (loggedFor w x.1).isNone) then reopenWindow d e 5
  else do
    let filled := need.filter (fun x => x.2 == 0xFFFFFFFF)
    winEach (fun x => winWrite d (w.table + 4 * x.1) (natBytes 4 ((loggedFor w x.1).getD 0).toNat)) filled
    winEach (fun i =>
      winCopy d (some e) (w.draft + i * w.pb)
        (tokenAddress w ((blockFor w need ((len + i) / w.tpb)).getD 0) (len + i)) w.pb) (List.range keep)
    if 1 ≤ keep then winCopy d none (w.checkpoints + (keep - 1) * w.stateBytes) w.live' w.stateBytes else pure ()
    let used := filled.filterMap (fun x => w.log.findIdx? (fun p => p.1.toNat == x.1))
    let left := (List.range w.log.length).filter (fun n => !used.contains n)
    winWrite d (w.desc.toNat + 16) (natBytes 4 (len + keep))
    closeWindow d e 1 0 (left.filterMap (fun n => (w.log[n]?).map (fun p => p.2)))

/-- A close run: `checks` and what follows them; a failed check leaves status 4 and the window open. It answers false where the
descriptor's page is out of reach (R410). -/
def runClose {α : Type} (d : Doer) (e : Nat) (desc : Nat) (checks : Errand α) (go : α → Errand Unit) : Errand Bool := do
  match ← (winPage d none desc).attempt with
  | none => return false
  | some _ =>
    match ← checks.attempt with
    | none => let _ ← (reopenWindow d e 4).attempt; return true
    | some x => let _ ← (go x).attempt; return true

/-- The close of a commit (R232). -/
def runCommit (d : Doer) (keep e : Nat) : Errand Bool := do
  let w := getWindow (← get) e
  runClose d e w.desc.toNat
    (do
      let bs ← winRead d none (w.desc.toNat + 16) 4
      let len := leNat bs
      let need ← neededBlocks d w len keep
      commitReach d e w need len keep
      return (len, need))
    (fun x => commitWrite d e w x.2 x.1 keep)

/-- The close of an abort (R234). -/
def runAbort (d : Doer) (e : Nat) : Errand Bool := do
  let w := getWindow (← get) e
  runClose d e w.desc.toNat (stackRoom d w) (fun _ => closeWindow d e 3 0 (w.log.map (fun p => p.2)))

/-- Whether earlier SPSTATE commands of a command's gangs are still at their entries (R232). -/
def statesPending (s : State) (core : Nat) (c : Command) : Bool :=
  (getCore s core).skid.any (fun x =>
    match x.2 with
    | some y =>
      y.block == c.block && y.gangs == c.gangs && decide (y.id < c.id) &&
        (match y.instr with | .spstate _ _ _ => true | _ => false)
    | none => false)

/-- A close at a skidder entry run: it completes, stops with ASYNC_COPY_FAULT kind 1 (R410), or waits. -/
def executeClose (s : State) (core entry : Nat) (c : Command) (run : Doer → Nat → Errand Bool) : State :=
  match namedEntry s (c.uni.getD 0 0), getBlock s c.block with
  | some e, some b =>
    let d : Doer := { core := core, ctx := b.ctx, blk := c.block, gang := c.lead.1, lane := c.lead.2 }
    match runErrand (.command c.block c.id) (run d e) s with
    | .done false s =>
      let (n, s) := draw s
      let s := modWindow s e (fun w => { w with closing := false, closer := none })
      tellLead (setEntry s core entry (some { c with phase := .stopped 0 1 })) c
        (copyTrap entry 1 (BitVec.ofNat 32 n) (getWindow s e).desc)
    | .done true s => retire s core entry c
    | .failed s => retire s core entry c
    | .waits s => s
  | _, _ => retire s core entry c

/-- SPCOMMIT_EXECUTE (R232): after the gang's earlier SPSTs, SPSTATEs and SPALLOCs. -/
def execSpcommitExecute (core entry : Nat) (s : State) : Host.Outcome State Fault Refusal :=
  match commandAt s core entry with
  | some c =>
    match c.instr, c.phase with
    | .spcommit _ _ _, .ready =>
      if opsOver s c.after = false ∨ statesPending s core c = true then .next s
      else .next (executeClose s core entry c (fun d e => runCommit d (c.uni.getD 1 0).toNat e))
    | _, _ => .next s
  | none => .next s

/-- SPABORT_EXECUTE (R234). -/
def execSpabortExecute (core entry : Nat) (s : State) : Host.Outcome State Fault Refusal :=
  match commandAt s core entry with
  | some c =>
    match c.instr, c.phase with
    | .spabort _ _, .ready => if opsOver s c.after = false then .next s else .next (executeClose s core entry c runAbort)
    | _, _ => .next s
  | none => .next s

/-! ### TREEMASK (R239) -/

/-- The masks of the participants, built in rising lanes: bit l and the mask of the parent. -/
def treeMasks (g : Gang) (ps : List Nat) (a : Nat) : Table Word :=
  ps.foldl (fun t l =>
    let p := (vReg (threadOf g l) a).val
    tset 0 t l (laneBit l + if p = BitVec.allOnes 32 then 0 else tget 0 t p.toNat)) []

/-- Whether a participant names no parent below itself and is no root. -/
def badParent (g : Gang) (a l : Nat) : Bool :=
  let p := (vReg (threadOf g l) a).val.toInt
  decide (p < -1 ∨ (l : Int) ≤ p)

/-- TREEMASK (R239). -/
def execTreemask (gd : BitVec 4) (d a : BitVec 6) (s : State) : Host.Outcome State Fault Refusal :=
  let i : Instr := .treemask gd d a
  runWord i s (fun t iss act =>
    let g := t.g s
    let ps := lanesOf act
    let bad := ps.filter (badParent g a.toNat)
    match bad with
    | l0 :: _ =>
      let x : Trap := { cause := 0x10, aux0 := maskWhere (fun l => bad.contains l),
                        aux1 := (vReg (threadOf g l0) a.toNat).val }
      { st := s, traps := ps.map (fun l => (l, t.trap x)), moves := t.onward 1 iss }
    | [] =>
      let m := treeMasks g ps a.toNat
      { st := modGang s t.blk t.gang (fun x => ps.foldl (fun x l =>
          let v := tget 0 m l
          modThreadOf x l (fun _ => writeV (threadOf g l) d.toNat v
            (ps.any (fun k => v.getLsbD k && refPoison g k (.v a.toNat))))) x)
        moves := t.onward 1 iss })

end Sys2Proof.Machine
end

