-- ==== Sys2Proof/Machine/Contexts.lean ====
section
/-! DEFINITION. The context pages (spec/13 13.5, 13.6: R339, R340, R342 to R346): enabling, freezing, evicting, thawing and
tearing down a context. -/

namespace Sys2Proof.Machine

/-! ### Enabling (R339, R340) -/

/-- The requests of one write of CTXCTL. -/
abbrev ctlEnable (v : Word) : Bool := v.getLsbD 31
/-- The privilege bit of a write of CTXCTL. -/
abbrev ctlPrivileged (v : Word) : Bool := v.getLsbD 30

/-- The first part of a write of CTXCTL (R339, R340): enable and privileged change only while enable is 0; the freeze record
goes as enable is set (R345). A resident context keeps its enable bit. -/
def writeEnable (s : State) (c : Nat) (v : Word) : State :=
  modContext s c (fun x =>
    if x.enable then x
    else if ctlEnable v then
      { x with enable := true, privileged := ctlPrivileged v, frozen := false, tearing := false, reason := 0, later := 0,
               frz0 := 0, frz1 := 0, frz2 := 0, frz3 := 0 }
    else { x with privileged := ctlPrivileged v })

/-- Whether requests to a context are heard: it is resident (R340), and the device is ready (R398). -/
def hears (s : State) (c : Nat) : Bool := ready s && (getContext s c).enable

/-! ### Freeze, evict, thaw (R342, R344, R346) -/

/-- A freeze request (R342): reason 0x08. -/
def requestFreeze (s : State) (c : Nat) : State := if hears s c then freezeCtx s c 8 0 0 0 0 else s

/-- An evict request (R346): every placed chain of the context that can be saved. -/
def requestEvict (s : State) (c : Nat) : State :=
  if hears s c then
    ((blockList s).filter (fun e => e.2.ctx == c && e.2.stage == 0 && (coreOf e.2).isSome)).foldl
      (fun s e => askSave s (chainBlocks s e.2.launch e.2.chain)) s
  else s

/-- The traps pending in a unit's threads, taken from them as they leave the handler state of the failed entry (R344). -/
def releaseStalled (s : State) (id g : Nat) (u : ExecUnit) : State :=
  let gg := getGang s id g
  let traps := (lanesOf u.lanes).filterMap (fun l => ((threadOf gg l).stalled).map (fun x => (l, x)))
  if traps.isEmpty then s
  else
    let s := traps.foldl (fun s e => modThread s id g e.1 (fun t => { t with handler := false, stalled := none })) s
    takeTraps s id g traps u.pc u.lastIssue

/-- A gang after a thaw: halted units go on (R344). -/
def goOnHalted (g : Gang) : Gang :=
  { g with units := g.units.map (fun u => if u.wait = .halted then { u with wait := .none } else u) }

/-- The units of a block after a thaw (R344). -/
def thawBlock (s : State) (id : Nat) (b : Block) : State :=
  (List.range b.gangs.length).foldl (fun s g =>
    let s := modGang s id g goOnHalted
    (gangOf b g).units.foldl (fun s u => releaseStalled s id g u) s) s

/-- A thaw (R344); ignored where the context is not frozen (R340). -/
def requestThaw (s : State) (c : Nat) : State :=
  if hears s c = false ∨ (getContext s c).frozen = false then s
  else
    let s := modContext s c (fun x => { x with frozen := false, reason := 0, later := 0 })
    ((blockList s).filter (fun e => e.2.ctx == c)).foldl (fun s e => thawBlock s e.1 e.2) s

/-- A teardown request (R345). -/
def requestTeardown (s : State) (c : Nat) : State :=
  if hears s c then modContext s c (fun x => { x with tearing := true }) else s

/-- A write of CTXCTL (R339, R340): its requests act in the order freeze, evict, thaw, teardown; one that would clear enable of a
resident context, with no teardown requested before or by it, has no effect: DEDUCED, log 97. -/
def writeCtxctl (s : State) (c : Nat) (v : Word) : State :=
  if ready s = false then s
  else
    let heard := ctlEnable v || v.getLsbD 28 || !(getContext s c).enable || (getContext s c).tearing
    let s := writeEnable s c v
    if heard = false then s
    else
    let s := if v.getLsbD 27 then requestFreeze s c else s
    let s := if v.getLsbD 26 then requestEvict s c else s
    let s := if v.getLsbD 29 then requestThaw s c else s
    if v.getLsbD 28 then requestTeardown s c else s

/-- CONTEXT_ENABLE (R340). -/
def execContextEnable (c : BitVec 6) (value : BitVec 32) (s : State) : Host.Outcome State Fault Refusal :=
  .next (writeCtxctl s c.toNat value)

/-- CONTEXT_FREEZE_REQUEST (R342). -/
def execContextFreezeRequest (c : BitVec 6) (s : State) : Host.Outcome State Fault Refusal := .next (requestFreeze s c.toNat)

/-- CONTEXT_EVICT (R346). -/
def execContextEvict (c : BitVec 6) (s : State) : Host.Outcome State Fault Refusal := .next (requestEvict s c.toNat)

/-- CONTEXT_THAW (R344). -/
def execContextThaw (c : BitVec 6) (s : State) : Host.Outcome State Fault Refusal := .next (requestThaw s c.toNat)

/-- CONTEXT_TEARDOWN (R345). -/
def execContextTeardown (c : BitVec 6) (s : State) : Host.Outcome State Fault Refusal := .next (requestTeardown s c.toNat)

/-! ### The end of a teardown (R345) -/

/-- The blocks of a context. -/
def contextBlocks (s : State) (c : Nat) : List (Nat × Block) := (blockList s).filter (fun e => e.2.ctx == c)

/-- Whether a block stands still (R345, item 1): at a run boundary, or anywhere in a frozen context, and what it has issued
is over, but for commands that are stopped, wait on a ring generation or have only parked elements. -/
def isStill (s : State) (frozen : Bool) (id : Nat) (b : Block) : Bool :=
  match coreOf b with
  | none => true
  | some c =>
    (frozen || (match (getCore s c).run with | some r => r.block != id | none => true)) &&
      s.ops.all (fun e => match e.2 with | some o => o.block != id | none => true) &&
      (getCore s c).mx.all (fun m => m.block != id) &&
      (getDie s (dieOf (clusterOf c))).sends.all (fun x => x.block != id) &&
      (entriesOf s c id).all (fun e => savable s c e.1 e.2)

/-- A block discarded with all it holds on its core. -/
def discardBlock (s : State) (id : Nat) (b : Block) : State :=
  let s := setBlock (dropOps s id) id none
  match coreOf b with
  | none => s
  | some c =>
    let s := (entriesOf s c id).foldl (fun s e => setEntry s c e.1 none) s
    let s := modCore s c (fun k => { k with run := match k.run with | some r => if r.block = id then none else some r | none => none })
    dropConsts s c b.launch

/-- The launches and children of a context dropped (R345, item 2): no number is written for them; the numbers of its
children are passed over in their die's order. -/
def dropLaunches (s : State) (c : Nat) : State :=
  let mine := (launchList s).filter (fun e => e.2.ctx == c)
  let children (d : Nat) : List Word :=
    (mine.filterMap (fun e => match e.2.origin with | .child k n => if k = d then some n else none | _ => none)) ++
      (((getDie s d).dq.filter (fun x => x.ctx == c && x.launch == none)).map Child.seq)
  let s := [0, 1].foldl (fun s d =>
    (children d).foldl (fun s n => endChild s d n false) s) s
  let s := mine.foldl (fun s e => setLaunch s e.1 none) s
  { s with plans := s.plans.filter (fun p => mine.all (fun e => e.1 != p.launch)) }

/-- The open windows of a context closed in turn (R345, item 3). -/
def tearWindows (c : Nat) : List Nat → Errand Unit
  | [] => return ()
  | e :: es => do
    tearWindow { core := 0, ctx := c, blk := 0, gang := 0, lane := 0 } e
    tearWindows c es

/-- The open windows of a context. -/
def openWindows (s : State) (c : Nat) : List Nat := (s.windows.filter (fun e => e.2.live && e.2.ctx == c)).map (fun e => e.1)

/-- The device's memory as a home slice keeps it: whether a write-back of the context waits. -/
def backsOf (s : State) (c : Nat) : Bool := s.backs.any (fun b => b.ctx == c)

/-- The context's dirty lines written back and its translations and L1 lines removed (R345, item 4). -/
def clearContextLines (s : State) (c : Nat) : State :=
  invalidateTranslations ((List.range 40).foldl (fun s cl => cleanContext s cl (some c)) s) (some c) none

/-- TEARDOWN_END (R345): once every block of the context stands still. -/
def execTeardownEnd (c : BitVec 6) (s : State) : Host.Outcome State Fault Refusal :=
  let n := c.toNat
  let x := getContext s n
  let bs := contextBlocks s n
  if x.tearing = false ∨ bs.all (fun e => isStill s x.frozen e.1 e.2) = false then .next s
  else
    let s := dropLaunches (bs.foldl (fun s e => discardBlock s e.1 e.2) s) n
    match runErrand (.teardown n) (tearWindows n (openWindows s n)) s with
    | .failed s => .next s
    | .waits s => .next s
    | .done _ s =>
      let s := clearContextLines s n
      .next (if backsOf s n then s
        else modContext s n (fun x => { x with enable := false, frozen := false, tearing := false, reason := 0, later := 0 }))

end Sys2Proof.Machine
end

