-- ==== Sys2Proof/Machine/Arith.lean ====
section
/-! DEFINITION. The integer functions of spec/04: arithmetic (R99), logic, shifts and bit fields (R101, R102), on values of
32 or 64 bits, and the reductions of Table 4.5. -/

namespace Sys2Proof.Machine

variable {w : Nat}

/-- The high half of the signed product (MULH, R99). -/
def mulHigh (a b : BitVec w) : BitVec w := BitVec.ofInt w (a.toInt * b.toInt / 2 ^ w)

/-- The signed minimum (MIN, R99). -/
def minSigned (a b : BitVec w) : BitVec w := if a.sle b then a else b

/-- The signed maximum (MAX, R99). -/
def maxSigned (a b : BitVec w) : BitVec w := if b.sle a then a else b

/-- The absolute value (ABS, R99): the most negative value gives itself. -/
def absSigned (b : BitVec w) : BitVec w := BitVec.ofNat w b.toInt.natAbs

/-- The quotient rounded toward zero, all ones for a zero divisor (DIV, R99). -/
def divSigned (a b : BitVec w) : BitVec w := if b = 0 then BitVec.allOnes w else BitVec.ofInt w (a.toInt.tdiv b.toInt)

/-- The remainder of that quotient, all ones for a zero divisor (REM, R99). -/
def remSigned (a b : BitVec w) : BitVec w :=
  if b = 0 then BitVec.allOnes w else BitVec.ofInt w (a.toInt - b.toInt * a.toInt.tdiv b.toInt)

/-- An address plus a signed 32-bit offset (LEA, R99). -/
def leaSum (a : Dword) (b : Word) : Dword := a + b.signExtend 64

/-- SHL (R101, R102): 0 for an amount of the width or more. -/
def shlBy (a : BitVec w) (n : Nat) : BitVec w := if n < w then a <<< n else 0

/-- SHR (R101, R102). -/
def shrBy (a : BitVec w) (n : Nat) : BitVec w := if n < w then a >>> n else 0

/-- SRA (R101, R102): a fill with the sign for an amount of the width or more. -/
def sraBy (a : BitVec w) (n : Nat) : BitVec w := a.sshiftRight (min n (w - 1))

/-- ROT (R101, R104): a rotation to the left by the amount modulo the width. -/
def rotBy (a : BitVec w) (n : Nat) : BitVec w := a <<< (n % w) ||| a >>> (w - n % w)

/-- The length of a bit field (BFE and BFI, R101): bits 13 to 8 of the control, at most 32. -/
abbrev fieldLen (b : Word) : Nat := min (b.extractLsb' 8 6).toNat 32

/-- The position of a bit field: bits 4 to 0 of the control. -/
abbrev fieldPos (b : Word) : Nat := (b.extractLsb' 0 5).toNat

/-- BFE (R101). -/
def bitFieldExtract (a b : Word) : Word :=
  let f := a.toNat / 2 ^ fieldPos b % 2 ^ fieldLen b
  BitVec.ofInt 32 (if b.getLsbD 16 ∧ 0 < fieldLen b ∧ f.testBit (fieldLen b - 1) then (f : Int) - 2 ^ fieldLen b else f)

/-- BFI (R101). -/
def bitFieldInsert (d a b : Word) : Word :=
  let m : Word := BitVec.ofNat 32 ((2 ^ fieldLen b - 1) * 2 ^ fieldPos b)
  (d &&& ~~~m) ||| BitVec.ofNat 32 (a.toNat % 2 ^ fieldLen b * 2 ^ fieldPos b)

/-- POPC (R101). -/
def popCount (b : Word) : Word := BitVec.ofNat 32 (lanesOf b).length

/-- CLZ (R101): 32 for 0. -/
def leadingZeros (b : Word) : Word := BitVec.ofNat 32 (32 - bitLength b.toNat)

/-- BREV (R101). -/
def reverseBits (b : Word) : Word := maskWhere (fun i => b.getLsbD (31 - i))

/-- The integer reductions of Table 4.5: 0 add, 1 and 2 signed minimum and maximum, 3 and 4 unsigned, 5 and, 6 or,
7 xor. -/
def reduceInt (op : Nat) (x y : Word) : Word :=
  match op with
  | 0 => x + y
  | 1 => minSigned x y
  | 2 => maxSigned x y
  | 3 => if x.ule y then x else y
  | 4 => if y.ule x then x else y
  | 5 => x &&& y
  | 6 => x ||| y
  | _ => x ^^^ y

/-- The identity of a reduction (Table 4.5). -/
def reduceIdentity (op : Nat) : Word :=
  match op with
  | 1 => 0x7FFFFFFF
  | 2 => 0x80000000
  | 3 => 0xFFFFFFFF
  | 5 => 0xFFFFFFFF
  | 8 => 0x80000000
  | 9 => 0x7F800000
  | 10 => 0xFF800000
  | _ => 0

end Sys2Proof.Machine
end

