-- ==== Sys2Proof/Machine/Float.lean ====
section
/-! DEFINITION. Floating-point arithmetic, special functions and FCMP (spec/06 6.1 to 6.3: R182 to R188). -/

namespace Sys2Proof.Machine

/-- The values of some v registers of a thread. -/
abbrev valsV (x : Thread) (ns : List (BitVec 6)) : List Word := ns.map (fun n => (vReg x n.toNat).val)

/-- The values of v registers, then a k register (R182, F-K). -/
abbrev valsK (g : Gang) (x : Thread) (ns : List (BitVec 6)) (b : BitVec 6) : List Word :=
  valsV x ns ++ [(kReg g b.toNat).val]

/-- FADD, FP32 (R182, R183). -/
def execFadd (gd : BitVec 4) (d a b : BitVec 6) (s : State) : Host.Outcome State Fault Refusal :=
  fpWord (.fadd gd d a b) s fp32 false d.toNat (fun _ x => valsV x [a, b])
    (fun m e => fAdd fp32 m (e.getD 0 0) (e.getD 1 0))

/-- FSUB, FP32 (R182, R183). -/
def execFsub (gd : BitVec 4) (d a b : BitVec 6) (s : State) : Host.Outcome State Fault Refusal :=
  fpWord (.fsub gd d a b) s fp32 false d.toNat (fun _ x => valsV x [a, b])
    (fun m e => fSub fp32 m (e.getD 0 0) (e.getD 1 0))

/-- FMUL, FP32 (R182, R183). -/
def execFmul (gd : BitVec 4) (d a b : BitVec 6) (s : State) : Host.Outcome State Fault Refusal :=
  fpWord (.fmul gd d a b) s fp32 false d.toNat (fun _ x => valsV x [a, b])
    (fun m e => fMul fp32 m (e.getD 0 0) (e.getD 1 0))

/-- FFMA, FP32 (R182, R183): a × b + d with one rounding. -/
def execFfma (gd : BitVec 4) (d a b : BitVec 6) (s : State) : Host.Outcome State Fault Refusal :=
  fpWord (.ffma gd d a b) s fp32 false d.toNat (fun _ x => valsV x [a, b, d])
    (fun m e => fFma fp32 m (e.getD 0 0) (e.getD 1 0) (e.getD 2 0))

/-- FMIN, FP32 (R182, R56). -/
def execFmin (gd : BitVec 4) (d a b : BitVec 6) (s : State) : Host.Outcome State Fault Refusal :=
  fpWord (.fmin gd d a b) s fp32 false d.toNat (fun _ x => valsV x [a, b])
    (fun _ e => minNum fp32 (e.getD 0 0) (e.getD 1 0))

/-- FMAX, FP32 (R182, R56). -/
def execFmax (gd : BitVec 4) (d a b : BitVec 6) (s : State) : Host.Outcome State Fault Refusal :=
  fpWord (.fmax gd d a b) s fp32 false d.toNat (fun _ x => valsV x [a, b])
    (fun _ e => maxNum fp32 (e.getD 0 0) (e.getD 1 0))

/-- FABS, FP32 (R182, R56). -/
def execFabs (gd : BitVec 4) (d b : BitVec 6) (s : State) : Host.Outcome State Fault Refusal :=
  fpWord (.fabs gd d b) s fp32 false d.toNat (fun _ x => valsV x [b])
    (fun _ e => fAbs fp32 (e.getD 0 0))

/-- FNEG, FP32 (R182, R56). -/
def execFneg (gd : BitVec 4) (d b : BitVec 6) (s : State) : Host.Outcome State Fault Refusal :=
  fpWord (.fneg gd d b) s fp32 false d.toNat (fun _ x => valsV x [b])
    (fun _ e => fNeg fp32 (e.getD 0 0))

/-- FADD, FP32, b a k register (R182, R183). -/
def execFaddK (gd : BitVec 4) (d a b : BitVec 6) (s : State) : Host.Outcome State Fault Refusal :=
  fpWord (.faddK gd d a b) s fp32 false d.toNat (fun g x => valsK g x [a] b)
    (fun m e => fAdd fp32 m (e.getD 0 0) (e.getD 1 0))

/-- FSUB, FP32, b a k register (R182, R183). -/
def execFsubK (gd : BitVec 4) (d a b : BitVec 6) (s : State) : Host.Outcome State Fault Refusal :=
  fpWord (.fsubK gd d a b) s fp32 false d.toNat (fun g x => valsK g x [a] b)
    (fun m e => fSub fp32 m (e.getD 0 0) (e.getD 1 0))

/-- FMUL, FP32, b a k register (R182, R183). -/
def execFmulK (gd : BitVec 4) (d a b : BitVec 6) (s : State) : Host.Outcome State Fault Refusal :=
  fpWord (.fmulK gd d a b) s fp32 false d.toNat (fun g x => valsK g x [a] b)
    (fun m e => fMul fp32 m (e.getD 0 0) (e.getD 1 0))

/-- FFMA, FP32, b a k register (R182, R183): a × b + d with one rounding. -/
def execFfmaK (gd : BitVec 4) (d a b : BitVec 6) (s : State) : Host.Outcome State Fault Refusal :=
  fpWord (.ffmaK gd d a b) s fp32 false d.toNat (fun g x => valsK g x [a] b ++ valsV x [d])
    (fun m e => fFma fp32 m (e.getD 0 0) (e.getD 1 0) (e.getD 2 0))

/-- FMIN, FP32, b a k register (R182, R56). -/
def execFminK (gd : BitVec 4) (d a b : BitVec 6) (s : State) : Host.Outcome State Fault Refusal :=
  fpWord (.fminK gd d a b) s fp32 false d.toNat (fun g x => valsK g x [a] b)
    (fun _ e => minNum fp32 (e.getD 0 0) (e.getD 1 0))

/-- FMAX, FP32, b a k register (R182, R56). -/
def execFmaxK (gd : BitVec 4) (d a b : BitVec 6) (s : State) : Host.Outcome State Fault Refusal :=
  fpWord (.fmaxK gd d a b) s fp32 false d.toNat (fun g x => valsK g x [a] b)
    (fun _ e => maxNum fp32 (e.getD 0 0) (e.getD 1 0))

/-- FABS, FP32, b a k register (R182, R56). -/
def execFabsK (gd : BitVec 4) (d b : BitVec 6) (s : State) : Host.Outcome State Fault Refusal :=
  fpWord (.fabsK gd d b) s fp32 false d.toNat (fun g _ => [(kReg g b.toNat).val])
    (fun _ e => fAbs fp32 (e.getD 0 0))

/-- FNEG, FP32, b a k register (R182, R56). -/
def execFnegK (gd : BitVec 4) (d b : BitVec 6) (s : State) : Host.Outcome State Fault Refusal :=
  fpWord (.fnegK gd d b) s fp32 false d.toNat (fun g _ => [(kReg g b.toNat).val])
    (fun _ e => fNeg fp32 (e.getD 0 0))

/-- FADD, f16x2 (R182, R183). -/
def execFaddF16x2 (gd : BitVec 4) (d a b : BitVec 6) (s : State) : Host.Outcome State Fault Refusal :=
  fpWord (.faddF16x2 gd d a b) s fp16 true d.toNat (fun _ x => valsV x [a, b])
    (fun m e => fAdd fp16 m (e.getD 0 0) (e.getD 1 0))

/-- FSUB, f16x2 (R182, R183). -/
def execFsubF16x2 (gd : BitVec 4) (d a b : BitVec 6) (s : State) : Host.Outcome State Fault Refusal :=
  fpWord (.fsubF16x2 gd d a b) s fp16 true d.toNat (fun _ x => valsV x [a, b])
    (fun m e => fSub fp16 m (e.getD 0 0) (e.getD 1 0))

/-- FMUL, f16x2 (R182, R183). -/
def execFmulF16x2 (gd : BitVec 4) (d a b : BitVec 6) (s : State) : Host.Outcome State Fault Refusal :=
  fpWord (.fmulF16x2 gd d a b) s fp16 true d.toNat (fun _ x => valsV x [a, b])
    (fun m e => fMul fp16 m (e.getD 0 0) (e.getD 1 0))

/-- FFMA, f16x2 (R182, R183): a × b + d with one rounding. -/
def execFfmaF16x2 (gd : BitVec 4) (d a b : BitVec 6) (s : State) : Host.Outcome State Fault Refusal :=
  fpWord (.ffmaF16x2 gd d a b) s fp16 true d.toNat (fun _ x => valsV x [a, b, d])
    (fun m e => fFma fp16 m (e.getD 0 0) (e.getD 1 0) (e.getD 2 0))

/-- FMIN, f16x2 (R182, R56). -/
def execFminF16x2 (gd : BitVec 4) (d a b : BitVec 6) (s : State) : Host.Outcome State Fault Refusal :=
  fpWord (.fminF16x2 gd d a b) s fp16 true d.toNat (fun _ x => valsV x [a, b])
    (fun _ e => minNum fp16 (e.getD 0 0) (e.getD 1 0))

/-- FMAX, f16x2 (R182, R56). -/
def execFmaxF16x2 (gd : BitVec 4) (d a b : BitVec 6) (s : State) : Host.Outcome State Fault Refusal :=
  fpWord (.fmaxF16x2 gd d a b) s fp16 true d.toNat (fun _ x => valsV x [a, b])
    (fun _ e => maxNum fp16 (e.getD 0 0) (e.getD 1 0))

/-- FABS, f16x2 (R182, R56). -/
def execFabsF16x2 (gd : BitVec 4) (d b : BitVec 6) (s : State) : Host.Outcome State Fault Refusal :=
  fpWord (.fabsF16x2 gd d b) s fp16 true d.toNat (fun _ x => valsV x [b])
    (fun _ e => fAbs fp16 (e.getD 0 0))

/-- FNEG, f16x2 (R182, R56). -/
def execFnegF16x2 (gd : BitVec 4) (d b : BitVec 6) (s : State) : Host.Outcome State Fault Refusal :=
  fpWord (.fnegF16x2 gd d b) s fp16 true d.toNat (fun _ x => valsV x [b])
    (fun _ e => fNeg fp16 (e.getD 0 0))

/-- FADD, bf16x2 (R182, R183). -/
def execFaddBf16x2 (gd : BitVec 4) (d a b : BitVec 6) (s : State) : Host.Outcome State Fault Refusal :=
  fpWord (.faddBf16x2 gd d a b) s bf16 true d.toNat (fun _ x => valsV x [a, b])
    (fun m e => fAdd bf16 m (e.getD 0 0) (e.getD 1 0))

/-- FSUB, bf16x2 (R182, R183). -/
def execFsubBf16x2 (gd : BitVec 4) (d a b : BitVec 6) (s : State) : Host.Outcome State Fault Refusal :=
  fpWord (.fsubBf16x2 gd d a b) s bf16 true d.toNat (fun _ x => valsV x [a, b])
    (fun m e => fSub bf16 m (e.getD 0 0) (e.getD 1 0))

/-- FMUL, bf16x2 (R182, R183). -/
def execFmulBf16x2 (gd : BitVec 4) (d a b : BitVec 6) (s : State) : Host.Outcome State Fault Refusal :=
  fpWord (.fmulBf16x2 gd d a b) s bf16 true d.toNat (fun _ x => valsV x [a, b])
    (fun m e => fMul bf16 m (e.getD 0 0) (e.getD 1 0))

/-- FFMA, bf16x2 (R182, R183): a × b + d with one rounding. -/
def execFfmaBf16x2 (gd : BitVec 4) (d a b : BitVec 6) (s : State) : Host.Outcome State Fault Refusal :=
  fpWord (.ffmaBf16x2 gd d a b) s bf16 true d.toNat (fun _ x => valsV x [a, b, d])
    (fun m e => fFma bf16 m (e.getD 0 0) (e.getD 1 0) (e.getD 2 0))

/-- FMIN, bf16x2 (R182, R56). -/
def execFminBf16x2 (gd : BitVec 4) (d a b : BitVec 6) (s : State) : Host.Outcome State Fault Refusal :=
  fpWord (.fminBf16x2 gd d a b) s bf16 true d.toNat (fun _ x => valsV x [a, b])
    (fun _ e => minNum bf16 (e.getD 0 0) (e.getD 1 0))

/-- FMAX, bf16x2 (R182, R56). -/
def execFmaxBf16x2 (gd : BitVec 4) (d a b : BitVec 6) (s : State) : Host.Outcome State Fault Refusal :=
  fpWord (.fmaxBf16x2 gd d a b) s bf16 true d.toNat (fun _ x => valsV x [a, b])
    (fun _ e => maxNum bf16 (e.getD 0 0) (e.getD 1 0))

/-- FABS, bf16x2 (R182, R56). -/
def execFabsBf16x2 (gd : BitVec 4) (d b : BitVec 6) (s : State) : Host.Outcome State Fault Refusal :=
  fpWord (.fabsBf16x2 gd d b) s bf16 true d.toNat (fun _ x => valsV x [b])
    (fun _ e => fAbs bf16 (e.getD 0 0))

/-- FNEG, bf16x2 (R182, R56). -/
def execFnegBf16x2 (gd : BitVec 4) (d b : BitVec 6) (s : State) : Host.Outcome State Fault Refusal :=
  fpWord (.fnegBf16x2 gd d b) s bf16 true d.toNat (fun _ x => valsV x [b])
    (fun _ e => fNeg bf16 (e.getD 0 0))

/-! ### Special functions (R186, R187) -/

/-- The result of a special function for a thread: x read and the result written under R55; FCLS gives its class mask. -/
def specialBits (code : Nat) (m : FpMode) (x : Nat) : Nat :=
  if code = 8 then classMask x
  else
    let r := specialResult code x (readF fp32 m.ftz x)
    match decodeF fp32 r with
    | .fin y => if m.ftz ∧ dyLog y < fp32.emin ∧ y.m ≠ 0 then codeBits fp32 y.neg 0 else r
    | _ => r

/-- Whether a special function raises FP_NONFINITE (R60, R186): FCLS never does. -/
def specialFails (code : Nat) (m : FpMode) (x : Nat) : Bool :=
  code != 8 && m.nft && specialTraps (readF fp32 m.ftz x) (specialBits code m x)

/-- A special function (R186): a long-latency producer in the threads that do not trap. -/
def specialWord (i : Instr) (s : State) (code : Nat) (d b : BitVec 6) : Host.Outcome State Fault Refusal :=
  runWord i s (fun t iss act =>
    let g := t.g s
    let x (l : Nat) : Nat := (vReg (threadOf g l) b.toNat).val.toNat
    let m (l : Nat) : FpMode := fpMode (threadOf g l)
    let ok := (lanesOf act).filter (fun l => !specialFails code (m l) (x l))
    let bad := (lanesOf act).filter (fun l => specialFails code (m l) (x l))
    { st := if ok.isEmpty then s else startProducer s t ok (vs d.toNat 1) (ok.map (fun l =>
        { lane := l, reg := d.toNat, val := BitVec.ofNat 32 (specialBits code (m l) (x l)),
          poison := (vReg (threadOf g l) b.toNat).poison }))
      traps := bad.map (fun l => (l, t.trap (nonFiniteTrap t 0)))
      moves := t.onward i.words iss })

/-- FRCP (Table 6.3). -/
def execFrcp (gd : BitVec 4) (d b : BitVec 6) (s : State) : Host.Outcome State Fault Refusal :=
  specialWord (.frcp gd d b) s 0 d b

/-- FRSQ (Table 6.3). -/
def execFrsq (gd : BitVec 4) (d b : BitVec 6) (s : State) : Host.Outcome State Fault Refusal :=
  specialWord (.frsq gd d b) s 1 d b

/-- FSQRT (Table 6.3). -/
def execFsqrt (gd : BitVec 4) (d b : BitVec 6) (s : State) : Host.Outcome State Fault Refusal :=
  specialWord (.fsqrt gd d b) s 2 d b

/-- FEX2 (Table 6.3). -/
def execFex2 (gd : BitVec 4) (d b : BitVec 6) (s : State) : Host.Outcome State Fault Refusal :=
  specialWord (.fex2 gd d b) s 3 d b

/-- FLG2 (Table 6.3). -/
def execFlg2 (gd : BitVec 4) (d b : BitVec 6) (s : State) : Host.Outcome State Fault Refusal :=
  specialWord (.flg2 gd d b) s 4 d b

/-- FSIN (Table 6.3). -/
def execFsin (gd : BitVec 4) (d b : BitVec 6) (s : State) : Host.Outcome State Fault Refusal :=
  specialWord (.fsin gd d b) s 5 d b

/-- FCOS (Table 6.3). -/
def execFcos (gd : BitVec 4) (d b : BitVec 6) (s : State) : Host.Outcome State Fault Refusal :=
  specialWord (.fcos gd d b) s 6 d b

/-- FTANH (Table 6.3). -/
def execFtanh (gd : BitVec 4) (d b : BitVec 6) (s : State) : Host.Outcome State Fault Refusal :=
  specialWord (.ftanh gd d b) s 7 d b

/-- FCLS (Table 6.3). -/
def execFcls (gd : BitVec 4) (d b : BitVec 6) (s : State) : Host.Outcome State Fault Refusal :=
  specialWord (.fcls gd d b) s 8 d b

/-- FCMP (R188): the comparison of two FP32 operands, combined into pd. -/
def execFcmp (gd : BitVec 4) (pd : BitVec 3) (comb : BitVec 2) (a b : BitVec 6) (cond : BitVec 4) (s : State) :
    Host.Outcome State Fault Refusal :=
  predWord (.fcmp gd pd comb a b cond) s pd.toNat (fun _ _ x =>
    let ftz := (fpMode x).ftz
    combine comb.toNat
      (fpCond cond.toNat (readF fp32 ftz (vReg x a.toNat).val.toNat) (readF fp32 ftz (vReg x b.toNat).val.toNat))
      (pReg x pd.toNat).val)

end Sys2Proof.Machine
end

