-- ==== Sys2Proof/Machine/Convert.lean ====
section
/-! DEFINITION. Conversion (spec/06 6.4: CVT, CVTPK and CVTUP, R189 to R192). -/

namespace Sys2Proof.Machine

/-- The bits of a conversion's source: a register, or a pair for a 64-bit format (R189). -/
def convertSource (x : Thread) (a src : Nat) : Nat :=
  if src = 11 ∨ src = 12 then (pairV x a).toNat else (vReg x a).val.toNat

/-- CVT (R189, R190). -/
def execCvt (gd : BitVec 4) (d a : BitVec 6) (src : BitVec 4) (sat rz : BitVec 1) (dst : BitVec 4) (s : State) :
    Host.Outcome State Fault Refusal :=
  laneWord (.cvt gd d a src sat rz dst) s (fun t g l =>
    let x := threadOf g l
    let m := fpMode x
    let (y, srcOk, resOk) := convertBits src.toNat dst.toNat (sat == 1) (rz == 1) m (convertSource x a.toNat src.toNat)
    let p := anyPoison g l (sources (.cvt gd d a src sat rz dst))
    if nonFinite m resOk [srcOk] then .error (nonFiniteTrap t 0)
    else if dst = 11 ∨ dst = 12 then .ok (writePair x d.toNat (BitVec.ofNat 64 y) p)
    else .ok (writeV x d.toNat (BitVec.ofNat 32 y) p))

/-- CVTPK (R191): element i is register a + i converted and placed at its width. -/
def execCvtpk (gd : BitVec 4) (d a : BitVec 6) (fmt : BitVec 4) (sat rz : BitVec 1) (s : State) :
    Host.Outcome State Fault Refusal :=
  laneWord (.cvtpk gd d a fmt sat rz) s (fun t g l =>
    let x := threadOf g l
    let m := fpMode x
    let idx := List.range (packCount fmt.toNat)
    let src (k : Nat) : Nat := (vReg x (a.toNat + k)).val.toNat
    let res (k : Nat) : Nat × Bool := packElement fmt.toNat (sat == 1) (rz == 1) m (src k)
    match nonFiniteElement m idx (fun k => (res k).2) (fun k => [isFinite fp32 (src k)]) with
    | some k => .error (nonFiniteTrap t k)
    | none =>
      .ok (writeV x d.toNat (BitVec.ofNat 32 (idx.foldl (fun n k => n + (res k).1 * 2 ^ (packWidth fmt.toNat * k)) 0))
        (anyPoison g l (sources (.cvtpk gd d a fmt sat rz)))))

/-- CVTUP (R192): element i of a goes to register d + i. -/
def execCvtup (gd : BitVec 4) (d a : BitVec 6) (fmt : BitVec 4) (s : State) : Host.Outcome State Fault Refusal :=
  laneWord (.cvtup gd d a fmt) s (fun _ g l =>
    let x := threadOf g l
    let w := packWidth fmt.toNat
    .ok (writeVs x d.toNat ((List.range (packCount fmt.toNat)).map (fun k =>
      unpackElement fmt.toNat ((vReg x a.toNat).val.toNat / 2 ^ (w * k) % 2 ^ w)))
      (anyPoison g l (sources (.cvtup gd d a fmt)))))

end Sys2Proof.Machine
end

