-- ==== Sys2Proof/Machine/Cross.lean ====
section
/-! DEFINITION. Cross-lane operations (spec/04 4.11: R128 to R132). The participants of a word are its active threads. -/

namespace Sys2Proof.Machine

/-- A participant's v register. -/
abbrev laneReg (g : Gang) (l : Nat) (a : BitVec 6) : Reg := vReg (threadOf g l) a.toNat

/-- Whether any participant's v register is poisoned. -/
abbrev somePoison (g : Gang) (ps : List Nat) (a : BitVec 6) : Bool := ps.any (fun l => (laneReg g l a).poison)

/-- A shuffle's result (R129): the register of the source lane, 0 where that lane is no participant. -/
def shuffled (g : Gang) (ps : List Nat) (a : BitVec 6) (src : Int) : Reg :=
  if 0 ≤ src ∧ src ≤ 31 ∧ src.toNat ∈ ps then laneReg g src.toNat a else {}

/-- SHFL (R129): the source lane is b bits 4 to 0. -/
def execShfl (gd : BitVec 4) (d a b : BitVec 6) (s : State) : Host.Outcome State Fault Refusal :=
  crossWord (.shfl gd d a b) s (fun g ps _ x =>
    let idx := vReg x b.toNat
    let r := shuffled g ps a (idx.val.extractLsb' 0 5).toNat
    writeV x d.toNat r.val (r.poison || idx.poison))

/-- SHFLD (R129): the source lane lies at a signed distance. -/
def execShfld (gd : BitVec 4) (d a b : BitVec 6) (s : State) : Host.Outcome State Fault Refusal :=
  crossWord (.shfld gd d a b) s (fun g ps l x =>
    let r := shuffled g ps a ((l : Int) + b.toInt)
    writeV x d.toNat r.val r.poison)

/-- SHFLX (R129): the source lane is the own lane with some bits inverted. -/
def execShflx (gd : BitVec 4) (d a b : BitVec 6) (s : State) : Host.Outcome State Fault Refusal :=
  crossWord (.shflx gd d a b) s (fun g ps l x =>
    let r := shuffled g ps a ((l ^^^ b.toNat : Nat) : Int)
    writeV x d.toNat r.val r.poison)

/-- The predicates of the participants. -/
abbrev lanePreds (g : Gang) (ps : List Nat) (a : BitVec 6) : List Pred :=
  ps.map (fun l => pReg (threadOf g l) (a.toNat % 8))

/-- PCONS (R130): every, some, same or odd, of the participants' predicates. -/
def execPcons (gd : BitVec 4) (d a b : BitVec 6) (s : State) : Host.Outcome State Fault Refusal :=
  crossWord (.pcons gd d a b) s (fun g ps _ x =>
    let vals := (lanePreds g ps a).map Pred.val
    let r := match b.toNat with
      | 0 => vals.all id
      | 1 => vals.any id
      | 2 => vals.all id || !vals.any id
      | _ => (vals.filter id).length % 2 == 1
    writeP x d.toNat r ((lanePreds g ps a).any Pred.poison))

/-- LMASK (R130): the lane mask of the participants whose predicate is true. -/
def execLmask (gd : BitVec 4) (d a : BitVec 6) (s : State) : Host.Outcome State Fault Refusal :=
  crossWord (.lmask gd d a) s (fun g ps _ x =>
    writeV x d.toNat (maskWhere (fun l => decide (l ∈ ps) && (pReg (threadOf g l) (a.toNat % 8)).val))
      ((lanePreds g ps a).any Pred.poison))

/-! ### Reductions (R131) -/

/-- One combination of Table 4.5 under a floating-point mode. -/
def reduceStep (op : Nat) (m : FpMode) (x y : Word) : Word :=
  match op with
  | 8 => BitVec.ofNat 32 (fAdd fp32 m x.toNat y.toNat)
  | 9 => BitVec.ofNat 32 (minNum fp32 x.toNat y.toNat)
  | 10 => BitVec.ofNat 32 (maxNum fp32 x.toNat y.toNat)
  | _ => reduceInt op x y

/-- Whether an op of Table 4.5 is floating-point. -/
abbrev floatOp (op : Nat) : Bool := 8 ≤ op

/-- A contribution as the word reads it (R131, R55, R56): an FP32 subnormal is a zero under ftz, a NaN is canonical. -/
def contribution (op : Nat) (m : FpMode) (x : Word) : Word :=
  if floatOp op then BitVec.ofNat 32 (convert fp32 (readF fp32 m.ftz x.toNat) 0 false false) else x

/-- Two operands of which either may be absent. -/
def reduceOpt (op : Nat) (m : FpMode) : Option Word → Option Word → Option Word
  | none, y => y
  | x, none => x
  | some x, some y => some (reduceStep op m x y)

/-- One level of the tree of RED: neighbours combined in pairs. -/
def treeLevel (op : Nat) (m : FpMode) : List (Option Word) → List (Option Word)
  | x :: y :: rest => reduceOpt op m x y :: treeLevel op m rest
  | xs => xs

/-- The tree of RED over the 32 lanes: five levels (R131). -/
def treeReduce (op : Nat) (m : FpMode) (xs : List (Option Word)) : Word :=
  (((List.range 5).foldl (fun l _ => treeLevel op m l) xs).headD none).getD 0

/-- FP_NONFINITE of a reduction (R131): the result is not finite though every contribution combined into it is. An
exclusive SCAN that combines none fails so where the op's identity is an infinity. -/
def reduceFails (op : Nat) (m : FpMode) (raw : List Word) (res : Word) : Bool :=
  floatOp op && nonFinite m (isFinite fp32 res.toNat) (raw.map (fun x => isFinite fp32 x.toNat))

/-- The mode of a reduction: that of the lowest participant (R131). -/
def reduceMode (g : Gang) (ps : List Nat) : FpMode := fpMode (threadOf g (ps.headD 0))

/-- RED (R131): every participant receives the combination of all contributions. -/
def execRed (gd : BitVec 4) (d a : BitVec 6) (op : BitVec 4) (s : State) : Host.Outcome State Fault Refusal :=
  lanesWord (.red gd d a op) s (fun t g ps l =>
    let m := reduceMode g ps
    let res := treeReduce op.toNat m (lanes32.map (fun k =>
      if k ∈ ps then some (contribution op.toNat m (laneReg g k a).val) else none))
    if reduceFails op.toNat m (ps.map (fun k => (laneReg g k a).val)) res then .error (nonFiniteTrap t 0)
    else .ok (writeV (threadOf g l) d.toNat res (somePoison g ps a)))

/-- The participants that SCAN combines for a lane (R131). -/
def scanned (excl : BitVec 1) (ps : List Nat) (l : Nat) : List Nat :=
  ps.filter (fun k => if excl = 1 then decide (k < l) else decide (k ≤ l))

/-- SCAN's result for a lane: the combination in rising lane order from the identity (R131). -/
def scanResult (op : Nat) (m : FpMode) (g : Gang) (a : BitVec 6) (ls : List Nat) : Word :=
  ls.foldl (fun x l => reduceStep op m x (contribution op m (laneReg g l a).val)) (reduceIdentity op)

/-- SCAN (R131): inclusive, or exclusive of the own lane. -/
def execScan (gd : BitVec 4) (d a : BitVec 6) (excl : BitVec 1) (op : BitVec 4) (s : State) :
    Host.Outcome State Fault Refusal :=
  lanesWord (.scan gd d a excl op) s (fun t g ps l =>
    let m := reduceMode g ps
    let ls := scanned excl ps l
    let res := scanResult op.toNat m g a ls
    if reduceFails op.toNat m (ls.map (fun k => (laneReg g k a).val)) res then .error (nonFiniteTrap t 0)
    else .ok (writeV (threadOf g l) d.toNat res (somePoison g ls a)))

/-- MATCH (R132): the lane mask of the participants with an equal value. -/
def execMatchEq (gd : BitVec 4) (d a : BitVec 6) (s : State) : Host.Outcome State Fault Refusal :=
  crossWord (.matchEq gd d a) s (fun g ps l x =>
    writeV x d.toNat (maskWhere (fun k => decide (k ∈ ps) && (laneReg g k a).val == (laneReg g l a).val))
      (somePoison g ps a))

/-- CONFLICT (R132): that mask below the own lane. -/
def execConflict (gd : BitVec 4) (d a : BitVec 6) (s : State) : Host.Outcome State Fault Refusal :=
  crossWord (.conflict gd d a) s (fun g ps l x =>
    writeV x d.toNat
      (maskWhere (fun k => decide (k ∈ ps) && decide (k < l) && (laneReg g k a).val == (laneReg g l a).val))
      (somePoison g ps a))

/-- HIST (R132): how many participants hold the own lane's number. -/
def execHist (gd : BitVec 4) (d a : BitVec 6) (s : State) : Host.Outcome State Fault Refusal :=
  crossWord (.hist gd d a) s (fun g ps l x =>
    writeV x d.toNat (BitVec.ofNat 32 (ps.filter (fun k => (laneReg g k a).val.toNat == l)).length)
      (somePoison g ps a))

end Sys2Proof.Machine
end

