-- ==== Sys2Proof/Machine/HostLink.lean ====
section
/-! DEFINITION. The host and other devices (spec/15): host accesses through BAR2 and CXL (R356, R359, R360), requests from
peers (R365 to R367), ports (R366), the forwarder (R369 to R371), the host link, and invalidations (R257). -/

namespace Sys2Proof.Machine

/-! ### Host accesses (R358, R359, R398) -/

/-- The reason for which a host access is not performed (Table 15.7): 5 for a window-owned page, 9 for an address that holds
no memory, and for every address before the boot is over. -/
def hostRefusal (s : State) (pa n : Nat) : Option Nat :=
  let as := (List.range n).map (fun i => pa + i)
  if ready s = false ∨ as.any (fun a => !inDevice a) then some 9
  else if as.any (fun a => s.hostIf.marked.contains (a / 2 ^ 21)) then some 5
  else none

/-- A host access refused (R359): notification type 6. -/
def refuseHost (s : State) (pa reason : Nat) : State := refusedAccess s 0xFFFF pa reason

/-- A message sent. -/
def send (s : State) (m : Message) : State := { s with out := s.out ++ [m] }

/-- The state with the requests of the host that wait. -/
def setHostWaiting (s : State) (rs : List HostHeld) : State := { s with hostIf := { s.hostIf with waiting := rs } }

/-- The identity of a request of the host that arrives: one that no waiting request has. -/
def hostId (s : State) : Nat := (s.hostIf.waiting.map HostHeld.id).foldl max 0 + 1

/-- A request of the host that must wait stands behind those that wait already. -/
def waitAtSlice (s : State) (id : Nat) (r : HostReq) : State := setHostWaiting s (s.hostIf.waiting ++ [{ id := id, req := r }])

/-- The bytes of a range read at the home slices by pieces of one sector; it fails on uncorrectable data. -/
def slicePieces : Nat → Nat → Nat → Errand (List Byte)
  | 0, _, _ => return []
  | fuel + 1, pa, n => do
    if n = 0 then return []
    else
      let k := min n (32 - pa % 32)
      let bs ← Errand.ask (fun s => homeReply (homeRead s pa k whoHost))
      let more ← slicePieces fuel (pa + k) (n - k)
      return bs ++ more

/-- A range read at the home slices for the host or a peer. -/
def sliceRead (who : Asker) (s : State) (pa n : Nat) : ErrandEnd (List Byte) := runErrand who (slicePieces (n / 32 + 2) pa n) s

/-- The bytes of a list written at the home slices by pieces of one sector: those that are left where a piece must wait. -/
def slicedWrite : Nat → Nat → List Byte → State → (Nat × List Byte) × State
  | 0, pa, bs, s => ((pa, bs), s)
  | fuel + 1, pa, bs, s =>
    if bs.isEmpty then ((pa, []), s)
    else
      let k := min bs.length (32 - pa % 32)
      match homeWrite s pa (bs.take k) whoHost with
      | (.blocked, s) => ((pa, bs), s)
      | (_, s) => slicedWrite fuel (pa + k) (bs.drop k) s

/-- Bytes written at the home slices for the host or a peer: the address and bytes left where a piece must wait. -/
def sliceWrite (who : Asker) (s : State) (pa : Nat) (bs : List Byte) : (Nat × List Byte) × State :=
  match slicedWrite (bs.length / 32 + 2) pa bs (askAs s who) with
  | (r, t) => (r, askAs t s.asker)

/-- The bytes that a request covers. -/
def HostReq.range : HostReq → Nat × Nat
  | .read pa n | .cxlRead pa n => (pa, n)
  | .write pa bs | .cxlWrite pa bs => (pa, bs.length)
  | .atomic pa _ wide _ _ => (pa, if wide then 8 else 4)
  | .step _ => (0, 0)

/-- A refused request (R359): a read completes with all bytes 0xFF, a write is dropped. -/
def refusedReply (s : State) : HostReq → State
  | .read _ n => send s (.readData (some (List.replicate n 0xFF)))
  | .cxlRead _ n => send s (.cxlData (some (List.replicate n 0xFF)))
  | .atomic _ _ wide _ _ => send s (.atomicData (if wide then BitVec.allOnes 64 else 0xFFFFFFFF))
  | _ => s

/-- A range of a read's request, with the message that answers it, or the request that waits. -/
def readReply (s : State) (id : Nat) (r : HostReq) (pa n : Nat) (answer : Option (List Byte) → Message) :
    Option HostReq × State :=
  match sliceRead (.host id) s pa n with
  | .done bs s => (none, send s (answer (some bs)))
  | .failed s => (none, send s (answer none))
  | .waits s => (some r, s)

/-- A write's bytes performed, with what is left of them waiting. -/
def writeLeft (s : State) (id pa : Nat) (bs : List Byte) (again : Nat → List Byte → HostReq) : Option HostReq × State :=
  match sliceWrite (.host id) s pa bs with
  | ((_, []), s) => (none, s)
  | ((a, left), s) => (some (again a left), s)

/-- A request performed at the home slices, with what of it waits there; uncorrectable data are answered with poison (R385). -/
def servedReply (s : State) (id : Nat) (r : HostReq) : Option HostReq × State :=
  match r with
  | .read pa n => readReply s id r pa n .readData
  | .cxlRead pa n => readReply s id r pa n .cxlData
  | .write pa bs => writeLeft s id pa bs .write
  | .cxlWrite pa bs => writeLeft s id pa bs .cxlWrite
  | .atomic pa op wide b c =>
    match runErrand (.host id) (Errand.ask (fun s => atomHome s pa whoHost op wide b c)) s with
    | .done old s => (none, send s (.atomicData (BitVec.ofNat 64 (leNat old))))
    | .failed s => (none, send s (.readData none))
    | .waits s => (some r, s)
  | .step _ => (none, s)

/-- A host request to memory (R359), with what of it waits. -/
def hostAttempt (s : State) (id : Nat) (r : HostReq) : Option HostReq × State :=
  match hostRefusal s r.range.1 r.range.2 with
  | some e => (none, refusedReply (refuseHost s r.range.1 e) r)
  | none => servedReply s id r

/-- A host request to memory that arrives (R359). -/
def hostRequest (s : State) (r : HostReq) : State :=
  match hostAttempt s (hostId s) r with
  | (none, t) => t
  | (some left, t) => waitAtSlice t (hostId s) left

/-- HOST_BAR2_READ (R359). -/
def execHostBar2Read (pa : BitVec 40) (len : Nat) (s : State) : Host.Outcome State Fault Refusal :=
  .next (hostRequest s (.read pa.toNat len))

/-- HOST_BAR2_WRITE (R359). -/
def execHostBar2Write (pa : BitVec 40) (bytes : List (BitVec 8)) (s : State) : Host.Outcome State Fault Refusal :=
  .next (hostRequest s (.write pa.toNat bytes))

/-- The op code of Table 5.4 for an AtomicOp. -/
def hostOp : HostAtomic → Nat
  | .fetchAdd => 0
  | .swap => 8
  | .cas => 14

/-- HOST_ATOMICOP (R356): performed at the home slice; the completion holds the old value. -/
def execHostAtomicop (pa : BitVec 40) (op : HostAtomic) (wide : Bool) (b c : BitVec 64) (s : State) :
    Host.Outcome State Fault Refusal := .next (hostRequest s (.atomic pa.toNat (hostOp op) wide b c))

/-- CXL_MEM_ACCESS (R356, R359): a request to the host-managed memory range, while CXL is negotiated. -/
def execCxlMemAccess (pa : BitVec 40) (write : Option (List (BitVec 8))) (len : Nat) (s : State) :
    Host.Outcome State Fault Refusal :=
  if s.link.cxl = false then .next s
  else
    .next (hostRequest s (match write with | some bs => .cxlWrite pa.toNat bs | none => .cxlRead pa.toNat len))

/-! ### Requests from peers (R365 to R368) -/

/-- The bytes of a request. -/
def peerSize : PeerKind → Nat
  | .read n => n
  | .write bs => bs.length
  | .atomic _ wide _ _ => if wide then 8 else 4

/-- What a request needs of an export entry. -/
def peerNeed : PeerKind → PeerNeed
  | .read _ => .read
  | .write _ => .write
  | .atomic _ _ _ _ => .atomic

/-- The parts of a range of export addresses, each within one export entry; `fuel` bounds them. -/
def exportParts : Nat → Nat → Nat → List (Nat × Nat)
  | 0, _, _ => []
  | fuel + 1, ea, n =>
    let k := min n (2 ^ 21 - ea % 2 ^ 21)
    if n = 0 then [] else (ea, k) :: exportParts fuel (ea + k) (n - k)

/-- The checks of each part of a request in turn, under the table that held when it arrived (R365): the physical ranges, or the
reason of the first refusal. -/
def checkParts (r : PeerHeld) : List (Nat × Nat) → Errand (Except Nat (List (Nat × Nat)))
  | [] => return .ok []
  | (ea, n) :: ps => do
    let x : Export ← fun s =>
      match exportAt s r.base r.cnt ea r.req.key.toNat (peerNeed r.req.kind) with
      | (.blocked, s) => .error (.waits s)
      | (e, s) => .ok (e, s)
    match x with
    | .ok pa =>
      match ← checkParts r ps with
      | .ok rs => return .ok ((pa, n) :: rs)
      | .error e => return .error e
    | .refused e => return .error e
    | .blocked => Errand.fail

/-- The bytes of some physical ranges. -/
def readRanges : List (Nat × Nat) → Errand (List Byte)
  | [] => return []
  | (pa, n) :: rs => do
    let bs ← slicePieces (n / 32 + 2) pa n
    let more ← readRanges rs
    return bs ++ more

/-- Bytes written to some physical ranges by pieces of one sector, as one step. -/
def rangePieces : Nat → Nat → List Byte → Errand Unit
  | 0, _, _ => return ()
  | fuel + 1, pa, bs => do
    if bs.isEmpty then return ()
    else
      let k := min bs.length (32 - pa % 32)
      let _ ← (Errand.ask (fun s => writeReply (homeWrite s pa (bs.take k) whoHost))).attempt
      rangePieces fuel (pa + k) (bs.drop k)

/-- Bytes written to some physical ranges in turn. -/
def writeRanges : List (Nat × Nat) → List Byte → Errand Unit
  | [], _ => return ()
  | (pa, n) :: rs, bs => do
    rangePieces (n / 32 + 2) pa (bs.take n)
    writeRanges rs (bs.drop n)

/-- What a request does to its ranges: the bytes that its answer holds. -/
def peerErrand (k : PeerKind) (rs : List (Nat × Nat)) : Errand (List Byte) :=
  match k with
  | .read _ => readRanges rs
  | .write bs => do writeRanges rs bs; return []
  | .atomic op wide b c => Errand.ask (fun s => atomHome s ((rs.headD (0, 0)).1) whoHost op wide b c)

/-- The state with the requests of peers that wait at home slices. -/
def setPeerWaiting (s : State) (rs : List PeerHeld) : State := { s with link := { s.link with waiting := rs } }

/-- Whether two waiting requests are one: it has one number from its source (R366). -/
abbrev PeerHeld.same (r x : PeerHeld) : Bool := x.req.src == r.req.src && x.req.seq == r.req.seq

/-- A request whose checks have passed, performed or waiting. -/
def servePeer (s : State) (r : PeerHeld) (rs : List (Nat × Nat)) : Option PeerHeld × State :=
  match runErrand (.peer r.req.src r.req.seq) (peerErrand r.req.kind rs) s with
  | .done bs s => (none, send s (.peerData r.req.src bs))
  | .failed s => (none, send s (.peerPoison r.req.src))
  | .waits s => (some { r with ranges := some rs }, s)

/-- A request performed or refused, or as it waits (R365). -/
def peerAttempt (s : State) (r : PeerHeld) : Option PeerHeld × State :=
  match r.ranges with
  | some rs => servePeer s r rs
  | none =>
    match runErrand (.peer r.req.src r.req.seq) (checkParts r (exportParts 3 r.req.ea (peerSize r.req.kind))) s with
    | .done (.ok rs) s => servePeer s r rs
    | .done (.error e) s => (none, send (refusedAccess s r.req.src r.req.ea e) (.peerRefused r.req.src e))
    | .failed s => (none, s)
    | .waits s => (some r, s)

/-- A request of a peer that arrives: performed, refused, or waiting behind those that wait (R365, R382). -/
def performPeer (s : State) (r : PeerHeld) : State :=
  match peerAttempt s r with
  | (none, t) => t
  | (some left, t) => setPeerWaiting t (t.link.waiting ++ [left])

/-- A waiting request of a peer tried again, in its place. -/
def retryHeldPeer (s : State) (r : PeerHeld) : State :=
  match peerAttempt s r with
  | (none, t) => setPeerWaiting t (t.link.waiting.filter (fun x => !r.same x))
  | (some left, t) => setPeerWaiting t (t.link.waiting.map (fun x => if r.same x then left else x))

/-- PEER_REQUEST (R365, R366): each sequence number of a source is performed at most once. -/
def execPeerRequest (req : PeerReq) (s : State) : Host.Outcome State Fault Refusal :=
  let old := tget [] s.link.seen req.src
  if s.link.released = false ∨ old.contains req.seq then .next s
  else
    .next (performPeer { s with link := { s.link with seen := tset [] s.link.seen req.src (req.seq :: old) } }
      { req := req, base := s.link.pexbase, cnt := s.link.pexcnt })

/-! ### Ports and the host link (R356, R363, R366) -/

/-- UAPORTS with one port set. -/
def portsWith (p : BitVec 18) (port : Nat) (up : Bool) : BitVec 18 :=
  if up then p ||| (1#18 <<< port) else p &&& ~~~(1#18 <<< port)

/-- PORT_STATE_CHANGE (R366, Table 15.5): notification type 5; requests that the port held are resent by PEER_RESEND. -/
def execPortStateChange (port : BitVec 5) (up : Bool) (s : State) : Host.Outcome State Fault Refusal :=
  let p := port.toNat
  if 18 ≤ p ∨ s.link.released = false ∨ s.link.ports.getLsbD p = up then .next s
  else
    let ports := portsWith s.link.ports p up
    .next (notify { s with link := { s.link with ports := ports } } 5 p (if up then 1 else 0) (ports.setWidth 64))

/-- LINK_TRAINING (R356): the link's rate and width, and whether CXL is negotiated; without it the host's caches hold no
line of device memory. -/
def execLinkTraining (rate width : Nat) (cxl : Bool) (s : State) : Host.Outcome State Fault Refusal :=
  .next { s with link := { s.link with rate := rate, width := width, cxl := cxl }
                 hostIf := { s.hostIf with lines := if cxl then s.hostIf.lines else [] } }

/-- HOST_INVALIDATION (R257): translations of a context, in a range or all, are used no more. -/
def execHostInvalidation (c : BitVec 6) (every : Bool) (va : BitVec 64) (len : Nat) (s : State) :
    Host.Outcome State Fault Refusal :=
  .next (invalidateTranslations s (some c.toNat) (if every then none else some (va.toNat, len)))

/-! ### The forwarder (R369 to R371) -/

/-- Some rows gone from the send queues, each counted off its command. -/
def rowsDone (s : State) (die : Nat) (ns : List Nat) : State :=
  modDie s die (fun d =>
    let gone := ns.filterMap (fun n => d.rows[n]?)
    { d with rows := ((List.range d.rows.length).filter (fun n => !ns.contains n)).filterMap (fun n => d.rows[n]?)
             sends := d.sends.map (fun c => { c with left := c.left - (gone.filter (fun r => r.cmd == c.id)).length }) })

/-- The rows of a die that may go: their commands' earlier stores have been performed (R165). -/
def sendableRows (s : State) (die : Nat) : List Nat :=
  let d := getDie s die
  (List.range d.rows.length).filter (fun n =>
    match d.rows[n]? with
    | some r => d.sends.any (fun c => c.id == r.cmd && opsOver s c.after)
    | none => false)

/-- The bytes that one request of the forwarder takes of a row at an export address: at most 256, within 4 KiB. -/
def requestSize (ea size : Nat) : Nat := min size (min 256 (4096 - ea % 4096))

/-- The pieces of a request, written at their destination: the reason for which one is refused. `freeze` follows one that HREL
failed at this device's own home slices (R383). -/
def requestPieces (dest : Nat) (freeze : State → State) : Nat → Nat → List Byte → Errand (Option Nat)
  | 0, _, _ => return none
  | fuel + 1, ea, bs => do
    if bs.isEmpty then return none
    else
      let own := isSelf (← get) dest
      let k := if own then min bs.length (32 - ea % 32) else bs.length
      let r : Option Nat ← fun s =>
        match peerWrite s dest ea (bs.take k) with
        | (.blocked, s) => .error (.waits s)
        | (.unreachable r, s) => .ok (some r, s)
        | (.failed, s) => .ok (none, freeze s)
        | (_, s) => .ok (none, s)
      match r with
      | some e => return some e
      | none => requestPieces dest freeze fuel (ea + k) (bs.drop k)

/-- A request of the forwarder (R363, R366, R369): it takes a port and a number of its pair, or is refused with reason 1. -/
def sendRequest (dest ea : Nat) (bs : List Byte) (freeze : State → State) : Errand (Option Nat) := do
  match peerLeave (← get) dest ea with
  | none => return some 1
  | some s =>
    set s
    requestPieces dest freeze 10 ea bs

/-- The xop of CPYF (Table 3.6), as faults of its tile reads record it. -/
def forwardXop : Nat := xopOf (.cpyf 0 0 0 0 0 0 0)

/-- What is left of a command's rows dropped, so that it completes (R385). -/
def stopSend (s : State) (die cmd : Nat) : State :=
  modDie s die (fun d =>
    { d with rows := d.rows.filter (fun r => r.cmd != cmd)
             sends := d.sends.map (fun c => if c.id = cmd then { c with left := 0 } else c) })

/-- What a row is found to be, before it is sent: its next bytes; beyond the export space (R370); a fault of its tile; or
uncorrectable data of it. -/
inductive RowFound where
  | bytes (bs : List Byte)
  | beyond
  | stop (t : Trap)
  | bad
  deriving DecidableEq, Repr

/-- The first bytes of a row read from its tile. -/
def findRow (s : State) (r : Row) (c : SendCommand) (b : Block) (n : Nat) : RowFound × State :=
  match engineWay s ((coreOf b).getD 0) b c.block c.lead forwardXop r.space r.off r.size true false with
  | (.stop t, s) => (.stop t, s)
  | (.window t, s) =>
    if 2 ^ 37 < r.ea + r.size then (.beyond, s)
    else
      match windowRead s b t n with
      | (.bytes bs, s) => (.bytes bs, s)
      | (_, s) => (.bad, s)
  | (_, s) => (.beyond, s)

/-- The command and block of a row. -/
def rowOwner (s : State) (die : Nat) (r : Row) : Option (SendCommand × Block) :=
  match (getDie s die).sends.find? (fun c => c.id == r.cmd) with
  | some c => (getBlock s c.block).map (fun b => (c, b))
  | none => none

/-- The rows of one send queue whose bytes follow those of a request and are merged with it (R369): their numbers and all the
bytes; `fuel` bounds them. -/
def mergeRows (die dest ea : Nat) : Nat → List Nat → List Byte → State → (List Nat × List Byte) × State
  | 0, ns, bs, s => ((ns, bs), s)
  | fuel + 1, ns, bs, s =>
    let here := ea + bs.length
    let next := (sendableRows s die).find? (fun n =>
      !ns.contains n && (match (getDie s die).rows[n]? with
        | some r => r.dest == dest && r.ea == here && decide (r.size ≤ requestSize ea 256 - bs.length)
        | none => false))
    match next.bind (fun n => ((getDie s die).rows[n]?).bind (fun r => (rowOwner s die r).map (fun o => (n, r, o)))) with
    | none => ((ns, bs), s)
    | some (n, r, c, b) =>
      match findRow s r c b r.size with
      | (.bytes more, t) => mergeRows die dest ea fuel (ns ++ [n]) (bs ++ more) t
      | _ => ((ns, bs), s)

/-- A row of a send queue sent (R369): its next request, with the rows that are merged with it; a row longer than a request goes on
from where it stands. A refused row is dropped (R371). -/
def sendRow (s : State) (die n : Nat) (r : Row) (c : SendCommand) (b : Block) : State :=
  let freeze (s : State) : State :=
    freezeData s c.block c.lead.1 c.lead.2 (standsAt s c.block c.lead.1 c.lead.2) (BitVec.ofNat 64 r.off)
  let k := requestSize r.ea r.size
  match findRow s r c b k with
  | (.stop t, s) => rowsDone (defer s c.block c.lead.1 c.lead.2 t) die [n]
  | (.beyond, s) => rowsDone (dropRow s die 2 r.dest) die [n]
  | (.bad, s) => stopSend (freeze s) die c.id
  | (.bytes bs, s) =>
    let whole := k == r.size
    match if whole then mergeRows die r.dest r.ea (getDie s die).rows.length [n] bs s else (([n], bs), s) with
    | ((ns, all), s) =>
      match runErrand (.command c.block c.id) (sendRequest r.dest r.ea all freeze) s with
      | .waits s => s
      | .failed s => s
      | .done (some e) s => rowsDone (ns.foldl (fun s _ => dropRow s die e r.dest) s) die ns
      | .done none s =>
        if whole then rowsDone s die ns
        else modDie s die (fun d =>
          { d with rows := d.rows.modify n (fun x => { x with ea := x.ea + k, size := x.size - k, off := x.off + k }) })

/-- FORWARDER_ROW_SEND (R369): a row of any send queue, a free choice; the forwarder keeps no order among rows. -/
def execForwarderRowSend (die : BitVec 1) (s : State) : Host.Outcome State Fault Refusal :=
  let d := die.toNat
  match sendableRows s d with
  | [] => .next s
  | x :: xs =>
    let (k, s) := draw s
    let n := (x :: xs).getD (k % (xs.length + 1)) x
    match (getDie s d).rows[n]? with
    | none => .next s
    | some r =>
      match rowOwner s d r with
      | none => .next s
      | some (c, b) => .next (sendRow s d n r c b)

/-- FWDERR cleared (Table 15.8). -/
def clearFwderr (s : State) (die : Nat) : State := if ready s then modDie s die (fun d => { d with fwderr := 0 }) else s

/-- FWDERR_CLEAR (R371). -/
def execFwderrClear (die : BitVec 1) (s : State) : Host.Outcome State Fault Refusal := .next (clearFwderr s die.toNat)

end Sys2Proof.Machine
end

