-- ==== Sys2Proof/Machine/Integer.lean ====
section
/-! DEFINITION. Integer arithmetic, 64-bit pair forms, immediate forms and constants (spec/04 4.2, 4.4, 4.5: R99, R100,
R102, R103, R105). -/

namespace Sys2Proof.Machine

/-- The second operand of a word: a v register of the thread. -/
abbrev opV (x : Thread) (n : BitVec 6) : Word := (vReg x n.toNat).val

/-- The second operand of an F-K word: a k register of the gang (R99). -/
abbrev opK (g : Gang) (n : BitVec 6) : Word := (kReg g n.toNat).val

/-- ADD with a v register as b (R99): the 32-bit sum. -/
def execAdd (gd : BitVec 4) (d a b : BitVec 6) (s : State) : Host.Outcome State Fault Refusal :=
  vWord (.add gd d a b) s d.toNat (fun _ _ x => (opV x a) + (opV x b))

/-- SUB with a v register as b (R99): the 32-bit difference. -/
def execSub (gd : BitVec 4) (d a b : BitVec 6) (s : State) : Host.Outcome State Fault Refusal :=
  vWord (.sub gd d a b) s d.toNat (fun _ _ x => (opV x a) - (opV x b))

/-- MUL with a v register as b (R99): the low half of the product. -/
def execMul (gd : BitVec 4) (d a b : BitVec 6) (s : State) : Host.Outcome State Fault Refusal :=
  vWord (.mul gd d a b) s d.toNat (fun _ _ x => (opV x a) * (opV x b))

/-- MULH with a v register as b (R99): the high half of the signed product. -/
def execMulh (gd : BitVec 4) (d a b : BitVec 6) (s : State) : Host.Outcome State Fault Refusal :=
  vWord (.mulh gd d a b) s d.toNat (fun _ _ x => mulHigh (opV x a) (opV x b))

/-- MAD with a v register as b (R99): a × b + d. -/
def execMad (gd : BitVec 4) (d a b : BitVec 6) (s : State) : Host.Outcome State Fault Refusal :=
  vWord (.mad gd d a b) s d.toNat (fun _ _ x => (opV x a) * (opV x b) + (opV x d))

/-- MIN with a v register as b (R99): the signed minimum. -/
def execMin (gd : BitVec 4) (d a b : BitVec 6) (s : State) : Host.Outcome State Fault Refusal :=
  vWord (.min gd d a b) s d.toNat (fun _ _ x => minSigned (opV x a) (opV x b))

/-- MAX with a v register as b (R99): the signed maximum. -/
def execMax (gd : BitVec 4) (d a b : BitVec 6) (s : State) : Host.Outcome State Fault Refusal :=
  vWord (.max gd d a b) s d.toNat (fun _ _ x => maxSigned (opV x a) (opV x b))

/-- ABS of a v register (R99): the absolute value. -/
def execAbs (gd : BitVec 4) (d b : BitVec 6) (s : State) : Host.Outcome State Fault Refusal :=
  vWord (.abs gd d b) s d.toNat (fun _ _ x => absSigned (opV x b))

/-- NEG of a v register (R99): the negation. -/
def execNeg (gd : BitVec 4) (d b : BitVec 6) (s : State) : Host.Outcome State Fault Refusal :=
  vWord (.neg gd d b) s d.toNat (fun _ _ x => -(opV x b))

/-- DIV with a v register as b (R99): the quotient toward zero. -/
def execDiv (gd : BitVec 4) (d a b : BitVec 6) (s : State) : Host.Outcome State Fault Refusal :=
  vWord (.div gd d a b) s d.toNat (fun _ _ x => divSigned (opV x a) (opV x b))

/-- REM with a v register as b (R99): the remainder. -/
def execRem (gd : BitVec 4) (d a b : BitVec 6) (s : State) : Host.Outcome State Fault Refusal :=
  vWord (.rem gd d a b) s d.toNat (fun _ _ x => remSigned (opV x a) (opV x b))

/-- LEA with a v register as b (R99): a 64-bit address plus a signed offset. -/
def execLea (gd : BitVec 4) (d a b : BitVec 6) (s : State) : Host.Outcome State Fault Refusal :=
  pairWord (.lea gd d a b) s d.toNat (fun _ _ x => leaSum (pairV x a.toNat) (opV x b))

/-- SEL with a v register as b (R100): in every issuing thread, a where the guard holds and b elsewhere; only the chosen
source poisons. With guard always it writes a everywhere, as R100 says, though the last row of Table 8.14 reads otherwise:
DEDUCED, log 121. -/
def execSel (gd : BitVec 4) (d a b : BitVec 6) (s : State) : Host.Outcome State Fault Refusal :=
  laneWord (.sel gd d a b) s (fun _ g l =>
    let x := threadOf g l
    let r := if (guardHolds g gd (laneBit l)) ≠ 0 then vReg x a.toNat else vReg x b.toNat
    .ok (writeV x d.toNat r.val r.poison))

/-- MOV of a v register (R99). -/
def execMov (gd : BitVec 4) (d b : BitVec 6) (s : State) : Host.Outcome State Fault Refusal :=
  vWord (.mov gd d b) s d.toNat (fun _ _ x => opV x b)

/-- ADD with a k register as b (R99): the 32-bit sum. -/
def execAddK (gd : BitVec 4) (d a b : BitVec 6) (s : State) : Host.Outcome State Fault Refusal :=
  vWord (.addK gd d a b) s d.toNat (fun g _ x => (opV x a) + (opK g b))

/-- SUB with a k register as b (R99): the 32-bit difference. -/
def execSubK (gd : BitVec 4) (d a b : BitVec 6) (s : State) : Host.Outcome State Fault Refusal :=
  vWord (.subK gd d a b) s d.toNat (fun g _ x => (opV x a) - (opK g b))

/-- MUL with a k register as b (R99): the low half of the product. -/
def execMulK (gd : BitVec 4) (d a b : BitVec 6) (s : State) : Host.Outcome State Fault Refusal :=
  vWord (.mulK gd d a b) s d.toNat (fun g _ x => (opV x a) * (opK g b))

/-- MULH with a k register as b (R99): the high half of the signed product. -/
def execMulhK (gd : BitVec 4) (d a b : BitVec 6) (s : State) : Host.Outcome State Fault Refusal :=
  vWord (.mulhK gd d a b) s d.toNat (fun g _ x => mulHigh (opV x a) (opK g b))

/-- MAD with a k register as b (R99): a × b + d. -/
def execMadK (gd : BitVec 4) (d a b : BitVec 6) (s : State) : Host.Outcome State Fault Refusal :=
  vWord (.madK gd d a b) s d.toNat (fun g _ x => (opV x a) * (opK g b) + (opV x d))

/-- MIN with a k register as b (R99): the signed minimum. -/
def execMinK (gd : BitVec 4) (d a b : BitVec 6) (s : State) : Host.Outcome State Fault Refusal :=
  vWord (.minK gd d a b) s d.toNat (fun g _ x => minSigned (opV x a) (opK g b))

/-- MAX with a k register as b (R99): the signed maximum. -/
def execMaxK (gd : BitVec 4) (d a b : BitVec 6) (s : State) : Host.Outcome State Fault Refusal :=
  vWord (.maxK gd d a b) s d.toNat (fun g _ x => maxSigned (opV x a) (opK g b))

/-- ABS of a k register (R99): the absolute value. -/
def execAbsK (gd : BitVec 4) (d b : BitVec 6) (s : State) : Host.Outcome State Fault Refusal :=
  vWord (.absK gd d b) s d.toNat (fun g _ _ => absSigned (opK g b))

/-- NEG of a k register (R99): the negation. -/
def execNegK (gd : BitVec 4) (d b : BitVec 6) (s : State) : Host.Outcome State Fault Refusal :=
  vWord (.negK gd d b) s d.toNat (fun g _ _ => -(opK g b))

/-- DIV with a k register as b (R99): the quotient toward zero. -/
def execDivK (gd : BitVec 4) (d a b : BitVec 6) (s : State) : Host.Outcome State Fault Refusal :=
  vWord (.divK gd d a b) s d.toNat (fun g _ x => divSigned (opV x a) (opK g b))

/-- REM with a k register as b (R99): the remainder. -/
def execRemK (gd : BitVec 4) (d a b : BitVec 6) (s : State) : Host.Outcome State Fault Refusal :=
  vWord (.remK gd d a b) s d.toNat (fun g _ x => remSigned (opV x a) (opK g b))

/-- LEA with a k register as b (R99): a 64-bit address plus a signed offset. -/
def execLeaK (gd : BitVec 4) (d a b : BitVec 6) (s : State) : Host.Outcome State Fault Refusal :=
  pairWord (.leaK gd d a b) s d.toNat (fun g _ x => leaSum (pairV x a.toNat) (opK g b))

/-- SEL with a k register as b (R100): in every issuing thread, a where the guard holds and b elsewhere; only the chosen
source poisons. -/
def execSelK (gd : BitVec 4) (d a b : BitVec 6) (s : State) : Host.Outcome State Fault Refusal :=
  laneWord (.selK gd d a b) s (fun _ g l =>
    let x := threadOf g l
    let r := if (guardHolds g gd (laneBit l)) ≠ 0 then vReg x a.toNat else kReg g b.toNat
    .ok (writeV x d.toNat r.val r.poison))

/-- MOV of a k register (R99). -/
def execMovK (gd : BitVec 4) (d b : BitVec 6) (s : State) : Host.Outcome State Fault Refusal :=
  vWord (.movK gd d b) s d.toNat (fun g _ _ => opK g b)

/-- ADD of pairs (R102): the 64-bit sum. -/
def execAdd64 (gd : BitVec 4) (d a b : BitVec 6) (s : State) : Host.Outcome State Fault Refusal :=
  pairWord (.add64 gd d a b) s d.toNat (fun _ _ x => (pairV x a.toNat) + (pairV x b.toNat))

/-- SUB of pairs (R102): the 64-bit difference. -/
def execSub64 (gd : BitVec 4) (d a b : BitVec 6) (s : State) : Host.Outcome State Fault Refusal :=
  pairWord (.sub64 gd d a b) s d.toNat (fun _ _ x => (pairV x a.toNat) - (pairV x b.toNat))

/-- MUL of pairs (R102): the low half of the product. -/
def execMul64 (gd : BitVec 4) (d a b : BitVec 6) (s : State) : Host.Outcome State Fault Refusal :=
  pairWord (.mul64 gd d a b) s d.toNat (fun _ _ x => (pairV x a.toNat) * (pairV x b.toNat))

/-- MULH of pairs (R102): bits 127 to 64 of the signed product. -/
def execMulh64 (gd : BitVec 4) (d a b : BitVec 6) (s : State) : Host.Outcome State Fault Refusal :=
  pairWord (.mulh64 gd d a b) s d.toNat (fun _ _ x => mulHigh (pairV x a.toNat) (pairV x b.toNat))

/-- MIN of pairs (R102): the signed minimum. -/
def execMin64 (gd : BitVec 4) (d a b : BitVec 6) (s : State) : Host.Outcome State Fault Refusal :=
  pairWord (.min64 gd d a b) s d.toNat (fun _ _ x => minSigned (pairV x a.toNat) (pairV x b.toNat))

/-- MAX of pairs (R102): the signed maximum. -/
def execMax64 (gd : BitVec 4) (d a b : BitVec 6) (s : State) : Host.Outcome State Fault Refusal :=
  pairWord (.max64 gd d a b) s d.toNat (fun _ _ x => maxSigned (pairV x a.toNat) (pairV x b.toNat))

/-- SHL of a pair by a single register (R102). -/
def execShl64 (gd : BitVec 4) (d a b : BitVec 6) (s : State) : Host.Outcome State Fault Refusal :=
  pairWord (.shl64 gd d a b) s d.toNat (fun _ _ x => shlBy (pairV x a.toNat) (opV x b).toNat)

/-- SHR of a pair by a single register (R102). -/
def execShr64 (gd : BitVec 4) (d a b : BitVec 6) (s : State) : Host.Outcome State Fault Refusal :=
  pairWord (.shr64 gd d a b) s d.toNat (fun _ _ x => shrBy (pairV x a.toNat) (opV x b).toNat)

/-- SRA of a pair by a single register (R102). -/
def execSra64 (gd : BitVec 4) (d a b : BitVec 6) (s : State) : Host.Outcome State Fault Refusal :=
  pairWord (.sra64 gd d a b) s d.toNat (fun _ _ x => sraBy (pairV x a.toNat) (opV x b).toNat)

/-- ADD immediate (R103): imm10 sign-extended. -/
def execAddImm (gd : BitVec 4) (d a : BitVec 6) (imm : BitVec 10) (s : State) :
    Host.Outcome State Fault Refusal :=
  vWord (.addImm gd d a imm) s d.toNat (fun _ _ x => (opV x a) + imm.signExtend 32)

/-- AND immediate (R103): imm10 sign-extended. -/
def execAndImm (gd : BitVec 4) (d a : BitVec 6) (imm : BitVec 10) (s : State) :
    Host.Outcome State Fault Refusal :=
  vWord (.andImm gd d a imm) s d.toNat (fun _ _ x => (opV x a) &&& imm.signExtend 32)

/-- OR immediate (R103): imm10 sign-extended. -/
def execOrImm (gd : BitVec 4) (d a : BitVec 6) (imm : BitVec 10) (s : State) :
    Host.Outcome State Fault Refusal :=
  vWord (.orImm gd d a imm) s d.toNat (fun _ _ x => (opV x a) ||| imm.signExtend 32)

/-- XOR immediate (R103): imm10 sign-extended. -/
def execXorImm (gd : BitVec 4) (d a : BitVec 6) (imm : BitVec 10) (s : State) :
    Host.Outcome State Fault Refusal :=
  vWord (.xorImm gd d a imm) s d.toNat (fun _ _ x => (opV x a) ^^^ imm.signExtend 32)

/-- MOVI (R105): imm16 sign-extended. -/
def execMovi (gd : BitVec 4) (d : BitVec 6) (imm : BitVec 16) (s : State) : Host.Outcome State Fault Refusal :=
  vWord (.movi gd d imm) s d.toNat (fun _ _ _ => imm.signExtend 32)

/-- MOVH (R105): imm16 in the high half, the low half kept. -/
def execMovh (gd : BitVec 4) (d : BitVec 6) (imm : BitVec 16) (s : State) : Host.Outcome State Fault Refusal :=
  vWord (.movh gd d imm) s d.toNat (fun _ _ x => imm ++ (opV x d).extractLsb' 0 16)

end Sys2Proof.Machine
end

