-- ==== Sys2Proof/Machine/Logic.lean ====
section
/-! DEFINITION. Logic, shifts and bit fields, and the shift immediate forms (spec/04 4.3, 4.5: R101, R104). -/

namespace Sys2Proof.Machine

/-- AND with a v register as b (R101): the bitwise and. -/
def execAnd (gd : BitVec 4) (d a b : BitVec 6) (s : State) : Host.Outcome State Fault Refusal :=
  vWord (.and gd d a b) s d.toNat (fun _ _ x => (opV x a) &&& (opV x b))

/-- OR with a v register as b (R101): the bitwise or. -/
def execOr (gd : BitVec 4) (d a b : BitVec 6) (s : State) : Host.Outcome State Fault Refusal :=
  vWord (.or gd d a b) s d.toNat (fun _ _ x => (opV x a) ||| (opV x b))

/-- XOR with a v register as b (R101): the bitwise exclusive or. -/
def execXor (gd : BitVec 4) (d a b : BitVec 6) (s : State) : Host.Outcome State Fault Refusal :=
  vWord (.xor gd d a b) s d.toNat (fun _ _ x => (opV x a) ^^^ (opV x b))

/-- ANDN with a v register as b (R101): a and not b. -/
def execAndn (gd : BitVec 4) (d a b : BitVec 6) (s : State) : Host.Outcome State Fault Refusal :=
  vWord (.andn gd d a b) s d.toNat (fun _ _ x => (opV x a) &&& ~~~(opV x b))

/-- SHL with a v register as b (R101): a shift left by the whole of b. -/
def execShl (gd : BitVec 4) (d a b : BitVec 6) (s : State) : Host.Outcome State Fault Refusal :=
  vWord (.shl gd d a b) s d.toNat (fun _ _ x => shlBy (opV x a) (opV x b).toNat)

/-- SHR with a v register as b (R101): a logical shift right. -/
def execShr (gd : BitVec 4) (d a b : BitVec 6) (s : State) : Host.Outcome State Fault Refusal :=
  vWord (.shr gd d a b) s d.toNat (fun _ _ x => shrBy (opV x a) (opV x b).toNat)

/-- SRA with a v register as b (R101): an arithmetic shift right. -/
def execSra (gd : BitVec 4) (d a b : BitVec 6) (s : State) : Host.Outcome State Fault Refusal :=
  vWord (.sra gd d a b) s d.toNat (fun _ _ x => sraBy (opV x a) (opV x b).toNat)

/-- ROT with a v register as b (R101): a rotation left. -/
def execRot (gd : BitVec 4) (d a b : BitVec 6) (s : State) : Host.Outcome State Fault Refusal :=
  vWord (.rot gd d a b) s d.toNat (fun _ _ x => rotBy (opV x a) (opV x b).toNat)

/-- BFE with a v register as b (R101): a bit field of a. -/
def execBfe (gd : BitVec 4) (d a b : BitVec 6) (s : State) : Host.Outcome State Fault Refusal :=
  vWord (.bfe gd d a b) s d.toNat (fun _ _ x => bitFieldExtract (opV x a) (opV x b))

/-- BFI with a v register as b (R101): a field of d replaced by the low bits of a. -/
def execBfi (gd : BitVec 4) (d a b : BitVec 6) (s : State) : Host.Outcome State Fault Refusal :=
  vWord (.bfi gd d a b) s d.toNat (fun _ _ x => bitFieldInsert (opV x d) (opV x a) (opV x b))

/-- POPC of a v register (R101): the number of one bits. -/
def execPopc (gd : BitVec 4) (d b : BitVec 6) (s : State) : Host.Outcome State Fault Refusal :=
  vWord (.popc gd d b) s d.toNat (fun _ _ x => popCount (opV x b))

/-- CLZ of a v register (R101): the zero bits above the highest one bit. -/
def execClz (gd : BitVec 4) (d b : BitVec 6) (s : State) : Host.Outcome State Fault Refusal :=
  vWord (.clz gd d b) s d.toNat (fun _ _ x => leadingZeros (opV x b))

/-- BREV of a v register (R101): the bits in reverse order. -/
def execBrev (gd : BitVec 4) (d b : BitVec 6) (s : State) : Host.Outcome State Fault Refusal :=
  vWord (.brev gd d b) s d.toNat (fun _ _ x => reverseBits (opV x b))

/-- AND with a k register as b (R101): the bitwise and. -/
def execAndK (gd : BitVec 4) (d a b : BitVec 6) (s : State) : Host.Outcome State Fault Refusal :=
  vWord (.andK gd d a b) s d.toNat (fun g _ x => (opV x a) &&& (opK g b))

/-- OR with a k register as b (R101): the bitwise or. -/
def execOrK (gd : BitVec 4) (d a b : BitVec 6) (s : State) : Host.Outcome State Fault Refusal :=
  vWord (.orK gd d a b) s d.toNat (fun g _ x => (opV x a) ||| (opK g b))

/-- XOR with a k register as b (R101): the bitwise exclusive or. -/
def execXorK (gd : BitVec 4) (d a b : BitVec 6) (s : State) : Host.Outcome State Fault Refusal :=
  vWord (.xorK gd d a b) s d.toNat (fun g _ x => (opV x a) ^^^ (opK g b))

/-- ANDN with a k register as b (R101): a and not b. -/
def execAndnK (gd : BitVec 4) (d a b : BitVec 6) (s : State) : Host.Outcome State Fault Refusal :=
  vWord (.andnK gd d a b) s d.toNat (fun g _ x => (opV x a) &&& ~~~(opK g b))

/-- SHL with a k register as b (R101): a shift left by the whole of b. -/
def execShlK (gd : BitVec 4) (d a b : BitVec 6) (s : State) : Host.Outcome State Fault Refusal :=
  vWord (.shlK gd d a b) s d.toNat (fun g _ x => shlBy (opV x a) (opK g b).toNat)

/-- SHR with a k register as b (R101): a logical shift right. -/
def execShrK (gd : BitVec 4) (d a b : BitVec 6) (s : State) : Host.Outcome State Fault Refusal :=
  vWord (.shrK gd d a b) s d.toNat (fun g _ x => shrBy (opV x a) (opK g b).toNat)

/-- SRA with a k register as b (R101): an arithmetic shift right. -/
def execSraK (gd : BitVec 4) (d a b : BitVec 6) (s : State) : Host.Outcome State Fault Refusal :=
  vWord (.sraK gd d a b) s d.toNat (fun g _ x => sraBy (opV x a) (opK g b).toNat)

/-- ROT with a k register as b (R101): a rotation left. -/
def execRotK (gd : BitVec 4) (d a b : BitVec 6) (s : State) : Host.Outcome State Fault Refusal :=
  vWord (.rotK gd d a b) s d.toNat (fun g _ x => rotBy (opV x a) (opK g b).toNat)

/-- BFE with a k register as b (R101): a bit field of a. -/
def execBfeK (gd : BitVec 4) (d a b : BitVec 6) (s : State) : Host.Outcome State Fault Refusal :=
  vWord (.bfeK gd d a b) s d.toNat (fun g _ x => bitFieldExtract (opV x a) (opK g b))

/-- BFI with a k register as b (R101): a field of d replaced by the low bits of a. -/
def execBfiK (gd : BitVec 4) (d a b : BitVec 6) (s : State) : Host.Outcome State Fault Refusal :=
  vWord (.bfiK gd d a b) s d.toNat (fun g _ x => bitFieldInsert (opV x d) (opV x a) (opK g b))

/-- POPC of a k register (R101): the number of one bits. -/
def execPopcK (gd : BitVec 4) (d b : BitVec 6) (s : State) : Host.Outcome State Fault Refusal :=
  vWord (.popcK gd d b) s d.toNat (fun g _ _ => popCount (opK g b))

/-- CLZ of a k register (R101): the zero bits above the highest one bit. -/
def execClzK (gd : BitVec 4) (d b : BitVec 6) (s : State) : Host.Outcome State Fault Refusal :=
  vWord (.clzK gd d b) s d.toNat (fun g _ _ => leadingZeros (opK g b))

/-- BREV of a k register (R101): the bits in reverse order. -/
def execBrevK (gd : BitVec 4) (d b : BitVec 6) (s : State) : Host.Outcome State Fault Refusal :=
  vWord (.brevK gd d b) s d.toNat (fun g _ _ => reverseBits (opK g b))

/-- A shift immediate (R104): on a register, or on a pair when w is 1. -/
def shiftWord (i : Instr) (s : State) (d a : BitVec 6) (w : BitVec 1) (f : {n : Nat} → BitVec n → Nat → BitVec n)
    (amt : BitVec 6) : Host.Outcome State Fault Refusal :=
  if w = 1 then pairWord i s d.toNat (fun _ _ x => f (pairV x a.toNat) amt.toNat)
  else vWord i s d.toNat (fun _ _ x => f (opV x a) amt.toNat)

/-- SHL by an immediate amount (R104). -/
def execShlImm (gd : BitVec 4) (d a : BitVec 6) (w : BitVec 1) (amt : BitVec 6) (s : State) :
    Host.Outcome State Fault Refusal :=
  shiftWord (.shlImm gd d a w amt) s d a w (fun v n => shlBy v n) amt

/-- SHR by an immediate amount (R104). -/
def execShrImm (gd : BitVec 4) (d a : BitVec 6) (w : BitVec 1) (amt : BitVec 6) (s : State) :
    Host.Outcome State Fault Refusal :=
  shiftWord (.shrImm gd d a w amt) s d a w (fun v n => shrBy v n) amt

/-- SRA by an immediate amount (R104). -/
def execSraImm (gd : BitVec 4) (d a : BitVec 6) (w : BitVec 1) (amt : BitVec 6) (s : State) :
    Host.Outcome State Fault Refusal :=
  shiftWord (.sraImm gd d a w amt) s d a w (fun v n => sraBy v n) amt

/-- ROT by an immediate amount (R104). -/
def execRotImm (gd : BitVec 4) (d a : BitVec 6) (w : BitVec 1) (amt : BitVec 6) (s : State) :
    Host.Outcome State Fault Refusal :=
  shiftWord (.rotImm gd d a w amt) s d a w (fun v n => rotBy v n) amt

end Sys2Proof.Machine
end

