-- ==== Sys2Proof/Machine/Matrix.lean ====
section
/-! DEFINITION. The matrix engine: operand elements and their scales (R63, R195 to R197, R204), mx_group and its flags (R64 to
R66), the operations MMA, MMAS, MCONV, MTRN, MPERM, MRED, ACCZ, ACCLD, ACCST, ACCRD and ACCWR (R194 to R214), and the step
MATRIX_COMMAND_COMPLETE. -/

namespace Sys2Proof.Machine

/-! ### Elements (R63) -/

/-- An operand element: its value, whether some factor is a NaN or a NaN scale code, and whether every factor is finite. -/
structure Elem where
  v   : Val := .fin (zeroOf false)
  nan : Bool := false
  fin : Bool := true
  deriving DecidableEq, Repr

/-- Whether a value is finite. -/
def valFinite : Val → Bool
  | .fin _ => true
  | _ => false

/-- An element without scales. -/
def plainElem (v : Val) : Elem := { v := v, nan := v == .nan, fin := valFinite v }

/-- elem_value on factors (R63): a NaN first, then an infinity with a zero, an infinity, or the exact product. -/
def productElem (fs : List Val) : Elem :=
  let nan := fs.any (· == .nan)
  { v := if nan then .nan else fs.foldl mulVal (.fin (dyOf 1 0)), nan := nan, fin := fs.all valFinite }

/-- The value of an E8M0 scale code: 0xFF is a NaN (R44). -/
def e8m0 (x : Nat) : Val := if x = 0xFF then .nan else .fin (dyOf 1 ((x : Int) - 127))

/-- The floating format of an element code of Table 6.6. -/
def elemFmt : Nat → Fmt
  | 0 => bf16 | 1 => fp16 | 2 => tf32 | 3 => fp32 | 4 | 9 => e4m3 | 5 | 10 => e5m2 | 6 | 11 => e3m2 | 7 | 12 => e2m3
  | _ => e2m1

/-- The value of an element code before its scales (R40, R43, R45). -/
def elemCode (f bits : Nat) : Val :=
  match f with
  | 14 => .fin { neg := decide (intOf 8 true bits < 0), m := (intOf 8 true bits).natAbs, e := -6 }
  | 15 => intVal (intOf 8 true bits)
  | 16 => intVal (intOf 8 false bits)
  | 17 => intVal (intOf 4 true bits)
  | 18 => intVal (intOf 4 false bits)
  | 19 => intVal (intOf 16 true bits)
  | f => decodeF (elemFmt f) bits

/-- The element of a code with its block's scale and, for LF4, its band's (R46, R62, R63). -/
def scaledElem (f bits scale band : Nat) : Elem :=
  if f = 20 then productElem [elemCode f bits, decodeF e3m5 scale, decodeF bf16 band]
  else if 21 ≤ f then
    let w := fmtBits f
    plainElem (planeValue scale (bits.testBit (w - 1)) (bits % 2 ^ (w - 1) * 2 ^ (16 - w))
      (min (bitsOf scale 11 8) (w - 1)) false)
  else if fmtScaled f then productElem [elemCode f bits, e8m0 scale]
  else plainElem (elemCode f bits)

/-! ### mx_group (R64 to R66) -/

/-- The flags of sys.mxflags (R213), and whether R66's condition arose. -/
structure MxFlags where
  nanin : Bool := false
  inv   : Bool := false
  ovf   : Bool := false
  sat   : Bool := false
  nonfinite : Bool := false
  deriving DecidableEq, Repr

/-- Flags joined. -/
def MxFlags.or (a b : MxFlags) : MxFlags :=
  { nanin := a.nanin || b.nanin, inv := a.inv || b.inv, ovf := a.ovf || b.ovf, sat := a.sat || b.sat,
    nonfinite := a.nonfinite || b.nonfinite }

/-- Flags as bits of sys.mxflags (R213). -/
def MxFlags.bits (a : MxFlags) : Word :=
  BitVec.ofNat 32 ((if a.nanin then 1 else 0) + (if a.inv then 2 else 0) + (if a.ovf then 4 else 0) +
    (if a.sat then 8 else 0))

/-- What the products of a group come to: a NaN, infinities of each sign, the exact total, only products of -0. -/
structure GroupSum where
  nan   : Bool := false
  pos   : Bool := false
  neg   : Bool := false
  total : Dyadic := zeroOf false
  negZero : Bool := true
  deriving DecidableEq, Repr

/-- A product taken into a group's sum. -/
def GroupSum.take (g : GroupSum) (x y : Val) : GroupSum :=
  match mulVal x y with
  | .nan => { g with nan := true }
  | .inf false => { g with pos := true }
  | .inf true => { g with neg := true }
  | .fin z => { g with total := dyAdd g.total z false, negZero := g.negZero && z.m == 0 && z.neg }

/-- mx_group (R64) on the pairs of a group, with the flags it raises (R65). -/
def mxGroup (acc : Nat) (ps : List (Elem × Elem)) (sat : Bool) : Nat × MxFlags :=
  let g := ps.foldl (fun g p => g.take p.1.v p.2.v) ({} : GroupSum)
  let a := decodeF fp32 acc
  let nanin := ps.any (fun p => p.1.nan || p.2.nan)
  let finite := ps.all (fun p => p.1.fin && p.2.fin) && valFinite a
  let close (res : Nat) (ovf : Bool) : Nat × MxFlags :=
    (res, { nanin := nanin, inv := decodeF fp32 res == .nan && !nanin && a != .nan, ovf := ovf, sat := ovf && sat,
            nonfinite := finite && !isFinite fp32 res })
  let nan := canonicalNan fp32
  if g.nan || (g.pos && g.neg) then close nan false
  else
    match a with
    | .nan => close nan false
    | .inf an =>
      if (g.pos && an) || (g.neg && !an) then close nan false else close acc false
    | .fin x =>
      if g.pos then close (infBits fp32 false) false
      else if g.neg then close (infBits fp32 true) false
      else
        let s := dyAdd x g.total false
        if s.m = 0 then close (codeBits fp32 (x.m == 0 && x.neg && g.negZero) 0) false
        else close (convert fp32 (.fin s) 0 sat false) (!dyLe (dyAbs (roundTo fp32 s 0)) fp32.maxVal)

/-- Groups applied in order to an accumulator. -/
def mxGroups (sat : Bool) (gs : List (List (Elem × Elem))) (acc : Nat) : Nat × MxFlags :=
  gs.foldl (fun r g => match mxGroup r.1 g sat with | (x, f) => (x, r.2.or f)) (acc, ({} : MxFlags))

/-- A list cut into groups. -/
def chunks {α : Type} (n count : Nat) (xs : List α) : List (List α) :=
  (List.range count).map (fun i => (xs.drop (n * i)).take n)

/-! ### Reading operands -/

/-- What reading something gives, with the state after: it, a deferred fault, uncorrectable data at an address, or a wait. -/
inductive Got (α : Type) where
  | ok (x : α) (s : State)
  | trap (t : Trap) (s : State)
  | bad (va : Dword) (s : State)
  | wait (s : State)

/-- What follows a read. -/
def Got.andThen {α β : Type} (x : Got α) (f : α → State → Got β) : Got β :=
  match x with
  | .ok a s => f a s
  | .trap t s => .trap t s
  | .bad va s => .bad va s
  | .wait s => .wait s

/-- Reads one after the other. -/
def gotAll {α β : Type} (f : α → State → Got β) : List α → State → Got (List β)
  | [], s => .ok [] s
  | x :: xs, s => (f x s).andThen (fun y s => (gotAll f xs s).andThen (fun ys s => .ok (y :: ys) s))

/-- A matrix command at work: the core, its block, and itself. -/
structure MxRun where
  core : Nat
  b    : Block
  c    : MatrixCommand
  deriving DecidableEq, Repr

/-- SPACE_RANGE of a command (Table 6.8). -/
def MxRun.range (r : MxRun) (space addr : Nat) : Trap := addressTrap 7 (BitVec.ofNat 64 addr) space (xopOf r.c.instr)

/-- Bytes that a matrix command reads from a space (R199). -/
def MxRun.read (r : MxRun) (space : Nat) (at_ : Int) (n : Nat) (s : State) : Got (List Byte) :=
  let va := low64 at_
  match engineWay s r.core r.b r.c.block r.c.lead (xopOf r.c.instr) space at_ n true false with
  | (.noPage, s) => .trap (addressTrap 8 va space (xopOf r.c.instr)) s
  | (.stop t, s) => .trap t s
  | (.bad, s) => .bad va s
  | (.blocked, s) => .wait s
  | (.window t, s) =>
    match windowRead s r.b t n with
    | (.bytes bs, s) => .ok bs s
    | (_, s) => .bad va s
  | (.page l, s) =>
    match engineFetch s r.core va.toNat n l with
    | (.bytes bs, s) => .ok bs s
    | (.blocked, s) => .wait s
    | (.unreachable x, s) => .trap (addressTrap 8 va (0x10 + x) (xopOf r.c.instr)) s
    | (_, s) => .bad va s

/-- A row of a register fragment as a number (R196): the word table holds each lane's words by 64 × lane + word. -/
def fragRow (t : Table Word) (wr row : Nat) : Nat :=
  (List.range wr).foldr (fun i n => (tget 0 t (64 * (row / 2) + row % 2 * wr + i)).toNat + 2 ^ 32 * n) 0

/-- The scratch offset of byte `b` of a row (R197). -/
def scratchOffset (x0 x1 : Word) (row b : Nat) : Nat :=
  let base := x0.toNat / 16 * 16
  let c := x0.toNat % 16
  let rowPitch := x1.toNat % 2 ^ 16
  let q := rowPitch / 32
  let k := b / 32
  base + k / q * (x1.toNat / 2 ^ 16) * 256 + row * rowPitch + 32 * ((k % q + c * row) % q) + b % 32

/-- A row of a scratch operand as a number, read by sectors. -/
def MxRun.scratchRow (r : MxRun) (x0 x1 : Word) (bytes row : Nat) (s : State) : Got Nat :=
  (gotAll (fun k s =>
    let o := scratchOffset x0 x1 row (32 * k)
    let n := min 32 (bytes - 32 * k)
    if scratchSize s r.b < o + n then .trap (r.range 2 (max o (scratchSize s r.b))) s
    else r.read 2 o n s) (List.range ((bytes + 31) / 32)) s).andThen
    (fun bs s => .ok (leNat bs.flatten) s)

/-- An operand of an operation: its format, its fragment words or its scratch pair. -/
structure MxOperand where
  fmt   : Nat
  inScratch : Bool
  words : Table Word
  x0    : Word
  x1    : Word
  deriving DecidableEq, Repr

/-- The 64 rows of an operand as numbers. -/
def MxRun.rows (r : MxRun) (o : MxOperand) (k kg : Nat) (s : State) : Got (List Nat) :=
  if o.inScratch then gotAll (r.scratchRow o.x0 o.x1 (k * fmtBits o.fmt / 8)) (List.range 64) s
  else .ok ((List.range 64).map (fragRow o.words (fragWords kg o.fmt))) s

/-- Scale bytes for each row of an operand (R204). -/
def scaleRow (f k : Nat) : Nat :=
  if f = 20 then k / 8 else if 21 ≤ f ∧ f ≤ 23 then 2 * k / 32 else if fmtScaled f then k / 32 else 0

/-- The bytes of an operand's scale area that are used. -/
abbrev scaleUsed (f k : Nat) : Nat := 64 * scaleRow f k + (if f = 20 then 2 else 0)

/-- The bytes of an operand's scale area. -/
def scaleArea (f k : Nat) : Nat := (scaleUsed f k + 31) / 32 * 32

/-- The scale area of an operand, from the local store (R204). -/
def MxRun.scales (r : MxRun) (o f k : Nat) (s : State) : Got (List Byte) :=
  let n := scaleUsed f k
  if n = 0 then .ok [] s
  else if lstoreSize s r.b < o + n then .trap (r.range 1 (max o (lstoreSize s r.b))) s
  else .ok (tgetMany 0 r.b.lstore o n) s

/-- The elements of a row (R63, R204). -/
def rowElems (f k : Nat) (scales : List Byte) (row : Nat) (bits : Nat) : List Elem :=
  let w := fmtBits f
  let sx := scaleRow f k
  let band := fieldAt scales (64 * sx) 2
  (List.range k).map (fun i =>
    let t := i / fmtBlock f
    let scale := if 21 ≤ f then fieldAt scales (row * sx + 2 * t) 2 else fieldAt scales (row * sx + t) 1
    scaledElem f (bits / 2 ^ (i * w) % 2 ^ w) scale band)

/-- The rows of an operand as elements. -/
def operandElems (f k : Nat) (scales : List Byte) (rows : List Nat) : List (List Elem) :=
  (List.range rows.length).map (fun i => rowElems f k scales i (rows.getD i 0))

/-! ### Tiles -/

/-- The key of a tile's element. -/
abbrev tileKey (t row col : Nat) : Nat := t * 4096 + row * 64 + col

/-- An element of a tile. -/
def tileAt (b : Block) (t row col : Nat) : Nat := (tget 0 b.tiles (tileKey t row col)).toNat

/-- The state with every element of a tile written. -/
def setTile (s : State) (blk t : Nat) (xs : List Nat) : State :=
  modBlock s blk (fun b => { b with tiles := tsetMany 0 b.tiles (t * 4096) (xs.map (BitVec.ofNat 32)) })

/-- The result of an operation: the elements of its tile with each one's flags. -/
abbrev TileResult := List (Nat × MxFlags)

/-- The result for every (row, column) of a tile. -/
def eachElement (f : Nat → Nat → Nat × MxFlags) : TileResult :=
  (List.range 4096).map (fun n => f (n / 64) (n % 64))

/-! ### MMA, MMAS, MCONV (R203, R207) -/

/-- The fields that MMA, MMAS and MCONV share: destination, formats, sat, k-groups, z. -/
structure MulShape where
  d   : Nat
  fa  : Nat
  fb  : Nat
  sat : Bool
  g   : Nat
  z   : Bool
  deriving DecidableEq, Repr

/-- The k-group of an operation. -/
abbrev MulShape.kg (x : MulShape) : Nat := opGroup x.fa x.fb
/-- K (R203). -/
abbrev MulShape.k (x : MulShape) : Nat := x.g * x.kg

/-- The product of two operands into a tile (R203). -/
def multiply (b : Block) (x : MulShape) (as bs : List (List Elem)) : TileResult :=
  eachElement (fun m n =>
    mxGroups x.sat (chunks x.kg x.g ((as.getD m []).zip (bs.getD n []))) (if x.z then 0 else tileAt b x.d m n))

/-- The scratch pair of an operand among the uniform operands, from a place. -/
abbrev uniPair (c : MatrixCommand) (i : Nat) : Word × Word := (c.uni.getD i 0, c.uni.getD (i + 1) 0)

/-- MMA or MMAS with the local offset of its scale area. -/
def MxRun.mul (r : MxRun) (x : MulShape) (sa sb : Bool) (area : Nat) (s : State) : Got TileResult :=
  let pa := uniPair r.c 0
  let pb := uniPair r.c (if sa then 2 else 0)
  (r.rows { fmt := x.fa, inScratch := sa, words := r.c.fragA, x0 := pa.1, x1 := pa.2 } x.k x.kg s).andThen fun ra s =>
  (r.rows { fmt := x.fb, inScratch := sb, words := r.c.fragB, x0 := pb.1, x1 := pb.2 } x.k x.kg s).andThen fun rb s =>
  (r.scales area x.fa x.k s).andThen fun ga s =>
  (r.scales (area + scaleArea x.fa x.k) x.fb x.k s).andThen fun gb s =>
  .ok (multiply r.b x (operandElems x.fa x.k ga ra) (operandElems x.fb x.k gb rb)) s

/-- A shape record (R206). -/
structure Shape where
  base : Nat
  h : Nat
  w : Nat
  c : Nat
  oh : Nat
  ow : Nat
  kh : Nat
  kw : Nat
  sh : Nat
  sw : Nat
  dh : Nat
  dw : Nat
  pt : Nat
  pl : Nat
  pixel : Nat
  row : Nat
  deriving DecidableEq, Repr

/-- The shape that 64 bytes hold. -/
def shapeOf (bs : List Byte) : Shape :=
  { base := fieldAt bs 0 8, h := fieldAt bs 8 2, w := fieldAt bs 10 2, c := fieldAt bs 12 2, oh := fieldAt bs 14 2,
    ow := fieldAt bs 16 2, kh := fieldAt bs 18 1, kw := fieldAt bs 19 1, sh := fieldAt bs 20 1, sw := fieldAt bs 21 1,
    dh := fieldAt bs 22 1, dw := fieldAt bs 23 1, pt := fieldAt bs 24 2, pl := fieldAt bs 26 2, pixel := fieldAt bs 28 4,
    row := fieldAt bs 32 8 }

/-- Whether 64 bytes keep the table of R206 for an element size. -/
def shapeOk (bs : List Byte) (esize : Nat) : Bool :=
  let x := shapeOf bs
  [x.h, x.w, x.c, x.oh, x.ow, x.kh, x.kw, x.sh, x.sw, x.dh, x.dw].all (· != 0) &&
  x.base % esize == 0 && x.pixel % esize == 0 && decide (x.c * esize ≤ x.pixel) && x.row % esize == 0 &&
  (bs.drop 40).all (· == 0)

/-- The address of an element of an implicit operand, `none` for one that is +0 (R207). -/
def convAddress (x : Shape) (esize p kk : Nat) : Option Nat :=
  if x.oh * x.ow ≤ p ∨ x.kh * x.kw * x.c ≤ kk then none
  else
    let t := kk / x.c
    let iy : Int := (p / x.ow * x.sh : Nat) - (x.pt : Int) + (t / x.kw * x.dh : Nat)
    let ix : Int := (p % x.ow * x.sw : Nat) - (x.pl : Int) + (t % x.kw * x.dw : Nat)
    if 0 ≤ iy ∧ iy < x.h ∧ 0 ≤ ix ∧ ix < x.w then
      some (x.base + iy.toNat * x.row + ix.toNat * x.pixel + kk % x.c * esize)
    else none

/-- The 64 bytes of a record, in pieces of sixteen. -/
def MxRun.record (r : MxRun) (va : Dword) (s : State) : Got (List Byte) :=
  (gotAll (fun i s => r.read 0 (va.toNat + 16 * i : Nat) 16 s) (List.range 4) s).andThen
    (fun bs s => .ok bs.flatten s)

/-- ACC_STATE (Table 6.8). -/
def accState (tile reason aux2 : Nat) : Trap :=
  { cause := 0x15, aux0 := BitVec.ofNat 32 tile, aux1 := BitVec.ofNat 32 reason, aux2 := BitVec.ofNat 32 aux2 }

/-- MCONV (R205 to R207). -/
def MxRun.conv (r : MxRun) (x : MulShape) (sb : Bool) (s : State) : Got TileResult :=
  let pb := uniPair r.c 0
  let k := if sb then 2 else 0
  let va := pairOf (r.c.uni.getD k 0) (r.c.uni.getD (k + 1) 0)
  let p0 := (r.c.uni.getD (k + 2) 0).toNat
  let k0 := (r.c.uni.getD (k + 3) 0).toNat
  let es := convEsize x.fa
  (r.record va s).andThen fun bytes s =>
  if shapeOk bytes es = false then .trap (accState x.d 3 (lo32 va).toNat) s
  else
    let sh := shapeOf bytes
    (gotAll (fun m s => gotAll (fun i s =>
      match convAddress sh es (p0 + m) (k0 + i) with
      | none => .ok (plainElem (.fin (zeroOf false))) s
      | some a => (r.read 0 a es s).andThen (fun bs s => .ok (plainElem (elemCode x.fa (leNat bs))) s))
      (List.range x.k) s) (List.range 64) s).andThen fun as s =>
    (r.rows { fmt := x.fb, inScratch := sb, words := r.c.fragB, x0 := pb.1, x1 := pb.2 } x.k x.kg s).andThen fun rb s =>
    .ok (multiply r.b x as (operandElems x.fb x.k [] rb)) s

/-! ### MTRN, MPERM, MRED (R209) -/

/-- A product of a tile value with an exact 1.0. -/
def oneTerm (x : Nat) : Elem × Elem := (plainElem (decodeF fp32 x), plainElem (.fin (dyOf 1 0)))

/-- An operation by a constant matrix: `terms` gives the groups of an element. -/
def constantOp (b : Block) (d : Nat) (acc sat : Bool) (terms : Nat → Nat → List (List Nat)) : TileResult :=
  eachElement (fun i j => mxGroups sat ((terms i j).map (fun g => g.map oneTerm)) (if acc then tileAt b d i j else 0))

/-- MTRN. -/
def transposeOp (b : Block) (d t : Nat) (acc sat : Bool) : TileResult :=
  constantOp b d acc sat (fun i j => [[tileAt b t j i]])

/-- MPERM with its index vector. -/
def permuteOp (b : Block) (d t : Nat) (acc sat cols : Bool) (p : List Nat) : TileResult :=
  constantOp b d acc sat (fun i j =>
    let x := p.getD (if cols then j else i) 255
    if x < 64 then [[if cols then tileAt b t i x else tileAt b t x j]] else [])

/-- MRED. -/
def reduceOp (b : Block) (d t : Nat) (acc sat cols : Bool) : TileResult :=
  constantOp b d acc sat (fun i j =>
    (List.range 4).map (fun g => (List.range 16).map (fun n =>
      if cols then tileAt b t (16 * g + n) j else tileAt b t i (16 * g + n))))

/-- MPERM (R208, R209): the index vector in the local store. ACC_STATE 4 records the lowest of several bad bytes, and tile d:
DESIGN CHOICE, log 118. -/
def MxRun.permute (r : MxRun) (d t : Nat) (acc sat cols : Bool) (s : State) : Got TileResult :=
  let o := (r.c.uni.getD 0 0).toNat
  if lstoreSize s r.b < o + 64 then .trap (r.range 1 (max o (lstoreSize s r.b))) s
  else
    let p := (tgetMany 0 r.b.lstore o 64).map BitVec.toNat
    match (List.range 64).find? (fun i => 64 ≤ p.getD i 0 && p.getD i 0 != 255) with
    | some i => .trap (accState d 4 i) s
    | none => .ok (permuteOp r.b d t acc sat cols p) s

/-! ### ACCLD and ACCST (R211) -/

/-- The format of a tile transfer. -/
def accFmt (f : Nat) : Fmt := if f = 0 then fp32 else if f = 1 then bf16 else fp16

/-- The base address of a tile transfer. -/
def accBase (c : MatrixCommand) (sp : Nat) : Nat :=
  if sp = 0 then (pairOf (c.uni.getD 0 0) (c.uni.getD 1 0)).toNat else (c.uni.getD 0 0).toNat

/-- The address of an element of a tile transfer. -/
def accAddress (base pitch es n : Nat) : Nat := base + n / 64 * pitch + n % 64 * es

/-- ACCLD. -/
def MxRun.load (r : MxRun) (fmt sp pitch : Nat) (s : State) : Got TileResult :=
  let es := accEsize fmt
  (gotAll (fun n s => (r.read sp (accAddress (accBase r.c sp) pitch es n) es s).andThen (fun bs s =>
    .ok (convert fp32 (decodeF (accFmt fmt) (leNat bs)) 0 false false, ({} : MxFlags)) s)) (List.range 4096) s)

/-- An element of ACCST as it is stored, with its flags. -/
def storedElement (fmt : Nat) (sat : Bool) (x : Nat) : Nat × MxFlags :=
  if fmt = 0 then (x, {})
  else
    let f := accFmt fmt
    let y := convert f (decodeF fp32 x) 0 sat false
    let ovf := match decodeF fp32 x with
      | .fin v => !dyLe (dyAbs (roundTo f v 0)) f.maxVal
      | _ => false
    (y, { ovf := ovf, sat := ovf && sat, nonfinite := isFinite fp32 x && !isFinite f y })

/-- A write of a matrix command. -/
def MxRun.write (r : MxRun) (space : Nat) (at_ : Int) (bs : List Byte) (s : State) : Got Unit :=
  let va := low64 at_
  match engineWay s r.core r.b r.c.block r.c.lead (xopOf r.c.instr) space at_ bs.length false true with
  | (.noPage, s) => .trap (addressTrap 8 va space (xopOf r.c.instr)) s
  | (.stop t, s) => .trap t s
  | (.bad, s) => .bad va s
  | (.blocked, s) => .wait s
  | (.window t, s) => .ok () (windowWrite s r.c.block r.b t bs)
  | (.page l, s) =>
    match enginePut s r.core r.b.ctx va.toNat l bs with
    | (.bytes _, s) => .ok () s
    | (.blocked, s) => .wait s
    | (.unreachable x, s) => .trap (addressTrap 8 va (0x10 + x) (xopOf r.c.instr)) s
    | (_, s) =>
      .ok () (freezeData s r.c.block r.c.lead.1 r.c.lead.2 (standsAt s r.c.block r.c.lead.1 r.c.lead.2) va)

/-- ACCST: the elements in order, with the flags of each. -/
def MxRun.store (r : MxRun) (t fmt sp pitch : Nat) (sat : Bool) (s : State) : Got (List MxFlags) :=
  let es := accEsize fmt
  gotAll (fun n s =>
    let x := storedElement fmt sat (tileAt r.b t (n / 64) (n % 64))
    (r.write sp (accAddress (accBase r.c sp) pitch es n) (natBytes es x.1) s).andThen (fun _ s => .ok x.2 s))
    (List.range 4096) s

/-! ### The completion of a command (R194, R213, R214) -/

/-- What a command comes to: a new tile, or only flags. -/
abbrev Outcome := Option (Nat × List Nat) × List MxFlags

/-- A tile result as an outcome. -/
def tileOutcome (d : Nat) (x : Got TileResult) : Got Outcome :=
  x.andThen (fun r s => .ok (some (d, r.map Prod.fst), r.map Prod.snd) s)

/-- A matrix command performed. -/
def MxRun.perform (r : MxRun) (s : State) : Got Outcome :=
  match r.c.instr with
  | .mma _ a fa fb sat _ _ sa sb gm z _ =>
    tileOutcome a.toNat (r.mul { d := a.toNat, fa := fa.toNat, fb := fb.toNat, sat := sat == 1, g := gm.toNat + 1,
                                 z := z == 1 } (sa == 1) (sb == 1) 0 s)
  | .mmas _ a fa fb sat _ _ sa sb gm z _ _ =>
    tileOutcome a.toNat (r.mul { d := a.toNat, fa := fa.toNat, fb := fb.toNat, sat := sat == 1, g := gm.toNat + 1,
                                 z := z == 1 } (sa == 1) (sb == 1) (r.c.uni.getLast?.getD 0).toNat s)
  | .mconv _ a fa fb sat _ _ sb gm z _ _ =>
    tileOutcome a.toNat (r.conv { d := a.toNat, fa := fa.toNat, fb := fb.toNat, sat := sat == 1, g := gm.toNat + 1,
                                  z := z == 1 } (sb == 1) s)
  | .mtrn _ d t acc sat _ => tileOutcome d.toNat (.ok (transposeOp r.b d.toNat t.toNat (acc == 1) (sat == 1)) s)
  | .mperm _ d t acc mode sat _ _ =>
    tileOutcome d.toNat (r.permute d.toNat t.toNat (acc == 1) (sat == 1) (mode == 1) s)
  | .mred _ d t acc mode sat _ =>
    tileOutcome d.toNat (.ok (reduceOp r.b d.toNat t.toNat (acc == 1) (sat == 1) (mode == 1)) s)
  | .accz _ t _ => .ok (some (t.toNat, List.replicate 4096 0), []) s
  | .accld _ t fmt sp _ pitch _ => tileOutcome t.toNat (r.load fmt.toNat sp.toNat pitch.toNat s)
  | .accst _ t fmt sat sp _ pitch _ =>
    (r.store t.toNat fmt.toNat sp.toNat pitch.toNat (sat == 1) s).andThen (fun fs s => .ok (none, fs) s)
  | _ => .wait s

/-- Flags ORed into sys.mxflags of gangs (R213). -/
def orFlags (s : State) (blk : Nat) (gangs : List Nat) (f : Word) : State :=
  gangs.foldl (fun s g => modGang s blk g (fun x => { x with mxflags := x.mxflags ||| f })) s

/-- The destination tile of a command, or ACCST's tile. -/
def tileOf (i : Instr) : Nat := (tilesNamed i).headD 0

/-- A matrix command leaves the engine and completes for its counter. -/
def leaveMatrix (s : State) (core : Nat) (c : MatrixCommand) : State :=
  doneInGangs (modCore s core (fun k => { k with mx := k.mx.filter (fun m => m.id != c.id) })) c.block c.gangs c.id

/-- The state after an outcome: the tile, the flags, FP_NONFINITE for the lowest element that meets it (R66). -/
def applyOutcome (s : State) (core : Nat) (c : MatrixCommand) (o : Outcome) : State :=
  let s := match o.1 with
    | some (d, xs) => setTile s c.block d xs
    | none => s
  let s := orFlags s c.block c.gangs (o.2.foldl MxFlags.or ({} : MxFlags)).bits
  let s := match if c.nft then (List.range o.2.length).find? (fun n => (o.2.getD n {}).nonfinite) else none with
    | some n => defer s c.block c.lead.1 c.lead.2
        { cause := 0x0B, aux0 := BitVec.ofNat 32 (xopOf c.instr), aux1 := BitVec.ofNat 32 (tileOf c.instr),
          aux2 := BitVec.ofNat 32 n }
    | none => s
  leaveMatrix s core c

/-! ### Tile order (R198), ACCRD and ACCWR (R212) -/

/-- The row and column that a lane addresses. -/
def accPlace (kpos : Word) (l : Nat) : Nat × Nat := (bitsOf kpos.toNat 5 0 + l, bitsOf kpos.toNat 13 8)

/-- The values that an ACCRD writes. -/
def accResults (b : Block) (t v n : Nat) (kpos : Word) (lanes : List Nat) : List Result :=
  lanes.flatMap (fun l =>
    let p := accPlace kpos l
    (List.range n).map (fun i =>
      { lane := l, reg := v + i, val := BitVec.ofNat 32 (tileAt b t p.1 (p.2 + i)), poison := false }))

/-- The tile elements that an ACCWR writes, from values by 64 × lane + register. -/
def accWrite (s : State) (blk t n : Nat) (kpos : Word) (lanes : List Nat) (vals : Table Word) : State :=
  modBlock s blk (fun b => { b with tiles := lanes.foldl (fun ts l =>
    let p := accPlace kpos l
    (List.range n).foldl (fun ts i =>
      let x := tget 0 vals (64 * l + i)
      tset 0 ts (tileKey t p.1 (p.2 + i))
        (if decodeF fp32 x.toNat = .nan then BitVec.ofNat 32 (canonicalNan fp32) else x)) ts) b.tiles })

/-- Whether a tile operation of a block would come behind an earlier one on a tile it names. -/
def behind (earlier : List MatrixCommand) (blk : Nat) (i : Instr) : Bool :=
  earlier.any (fun m => m.block == blk && (tilesNamed m.instr).any (fun t => (tilesNamed i).contains t))

/-- A tile operation held in the engine that is an ACCRD or ACCWR, performed. -/
def performHeld (s : State) (core : Nat) (m : MatrixCommand) : State :=
  let kpos := m.uni.getD 0 0
  let lanes := lanesOf (m.uni.getD 1 0)
  let s := modCore s core (fun k => { k with mx := k.mx.filter (fun x => x.id != m.id) })
  match m.instr, getBlock s m.block with
  | .accrd _ t v n _, some b =>
    match getOp s m.id with
    | some o => setOp s m.id (some { o with kind := .producer (accResults b t.toNat v.toNat (2 ^ n.toNat) kpos lanes) })
    | none => s
  | .accwr _ t _ n _, some _ => accWrite s m.block t.toNat (2 ^ n.toNat) kpos lanes m.fragA
  | _, _ => s

/-- The first held ACCRD or ACCWR that no earlier operation on its tile holds back. -/
def nextHeld : List MatrixCommand → List MatrixCommand → Option MatrixCommand
  | _, [] => none
  | earlier, m :: ms =>
    if counterClass m.instr = none ∧ behind earlier m.block m.instr = false then some m else nextHeld (earlier ++ [m]) ms

/-- Held ACCRDs and ACCWRs performed as far as tile order lets them. -/
def settleHeld (s : State) (core : Nat) : Nat → State
  | 0 => s
  | n + 1 =>
    match nextHeld [] (getCore s core).mx with
    | some m => settleHeld (performHeld s core m) core n
    | none => s

/-- The operations that a core holds before one of an identity. -/
def earlierThan (ms : List MatrixCommand) (id : Nat) : List MatrixCommand := ms.takeWhile (fun m => m.id != id)

/-- Whether a matrix command may be performed: tile order (R198) and earlier writes (R199). -/
def mayPerform (s : State) (core : Nat) (c : MatrixCommand) : Bool :=
  counterClass c.instr != none && !behind (earlierThan (getCore s core).mx c.id) c.block c.instr && opsOver s c.after

/-- MATRIX_COMMAND_COMPLETE (R194, R213, R214). The flags of the elements that an ACCST stored before it stopped are dropped:
DESIGN CHOICE, log 119. -/
def execMatrixCommandComplete (core id : Nat) (s : State) : Host.Outcome State Fault Refusal :=
  match (getCore s core).mx.find? (fun m => m.id == id) with
  | none => .next s
  | some c =>
    match getBlock s c.block, mayPerform s core c with
    | some b, true =>
      let r : MxRun := { core := core, b := b, c := c }
      let after (s : State) : State := settleHeld s core (getCore s core).mx.length
      let who : Asker := .command c.block c.id
      let own (t : State) : State := untraced (forgetAsker (askAs t s.asker) who)
      match r.perform (tracing (askAs s who)) with
      | .ok o t => .next (after (applyOutcome (own t) core c o))
      | .trap x t => .next (after (leaveMatrix (defer (own t) c.block c.lead.1 c.lead.2 x) core c))
      | .bad va t =>
        .next (after (leaveMatrix
          (freezeData (own t) c.block c.lead.1 c.lead.2 (standsAt t c.block c.lead.1 c.lead.2) va) core c))
      | .wait t => .next (beginAgain s t)
    | _, _ => .next s

/-! ### The words -/

/-- MISALIGNED of a scratch operand's base and row pitch (R197). -/
def scratchTrap (g : Gang) (kx : BitVec 6) (used : Bool) : Option Trap :=
  if used = false then none
  else
    let base := (kReg g kx.toNat).val.toNat / 16 * 16
    let pitch := (kReg g (kx.toNat + 1)).val.toNat % 2 ^ 16
    if base % 32 ≠ 0 then some (operandTrap (BitVec.ofNat 64 base) 2)
    else if pitch = 0 ∨ pitch % 32 ≠ 0 then some (operandTrap (BitVec.ofNat 64 pitch) 2)
    else none

/-- MMA (R201 to R203). -/
def execMma (gd : BitVec 4) (a : BitVec 3) (fa fb : BitVec 5) (sat : BitVec 1) (ra rb : BitVec 6) (sa sb : BitVec 1)
    (gm : BitVec 6) (z : BitVec 1) (j : BitVec 4) (s : State) : Host.Outcome State Fault Refusal :=
  commandWord (.mma gd a fa fb sat ra rb sa sb gm z j) s (fun _ _ g _ =>
    firstTrap [scratchTrap g ra (sa == 1), scratchTrap g rb (sb == 1)])

/-- MMAS (R201 to R204). -/
def execMmas (gd : BitVec 4) (a : BitVec 3) (fa fb : BitVec 5) (sat : BitVec 1) (ra rb : BitVec 6) (sa sb : BitVec 1)
    (gm : BitVec 6) (z : BitVec 1) (ks : BitVec 6) (j : BitVec 4) (s : State) : Host.Outcome State Fault Refusal :=
  commandWord (.mmas gd a fa fb sat ra rb sa sb gm z ks j) s (fun _ _ g _ =>
    firstTrap [scratchTrap g ra (sa == 1), scratchTrap g rb (sb == 1), alignTrap (kWide g ks) 32 1])

/-- MCONV (R205 to R207). -/
def execMconv (gd : BitVec 4) (a : BitVec 3) (fa fb : BitVec 5) (sat : BitVec 1) (kr rb : BitVec 6) (sb : BitVec 1)
    (gm : BitVec 6) (z : BitVec 1) (ko : BitVec 6) (j : BitVec 4) (s : State) : Host.Outcome State Fault Refusal :=
  commandWord (.mconv gd a fa fb sat kr rb sb gm z ko j) s (fun _ _ g _ =>
    firstTrap [alignTrap (pairK g kr.toNat) 64 0, scratchTrap g rb (sb == 1)])

/-- MTRN (R208, R209). -/
def execMtrn (gd : BitVec 4) (d t : BitVec 3) (acc sat : BitVec 1) (j : BitVec 4) (s : State) :
    Host.Outcome State Fault Refusal := commandWord (.mtrn gd d t acc sat j) s (fun _ _ _ _ => none)

/-- MPERM (R208, R209). -/
def execMperm (gd : BitVec 4) (d t : BitVec 3) (acc mode sat : BitVec 1) (kp : BitVec 6) (j : BitVec 4) (s : State) :
    Host.Outcome State Fault Refusal :=
  commandWord (.mperm gd d t acc mode sat kp j) s (fun _ _ g _ => alignTrap (kWide g kp) 64 1)

/-- MRED (R208, R209). -/
def execMred (gd : BitVec 4) (d t : BitVec 3) (acc mode sat : BitVec 1) (j : BitVec 4) (s : State) :
    Host.Outcome State Fault Refusal := commandWord (.mred gd d t acc mode sat j) s (fun _ _ _ _ => none)

/-- ACCZ (R210). -/
def execAccz (gd : BitVec 4) (t : BitVec 3) (j : BitVec 4) (s : State) : Host.Outcome State Fault Refusal :=
  commandWord (.accz gd t j) s (fun _ _ _ _ => none)

/-- The address operand of ACCLD and ACCST at signing. -/
def transferTrap (g : Gang) (kx : BitVec 6) (sp fmt : BitVec 2) : Option Trap :=
  alignTrap (if sp = 0 then pairK g kx.toNat else kWide g kx) (accEsize fmt.toNat) sp.toNat

/-- ACCLD (R211). -/
def execAccld (gd : BitVec 4) (t : BitVec 3) (fmt sp : BitVec 2) (kx : BitVec 6) (pitch : BitVec 16) (j : BitVec 4)
    (s : State) : Host.Outcome State Fault Refusal :=
  commandWord (.accld gd t fmt sp kx pitch j) s (fun _ _ g _ => transferTrap g kx sp fmt)

/-- ACCST (R211). -/
def execAccst (gd : BitVec 4) (t : BitVec 3) (fmt : BitVec 2) (sat : BitVec 1) (sp : BitVec 2) (kx : BitVec 6)
    (pitch : BitVec 16) (j : BitVec 4) (s : State) : Host.Outcome State Fault Refusal :=
  commandWord (.accst gd t fmt sat sp kx pitch j) s (fun _ _ g _ => transferTrap g kx sp fmt)

/-- ACC_STATE 2 of a lane of ACCRD or ACCWR (R212). -/
def placeTrap (t n : Nat) (kpos : Word) (l : Nat) : Option Trap :=
  let p := accPlace kpos l
  if 63 < p.1 ∨ 64 < p.2 + n then some (accState t 2 kpos.toNat) else none

/-- A tile operation that waits in tile order, held in the engine with its position and lanes. -/
def holdTile (s : State) (t : Site) (id : Nat) (i : Instr) (kpos : Word) (lanes : List Nat) (vals : Table Word) : State :=
  modCore s t.core (fun c =>
    { c with mx := c.mx ++ [{ id := id, block := t.blk, instr := i, uni := [kpos, maskWhere (fun l => lanes.contains l)],
                              lead := (t.gang, lanes.headD 0), gangs := [], fragA := vals }] })

/-- A word of each active lane on a tile: ACC_STATE 2 for a place beyond it, then `f` for the other lanes. -/
def tileWordOp (i : Instr) (s : State) (tile n : Nat) (kpos : BitVec 6) (f : Site → Block → Word → List Nat → State) :
    Host.Outcome State Fault Refusal :=
  runWord i s (fun t iss act =>
    match getBlock s t.blk with
    | none => { st := s, moves := t.onward i.words iss }
    | some b =>
      let pos := (kReg (gangOf b t.gang) kpos.toNat).val
      let ok := (lanesOf act).filter (fun l => placeTrap tile n pos l == none)
      { st := if ok.isEmpty then s else f t b pos ok
        traps := (lanesOf act).filterMap (fun l => (placeTrap tile n pos l).map (fun x => (l, t.trap x)))
        moves := t.onward i.words iss })

/-- ACCRD (R212): a long-latency producer that reads the tile in tile order (R198). -/
def execAccrd (gd : BitVec 4) (t : BitVec 3) (v : BitVec 6) (n : BitVec 2) (kpos : BitVec 6) (s : State) :
    Host.Outcome State Fault Refusal :=
  let i : Instr := .accrd gd t v n kpos
  let c := 2 ^ n.toNat
  tileWordOp i s t.toNat c kpos (fun x b pos ok =>
    if behind (getCore s x.core).mx x.blk i then
      holdTile (startOp s x ok (vs v.toNat c) none .accRead []) x s.nextId i pos ok []
    else startProducer s x ok (vs v.toNat c) (accResults b t.toNat v.toNat c pos ok))

/-- ACCWR (R212): the registers are read at issue and written in tile order (R198). -/
def execAccwr (gd : BitVec 4) (t : BitVec 3) (v : BitVec 6) (n : BitVec 2) (kpos : BitVec 6) (s : State) :
    Host.Outcome State Fault Refusal :=
  let i : Instr := .accwr gd t v n kpos
  let c := 2 ^ n.toNat
  tileWordOp i s t.toNat c kpos (fun x b pos ok =>
    let vals : Table Word := ok.foldl (fun m l =>
      tsetMany 0 m (64 * l) ((List.range c).map (fun r => (vReg (threadOf (gangOf b x.gang) l) (v.toNat + r)).val))) []
    if behind (getCore s x.core).mx x.blk i then
      let (id, s) := freshId s
      holdTile s x id i pos ok vals
    else accWrite s x.blk t.toNat c pos ok vals)

end Sys2Proof.Machine
end

