-- ==== Sys2Proof/Machine/Modular.lean ====
section
/-! DEFINITION. Modulus slots and modular arithmetic (R215 to R218), and the butterfly network (R219 to R222). -/

namespace Sys2Proof.Machine

/-! ### Modular arithmetic -/

/-- A modulus slot of a thread (R26). -/
def modulusOf (x : Thread) (slot : Nat) : Option Modulus := tget none x.mods slot

/-- MODULUS_UNSET (R215). -/
def modulusTrap (w : Word) (slot : Nat) : Trap := { cause := 0x11, aux0 := w, aux1 := BitVec.ofNat 32 slot }

/-- B(z) of R218: barrett of R67 under a modulus. -/
abbrev Modulus.reduce (m : Modulus) (z : Nat) : Dword := barrett z m.q.toNat m.c.toNat

/-- The pair that a five-bit register field names (R217). -/
abbrev half (r : BitVec 5) : Nat := 2 * r.toNat

/-- The value of the pair a five-bit field names. -/
abbrev opM (x : Thread) (r : BitVec 5) : Dword := pairV x (half r)

/-- A modular word (R215): each active thread uses the slot in itself, or takes MODULUS_UNSET; the results go to pairs,
poisoned where a source is. -/
def modWord (i : Instr) (s : State) (slot : BitVec 2) (f : Modulus → Thread → List (Nat × Dword)) :
    Host.Outcome State Fault Refusal :=
  laneWord i s (fun t g l =>
    let x := threadOf g l
    match modulusOf x slot.toNat with
    | none => .error (modulusTrap t.w slot.toNat)
    | some m => .ok ((f m x).foldl (fun y r => writePair y r.1 r.2 (anyPoison g l (sources i))) x))

/-- MADDM (R218). -/
def execMaddm (gd : BitVec 4) (d a b : BitVec 5) (slot : BitVec 2) (s : State) : Host.Outcome State Fault Refusal :=
  modWord (.maddm gd d a b slot) s slot (fun m x => [(half d, m.reduce ((opM x a).toNat + (opM x b).toNat))])

/-- MSUBM (R218). -/
def execMsubm (gd : BitVec 4) (d a b : BitVec 5) (slot : BitVec 2) (s : State) : Host.Outcome State Fault Refusal :=
  modWord (.msubm gd d a b slot) s slot (fun m x => [(half d, m.reduce (opM x a + m.q - opM x b).toNat)])

/-- MNEGM (R218). -/
def execMnegm (gd : BitVec 4) (d b : BitVec 5) (slot : BitVec 2) (s : State) : Host.Outcome State Fault Refusal :=
  modWord (.mnegm gd d b slot) s slot (fun m x => [(half d, m.reduce (m.q - opM x b).toNat)])

/-- MMULM (R218). -/
def execMmulm (gd : BitVec 4) (d a b : BitVec 5) (slot : BitVec 2) (s : State) : Host.Outcome State Fault Refusal :=
  modWord (.mmulm gd d a b slot) s slot (fun m x => [(half d, m.reduce ((opM x a).toNat * (opM x b).toNat))])

/-- MMACM (R218, R97): d is also a source. -/
def execMmacm (gd : BitVec 4) (d a b : BitVec 5) (slot : BitVec 2) (s : State) : Host.Outcome State Fault Refusal :=
  modWord (.mmacm gd d a b slot) s slot (fun m x =>
    [(half d, m.reduce ((opM x a).toNat * (opM x b).toNat + (opM x d).toNat))])

/-- MREDM (R218). -/
def execMredm (gd : BitVec 4) (d b : BitVec 5) (slot : BitVec 2) (s : State) : Host.Outcome State Fault Refusal :=
  modWord (.mredm gd d b slot) s slot (fun m x => [(half d, m.reduce (opM x b).toNat)])

/-- BFLYCT (R218): x in d, y in a, the twiddle in b. -/
def execBflyct (gd : BitVec 4) (d a b : BitVec 5) (slot : BitVec 2) (s : State) : Host.Outcome State Fault Refusal :=
  modWord (.bflyct gd d a b slot) s slot (fun m x =>
    let t := m.reduce ((opM x b).toNat * (opM x a).toNat)
    [(half d, m.reduce ((opM x d).toNat + t.toNat)), (half a, m.reduce (opM x d + m.q - t).toNat)])

/-- BFLYGS (R218): x in d, y in a, the twiddle in b. -/
def execBflygs (gd : BitVec 4) (d a b : BitVec 5) (slot : BitVec 2) (s : State) : Host.Outcome State Fault Refusal :=
  modWord (.bflygs gd d a b slot) s slot (fun m x =>
    let t := m.reduce (opM x d + m.q - opM x a).toNat
    [(half d, m.reduce ((opM x d).toNat + (opM x a).toNat)), (half a, m.reduce (t.toNat * (opM x b).toNat))])

/-- The slot that MODSET leaves (R216): unset where q is even, below 3 or at least 2^62. -/
def modulusFrom (q c : Dword) (auto : Bool) : Option Modulus :=
  if q.toNat % 2 = 0 ∨ q.toNat < 3 ∨ 2 ^ 62 ≤ q.toNat then none
  else some { q := q, c := if auto then BitVec.ofNat 64 (2 ^ (2 * bitLength q.toNat) / q.toNat) else c }

/-- MODSET (R216). -/
def execModset (gd : BitVec 4) (a b : BitVec 6) (slot : BitVec 2) (auto : BitVec 1) (s : State) :
    Host.Outcome State Fault Refusal :=
  laneWord (.modset gd a b slot auto) s (fun _ g l =>
    let x := threadOf g l
    .ok { x with mods := tset none x.mods slot.toNat
                           (modulusFrom (pairV x a.toNat) (pairV x b.toNat) (auto == 1)) })

/-! ### The butterfly network -/

/-- What a participant reads of a pair in a lane (R219): 0, not poisoned, where the lane is no participant. -/
def lanePair (g : Gang) (ps : List Nat) (l a : Nat) : Dword × Bool :=
  if l ∈ ps then (pairV (threadOf g l) a, anyPoison g l (vs a 2)) else (0, false)

/-- A lane number with one bit inverted, cleared or set. -/
abbrev flipBit (l sh : Nat) : Nat := l ^^^ 2 ^ sh
/-- A lane number with one bit cleared. -/
abbrev clearBit (l sh : Nat) : Nat := if l.testBit sh then l - 2 ^ sh else l
/-- A lane number with one bit set. -/
abbrev raiseBit (l sh : Nat) : Nat := if l.testBit sh then l else l + 2 ^ sh

/-- A pair received. -/
abbrev putPair (x : Thread) (d : Nat) (v : Dword × Bool) : Thread := writePair x d v.1 v.2

/-- NPERM (R220): swapped, or both inputs in one order. -/
def execNperm (gd : BitVec 4) (d a : BitVec 6) (sh : BitVec 3) (mode : BitVec 1) (s : State) :
    Host.Outcome State Fault Refusal :=
  crossWord (.nperm gd d a sh mode) s (fun g ps l x =>
    if mode = 0 then putPair x d.toNat (lanePair g ps (flipBit l sh.toNat) a.toNat)
    else putPair (putPair x d.toNat (lanePair g ps (clearBit l sh.toNat) a.toNat)) (d.toNat + 2)
      (lanePair g ps (raiseBit l sh.toNat) a.toNat))

/-- A lane number with its low bits reversed (R221). -/
def reverseLow (l k : Nat) : Nat :=
  l / 2 ^ k * 2 ^ k + (List.range k).foldl (fun n b => if l.testBit b then n + 2 ^ (k - 1 - b) else n) 0

/-- NREV (R221). -/
def execNrev (gd : BitVec 4) (d a : BitVec 6) (k : BitVec 3) (s : State) : Host.Outcome State Fault Refusal :=
  crossWord (.nrev gd d a k) s (fun g ps l x => putPair x d.toNat (lanePair g ps (reverseLow l k.toNat) a.toNat))

/-- Coefficient i of the group at a (R222), under the modulus of the participant that holds it when it is negated. -/
def coefficient (g : Gang) (ps : List Nat) (slot a : Nat) (negate : Bool) (n : Nat) : Dword × Bool :=
  let l := n % 32
  let v := lanePair g ps l (a + 2 * (n / 32))
  if negate = false ∨ ¬ l ∈ ps then v
  else
    match modulusOf (threadOf g l) slot with
    | some m => (m.reduce (m.q - v.1).toNat, v.2)
    | none => v

/-- Coefficient o of the image under X → X^g (R222): the source i has i × g = o or o + N modulo 2N, and an odd g gives one
source only. A source that no participant holds gives 0, negated under no modulus. -/
def automorphed (g : Gang) (ps : List Nat) (slot a gv n o : Nat) : Dword × Bool :=
  match (List.range n).find? (fun k => k * gv % (2 * n) % n == o) with
  | some k => coefficient g ps slot a (n ≤ k * gv % (2 * n)) k
  | none => (0, false)

/-- NAUTO (R222): a thread whose slot is unset takes MODULUS_UNSET and is no participant. -/
def execNauto (gd : BitVec 4) (d a kg : BitVec 6) (s : State) : Host.Outcome State Fault Refusal :=
  let i : Instr := .nauto gd d a kg
  runWord i s (fun t iss act =>
    let g := t.g s
    let k := kReg g kg.toNat
    let slot := bitsOf k.val.toNat 11 10
    let e := 2 ^ nautoLog k.val
    let unset (l : Nat) : Bool := modulusOf (threadOf g l) slot == none
    let ps := (lanesOf act).filter (fun l => !unset l)
    { st := modGang s t.blk t.gang (fun x => ps.foldl (fun x l =>
        modThreadOf x l (fun _ => (List.range e).foldl (fun y p =>
          let v := automorphed g ps slot a.toNat (bitsOf k.val.toNat 7 0) (32 * e) (32 * p + l)
          putPair y (d.toNat + 2 * p) (v.1, v.2 || k.poison)) (threadOf g l))) x)
      traps := ((lanesOf act).filter unset).map (fun l => (l, t.trap (modulusTrap t.w slot)))
      moves := t.onward i.words iss })

end Sys2Proof.Machine
end

