-- ==== Sys2Proof/Machine/Plane.lean ====
section
/-! DEFINITION. Plane memory: LDP, LDPR and STP (R151 to R158); block registers: QUNP, QPK and QTAG (R159 to R162). -/

namespace Sys2Proof.Machine

/-! ### Plane memory -/

/-- A plane operand (spec/05 5.7): base, block index, plane stride. -/
structure PlaneOperand where
  base   : Dword
  blk    : Nat
  stride : Nat
  deriving DecidableEq, Repr

/-- The plane operand in a k quad. -/
def planeOperand (g : Gang) (kq : BitVec 6) : PlaneOperand :=
  { base := pairK g kq.toNat, blk := (kReg g (kq.toNat + 2)).val.toNat, stride := (kReg g (kq.toNat + 3)).val.toNat }

/-- Q_FORMAT of a plane operand (R152). -/
def planeOperandTrap (p : PlaneOperand) : Option Trap :=
  let x (r : Nat) : Trap := { cause := 0x17, aux0 := BitVec.ofNat 32 r, aux1 := BitVec.ofNat 32 p.blk }
  if p.base.toNat % 256 ≠ 0 then some (x 1)
  else if p.stride = 0 ∨ p.stride % 256 ≠ 0 then some (x 2)
  else if p.base.toNat / 2 ^ 40 = 0xFF0000 then some (x 3)
  else none

/-- A plane word that acts once for its gang: Q_FORMAT, then SPACE_RANGE of the head and of every plane word that it names, those
of the planes wanted by a load among them, in every active thread. A plane that is wanted and not stored counts too: DEDUCED, log 93. -/
def planeWord (i : Instr) (s : State) (kq : BitVec 6) (dst : List RegRef)
    (mk : Gang → PlaneOperand → BitVec 32 → OpKind × List Access) (planes : Gang → List Nat) : Host.Outcome State Fault Refusal :=
  runWord i s (fun t iss act =>
    match getBlock s t.blk with
    | none => { st := s, moves := t.onward i.words iss }
    | some b =>
      let g := gangOf b t.gang
      let p := planeOperand g kq
      let (kind, accs) := mk g p act
      let named : List (Nat × Nat) := (headAddress p.base p.blk, 2) ::
        (planes g).map (fun k => (planeAddress p.base p.blk p.stride k, 4))
      let err : Option Trap :=
        match planeOperandTrap p with
        | some x => some x
        | none => named.findSome? (fun a => accessTrap s b 0 a.1 a.2)
      match err with
      | some x => { st := s, traps := (lanesOf act).map (fun l => (l, t.trap x)), moves := t.onward i.words iss }
      | none => { st := startOp s t (lanesOf act) dst (counterClass i) kind accs, moves := t.onward i.words iss })

/-- An access of a plane word, which counts for every active thread (R139). -/
abbrev planeAccess (act : BitVec 32) (va size : Nat) (wr : Option (List Byte)) (key : Word) : Access :=
  { lanes := act, space := 0, va := BitVec.ofNat 64 va, size := size, wr := wr, key := key }

/-- The first access of a plane load: the head read. -/
def planeLoadStart (refine : Bool) (q : BitVec 4) (n : BitVec 4) (pd : BitVec 3) (g : Gang) (p : PlaneOperand)
    (act : BitVec 32) : OpKind × List Access :=
  (.planeLoad refine q.toNat pd.toNat n.toNat act p.base p.blk p.stride,
   [planeAccess act (headAddress p.base p.blk) 2 none (threadOf g (lowest act)).spx])

/-- LDP (R155): q, its tag and pd are empty from issue until completion. -/
def execLdp (gd q : BitVec 4) (kq : BitVec 6) (n : BitVec 4) (pd : BitVec 3) (s : State) :
    Host.Outcome State Fault Refusal :=
  planeWord (.ldp gd q kq n pd) s kq [.q q.toNat, .p pd.toNat] (planeLoadStart false q n pd)
    (fun _ => List.range (n.toNat + 1))

/-- LDPR (R156). -/
def execLdpr (gd q : BitVec 4) (kq : BitVec 6) (n : BitVec 4) (pd : BitVec 3) (s : State) :
    Host.Outcome State Fault Refusal :=
  planeWord (.ldpr gd q kq n pd) s kq [.q q.toNat, .p pd.toNat] (planeLoadStart true q n pd)
    (fun g => (List.range (n.toNat + 1)).drop (bitsOf (qReg g q.toNat).tag.toNat 15 12 + 1))

/-- A word of a block register's bits: bit `k` of each lane, lane l in bit l (R154). -/
def planeBits (q : QReg) (k : Nat) : Nat := (maskWhere (fun l => (tget 0 q.lanes l).getLsbD k)).toNat

/-- STP (R154): the head, the sign word and the magnitude planes the tag holds. -/
def execStp (gd q : BitVec 4) (kq : BitVec 6) (s : State) : Host.Outcome State Fault Refusal :=
  planeWord (.stp gd q kq) s kq [] (fun g p act =>
    let x := qReg g q.toNat
    let h := bitsOf x.tag.toNat 15 12
    let key := (threadOf g (lowest act)).spx
    (.planeStore x.tag,
     planeAccess act (headAddress p.base p.blk) 2 (some []) key ::
       (List.range (h + 1)).map (fun k =>
         planeAccess act (planeAddress p.base p.blk p.stride k) 4 (some (natBytes 4 (planeBits x (15 - k)))) key)))
    (fun g => List.range (bitsOf (qReg g q.toNat).tag.toNat 15 12 + 1))

/-! ### Block registers -/

/-- An exact value as the type code of QUNP (R160): FP32, BF16, FP16 or INT32. -/
def unpackValue (ty : Nat) (m : FpMode) (v : Val) : Word :=
  match ty with
  | 0 => BitVec.ofNat 32 (convert fp32 v m.rm false m.ftz)
  | 1 => BitVec.ofNat 32 (convert bf16 v m.rm false m.ftz)
  | 2 => BitVec.ofNat 32 (convert fp16 v m.rm false m.ftz)
  | _ => BitVec.ofInt 32 (toInteger v m.rm (-(2 ^ 31)) (2 ^ 31 - 1))

/-- QUNP (R160). -/
def execQunp (gd : BitVec 4) (d : BitVec 6) (q : BitVec 4) (mid : BitVec 1) (ty : BitVec 3) (s : State) :
    Host.Outcome State Fault Refusal :=
  vWord (.qunp gd d q mid ty) s d.toNat (fun g l x =>
    let r := qReg g q.toNat
    let bits := (tget 0 r.lanes l).toNat
    unpackValue ty.toNat (fpMode x)
      (planeValue (bitsOf r.tag.toNat 15 0) (bits.testBit 15) (bitsOf bits 14 0) (bitsOf r.tag.toNat 15 12) (mid == 1)))

/-- A source of QPK read exactly (R161): FP32, BF16 or INT32. -/
def packValue (ty : Nat) (w : Word) : Val :=
  match ty with
  | 0 => decodeF fp32 w.toNat
  | 1 => decodeF bf16 (bitsOf w.toNat 15 0)
  | _ => intVal w.toInt

/-- QPK (R161): a lane that is not active counts as +0; the version of the old tag stays. -/
def execQpk (gd q : BitVec 4) (a : BitVec 6) (n : BitVec 4) (mode : BitVec 1) (ty : BitVec 2) (s : State) :
    Host.Outcome State Fault Refusal :=
  gangWord (.qpk gd q a n mode ty) s (fun g act =>
    let xs := lanes32.map (fun l =>
      if act.getLsbD l then packValue ty.toNat (vReg (threadOf g l) a.toNat).val else .fin (zeroOf false))
    let (planes, e, sgn, mags) := pbEncode xs n.toNat (mode == 1)
    let old := qReg g q.toNat
    writeQ g q.toNat
      (lanes32.foldl (fun t l => tset 0 t l (BitVec.ofNat 16 ((if sgn.getD l false then 2 ^ 15 else 0) + mags.getD l 0))) [])
      (BitVec.ofNat 20 (bitsOf old.tag.toNat 19 16 * 2 ^ 16 + planes * 2 ^ 12 + planes * 2 ^ 8 + e))
      ((lanesOf act).any (fun l => (vReg (threadOf g l) a.toNat).poison)))

/-- QTAG get (R162). -/
def execQtagGet (gd : BitVec 4) (d : BitVec 6) (q : BitVec 4) (s : State) : Host.Outcome State Fault Refusal :=
  vWord (.qtagGet gd d q) s d.toNat (fun g _ _ => (qReg g q.toNat).tag.setWidth 32)

/-- QTAG set (R162): from the lowest active thread; magnitude bits above the planes held are cleared. -/
def execQtagSet (gd : BitVec 4) (d : BitVec 6) (q : BitVec 4) (s : State) : Host.Outcome State Fault Refusal :=
  let i : Instr := .qtagSet gd d q
  runWord i s (fun t iss act =>
    let g := t.g s
    let src := vReg (threadOf g (lowest act)) d.toNat
    let tag : BitVec 20 := src.val.extractLsb' 0 20
    let held := bitsOf tag.toNat 15 12
    if bitsOf tag.toNat 11 8 < held then
      { st := s, traps := (lanesOf act).map (fun l => (l, t.trap { cause := 0x17, aux0 := 4 })),
        moves := t.onward i.words iss }
    else
      { st := modGang s t.blk t.gang (fun g =>
          let old := qReg g q.toNat
          writeQ g q.toNat
            (lanes32.foldl (fun t l =>
              let x := (tget 0 old.lanes l).toNat
              tset 0 t l (BitVec.ofNat 16 (bitsOf x 15 15 * 2 ^ 15 + planesHeld (bitsOf x 14 0) held))) [])
            tag (old.poison || src.poison))
        moves := t.onward i.words iss })

end Sys2Proof.Machine
end

