-- ==== Sys2Proof/Machine/Crypto.lean ====
section
/-! DEFINITION. SHA-256 and the making and verification of ECDSA P-256 signatures, which the boot ROM applies to a firmware
image and attestation to what it measures and answers (spec/17: R396, R401, R402). The spec names both standards; their
constants are the standards'. -/

namespace Sys2Proof.Machine.Crypto

/-! ### SHA-256 -/

/-- The round constants. -/
def roundConstants : List Word :=
  [0x428A2F98, 0x71374491, 0xB5C0FBCF, 0xE9B5DBA5, 0x3956C25B, 0x59F111F1, 0x923F82A4, 0xAB1C5ED5,
   0xD807AA98, 0x12835B01, 0x243185BE, 0x550C7DC3, 0x72BE5D74, 0x80DEB1FE, 0x9BDC06A7, 0xC19BF174,
   0xE49B69C1, 0xEFBE4786, 0x0FC19DC6, 0x240CA1CC, 0x2DE92C6F, 0x4A7484AA, 0x5CB0A9DC, 0x76F988DA] ++
  [0x983E5152, 0xA831C66D, 0xB00327C8, 0xBF597FC7, 0xC6E00BF3, 0xD5A79147, 0x06CA6351, 0x14292967,
   0x27B70A85, 0x2E1B2138, 0x4D2C6DFC, 0x53380D13, 0x650A7354, 0x766A0ABB, 0x81C2C92E, 0x92722C85] ++
  [0xA2BFE8A1, 0xA81A664B, 0xC24B8B70, 0xC76C51A3, 0xD192E819, 0xD6990624, 0xF40E3585, 0x106AA070,
   0x19A4C116, 0x1E376C08, 0x2748774C, 0x34B0BCB5, 0x391C0CB3, 0x4ED8AA4A, 0x5B9CCA4F, 0x682E6FF3,
   0x748F82EE, 0x78A5636F, 0x84C87814, 0x8CC70208, 0x90BEFFFA, 0xA4506CEB, 0xBEF9A3F7, 0xC67178F2]

/-- The first hash value. -/
def firstHash : List Word :=
  [0x6A09E667, 0xBB67AE85, 0x3C6EF372, 0xA54FF53A, 0x510E527F, 0x9B05688C, 0x1F83D9AB, 0x5BE0CD19]

/-- The number that bytes hold, the first the most significant. -/
def bigNat (bs : List Byte) : Nat := bs.foldl (fun n b => n * 256 + b.toNat) 0

/-- The low bytes of a number, most significant first. -/
def bigBytes (n x : Nat) : List Byte := (List.range n).map (fun i => BitVec.ofNat 8 (x / 256 ^ (n - 1 - i)))

/-- The message padded to whole blocks of 64 bytes. -/
def padMessage (m : List Byte) : List Byte :=
  m ++ [0x80] ++ List.replicate ((119 - m.length % 64) % 64) 0 ++ bigBytes 8 (8 * m.length)

/-- The next word of a message schedule, whose words are listed latest first. -/
def nextScheduleWord (ws : List Word) : Word :=
  let x := ws.getD 14 0
  let y := ws.getD 1 0
  (y.rotateRight 17 ^^^ y.rotateRight 19 ^^^ y >>> 10) + ws.getD 6 0 +
    (x.rotateRight 7 ^^^ x.rotateRight 18 ^^^ x >>> 3) + ws.getD 15 0

/-- The message schedule of a block. -/
def schedule (block : List Byte) : List Word :=
  let first := (List.range 16).map (fun i => BitVec.ofNat 32 (bigNat ((block.drop (4 * i)).take 4)))
  ((List.range 48).foldl (fun ws _ => nextScheduleWord ws :: ws) first.reverse).reverse

/-- One round on the working variables a to h. -/
def round (v : List Word) (k w : Word) : List Word :=
  let a := v.getD 0 0
  let e := v.getD 4 0
  let t1 := v.getD 7 0 + (e.rotateRight 6 ^^^ e.rotateRight 11 ^^^ e.rotateRight 25) +
    ((e &&& v.getD 5 0) ^^^ (~~~e &&& v.getD 6 0)) + k + w
  let t2 := (a.rotateRight 2 ^^^ a.rotateRight 13 ^^^ a.rotateRight 22) +
    ((a &&& v.getD 1 0) ^^^ (a &&& v.getD 2 0) ^^^ (v.getD 1 0 &&& v.getD 2 0))
  [t1 + t2, a, v.getD 1 0, v.getD 2 0, v.getD 3 0 + t1, e, v.getD 5 0, v.getD 6 0]

/-- The hash value after a block. -/
def compress (h : List Word) (block : List Byte) : List Word :=
  let v := (roundConstants.zip (schedule block)).foldl (fun v x => round v x.1 x.2) h
  (h.zip v).map (fun x => x.1 + x.2)

/-- The SHA-256 digest of bytes. -/
def sha256 (m : List Byte) : BitVec 256 :=
  let p := padMessage m
  let h := (List.range (p.length / 64)).foldl (fun h i => compress h ((p.drop (64 * i)).take 64)) firstHash
  BitVec.ofNat 256 (h.foldl (fun n w => n * 2 ^ 32 + w.toNat) 0)

/-! ### P-256 -/

/-- The field prime. -/
def prime : Nat := 0xFFFFFFFF00000001000000000000000000000000FFFFFFFFFFFFFFFFFFFFFFFF
/-- The order of the base point. -/
def order : Nat := 0xFFFFFFFF00000000FFFFFFFFFFFFFFFFBCE6FAADA7179E84F3B9CAC2FC632551
/-- The constant b of the curve. -/
def curveB : Nat := 0x5AC635D8AA3A93E7B3EBBD55769886BC651D06B0CC53B0F63BCE3C3E27D2604B
/-- The base point. -/
def basePoint : Nat × Nat :=
  (0x6B17D1F2E12C4247F8BCE6E563A440F277037D812DEB33A0F4A13945D898C296,
   0x4FE342E2FE1A7F9B8EE7EB4A7C0F9E162BCE33576B315ECECBB6406837BF51F5)

/-- A power modulo a number, over the bits of the exponent from the top. -/
def powMod (b e m : Nat) : Nat :=
  (List.range 256).foldl (fun x i => let y := x * x % m; if e.testBit (255 - i) then y * b % m else y) 1

/-- The inverse modulo a prime. -/
def inverse (x m : Nat) : Nat := powMod x (m - 2) m

/-- The sum of two points, `none` the point at infinity. -/
def addPoint : Option (Nat × Nat) → Option (Nat × Nat) → Option (Nat × Nat)
  | none, q => q
  | p, none => p
  | some (x1, y1), some (x2, y2) =>
    if x1 = x2 ∧ (y1 + y2) % prime = 0 then none
    else
      let slope := if x1 = x2 then (3 * x1 * x1 + prime - 3) * inverse (2 * y1) prime % prime
        else (y2 + prime - y1) * inverse (x2 + prime - x1) prime % prime
      let x3 := (slope * slope + 2 * prime - x1 - x2) % prime
      some (x3, (slope * (x1 + prime - x3) + prime - y1) % prime)

/-- A multiple of a point, over the bits of the factor from the top. -/
def mulPoint (k : Nat) (p : Nat × Nat) : Option (Nat × Nat) :=
  (List.range 256).foldl (fun q i =>
    let q := addPoint q q
    if k.testBit (255 - i) then addPoint q (some p) else q) none

/-- Whether a pair is a point of the curve. -/
def onCurve (p : Nat × Nat) : Bool :=
  decide (p.1 < prime ∧ p.2 < prime) &&
    p.2 * p.2 % prime == (p.1 * p.1 * p.1 + (prime - 3) * p.1 + curveB) % prime

/-- Whether an ECDSA P-256 signature over a digest verifies under a public key. -/
def verify (digest : BitVec 256) (key : Nat × Nat) (r s : Nat) : Bool :=
  if r = 0 ∨ order ≤ r ∨ s = 0 ∨ order ≤ s ∨ onCurve key = false then false
  else
    let w := inverse s order
    match addPoint (mulPoint (digest.toNat * w % order) basePoint) (mulPoint (r * w % order) key) with
    | none => false
    | some (x, _) => x % order == r

/-! ### Signing (R401) -/

/-- A number of 1 to the order less one, for any number: private keys and nonces. -/
def scalarOf (n : Nat) : Nat := 1 + n % (order - 1)

/-- The ECDSA P-256 signature of a digest under a private key with a nonce: r, then s. -/
def sign (key digest : BitVec 256) (nonce : Nat) : BitVec 512 :=
  let k := scalarOf nonce
  let r := ((mulPoint k basePoint).getD (0, 0)).1 % order
  let s := inverse k order * ((digest.toNat + r * scalarOf key.toNat) % order) % order
  BitVec.ofNat 512 (r * 2 ^ 256 + s)

/-- The public half of a private key: X, then Y, most significant byte first. -/
def publicBytes (key : BitVec 256) : List Byte :=
  let p := (mulPoint (scalarOf key.toNat) basePoint).getD (0, 0)
  bigBytes 32 p.1 ++ bigBytes 32 p.2

end Sys2Proof.Machine.Crypto
end

