-- ==== Sys2Proof/Machine/Platform.lean ====
section
/-! DEFINITION. Boot, reset, flash, clock, temperature and attestation (spec/17: R395 to R405), and the cycle counters of the
cores (R36). -/

namespace Sys2Proof.Machine

/-! ### Reset and power-off (R374, R395, R399) -/

/-- The module after a reset or a loss of power: only flash survives (R395). What lies outside the module stays: the host's
memory, the other devices, the physical facts, what has been sent, and the turns to come. -/
def resetMachine (s : State) : State :=
  { State.reset with
    agenda := s.agenda, tick := s.tick, nextId := s.nextId, out := s.out, hostMem := s.hostMem, phys := s.phys
    link := { State.reset.link with peers := s.link.peers }
    mgmt := { State.reset.mgmt with flash := s.mgmt.flash, boots := s.mgmt.boots + 1 } }

/-- A write of RESETREQ (R399). -/
def writeResetreq (s : State) (v : Word) : State := if v = 0xB0070001 then resetMachine s else s

/-- RESETREQ (R399). -/
def execResetreq (value : BitVec 32) (s : State) : Host.Outcome State Fault Refusal := .next (writeResetreq s value)

/-- POWER_OFF (R395). -/
def execPowerOff (s : State) : Host.Outcome State Fault Refusal := .next (resetMachine s)

/-! ### Boot (R396 to R398, R400, R402) -/

/-- The header of the image in a slot. -/
def imageHeader (slot : Table Byte) : List Byte := tgetMany 0 slot 0 512

/-- The body of the image in a slot. -/
def imageBody (slot : Table Byte) : List Byte := tgetMany 0 slot 512 (fieldAt (imageHeader slot) 12 4)

/-- The result of a slot (Table 17.4): 1 accepted, 2 bad header, 3 root key hash mismatch, 4 signature failed, 5 flash read
error. `root` is the root key hash of the ROM. -/
def slotResult (slot : Table Byte) (unreadable : Bool) (root : BitVec 256) : Nat :=
  let h := imageHeader slot
  let len := fieldAt h 12 4
  let key := (h.drop 16).take 64
  let sig := (h.drop 80).take 64
  if unreadable then 5
  else if fieldAt h 0 4 ≠ 0x5A4D0940 ∨ len % 4096 ≠ 0 ∨ 2 ^ 24 - 4096 < len then 2
  else if Crypto.sha256 key ≠ root then 3
  else if Crypto.verify (Crypto.sha256 (h.take 80 ++ h.drop 144 ++ imageBody slot))
      (Crypto.bigNat (key.take 32), Crypto.bigNat (key.drop 32)) (Crypto.bigNat (sig.take 32)) (Crypto.bigNat (sig.drop 32))
    then 1
  else 4

/-- The requests of a cluster served until none is left; `fuel` bounds them. -/
def serveAll (cl : Nat) : Nat → State → State
  | 0, s => s
  | fuel + 1, s => serveAll cl fuel (serveFirst s cl)

/-- The repair records applied (R397, R398): each lane swap, then each bank health; whether one was skipped as out of range. -/
def applyRepairs (s : State) : Bool × State :=
  let recs := s.mgmt.flash.records
  let swaps := Config.laneSwaps recs
  let healths := Config.bankHealths recs
  let s := swaps.foldl (fun s x => if x.1 < 6 ∧ x.2.1 < 160 then writeSwap s x.1 x.2.1 (BitVec.ofNat 32 x.2.2) else s) s
  let s := healths.foldl (fun s x =>
    if x.1 < 40 ∧ x.2 < 2 ^ 36 then
      let s := writeHealth s x.1 (BitVec.ofNat 64 x.2)
      serveAll x.1 (getCluster s x.1).requests.length s
    else s) s
  (swaps.any (fun x => decide (6 ≤ x.1 ∨ 160 ≤ x.2.1)) || healths.any (fun x => decide (40 ≤ x.1 ∨ 2 ^ 36 ≤ x.2)), s)

/-- The device number written and the ports released (R363, R397). -/
def joinPod (s : State) : State :=
  match Config.podNumber s.mgmt.flash.records with
  | some n =>
    if n < 576 then { s with link := { s.link with uadev := BitVec.ofNat 32 (2 ^ 31 + n), released := true } } else s
  | none => s

/-- The measurements 1 to 3 (Table 17.2), which the ROM takes of the image that it accepts (R397, item 3). -/
def imageMeasurements (image : List Byte) : List (List Byte) :=
  [Crypto.bigBytes 32 Config.romRelease.toNat, Crypto.bigBytes 32 (Crypto.sha256 image).toNat, (image.drop 4).take 8]

/-- The measurements 4 to 6 (Table 17.2). -/
def recordMeasurements (f : Flash) (slot : Nat) : List (List Byte) :=
  [Crypto.bigBytes 32 (Crypto.sha256 (Config.podRecord f.records)).toNat,
   Crypto.bigBytes 32 (Crypto.sha256 (Config.appliedRecords f.records)).toNat, [BitVec.ofNat 8 slot]]

/-- BOOTSTAT (Table 17.4). -/
def bootStat (stage slot skipped a b : Nat) : Word :=
  BitVec.ofNat 32 (stage * 2 ^ 28 + slot * 2 ^ 24 + skipped * 2 ^ 16 + a * 2 ^ 8 + b)

/-- The stage of the boot that BOOTSTAT names (Table 17.4). -/
def bootStage (s : State) : Nat := bitsOf s.mgmt.bootstat.toNat 31 28

/-- The boot ROM begins to verify images, with the identity key derived (R397, item 1; R400). -/
def beginVerify (s : State) : State :=
  { s with mgmt := { s.mgmt with bootstat := bootStat 1 0 0 0 0, identityKey := some (Config.identityKey s.mgmt.flash.identity) } }

/-- The bytes of a slot: 0 A, 1 B. -/
def slotOf (f : Flash) (slot : Nat) : Table Byte := if slot = 0 then f.slotA else f.slotB

/-- The image of a slot. -/
def imageOf (f : Flash) (slot : Nat) : List Byte := imageHeader (slotOf f slot) ++ imageBody (slotOf f slot)

/-- The ROM measures the image of a slot and hands control to it (R397, item 3), with the alias key derived (R400). -/
def handTo (s : State) (slot a b : Nat) : State :=
  let image := imageOf s.mgmt.flash slot
  { s with mgmt :=
    { s.mgmt with
      bootstat := bootStat 2 slot 0 a b
      fwver := BitVec.ofNat 32 (fieldAt image 4 4), fwsvn := BitVec.ofNat 32 (fieldAt image 8 4)
      measurements := imageMeasurements image
      aliasKey := s.mgmt.identityKey.map (fun k => Config.aliasKey k (Crypto.sha256 image)) } }

/-- The next slot tried (R397, items 1 and 2): slot A, then slot B if A fails, then recovery. -/
def verifyNext (s : State) : State :=
  let a := bitsOf s.mgmt.bootstat.toNat 15 8
  if a = 0 then
    let r := slotResult s.mgmt.flash.slotA s.phys.flashA s.phys.rootKeyHash
    if r = 1 then handTo s 0 1 0 else { s with mgmt := { s.mgmt with bootstat := bootStat 1 0 0 r 0 } }
  else
    let r := slotResult s.mgmt.flash.slotB s.phys.flashB s.phys.rootKeyHash
    if r = 1 then handTo s 1 a 1 else { s with mgmt := { s.mgmt with bootstat := bootStat 15 0 0 a r } }

/-- Sarmer applies the repair records, joins the pod and is ready (R397, items 4 and 5; R402). -/
def becomeReady (s : State) : State :=
  let st := s.mgmt.bootstat.toNat
  let slot := bitsOf st 27 24
  let (skipped, s) := applyRepairs s
  let s := joinPod s
  { s with mgmt :=
    { s.mgmt with
      bootstat := bootStat 3 slot (if skipped then 1 else 0) (bitsOf st 15 8) (bitsOf st 7 0)
      measurements := s.mgmt.measurements.take 3 ++ recordMeasurements s.mgmt.flash slot } }

/-- POWER_ON_RESET (R397): the boot goes on by one stage, from the ROM to ready or to recovery; a device that has booted stays
as it is. -/
def execPowerOnReset (s : State) : Host.Outcome State Fault Refusal :=
  .next (match bootStage s with
    | 0 => beginVerify s
    | 1 => verifyNext s
    | 2 => becomeReady s
    | _ => s)

/-! ### Flash (R395, Table 17.1) -/

/-- The size of a region that the flash page writes. -/
def regionSize : FlashRegion → Nat
  | .slotA | .slotB => 2 ^ 24
  | .records => 2 ^ 20

/-- The flash with bytes of a region written. -/
def writeFlash (f : Flash) (r : FlashRegion) (offset : Nat) (bs : List Byte) : Flash :=
  match r with
  | .slotA => { f with slotA := tsetMany 0 f.slotA offset bs }
  | .slotB => { f with slotB := tsetMany 0 f.slotB offset bs }
  | .records => { f with records := tsetMany 0 f.records offset bs }

/-- FLASH_PAGE_WRITE (R395, R397): in recovery too; bytes that would lie beyond the region change nothing. The page is served by
Sarmer (Table 17.3): before stage 2 it takes no write: DEDUCED, log 123. -/
def execFlashPageWrite (region : FlashRegion) (offset : Nat) (bytes : List (BitVec 8)) (s : State) :
    Host.Outcome State Fault Refusal :=
  if bootStage s < 2 ∨ regionSize region < offset + bytes.length then .next s
  else .next { s with mgmt := { s.mgmt with flash := writeFlash s.mgmt.flash region offset bytes } }

/-! ### Clock and temperature (R404, R405) -/

/-- The highest die temperature. -/
def hottest (p : Physical) : Int := max p.tempA p.tempB

/-- CLOCK_STEP (R404): the readings are taken, and the clock moves one step down while a limit is not kept, else one up. -/
def execClockStep (s : State) : Host.Outcome State Fault Refusal :=
  let m := s.mgmt
  let power := decide (m.pwrlim.toNat ≤ s.phys.power)
  let heat := decide ((m.tempwarn.toNat : Int) ≤ hottest s.phys)
  let clk := m.clknow.toNat
  .next { s with mgmt :=
    { m with
      pwrnow := BitVec.ofNat 32 s.phys.power, vin := BitVec.ofNat 32 s.phys.vin
      tempmax := (BitVec.ofInt 8 (hottest s.phys)).setWidth 32
      clknow := BitVec.ofNat 32 (if power ∨ heat then max 1000 (clk - 250) else min 4000 (clk + 250))
      throttle := (m.throttle &&& 0xC0000000) ||| (if power then 0x80000001 else 0) ||| (if heat then 0x40000002 else 0) } }

/-- THERMTRIP (R405): THERMTRIP_N is driven low, and stays low until reset. -/
def execThermtrip (die : BitVec 1) (s : State) : Host.Outcome State Fault Refusal :=
  if 105 ≤ (if die = 0 then s.phys.tempA else s.phys.tempB) then .next { s with mgmt := { s.mgmt with thermtrip := true } }
  else .next s

/-! ### Cycle counters (R36) -/

/-- The counters of `n` cores from a number on, raised by one. -/
def raiseCycles : Nat → Nat → Table Core → Table Core
  | 0, _, t => t
  | n + 1, c, t =>
    let put (k : Core) (rest : Table Core) : Table Core := if k = {} then rest else (c, k) :: rest
    match t with
    | [] => put { cyc := 1 } (raiseCycles n (c + 1) [])
    | (d, k) :: rest =>
      if d = c then put { k with cyc := k.cyc + 1 } (raiseCycles n (c + 1) rest)
      else put { cyc := 1 } (raiseCycles n (c + 1) ((d, k) :: rest))

/-- ARITHMETIC_CLOCK_CYCLE (R36): every core that has left reset, which it has at stage 3 (R397). -/
def execArithmeticClockCycle (s : State) : Host.Outcome State Fault Refusal :=
  if ready s then .next { s with cores := raiseCycles 320 0 s.cores } else .next s

/-! ### Attestation (R401 to R403) -/

/-- The SPDM state of a transport. -/
def spdmOf (m : Mgmt) : Transport → SpdmState
  | .doe => m.doe
  | .mctp => m.mctp

/-- The management state with a transport's SPDM state changed (R403: the other's is not). -/
def setSpdm (m : Mgmt) (t : Transport) (x : SpdmState) : Mgmt :=
  match t with
  | .doe => { m with doe := x }
  | .mctp => { m with mctp := x }

/-- A signature with a key of the ROM (R401): ECDSA P-256, r before s, with the nonce the device draws. -/
def signWith (key digest : BitVec 256) (n : Nat) : BitVec 512 := Crypto.sign key digest (Config.signNonce key digest n)

/-- The answer to a request: the request and the response join the transcript; a signed response covers it and empties it. -/
def answerSpdm (s : State) (t : Transport) (x : SpdmState) (request : List Byte) (code : Byte) (content : List (List Byte))
    (signed : Bool) : State :=
  let all := x.transcript ++ request ++ code :: content.flatten
  match signed, s.mgmt.aliasKey with
  | true, some k =>
    let (n, s) := draw s
    send { s with mgmt := setSpdm s.mgmt t { x with transcript := [] } }
      (.spdm t code content (some (signWith k (Crypto.sha256 all) n)))
  | _, _ => send { s with mgmt := setSpdm s.mgmt t { x with transcript := all } } (.spdm t code content none)

/-- An error response. -/
def spdmError (s : State) (t : Transport) (error : Byte) (detail : Byte) : State :=
  send s (.spdm t 0x7F [[error], [detail]] none)

/-- A request answered where the device is ready and its transport has come far enough; else an error, UnexpectedRequest. -/
def spdmRequest (s : State) (t : Transport) (far : SpdmState → Bool) (f : SpdmState → State) : Host.Outcome State Fault Refusal :=
  if ready s = false then .next s
  else if far (spdmOf s.mgmt t) then .next (f (spdmOf s.mgmt t))
  else .next (spdmError s t 0x04 0)

/-- GET_VERSION (R401): version 1.3; it begins the transport's state anew. -/
def execGetVersion (t : Transport) (s : State) : Host.Outcome State Fault Refusal :=
  spdmRequest s t (fun _ => true) (fun _ => answerSpdm s t { version := true } [0x84] 0x04 [[0x13]] false)

/-- GET_CAPABILITIES (R401): certificates, challenge and signed measurements; no sessions. -/
def execGetCapabilities (t : Transport) (s : State) : Host.Outcome State Fault Refusal :=
  spdmRequest s t SpdmState.version (fun x => answerSpdm s t { x with caps := true } [0xE1] 0x61 [[0x16, 0, 0, 0]] false)

/-- NEGOTIATE_ALGORITHMS (R401): only ECDSA P-256 and SHA-256. -/
def execNegotiateAlgorithms (t : Transport) (ecdsaP256 sha256 : Bool) (s : State) : Host.Outcome State Fault Refusal :=
  spdmRequest s t SpdmState.caps (fun x =>
    if ecdsaP256 = true ∧ sha256 = true then answerSpdm s t { x with algorithms := true } [0xE3] 0x63 [[0x10], [0x01]] false
    else spdmError s t 0x01 0)

/-- The certificate chain of slot 0 (R400): the identity certificate and the alias certificate of this boot, which
holds the alias key's public half and is signed with the identity key. -/
def certificateChain (m : Mgmt) : List Byte :=
  Config.identityCertificate m.flash.identity ++
    (match m.identityKey, m.aliasKey with
     | some i, some a =>
       let body := Config.certificateBody (Crypto.publicBytes a)
       Config.certificateOf body (signWith i (Crypto.sha256 body) 0)
     | _, _ => [])

/-- The digest of the certificate chain. -/
def chainDigest (m : Mgmt) : List Byte := Crypto.bigBytes 32 (Crypto.sha256 (certificateChain m)).toNat

/-- GET_DIGESTS (R401): slot 0 only. -/
def execGetDigests (t : Transport) (s : State) : Host.Outcome State Fault Refusal :=
  spdmRequest s t SpdmState.algorithms (fun x => answerSpdm s t x [0x81] 0x01 [[0x01], chainDigest s.mgmt] false)

/-- GET_CERTIFICATE (R401): a part of the chain of slot 0. -/
def execGetCertificate (t : Transport) (slot : BitVec 8) (offset len : Nat) (s : State) : Host.Outcome State Fault Refusal :=
  spdmRequest s t SpdmState.algorithms (fun x =>
    if slot ≠ 0 then spdmError s t 0x01 0
    else
      answerSpdm s t x (0x82 :: slot :: natBytes 2 offset ++ natBytes 2 len) 0x02
        [((certificateChain s.mgmt).drop offset).take len] false)

/-- CHALLENGE (R401, R403): signed with the alias key over the transport's transcript. -/
def execChallenge (t : Transport) (slot : BitVec 8) (nonce : BitVec 256) (s : State) : Host.Outcome State Fault Refusal :=
  spdmRequest s t SpdmState.algorithms (fun x =>
    if slot ≠ 0 then spdmError s t 0x01 0
    else
      let (n, s) := draw s
      answerSpdm s t x (0x83 :: slot :: natBytes 32 nonce.toNat) 0x03 [chainDigest s.mgmt, natBytes 32 n] true)

/-- The measurement blocks that an index asks for: 0 their count, 255 all, else one. -/
def measurementBlocks (m : Mgmt) (index : Nat) : Option (List (List Byte)) :=
  if index = 0 then some [[BitVec.ofNat 8 m.measurements.length]]
  else if index = 255 then some m.measurements
  else (m.measurements[index - 1]?).map (fun x => [x])

/-- GET_MEASUREMENTS (R401, R402): the boot's measurements, signed with the alias key. -/
def execGetMeasurements (t : Transport) (index : BitVec 8) (nonce : BitVec 256) (s : State) :
    Host.Outcome State Fault Refusal :=
  spdmRequest s t SpdmState.algorithms (fun x =>
    match measurementBlocks s.mgmt index.toNat with
    | none => spdmError s t 0x01 0
    | some ms =>
      let (n, s) := draw s
      answerSpdm s t x (0xE0 :: index :: natBytes 32 nonce.toNat) 0x60 (ms ++ [natBytes 32 n]) true)

/-- UNSUPPORTEDREQUEST (R401). -/
def execUnsupportedrequest (t : Transport) (code : BitVec 8) (s : State) : Host.Outcome State Fault Refusal :=
  if ready s then .next (spdmError s t 0x07 code) else .next s

end Sys2Proof.Machine
end

