-- ==== Sys2Proof/Machine/Predicate.lean ====
section
/-! DEFINITION. Comparisons and predicates (spec/04 4.6: R106 to R109). -/

namespace Sys2Proof.Machine

/-- CMP (R106): two v registers, or two pairs when w is 1, compared and combined into pd. -/
def execCmp (gd : BitVec 4) (pd : BitVec 3) (w : BitVec 1) (comb : BitVec 2) (a b : BitVec 6) (cond : BitVec 4)
    (s : State) : Host.Outcome State Fault Refusal :=
  predWord (.cmp gd pd w comb a b cond) s pd.toNat (fun _ _ x =>
    combine comb.toNat
      (if w = 1 then intCond cond.toNat (pairV x a.toNat) (pairV x b.toNat)
       else intCond cond.toNat (opV x a) (opV x b))
      (pReg x pd.toNat).val)

/-- CMP immediate (R107): against imm10 sign-extended; it always sets. -/
def execCmpImm (gd : BitVec 4) (pd cond : BitVec 3) (a : BitVec 6) (imm : BitVec 10) (s : State) :
    Host.Outcome State Fault Refusal :=
  predWord (.cmpImm gd pd cond a imm) s pd.toNat (fun _ _ x =>
    intCond (immCond cond.toNat) (opV x a) (imm.signExtend 32))

/-- PLOP (R108): a logical operation on two predicates, each inverted or not. -/
def execPlop (gd : BitVec 4) (pd pa pb : BitVec 3) (na nb : BitVec 1) (op : BitVec 2) (s : State) :
    Host.Outcome State Fault Refusal :=
  predWord (.plop gd pd pa pb na nb op) s pd.toNat (fun _ _ x =>
    let u := (pReg x pa.toNat).val != (na == 1)
    let v := (pReg x pb.toNat).val != (nb == 1)
    if op = 0 then u && v else if op = 1 then u || v else u != v)

/-- PMOVV (R109): the eight predicates as bits 7 to 0. -/
def execPmovv (gd : BitVec 4) (d : BitVec 6) (s : State) : Host.Outcome State Fault Refusal :=
  vWord (.pmovv gd d) s d.toNat (fun _ _ x => maskWhere (fun i => decide (i < 8) && (pReg x i).val))

/-- VPMOV (R109): the masked predicates from the bits of a. -/
def execVpmov (gd : BitVec 4) (mask : BitVec 7) (a : BitVec 6) (s : State) : Host.Outcome State Fault Refusal :=
  laneWord (.vpmov gd mask a) s (fun _ g l =>
    let x := threadOf g l
    let r := vReg x a.toNat
    .ok (((List.range 7).filter (fun i => mask.getLsbD i)).foldl (fun x i => writeP x i (r.val.getLsbD i) r.poison) x))

end Sys2Proof.Machine
end

