-- ==== Sys2Proof/Machine/Registers.lean ====
section
/-! DEFINITION. The registers of BAR0 (R357, Table 15.2): where each lies, what a write of it does and what a read of it
gives (R304 to R306, R322, R339, R362, R363, R371, R375, R386, R406). -/

namespace Sys2Proof.Machine

/-! ### The map (Table 15.2, Table 17.3) -/

/-- A page of BAR0, with the offset of a register in it. -/
inductive Page where
  | queue (q r : Nat)
  | context (c r : Nat)
  | distributor (d r : Nat)
  | notification (r : Nat)
  | link (r : Nat)
  | forwarder (d r : Nat)
  | boot (r : Nat)
  | power (r : Nat)
  | stack (k r : Nat)
  | cluster (c r : Nat)
  | nothing
  deriving DecidableEq, Repr

/-- The page that an offset of BAR0 lies in. -/
def pageAt (o : Nat) : Page :=
  if o < 0x1000000 then .queue (o / 4096) (o % 4096)
  else if o < 0x1040000 then .context ((o - 0x1000000) / 4096) (o % 4096)
  else if o < 0x1042000 then .distributor ((o - 0x1040000) / 4096) (o % 4096)
  else if o < 0x1043000 then .notification (o % 4096)
  else if o < 0x1044000 then .link (o % 4096)
  else if o < 0x1045000 then .forwarder ((o - 0x1044000) / 2048) (o % 2048)
  else if o < 0x1100000 then .nothing
  else if o < 0x1101000 then .boot (o % 4096)
  else if o < 0x1102000 then .power (o % 4096)
  else if 0x1140000 ≤ o ∧ o < 0x1146000 then .stack ((o - 0x1140000) / 4096) (o % 4096)
  else if 0x1150000 ≤ o ∧ o < 0x1152800 then .cluster ((o - 0x1150000) / 256) (o % 256)
  else .nothing

/-- Whether a page lies in the management region, which the boot does not close (R397, R398). -/
def Page.managed : Page → Bool
  | .boot _ | .power _ | .stack _ _ | .cluster _ _ => true
  | _ => false

/-! ### Writes -/

/-- A write of a register of a queue page (Table 12.1). -/
def writeQueue (s : State) (q r : Nat) (v : Dword) : State :=
  match r with
  | 0x000 => modQueue s q (fun x => if x.enabled then x else { x with base := v })
  | 0x008 => writeQtail s q (lo32 v)
  | 0x010 => modQueue s q (fun x => if x.enabled then x else { x with cpl := v })
  | 0x018 => writeQctl s q (lo32 v)
  | 0x01C => if v.getLsbD 30 then clearStopped s q else s
  | _ => s

/-- A write of a register of a context page (Table 13.2). -/
def writeContext (s : State) (c r : Nat) (v : Dword) : State :=
  match r with
  | 0x000 => modContext s c (fun x => if x.enable then x else { x with root := v })
  | 0x008 => modContext s c (fun x => if x.enable then x else { x with save := v })
  | 0x010 => modContext s c (fun x => { x with ssz := lo32 v })
  | 0x014 => writeCtxctl s c (lo32 v)
  | _ => s

/-- A write of a register of a distributor page (R322). -/
def writeDistributor (s : State) (d r : Nat) (v : Dword) : State :=
  match r with
  | 0x000 => modDie s d (fun x => { x with dqcpl := v })
  | 0x010 => if v = 0 then clearDqerr s d else s
  | _ => s

/-- NQCTL as it is held (Table 15.3). -/
def nqctlValue (v : Word) : Word := (v &&& 0x801F0000) ||| BitVec.ofNat 32 (min 9 (bitsOf v.toNat 3 0))

/-- A write of a register of the notification page (Table 15.3). -/
def writeNotification (s : State) (r : Nat) (v : Dword) : State :=
  let h := s.hostIf
  match r with
  | 0x000 => if h.nqctl.getLsbD 31 then s else { s with hostIf := { h with nqbase := v } }
  | 0x008 => { s with hostIf := { h with nqctl := nqctlValue (lo32 v) } }
  | 0x00C => { s with hostIf := { h with nqhead := lo32 v } }
  | 0x014 => if lo32 v = 0 then { s with hostIf := { h with nqlost := 0 } } else s
  | _ => s

/-- A write of a register of the link page (Table 15.6). -/
def writeLink (s : State) (r : Nat) (v : Dword) : State :=
  match r with
  | 0x008 => { s with link := { s.link with pexbase := v } }
  | 0x010 => { s with link := { s.link with pexcnt := BitVec.ofNat 32 (min 65536 (lo32 v).toNat) } }
  | 0x014 => { s with link := { s.link with pkey := lo32 v &&& 0xFFFF } }
  | _ => s

/-- A number kept between two limits. -/
abbrev clampTo (lo hi x : Nat) : Nat := max lo (min hi x)

/-- A write of a register of the power page (Table 17.5). -/
def writePower (s : State) (r : Nat) (v : Word) : State :=
  match r with
  | 0x000 => { s with mgmt := { s.mgmt with pwrlim := BitVec.ofNat 32 (clampTo 1200 2600 (bitsOf v.toNat 11 0)) } }
  | 0x010 => { s with mgmt := { s.mgmt with throttle := s.mgmt.throttle &&& ~~~(v &&& 0xC0000000) } }
  | 0x018 => { s with mgmt := { s.mgmt with tempwarn := BitVec.ofNat 32 (clampTo 60 100 (bitsOf v.toNat 7 0)) } }
  | _ => s

/-- A write of HLOGCTL (Table 16.2). -/
def writeHlogctl (s : State) (k : Nat) (v : Word) : State :=
  let s := modStack s k (fun x => { x with notify := v.getLsbD 8 })
  let s := if v.getLsbD 0 then clearArrayLog s k else s
  if v.getLsbD 1 then clearTransferLog s k else s

/-- A write of HREL (Table 16.2). -/
def writeHrel (s : State) (k : Nat) (v : Word) : State :=
  match bitsOf v.toNat 9 8 with
  | 1 => releaseChannel s k (bitsOf v.toNat 7 0)
  | 2 => failChannel s k (bitsOf v.toNat 7 0)
  | _ => s

/-- A write of a register of a stack page (Table 16.2). -/
def writeStack (s : State) (k r : Nat) (v : Word) : State :=
  if 0x400 ≤ r ∧ r < 0x680 ∧ r % 4 = 0 then writeSwap s k ((r - 0x400) / 4) v
  else
    match r with
    | 0x000 => if v = 0 then modStack s k (fun x => { x with hacorr := 0 }) else s
    | 0x004 => if v = 0 then modStack s k (fun x => { x with haunc := 0 }) else s
    | 0x008 => if v = 0 then modStack s k (fun x => { x with htrec := 0 }) else s
    | 0x00C => if v = 0 then modStack s k (fun x => { x with htheld := 0 }) else s
    | 0x010 => writeHlogctl s k v
    | 0x040 => writeHrel s k v
    | _ => s

/-- A write of SELOGCTL (Table 16.1). -/
def writeSelogctl (s : State) (c : Nat) (v : Word) : State :=
  let s := modCluster s c (fun x => { x with notify := v.getLsbD 8 })
  if v.getLsbD 0 then clearSelog s c else s

/-- A write of a register of a cluster page (Table 16.1). -/
def writeCluster (s : State) (c r : Nat) (v : Dword) : State :=
  match r with
  | 0x04 => requestModes s c (lo32 v)
  | 0x10 => writeHealth s c v
  | 0x18 => writeSelogctl s c (lo32 v)
  | 0x20 => if lo32 v = 0 then modCluster s c (fun x => { x with secorr := 0 }) else s
  | 0x24 => if lo32 v = 0 then modCluster s c (fun x => { x with serec := 0 }) else s
  | 0x28 => if lo32 v = 0 then modCluster s c (fun x => { x with seunc := 0 }) else s
  | _ => s

/-- A write of a register of BAR0: before stage 3 only the management region takes it (R398). -/
def writeRegister (s : State) (o : Nat) (v : Dword) : State :=
  let p := pageAt o
  if ready s = false ∧ p.managed = false then s
  else
    match p with
    | .queue q r => writeQueue s q r v
    | .context c r => writeContext s c r v
    | .distributor d r => writeDistributor s d r v
    | .notification r => writeNotification s r v
    | .link r => writeLink s r v
    | .forwarder d r => if r = 0x008 ∧ v = 0 then clearFwderr s d else s
    | .boot r => if r = 0x010 then writeResetreq s (lo32 v) else s
    | .power r => writePower s r (lo32 v)
    | .stack k r => writeStack s k r (lo32 v)
    | .cluster c r => writeCluster s c r v
    | .nothing => s

/-- REGISTER_WRITE (R6). -/
def execRegisterWrite (offset : BitVec 25) (value : BitVec 64) (s : State) : Host.Outcome State Fault Refusal :=
  .next (writeRegister s offset.toNat value)

/-! ### Reads -/

/-- Whether a launch of a queue that has not entered the landing waits on a dependence (Table 12.2). -/
def waitsOnDependence (s : State) (q : Nat) : Bool :=
  match (launchList s).find? (fun e => e.2.phase == .taken && (match e.2.origin with | .queue n _ => n == q | _ => false)) with
  | some (_, l) => let r := recordFields l.record; !(depHolds s r.dep0 && depHolds s r.dep1)
  | none => false

/-- Whether a launch of a queue has chains in the landing that no placement fits. -/
def waitsOnRoom (s : State) (q : Nat) : Bool :=
  (launchList s).any (fun e =>
    visitKey s e.2 == q + 2 && hasUnplaced s e.1 e.2 &&
      (match nextChainOf s e.1 e.2 with
       | some n => (findSpot s e.1 e.2 (chainNeeds s e.1 e.2 n)).isNone
       | none => false))

/-- QSTAT (Table 12.2). -/
def readQstat (s : State) (q : Nat) : Dword :=
  let x := getQueue s q
  let idle := x.head == x.tail && (launchList s).all (fun e =>
    e.2.phase == .complete || (match e.2.origin with | .queue n _ => n != q | _ => true))
  BitVec.ofNat 64 (idle.toNat * 2 ^ 31 + x.stopped.toNat * 2 ^ 30 + (waitsOnDependence s q).toNat * 2 ^ 29 +
    (waitsOnRoom s q).toNat * 2 ^ 28 + x.reason.toNat * 2 ^ 8)

/-- A register of a queue page. -/
def readQueue (s : State) (q r : Nat) : Dword :=
  let x := getQueue s q
  match r with
  | 0x000 => x.base
  | 0x008 => x.tail.setWidth 64
  | 0x00C => x.head.setWidth 64
  | 0x010 => x.cpl
  | 0x018 => x.ctl.setWidth 64
  | 0x01C => readQstat s q
  | 0x020 => x.cseq.setWidth 64
  | _ => 0

/-- A register of a context page. -/
def readContext (s : State) (c r : Nat) : Dword :=
  let x := getContext s c
  match r with
  | 0x000 => x.root
  | 0x008 => x.save
  | 0x010 => x.ssz.setWidth 64
  | 0x014 => BitVec.ofNat 64 (x.enable.toNat * 2 ^ 31 + x.privileged.toNat * 2 ^ 30)
  | 0x018 => BitVec.ofNat 64 (x.enable.toNat * 2 ^ 31 + x.frozen.toNat * 2 ^ 30 + x.tearing.toNat * 2 ^ 29 +
      x.reason.toNat * 2 ^ 8 + x.later.toNat)
  | 0x020 => x.frz0
  | 0x028 => x.frz1
  | 0x030 => x.frz2
  | 0x038 => x.frz3
  | _ => 0

/-- A register of a distributor page. -/
def readDistributor (s : State) (d r : Nat) : Dword :=
  let x := getDie s d
  match r with
  | 0x000 => x.dqcpl
  | 0x008 => x.dqseq.setWidth 64
  | 0x010 => x.dqerr
  | _ => 0

/-- A register of the notification page. -/
def readNotification (h : HostIf) (r : Nat) : Dword :=
  match r with
  | 0x000 => h.nqbase
  | 0x008 => h.nqctl.setWidth 64
  | 0x00C => h.nqhead.setWidth 64
  | 0x010 => h.nqtail.setWidth 64
  | 0x014 => h.nqlost.setWidth 64
  | _ => 0

/-- A register of the link page. -/
def readLink (k : Link) (r : Nat) : Dword :=
  match r with
  | 0x000 => k.uadev.setWidth 64
  | 0x004 => k.ports.setWidth 64
  | 0x008 => k.pexbase
  | 0x010 => k.pexcnt.setWidth 64
  | 0x014 => k.pkey.setWidth 64
  | _ => 0

/-- A register of a die's forwarder. -/
def readForwarder (x : Die) (r : Nat) : Dword :=
  match r with
  | 0x000 => BitVec.ofNat 64 x.rows.length
  | 0x008 => x.fwderr
  | _ => 0

/-- A register of the boot or the power page. -/
def readBoot (m : Mgmt) (r : Nat) : Dword :=
  match r with
  | 0x000 => m.bootstat.setWidth 64
  | 0x004 => m.fwver.setWidth 64
  | 0x008 => m.fwsvn.setWidth 64
  | _ => 0

/-- A register of the power page. -/
def readPower (m : Mgmt) (r : Nat) : Dword :=
  match r with
  | 0x000 => m.pwrlim.setWidth 64
  | 0x004 => m.pwrnow.setWidth 64
  | 0x008 => m.vin.setWidth 64
  | 0x00C => m.clknow.setWidth 64
  | 0x010 => m.throttle.setWidth 64
  | 0x014 => m.tempmax.setWidth 64
  | 0x018 => m.tempwarn.setWidth 64
  | _ => 0

/-- A 64-bit word of a log of 16-byte entries. -/
def readLog (log : List LogEntry) (r : Nat) : Dword :=
  match log[r / 16]? with
  | some e => if r % 16 = 0 then e.1 else if r % 16 = 8 then e.2 else 0
  | none => 0

/-- HHOLDk (Table 16.2). -/
def readHold (x : Stack) (k : Nat) : Dword :=
  BitVec.ofNat 64 ((List.range 32).foldl (fun n i => n + (tget false x.holds (32 * k + i)).toNat * 2 ^ i) 0)

/-- A register of a stack page. -/
def readStack (x : Stack) (r : Nat) : Dword :=
  if 0x400 ≤ r ∧ r < 0x680 ∧ r % 4 = 0 then (tget 0 x.hswap ((r - 0x400) / 4)).setWidth 64
  else if 0x100 ≤ r ∧ r < 0x200 then readLog x.halog (r - 0x100)
  else if 0x200 ≤ r ∧ r < 0x300 then readLog x.htlog (r - 0x200)
  else if 0x020 ≤ r ∧ r < 0x034 ∧ r % 4 = 0 then readHold x ((r - 0x020) / 4)
  else
    match r with
    | 0x000 => x.hacorr.setWidth 64
    | 0x004 => x.haunc.setWidth 64
    | 0x008 => x.htrec.setWidth 64
    | 0x00C => x.htheld.setWidth 64
    | 0x010 => BitVec.ofNat 64 (x.arrayOverflow.toNat * 2 ^ 31 + x.transferOverflow.toNat * 2 ^ 30 +
        x.htlog.length * 2 ^ 24 + x.halog.length * 2 ^ 16 + x.notify.toNat * 2 ^ 8)
    | 0x014 => x.hseq.setWidth 64
    | _ => 0

/-- A register of a cluster page. -/
def readCluster (x : Cluster) (r : Nat) : Dword :=
  if 0x80 ≤ r then readLog x.selog (r - 0x80)
  else
    match r with
    | 0x00 => x.cbmode.setWidth 64
    | 0x04 => x.cbreq.setWidth 64
    | 0x08 => BitVec.ofNat 64 (x.change.isSome.toNat * 2 ^ 31 + x.left.toNat * 2 ^ 30 + x.refused.toNat * 2 ^ 29)
    | 0x10 => x.cbhealth
    | 0x18 => BitVec.ofNat 64 (x.overflow.toNat * 2 ^ 31 + x.selog.length * 2 ^ 16 + x.notify.toNat * 2 ^ 8)
    | 0x20 => x.secorr.setWidth 64
    | 0x24 => x.serec.setWidth 64
    | 0x28 => x.seunc.setWidth 64
    | _ => 0

/-- What a read of a register of BAR0 gives: before stage 3 only the management region has values (R398). -/
def readRegister (s : State) (o : Nat) : Dword :=
  let p := pageAt o
  if ready s = false ∧ p.managed = false then 0
  else
    match p with
    | .queue q r => readQueue s q r
    | .context c r => readContext s c r
    | .distributor d r => readDistributor s d r
    | .notification r => readNotification s.hostIf r
    | .link r => readLink s.link r
    | .forwarder d r => readForwarder (getDie s d) r
    | .boot r => readBoot s.mgmt r
    | .power r => readPower s.mgmt r
    | .stack k r => readStack (getStack s k) r
    | .cluster c r => readCluster (getCluster s c) r
    | .nothing => 0

end Sys2Proof.Machine
end

