-- ==== Sys2Proof/Machine/Uniform.lean ====
section
/-! DEFINITION. Uniform registers (spec/04 4.7: R110 to R112). -/

namespace Sys2Proof.Machine

/-- KMOV from a k register (R111), once for the word (R110). -/
def execKmov (gd : BitVec 4) (d a : BitVec 6) (s : State) : Host.Outcome State Fault Refusal :=
  gangWord (.kmov gd d a) s (fun g _ => writeK g d.toNat (kReg g a.toNat).val (kReg g a.toNat).poison)

/-- KMOV of an immediate (R111). -/
def execKmovImm (gd : BitVec 4) (d : BitVec 6) (imm : BitVec 11) (s : State) : Host.Outcome State Fault Refusal :=
  gangWord (.kmovImm gd d imm) s (fun g _ => writeK g d.toNat (imm.signExtend 32) false)

/-- The source lane of KLANE (R112). -/
def klaneLane (b : Word) (act : BitVec 32) : Nat := if b.getLsbD 31 then lowest act else (b.extractLsb' 0 5).toNat

/-- KLANE (R112): a long-latency producer of the value that one active lane holds, 0 for a lane that is not active. -/
def execKlane (gd : BitVec 4) (d a b : BitVec 6) (s : State) : Host.Outcome State Fault Refusal :=
  runWord (.klane gd d a b) s (fun t iss act =>
    let g := t.g s
    let l := klaneLane (kReg g b.toNat).val act
    let r : Reg := if act.getLsbD l then vReg (threadOf g l) a.toNat else {}
    { st := startProducer s t (lanesOf act) (ks d.toNat 1)
        [{ lane := l, isK := true, reg := d.toNat, val := r.val, poison := r.poison || (kReg g b.toNat).poison }]
      moves := t.onward 1 iss })

end Sys2Proof.Machine
end

