-- ==== Sys2Proof/Machine/Dispatch.lean ====
section
/-! DEFINITION. The dispatch of exec: one arm per constructor of Instr, each ONE direct call of that constructor's meaning. -/

namespace Sys2Proof.Machine

/-- What an instruction word, or a step of the device, does to the machine. -/
def exec (i : Instr) (s : State) : Host.Outcome State Fault Refusal :=
  match i with
  | .add g d a b => Sys2Proof.Machine.execAdd g d a b s
  | .sub g d a b => Sys2Proof.Machine.execSub g d a b s
  | .mul g d a b => Sys2Proof.Machine.execMul g d a b s
  | .mulh g d a b => Sys2Proof.Machine.execMulh g d a b s
  | .mad g d a b => Sys2Proof.Machine.execMad g d a b s
  | .min g d a b => Sys2Proof.Machine.execMin g d a b s
  | .max g d a b => Sys2Proof.Machine.execMax g d a b s
  | .abs g d b => Sys2Proof.Machine.execAbs g d b s
  | .neg g d b => Sys2Proof.Machine.execNeg g d b s
  | .div g d a b => Sys2Proof.Machine.execDiv g d a b s
  | .rem g d a b => Sys2Proof.Machine.execRem g d a b s
  | .lea g d a b => Sys2Proof.Machine.execLea g d a b s
  | .sel g d a b => Sys2Proof.Machine.execSel g d a b s
  | .mov g d b => Sys2Proof.Machine.execMov g d b s
  | .addK g d a b => Sys2Proof.Machine.execAddK g d a b s
  | .subK g d a b => Sys2Proof.Machine.execSubK g d a b s
  | .mulK g d a b => Sys2Proof.Machine.execMulK g d a b s
  | .mulhK g d a b => Sys2Proof.Machine.execMulhK g d a b s
  | .madK g d a b => Sys2Proof.Machine.execMadK g d a b s
  | .minK g d a b => Sys2Proof.Machine.execMinK g d a b s
  | .maxK g d a b => Sys2Proof.Machine.execMaxK g d a b s
  | .absK g d b => Sys2Proof.Machine.execAbsK g d b s
  | .negK g d b => Sys2Proof.Machine.execNegK g d b s
  | .divK g d a b => Sys2Proof.Machine.execDivK g d a b s
  | .remK g d a b => Sys2Proof.Machine.execRemK g d a b s
  | .leaK g d a b => Sys2Proof.Machine.execLeaK g d a b s
  | .selK g d a b => Sys2Proof.Machine.execSelK g d a b s
  | .movK g d b => Sys2Proof.Machine.execMovK g d b s
  | .and g d a b => Sys2Proof.Machine.execAnd g d a b s
  | .or g d a b => Sys2Proof.Machine.execOr g d a b s
  | .xor g d a b => Sys2Proof.Machine.execXor g d a b s
  | .andn g d a b => Sys2Proof.Machine.execAndn g d a b s
  | .shl g d a b => Sys2Proof.Machine.execShl g d a b s
  | .shr g d a b => Sys2Proof.Machine.execShr g d a b s
  | .sra g d a b => Sys2Proof.Machine.execSra g d a b s
  | .rot g d a b => Sys2Proof.Machine.execRot g d a b s
  | .bfe g d a b => Sys2Proof.Machine.execBfe g d a b s
  | .bfi g d a b => Sys2Proof.Machine.execBfi g d a b s
  | .popc g d b => Sys2Proof.Machine.execPopc g d b s
  | .clz g d b => Sys2Proof.Machine.execClz g d b s
  | .brev g d b => Sys2Proof.Machine.execBrev g d b s
  | .andK g d a b => Sys2Proof.Machine.execAndK g d a b s
  | .orK g d a b => Sys2Proof.Machine.execOrK g d a b s
  | .xorK g d a b => Sys2Proof.Machine.execXorK g d a b s
  | .andnK g d a b => Sys2Proof.Machine.execAndnK g d a b s
  | .shlK g d a b => Sys2Proof.Machine.execShlK g d a b s
  | .shrK g d a b => Sys2Proof.Machine.execShrK g d a b s
  | .sraK g d a b => Sys2Proof.Machine.execSraK g d a b s
  | .rotK g d a b => Sys2Proof.Machine.execRotK g d a b s
  | .bfeK g d a b => Sys2Proof.Machine.execBfeK g d a b s
  | .bfiK g d a b => Sys2Proof.Machine.execBfiK g d a b s
  | .popcK g d b => Sys2Proof.Machine.execPopcK g d b s
  | .clzK g d b => Sys2Proof.Machine.execClzK g d b s
  | .brevK g d b => Sys2Proof.Machine.execBrevK g d b s
  | .add64 g d a b => Sys2Proof.Machine.execAdd64 g d a b s
  | .sub64 g d a b => Sys2Proof.Machine.execSub64 g d a b s
  | .mul64 g d a b => Sys2Proof.Machine.execMul64 g d a b s
  | .mulh64 g d a b => Sys2Proof.Machine.execMulh64 g d a b s
  | .min64 g d a b => Sys2Proof.Machine.execMin64 g d a b s
  | .max64 g d a b => Sys2Proof.Machine.execMax64 g d a b s
  | .shl64 g d a b => Sys2Proof.Machine.execShl64 g d a b s
  | .shr64 g d a b => Sys2Proof.Machine.execShr64 g d a b s
  | .sra64 g d a b => Sys2Proof.Machine.execSra64 g d a b s
  | .addImm g d a imm => Sys2Proof.Machine.execAddImm g d a imm s
  | .andImm g d a imm => Sys2Proof.Machine.execAndImm g d a imm s
  | .orImm g d a imm => Sys2Proof.Machine.execOrImm g d a imm s
  | .xorImm g d a imm => Sys2Proof.Machine.execXorImm g d a imm s
  | .shlImm g d a w amt => Sys2Proof.Machine.execShlImm g d a w amt s
  | .shrImm g d a w amt => Sys2Proof.Machine.execShrImm g d a w amt s
  | .sraImm g d a w amt => Sys2Proof.Machine.execSraImm g d a w amt s
  | .rotImm g d a w amt => Sys2Proof.Machine.execRotImm g d a w amt s
  | .movi g d imm => Sys2Proof.Machine.execMovi g d imm s
  | .movh g d imm => Sys2Proof.Machine.execMovh g d imm s
  | .cmp g pd w comb a b cond => Sys2Proof.Machine.execCmp g pd w comb a b cond s
  | .cmpImm g pd cond a imm => Sys2Proof.Machine.execCmpImm g pd cond a imm s
  | .plop g pd pa pb na nb op => Sys2Proof.Machine.execPlop g pd pa pb na nb op s
  | .pmovv g d => Sys2Proof.Machine.execPmovv g d s
  | .vpmov g mask a => Sys2Proof.Machine.execVpmov g mask a s
  | .kmov g d a => Sys2Proof.Machine.execKmov g d a s
  | .kmovImm g d imm => Sys2Proof.Machine.execKmovImm g d imm s
  | .klane g d a b => Sys2Proof.Machine.execKlane g d a b s
  | .fadd g d a b => Sys2Proof.Machine.execFadd g d a b s
  | .fsub g d a b => Sys2Proof.Machine.execFsub g d a b s
  | .fmul g d a b => Sys2Proof.Machine.execFmul g d a b s
  | .ffma g d a b => Sys2Proof.Machine.execFfma g d a b s
  | .fmin g d a b => Sys2Proof.Machine.execFmin g d a b s
  | .fmax g d a b => Sys2Proof.Machine.execFmax g d a b s
  | .fabs g d b => Sys2Proof.Machine.execFabs g d b s
  | .fneg g d b => Sys2Proof.Machine.execFneg g d b s
  | .faddK g d a b => Sys2Proof.Machine.execFaddK g d a b s
  | .fsubK g d a b => Sys2Proof.Machine.execFsubK g d a b s
  | .fmulK g d a b => Sys2Proof.Machine.execFmulK g d a b s
  | .ffmaK g d a b => Sys2Proof.Machine.execFfmaK g d a b s
  | .fminK g d a b => Sys2Proof.Machine.execFminK g d a b s
  | .fmaxK g d a b => Sys2Proof.Machine.execFmaxK g d a b s
  | .fabsK g d b => Sys2Proof.Machine.execFabsK g d b s
  | .fnegK g d b => Sys2Proof.Machine.execFnegK g d b s
  | .faddF16x2 g d a b => Sys2Proof.Machine.execFaddF16x2 g d a b s
  | .fsubF16x2 g d a b => Sys2Proof.Machine.execFsubF16x2 g d a b s
  | .fmulF16x2 g d a b => Sys2Proof.Machine.execFmulF16x2 g d a b s
  | .ffmaF16x2 g d a b => Sys2Proof.Machine.execFfmaF16x2 g d a b s
  | .fminF16x2 g d a b => Sys2Proof.Machine.execFminF16x2 g d a b s
  | .fmaxF16x2 g d a b => Sys2Proof.Machine.execFmaxF16x2 g d a b s
  | .fabsF16x2 g d b => Sys2Proof.Machine.execFabsF16x2 g d b s
  | .fnegF16x2 g d b => Sys2Proof.Machine.execFnegF16x2 g d b s
  | .faddBf16x2 g d a b => Sys2Proof.Machine.execFaddBf16x2 g d a b s
  | .fsubBf16x2 g d a b => Sys2Proof.Machine.execFsubBf16x2 g d a b s
  | .fmulBf16x2 g d a b => Sys2Proof.Machine.execFmulBf16x2 g d a b s
  | .ffmaBf16x2 g d a b => Sys2Proof.Machine.execFfmaBf16x2 g d a b s
  | .fminBf16x2 g d a b => Sys2Proof.Machine.execFminBf16x2 g d a b s
  | .fmaxBf16x2 g d a b => Sys2Proof.Machine.execFmaxBf16x2 g d a b s
  | .fabsBf16x2 g d b => Sys2Proof.Machine.execFabsBf16x2 g d b s
  | .fnegBf16x2 g d b => Sys2Proof.Machine.execFnegBf16x2 g d b s
  | .frcp g d b => Sys2Proof.Machine.execFrcp g d b s
  | .frsq g d b => Sys2Proof.Machine.execFrsq g d b s
  | .fsqrt g d b => Sys2Proof.Machine.execFsqrt g d b s
  | .fex2 g d b => Sys2Proof.Machine.execFex2 g d b s
  | .flg2 g d b => Sys2Proof.Machine.execFlg2 g d b s
  | .fsin g d b => Sys2Proof.Machine.execFsin g d b s
  | .fcos g d b => Sys2Proof.Machine.execFcos g d b s
  | .ftanh g d b => Sys2Proof.Machine.execFtanh g d b s
  | .fcls g d b => Sys2Proof.Machine.execFcls g d b s
  | .fcmp g pd comb a b cond => Sys2Proof.Machine.execFcmp g pd comb a b cond s
  | .cvt g d a src sat rz dst => Sys2Proof.Machine.execCvt g d a src sat rz dst s
  | .cvtpk g d a fmt sat rz => Sys2Proof.Machine.execCvtpk g d a fmt sat rz s
  | .cvtup g d a fmt => Sys2Proof.Machine.execCvtup g d a fmt s
  | .ld g d a size sp off => Sys2Proof.Machine.execLd g d a size sp off s
  | .st g d a size sp off => Sys2Proof.Machine.execSt g d a size sp off s
  | .ldx g d a size sp off => Sys2Proof.Machine.execLdx g d a size sp off s
  | .stx g d a size sp off => Sys2Proof.Machine.execStx g d a size sp off s
  | .ldro g d a size sp off => Sys2Proof.Machine.execLdro g d a size sp off s
  | .fence g scope kind => Sys2Proof.Machine.execFence g scope kind s
  | .wait g ctr thr => Sys2Proof.Machine.execWait g ctr thr s
  | .pf g lvl a lines => Sys2Proof.Machine.execPf g lvl a lines s
  | .cmaintDropL1 g => Sys2Proof.Machine.execCmaintDropL1 g s
  | .cmaintCleanL2 g a lines => Sys2Proof.Machine.execCmaintCleanL2 g a lines s
  | .cmaintFlushL2 g a lines => Sys2Proof.Machine.execCmaintFlushL2 g a lines s
  | .cmaintDropL2 g a lines => Sys2Proof.Machine.execCmaintDropL2 g a lines s
  | .ldp g q kq n pd => Sys2Proof.Machine.execLdp g q kq n pd s
  | .ldpr g q kq n pd => Sys2Proof.Machine.execLdpr g q kq n pd s
  | .stp g q kq => Sys2Proof.Machine.execStp g q kq s
  | .qunp g d q mid ty => Sys2Proof.Machine.execQunp g d q mid ty s
  | .qpk g q a n mode ty => Sys2Proof.Machine.execQpk g q a n mode ty s
  | .qtagGet g d q => Sys2Proof.Machine.execQtagGet g d q s
  | .qtagSet g d q => Sys2Proof.Machine.execQtagSet g d q s
  | .shfl g d a b => Sys2Proof.Machine.execShfl g d a b s
  | .shfld g d a b => Sys2Proof.Machine.execShfld g d a b s
  | .shflx g d a b => Sys2Proof.Machine.execShflx g d a b s
  | .pcons g d a b => Sys2Proof.Machine.execPcons g d a b s
  | .lmask g d a => Sys2Proof.Machine.execLmask g d a s
  | .red g d a op => Sys2Proof.Machine.execRed g d a op s
  | .scan g d a excl op => Sys2Proof.Machine.execScan g d a excl op s
  | .matchEq g d a => Sys2Proof.Machine.execMatchEq g d a s
  | .conflict g d a => Sys2Proof.Machine.execConflict g d a s
  | .hist g d a => Sys2Proof.Machine.execHist g d a s
  | .jinit g a j => Sys2Proof.Machine.execJinit g a j s
  | .jsign g d j => Sys2Proof.Machine.execJsign g d j s
  | .jwait g a j => Sys2Proof.Machine.execJwait g a j s
  | .jleave g j => Sys2Proof.Machine.execJleave g j s
  | .gsplit g d a inv => Sys2Proof.Machine.execGsplit g d a inv s
  | .gjoin g a => Sys2Proof.Machine.execGjoin g a s
  | .bru g off => Sys2Proof.Machine.execBru g off s
  | .jmp g off => Sys2Proof.Machine.execJmp g off s
  | .call g off => Sys2Proof.Machine.execCall g off s
  | .ret g d => Sys2Proof.Machine.execRet g d s
  | .jmpi g d cls => Sys2Proof.Machine.execJmpi g d cls s
  | .exit g => Sys2Proof.Machine.execExit g s
  | .brk g imm => Sys2Proof.Machine.execBrk g imm s
  | .trap g imm => Sys2Proof.Machine.execTrap g imm s
  | .yield g => Sys2Proof.Machine.execYield g s
  | .maddm g d a b slot => Sys2Proof.Machine.execMaddm g d a b slot s
  | .msubm g d a b slot => Sys2Proof.Machine.execMsubm g d a b slot s
  | .mnegm g d b slot => Sys2Proof.Machine.execMnegm g d b slot s
  | .mmulm g d a b slot => Sys2Proof.Machine.execMmulm g d a b slot s
  | .mmacm g d a b slot => Sys2Proof.Machine.execMmacm g d a b slot s
  | .mredm g d b slot => Sys2Proof.Machine.execMredm g d b slot s
  | .bflyct g d a b slot => Sys2Proof.Machine.execBflyct g d a b slot s
  | .bflygs g d a b slot => Sys2Proof.Machine.execBflygs g d a b slot s
  | .nperm g d a sh mode => Sys2Proof.Machine.execNperm g d a sh mode s
  | .nrev g d a k => Sys2Proof.Machine.execNrev g d a k s
  | .nauto g d a kg => Sys2Proof.Machine.execNauto g d a kg s
  | .modset g a b slot auto => Sys2Proof.Machine.execModset g a b slot auto s
  | .spbegin g d kr => Sys2Proof.Machine.execSpbegin g d kr s
  | .spst g d a size => Sys2Proof.Machine.execSpst g d a size s
  | .spld g d a size => Sys2Proof.Machine.execSpld g d a size s
  | .spalloc g d a => Sys2Proof.Machine.execSpalloc g d a s
  | .spstate g ks kp => Sys2Proof.Machine.execSpstate g ks kp s
  | .spcommit g kh kk => Sys2Proof.Machine.execSpcommit g kh kk s
  | .spabort g kh => Sys2Proof.Machine.execSpabort g kh s
  | .spquery g d kh => Sys2Proof.Machine.execSpquery g d kh s
  | .treemask g d a => Sys2Proof.Machine.execTreemask g d a s
  | .sysr g d num => Sys2Proof.Machine.execSysr g d num s
  | .sysw g a num => Sys2Proof.Machine.execSysw g a num s
  | .trapret g => Sys2Proof.Machine.execTrapret g s
  | .tlbinv g every ctx ka kn => Sys2Proof.Machine.execTlbinv g every ctx ka kn s
  | .cwb g ctx => Sys2Proof.Machine.execCwb g ctx s
  | .bankmode g d a => Sys2Proof.Machine.execBankmode g d a s
  | .launch g d kt kp => Sys2Proof.Machine.execLaunch g d kt kp s
  | .fqrpReplay g d => Sys2Proof.Machine.execFqrpReplay g d s
  | .fqrpSkip g d => Sys2Proof.Machine.execFqrpSkip g d s
  | .fqrpPeek g d => Sys2Proof.Machine.execFqrpPeek g d s
  | .halt g imm => Sys2Proof.Machine.execHalt g imm s
  | .mma g a fa fb sat ra rb sa sb gm z j => Sys2Proof.Machine.execMma g a fa fb sat ra rb sa sb gm z j s
  | .mmas g a fa fb sat ra rb sa sb gm z ks j => Sys2Proof.Machine.execMmas g a fa fb sat ra rb sa sb gm z ks j s
  | .mconv g a fa fb sat kr rb sb gm z ko j => Sys2Proof.Machine.execMconv g a fa fb sat kr rb sb gm z ko j s
  | .mtrn g d t acc sat j => Sys2Proof.Machine.execMtrn g d t acc sat j s
  | .mperm g d t acc mode sat kp j => Sys2Proof.Machine.execMperm g d t acc mode sat kp j s
  | .mred g d t acc mode sat j => Sys2Proof.Machine.execMred g d t acc mode sat j s
  | .accz g t j => Sys2Proof.Machine.execAccz g t j s
  | .accld g t fmt sp kx pitch j => Sys2Proof.Machine.execAccld g t fmt sp kx pitch j s
  | .accst g t fmt sat sp kx pitch j => Sys2Proof.Machine.execAccst g t fmt sat sp kx pitch j s
  | .accrd g t v n kpos => Sys2Proof.Machine.execAccrd g t v n kpos s
  | .accwr g t v n kpos => Sys2Proof.Machine.execAccwr g t v n kpos s
  | .atom g d a sp b op w scope order noret off => Sys2Proof.Machine.execAtom g d a sp b op w scope order noret off s
  | .cas g d a sp b c w scope order off => Sys2Proof.Machine.execCas g d a sp b c w scope order off s
  | .cpy g dst src dsp ssp j words => Sys2Proof.Machine.execCpy g dst src dsp ssp j words s
  | .cpyt g kr kc kt dir sp ring j => Sys2Proof.Machine.execCpyt g kr kc kt dir sp ring j s
  | .cpyp g kq kt lo hi sp ring j t => Sys2Proof.Machine.execCpyp g kq kt lo hi sp ring j t s
  | .cpyx g vi kb kd sp dir j row => Sys2Proof.Machine.execCpyx g vi kb kd sp dir j row s
  | .cpyf g vd ks kr sp j row => Sys2Proof.Machine.execCpyf g vd ks kr sp j row s
  | .ringinit g kr slots size => Sys2Proof.Machine.execRinginit g kr slots size s
  | .rawait g kr kt n => Sys2Proof.Machine.execRawait g kr kt n s
  | .rrel g kr kt => Sys2Proof.Machine.execRrel g kr kt s
  | .arbitration core => Sys2Proof.Machine.execArbitration core s
  | .producerComplete op => Sys2Proof.Machine.execProducerComplete op s
  | .storeAcknowledged op => Sys2Proof.Machine.execStoreAcknowledged op s
  | .pageWalkComplete op idx => Sys2Proof.Machine.execPageWalkComplete op idx s
  | .homeSliceAccess ref => Sys2Proof.Machine.execHomeSliceAccess ref s
  | .commandComplete core entry => Sys2Proof.Machine.execCommandComplete core entry s
  | .matrixCommandComplete core id => Sys2Proof.Machine.execMatrixCommandComplete core id s
  | .ringCommandStart core entry => Sys2Proof.Machine.execRingCommandStart core entry s
  | .asyncCopyFault core entry => Sys2Proof.Machine.execAsyncCopyFault core entry s
  | .elementParked core entry => Sys2Proof.Machine.execElementParked core entry s
  | .deferredFaultDelivery block gang lane => Sys2Proof.Machine.execDeferredFaultDelivery block gang lane s
  | .slotRelease block gang => Sys2Proof.Machine.execSlotRelease block gang s
  | .windowOpen block gang lane => Sys2Proof.Machine.execWindowOpen block gang lane s
  | .spcommitExecute core entry => Sys2Proof.Machine.execSpcommitExecute core entry s
  | .spabortExecute core entry => Sys2Proof.Machine.execSpabortExecute core entry s
  | .queueEnable q value => Sys2Proof.Machine.execQueueEnable q value s
  | .queueDisable q value => Sys2Proof.Machine.execQueueDisable q value s
  | .queuePriorityWeight q value => Sys2Proof.Machine.execQueuePriorityWeight q value s
  | .qtail q value => Sys2Proof.Machine.execQtail q value s
  | .qstatClearStopped q => Sys2Proof.Machine.execQstatClearStopped q s
  | .recordTake q => Sys2Proof.Machine.execRecordTake q s
  | .landingEntry launch => Sys2Proof.Machine.execLandingEntry launch s
  | .chainPlacement => Sys2Proof.Machine.execChainPlacement s
  | .blockSave block => Sys2Proof.Machine.execBlockSave block s
  | .launchComplete launch => Sys2Proof.Machine.execLaunchComplete launch s
  | .childTemplateRead die => Sys2Proof.Machine.execChildTemplateRead die s
  | .dqerrClear die => Sys2Proof.Machine.execDqerrClear die s
  | .kernelNodeRun launch node => Sys2Proof.Machine.execKernelNodeRun launch node s
  | .copyNode launch node => Sys2Proof.Machine.execCopyNode launch node s
  | .conditionNode launch node => Sys2Proof.Machine.execConditionNode launch node s
  | .loopNode launch node => Sys2Proof.Machine.execLoopNode launch node s
  | .contextEnable c value => Sys2Proof.Machine.execContextEnable c value s
  | .contextFreezeRequest c => Sys2Proof.Machine.execContextFreezeRequest c s
  | .contextEvict c => Sys2Proof.Machine.execContextEvict c s
  | .contextThaw c => Sys2Proof.Machine.execContextThaw c s
  | .contextTeardown c => Sys2Proof.Machine.execContextTeardown c s
  | .teardownEnd c => Sys2Proof.Machine.execTeardownEnd c s
  | .hostBar2Read pa len => Sys2Proof.Machine.execHostBar2Read pa len s
  | .hostBar2Write pa bytes => Sys2Proof.Machine.execHostBar2Write pa bytes s
  | .hostAtomicop pa op wide b c => Sys2Proof.Machine.execHostAtomicop pa op wide b c s
  | .peerRequest req => Sys2Proof.Machine.execPeerRequest req s
  | .portStateChange port up => Sys2Proof.Machine.execPortStateChange port up s
  | .peerResend op idx => Sys2Proof.Machine.execPeerResend op idx s
  | .forwarderRowSend die => Sys2Proof.Machine.execForwarderRowSend die s
  | .fwderrClear die => Sys2Proof.Machine.execFwderrClear die s
  | .cbreq cluster value => Sys2Proof.Machine.execCbreq cluster value s
  | .bankModeChange cluster => Sys2Proof.Machine.execBankModeChange cluster s
  | .cbhealth cluster value => Sys2Proof.Machine.execCbhealth cluster value s
  | .selogClear cluster => Sys2Proof.Machine.execSelogClear cluster s
  | .transferRetry stack pc => Sys2Proof.Machine.execTransferRetry stack pc s
  | .pseudoChannelHold stack pc => Sys2Proof.Machine.execPseudoChannelHold stack pc s
  | .hrelRelease stack pc => Sys2Proof.Machine.execHrelRelease stack pc s
  | .hrelFail stack pc => Sys2Proof.Machine.execHrelFail stack pc s
  | .hswap stack pc value => Sys2Proof.Machine.execHswap stack pc value s
  | .hlogClearArray stack => Sys2Proof.Machine.execHlogClearArray stack s
  | .hlogClearTransfer stack => Sys2Proof.Machine.execHlogClearTransfer stack s
  | .powerOnReset => Sys2Proof.Machine.execPowerOnReset s
  | .resetreq value => Sys2Proof.Machine.execResetreq value s
  | .flashPageWrite region offset bytes => Sys2Proof.Machine.execFlashPageWrite region offset bytes s
  | .clockStep => Sys2Proof.Machine.execClockStep s
  | .thermtrip die => Sys2Proof.Machine.execThermtrip die s
  | .getVersion t => Sys2Proof.Machine.execGetVersion t s
  | .getCapabilities t => Sys2Proof.Machine.execGetCapabilities t s
  | .negotiateAlgorithms t ecdsaP256 sha256 => Sys2Proof.Machine.execNegotiateAlgorithms t ecdsaP256 sha256 s
  | .getDigests t => Sys2Proof.Machine.execGetDigests t s
  | .getCertificate t slot offset len => Sys2Proof.Machine.execGetCertificate t slot offset len s
  | .challenge t slot nonce => Sys2Proof.Machine.execChallenge t slot nonce s
  | .getMeasurements t index nonce => Sys2Proof.Machine.execGetMeasurements t index nonce s
  | .unsupportedrequest t code => Sys2Proof.Machine.execUnsupportedrequest t code s
  | .registerWrite offset value => Sys2Proof.Machine.execRegisterWrite offset value s
  | .arithmeticClockCycle => Sys2Proof.Machine.execArithmeticClockCycle s
  | .hostInvalidation c every va len => Sys2Proof.Machine.execHostInvalidation c every va len s
  | .cxlMemAccess pa write len => Sys2Proof.Machine.execCxlMemAccess pa write len s
  | .linkTraining rate width cxl => Sys2Proof.Machine.execLinkTraining rate width cxl s
  | .powerOff => Sys2Proof.Machine.execPowerOff s

end Sys2Proof.Machine
end

