-- ==== Sys2Proof/Machine/Fetch.lean ====
section
/-! DEFINITION. One turn of a core: the word its run stands at is fetched, decoded and run, or its next clause entered
(R68, R75); and the place where a word is laid to run next. -/

namespace Sys2Proof.Machine

/-- The outcome of a word of the core in focus: the decoded instruction's meaning, or ILLEGAL where the words hold none
(R79). -/
def issueWord (s : State) (w w2 : Word) : Host.Outcome State Fault Refusal :=
  match decodeWords w w2 with
  | .ok i => exec i s
  | .error (.illegal r wide) =>
    match siteFor s w w2 wide with
    | none => .fault .noIssuingUnit
    | some t => throughGate (gateIllegalAt r s t) wide s (fun t iss _ => { st := s, moves := t.onward wide iss })
  | .error .short => .next s

/-- One issue of a core: with no run, an arbitration; at a header, the clause is entered; else the word at the unit's
resume point is fetched and run. -/
def issueCore (s : State) (core : Nat) : Host.Outcome State Fault Refusal :=
  let s := { s with focus := core }
  match (getCore s core).run with
  | none => exec (.arbitration core) s
  | some r =>
    match getBlock s r.block with
    | none => .next (endRun s core)
    | some b =>
      match unitWith (gangOf b r.gang) r.lane with
      | none => .next (endRun s core)
      | some u =>
        if rpSlot u.pc = 15 then .next (enterClause s core r.block r.gang b u)
        else
          match fetchPair s core r.block b (rpAddr u.pc) (hdrCount r.hdr ≤ rpSlot u.pc + 1) with
          | (some (w, w2), s) => issueWord s w w2
          | (none, t) => .next (fetchFault t core r.block r.gang u (rpAddr u.pc)
              (fetchWord s core r.block b.launch b.ctx (rpAddr u.pc)))

/-! ### A word laid to run next -/

/-- The launch record of the block that `placeWord` makes: one gang of 32 lanes, eight tiles, eight join registers and a
local store of 192 KiB. -/
def probeRecord : List Byte :=
  natBytes 32 0 ++ natBytes 4 (8 * 2 ^ 13 + 8 * 2 ^ 9 + 31 * 2 ^ 4) ++ natBytes 4 768 ++ natBytes 24 0

/-- A clause of one instruction laid at the start of an identity-mapped 2 MiB page of context 0, with its page tables,
its launch, and a gang of 32 threads on core 0 whose run stands at the instruction. -/
def placeWord (s : State) (w w2 : Word) : State :=
  let two := majorOf w == 0x3F
  let cls := match decodeWords w w2 with
    | .ok i => (engineClass i).getD 0
    | .error _ => 0
  let h : Word := BitVec.ofNat 32 ((if two then 2 else 1) * 2 ^ 28 + cls * 2 ^ 25)
  let table (n : Nat) : List Byte := natBytes 8 (n * 4096 + 1)
  let leaf : List Byte := natBytes 8 0x20001F
  let mem := tsetMany 0 s.mem 0x1000 (table 2)
  let mem := tsetMany 0 mem 0x2000 (table 3)
  let mem := tsetMany 0 mem 0x3000 (table 4)
  let mem := tsetMany 0 mem 0x4008 leaf
  let mem := tsetMany 0 mem 0x200000 (natBytes 4 h.toNat ++ natBytes 4 w.toNat ++ natBytes 4 w2.toNat)
  let threads : Table Thread := lanes32.map (fun l => (l, { cond := .live }))
  let g : Gang := { slot := 0, threads := threads, units := [{ lanes := BitVec.allOnes 32, pc := resumeAt 0x200004 0 }] }
  { s with
    agenda := [], focus := 0, nextId := 2, mem := mem
    mgmt := { s.mgmt with bootstat := 0x30000000 }
    contexts := tset {} s.contexts 0 { getContext s 0 with root := 0x1000, enable := true, privileged := true }
    launches := tset none s.launches 0 (some { origin := .queue 0 0, ctx := 0, root := 0, record := probeRecord,
                                               params := 0, phase := .landed, nextChain := 1 })
    blocks := tset none s.blocks 1 (some { launch := 0, ctx := 0, place := .core 0, gangs := [g] })
    cores := tset {} s.cores 0 { getCore s 0 with run := some { block := 1, gang := 0, lane := 0, hdr := h } } }

end Sys2Proof.Machine
end

