-- ==== Sys2Proof/Machine/Schedule.lean ====
section
/-! DEFINITION. The turns of the machine (R38, R276): what the agenda names, what the environment does, the order of the
host's requests (R360), and, where the agenda is empty, the first event of a fixed order that has something to do. -/

namespace Sys2Proof.Machine

/-! ### The host's requests in order (R360) -/

/-- Whether a step is a write of the host to a register of BAR0 (Table 15.2). -/
def isRegisterWrite : Instr → Bool
  | .queueEnable _ _ | .queueDisable _ _ | .queuePriorityWeight _ _ | .qtail _ _ | .qstatClearStopped _ => true
  | .contextEnable _ _ | .contextFreezeRequest _ | .contextEvict _ | .contextThaw _ | .contextTeardown _ => true
  | .dqerrClear _ | .fwderrClear _ | .registerWrite _ _ => true
  | .cbreq _ _ | .cbhealth _ _ | .selogClear _ | .hlogClearArray _ | .hlogClearTransfer _ => true
  | .hrelRelease _ _ | .hrelFail _ _ | .hswap _ _ _ | .resetreq _ | .flashPageWrite _ _ _ => true
  | _ => false

/-- Whether a request is a posted write of the host, to BAR2 or to a register of BAR0. -/
def HostReq.posted : HostReq → Bool
  | .write _ _ => true
  | .step _ => true
  | _ => false

/-- Whether a request keeps its place behind the posted writes of the host that arrived before it: all but CXL.mem accesses, which
are no PCIe requests (R356, R360). That a BAR2 read and an AtomicOp do is PRESUMED from the PCIe ordering rules: log 65. -/
def HostReq.keepsPlace : HostReq → Bool
  | .cxlRead _ _ => false
  | .cxlWrite _ _ => false
  | _ => true

/-- A host request that must stay behind posted writes that wait (R360): BAR2 accesses, and every write of a register of
BAR0. The management controller's writes do not (R406). -/
def orderedRequest (e : Instr) : Option HostReq :=
  match e with
  | .hostBar2Read pa n => some (.read pa.toNat n)
  | .hostBar2Write pa bs => some (.write pa.toNat bs)
  | .hostAtomicop pa op wide b c => some (.atomic pa.toNat (hostOp op) wide b c)
  | e => if isRegisterWrite e then some (.step e) else none

/-- A state, where it differs from another in more than the free values it has drawn. -/
def changed (s t : State) : Option State := if { t with tick := s.tick } = s then none else some t

/-- A waiting request tried again, in its place. -/
def retryHeld (s : State) (h : HostHeld) : State :=
  match h.req with
  | .step e =>
    let s := setHostWaiting s (s.hostIf.waiting.filter (fun x => x.id != h.id))
    (match exec e s with | .next t => t | _ => s)
  | r =>
    match hostAttempt s h.id r with
    | (none, t) => setHostWaiting t (t.hostIf.waiting.filter (fun x => x.id != h.id))
    | (some left, t) => setHostWaiting t (t.hostIf.waiting.map (fun x => if x.id == h.id then { x with req := left } else x))

/-- The waiting requests that may be tried: those behind no posted write that they must not pass. -/
def tryableFrom (posted : Bool) : List HostHeld → List HostHeld
  | [] => []
  | h :: hs =>
    let rest := tryableFrom (posted || h.req.posted) hs
    if posted && h.req.keepsPlace then rest else h :: rest

/-- The first of the host's waiting requests that has something to do, tried again. -/
def retryHost (s : State) : State :=
  ((tryableFrom false s.hostIf.waiting).findSome? (fun h => changed s (retryHeld s h))).getD s

/-- The first of the peers' waiting requests that has something to do, tried again; they keep no order among them (R366). -/
def retryPeer (s : State) : State :=
  (s.link.waiting.findSome? (fun r => changed s (retryHeldPeer s r))).getD s

/-! ### The environment -/

/-- What an input does. -/
def takeInput (s : State) : Input → State
  | .hostStore addr bs => { s with hostMem := tsetMany 0 s.hostMem addr bs }
  | .hostCaches line =>
    if s.link.cxl then { s with hostIf := { s.hostIf with lines := line :: s.hostIf.lines.erase line } } else s
  | .cellError sector err => { s with phys := { s.phys with cells := tset none s.phys.cells sector err } }
  | .transferError sector n => { s with phys := { s.phys with xfers := tset 0 s.phys.xfers sector n } }
  | .laneError k pc lanes => { s with phys := { s.phys with lanes := tset [] s.phys.lanes (160 * k + pc) lanes } }
  | .sramError cl bank off kind => { s with phys := { s.phys with sram := tset 0 s.phys.sram (sramKey cl bank off) kind } }
  | .hostError sectors => { s with phys := { s.phys with host := sectors } }
  | .management o v => if (pageAt o).managed then writeRegister s o v else s
  | .flashError a b => { s with phys := { s.phys with flashA := a, flashB := b } }
  | .sensors power vin a b => { s with phys := { s.phys with power := power, vin := vin, tempA := a, tempB := b } }
  | .peer d p => setPeer s d p
  | .registerRead o => send s (.registerData (readRegister s o))
  | .retryHost => retryHost s
  | .retryPeer => retryPeer s

/-! ### An empty agenda -/

/-- A step of the device. -/
abbrev Event := State → Host.Outcome State Fault Refusal

/-- The events of the outstanding operations. -/
def opEvents (s : State) : List Event :=
  s.ops.flatMap (fun e =>
    match e.2 with
    | none => []
    | some o =>
      [execProducerComplete e.1, execStoreAcknowledged e.1] ++
        (List.range o.accs.length).flatMap (fun k =>
          [execPageWalkComplete e.1 k, execHomeSliceAccess (.op e.1 k), execPeerResend e.1 k]))

/-- The events of the engines of the cores. -/
def engineEvents (s : State) : List Event :=
  s.cores.flatMap (fun c =>
    c.2.skid.flatMap (fun e =>
      [execCommandComplete c.1 e.1, execHomeSliceAccess (.engine c.1 e.1), execRingCommandStart c.1 e.1,
       execAsyncCopyFault c.1 e.1, execElementParked c.1 e.1, execSpcommitExecute c.1 e.1, execSpabortExecute c.1 e.1]) ++
    c.2.mx.map (fun m => execMatrixCommandComplete c.1 m.id))

/-- The events of the forwarders. -/
def forwarderEvents (s : State) : List Event :=
  [0, 1].flatMap (fun d =>
    execForwarderRowSend (BitVec.ofNat 1 d) ::
      (List.range (getDie s d).sends.length).map (fun n => execCommandComplete (160 * d) (48 + n)))

/-- The events of the placed blocks. -/
def blockEvents (s : State) : List Event :=
  (blockList s).flatMap (fun e =>
    (List.range e.2.gangs.length).flatMap (fun g =>
      (gangOf e.2 g).units.flatMap (fun u =>
        [execDeferredFaultDelivery e.1 g (lowest u.lanes), execWindowOpen e.1 g (lowest u.lanes)] ++
          (match u.wait with | .answer _ _ _ => [execBankModeChange (blockCluster e.2)] | _ => [])) ++ [execSlotRelease e.1 g]) ++
    [execBlockSave e.1])

/-- The events of clusters, stacks and contexts. -/
def unitEvents (s : State) : List Event :=
  s.clusters.map (fun c => execBankModeChange c.1) ++
  s.hbmStacks.flatMap (fun k => k.2.xfers.flatMap (fun x => [execTransferRetry k.1 x.1, execPseudoChannelHold k.1 x.1])) ++
  s.contexts.map (fun c => execTeardownEnd (BitVec.ofNat 6 c.1))

/-- The events of the distributor. -/
def launchEvents (s : State) : List Event :=
  (launchList s).flatMap (fun e =>
    [execLaunchComplete e.1, execLandingEntry e.1] ++
      (match e.2.graph with
       | some g => (List.range g.nodes.length).flatMap (fun k =>
           [execKernelNodeRun e.1 k, execCopyNode e.1 k, execConditionNode e.1 k, execLoopNode e.1 k])
       | none => [])) ++
  [execChildTemplateRead 0, execChildTemplateRead 1] ++
  s.queues.map (fun q => execRecordTake (BitVec.ofNat 12 q.1)) ++
  [execChainPlacement, execLaunchComplete s.nextId]

/-- The state that an event leaves, where it changes anything. -/
def changedBy (s : State) (e : Event) : Option State :=
  match e s with
  | .next t => changed s t
  | _ => none

/-- The cores from the one after the focus on and round. -/
def coresInTurn (s : State) : List Nat := (List.range 320).map (fun i => (s.focus + 1 + i) % 320)

/-- The turn taken when the agenda is empty: a stage of the boot; the run of the core in focus; the first event of the device that
changes anything; a waiting request of the host or a peer; an issue of the next core that holds blocks; or a cycle of the clock.
A polling program therefore keeps no waiting request from being performed (R288). -/
def idleTurn (s : State) : Host.Outcome State Fault Refusal :=
  if bootStage s < 3 then execPowerOnReset s
  else if (getCore s s.focus).run.isSome then issueCore s s.focus
  else
    match (opEvents s ++ engineEvents s ++ forwarderEvents s ++ blockEvents s ++ unitEvents s ++ launchEvents s).findSome?
        (changedBy s) with
    | some t => .next t
    | none =>
      match (changed s (retryHost s)).or (changed s (retryPeer s)) with
      | some t => .next t
      | none =>
        match (coresInTurn s).findSome? (fun c =>
          if (blocksOn s c).isEmpty then none
          else if (getCore s c).run.isSome ∨ (firstUnits s c).isEmpty = false then some c else none) with
        | some c => issueCore s c
        | none => execArithmeticClockCycle s

/-! ### A turn of the agenda -/

/-- A turn of the agenda. -/
def takeTurn (s : State) (t : Turn) : Host.Outcome State Fault Refusal :=
  match t with
  | .device e =>
    if e.isWord then .fault .agendaHoldsWord
    else if s.hostIf.waiting.any (fun h => h.req.posted) = false then exec e s
    else
      match orderedRequest e with
      | some r => .next (waitAtSlice s (hostId s) r)
      | none => exec e s
  | .issue c => issueCore s c
  | .input e => .next (takeInput s e)

end Sys2Proof.Machine
end

