-- ==== Sys2Proof/Machine/Step.lean ====
section
/-! DEFINITION. The step of the machine, and the state in which a given word is the next to run. -/

namespace Sys2Proof.Machine

/-- One step: the first turn of the agenda, or, with an empty agenda, the turn that `idleTurn` chooses (R38, R276). -/
def step (s : State) : Host.Outcome State Fault Refusal :=
  match s.agenda with
  | t :: rest => takeTurn { s with agenda := rest } t
  | [] => idleTurn s

/-- The state in which the next step fetches and runs the instruction whose bits are `w`, bit 0 the least significant bit
of the first word, bits at or above `nbits` zero. -/
def State.withFetchWord (s : State) (nbits w : Nat) : State :=
  placeWord s (BitVec.ofNat 32 (w % 2 ^ nbits)) (BitVec.ofNat 32 (w % 2 ^ nbits / 2 ^ 32))

end Sys2Proof.Machine
end

