-- ==== Sys2Proof/Safety.lean ====
section
/-! DEFINITION. What counts as a safe state and a safe run, in the terms that claims use: the canonical form of memory; a
step that goes on; the conditions under which a word issues for some threads of its unit; and what a word leaves. -/

namespace Sys2Proof

/-- A memory is in canonical form: addresses strictly rising, and no byte equal to what an unlisted address reads as. -/
abbrev Memory.wf (m : List Host.Cell) : Bool := Machine.twf (0 : Byte) m

/-- Both memories of a state are in canonical form. -/
abbrev MemoryWf (s : Machine.State) : Prop := Memory.wf s.mem = true ∧ Memory.wf s.hostMem = true

/-- A step that goes on. -/
abbrev Goes (o : Host.Outcome Machine.State Machine.Fault Machine.Refusal) : Prop := ∃ s, o = .next s

namespace Machine

/-- The conditions under which a word issues and takes its effect in the threads `act` of a unit, none of them trapping at
it: the run of the core in focus stands at a slot (R75); the unit waits for nothing and no deferred fault or pending trap of
its threads comes first (R137, R344); its guard is neither never nor unreadable, and holds in `act` (R78, R80); the word is
legal where it stands (R79 to R83), its mode bit and register numbers are as R240 and R25 ask; in every thread of `act` no
source is empty (of SEL, under a policy bit of 1, the source that it chooses: R100), no consumed one poisoned, and no
destination empty or read-locked (R15, R27, R28, R335); its counter and engine have room (R72, R165, R194); and its own
description does not suspend it (R75). -/
structure Issues (i : Instr) (s : State) (t : Site) (b : Block) (act : BitVec 32) : Prop where
  site   : siteFor s ((encode i).headD 0) ((encode i).getD 1 0) i.words = some t
  block  : getBlock s t.blk = some b
  free   : unitBlocked (gangOf b t.gang) t.unit = false
  guard  : i.guard ≠ 15
  clear  : guardTraps t (gangOf b t.gang) i.guard = []
  active : act = if isSel i then t.unit.lanes else guardHolds (gangOf b t.gang) i.guard t.unit.lanes
  some   : act ≠ 0
  legal  : legality i = []
  place  : placeReasons t i = []
  values : valueReasons (gangOf b t.gang) i = []
  mode   : needsPrivilege i = true → (getContext s b.ctx).privileged = true
  number : numberTrap s b i = none
  full   : ∀ l ∈ lanesOf act, emptyOf (gangOf b t.gang) l (trapSources (gangOf b t.gang) i l) = none
  whole  : hdrTraps t.hdr t.slot = false →
    ∀ l ∈ lanesOf act, emptyOf (gangOf b t.gang) l (sourcesAt (gangOf b t.gang) i) = none
  clean  : ∀ l ∈ lanesOf act, (consumed i).find? (refPoison (gangOf b t.gang) l) = none
  dests  : ∀ l ∈ lanesOf act, ∀ r ∈ destsAt (gangOf b t.gang) i,
    refEmpty (gangOf b t.gang) l r = false ∧ refLocked (gangOf b t.gang) l r = false
  room   : engineFull s t b act i = false
  ready  : ownWait s t b act i = false

/-- The state after a word of `n` slots whose whole unit goes on: it stands at the next slot, or at the next clause's
header, and the run goes on with it (R14, R68, R75). -/
def wentOn (t : Site) (n : Nat) (s : State) : State :=
  goOn (makeMove t s { lanes := t.unit.lanes, pc := t.after n }) t.core (t.after n)

/-- The state after a word of `n` slots after which the run ends (R75): the unit stands at the next slot. -/
def wentOnEnding (t : Site) (n : Nat) (s : State) : State :=
  endRun (makeMove t s { lanes := t.unit.lanes, pc := t.after n }) t.core

/-- The state after a word of `n` slots at which the unit waits (R75): it stands after the word, and the run ends. -/
def wentOnWaiting (t : Site) (n : Nat) (w : UnitWait) (s : State) : State :=
  endRun (makeMove t s { lanes := t.unit.lanes, pc := t.after n, wait := w }) t.core

/-- The state after a word of `n` slots at which some threads meet traps (R329) and the unit's other threads go on (R14). -/
def trapsSome (t : Site) (n : Nat) (s : State) (traps : List (Nat × Trap)) : State :=
  finish t { st := s, traps := traps, moves := [{ lanes := t.unit.lanes, pc := t.after n }] }

/-- The same, where the other threads wait at the word's end (R75, R149). -/
def trapsSomeWaiting (t : Site) (n : Nat) (w : UnitWait) (s : State) (traps : List (Nat × Trap)) : State :=
  finish t { st := s, traps := traps, moves := [{ lanes := t.unit.lanes, pc := t.after n, wait := w }] }

/-- The state after a word of `n` slots at which every thread of a mask meets one trap. -/
def trapsAll (t : Site) (n : Nat) (s : State) (act : BitVec 32) (x : Trap) : State :=
  trapsSome t n s ((lanesOf act).map (fun l => (l, x)))

/-- The state after a word at which a unit parts (R14): each of the masks that is not empty goes on as a unit of its own at
a resume point, and the run ends. -/
def parted (t : Site) (s : State) (masks : List (BitVec 32)) (pc : Dword) : State :=
  endRun ((masks.filter (fun m => m != 0)).foldl (fun s m => makeMove t s { lanes := m, pc := pc }) s) t.core

/-- The state after a transfer of a whole unit to a resume point (R113), which the target `x` names: the run goes on with
it, but for a point inside a clause (R75, R242). A unit that stands there holds the transfer until its clause's header has
been checked (R89). -/
def transferred (t : Site) (s : State) (rp x : Dword) : State :=
  let s := makeMove t s { lanes := t.unit.lanes, pc := rp, via := some (t.unit.pc, x) }
  if rpSlot rp = 15 then goOn s t.core rp else endRun s t.core

/-- The state in which each thread of a mask of a gang has been changed, from the gang as it stood before. -/
def eachThread (s : State) (t : Site) (act : BitVec 32) (f : Gang → Nat → Thread → Thread) : State :=
  modGang s t.blk t.gang (fun x => (lanesOf act).foldl (fun x l =>
    modThreadOf x l (fun _ => f (t.g s) l (threadOf (t.g s) l))) x)

/-- A word that writes a v register in each of its active threads and goes on: `f` gives the value from the gang and the
thread; the register takes the poison of the word's sources (R29, R97). -/
def GivesV (i : Instr) (d : BitVec 6) (f : Gang → Nat → Thread → Word) : Prop :=
  ∀ s t b act, Issues i s t b act →
    exec i s = .next (wentOn t i.words (eachThread s t act (fun g l x => writeV x d.toNat (f g l x) (anyPoison g l (sources i)))))

/-- The same for a v pair. -/
def GivesPair (i : Instr) (d : BitVec 6) (f : Gang → Nat → Thread → Dword) : Prop :=
  ∀ s t b act, Issues i s t b act →
    exec i s = .next (wentOn t i.words (eachThread s t act (fun g l x => writePair x d.toNat (f g l x) (anyPoison g l (sources i)))))

/-- The same for a predicate. -/
def GivesP (i : Instr) (d : BitVec 3) (f : Gang → Nat → Thread → Bool) : Prop :=
  ∀ s t b act, Issues i s t b act →
    exec i s = .next (wentOn t i.words (eachThread s t act (fun g l x => writeP x d.toNat (f g l x) (anyPoison g l (sources i)))))

/-- The integer conditions by code (Table 4.2), on two values of one width. -/
def compares {w : Nat} (c : Nat) (u v : BitVec w) : Bool :=
  match c with
  | 0 => decide (u = v)
  | 1 => decide (u ≠ v)
  | 2 => decide (u.toInt < v.toInt)
  | 3 => decide (u.toInt ≤ v.toInt)
  | 4 => decide (v.toInt < u.toInt)
  | 5 => decide (v.toInt ≤ u.toInt)
  | 6 => decide (u.toNat < v.toNat)
  | 7 => decide (u.toNat ≤ v.toNat)
  | 8 => decide (v.toNat < u.toNat)
  | 9 => decide (v.toNat ≤ u.toNat)
  | 10 => decide (u &&& v ≠ 0)
  | _ => decide (u &&& v = 0)

/-- A word in its two forms, whose second operand b is a v register of the thread (F-R) or a k register of the gang (F-K,
R99): `f` gives the value of d from the thread and from b's value. -/
def GivesVK (i j : Instr) (d b : BitVec 6) (f : Thread → Word → Word) : Prop :=
  GivesV i d (fun _ _ x => f x (opV x b)) ∧ GivesV j d (fun g _ x => f x (opK g b))

/-- The elements of a floating-point word (R42): one of 32 bits, or two of 16. -/
abbrev elementNumbers (packed : Bool) : List Nat := if packed then [0, 1] else [0]

/-- Whether an element of a floating-point word raises FP_NONFINITE in a thread (R60): in non-finite trap mode, a result
that is not finite from sources that all are. -/
def raisesNonFinite (f : Fmt) (packed : Bool) (srcs : List Word) (op : FpMode → List Nat → Nat) (x : Thread) (k : Nat) :
    Bool :=
  let e := elementAt packed srcs k
  (fpMode x).nft && !isFinite f (op (fpMode x) e) && e.all (isFinite f)

/-- A word that changes each of its active threads by a function of the participants and goes on (R128). -/
def GivesThread (i : Instr) (f : BitVec 32 → Gang → Nat → Thread → Thread) : Prop :=
  ∀ s t b act, Issues i s t b act → exec i s = .next (wentOn t i.words (eachThread s t act (f act)))

/-- The lanes of a mask in which a word meets no trap of its own description. -/
def sparedOf (act : BitVec 32) (trap : Nat → Option Trap) : BitVec 32 :=
  act &&& maskWhere (fun l => (trap l).isNone)

/-- The traps that a word's own description raises in the lanes of a mask, each at the word (R330). -/
def ownTraps (t : Site) (act : BitVec 32) (trap : Nat → Option Trap) : List (Nat × Trap) :=
  (lanesOf act).filterMap (fun l => (trap l).map (fun x => (l, t.trap x)))

/-- A word that changes each of its active threads, but for those that meet a trap of its own description: where none does,
the unit goes on; else those take their traps, with their registers as they were, and the others the word's effect (R14). -/
def GivesUnless (i : Instr) (trap : Site → Gang → BitVec 32 → Nat → Option Trap)
    (f : BitVec 32 → Gang → Nat → Thread → Thread) : Prop :=
  ∀ s t b act, Issues i s t b act →
    let raised := trap t (t.g s) act
    ((∀ l ∈ lanesOf act, raised l = none) → exec i s = .next (wentOn t i.words (eachThread s t act (f act)))) ∧
    ((∃ l ∈ lanesOf act, raised l ≠ none) → exec i s =
      .next (trapsSome t i.words (eachThread s t (sparedOf act raised) (f act)) (ownTraps t act raised)))

/-- The element that a floating-point word records with FP_NONFINITE where one of its elements raises it (R60, R193): the lowest
whose result is not finite. -/
def recordsNonFinite (f : Fmt) (packed : Bool) (srcs : List Word) (op : FpMode → List Nat → Nat) (x : Thread) : Option Nat :=
  if (elementNumbers packed).any (raisesNonFinite f packed srcs op x) then
    (elementNumbers packed).find? (fun k => !isFinite f (op (fpMode x) (elementAt packed srcs k)))
  else none

/-- FP_NONFINITE (R193): the cause, the word and an element. -/
def nonFiniteAt (t : Site) (element : Nat) : Trap :=
  { cause := 0x0B, aux0 := t.w, aux1 := BitVec.ofNat 32 element }

/-- A floating-point word: d receives in each of its elements what `op` gives of the operands' elements under the thread's
mode; a thread in which an element raises FP_NONFINITE takes it and keeps d (R60, R193). -/
def GivesFp (i : Instr) (f : Fmt) (packed : Bool) (d : BitVec 6) (srcs : Gang → Thread → List Word)
    (op : FpMode → List Nat → Nat) : Prop :=
  GivesUnless i
    (fun t g _ l => (recordsNonFinite f packed (srcs g (threadOf g l)) op (threadOf g l)).map (nonFiniteAt t))
    (fun _ g l x => writeV x d.toNat
      (fromElements packed ((elementNumbers packed).map (fun k => op (fpMode x) (elementAt packed (srcs g x) k))))
      (anyPoison g l (sources i)))

/-- A word whose result is known at issue and arrives later (R27): its destinations are empty from issue, and a producer
without a counter holds what `res` gives. A thread that meets a trap of the word's description takes it and keeps its
registers. -/
def StartsProducer (i : Instr) (dst : List RegRef) (trap : Site → Gang → Nat → Option Trap)
    (res : Gang → List Nat → List Result) : Prop :=
  ∀ s t b act, Issues i s t b act →
    let raised := trap t (t.g s)
    let lanes := lanesOf (sparedOf act raised)
    ((∀ l ∈ lanesOf act, raised l = none) →
      exec i s = .next (wentOn t i.words (startProducer s t (lanesOf act) dst (res (t.g s) (lanesOf act))))) ∧
    ((∃ l ∈ lanesOf act, raised l ≠ none) → exec i s = .next (trapsSome t i.words
      (if lanes = [] then s else startProducer s t lanes dst (res (t.g s) lanes)) (ownTraps t act raised)))

/-- The state with the operation that a word starts in some threads of its unit; none where no thread starts an access. -/
def startIn (s : State) (t : Site) (lanes : List Nat) (dst : List RegRef) (cls : Counter) (kind : OpKind)
    (accs : List Access) : State :=
  if lanes = [] then s else startOp s t lanes dst (some cls) kind accs

/-- A word that starts one access in each of its active threads (R138, R139), at the exact address that `addr` gives. A thread
whose access is out of its space's extent or misaligned takes its trap (R133, R134); for the others the destinations are empty,
the class is counted, and the operation holds their accesses. -/
def StartsAccesses (i : Instr) (cls : Counter) (dst : List RegRef) (kind : OpKind) (addr : Gang → Nat → Int)
    (acc : State → Gang → Nat → Access) : Prop :=
  ∀ s t b act, Issues i s t b act →
    let raised (l : Nat) : Option Trap :=
      accessTrap s b (acc s (t.g s) l).space (addr (t.g s) l) (acc s (t.g s) l).size
    let lanes := (lanesOf act).filter (fun l => raised l == none)
    ((∀ l ∈ lanesOf act, raised l = none) → exec i s = .next (wentOn t i.words
      (startOp s t (lanesOf act) dst (some cls) kind ((lanesOf act).map (acc s (t.g s)))))) ∧
    ((∃ l ∈ lanesOf act, raised l ≠ none) → exec i s = .next (trapsSome t i.words
      (startIn s t lanes dst cls kind (lanes.map (acc s (t.g s)))) (ownTraps t act raised)))

/-- A word that makes one access for its gang (R144): its trap, where it meets one, is raised in every active thread. -/
def StartsAccess (i : Instr) (cls : Counter) (dst : List RegRef) (kind : OpKind) (addr : Gang → Int)
    (acc : Gang → BitVec 32 → Access) : Prop :=
  ∀ s t b act, Issues i s t b act →
    let raised := accessTrap s b (acc (t.g s) act).space (addr (t.g s)) (acc (t.g s) act).size
    (raised = none →
      exec i s = .next (wentOn t i.words (startOp s t (lanesOf act) dst (some cls) kind [acc (t.g s) act]))) ∧
    (∀ x, raised = some x → exec i s = .next (trapsAll t i.words s act (t.trap x)))

/-- A word that acts once on the machine and goes on: `f` gives the state from the site, the block and the active lanes. -/
def GivesState (i : Instr) (f : State → Site → Block → BitVec 32 → State) : Prop :=
  ∀ s t b act, Issues i s t b act → exec i s = .next (wentOn t i.words (f s t b act))

/-- A word that acts once on the machine and ends its run (R75). -/
def GivesStateEnding (i : Instr) (f : State → Site → Block → BitVec 32 → State) : Prop :=
  ∀ s t b act, Issues i s t b act → exec i s = .next (wentOnEnding t i.words (f s t b act))

/-- A command word (R163, R164): each active thread that fails an operand check, or whose signature meets an error of Table
4.3, takes that trap; the others issue the command (unsigned, j = 8) or sign join register j. -/
def IssuesCommand (i : Instr) (j : BitVec 4) (check : State → Block → Site → Gang → Nat → Option Trap) : Prop :=
  ∀ s t b act, Issues i s t b act →
    let x := tget ({} : JoinReg) b.joins j.toNat
    let unsigned (l : Nat) : Option Trap :=
      if j = 8 then none
      else (signError x (t.gang, l) (commandKind i)).map (fun r =>
        { cause := 0x0C, aux0 := BitVec.ofNat 32 j.toNat, aux1 := BitVec.ofNat 32 r, aux2 := x.phase.setWidth 32 })
    let raised (l : Nat) : Option Trap := (check s b t (t.g s) l).or (unsigned l)
    let issue (lanes : List Nat) : State :=
      if j ≠ 8 then signCommand s t j.toNat i lanes else if lanes = [] then s else issueUnsigned s t i lanes
    ((∀ l ∈ lanesOf act, raised l = none) → exec i s = .next (wentOn t i.words (issue (lanesOf act)))) ∧
    ((∃ l ∈ lanesOf act, raised l ≠ none) → exec i s =
      .next (trapsSome t i.words (issue ((lanesOf act).filter (fun l => (raised l).isNone))) (ownTraps t act raised)))

/-- A word that changes its gang once and goes on. -/
def GivesGang (i : Instr) (f : Gang → BitVec 32 → Gang) : Prop :=
  ∀ s t b act, Issues i s t b act →
    exec i s = .next (wentOn t i.words (modGang s t.blk t.gang (fun g => f g act)))

end Machine

end Sys2Proof
end

