-- ==== Sys2Proof/Certificates/Slice0/Obligations.lean ====
section
/-! DEFINITION. The statements for the provers, in the order of OBLIGATIONS.json: what every instruction word and every step of
the device does, what it leaves, and what holds of the whole machine. -/

open Sys2Proof Sys2Proof.Machine

/-! ### Integer words (spec/04 4.2 to 4.5) -/

/-- R99, Table 4.1: the value that every integer word of majors 0x00 and 0x01 writes, as sums, products and quotients of the
operands' values and of the same read as two's complement; LEA writes a pair. -/
def Obligations.IntegerWords : Prop :=
  ∀ (gd : BitVec 4) (d a b : BitVec 6),
    GivesVK (.add gd d a b) (.addK gd d a b) d b (fun x v => BitVec.ofNat 32 ((opV x a).toNat + v.toNat)) ∧
    GivesVK (.sub gd d a b) (.subK gd d a b) d b (fun x v => BitVec.ofInt 32 ((opV x a).toInt - v.toInt)) ∧
    GivesVK (.mul gd d a b) (.mulK gd d a b) d b (fun x v => BitVec.ofNat 32 ((opV x a).toNat * v.toNat)) ∧
    GivesVK (.mulh gd d a b) (.mulhK gd d a b) d b
      (fun x v => ((opV x a).signExtend 64 * v.signExtend 64).extractLsb' 32 32) ∧
    GivesVK (.mad gd d a b) (.madK gd d a b) d b
      (fun x v => BitVec.ofNat 32 ((opV x a).toNat * v.toNat + (opV x d).toNat)) ∧
    GivesVK (.min gd d a b) (.minK gd d a b) d b (fun x v => if (opV x a).toInt ≤ v.toInt then opV x a else v) ∧
    GivesVK (.max gd d a b) (.maxK gd d a b) d b (fun x v => if v.toInt ≤ (opV x a).toInt then opV x a else v) ∧
    GivesVK (.abs gd d b) (.absK gd d b) d b (fun _ v => BitVec.ofNat 32 v.toInt.natAbs) ∧
    GivesVK (.neg gd d b) (.negK gd d b) d b (fun _ v => BitVec.ofInt 32 (-v.toInt)) ∧
    GivesVK (.div gd d a b) (.divK gd d a b) d b
      (fun x v => if v = 0 then 0xFFFFFFFF else BitVec.ofInt 32 ((opV x a).toInt.tdiv v.toInt)) ∧
    GivesVK (.rem gd d a b) (.remK gd d a b) d b
      (fun x v => if v = 0 then 0xFFFFFFFF else
        BitVec.ofInt 32 ((opV x a).toInt - v.toInt * (opV x a).toInt.tdiv v.toInt)) ∧
    GivesVK (.mov gd d b) (.movK gd d b) d b (fun _ v => v) ∧
    GivesPair (.lea gd d a b) d (fun _ _ x => BitVec.ofInt 64 ((pairV x a.toNat).toInt + (opV x b).toInt)) ∧
    GivesPair (.leaK gd d a b) d (fun g _ x => BitVec.ofInt 64 ((pairV x a.toNat).toInt + (opK g b).toInt))

/-- R101: the value that every logic, shift and bit-field word of majors 0x02 and 0x03 writes. -/
def Obligations.LogicWords : Prop :=
  ∀ (gd : BitVec 4) (d a b : BitVec 6),
    let pos (v : Word) : Nat := (v.extractLsb' 0 5).toNat
    let len (v : Word) : Nat := min (v.extractLsb' 8 6).toNat 32
    GivesVK (.and gd d a b) (.andK gd d a b) d b (fun x v => opV x a &&& v) ∧
    GivesVK (.or gd d a b) (.orK gd d a b) d b (fun x v => opV x a ||| v) ∧
    GivesVK (.xor gd d a b) (.xorK gd d a b) d b (fun x v => opV x a ^^^ v) ∧
    GivesVK (.andn gd d a b) (.andnK gd d a b) d b (fun x v => opV x a &&& ~~~v) ∧
    GivesVK (.shl gd d a b) (.shlK gd d a b) d b
      (fun x v => if v.toNat < 32 then BitVec.ofNat 32 ((opV x a).toNat * 2 ^ v.toNat) else 0) ∧
    GivesVK (.shr gd d a b) (.shrK gd d a b) d b
      (fun x v => if v.toNat < 32 then BitVec.ofNat 32 ((opV x a).toNat / 2 ^ v.toNat) else 0) ∧
    GivesVK (.sra gd d a b) (.sraK gd d a b) d b
      (fun x v => BitVec.ofInt 32 ((opV x a).toInt / 2 ^ min v.toNat 31)) ∧
    GivesVK (.rot gd d a b) (.rotK gd d a b) d b (fun x v => (opV x a).rotateLeft (pos v)) ∧
    GivesVK (.bfe gd d a b) (.bfeK gd d a b) d b (fun x v =>
      let f := (opV x a).toNat / 2 ^ pos v % 2 ^ len v
      BitVec.ofInt 32 (if v.getLsbD 16 ∧ 0 < len v ∧ f.testBit (len v - 1) then (f : Int) - 2 ^ len v else f)) ∧
    GivesVK (.bfi gd d a b) (.bfiK gd d a b) d b (fun x v =>
      let m : Word := BitVec.ofNat 32 ((2 ^ len v - 1) * 2 ^ pos v)
      (opV x d &&& ~~~m) ||| BitVec.ofNat 32 ((opV x a).toNat % 2 ^ len v * 2 ^ pos v)) ∧
    GivesVK (.popc gd d b) (.popcK gd d b) d b
      (fun _ v => BitVec.ofNat 32 ((List.range 32).filter (fun k => v.getLsbD k)).length) ∧
    GivesVK (.clz gd d b) (.clzK gd d b) d b
      (fun _ v => if v = 0 then 32 else BitVec.ofNat 32 (31 - Nat.log2 v.toNat)) ∧
    GivesVK (.brev gd d b) (.brevK gd d b) d b (fun _ v => v.reverse)

/-- R102: the pair that every word of major 0x04 writes. -/
def Obligations.PairWords : Prop :=
  ∀ (gd : BitVec 4) (d a b : BitVec 6),
    let A (x : Thread) : Dword := pairV x a.toNat
    let B (x : Thread) : Dword := pairV x b.toNat
    let n (x : Thread) : Nat := (opV x b).toNat
    GivesPair (.add64 gd d a b) d (fun _ _ x => A x + B x) ∧
    GivesPair (.sub64 gd d a b) d (fun _ _ x => A x - B x) ∧
    GivesPair (.mul64 gd d a b) d (fun _ _ x => A x * B x) ∧
    GivesPair (.mulh64 gd d a b) d (fun _ _ x => ((A x).signExtend 128 * (B x).signExtend 128).extractLsb' 64 64) ∧
    GivesPair (.min64 gd d a b) d (fun _ _ x => if (A x).toInt ≤ (B x).toInt then A x else B x) ∧
    GivesPair (.max64 gd d a b) d (fun _ _ x => if (B x).toInt ≤ (A x).toInt then A x else B x) ∧
    GivesPair (.shl64 gd d a b) d (fun _ _ x => if n x < 64 then BitVec.ofNat 64 ((A x).toNat * 2 ^ n x) else 0) ∧
    GivesPair (.shr64 gd d a b) d (fun _ _ x => if n x < 64 then BitVec.ofNat 64 ((A x).toNat / 2 ^ n x) else 0) ∧
    GivesPair (.sra64 gd d a b) d (fun _ _ x => BitVec.ofInt 64 ((A x).toInt / 2 ^ min (n x) 63))

/-- R103 to R105: the immediate forms of ADD, AND, OR and XOR, whose ten bits are sign-extended, MOVI and MOVH; and the shift
immediates, on a register (w = 0) or on a pair (w = 1), whose amount lies below the width in every word that issues. -/
def Obligations.ImmediateWords : Prop :=
  ∀ (gd : BitVec 4) (d a amt : BitVec 6) (imm : BitVec 10) (h : BitVec 16),
    let n := amt.toNat
    GivesV (.addImm gd d a imm) d (fun _ _ x => BitVec.ofInt 32 ((opV x a).toInt + imm.toInt)) ∧
    GivesV (.andImm gd d a imm) d (fun _ _ x => opV x a &&& BitVec.ofInt 32 imm.toInt) ∧
    GivesV (.orImm gd d a imm) d (fun _ _ x => opV x a ||| BitVec.ofInt 32 imm.toInt) ∧
    GivesV (.xorImm gd d a imm) d (fun _ _ x => opV x a ^^^ BitVec.ofInt 32 imm.toInt) ∧
    GivesV (.movi gd d h) d (fun _ _ _ => BitVec.ofInt 32 h.toInt) ∧
    GivesV (.movh gd d h) d (fun _ _ x => BitVec.ofNat 32 (h.toNat * 2 ^ 16 + (opV x d).toNat % 2 ^ 16)) ∧
    (n < 32 →
      GivesV (.shlImm gd d a 0 amt) d (fun _ _ x => BitVec.ofNat 32 ((opV x a).toNat * 2 ^ n)) ∧
      GivesV (.shrImm gd d a 0 amt) d (fun _ _ x => BitVec.ofNat 32 ((opV x a).toNat / 2 ^ n)) ∧
      GivesV (.sraImm gd d a 0 amt) d (fun _ _ x => BitVec.ofInt 32 ((opV x a).toInt / 2 ^ n)) ∧
      GivesV (.rotImm gd d a 0 amt) d (fun _ _ x => (opV x a).rotateLeft n)) ∧
    GivesPair (.shlImm gd d a 1 amt) d (fun _ _ x => BitVec.ofNat 64 ((pairV x a.toNat).toNat * 2 ^ n)) ∧
    GivesPair (.shrImm gd d a 1 amt) d (fun _ _ x => BitVec.ofNat 64 ((pairV x a.toNat).toNat / 2 ^ n)) ∧
    GivesPair (.sraImm gd d a 1 amt) d (fun _ _ x => BitVec.ofInt 64 ((pairV x a.toNat).toInt / 2 ^ n)) ∧
    GivesPair (.rotImm gd d a 1 amt) d (fun _ _ x => (pairV x a.toNat).rotateLeft n) ∧
    (32 ≤ n →
      0x0E ∈ legality (.shlImm gd d a 0 amt) ∧ 0x0E ∈ legality (.shrImm gd d a 0 amt) ∧
      0x0E ∈ legality (.sraImm gd d a 0 amt) ∧ 0x0E ∈ legality (.rotImm gd d a 0 amt))

/-- R100: SEL takes effect in every issuing thread: it writes a where the guard holds and b elsewhere, and only the source
it chooses poisons d. -/
def Obligations.SelectWords : Prop :=
  ∀ (gd : BitVec 4) (d a b : BitVec 6),
    let holds (x : Thread) : Bool := (pReg x (gd.extractLsb' 0 3).toNat).val != gd.getLsbD 3
    GivesThread (.sel gd d a b) (fun _ _ _ x =>
      let r := if holds x then vReg x a.toNat else vReg x b.toNat
      writeV x d.toNat r.val r.poison) ∧
    GivesThread (.selK gd d a b) (fun _ g _ x =>
      let r := if holds x then vReg x a.toNat else kReg g b.toNat
      writeV x d.toNat r.val r.poison)

/-! ### Predicates and uniform registers (spec/04 4.6, 4.7) -/

/-- R106 to R109, Table 4.2: what CMP, CMP immediate and PLOP write to their predicate, PMOVV to its register, and VPMOV to
the predicates of its mask. -/
def Obligations.PredicateWords : Prop :=
  (∀ (gd : BitVec 4) (pd : BitVec 3) (w : BitVec 1) (comb : BitVec 2) (a b : BitVec 6) (cond : BitVec 4),
    GivesP (.cmp gd pd w comb a b cond) pd (fun _ _ x =>
      let c := if w = 1 then compares cond.toNat (pairV x a.toNat) (pairV x b.toNat)
        else compares cond.toNat (opV x a) (opV x b)
      let old := (pReg x pd.toNat).val
      match comb.toNat with
      | 1 => old && c
      | 2 => old || c
      | _ => c)) ∧
  (∀ (gd : BitVec 4) (pd cond : BitVec 3) (a : BitVec 6) (imm : BitVec 10),
    GivesP (.cmpImm gd pd cond a imm) pd (fun _ _ x =>
      compares (if cond = 7 then 9 else cond.toNat) (opV x a) (BitVec.ofInt 32 imm.toInt))) ∧
  (∀ (gd : BitVec 4) (pd pa pb : BitVec 3) (na nb : BitVec 1) (op : BitVec 2),
    GivesP (.plop gd pd pa pb na nb op) pd (fun _ _ x =>
      let u := Bool.xor (pReg x pa.toNat).val (na == 1)
      let v := Bool.xor (pReg x pb.toNat).val (nb == 1)
      match op.toNat with | 0 => u && v | 1 => u || v | _ => Bool.xor u v)) ∧
  (∀ (gd : BitVec 4) (d : BitVec 6),
    GivesV (.pmovv gd d) d (fun _ _ x =>
      BitVec.ofNat 32 ((List.range 8).foldl (fun n k => n + (if (pReg x k).val then 2 ^ k else 0)) 0))) ∧
  (∀ (gd : BitVec 4) (mask : BitVec 7) (a : BitVec 6),
    GivesThread (.vpmov gd mask a) (fun _ _ _ x =>
      ((List.range 7).filter (fun k => mask.getLsbD k)).foldl
        (fun y k => writeP y k ((opV x a).getLsbD k) (vReg x a.toNat).poison) x))

/-- R110 to R112: KMOV writes its k register once for the gang; KLANE starts a producer whose k register is empty until
the value arrives: that of the chosen lane where its thread is active, else 0. -/
def Obligations.UniformWords : Prop :=
  (∀ (gd : BitVec 4) (d a : BitVec 6),
    GivesGang (.kmov gd d a) (fun g _ => writeK g d.toNat (kReg g a.toNat).val (kReg g a.toNat).poison)) ∧
  (∀ (gd : BitVec 4) (d : BitVec 6) (imm : BitVec 11),
    GivesGang (.kmovImm gd d imm) (fun g _ => writeK g d.toNat (BitVec.ofInt 32 imm.toInt) false)) ∧
  (∀ (gd : BitVec 4) (d a b : BitVec 6) s t bl act, Issues (.klane gd d a b) s t bl act →
    ∃ l, (l = if (opK (t.g s) b).getLsbD 31 then lowest act else (opK (t.g s) b).toNat % 32) ∧
      exec (.klane gd d a b) s = .next (wentOn t 1 (startProducer s t (lanesOf act) [.k d.toNat]
        [{ lane := l, isK := true, reg := d.toNat,
           val := if act.getLsbD l then opV (threadOf (t.g s) l) a else 0,
           poison := (act.getLsbD l && (vReg (threadOf (t.g s) l) a.toNat).poison) || (kReg (t.g s) b.toNat).poison }])))

/-! ### Floating point and conversion (spec/06 6.1 to 6.4) -/

/-- R182: what the members of majors 0x10 and 0x11 write: the exact sum, difference, product or product and sum of the operands
as ftz reads them, rounded once under the thread's mode (FADD, FSUB, FMUL, FFMA); minimumNumber and maximumNumber; b with its
sign bit 0 or inverted, a NaN giving the canonical one. A thread in non-finite trap mode whose result is not finite, from
operands that all are, takes FP_NONFINITE (R60, R193) with the word and element 0, and keeps d. The sign of a zero to which a
value that is not zero rounds is the model's choice (assumption log 98). -/
def Obligations.SingleFloatWords : Prop :=
  ∀ (gd : BitVec 4) (d a b : BitVec 6),
    let r (m : FpMode) (e : List Nat) (k : Nat) : Val := readF fp32 m.ftz (e.getD k 0)
    let rnd (m : FpMode) (v : Val) : Nat := convert fp32 v m.rm false m.ftz
    let both (i j : Instr) (srcs : List (BitVec 6)) (op : FpMode → List Nat → Nat) : Prop :=
      GivesFp i fp32 false d (fun _ x => valsV x (srcs ++ [b])) op ∧ GivesFp j fp32 false d (fun g x => valsK g x srcs b) op
    both (.fadd gd d a b) (.faddK gd d a b) [a] (fun m e => rnd m (addVal (r m e 0) (r m e 1) m.rm)) ∧
    both (.fsub gd d a b) (.fsubK gd d a b) [a] (fun m e => rnd m (addVal (r m e 0) (negVal (r m e 1)) m.rm)) ∧
    both (.fmul gd d a b) (.fmulK gd d a b) [a] (fun m e => rnd m (mulVal (r m e 0) (r m e 1))) ∧
    GivesFp (.ffma gd d a b) fp32 false d (fun _ x => valsV x [a, b, d])
      (fun m e => rnd m (addVal (mulVal (r m e 0) (r m e 1)) (r m e 2) m.rm)) ∧
    GivesFp (.ffmaK gd d a b) fp32 false d (fun g x => valsK g x [a] b ++ valsV x [d])
      (fun m e => rnd m (addVal (mulVal (r m e 0) (r m e 1)) (r m e 2) m.rm)) ∧
    both (.fmin gd d a b) (.fminK gd d a b) [a] (fun _ e => minNum fp32 (e.getD 0 0) (e.getD 1 0)) ∧
    both (.fmax gd d a b) (.fmaxK gd d a b) [a] (fun _ e => maxNum fp32 (e.getD 0 0) (e.getD 1 0)) ∧
    both (.fabs gd d b) (.fabsK gd d b) []
      (fun _ e => if decodeF fp32 (e.getD 0 0) = .nan then 0x7FC00000 else e.getD 0 0 % 2 ^ 31) ∧
    both (.fneg gd d b) (.fnegK gd d b) []
      (fun _ e => if decodeF fp32 (e.getD 0 0) = .nan then 0x7FC00000 else e.getD 0 0 ^^^ 2 ^ 31)

/-- R183: the members of majors 0x12 and 0x13 compute each of their two elements as R182 states, in FP16 and in BF16; a thread
an element of which raises FP_NONFINITE (R60, R193) takes it with the word and the lowest element whose result is not finite,
and keeps d. The sign of a zero to which a value that is not zero rounds is the model's choice (assumption log 98). -/
def Obligations.PackedFloatWords : Prop :=
  ∀ (gd : BitVec 4) (d a b : BitVec 6),
    let r (f : Fmt) (m : FpMode) (e : List Nat) (k : Nat) : Val := readF f m.ftz (e.getD k 0)
    let rnd (f : Fmt) (m : FpMode) (v : Val) : Nat := convert f v m.rm false m.ftz
    let both (i j : Instr) (srcs : List (BitVec 6)) (op : Fmt → FpMode → List Nat → Nat) : Prop :=
      GivesFp i fp16 true d (fun _ x => valsV x srcs) (op fp16) ∧ GivesFp j bf16 true d (fun _ x => valsV x srcs) (op bf16)
    both (.faddF16x2 gd d a b) (.faddBf16x2 gd d a b) [a, b] (fun f m e => rnd f m (addVal (r f m e 0) (r f m e 1) m.rm)) ∧
    both (.fsubF16x2 gd d a b) (.fsubBf16x2 gd d a b) [a, b]
      (fun f m e => rnd f m (addVal (r f m e 0) (negVal (r f m e 1)) m.rm)) ∧
    both (.fmulF16x2 gd d a b) (.fmulBf16x2 gd d a b) [a, b] (fun f m e => rnd f m (mulVal (r f m e 0) (r f m e 1))) ∧
    both (.ffmaF16x2 gd d a b) (.ffmaBf16x2 gd d a b) [a, b, d]
      (fun f m e => rnd f m (addVal (mulVal (r f m e 0) (r f m e 1)) (r f m e 2) m.rm)) ∧
    both (.fminF16x2 gd d a b) (.fminBf16x2 gd d a b) [a, b] (fun f _ e => minNum f (e.getD 0 0) (e.getD 1 0)) ∧
    both (.fmaxF16x2 gd d a b) (.fmaxBf16x2 gd d a b) [a, b] (fun f _ e => maxNum f (e.getD 0 0) (e.getD 1 0)) ∧
    both (.fabsF16x2 gd d b) (.fabsBf16x2 gd d b) [b]
      (fun f _ e => if decodeF f (e.getD 0 0) = .nan then canonicalNan f else e.getD 0 0 % 2 ^ 15) ∧
    both (.fnegF16x2 gd d b) (.fnegBf16x2 gd d b) [b]
      (fun f _ e => if decodeF f (e.getD 0 0) = .nan then canonicalNan f else e.getD 0 0 ^^^ 2 ^ 15)

/-- R186, R187, Table 6.3: each special function starts a producer of its result for x as ftz reads it; a thread that raises
FP_NONFINITE (R60, R193) takes it with the word and element 0, and keeps d. In non-finite trap mode FRCP raises it of a zero,
FRSQ and FLG2 of a zero or a negative x, FSQRT of a negative x, FEX2 of an x of 128 or more, and no member of an infinity or a
NaN; FCLS never does, and sets the one bit of its operand's class. A NaN gives the canonical NaN, and the results at the special
operands are as Table 6.3 lists them: at zeros and infinities; of a negative x for FRSQ, FSQRT and FLG2; at and beyond the ends
of FEX2; at whole and half numbers for FSIN and FCOS; and at small and large x for FTANH. At the other operands FRCP lies within
one ulp of the exact result and FRSQ within two, and FSQRT is the nearest number; FRCP, FRSQ, FEX2 and FLG2 are exact where Table
6.3 says so; and FTANH keeps within 1. Under ftz a subnormal operand is read as a zero, and a subnormal result written as one
(R55). Within the bounds the results are free values of the configuration (assumption log 81). -/
def Obligations.SpecialFunctionWords : Prop :=
  (∀ (gd : BitVec 4) (d b : BitVec 6),
    let starts (i : Instr) (code : Nat) : Prop :=
      StartsProducer i [.v d.toNat]
        (fun t g l => let x := threadOf g l
          if specialFails code (fpMode x) (opV x b).toNat then some (nonFiniteAt t 0) else none)
        (fun g lanes => lanes.map (fun l =>
          let x := threadOf g l
          { lane := l, reg := d.toNat, val := BitVec.ofNat 32 (specialBits code (fpMode x) (opV x b).toNat),
            poison := (vReg x b.toNat).poison }))
    starts (.frcp gd d b) 0 ∧ starts (.frsq gd d b) 1 ∧ starts (.fsqrt gd d b) 2 ∧ starts (.fex2 gd d b) 3 ∧
    starts (.flg2 gd d b) 4 ∧ starts (.fsin gd d b) 5 ∧ starts (.fcos gd d b) 6 ∧ starts (.ftanh gd d b) 7 ∧
    starts (.fcls gd d b) 8) ∧
  (∀ code m x, code < 8 → decodeF fp32 x = .nan → specialBits code m x = 0x7FC00000) ∧
  (∀ (m : FpMode) (x : Nat),
    let neg := x.testBit 31
    let exponent := x / 2 ^ 23 % 2 ^ 8
    let fraction := x % 2 ^ 23
    specialFails 8 m x = false ∧
    specialBits 8 m x = 2 ^ (
      if exponent = 255 ∧ fraction = 0 then (if neg then 0 else 7)
      else if exponent = 255 then (if x.testBit 22 then 9 else 8)
      else if exponent ≠ 0 then (if neg then 1 else 6)
      else if fraction ≠ 0 then (if neg then 2 else 5)
      else if neg then 3 else 4)) ∧
  (∀ (code : Nat) (m : FpMode) (x : Nat), code < 8 → m.ftz = true →
    let r := specialBits code { m with ftz := false } x
    (∀ y, decodeF fp32 x = .fin y → y.m ≠ 0 → dyLog y < -126 →
      specialBits code m x = specialBits code m (if y.neg then 2 ^ 31 else 0)) ∧
    ((∀ y, decodeF fp32 x = .fin y → y.m = 0 ∨ -126 ≤ dyLog y) →
      (∀ z, decodeF fp32 r = .fin z → z.m ≠ 0 → dyLog z < -126 → specialBits code m x = if z.neg then 2 ^ 31 else 0) ∧
      ((∀ z, decodeF fp32 r = .fin z → z.m = 0 ∨ -126 ≤ dyLog z) → specialBits code m x = r))) ∧
  (∀ (m : FpMode) (x : Nat) (y : Machine.Dyadic), m.ftz = false → decodeF fp32 x = .fin y → y.m ≠ 0 →
    let le (u v : Machine.Dyadic) : Prop := dyLe u v = true
    let same (u v : Machine.Dyadic) : Prop := le u v ∧ le v u
    let one := dyOf 1 0
    let plus (u v : Machine.Dyadic) : Machine.Dyadic := dyAdd u v false
    let minus (u v : Machine.Dyadic) : Machine.Dyadic := plus u { v with neg := !v.neg }
    let gives (code : Nat) (p : Machine.Dyadic → Prop) : Prop := ∃ z, decodeF fp32 (specialBits code m x) = .fin z ∧ p z
    (∀ e : Int, e < 128 → le (dyMul (dyOf 1 e) (dyAbs y)) one → ¬ le (dyMul (dyOf 1 (e + 1)) (dyAbs y)) one →
      gives 0 (fun z => le (dyAbs (minus (dyMul z y) one)) (dyMul (dyOf 1 (max e (-126) - 23)) (dyAbs y)))) ∧
    (∀ w v, decodeF fp32 w = .fin v → same (dyMul v y) one → gives 0 (fun z => same (dyMul z y) one)) ∧
    (y.neg = false →
      (∀ e : Int, le (dyMul (dyOf 1 (2 * e)) y) one → ¬ le (dyMul (dyOf 1 (2 * e + 2)) y) one →
        gives 1 (fun z =>
          let lo := minus z (dyOf 1 (e - 22))
          let hi := plus z (dyOf 1 (e - 22))
          (lo.neg = true ∨ le (dyMul (dyMul lo lo) y) one) ∧ hi.neg = false ∧ le one (dyMul (dyMul hi hi) y))) ∧
      (∀ n : Int, same y (dyOf 1 (2 * n)) → gives 1 (fun z => same z (dyOf 1 (-n)))) ∧
      gives 2 (fun z => z.neg = false ∧ ∀ w v, decodeF fp32 w = .fin v → v.neg = false →
        (¬ le v z → le (dyMul (dyOf 4 0) y) (dyMul (plus z v) (plus z v))) ∧
        (¬ le z v → le (dyMul (plus z v) (plus z v)) (dyMul (dyOf 4 0) y))) ∧
      (∀ n : Int, same y (dyOf 1 n) → gives 4 (fun z => same z { neg := decide (n < 0), m := n.natAbs, e := 0 }))) ∧
    (∀ n : Int, -149 ≤ n → n ≤ 127 → same y { neg := decide (n < 0), m := n.natAbs, e := 0 } →
      gives 3 (fun z => same z (dyOf 1 n))) ∧
    gives 7 (fun z => le (dyAbs z) one)) ∧
  (∀ code (m : FpMode) x, isFinite fp32 x = false → specialFails code m x = false) ∧
  (∀ m, specialBits 0 m 0x00000000 = 0x7F800000 ∧ specialBits 0 m 0x80000000 = 0xFF800000 ∧
    specialBits 0 m 0x7F800000 = 0x00000000 ∧ specialBits 0 m 0xFF800000 = 0x80000000 ∧
    specialBits 1 m 0x00000000 = 0x7F800000 ∧ specialBits 1 m 0x80000000 = 0xFF800000 ∧
    specialBits 1 m 0x7F800000 = 0x00000000 ∧ specialBits 1 m 0xFF800000 = 0x7FC00000 ∧
    specialBits 2 m 0x00000000 = 0x00000000 ∧ specialBits 2 m 0x80000000 = 0x80000000 ∧
    specialBits 2 m 0x7F800000 = 0x7F800000 ∧ specialBits 2 m 0xFF800000 = 0x7FC00000 ∧
    specialBits 3 m 0xFF800000 = 0x00000000 ∧ specialBits 3 m 0x7F800000 = 0x7F800000 ∧
    specialBits 4 m 0x00000000 = 0xFF800000 ∧ specialBits 4 m 0x80000000 = 0xFF800000 ∧
    specialBits 4 m 0x7F800000 = 0x7F800000 ∧ specialBits 4 m 0xFF800000 = 0x7FC00000 ∧
    specialBits 4 m 0x3F800000 = 0x00000000 ∧
    specialBits 5 m 0x7F800000 = 0x7FC00000 ∧ specialBits 5 m 0xFF800000 = 0x7FC00000 ∧
    specialBits 6 m 0x7F800000 = 0x7FC00000 ∧ specialBits 6 m 0xFF800000 = 0x7FC00000 ∧
    specialBits 7 m 0x7F800000 = 0x3F800000 ∧ specialBits 7 m 0xFF800000 = 0xBF800000) ∧
  (∀ (m : FpMode) x y, readF fp32 m.ftz x = .fin y →
    let whole (z : Machine.Dyadic) (n : Nat) : Prop := if 0 ≤ z.e then z.m * 2 ^ z.e.toNat = n else z.m = n * 2 ^ (-z.e).toNat
    let fails (code : Nat) : Prop := m.nft = true → specialFails code m x = true
    (y.m = 0 → fails 0 ∧ fails 1 ∧ fails 4) ∧
    (y.neg = true → y.m ≠ 0 → fails 1 ∧ fails 2 ∧ fails 4 ∧
      specialBits 1 m x = 0x7FC00000 ∧ specialBits 2 m x = 0x7FC00000 ∧ specialBits 4 m x = 0x7FC00000) ∧
    (dyLe (dyOf 128 0) y = true → fails 3 ∧ specialBits 3 m x = 0x7F800000) ∧
    (dyLe y { dyOf 150 0 with neg := true } = true → specialBits 3 m x = 0x00000000) ∧
    (∀ n, whole y n →
      specialBits 5 m x = (if y.neg then 0x80000000 else 0x00000000) ∧
      specialBits 6 m x = (if n % 2 = 0 then 0x3F800000 else 0xBF800000)) ∧
    (∀ n, whole { y with e := y.e + 1 } (2 * n + 1) → specialBits 6 m x = 0x00000000) ∧
    (dyLe (dyAbs y) (dyOf 1 (-12)) = true →
      specialBits 7 m x = if y.m = 0 then (if y.neg then 0x80000000 else 0x00000000) else x % 2 ^ 32) ∧
    (dyLe (dyOf 10 0) (dyAbs y) = true → specialBits 7 m x = if y.neg then 0xBF800000 else 0x3F800000))

/-- R188, Table 6.4: FCMP combines the condition of two FP32 operands, as ftz reads them, into pd as CMP does: with a NaN
only un and the unordered conditions hold, and minus zero equals plus zero. -/
def Obligations.FloatCompare : Prop :=
  (∀ (gd : BitVec 4) (pd : BitVec 3) (comb : BitVec 2) (a b : BitVec 6) (cond : BitVec 4),
    GivesP (.fcmp gd pd comb a b cond) pd (fun _ _ x =>
      let c := fpCond cond.toNat (readF fp32 (fpMode x).ftz (opV x a).toNat) (readF fp32 (fpMode x).ftz (opV x b).toNat)
      let old := (pReg x pd.toNat).val
      match comb.toNat with
      | 1 => old && c
      | 2 => old || c
      | _ => c)) ∧
  (∀ c v, c < 14 → fpCond c .nan v = decide (7 ≤ c) ∧ fpCond c v .nan = decide (7 ≤ c)) ∧
  (∀ m n, fpCond 0 (.fin (zeroOf m)) (.fin (zeroOf n)) = true ∧ fpCond 2 (.fin (zeroOf m)) (.fin (zeroOf n)) = false ∧
    fpCond 4 (.fin (zeroOf m)) (.fin (zeroOf n)) = false)

/-- R189 to R192: CVT writes the converted value to a register, or a pair for a 64-bit format; CVTPK packs the converted
elements of a group at their widths; CVTUP unpacks every element of a register exactly. A thread in non-finite trap mode in
which CVT or an element of CVTPK gives an infinity or a NaN of a finite source takes FP_NONFINITE (R60, R193) with the word and
the lowest element whose result is not finite, and keeps d. The sign of a zero to which a value that is not zero rounds is the
model's choice (assumption log 98). -/
def Obligations.ConversionWords : Prop :=
  (∀ (gd : BitVec 4) (d a : BitVec 6) (src : BitVec 4) (sat rz : BitVec 1) (dst : BitVec 4),
    let res (x : Thread) : Nat × Bool × Bool :=
      convertBits src.toNat dst.toNat (sat == 1) (rz == 1) (fpMode x)
        (if src = 11 ∨ src = 12 then (pairV x a.toNat).toNat else (opV x a).toNat)
    GivesUnless (.cvt gd d a src sat rz dst)
      (fun t g _ l => let x := threadOf g l
        if (fpMode x).nft && !(res x).2.2 && (res x).2.1 then some (nonFiniteAt t 0) else none)
      (fun _ g l x =>
        let p := anyPoison g l (sources (.cvt gd d a src sat rz dst))
        if dst = 11 ∨ dst = 12 then writePair x d.toNat (BitVec.ofNat 64 (res x).1) p
        else writeV x d.toNat (BitVec.ofNat 32 (res x).1) p)) ∧
  (∀ (gd : BitVec 4) (d a : BitVec 6) (fmt : BitVec 4) (sat rz : BitVec 1),
    let src (x : Thread) (k : Nat) : Nat := (vReg x (a.toNat + k)).val.toNat
    let res (x : Thread) (k : Nat) : Nat × Bool := packElement fmt.toNat (sat == 1) (rz == 1) (fpMode x) (src x k)
    GivesUnless (.cvtpk gd d a fmt sat rz)
      (fun t g _ l => let x := threadOf g l
        let elements := List.range (packCount fmt.toNat)
        if elements.any (fun k => (fpMode x).nft && !(res x k).2 && isFinite fp32 (src x k)) then
          (elements.find? (fun k => !(res x k).2)).map (nonFiniteAt t)
        else none)
      (fun _ g l x => writeV x d.toNat
        (BitVec.ofNat 32 (((List.range (packCount fmt.toNat)).map
          (fun k => (res x k).1 * 2 ^ (packWidth fmt.toNat * k))).sum))
        (anyPoison g l (sources (.cvtpk gd d a fmt sat rz))))) ∧
  (∀ (gd : BitVec 4) (d a : BitVec 6) (fmt : BitVec 4),
    GivesThread (.cvtup gd d a fmt) (fun _ g l x =>
      writeVs x d.toNat ((List.range (packCount fmt.toNat)).map (fun k =>
        unpackElement fmt.toNat ((opV x a).toNat / 2 ^ (packWidth fmt.toNat * k) % 2 ^ packWidth fmt.toNat)))
        (anyPoison g l (sources (.cvtup gd d a fmt)))))

/-! ### Cross-lane words (spec/04 4.11) -/

/-- R129, R130: the shuffles read a participant's register or 0; PCONS reduces the participants' predicates; LMASK collects
them. A result is poisoned by the source it reads, and for PCONS and LMASK by any participant's. -/
def Obligations.ShuffleAndVoteWords : Prop :=
  ∀ (gd : BitVec 4) (d a b : BitVec 6),
    let reg (act : BitVec 32) (g : Gang) (src : Int) : Reg :=
      if 0 ≤ src ∧ src < 32 ∧ act.getLsbD src.toNat then vReg (threadOf g src.toNat) a.toNat else {}
    let p (g : Gang) (l : Nat) : Pred := pReg (threadOf g l) (a.toNat % 8)
    GivesThread (.shfl gd d a b) (fun act g _ x =>
      let r := reg act g ((opV x b).toNat % 32 : Nat)
      writeV x d.toNat r.val (r.poison || (vReg x b.toNat).poison)) ∧
    GivesThread (.shfld gd d a b) (fun act g l x =>
      let r := reg act g ((l : Int) + b.toInt)
      writeV x d.toNat r.val r.poison) ∧
    GivesThread (.shflx gd d a b) (fun act g l x =>
      let r := reg act g ((l ^^^ b.toNat : Nat) : Int)
      writeV x d.toNat r.val r.poison) ∧
    GivesThread (.pcons gd d a b) (fun act g _ x =>
      let every := (lanesOf act).all (fun l => (p g l).val)
      let some := (lanesOf act).any (fun l => (p g l).val)
      let r := match b.toNat with
        | 0 => every
        | 1 => some
        | 2 => every || !some
        | _ => decide (((lanesOf act).filter (fun l => (p g l).val)).length % 2 = 1)
      writeP x d.toNat r ((lanesOf act).any (fun l => (p g l).poison))) ∧
    GivesThread (.lmask gd d a) (fun act g _ x =>
      writeV x d.toNat (maskWhere (fun l => act.getLsbD l && (p g l).val)) ((lanesOf act).any (fun l => (p g l).poison)))

/-- R131, R132: RED gives every participant the tree combination of all contributions and SCAN the combination in rising lane
order; under the lowest participant's non-finite trap mode, a participant whose floating-point result is not finite while every
contribution combined into it is takes FP_NONFINITE (R60, R193) with the word and element 0, and keeps d; MATCH, CONFLICT and
HIST compare the participants' values. That an exclusive SCAN that combines nothing raises it where its identity is infinite is
the model's choice (assumption log 34). -/
def Obligations.ReductionWords : Prop :=
  (∀ (gd : BitVec 4) (d a : BitVec 6) (op : BitVec 4),
    let mode (g : Gang) (act : BitVec 32) : FpMode := fpMode (threadOf g (lowest act))
    let res (g : Gang) (act : BitVec 32) : Word :=
      treeReduce op.toNat (mode g act) (lanes32.map (fun l =>
        if act.getLsbD l then some (contribution op.toNat (mode g act) (opV (threadOf g l) a)) else none))
    GivesUnless (.red gd d a op)
      (fun t g act _ =>
        if 8 ≤ op.toNat ∧ (mode g act).nft = true ∧ isFinite fp32 (res g act).toNat = false ∧
            (lanesOf act).all (fun k => isFinite fp32 (opV (threadOf g k) a).toNat) = true
        then some (nonFiniteAt t 0) else none)
      (fun act g _ x => writeV x d.toNat (res g act) ((lanesOf act).any (fun l => (vReg (threadOf g l) a.toNat).poison)))) ∧
  (∀ (gd : BitVec 4) (d a : BitVec 6) (excl : BitVec 1) (op : BitVec 4),
    let mode (g : Gang) (act : BitVec 32) : FpMode := fpMode (threadOf g (lowest act))
    let below (act : BitVec 32) (l : Nat) : List Nat :=
      (lanesOf act).filter (fun k => decide (k < l) || (excl == 0 && decide (k = l)))
    let res (g : Gang) (act : BitVec 32) (l : Nat) : Word :=
      (below act l).foldl (fun y k => reduceStep op.toNat (mode g act) y
        (contribution op.toNat (mode g act) (opV (threadOf g k) a))) (reduceIdentity op.toNat)
    GivesUnless (.scan gd d a excl op)
      (fun t g act l =>
        if 8 ≤ op.toNat ∧ (mode g act).nft = true ∧ isFinite fp32 (res g act l).toNat = false ∧
            (below act l).all (fun k => isFinite fp32 (opV (threadOf g k) a).toNat) = true
        then some (nonFiniteAt t 0) else none)
      (fun act g l x => writeV x d.toNat (res g act l) ((below act l).any (fun k => (vReg (threadOf g k) a.toNat).poison)))) ∧
  (∀ (gd : BitVec 4) (d a : BitVec 6),
    let v (g : Gang) (l : Nat) : Word := opV (threadOf g l) a
    let poison (g : Gang) (act : BitVec 32) : Bool := (lanesOf act).any (fun l => (vReg (threadOf g l) a.toNat).poison)
    GivesThread (.matchEq gd d a) (fun act g l x =>
      writeV x d.toNat (maskWhere (fun k => act.getLsbD k && v g k == v g l)) (poison g act)) ∧
    GivesThread (.conflict gd d a) (fun act g l x =>
      writeV x d.toNat (maskWhere (fun k => act.getLsbD k && decide (k < l) && v g k == v g l)) (poison g act)) ∧
    GivesThread (.hist gd d a) (fun act g l x =>
      writeV x d.toNat (BitVec.ofNat 32 ((lanesOf act).filter (fun k => decide ((v g k).toNat = l))).length) (poison g act)))

/-! ### Memory words (spec/05 5.1 to 5.6) -/

/-- R141, R142, R144, R87, R133, R134: LD, ST, LDRO, LDX and STX start their accesses, at the exact sum of base and offset
times the size (R7): the destinations are empty until they complete, the data of a store are those at issue, and ld or st
counts. A thread whose access is out of its space or misaligned takes its trap and starts none, while the others start theirs;
a fault of LDX or STX is raised in every active thread. That an access both out of its space and misaligned takes SPACE_RANGE
is the model's choice (assumption log 21). -/
def Obligations.LoadsAndStoresIssue : Prop :=
  (∀ (gd : BitVec 4) (d a : BitVec 6) (size : BitVec 3) (sp : BitVec 2) (off : BitVec 5),
    let n := sizeBytes size.toNat
    let address (g : Gang) (l : Nat) : Int :=
      (if sp = 0 then (pairV (threadOf g l) a.toNat).toNat else if sp = 3 then (opK g a).toNat
        else (opV (threadOf g l) a).toNat : Nat) + off.toInt * n
    let acc (wr : Gang → Nat → Option (List Byte)) (_ : State) (g : Gang) (l : Nat) : Access :=
      { lanes := laneBit l, space := sp.toNat, va := BitVec.ofInt 64 (address g l), size := n, wr := wr g l,
        key := (threadOf g l).spx }
    StartsAccesses (.ld gd d a size sp off) .ld (vs d.toNat (sizeRegs size.toNat)) (.load size.toNat d.toNat false)
      address (acc (fun _ _ => none)) ∧
    StartsAccesses (.ldro gd d a size sp off) .ld (vs d.toNat (sizeRegs size.toNat)) (.loadRo size.toNat d.toNat)
      address (acc (fun _ _ => none)) ∧
    StartsAccesses (.st gd d a size sp off) .st [] (.store false)
      address (acc (fun g l => some (bytesV (threadOf g l) d.toNat n)))) ∧
  (∀ (gd : BitVec 4) (d a : BitVec 6) (size sp : BitVec 2) (off : BitVec 4),
    let n : Nat := 4 * 2 ^ size.toNat
    let address (g : Gang) : Int :=
      (if sp = 0 then (pairK g a.toNat).toNat else (opK g a).toNat : Nat) + off.toInt * n
    let acc (wr : Gang → Option (List Byte)) (g : Gang) (act : BitVec 32) : Access :=
      { lanes := act, space := sp.toNat, va := BitVec.ofInt 64 (address g), size := n, wr := wr g,
        key := (threadOf g (lowest act)).spx }
    StartsAccess (.ldx gd d a size sp off) .ld (ks d.toNat (2 ^ size.toNat)) (.loadK (2 ^ size.toNat) d.toNat)
      address (acc (fun _ => none)) ∧
    StartsAccess (.stx gd d a size sp off) .st [] (.store false)
      address (acc (fun g => some (bytesK g d.toNat (2 ^ size.toNat)))))

/-- R7, R133, R134, R252: an access that is not wholly within its space's extent raises SPACE_RANGE, and one that is but whose
address is no multiple of its size MISALIGNED, with the address and the space; any other raises neither. The extents are those of
Tables 5.1 and 9.1: the block's local store, its current scratch, the launch's constants, the canonical addresses of the generic
space outside the window region, and the four windows there; an exact address below 0 or past 64 bits lies in none. That
SPACE_RANGE comes before MISALIGNED is the model's choice (assumption log 21). -/
def Obligations.AccessChecks : Prop :=
  ∀ (s : State) (b : Block) (n : Nat), 0 < n →
    let local' := (blockRecord s b).lstore
    let scratch := min (blockRecord s b).scratch (scratchSpace (getCluster s (blockCluster b)).cbmode - b.origin)
    let const := ((getLaunch s b.launch).map Launch.constLen).getD 0
    let window (k : Nat) : Nat :=
      match k with
      | 0 => local'
      | 1 => scratch
      | 2 => if 0 < b.stage then 2 ^ 20 else 0
      | 3 => if b.stage + 1 < (blockRecord s b).stages then 2 ^ 20 else 0
      | _ => 0
    (∀ (sp : Nat) (va : Int),
      let trap (cause : BitVec 8) : Trap :=
        { cause := cause, aux0 := lo32 (BitVec.ofInt 64 va), aux1 := hi32 (BitVec.ofInt 64 va), aux2 := BitVec.ofNat 32 sp }
      (inExtent s b (targetOf sp va) n = false → accessTrap s b sp va n = some (trap 7)) ∧
      (inExtent s b (targetOf sp va) n = true → ¬ (n : Int) ∣ va → accessTrap s b sp va n = some (trap 6)) ∧
      (inExtent s b (targetOf sp va) n = true → (n : Int) ∣ va → accessTrap s b sp va n = none) ∧
      (va < 0 ∨ 2 ^ 64 ≤ va → inExtent s b (targetOf sp va) n = false)) ∧
    (∀ a : Nat, a < 2 ^ 64 →
      inExtent s b (targetOf 1 a) n = decide (a + n ≤ local') ∧
      inExtent s b (targetOf 2 a) n = decide (a + n ≤ scratch) ∧
      inExtent s b (targetOf 3 a) n = decide (a + n ≤ const) ∧
      (n ≤ 2 ^ 32 → (inExtent s b (targetOf 0 a) n = true ↔
        (∀ k, k < n → a + k < 2 ^ 64 ∧ (a + k) / 2 ^ 57 = (if (a + k).testBit 56 then 127 else 0) ∧
          (a + k) / 2 ^ 40 ≠ 0xFF0000) ∨
        (∃ k o, o < 2 ^ 32 ∧ a = 0xFF00000000000000 + k * 2 ^ 32 + o ∧ k < 4 ∧ o + n ≤ window k))))

/-- R149, R133, R134, Table 5.4: ATOM and CAS start one atomic in each active thread, at the exact sum of base and offset, with
the operands as they are at issue; ATOM counts on ld, or on st without a result, and CAS on ld. A thread whose access is out of
its space or misaligned takes its trap and starts none, while the others start theirs. Under relaxed and release order the unit
goes on; an acquiring order suspends it after the word until the atomics are done, where any was started. An atomic that is
performed at a home slice or in a window answers with the bytes that stood there, and leaves in their place those of Table 5.4,
or, for CAS, c where the old value equals b. That an access both out of its space and misaligned takes SPACE_RANGE is the
model's choice (assumption log 21). -/
def Obligations.AtomicsIssue : Prop :=
  (∀ (gd : BitVec 4) (d a : BitVec 6) (sp : BitVec 2) (b c : BitVec 6) (op : BitVec 4) (w : BitVec 1) (scope : BitVec 3)
      (order : BitVec 2) (noret : BitVec 1) (off : BitVec 14) (i : Instr) (s : State) (t : Site) (bl : Block)
      (act : BitVec 32),
    let n := if w = 1 then 8 else 4
    let base (l : Nat) : Nat := if sp = 0 then (pairV (threadOf (t.g s) l) a.toNat).toNat
      else if sp = 3 then (opK (t.g s) a).toNat else (opV (threadOf (t.g s) l) a).toNat
    let address (l : Nat) : Int := base l + off.toInt
    let acc (l : Nat) : Access :=
      { lanes := laneBit l, space := sp.toNat, va := BitVec.ofInt 64 (address l), size := n,
        key := (threadOf (t.g s) l).spx }
    let raised (l : Nat) : Option Trap := accessTrap s bl sp.toNat (address l) n
    let result : List RegRef := if w = 1 then [.v d.toNat, .v (d.toNat + 1)] else [.v d.toNat]
    let started (lanes : List Nat) : State :=
      let operand (r : BitVec 6) : Table Dword := operandTable (t.g s) lanes r w
      if i = .cas gd d a sp b c w scope order off then
        startIn s t lanes result .ld (.atomic 14 (w == 1) (some d.toNat) (operand b) (operand c) scope.toNat) (lanes.map acc)
      else
        startIn s t lanes (if noret = 1 then [] else result) (if noret = 1 then .st else .ld)
          (.atomic op.toNat (w == 1) (if noret = 1 then none else some d.toNat) (operand b) [] scope.toNat) (lanes.map acc)
    let acquiring : Prop := order = 1 ∨ order = 3
    (i = .atom gd d a sp b op w scope order noret off ∨ i = .cas gd d a sp b c w scope order off) → Issues i s t bl act →
      ((∀ l ∈ lanesOf act, raised l = none) →
        (¬ acquiring → exec i s = .next (wentOn t 2 (started (lanesOf act)))) ∧
        (acquiring → exec i s = .next (wentOnWaiting t 2 (.acquire [s.nextId] scope.toNat) (started (lanesOf act))))) ∧
      ((∃ l ∈ lanesOf act, raised l ≠ none) →
        let lanes := (lanesOf act).filter (fun l => raised l == none)
        exec i s = .next (trapsSomeWaiting t 2
          (if acquiring ∧ lanes ≠ [] then .acquire [s.nextId] scope.toNat else .none) (started lanes)
          (ownTraps t act raised)))) ∧
  (∀ (op : Nat) (old : List Byte) (b c : Dword),
    let value (n : Nat) (x y z : BitVec n) : BitVec n :=
      match op with
      | 0 => BitVec.ofNat n (x.toNat + y.toNat)
      | 1 => if x.toInt ≤ y.toInt then x else y
      | 2 => if x.toInt ≤ y.toInt then y else x
      | 3 => if x.toNat ≤ y.toNat then x else y
      | 4 => if x.toNat ≤ y.toNat then y else x
      | 5 => x &&& y
      | 6 => x ||| y
      | 7 => x ^^^ y
      | 8 => y
      | _ => if x = y then z else x
    let narrow (f : Word → Word → Nat) : Prop :=
      atomBytes op false old b c = natBytes 4 (f (BitVec.ofNat 32 (leNat old)) (lo32 b))
    (op ≤ 8 ∨ op = 14 →
      narrow (fun x y => (value 32 x y (lo32 c)).toNat) ∧
      atomBytes op true old b c = natBytes 8 (value 64 (BitVec.ofNat 64 (leNat old)) b c).toNat) ∧
    (op = 9 → narrow (fun x y => if y.toNat ≤ x.toNat then 0 else x.toNat + 1)) ∧
    (op = 10 → narrow (fun x y => if x.toNat = 0 ∨ y.toNat < x.toNat then y.toNat else x.toNat - 1)) ∧
    (op = 11 → narrow (fun x y =>
      convert fp32 (addVal (decodeF fp32 x.toNat) (decodeF fp32 y.toNat) 0) 0 false false % 2 ^ 32)) ∧
    (op = 12 → narrow (fun x y => minNum fp32 x.toNat y.toNat % 2 ^ 32)) ∧
    (op = 13 → narrow (fun x y => maxNum fp32 x.toNat y.toNat % 2 ^ 32))) ∧
  (∀ (s s' : State) (pa who op : Nat) (wide : Bool) (b c : Dword) (old : List Byte),
    let n := if wide then 8 else 4
    (atomHome s pa who op wide b c = (.bytes old, s') →
      (∀ k, k < n → old[k]? = some (tget 0 s.mem (pa + k))) ∧ ∀ x, tget 0 s'.mem x =
        if pa ≤ x ∧ x < pa + n then (atomBytes op wide old b c).getD (x - pa) 0 else tget 0 s.mem x) ∧
    (∀ (id : Nat) (bl : Block) (o : Nat), getBlock s id = some bl →
      atomWindow s id bl (.lstore o) op wide b c = (.bytes old, s') →
      (∀ k, k < n → old[k]? = some (tget 0 bl.lstore (o + k))) ∧ ∃ bl', getBlock s' id = some bl' ∧
        ∀ x, tget 0 bl'.lstore x =
          if o ≤ x ∧ x < o + n then (atomBytes op wide old b c).getD (x - o) 0 else tget 0 bl.lstore x))

/-- R145, R146, R148: what WAIT, FENCE, PF and the four CMAINT words do once they issue: WAIT and a release change nothing
besides; an acquire of a scope above the gang empties the core's L1 but for read-only lines, and one of device scope or above
advances the cluster's generation; drop.l1 empties the same lines; clean.l2 and flush.l2 start the write-back of their lines,
which counts on st; drop.l2 drops its lines and raises PROTECTION once, for the first line whose page denies writing, and stands
at the word while a line's walk waits; PF prefetches the lines of the threads whose address is a multiple of 128, under an
identity of its own. That PF drops the other threads' lines, that CMAINT skips a line outside the generic space, that drop.l2
skips a line of a tier that no L2 holds before it looks at its permission, and that lines of a page that a window owns are written
back and dropped like any other, are the model's choices (assumption logs 91, 90, 92 and 89). -/
def Obligations.FenceAndCacheWords : Prop :=
  (∀ (gd : BitVec 4) (ctr : BitVec 3) (thr : BitVec 6), GivesState (.wait gd ctr thr) (fun s _ _ _ => s)) ∧
  (∀ (gd : BitVec 4) (scope : BitVec 3) (kind : BitVec 2), GivesState (.fence gd scope kind) (fun s t _ _ =>
    let s := if kind ≠ 1 ∧ 1 ≤ scope.toNat then l1Invalidate s t.core else s
    if kind ≠ 1 ∧ 3 ≤ scope.toNat then advanceGeneration s (t.core / 8) else s)) ∧
  (∀ (gd : BitVec 4), GivesState (.cmaintDropL1 gd) (fun s t _ _ => l1Invalidate s t.core)) ∧
  (∀ (gd : BitVec 4) (lvl : BitVec 2) (a lines : BitVec 6), GivesState (.pf gd lvl a lines) (fun s t b act =>
    let g := gangOf b t.gang
    let wanted := (lanesOf act).filter (fun l => decide (128 ∣ (pairV (threadOf g l) a.toNat).toNat))
    askAs ((wanted.flatMap (fun l => lineAddresses g l a lines)).foldl
      (fun s va => prefetchLine s t.core b.ctx lvl.toNat va) (askAs (freshId s).2 (.access s.nextId 0))) s.asker)) ∧
  (∀ (gd : BitVec 4) (a lines : BitVec 6),
    let accs (g : Gang) (act : BitVec 32) : List Access :=
      ((lanesOf act).flatMap (fun l => (lineAddresses g l a lines).map (fun va => (l, va)))).filterMap (fun e =>
        if lineIsVirtual e.2 then some { lanes := laneBit e.1, space := 0, va := BitVec.ofNat 64 e.2, size := 128 }
        else none)
    GivesState (.cmaintCleanL2 gd a lines) (fun s t _ act =>
      startOp s t (lanesOf act) [] (some .st) (.writeBack false) (accs (t.g s) act)) ∧
    GivesState (.cmaintFlushL2 gd a lines) (fun s t _ act =>
      startOp s t (lanesOf act) [] (some .st) (.writeBack true) (accs (t.g s) act))) ∧
  (∀ (gd : BitVec 4) (a lines : BitVec 6) (s : State) (t : Site) (b : Block) (act : BitVec 32) (s' : State),
    Issues (.cmaintDropL2 gd a lines) s t b act →
    let all := (lanesOf act).flatMap (fun l => (lineAddresses (gangOf b t.gang) l a lines).map (fun va => (l, va)))
    (dropLines s t.core b.ctx all = (none, false, s') →
      exec (.cmaintDropL2 gd a lines) s = .next (wentOn t 1 s')) ∧
    (∀ l va, dropLines s t.core b.ctx all = (some (l, va), false, s') →
      exec (.cmaintDropL2 gd a lines) s = .next (wentOn t 1 (defer s' t.blk t.gang l
        { cause := 9, tpc := none, aux0 := lo32 (BitVec.ofNat 64 va), aux1 := hi32 (BitVec.ofNat 64 va), aux2 := 0,
          aux3 := 0x200 }))) ∧
    (∀ d, dropLines s t.core b.ctx all = (d, true, s') →
      exec (.cmaintDropL2 gd a lines) s = .next (endRun (makeMove t s' { lanes := t.unit.lanes, pc := t.unit.pc }) t.core))) ∧
  (∀ (s s' : State) (core ctx va : Nat) (l : Leaf), lineIsVirtual va = true →
    translate s (core / 8) ctx va = (.leaf l, s') →
    (inL2 l = true → l.w = false → dropLine s core ctx va = (.denied, s')) ∧
    (inL2 l = false → dropLine s core ctx va = (.done, s')) ∧
    (inL2 l = true → l.w = true →
      (l2Find s' (core / 8) (physical l va) = none → dropLine s core ctx va = (.done, s')) ∧
      (∀ bank line, l2Find s' (core / 8) (physical l va) = some (bank, line) →
        dropLine s core ctx va = (.done, setL2 s' (core / 8) bank (l2Set (physical l va)) none))))

/-- R151 to R162, R7, R133: LDP, LDPR and STP start their plane operation where the plane operand is in order and every word that
it names, at its exact address, lies in the generic space, those of the planes wanted among them (that a plane wanted and not
stored counts is the model's choice, assumption log 93); the first that does not, the head before the planes in rising order,
raises SPACE_RANGE in every active thread. QUNP gives each lane's element in the type asked for, QPK encodes the active threads' values, QTAG reads and writes the tag,
clearing the magnitude bits above the planes held. -/
def Obligations.PlaneWords : Prop :=
  (∀ (gd q : BitVec 4) (kq : BitVec 6) (n : BitVec 4) (pd : BitVec 3) (s : State) (t : Site) (b : Block) (act : BitVec 32),
    let p := planeOperand (t.g s) kq
    let headAt : Nat := p.base.toNat + 2 * p.blk
    let head : Access := { lanes := act, space := 0, va := BitVec.ofNat 64 headAt, size := 2, wr := none,
                           key := (threadOf (t.g s) (lowest act)).spx }
    let held := ((qReg (t.g s) q.toNat).tag.extractLsb' 12 4).toNat
    let after (i : Instr) (refine : Bool) : Prop :=
      Issues i s t b act → planeOperandTrap p = none → accessTrap s b 0 headAt 2 = none →
        (∀ k : Nat, k ≤ n.toNat → (refine = true → held < k) →
          accessTrap s b 0 (p.base.toNat + (k + 1) * p.stride + 4 * p.blk : Nat) 4 = none) →
        exec i s = .next (wentOn t i.words (startOp s t (lanesOf act) [.q q.toNat, .p pd.toNat] (some .ld)
          (.planeLoad refine q.toNat pd.toNat n.toNat act p.base p.blk p.stride) [head]))
    after (.ldp gd q kq n pd) false ∧ after (.ldpr gd q kq n pd) true) ∧
  (∀ (gd q : BitVec 4) (kq : BitVec 6) (s : State) (t : Site) (b : Block) (act : BitVec 32),
    let p := planeOperand (t.g s) kq
    let x := qReg (t.g s) q.toNat
    let key := (threadOf (t.g s) (lowest act)).spx
    let headAt : Nat := p.base.toNat + 2 * p.blk
    let wordAt (k : Nat) : Nat := p.base.toNat + (k + 1) * p.stride + 4 * p.blk
    let held := (x.tag.extractLsb' 12 4).toNat
    let word (k : Nat) : Access :=
      { lanes := act, space := 0, va := BitVec.ofNat 64 (wordAt k), size := 4,
        wr := some (natBytes 4 (maskWhere (fun l => (tget 0 x.lanes l).getLsbD (15 - k))).toNat), key := key }
    let accs : List Access :=
      { lanes := act, space := 0, va := BitVec.ofNat 64 headAt, size := 2, wr := some [], key := key } ::
        (List.range (held + 1)).map word
    Issues (.stp gd q kq) s t b act → planeOperandTrap p = none → accessTrap s b 0 headAt 2 = none →
      (∀ k, k ≤ held → accessTrap s b 0 (wordAt k) 4 = none) →
      exec (.stp gd q kq) s = .next (wentOn t 1 (startOp s t (lanesOf act) [] (some .st) (.planeStore x.tag) accs))) ∧
  (∀ (gd : BitVec 4) (d : BitVec 6) (q : BitVec 4) (mid : BitVec 1) (ty : BitVec 3),
    GivesV (.qunp gd d q mid ty) d (fun g l x =>
      let r := qReg g q.toNat
      let e := tget 0 r.lanes l
      unpackValue ty.toNat (fpMode x) (planeValue (r.tag.toNat % 2 ^ 16) e.msb (e.toNat % 2 ^ 15)
        (r.tag.extractLsb' 12 4).toNat (mid == 1)))) ∧
  (∀ (gd : BitVec 4) (d : BitVec 6) (q : BitVec 4),
    GivesV (.qtagGet gd d q) d (fun g _ _ => BitVec.ofNat 32 (qReg g q.toNat).tag.toNat)) ∧
  (∀ (gd q : BitVec 4) (a : BitVec 6) (n : BitVec 4) (mode : BitVec 1) (ty : BitVec 2),
    GivesGang (.qpk gd q a n mode ty) (fun g act =>
      let xs := lanes32.map (fun l =>
        if act.getLsbD l then packValue ty.toNat (opV (threadOf g l) a) else .fin (zeroOf false))
      let e := pbEncode xs n.toNat (mode == 1)
      writeQ g q.toNat
        (lanes32.foldl (fun t l =>
          tset 0 t l (BitVec.ofNat 16 ((if e.2.2.1.getD l false then 2 ^ 15 else 0) + e.2.2.2.getD l 0))) [])
        (BitVec.ofNat 20 ((qReg g q.toNat).tag.toNat / 2 ^ 16 % 16 * 2 ^ 16 + e.1 * 2 ^ 12 + e.1 * 2 ^ 8 + e.2.1))
        ((lanesOf act).any (fun l => (vReg (threadOf g l) a.toNat).poison)))) ∧
  (∀ (gd : BitVec 4) (d : BitVec 6) (q : BitVec 4) (s : State) (t : Site) (b : Block) (act : BitVec 32),
    let src := vReg (threadOf (t.g s) (lowest act)) d.toNat
    let held := (src.val.extractLsb' 12 4).toNat
    Issues (.qtagSet gd d q) s t b act → held ≤ (src.val.extractLsb' 8 4).toNat →
      exec (.qtagSet gd d q) s = .next (wentOn t 1 (modGang s t.blk t.gang (fun g =>
        let old := qReg g q.toNat
        writeQ g q.toNat
          (lanes32.foldl (fun t l =>
            let x := (tget 0 old.lanes l).toNat
            tset 0 t l (BitVec.ofNat 16 (x / 2 ^ 15 % 2 * 2 ^ 15 + planesHeld (x % 2 ^ 15) held))) [])
          (src.val.extractLsb' 0 20) (old.poison || src.poison))))) ∧
  (∀ (gd : BitVec 4) (d : BitVec 6) (q : BitVec 4) (s : State) (t : Site) (b : Block) (act : BitVec 32),
    let tag := (vReg (threadOf (t.g s) (lowest act)) d.toNat).val
    Issues (.qtagSet gd d q) s t b act → (tag.extractLsb' 8 4).toNat < (tag.extractLsb' 12 4).toNat →
      exec (.qtagSet gd d q) s = .next (trapsAll t 1 s act (t.trap { cause := 0x17, aux0 := 4 }))) ∧
  (∀ (gd q : BitVec 4) (kq : BitVec 6) (n : BitVec 4) (pd : BitVec 3) (s : State) (t : Site) (b : Block) (act : BitVec 32)
      (i : Instr),
    let p := planeOperand (t.g s) kq
    (i = .ldp gd q kq n pd ∨ i = .ldpr gd q kq n pd ∨ i = .stp gd q kq) → Issues i s t b act →
      (p.base.toNat % 256 ≠ 0 →
        exec i s = .next (trapsAll t 1 s act (t.trap { cause := 0x17, aux0 := 1, aux1 := BitVec.ofNat 32 p.blk }))) ∧
      (p.base.toNat % 256 = 0 → (p.stride = 0 ∨ p.stride % 256 ≠ 0) →
        exec i s = .next (trapsAll t 1 s act (t.trap { cause := 0x17, aux0 := 2, aux1 := BitVec.ofNat 32 p.blk }))) ∧
      (p.base.toNat % 256 = 0 → p.stride ≠ 0 → p.stride % 256 = 0 → p.base.toNat / 2 ^ 40 = 0xFF0000 →
        exec i s = .next (trapsAll t 1 s act (t.trap { cause := 0x17, aux0 := 3, aux1 := BitVec.ofNat 32 p.blk }))) ∧
      (planeOperandTrap p = none →
        let held := ((qReg (t.g s) q.toNat).tag.extractLsb' 12 4).toNat
        let headAt : Nat := p.base.toNat + 2 * p.blk
        let wordAt (k : Nat) : Nat := p.base.toNat + (k + 1) * p.stride + 4 * p.blk
        let named (k : Nat) : Prop := if i = .stp gd q kq then k ≤ held
          else k ≤ n.toNat ∧ (i = .ldpr gd q kq n pd → held < k)
        (∀ x, accessTrap s b 0 headAt 2 = some x → exec i s = .next (trapsAll t 1 s act (t.trap x))) ∧
        (∀ k x, accessTrap s b 0 headAt 2 = none → named k → accessTrap s b 0 (wordAt k) 4 = some x →
          (∀ m, m < k → named m → accessTrap s b 0 (wordAt m) 4 = none) →
          exec i s = .next (trapsAll t 1 s act (t.trap x)))))

/-! ### Joins, divergence and transfers (spec/04 4.8 to 4.10) -/

/-- R122 to R124, Table 4.3: JINIT sets the membership unless a signature stands in the phase, when it raises JOIN_STATE with
reason 4; JSIGN returns the phase before the event and signs, but in a thread that is no member (reason 2), that has signed in
this phase (reason 3) or whose kind is not the phase's (reason 5); JWAIT goes on where its phase has passed, and raises
reason 6 at an idle register in the threads whose value is its phase, whatever the others hold; JLEAVE makes its threads
leave. -/
def Obligations.JoinWords : Prop :=
  ∀ (gd : BitVec 4) (d a j : BitVec 6) (s : State) (t : Site) (b : Block) (act : BitVec 32),
    let x := tget ({} : JoinReg) b.joins j.toNat
    let state (reason : Word) : Trap :=
      t.trap { cause := 0x0C, aux0 := BitVec.ofNat 32 j.toNat, aux1 := reason, aux2 := x.phase.setWidth 32 }
    let ms := (threadRefs b).filter (fun m =>
      decide (m.1 < 16) && (kReg (t.g s) (a.toNat + 1)).val.getLsbD m.1 && (opK (t.g s) a).getLsbD m.2 &&
        (threadOf (gangOf b m.1) m.2).cond == .live)
    (Issues (.jinit gd a j) s t b act →
      (¬ (x.armed = true ∧ x.signed ≠ []) → exec (.jinit gd a j) s = .next (wentOn t 1
        (modJoin s t.blk j.toNat (fun x => { armed := ms != [], members := ms, phase := x.phase })))) ∧
      (x.armed = true ∧ x.signed ≠ [] → exec (.jinit gd a j) s = .next (trapsAll t 1 s act (state 4)))) ∧
    (Issues (.jsign gd d j) s t b act →
      let wrong (l : Nat) : Option Word :=
        if x.armed = false ∨ (t.gang, l) ∉ x.members then some 2
        else if (t.gang, l) ∈ x.signed then some 3
        else if x.kind ≠ .none ∧ x.kind ≠ .plain then some 5
        else none
      let signed (lanes : List Nat) : State := signLanes
        (modGang s t.blk t.gang (fun g => lanes.foldl (fun g l =>
          modThreadOf g l (fun y => writeV y d.toNat (x.phase.setWidth 32) false)) g))
        t j.toNat .plain lanes (fun l => { who := (t.gang, l) })
      ((∀ l ∈ lanesOf act, wrong l = none) → exec (.jsign gd d j) s = .next (wentOn t 1 (signed (lanesOf act)))) ∧
      ((∃ l ∈ lanesOf act, wrong l ≠ none) → exec (.jsign gd d j) s = .next (trapsSome t 1
        (signed ((lanesOf act).filter (fun l => (wrong l).isNone)))
        ((lanesOf act).filterMap (fun l => (wrong l).map (fun r => (l, state r))))))) ∧
    (Issues (.jwait gd a j) s t b act →
      let stuck (l : Nat) : Bool := !x.armed && (opV (threadOf (t.g s) l) a).setWidth 16 == x.phase
      ((∀ l ∈ lanesOf act, stuck l = false) → exec (.jwait gd a j) s = .next (wentOn t 1 s)) ∧
      ((∃ l ∈ lanesOf act, stuck l = true) → exec (.jwait gd a j) s =
        .next (trapsSome t 1 s (((lanesOf act).filter stuck).map (fun l => (l, state 6)))))) ∧
    (Issues (.jleave gd j) s t b act →
      exec (.jleave gd j) s = .next (wentOn t 1 (leaveJoin s t.core t.blk j.toNat t.gang act)))

/-- R116, R122: the transitions of a join register by plain signatures and by leaving: the last member's signature completes the
phase, which advances by one modulo 2^16 and starts without signatures; any other signature is added. Of the threads that leave,
a member that has not signed leaves at once, and one that has signed leaves with the phase: where none is left the register is
idle, with its phase; where those left have all signed the phase completes; else the phase and its signatures stand. A thread that
is no member changes nothing. No other join register, no other block, and, where no command is signed there, no thread changes.
An exiting thread is ended, and leaves each join register as JLEAVE does. That a register whose last members leave with the
phase becomes idle is the model's choice (assumption log 101). -/
def Obligations.JoinPhases : Prop :=
  ∀ (s : State) (t : Site) (b : Block) (j : Nat), getBlock s t.blk = some b →
    let x := getJoin s t.blk j
    (∀ (lanes : List Nat) (mk : Nat → Signer), lanes ≠ [] →
      let signed := x.signed ++ lanes.map (fun l => (t.gang, l))
      let y := getJoin (signLanes s t j .plain lanes mk) t.blk j
      (x.armed = true → x.members ≠ [] → (∀ m ∈ x.members, m ∈ signed) →
        y.phase = x.phase + 1 ∧ y.signed = [] ∧ y.kind = .none ∧
        y.members = x.members.filter (fun m => decide (m ∉ x.leaving)) ∧ y.armed = decide (y.members ≠ [])) ∧
      ((∃ m ∈ x.members, m ∉ signed) → y.phase = x.phase ∧ y.signed = signed ∧ y.kind = .plain ∧ y.members = x.members)) ∧
    (∀ act, (∀ m ∈ x.members, m.1 = t.gang → act.getLsbD m.2 = false) → leaveJoin s t.core t.blk j t.gang act = s) ∧
    (∀ act, x.armed = true →
      let goes (m : ThreadRef) : Bool := m.1 == t.gang && act.getLsbD m.2
      let away := x.members.filter (fun m => goes m && !x.signed.contains m)
      let left := x.members.filter (fun m => !goes m || x.signed.contains m)
      let leaving (m : ThreadRef) : Bool := x.leaving.contains m || (goes m && x.members.contains m && x.signed.contains m)
      let u := leaveJoin s t.core t.blk j t.gang act
      let y := getJoin u t.blk j
      (away ≠ [] → left = [] → y.armed = false ∧ y.members = [] ∧ y.phase = x.phase) ∧
      (away ≠ [] → left ≠ [] → (∀ m ∈ left, m ∈ x.signed) →
        y.phase = x.phase + 1 ∧ y.signed = [] ∧ y.kind = .none ∧ y.members = left.filter (fun m => !leaving m) ∧
        y.armed = decide (y.members ≠ [])) ∧
      (left ≠ [] → (away = [] ∨ ∃ m ∈ left, m ∉ x.signed) →
        y.armed = true ∧ y.phase = x.phase ∧ y.signed = x.signed ∧ y.kind = x.kind ∧ y.members = left ∧
        (∀ m, goes m = true → m ∈ x.members → (m ∈ y.leaving ↔ leaving m = true))) ∧
      ((x.kind = .none ∨ x.kind = .plain) → (∀ z ∈ x.signers, z.vlock = [] ∧ z.klock = []) →
        (∀ k, k ≠ j → getJoin u t.blk k = getJoin s t.blk k) ∧ (∀ n, n ≠ t.blk → getBlock u n = getBlock s n) ∧
        ∀ g l, getThread u t.blk g l = getThread s t.blk g l)) ∧
    (∀ act, t.gang < b.gangs.length → j < 8 →
      let u := exitLanes s t.core t.blk t.gang act
      (∀ l ∈ lanesOf act, (getThread u t.blk t.gang l).cond = .exited ∧ (getThread u t.blk t.gang l).handler = false) ∧
      getJoin u t.blk j = getJoin (leaveJoin s t.core t.blk j t.gang act) t.blk j)

/-- R119, R120, R125: GSPLIT writes the mask of its threads and parts them by their predicate, at the next clause; at GJOIN each
thread whose own bit is set in its mask waits at the word with the threads of an equal mask, and complete merge sets go on; a
thread whose own bit is clear raises JOIN_STATE with reason 7 and its mask, and the others wait as before. That threads of one
unit with different masks part is the model's choice (assumption log 29). -/
def Obligations.DivergenceWords : Prop :=
  (∀ (gd : BitVec 4) (d a : BitVec 6) (inv : BitVec 1) (s : State) (t : Site) (b : Block) (act : BitVec 32),
    let p (l : Nat) : Pred := pReg (threadOf (t.g s) l) a.toNat
    let yes := maskWhere (fun l => act.getLsbD l && Bool.xor (p l).val (inv == 1))
    Issues (.gsplit gd d a inv) s t b act → (∀ l ∈ lanesOf act, (p l).poison = false) →
      exec (.gsplit gd d a inv) s = .next (parted t
        (modGang s t.blk t.gang (fun g => (lanesOf act).foldl (fun g l =>
          modThreadOf g l (fun x => writeV x d.toNat act false)) g))
        [yes, act &&& ~~~yes] (t.after 1))) ∧
  (∀ (gd : BitVec 4) (a : BitVec 6) (s : State) (t : Site) (b : Block) (act : BitVec 32),
    let mask (l : Nat) : Word := opV (threadOf (t.g s) l) a
    let masks := ((lanesOf act).map mask).eraseDups
    Issues (.gjoin gd a) s t b act → (∀ l ∈ lanesOf act, (mask l).getLsbD l = true) →
      exec (.gjoin gd a) s = .next (settleMerges (endRun
        ((masks.filter (fun m => maskWhere (fun l => act.getLsbD l && mask l == m) != 0)).foldl (fun s m =>
          makeMove t s { lanes := maskWhere (fun l => act.getLsbD l && mask l == m), pc := t.unit.pc, wait := .gjoin m }) s)
        t.core) t.blk t.gang)) ∧
  (∀ (gd : BitVec 4) (a : BitVec 6) (s : State) (t : Site) (b : Block) (act : BitVec 32),
    let mask (l : Nat) : Word := opV (threadOf (t.g s) l) a
    let own := (lanesOf act).filter (fun l => (mask l).getLsbD l)
    let astray := (lanesOf act).filter (fun l => !(mask l).getLsbD l)
    Issues (.gjoin gd a) s t b act → astray ≠ [] →
      exec (.gjoin gd a) s = .next (settleMerges (finish t
        { st := s
          traps := astray.map (fun l => (l, t.trap { cause := 0x0C, aux0 := 0xFF, aux1 := 7, aux2 := mask l }))
          moves := (own.map mask).eraseDups.map (fun m =>
            { lanes := maskWhere (fun l => own.contains l && mask l == m), pc := t.unit.pc, wait := .gjoin m }) })
        t.blk t.gang))

/-- R88, R89, R113 to R115: a transfer whose guard holds in every thread of its unit, whose target is one for all of them and
passes the checks of R89, takes the unit to the clause at the target; CALL writes v62:v63 first. A guard that holds in some
threads only raises NONUNIFORM_BRANCH in all of them, with both masks, and a target that fails raises BAD_TARGET. That CALL
writes its registers even where its target then fails is the model's choice (assumption log 30). -/
def Obligations.TransferWords : Prop :=
  ∀ (gd : BitVec 4) (off : BitVec 22) (d : BitVec 6) (cls : BitVec 1) (i : Instr) (s : State) (t : Site) (b : Block)
      (act : BitVec 32),
    let relative : Dword := BitVec.ofNat 64 (codeVa t.hdrAddr) + BitVec.ofInt 64 (4 * off.toInt)
    let target (l : Nat) : Dword :=
      match i with
      | .ret _ _ => pairV (threadOf (t.g s) l) d.toNat
      | .jmpi _ _ _ => if cls = 1 then pairK (t.g s) d.toNat else pairV (threadOf (t.g s) l) d.toNat
      | _ => relative
    let s' : State :=
      match i with
      | .call _ _ => modGang s t.blk t.gang (fun g => (lanesOf act).foldl (fun g l => modThreadOf g l (fun x =>
          writePair x 62 (BitVec.ofNat 64 (codeVa (t.hdrAddr + 4 * (hdrCount t.hdr + 1)))) false)) g)
      | _ => s
    i = .bru gd off ∨ i = .jmp gd off ∨ i = .call gd off ∨ i = .ret gd d ∨ i = .jmpi gd d cls →
    Issues i s t b act →
      (act ≠ t.unit.lanes →
        exec i s = .next (trapsAll t 1 s t.unit.lanes (t.trap { cause := 3, aux0 := act, aux1 := t.unit.lanes }))) ∧
      (act = t.unit.lanes → (∃ l ∈ lanesOf act, target l ≠ target (lowest act)) →
        exec i s = .next (trapsAll t 1 s act (t.trap
          { cause := 3, aux0 := maskWhere (fun l => act.getLsbD l && target l == target (lowest act)), aux1 := act }))) ∧
      (act = t.unit.lanes → (∀ l ∈ lanesOf act, target l = target (lowest act)) →
        (targetFault s' t.core t.blk b.launch b.ctx (target (lowest act)) 15 = none →
          exec i s = .next (transferred t s' (resumeAt (target (lowest act)).toNat 15) (target (lowest act)))) ∧
        (∀ r, targetFault s' t.core t.blk b.launch b.ctx (target (lowest act)) 15 = some r →
          exec i s = .next (trapsAll t 1 s' act (t.trap
            { cause := 2, aux0 := lo32 (target (lowest act)), aux1 := hi32 (target (lowest act)),
              aux2 := BitVec.ofNat 32 r }))))

/-- R10, R116 to R118, R248: EXIT ends its active threads, which leave every join register and every merge set, and the
others go on at the next clause; BRK and TRAP raise their cause with the immediate, to return after the word; YIELD ends the
run and changes nothing else; HALT freezes the context with reason 0x05 and its code, and its unit stops after the word. -/
def Obligations.EndingWords : Prop :=
  ∀ (gd : BitVec 4) (imm : BitVec 18) (s : State) (t : Site) (b : Block) (act : BitVec 32),
    (Issues (.exit gd) s t b act →
      exec (.exit gd) s = .next (settleMerges
        (parted t (exitLanes s t.core t.blk t.gang act) [t.unit.lanes &&& ~~~act] (t.after 1)) t.blk t.gang)) ∧
    (Issues (.brk gd imm) s t b act → exec (.brk gd imm) s = .next (trapsAll t 1 s act
      { cause := 0x12, tpc := some (t.after 1), aux0 := BitVec.ofNat 32 imm.toNat })) ∧
    (Issues (.trap gd imm) s t b act → exec (.trap gd imm) s = .next (trapsAll t 1 s act
      { cause := 0x13, tpc := some (t.after 1), aux0 := BitVec.ofNat 32 imm.toNat })) ∧
    (Issues (.yield gd) s t b act → exec (.yield gd) s = .next (wentOnEnding t 1 s)) ∧
    (Issues (.halt gd imm) s t b act → exec (.halt gd imm) s = .next (wentOnWaiting t 1 .halted
      (freezeCtx s b.ctx 5 (placeBits b t.gang (lowest act) 0) (t.after 1) (BitVec.ofNat 64 imm.toNat) 0)))

/-! ### Modular arithmetic and the network (spec/07 7.1, 7.2) -/

/-- R67: barrett is what the pseudocode gives for any constant; and with the correct constant of an odd modulus in range, which
lies below 2^(n + 1), and x below 2^(2n), its t is floor(x / q) or one less and its result is x mod q; products and sums of
reduced operands meet that bound. -/
def Obligations.BarrettIsRemainder : Prop :=
  (∀ x q c : Nat, 3 ≤ q →
    let t := x * c / 2 ^ (2 * (Nat.log2 q + 1))
    let rem : Int := (x : Int) - (t * q : Nat)
    barrett x q c = BitVec.ofInt 64 (if (q : Int) ≤ rem then rem - q else rem)) ∧
  (∀ q : Nat, q % 2 = 1 → 3 ≤ q → q < 2 ^ 62 →
    let n := Nat.log2 q + 1
    let c := 2 ^ (2 * n) / q
    c < 2 ^ (n + 1) ∧ q * (q + 1) < 2 ^ (2 * n) ∧ ∀ x, x < 2 ^ (2 * n) →
      (x * c / 2 ^ (2 * n) = x / q ∨ x * c / 2 ^ (2 * n) + 1 = x / q) ∧ (barrett x q c).toNat = x % q)

/-- R215, R216, R218: each modular word gives its pairs what B leaves of the sums and products of the operands, in the threads
whose slot is set; a thread whose slot is unset takes MODULUS_UNSET with the word and the slot, and keeps its pairs; MODSET sets
a slot, or unsets it for a modulus that is even or out of range. That MODSET drops the poison of its sources is the model's
choice (assumption log 44). -/
def Obligations.ModularWords : Prop :=
  ∀ (gd : BitVec 4) (d a b : BitVec 5) (slot : BitVec 2),
    let at' (x : Thread) (r : BitVec 5) : Nat := (pairV x (2 * r.toNat)).toNat
    let gives (i : Instr) (f : (Nat → Nat) → Nat → Thread → List (BitVec 5 × Nat)) : Prop :=
      GivesUnless i (fun t g _ l => if modulusOf (threadOf g l) slot.toNat = none
          then some { cause := 0x11, aux0 := t.w, aux1 := BitVec.ofNat 32 slot.toNat } else none) (fun _ g l x =>
        match modulusOf x slot.toNat with
        | some m => (f (fun z => (barrett z m.q.toNat m.c.toNat).toNat) m.q.toNat x).foldl
            (fun y r => writePair y (2 * r.1.toNat) (BitVec.ofNat 64 r.2) (anyPoison g l (sources i))) x
        | none => x)
    gives (.maddm gd d a b slot) (fun B _ x => [(d, B (at' x a + at' x b))]) ∧
    gives (.msubm gd d a b slot) (fun B q x => [(d, B ((at' x a + q + (2 ^ 64 - at' x b)) % 2 ^ 64))]) ∧
    gives (.mnegm gd d b slot) (fun B q x => [(d, B ((q + (2 ^ 64 - at' x b)) % 2 ^ 64))]) ∧
    gives (.mmulm gd d a b slot) (fun B _ x => [(d, B (at' x a * at' x b))]) ∧
    gives (.mmacm gd d a b slot) (fun B _ x => [(d, B (at' x a * at' x b + at' x d))]) ∧
    gives (.mredm gd d b slot) (fun B _ x => [(d, B (at' x b))]) ∧
    gives (.bflyct gd d a b slot) (fun B q x =>
      let t := B (at' x b * at' x a)
      [(d, B (at' x d + t)), (a, B ((at' x d + q + (2 ^ 64 - t)) % 2 ^ 64))]) ∧
    gives (.bflygs gd d a b slot) (fun B q x =>
      let t := B ((at' x d + q + (2 ^ 64 - at' x a)) % 2 ^ 64)
      [(d, B (at' x d + at' x a)), (a, B (t * at' x b))]) ∧
    (∀ (va vb : BitVec 6) (auto : BitVec 1), GivesThread (.modset gd va vb slot auto) (fun _ _ _ x =>
      let q := pairV x va.toNat
      let n := Nat.log2 q.toNat + 1
      let c := if auto = 1 then BitVec.ofNat 64 (2 ^ (2 * n) / q.toNat) else pairV x vb.toNat
      let m : Option Modulus := if q.toNat % 2 = 0 ∨ q.toNat < 3 ∨ 2 ^ 62 ≤ q.toNat then none else some { q := q, c := c }
      { x with mods := tset none x.mods slot.toNat m }))

/-- R219 to R222: NPERM and NREV give each participant the pair of the lane that they name, 0 where that lane takes no part;
NAUTO gives each participant its coefficients of the image of the polynomial under X to X^g, and takes MODULUS_UNSET in a thread
whose slot is unset, which is then no participant: the coefficient i goes to place i times g modulo N, negated in its own lane's
slot where i times g modulo 2N is N or more. That the coefficients of lanes that take no part are 0, and that a pair is poisoned
by either half, are the model's choices (assumption logs 41 and 42). -/
def Obligations.NetworkWords : Prop :=
  (∀ (gd : BitVec 4) (d a : BitVec 6) (sh : BitVec 3),
    let from' (g : Gang) (act : BitVec 32) (a l : Nat) : Dword × Bool :=
      if l ∈ lanesOf act then (pairV (threadOf g l) a, (vReg (threadOf g l) a).poison || (vReg (threadOf g l) (a + 1)).poison)
      else (0, false)
    let put (x : Thread) (d : Nat) (v : Dword × Bool) : Thread := writePair x d v.1 v.2
    (sh.toNat < 5 →
      GivesThread (.nperm gd d a sh 0) (fun act g l x => put x d.toNat (from' g act a.toNat (l ^^^ 2 ^ sh.toNat))) ∧
      GivesThread (.nperm gd d a sh 1) (fun act g l x =>
        put (put x d.toNat (from' g act a.toNat (if l.testBit sh.toNat then l ^^^ 2 ^ sh.toNat else l))) (d.toNat + 2)
          (from' g act a.toNat (if l.testBit sh.toNat then l else l ^^^ 2 ^ sh.toNat)))) ∧
    GivesThread (.nrev gd d a sh) (fun act g l x => put x d.toNat (from' g act a.toNat (reverseLow l sh.toNat)))) ∧
  (∀ (l k : Nat), k ≤ 5 → l < 32 → ∀ j, (reverseLow l k).testBit j = l.testBit (if j < k then k - 1 - j else j)) ∧
  (∀ (gd : BitVec 4) (d a kg : BitVec 6),
    let k (g : Gang) : Nat := (opK g kg).toNat
    let slot (g : Gang) (l : Nat) : Option Modulus := modulusOf (threadOf g l) (k g / 2 ^ 10 % 4)
    GivesUnless (.nauto gd d a kg)
      (fun t g _ l => if slot g l = none
        then some { cause := 0x11, aux0 := t.w, aux1 := BitVec.ofNat 32 (k g / 2 ^ 10 % 4) } else none)
      (fun act g l x => (List.range (2 ^ (k g / 2 ^ 8 % 4))).foldl (fun y p =>
        let v := automorphed g ((lanesOf act).filter (fun m => slot g m != none)) (k g / 2 ^ 10 % 4) a.toNat (k g % 2 ^ 8) (32 * 2 ^ (k g / 2 ^ 8 % 4)) (32 * p + l)
        writePair y (d.toNat + 2 * p) v.1 (v.2 || (kReg g kg.toNat).poison)) x)) ∧
  (∀ (g : Gang) (ps : List Nat) (slot a n gv i : Nat), (n = 32 ∨ n = 64 ∨ n = 128) → gv % 2 = 1 → i < n →
    automorphed g ps slot a gv n (i * gv % (2 * n) % n) = coefficient g ps slot a (decide (n ≤ i * gv % (2 * n))) i)

/-! ### System words (spec/07 7.4) -/

/-- R76, R241, Table 7.8: SYSR writes its register's value in each active thread, without poison; SYSW writes a thread's register
in each active thread, and a gang's once, from the lowest; bits 59 to 57 of sys.tpc are reserved and stay 0. -/
def Obligations.SystemRegisterWords : Prop :=
  ∀ (gd : BitVec 4) (d : BitVec 6) (num : BitVec 8) (s : State) (t : Site) (b : Block) (act : BitVec 32),
    (Issues (.sysr gd d num) s t b act →
      exec (.sysr gd d num) s = .next (wentOn t 1 (eachThread s t act (fun g l x =>
        let wide (v : Dword) : Thread := writePair x d.toNat v false
        let narrow (v : Word) : Thread := writeV x d.toNat v false
        match num.toNat with
        | 0x00 => narrow (BitVec.ofNat 32 l)
        | 0x01 => narrow (BitVec.ofNat 32 t.gang)
        | 0x02 => narrow (BitVec.ofNat 32 (t.core % 8))
        | 0x03 => narrow (BitVec.ofNat 32 (t.core / 8))
        | 0x04 => narrow (BitVec.ofNat 32 (t.core / 8 / 20))
        | 0x05 => narrow (BitVec.ofNat 32 b.stage)
        | 0x08 => narrow x.fpmode
        | 0x09 => narrow g.mxflags
        | 0x0A => wide g.trapbase
        | 0x10 => narrow x.tcause
        | 0x11 => wide x.tpc
        | 0x12 => narrow x.taux0
        | 0x13 => narrow x.taux1
        | 0x14 => narrow x.taux2
        | 0x15 => narrow x.taux3
        | 0x20 => narrow x.spx
        | 0x28 => wide (cycleCount s t.core)
        | n => wide (tget 0 x.plog (n - 0x18)))))) ∧
    (Issues (.sysw gd d num) s t b act →
      let wide (l : Nat) : Dword := pairV (threadOf (t.g s) l) d.toNat
      let narrow (l : Nat) : Word := opV (threadOf (t.g s) l) d
      (num.toNat = 0x09 → exec (.sysw gd d num) s =
        .next (wentOn t 1 (modGang s t.blk t.gang (fun g => { g with mxflags := narrow (lowest act) &&& 0xF })))) ∧
      (num.toNat = 0x0A → exec (.sysw gd d num) s =
        .next (wentOn t 1 (modGang s t.blk t.gang (fun g => { g with trapbase := wide (lowest act) })))) ∧
      (num.toNat ≠ 0x09 → num.toNat ≠ 0x0A → num.toNat ≠ 0x10 → exec (.sysw gd d num) s =
        .next (wentOn t 1 ((lanesOf act).foldl (fun s l => modThread s t.blk t.gang l (fun x =>
          match num.toNat with
          | 0x08 => { x with fpmode := narrow l &&& 0xF }
          | 0x11 => { x with tpc := wide l &&& 0xF1FFFFFFFFFFFFFF }
          | 0x12 => { x with taux0 := narrow l }
          | 0x13 => { x with taux1 := narrow l }
          | 0x14 => { x with taux2 := narrow l }
          | 0x15 => { x with taux3 := narrow l }
          | 0x20 => { x with spx := narrow l }
          | n => { x with plog := tset 0 x.plog (n - 0x18) (poisonEntry (n - 0x18) (wide l)) })) s))) ∧
      (num.toNat = 0x10 → exec (.sysw gd d num) s =
        .next (wentOn t 1 ((lanesOf act).foldl (fun s l =>
          readChoice (modThread s t.blk t.gang l (fun x => outOfHandler { x with tcause := narrow l &&& 0xFF }))
            t.core t.blk (getThread s t.blk t.gang l) false) s))))

/-- R242, R331: TRAPRET takes its threads out of handler state and transfers them to the resume point of their sys.tpc; threads
that differ in it raise NONUNIFORM_BRANCH, and a bad target BAD_TARGET. -/
def Obligations.TrapReturn : Prop :=
  ∀ (gd : BitVec 4) (s : State) (t : Site) (b : Block) (act : BitVec 32), Issues (.trapret gd) s t b act →
    let x (l : Nat) : Dword := (threadOf (t.g s) l).tpc
    let rp := resumePoint (x (lowest act))
    (act ≠ t.unit.lanes →
      exec (.trapret gd) s = .next (trapsAll t 1 s t.unit.lanes (t.trap { cause := 3, aux0 := act, aux1 := t.unit.lanes }))) ∧
    (act = t.unit.lanes → (∀ l ∈ lanesOf act, x l = x (lowest act)) →
      (targetFault s t.core t.blk b.launch b.ctx rp.1 rp.2 = none →
        exec (.trapret gd) s = .next (transferred t (leaveHandlers t act s) (resumeAt rp.1.toNat rp.2) (x (lowest act)))) ∧
      (∀ r, targetFault s t.core t.blk b.launch b.ctx rp.1 rp.2 = some r →
        exec (.trapret gd) s = .next (trapsAll t 1 s act (t.trap
          { cause := 2, aux0 := lo32 (x (lowest act)), aux1 := hi32 (x (lowest act)), aux2 := BitVec.ofNat 32 r })))) ∧
    (act = t.unit.lanes → (∃ l ∈ lanesOf act, x l ≠ x (lowest act)) →
      exec (.trapret gd) s = .next (trapsAll t 1 s act (t.trap
        { cause := 3, aux0 := maskWhere (fun l => act.getLsbD l && x l == x (lowest act)), aux1 := act })))

/-- R243 to R247, R376: what TLBINV, CWB, BANKMODE, LAUNCH and the three forms of FQRP do once they issue: TLBINV removes the
translations, the walks and the L1 lines that meet its bytes, none where they are none; BANKMODE sends its request to its
cluster, behind what its gang has issued, and its unit waits; a replay takes from the queue the elements that leave it, or
stands at its word while one waits for its home slice; a LAUNCH, whose counter reads 0 by then, goes on, and the others end the
run. That these words have their effect at the word, and that a BANKMODE waits for its own gang's operations alone, are the model's
choices (assumption logs 46 and 47). -/
def Obligations.SystemWords : Prop :=
  (∀ (gd : BitVec 4) (every ctx : BitVec 1) (ka kn : BitVec 6),
    GivesStateEnding (.tlbinv gd every ctx ka kn) (fun s t b _ =>
      let hit (c va size : Nat) : Bool := (ctx == 1 || c == b.ctx) &&
        (every == 1 || (decide (0 < (opK (t.g s) kn).toNat) &&
          va < (pairK (t.g s) ka.toNat).toNat + (opK (t.g s) kn).toNat && (pairK (t.g s) ka.toNat).toNat < va + size))
      mapCores (mapClusters s (fun c => { c with tlb := c.tlb.filter (fun e => !hit e.ctx e.va e.leaf.size)
                                                 walks := c.walks.filter (fun w => !hit w.ctx (w.page * 4096) 4096) }))
        (fun c => { c with l1 := c.l1.filter (fun x => !hit x.ctx (x.va / 128 * 128) 128) }))) ∧
  (∀ (gd : BitVec 4) (ctx : BitVec 1), GivesState (.cwb gd ctx) (fun s t b act =>
    startOp s t (lanesOf act) [] (some .st) (.writeBackContext (if ctx = 1 then none else some b.ctx)) [])) ∧
  (∀ (gd : BitVec 4) (d a : BitVec 6) (s : State) (t : Site) (b : Block) (act : BitVec 32),
    Issues (.bankmode gd d a) s t b act →
    exec (.bankmode gd d a) s = .next (wentOnWaiting t 1 (.bankMode d (kReg (t.g s) a.toNat).poison)
      (reachClusters (modCluster s (t.core / 8) (fun c => { c with coming := c.coming ++
        [.unit (opK (t.g s) a) t.blk t.gang (lowest t.unit.lanes) (gangOps s t.blk t.gang)] }))))) ∧
  (∀ (gd : BitVec 4) (d kt kp : BitVec 6), GivesState (.launch gd d kt kp) (fun s t b _ =>
    let die := t.core / 8 / 20
    let seq : Word := if (getDie s die).pushSeq = 0xFFFFFFFF then 1 else (getDie s die).pushSeq + 1
    let put (s : State) (x : Word) : State := modGang s t.blk t.gang (fun g => writeK g d.toNat x false)
    if 1024 ≤ (getDie s die).dq.length then put s 0
    else put (modDie s die (fun x => { x with pushSeq := seq, dq := x.dq ++
      [{ seq := seq, template := pairK (t.g s) kt.toNat, params := pairK (t.g s) kp.toNat, ctx := b.ctx,
         root := ((getLaunch s b.launch).map Launch.root).getD 0 }] })) seq)) ∧
  (∀ (gd : BitVec 4) (d : BitVec 6) (gone rest : List Parked) (s' : State) (s : State) (t : Site) (b : Block)
      (act : BitVec 32), Issues (.fqrpReplay gd d) s t b act →
    let unit : Asker := .unit t.blk t.gang (lowest act)
    (replayAll t.core (t.g s).faultq (tracing (askAs s unit)) = (gone, rest, false, s') →
      let u := untraced (forgetAsker (askAs s' s.asker) unit)
      exec (.fqrpReplay gd d) s = .next (wentOnEnding t 1 (modGang (gone.foldl (fun s x => unpark s t.core x.handle) u)
        t.blk t.gang (fun g => writeK { g with faultq := rest } d.toNat (BitVec.ofNat 32 gone.length) false)))) ∧
    (replayAll t.core (t.g s).faultq (tracing (askAs s unit)) = (gone, rest, true, s') →
      exec (.fqrpReplay gd d) s =
        .next (endRun (makeMove t (beginAgain s s') { lanes := t.unit.lanes, pc := t.unit.pc }) t.core))) ∧
  (∀ (gd : BitVec 4) (d : BitVec 6),
    GivesStateEnding (.fqrpSkip gd d) (fun s t _ _ =>
      let q := (t.g s).faultq
      modGang (q.foldl (fun s x => skipEntry s t.core x) s) t.blk t.gang
        (fun g => writeK { g with faultq := [] } d.toNat (BitVec.ofNat 32 q.length) false)) ∧
    GivesStateEnding (.fqrpPeek gd d) (fun s t _ _ => modGang s t.blk t.gang (fun g =>
      match g.faultq with
      | [] => writeK (writeK g d.toNat 0 false) (d.toNat + 1) 0 false
      | x :: _ => writeK (writeK g d.toNat (BitVec.ofNat 32 (2 ^ 31 + x.handle * 2 ^ 16 + x.gang * 2 ^ 8 + x.lane)) false)
          (d.toNat + 1) x.index false)))

/-! ### Speculative windows (spec/07 7.3) -/

/-- R227 to R230, R235: SPBEGIN suspends its unit after the word until its window is open; SPST and SPLD start their accesses
with the handle of each thread, a thread out of the space or misaligned taking its trap; SPALLOC pops a block, logs it and
gives it to kd, or raises WINDOW_STALE for a handle that is not current and WINDOW_OVERFLOW for a full log, an empty stack or
structures out of reach; SPQUERY reports on a current handle, and gives 0 for any other. Where a home slice keeps SPALLOC or
SPQUERY waiting, the word has asked it and is done again (R382). That structures out of reach give reason 8, and that the words
have their effect at the word, are the model's choices (assumption logs 37 and 46). That an access both out of its space and
misaligned takes SPACE_RANGE is the model's choice (assumption log 21). -/
def Obligations.WindowWords : Prop :=
  ∀ (gd : BitVec 4) (d a : BitVec 6) (size : BitVec 3) (s : State) (t : Site) (b : Block) (act : BitVec 32),
    let n := sizeBytes size.toNat
    let address (g : Gang) (l : Nat) : Int := (pairV (threadOf g l) a.toNat).toNat
    let acc (wr : Gang → Nat → Option (List Byte)) (s : State) (g : Gang) (l : Nat) : Access :=
      { lanes := laneBit l, space := 0, va := pairV (threadOf g l) a.toNat, size := n, wr := wr g l,
        key := (threadOf g l).spx, early := (currentEntry s (threadOf g l).spx).isSome }
    let stale (h : Word) : Trap := t.trap { cause := 0x0E, aux0 := 2, aux1 := h }
    let full (h : Word) (reason : Word) : Trap := t.trap { cause := 0x0F, aux0 := reason, aux1 := h }
    let who : Doer := { core := t.core, ctx := b.ctx, blk := t.blk, gang := t.gang, lane := lowest act }
    let unit : Asker := .unit t.blk t.gang (lowest act)
    let again (s : State) : State := endRun (makeMove t s { lanes := t.unit.lanes, pc := t.unit.pc }) t.core
    (Issues (.spbegin gd d a) s t b act →
      exec (.spbegin gd d a) s = .next (wentOnWaiting t 1 (.window act d (pairK (t.g s) a.toNat) t.unit.pc) s)) ∧
    StartsAccesses (.spst gd d a size) .st [] (.store true) address (acc (fun g l => some (bytesV (threadOf g l) d.toNat n))) ∧
    StartsAccesses (.spld gd d a size) .ld (vs d.toNat (sizeRegs size.toNat)) (.load size.toNat d.toNat true)
      address (acc (fun _ _ => none)) ∧
    (Issues (.spalloc gd d a) s t b act →
      let h := (threadOf (t.g s) (lowest act)).spx
      (currentEntry s h = none → exec (.spalloc gd d a) s = .next (trapsAll t 1 s act (stale h))) ∧
      (∀ e, currentEntry s h = some e →
        let w := getWindow s e
        (16 ≤ w.log.length → exec (.spalloc gd d a) s = .next (trapsAll t 1 s act (full h 3))) ∧
        (w.log.length < 16 → ∀ s',
          (runErrand unit (popBlock who w) s = .done none s' →
            exec (.spalloc gd d a) s = .next (trapsAll t 1 s' act (full h 4))) ∧
          (runErrand unit (popBlock who w) s = .failed s' →
            exec (.spalloc gd d a) s = .next (trapsAll t 1 s' act (full h 8))) ∧
          (runErrand unit (popBlock who w) s = .waits s' → exec (.spalloc gd d a) s = .next (again s')) ∧
          (∀ x, runErrand unit (popBlock who w) s = .done (some x) s' →
            exec (.spalloc gd d a) s = .next (wentOnEnding t 1 (modGang
              (modWindow s' e (fun w => { w with log := w.log ++ [(opK (t.g s') a, BitVec.ofNat 32 x)] }))
              t.blk t.gang (fun g => writeK g d.toNat (BitVec.ofNat 32 x) false))))))) ∧
    (Issues (.spquery gd d a) s t b act →
      let h := opK (t.g s) a
      let put (s : State) (x : Nat) : State :=
        modGang s t.blk t.gang (fun g => writeK g d.toNat (BitVec.ofNat 32 x) (kReg g a.toNat).poison)
      (currentEntry s h = none → exec (.spquery gd d a) s = .next (wentOnEnding t 1 (put s 0))) ∧
      (∀ e s', currentEntry s h = some e →
        let asked := runErrand unit (winWord who ((getWindow s e).desc.toNat + 88)) s
        let report : Nat := 2 ^ 31 + (getWindow s e).log.length * 2 ^ 16 + (getWindow s e).pages * 2 ^ 8
        (∀ flag, asked = .done flag s' → exec (.spquery gd d a) s =
          .next (wentOnEnding t 1 (put s' (report + if flag = 0 then 0 else 2 ^ 30)))) ∧
        (asked = .failed s' → ∃ cancelled, cancelled < 2 ∧ exec (.spquery gd d a) s =
          .next (wentOnEnding t 1 (put (draw s').2 (report + cancelled * 2 ^ 30)))) ∧
        (asked = .waits s' → exec (.spquery gd d a) s = .next (again s'))))

/-- R231, R232, R234: SPSTATE issues its command for a checkpoint slot of a current handle's window; SPCOMMIT and SPABORT issue
a close and make the entry closing; a handle that is not current raises WINDOW_STALE, and a slot or a count that the window
does not hold WINDOW_OVERFLOW. -/
def Obligations.WindowCommands : Prop :=
  ∀ (gd : BitVec 4) (a k : BitVec 6) (s : State) (t : Site) (b : Block) (act : BitVec 32),
    let stale (h : Word) : Trap := t.trap { cause := 0x0E, aux0 := 2, aux1 := h }
    let full (h : Word) (reason : Word) : Trap := t.trap { cause := 0x0F, aux0 := reason, aux1 := h }
    (Issues (.spstate gd a k) s t b act →
      let h := (threadOf (t.g s) (lowest act)).spx
      let p := (opK (t.g s) k).toNat
      (currentEntry s h = none → exec (.spstate gd a k) s = .next (trapsAll t 1 s act (stale h))) ∧
      (∀ e, currentEntry s h = some e →
        let w := getWindow s e
        (w.slots ≤ p → exec (.spstate gd a k) s = .next (trapsAll t 1 s act (full h 5))) ∧
        (p < w.slots → (pairK (t.g s) a.toNat).toNat % 4 = 0 →
          exec (.spstate gd a k) s = .next (wentOn t 1
            (issueWindow s t (.spstate gd a k) act [w.checkpoints + p * w.stateBytes, w.stateBytes]))))) ∧
    (∀ (i : Instr) (keep : Nat),
      (i = .spcommit gd a k ∧ keep = (opK (t.g s) k).toNat) ∨ (i = .spabort gd a ∧ keep = 0) → Issues i s t b act →
      let h := opK (t.g s) a
      (currentEntry s h = none → exec i s = .next (trapsAll t 1 s act (stale h))) ∧
      (∀ e, currentEntry s h = some e →
        let w := getWindow s e
        let tooMany : Prop := w.capacity < keep ∨ (w.stateBytes ≠ 0 ∧ w.slots < keep)
        (tooMany → exec i s = .next (trapsAll t 1 s act (full h 6))) ∧
        (¬ tooMany → exec i s = .next (wentOn t 1
          (modWindow (issueWindow s t i act []) e (fun w => { w with closing := true, closer := some (t.blk, t.gang) }))))))

/-- R239: TREEMASK writes in each participant the mask of its own bit and those of its ancestors, or, where a participant names
a parent that is neither below it nor −1, raises TREE_TOPOLOGY in every participant. -/
def Obligations.TreeMaskWord : Prop :=
  ∀ (gd : BitVec 4) (d a : BitVec 6) (s : State) (t : Site) (b : Block) (act : BitVec 32),
    Issues (.treemask gd d a) s t b act →
    let v (l : Nat) : Word := opV (threadOf (t.g s) l) a
    let bad : List Nat := (lanesOf act).filter (fun l => decide ((v l).toInt < -1 ∨ (l : Int) ≤ (v l).toInt))
    (bad = [] → ∃ m : Nat → Word,
      (∀ l, m l = if act.getLsbD l then laneBit l + (if v l = 0xFFFFFFFF then 0 else m (v l).toNat) else 0) ∧
      exec (.treemask gd d a) s = .next (wentOn t 1 (eachThread s t act (fun g l x => writeV x d.toNat (m l)
        ((lanesOf act).any (fun k => (m l).getLsbD k && (vReg (threadOf g k) a.toNat).poison)))))) ∧
    (∀ l rest, bad = l :: rest → exec (.treemask gd d a) s = .next (trapsAll t 1 s act (t.trap
      { cause := 0x10, aux0 := maskWhere (fun k => bad.contains k), aux1 := v l })))

/-! ### Matrix and copy commands, rings and tiles (spec/05 5.8 to 5.10, spec/06 6.5 to 6.9) -/

/-- R194 to R211: every matrix command issues, or signs its join register, in the threads whose scratch operands, records and
addresses are aligned as R134 and R197 ask, and whose signature is in order (R122); the others take MISALIGNED or JOIN_STATE.
That a command that some threads fail issues for the others is the model's choice (assumption log 23). -/
def Obligations.MatrixCommandWords : Prop :=
  ∀ (gd : BitVec 4) (dt tt : BitVec 3) (fa fb : BitVec 5) (ra rb gm ks : BitVec 6) (sat sa sb z acc mode : BitVec 1)
      (fmt sp : BitVec 2) (pitch : BitVec 16) (j : BitVec 4),
    let aligned (x : Dword) (n sp : Nat) : Option Trap :=
      if n ∣ x.toNat then none else some { cause := 6, aux0 := lo32 x, aux1 := hi32 x, aux2 := BitVec.ofNat 32 sp }
    let inScratch (g : Gang) (used : BitVec 1) (r : BitVec 6) : Option Trap :=
      if used = 0 then none
      else
        let base : Dword := BitVec.ofNat 64 ((opK g r).toNat / 16 * 16)
        let pitch : Dword := BitVec.ofNat 64 ((kReg g (r.toNat + 1)).val.toNat % 2 ^ 16)
        if ¬ 32 ∣ base.toNat then aligned base 32 2
        else if pitch = 0 then some { cause := 6, aux2 := 2 }
        else aligned pitch 32 2
    let wide (g : Gang) (r : BitVec 6) : Dword := (opK g r).setWidth 64
    let tile (g : Gang) : Option Trap :=
      aligned (if sp = 0 then pairK g ks.toNat else wide g ks) (accEsize fmt.toNat) sp.toNat
    IssuesCommand (.mma gd dt fa fb sat ra rb sa sb gm z j) j
      (fun _ _ _ g _ => (inScratch g sa ra).or (inScratch g sb rb)) ∧
    IssuesCommand (.mmas gd dt fa fb sat ra rb sa sb gm z ks j) j
      (fun _ _ _ g _ => ((inScratch g sa ra).or (inScratch g sb rb)).or (aligned (wide g ks) 32 1)) ∧
    IssuesCommand (.mconv gd dt fa fb sat ra rb sb gm z ks j) j
      (fun _ _ _ g _ => (aligned (pairK g ra.toNat) 64 0).or (inScratch g sb rb)) ∧
    IssuesCommand (.mtrn gd dt tt acc sat j) j (fun _ _ _ _ _ => none) ∧
    IssuesCommand (.mperm gd dt tt acc mode sat ks j) j (fun _ _ _ g _ => aligned (wide g ks) 64 1) ∧
    IssuesCommand (.mred gd dt tt acc mode sat j) j (fun _ _ _ _ _ => none) ∧
    IssuesCommand (.accz gd dt j) j (fun _ _ _ _ _ => none) ∧
    IssuesCommand (.accld gd dt fmt sp ks pitch j) j (fun _ _ _ g _ => tile g) ∧
    IssuesCommand (.accst gd dt fmt sat sp ks pitch j) j (fun _ _ _ g _ => tile g)

/-- R168 to R175: every copy command issues, or signs its join register, in the threads whose operands are in order: a segment
of a CPY within its space and aligned, the records and tiles of the others aligned, the generic addresses that they name within
the generic space, and a row that a CPYF sends within its window; the others take SPACE_RANGE, MISALIGNED, Q_FORMAT or
JOIN_STATE. That the record of a ring is checked as the word is is the model's choice (assumption log 96). That a command that
some threads fail issues for the others is the model's choice (assumption log 23). Each element of a started command then moves
the data of R168 to R173: a CPY the word at the same offset of each segment, where its segments do not meet; a CPYT an element of
the box between the tensor's address and the tile's, or its fill bytes to a tile; a CPYX a row, sixteen bytes at a time; a CPYP the
head's three bytes into the tile's arrays, and each plane word, or zero beyond the planes that the head stores, flagging a block
whose version or closing head differs. A read of a window gives its bytes and a write puts them there; one of memory goes to the
page of its address. -/
def Obligations.CopyCommandWords : Prop :=
  (∀ (gd : BitVec 4) (r1 r2 r3 : BitVec 6) (dsp ssp : BitVec 2) (words t : BitVec 10) (dir sp ring : BitVec 1)
      (lo hi : BitVec 5) (row : BitVec 12) (j : BitVec 4),
    let trap (cause : BitVec 8) (x : Dword) (sp : Nat) : Trap :=
      { cause := cause, aux0 := lo32 x, aux1 := hi32 x, aux2 := BitVec.ofNat 32 sp }
    let aligned (x : Dword) (n sp : Nat) : Option Trap := if n ∣ x.toNat then none else some (trap 6 x sp)
    let wide (g : Gang) (r : BitVec 6) : Dword := (opK g r).setWidth 64
    let within (s : State) (b : Block) (sp : Nat) (x : Dword) (n : Nat) : Option Trap :=
      if inExtent s b (targetOf sp x.toNat) n = false then some (trap 7 x sp) else none
    let record (s : State) (b : Block) (g : Gang) (ring : BitVec 1) (r : BitVec 6) : Option Trap :=
      if ring = 1 then (within s b 1 (wide g r) 16).or (aligned (wide g r) 64 1) else none
    let segment (s : State) (b : Block) (sp : BitVec 2) (x : Thread) (r : BitVec 6) : Option Trap :=
      let va : Dword := if sp = 0 then pairV x r.toNat else (opV x r).setWidth 64
      if inExtent s b (targetOf sp.toNat va.toNat) (4 * (words.toNat + 1)) then aligned va 4 sp.toNat else some (trap 7 va sp.toNat)
    IssuesCommand (.cpy gd r1 r2 dsp ssp j words) j (fun s b _ g l =>
      (segment s b dsp (threadOf g l) r1).or (segment s b ssp (threadOf g l) r2)) ∧
    IssuesCommand (.cpyt gd r1 r2 r3 dir sp ring j) j (fun s b _ g _ =>
      ((within s b 0 (pairK g r1.toNat) 64).or (aligned (pairK g r1.toNat) 64 0)).or (record s b g ring r3)) ∧
    IssuesCommand (.cpyp gd r1 r2 lo hi sp ring j t) j (fun s b _ g _ =>
      ((quadTrap g r1.toNat).or (within s b 0 (pairK g r1.toNat) 1)).or
        (if ring = 1 then record s b g ring r2 else aligned (wide g r2) 16 (1 + sp.toNat))) ∧
    IssuesCommand (.cpyx gd r1 r2 r3 sp dir j row) j (fun s b _ g _ =>
      ((within s b 0 (pairK g r2.toNat) 16).or (aligned (pairK g r2.toNat) 16 0)).or
        (aligned (wide g r3) 16 (1 + sp.toNat))) ∧
    IssuesCommand (.cpyf gd r1 r2 r3 sp j row) j (fun s b t g l =>
      let size := 16 * (row.toNat + 1)
      let off := (opK g r2).toNat + (32 * t.gang + l) * size
      (aligned (wide g r2) 16 (1 + sp.toNat)).or
        (if (opV (threadOf g l) r1).toNat < 576 ∧ inExtent s b (targetOf (1 + sp.toNat) off) size = false then
          some (trap 7 (BitVec.ofNat 64 off) (1 + sp.toNat)) else none))) ∧
  (∀ (e : Engine) (s : State) (sp : Nat) (at_ : Int) (n : Nat) (miss : Miss) (k : List Byte → State → Progress)
      (bs : List Byte) (m : State → Progress),
    let va := (low64 at_).toNat
    (inExtent s e.b (targetOf sp at_) n = false → e.load s sp at_ n miss k = .stop (addressTrap 7 (low64 at_) sp e.xop) s) ∧
    (∀ o, targetOf sp at_ = .lstore o →
      (inExtent s e.b (.lstore o) n = true → e.load s sp at_ n miss k = k (tgetMany 0 e.b.lstore o n) s) ∧
      (inExtent s e.b (.lstore o) bs.length = true → e.store s sp at_ bs miss m =
        m (modBlock s e.blk (fun b => { b with lstore := tsetMany 0 b.lstore o bs })))) ∧
    (∀ o, targetOf sp at_ = .scratch o → s.phys.sram = [] → (getCluster s (blockCluster e.b)).cbhealth = 0 →
      (inExtent s e.b (.scratch o) n = true → e.load s sp at_ n miss k = k (tgetMany 0 e.b.scratch o n) s) ∧
      (inExtent s e.b (.scratch o) bs.length = true → e.store s sp at_ bs miss m =
        m (modBlock s e.blk (fun b => { b with scratch := tsetMany 0 b.scratch o bs })))) ∧
    (∀ l u, e.way s sp at_ n true false = (.page l, u) →
      (∀ x v, engineFetch u e.core va n l = (.bytes x, v) → e.load s sp at_ n miss k = k x v) ∧
      (∀ v, engineFetch u e.core va n l = (.blocked, v) → e.load s sp at_ n miss k = .wait v)) ∧
    (∀ l u, e.way s sp at_ bs.length false true = (.page l, u) →
      (∀ x v, enginePut u e.core e.b.ctx va l bs = (.bytes x, v) → e.store s sp at_ bs miss m = m v) ∧
      (∀ v, enginePut u e.core e.b.ctx va l bs = (.blocked, v) → e.store s sp at_ bs miss m = .wait v))) ∧
  (∀ (e : Engine) (s : State) (gd : BitVec 4) (r1 r2 r3 : BitVec 6) (j : BitVec 4),
    let go (s : State) : Progress := .go e.c s
    let u (k : Nat) : Nat := (e.c.uni.getD k 0).toNat
    let pair (k : Nat) : Nat := u k + 2 ^ 32 * u (k + 1)
    let head := e.c.held.getD 0 0
    (∀ (dsp ssp : BitVec 2) (words : BitVec 10) (i o : Nat) (p : Participant),
      e.c.instr = .cpy gd r1 r2 dsp ssp j words → e.c.parts[i]? = some p → o < words.toNat + 1 →
      let size := 4 * (words.toNat + 1)
      let src := p.b.toNat + 4 * o
      let dst := p.a.toNat + 4 * o
      let meets (va : Nat) (start : Dword) : Prop := start.toNat ≤ va ∧ va < start.toNat + size
      let aux : Word := BitVec.ofNat 32 (p.lane + p.gang * 2 ^ 8 + 4 * o * 2 ^ 16)
      (dsp = ssp → ∀ q ∈ e.c.parts, ¬ meets src q.a ∧ ¬ meets dst q.b) → (∀ q ∈ e.c.parts.take i, ¬ meets dst q.a) →
      commandElement e s (i * (words.toNat + 1) + o) = e.load s ssp.toNat src 4 (faultAt 1 aux src) (fun bs s =>
        e.store s dsp.toNat dst (natBytes 4 (leNat bs)) (faultAt 1 aux dst) go)) ∧
    (∀ (dir sp ring : BitVec 1) (i0 i1 i2 i3 : Nat), e.c.instr = .cpyt gd r1 r2 r3 dir sp ring j →
      let x := heldLayout e.c
      let b (k : Nat) : Nat := x.box.getD k 1
      let g (k i : Nat) : Int := (e.c.uni.getD (2 + k) 0).toInt + i
      i0 < b 0 → i1 < b 1 → i2 < b 2 → i3 < b 3 →
      let n := i0 + b 0 * (i1 + b 1 * (i2 + b 2 * i3))
      let tile : Int := (head + x.esize * n : Nat)
      let tensor : Int := x.base + x.esize * g 0 i0 + (x.stride.getD 0 0 : Nat) * g 1 i1 + (x.stride.getD 1 0 : Nat) * g 2 i2 +
        (x.stride.getD 2 0 : Nat) * g 3 i3
      let within (k i : Nat) : Prop := k < x.rank → 0 ≤ g k i ∧ g k i < (x.ext.getD k 0 : Nat)
      let inside : Prop := within 0 i0 ∧ within 1 i1 ∧ within 2 i2 ∧ within 3 i3
      let aux : Word := BitVec.ofNat 32 (i0 + i1 * 2 ^ 8 + i2 * 2 ^ 16 + i3 * 2 ^ 24)
      let put (bs : List Byte) (s : State) : Progress := e.store s (1 + sp.toNat) tile bs .wait go
      (x.rank ≤ 4 → inside → dir = 0 →
        commandElement e s n = e.load s 0 tensor x.esize (faultAt 1 aux tensor) put) ∧
      (x.rank ≤ 4 → inside → dir = 1 → commandElement e s n = e.load s (1 + sp.toNat) tile x.esize .wait
        (fun bs s => e.store s 0 tensor bs (faultAt 1 aux tensor) go)) ∧
      (x.rank ≤ 4 → ¬ inside → commandElement e s n = if dir = 1 then go s
        else put (List.replicate x.esize (if x.fill = 1 then 0xFF else 0)) s)) ∧
    (∀ (sp dir : BitVec 1) (row : BitVec 12) (n : Nat) (p : Participant), e.c.instr = .cpyx gd r1 r2 r3 sp dir j row →
      let parts := e.c.parts.filter (fun p => p.a != 0xFFFFFFFF)
      let size := 16 * (row.toNat + 1)
      let table := pair 0 + p.a.toNat * size
      let tile := u 2 + (32 * p.gang + p.lane) * size
      parts[n]? = some p → (∀ q ∈ parts.take n, q.a ≠ p.a) →
      tile + size ≤ windowSize s e.b (1 + sp.toNat) →
      (dir = 0 → commandElement e s n = e.loadPieces 0 table (.park p (lo32 p.a))
        (fun bs s => e.storeAll s (pieces (1 + sp.toNat) tile bs) .wait go) (row.toNat + 1) [] (draw s).2) ∧
      (dir = 1 → commandElement e s n = e.loadPieces (1 + sp.toNat) tile .wait
        (fun bs s => e.storeAll s (pieces 0 table bs) (.park p (lo32 p.a)) go) (row.toNat + 1) [] (draw s).2)) ∧
    (∀ (lo hi : BitVec 5) (sp ring : BitVec 1) (t : BitVec 10) (n : Nat),
      e.c.instr = .cpyp gd r1 r2 lo hi sp ring j t → n ≤ t.toNat → lo ≤ hi →
      let count := t.toNat + 1
      let first := max lo.toNat 1
      let base := pair 0
      let blk := u 2 + n
      let aux (i : Nat) : Word := BitVec.ofNat 32 (n + i * 2 ^ 16)
      let entry (k : Nat) : Nat := head + 16 + (count + 15) / 16 * 16 * k + n
      let byte (s : State) (k v : Nat) : State := putTileByte s e.blk (1 + sp.toNat) (entry k) v
      let flagged (s : State) : State := flagBlock s e.blk (1 + sp.toNat) head count n
      let readHead (i : Nat) (k : Nat → State → Progress) : Progress :=
        e.loadHead s (base + 2 * blk) (faultAt 1 (aux i) (base + 2 * blk : Nat)) k
      (lo = 0 → commandElement e s n = readHead 0 (fun h s =>
        let s := byte (byte (byte s 0 (h % 2 ^ 8)) 1 (h / 2 ^ 12 % 2 ^ 4)) 2 (h / 2 ^ 8 % 2 ^ 4)
        .go { e.c with held := e.c.held ++ [h] } (if n = t.toNat ∧ hi ≠ 0 then setTileF s e.blk (1 + sp.toNat) head 1 else s))) ∧
      (lo ≠ 0 → commandElement e s n = readHead 0 (fun h s => e.tileLoad s (1 + sp.toNat) (entry 1) 1 (fun v s =>
        .go { e.c with held := e.c.held ++ [h] } (if v % 2 ^ 4 = h / 2 ^ 12 % 2 ^ 4 then s else flagged s)))) ∧
      (∀ i, first ≤ i → i ≤ hi.toNat →
        let word := base + i * u 3 + 4 * blk
        let at_ := head + 16 + 3 * ((count + 15) / 16 * 16) + 4 * count * (i - 1) + 4 * n
        let after (s : State) : Progress :=
          if n = t.toNat ∧ i < hi.toNat then e.tileLoad s (1 + sp.toNat) head 4 (fun w s =>
            go (if w % 32 = i then setTileF s e.blk (1 + sp.toNat) head (i + 1) else s))
          else go s
        let put (bs : List Byte) (s : State) : Progress := e.store s (1 + sp.toNat) at_ bs .wait after
        let copy (s : State) : Progress := e.load s 0 word 4 (faultAt 1 (aux i) word) put
        commandElement e s (count * (i - first + 1) + n) = e.tileLoad s (1 + sp.toNat) (entry 1) 1 (fun v s =>
          if v.testBit 7 then after s
          else if i = 1 then copy s
          else e.tileLoad s (1 + sp.toNat) (entry 2) 1 (fun p s => if i - 1 ≤ p then copy s else put (natBytes 4 0) s))) ∧
      commandElement e s (count * (hi.toNat + 1 - first + 1) + n) = e.tileLoad s (1 + sp.toNat) (entry 1) 1 (fun v s =>
        if v.testBit 7 then go s
        else e.loadHead s (base + 2 * blk) (faultAt 1 (aux 17) (base + 2 * blk : Nat)) (fun h s =>
          go (if h = e.c.held.getD (2 + n) 0 then s else flagged s)))))

/-- R163 to R165, R175, R194, R369: an unsigned command that issues is held with its words' uniform operands and its issuing
thread: a skidder command in the lowest free entry of its core, ready to start (that it is the lowest is the model's choice,
assumption log 94); a matrix command behind every earlier one of its core; a CPYF as one row for each thread whose destination
is a device, in the send queues of its die, and a drop in FWDERR where a destination is neither a device nor 0x3FF. A command's
signature (R28, R122, R138, R164) joins the phase with its thread's operands, reads the uniform operands as the phase's first,
counts the command once in its gang, and locks the command's registers; with the last member's the phase ends and the command
issues: it enters its engine with the phase's uniform operands, its signers as participants, and as issuing thread the lowest
thread of that signature; where a leave completes the phase, it issues with the lowest of its signers. -/
def Obligations.CommandsEnterEngines : Prop :=
  ∀ (s : State) (t : Site) (b : Block) (i : Instr) (lanes : List Nat), getBlock s t.blk = some b →
    let g := gangOf b t.gang
    let s' := issueUnsigned s t i lanes
    let issued (u : State) (kind : JoinKind) (id : Nat) (uni : List Word) (signers : List Signer) (lead : ThreadRef) : Prop :=
      ∀ w1 w2 i', kind = .command w1 w2 → decodeWords (w1 ||| 0xFDC00000) w2 = .ok i' →
        let gangs := (signers.map (fun z => z.who.1)).eraseDups
        (∀ e, isSkidder i' = true → freeEntry (getCore s t.core) = some e →
          ∃ c, commandAt u t.core e = some c ∧ c.instr = i' ∧ c.block = t.blk ∧ c.id = id ∧ c.uni = uni ∧ c.lead = lead ∧
            c.gangs = gangs ∧ c.phase = .ready ∧
            ∀ p, p ∈ c.parts ↔ ∃ z ∈ signers, p = { gang := z.who.1, lane := z.who.2, a := z.a, b := z.b }) ∧
        (isForwarder i' = true → ∃ k, (getDie u (t.core / 160)).sends = (getDie s (t.core / 160)).sends ++ [k] ∧
          k.id = id ∧ k.block = t.blk ∧ k.lead = lead ∧ k.gangs = gangs) ∧
        (isSkidder i' = false → isForwarder i' = false →
          ∃ m, (getCore u t.core).mx = (getCore s t.core).mx ++ [m] ∧ m.instr = i' ∧ m.block = t.blk ∧ m.id = id ∧
            m.uni = uni ∧ m.lead = lead ∧ m.gangs = gangs)
    (∀ e, isSkidder i = true → freeEntry (getCore s t.core) = some e →
      ∃ c, commandAt s' t.core e = some c ∧ c.instr = i ∧ c.block = t.blk ∧ c.uni = uniformsOf g i ∧
        c.lead = (t.gang, lanes.headD 0) ∧ c.gangs = [t.gang] ∧ c.phase = .ready ∧ c.id = s.nextId) ∧
    (isSkidder i = false → isForwarder i = false →
      ∃ m, (getCore s' t.core).mx = (getCore s t.core).mx ++ [m] ∧ m.instr = i ∧ m.block = t.blk ∧
        m.uni = uniformsOf g i ∧ m.lead = (t.gang, lanes.headD 0) ∧ m.gangs = [t.gang] ∧ m.id = s.nextId) ∧
    (∀ (gd : BitVec 4) (vd ks kr : BitVec 6) (sp : BitVec 1) (j : BitVec 4) (row : BitVec 12),
      i = .cpyf gd vd ks kr sp j row → lanes.Pairwise (· < ·) →
      let size := 16 * (row.toNat + 1)
      let dest (l : Nat) : Nat := (opV (threadOf g l) vd).toNat
      let sent := lanes.filter (fun l => decide (dest l < 576))
      let astray := lanes.filter (fun l => decide (576 ≤ dest l ∧ dest l ≠ 0x3FF))
      let d := getDie s (t.core / 160)
      let d' := getDie s' (t.core / 160)
      d'.rows = d.rows ++ sent.map (fun l =>
        { dest := dest l, ea := (pairK g kr.toNat).toNat + (vReg (threadOf g l) (vd.toNat + 1)).val.toNat * size, size := size,
          space := 1 + sp.toNat, off := (opK g ks).toNat + (32 * t.gang + l) * size, cmd := s.nextId }) ∧
      d'.sends = d.sends ++ [{ id := s.nextId, block := t.blk, lead := (t.gang, lanes.headD 0), gangs := [t.gang],
                               left := sent.length, after := earlierWrites s t.blk [t.gang] }] ∧
      (astray = [] → d'.fwderr = d.fwderr) ∧ (astray ≠ [] → d'.fwderr.getLsbD 63 = true)) ∧
    (∀ j : Nat, lanes ≠ [] → t.gang < b.gangs.length →
      let x := getJoin s t.blk j
      let u := signCommand s t j i lanes
      let y := getJoin u t.blk j
      let signed := x.signed ++ lanes.map (fun l => (t.gang, l))
      let first : Bool := !x.signers.any (fun z => z.who.1 == t.gang)
      (x.armed = true → x.members ≠ [] → (∀ m ∈ x.members, m ∈ signed) →
        y.phase = x.phase + 1 ∧ y.signed = [] ∧ y.kind = .none ∧ y.signers = [] ∧
        issued u (commandKind i) (if x.signers = [] then s.nextId else x.cmd)
          (if x.signers = [] then uniformsOf g i else x.uni) (x.signers ++ lanes.map (fun l => signerOf g t.gang l i))
          (t.gang, lanes.headD 0)) ∧
      ((∃ m ∈ x.members, m ∉ signed) →
        y.phase = x.phase ∧ y.members = x.members ∧ y.signed = signed ∧ y.kind = commandKind i ∧
        y.signers = x.signers ++ lanes.map (fun l => signerOf g t.gang l i) ∧
        (x.signers = [] → y.uni = uniformsOf g i ∧ y.cmd = s.nextId) ∧
        (x.signers ≠ [] → y.uni = x.uni ∧ y.cmd = x.cmd) ∧
        (∀ c, counterClass i = some c →
          counterOf (getGang u t.blk t.gang) c = counterOf g c + if first then 1 else 0) ∧
        (∀ l ∈ lanes, ∀ r ∈ vNumbers i,
          (vReg (threadOf g l) r).locks < (vReg (threadOf (getGang u t.blk t.gang) l) r).locks) ∧
        (∀ r ∈ kNumbers i, (kReg g r).locks < (kReg (getGang u t.blk t.gang) r).locks))) ∧
    (∀ (j : Nat) (act : BitVec 32),
      let x := getJoin s t.blk j
      let left := x.members.filter (fun m => x.signed.contains m || !(m.1 == t.gang && act.getLsbD m.2))
      left ≠ x.members → left ≠ [] → (∀ m ∈ left, m ∈ x.signed) →
        issued (leaveJoin s t.core t.blk j t.gang act) x.kind x.cmd x.uni x.signers (lowestRef (x.signers.map Signer.who)))

/-- R212: ACCRD starts a producer of its tile's elements, and ACCWR writes its registers to them, in every thread whose place
lies in the tile; behind an earlier operation on the tile both wait in its order (R198); a thread whose row or columns lie
beyond the tile raises ACC_STATE with reason 2, and the others go on. mx_group (R64, R66) adds a group's exact products to its
accumulator and rounds once, with the NaN and the infinities that its pseudocode gives, and raises the flags of R65; MMA and MMAS
(R203) apply it to the k-groups of each element in rising order, on the elements of the two operands' rows (R63, R196, R204); MTRN,
MPERM and MRED apply it to the terms of R209 times 1.0. -/
def Obligations.TileWords : Prop :=
  (∀ (acc : Nat) (ps : List (Elem × Elem)) (sat : Bool), acc < 2 ^ 32 →
    let r := mxGroup acc ps sat
    let products := ps.map (fun p => mulVal p.1.v p.2.v)
    let total := products.foldl (fun n v => match v with | .fin z => dyAdd n z false | _ => n) (zeroOf false)
    let allneg0 : Prop := ∀ v ∈ products, ∀ z, v = .fin z → z.m = 0 ∧ z.neg = true
    let nan : Prop := Val.nan ∈ products ∨ (Val.inf false ∈ products ∧ Val.inf true ∈ products)
    let infinite : Prop := Val.inf false ∈ products ∨ Val.inf true ∈ products
    let a := decodeF fp32 acc
    let nanin : Prop := ∃ p ∈ ps, p.1.nan = true ∨ p.2.nan = true
    (nan ∨ a = .nan → r.1 = 0x7FC00000) ∧
    (¬ nan → ∀ neg, Val.inf neg ∈ products →
      (a = .inf !neg → r.1 = 0x7FC00000) ∧ (a ≠ .nan → a ≠ .inf !neg → r.1 = if neg then 0xFF800000 else 0x7F800000)) ∧
    (¬ nan → ¬ infinite → ∀ neg, a = .inf neg → r.1 = acc) ∧
    (nan ∨ infinite ∨ isFinite fp32 acc = false → r.2.ovf = false) ∧
    (¬ nan → ¬ infinite → ∀ x, a = .fin x →
      let s := dyAdd x total false
      (s.m = 0 → (x.m = 0 ∧ x.neg = true ∧ allneg0 → r.1 = 0x80000000) ∧ (¬ (x.m = 0 ∧ x.neg = true ∧ allneg0) → r.1 = 0)) ∧
      (s.m ≠ 0 → r.1 = convert fp32 (.fin s) 0 sat false) ∧
      (r.2.ovf = true ↔ s.m ≠ 0 ∧ dyLe (dyAbs (roundTo fp32 s 0)) fp32.maxVal = false)) ∧
    (r.2.nanin = true ↔ nanin) ∧ (r.2.inv = true ↔ decodeF fp32 r.1 = .nan ∧ ¬ nanin ∧ a ≠ .nan) ∧
    r.2.sat = (r.2.ovf && sat) ∧
    (r.2.nonfinite = true ↔
      (∀ p ∈ ps, p.1.fin = true ∧ p.2.fin = true) ∧ isFinite fp32 acc = true ∧ isFinite fp32 r.1 = false)) ∧
  (∀ (c : MatrixCommand) (core : Nat) (b : Block) (s : State),
    let run : MxRun := { core := core, b := b, c := c }
    let apply (sat : Bool) (acc : Nat) (groups : List (List (Elem × Elem))) : Nat × MxFlags :=
      groups.foldl (fun r g => ((mxGroup r.1 g sat).1, r.2.or (mxGroup r.1 g sat).2)) (acc, {})
    let gives (s' : State) (d : Nat) (element : Nat → Nat → Nat × MxFlags) : Prop :=
      ∃ xs fs, run.perform s = .ok (some (d, xs), fs) s' ∧ xs.length = 4096 ∧ fs.length = 4096 ∧
        ∀ i j, i < 64 → j < 64 → (xs.getD (64 * i + j) 0, fs.getD (64 * i + j) {}) = element i j
    let one : Elem := plainElem (.fin (dyOf 1 0))
    let sums (d : Nat) (acc : BitVec 1) (sat : Bool) (terms : Nat → Nat → List (List Nat)) (i j : Nat) : Nat × MxFlags :=
      apply sat (if acc = 1 then tileAt b d i j else 0)
        ((terms i j).map (fun g => g.map (fun x => (plainElem (decodeF fp32 x), one))))
    (∀ (gd : BitVec 4) (a : BitVec 3) (fa fb : BitVec 5) (sat : BitVec 1) (ra rb : BitVec 6) (sa sb : BitVec 1) (gm : BitVec 6)
        (z : BitVec 1) (ks : BitVec 6) (j : BitVec 4) (area : Nat),
      (c.instr = .mma gd a fa fb sat ra rb sa sb gm z j ∧ area = 0) ∨
      (c.instr = .mmas gd a fa fb sat ra rb sa sb gm z ks j ∧ area = (c.uni.getLast?.getD 0).toNat) →
      let kg := opGroup fa.toNat fb.toNat
      let groups := gm.toNat + 1
      let k := groups * kg
      let operand (f : Nat) (inScratch : Bool) (words : Table Word) (at_ : Nat) : MxOperand :=
        { fmt := f, inScratch := inScratch, words := words, x0 := c.uni.getD at_ 0, x1 := c.uni.getD (at_ + 1) 0 }
      let element (f : Nat) (rows : List Nat) (scales : List Byte) (m i : Nat) : Elem :=
        let sx := scaleRow f k
        let t := i / fmtBlock f
        let scale := if 21 ≤ f then fieldAt scales (m * sx + 2 * t) 2 else fieldAt scales (m * sx + t) 1
        scaledElem f (rows.getD m 0 / 2 ^ (i * fmtBits f) % 2 ^ fmtBits f) scale (fieldAt scales (64 * sx) 2)
      ∀ rowsA s1 rowsB s2 scalesA s3 scalesB s4,
        run.rows (operand fa.toNat (sa == 1) c.fragA 0) k kg s = .ok rowsA s1 →
        run.rows (operand fb.toNat (sb == 1) c.fragB (if sa = 1 then 2 else 0)) k kg s1 = .ok rowsB s2 →
        run.scales area fa.toNat k s2 = .ok scalesA s3 →
        run.scales (area + scaleArea fa.toNat k) fb.toNat k s3 = .ok scalesB s4 →
        gives s4 a.toNat (fun m n => apply (sat == 1) (if z = 1 then 0 else tileAt b a.toNat m n)
          ((List.range groups).map (fun g => (List.range kg).map (fun i =>
            (element fa.toNat rowsA scalesA m (g * kg + i), element fb.toNat rowsB scalesB n (g * kg + i))))))) ∧
    (∀ (gd : BitVec 4) (d t : BitVec 3) (acc mode sat : BitVec 1) (kp : BitVec 6) (j : BitVec 4),
      let at_ (i j : Nat) : Nat := tileAt b t.toNat i j
      (c.instr = .mtrn gd d t acc sat j → gives s d.toNat (sums d.toNat acc (sat == 1) (fun i j => [[at_ j i]]))) ∧
      (c.instr = .mred gd d t acc mode sat j → gives s d.toNat (sums d.toNat acc (sat == 1) (fun i j =>
        (List.range 4).map (fun g => (List.range 16).map (fun n =>
          if mode = 1 then at_ (16 * g + n) j else at_ i (16 * g + n)))))) ∧
      (c.instr = .mperm gd d t acc mode sat kp j →
        let o := (c.uni.getD 0 0).toNat
        let p (i : Nat) : Nat := ((tgetMany 0 b.lstore o 64).getD i 0).toNat
        o + 64 ≤ lstoreSize s b → (∀ i < 64, p i < 64 ∨ p i = 255) →
          gives s d.toNat (sums d.toNat acc (sat == 1) (fun i j =>
            if mode = 1 then (if p j < 64 then [[at_ i (p j)]] else []) else if p i < 64 then [[at_ (p i) j]] else []))))) ∧
  ∀ (gd : BitVec 4) (tile : BitVec 3) (v kpos : BitVec 6) (n : BitVec 2) (s : State) (t : Site) (b : Block)
      (act : BitVec 32),
    let c := 2 ^ n.toNat
    let pos := opK (t.g s) kpos
    let row (l : Nat) : Nat := pos.toNat % 64 + l
    let col : Nat := pos.toNat / 2 ^ 8 % 64
    let inside (l : Nat) : Bool := decide (row l ≤ 63 ∧ col + c ≤ 64)
    let within := (lanesOf act).filter inside
    let beyond := (lanesOf act).filter (fun l => !inside l)
    let outside : Trap := t.trap { cause := 0x15, aux0 := BitVec.ofNat 32 tile.toNat, aux1 := 2, aux2 := pos }
    let gives (i : Instr) (f : List Nat → State) : Prop := i.words = 2 ∧
      (Issues i s t b act →
        (beyond = [] → exec i s = .next (wentOn t i.words (f (lanesOf act)))) ∧
        (beyond ≠ [] → exec i s = .next (trapsSome t i.words (if within = [] then s else f within)
          (beyond.map (fun l => (l, outside))))))
    let rd : Instr := .accrd gd tile v n kpos
    let wr : Instr := .accwr gd tile v n kpos
    let vals (lanes : List Nat) : Table Word := lanes.foldl (fun m l =>
      tsetMany 0 m (64 * l) ((List.range c).map (fun r => (vReg (threadOf (t.g s) l) (v.toNat + r)).val))) []
    gives rd (fun lanes =>
      if behind (getCore s t.core).mx t.blk rd then
        holdTile (startOp s t lanes (vs v.toNat c) none .accRead []) t s.nextId rd pos lanes []
      else startProducer s t lanes (vs v.toNat c) (lanes.flatMap (fun l => (List.range c).map (fun k =>
        { lane := l, reg := v.toNat + k, val := BitVec.ofNat 32 (tileAt b tile.toNat (row l) (col + k)),
          poison := false })))) ∧
    gives wr (fun lanes =>
      if behind (getCore s t.core).mx t.blk wr then holdTile (freshId s).2 t s.nextId wr pos lanes (vals lanes)
      else accWrite s t.blk tile.toNat c pos lanes (vals lanes))

/-- R176 to R181, R294: RINGINIT writes the ring's record and resets its slots to generation 0; RAWAIT goes on with an acquire
of block scope once its slot is as it asks; RREL resets its slot to the next generation, behind what its gang has issued; a
misaligned ring offset raises MISALIGNED, a record or a slot's header outside the window SPACE_RANGE, and the others what the
ring's state gives. That RING_STATE records 0 in aux2 where the ring has no slot to report, and that its reasons are judged in
the order record, slot, generation, are the model's choices (assumption logs 27 and 80), as are that MISALIGNED comes first,
that a record outside the window is checked as its word's operand is, and that RREL is placed behind what its gang has issued
(assumption logs 116, 96 and 78). -/
def Obligations.RingWords : Prop :=
  ∀ (gd : BitVec 4) (kr kt : BitVec 6) (slots : BitVec 4) (size : BitVec 16) (n : BitVec 5) (s : State) (t : Site) (b : Block)
      (act : BitVec 32),
    let o := (opK (t.g s) kr).toNat
    let ticket := opK (t.g s) kt
    let addr (cause : BitVec 8) (x : Nat) : Trap :=
      t.trap { cause := cause, aux0 := lo32 (BitVec.ofNat 64 x), aux1 := hi32 (BitVec.ofNat 64 x), aux2 := 1 }
    let ring (slot : Option RingSlot) (reason : Nat) : Trap :=
      t.trap { cause := 0x14, aux0 := opK (t.g s) kr, aux1 := ticket, aux3 := BitVec.ofNat 32 reason,
               aux2 := match slot with | some y => BitVec.ofNat 32 (y.gen * 2 ^ 16 + y.f) | none => 0 }
    let header := ringHeader b (lstoreSize s b) o ticket
    let gives (i : Instr) (u : State) : Prop := exec i s = .next (wentOn t i.words u)
    let raises (i : Instr) (x : Trap) : Prop := exec i s = .next (trapsAll t i.words s act x)
    let init : Instr := .ringinit gd kr slots size
    let await : Instr := .rawait gd kr kt n
    let rel : Instr := .rrel gd kr kt
    (init.words = 2 ∧ await.words = 2 ∧ rel.words = 2) ∧
    (Issues init s t b act →
      let len := 16 * size.toNat
      let record : List Byte := natBytes 4 (0x91A70000 + slots.toNat * 2 ^ 12) ++ natBytes 4 len ++ natBytes 8 0
      (o % 64 ≠ 0 → raises init (addr 6 o)) ∧
      (o % 64 = 0 → lstoreSize s b < o + 16 + (slots.toNat + 1) * len → raises init (addr 7 o)) ∧
      (o % 64 = 0 → o + 16 + (slots.toNat + 1) * len ≤ lstoreSize s b →
        gives init ((List.range (slots.toNat + 1)).foldl (fun s k => resetSlot s t.blk (o + 16 + k * len) 0)
          (windowWrite s t.blk b (.lstore o) record)))) ∧
    (Issues await s t b act →
      (o % 64 ≠ 0 → raises await (addr 6 o)) ∧
      (o % 64 = 0 →
        (∀ x, ringAwait b (lstoreSize s b) o ticket n.toNat = .ok x → gives await (l1Invalidate s t.core)) ∧
        (∀ r, ringAwait b (lstoreSize s b) o ticket n.toNat = .error (.state r) →
          raises await (ring (match header with | .ok x => some x | .error _ => none) r)) ∧
        (∀ x, ringAwait b (lstoreSize s b) o ticket n.toNat = .error (.range x) → raises await (addr 7 x)))) ∧
    (Issues rel s t b act →
      (o % 64 ≠ 0 → raises rel (addr 6 o)) ∧
      (o % 64 = 0 →
        (∀ x, header = .ok x →
          (x.gen = ticket.toNat % 2 ^ 16 → gives rel
            (resetSlot (releaseSlot s t.blk t.gang x.off) t.blk x.off ((ticket.toNat % 2 ^ 16 + 1) % 2 ^ 16))) ∧
          (x.gen ≠ ticket.toNat % 2 ^ 16 → raises rel (ring (some x) 6))) ∧
        (∀ r, header = .error (.state r) → raises rel (ring none r)) ∧
        (∀ x, header = .error (.range x) → raises rel (addr 7 x))))

/-! ### Steps of the memory system and the engines (spec/05, spec/07, spec/09; Table 3.13's steps) -/

/-- R27, R138, R141, R226, R257, R269, R286, R296, R366: an operation all of whose accesses have ended writes its registers, or
is acknowledged once its write-backs are, and is gone; a load that hits in the L1 ends at its walk; an access at its home is
answered there, or goes back to its walk where its page has become window-owned; where it waits, nothing of it is done but its
transfers; a store that its home has agreed to is performed in its turn; a request whose port no longer reaches its peer waits
there and leaves on the next that does. A plane store's head (R153, R154) waits until every address of the store is translated
and its block is not busy; then, its words' homes having taken them, it takes the next version and marks the block busy. That
an uncorrectable head ends the whole store with nothing written is the model's choice (assumption log 114). The words that a
load gives by its size code. That a store's home agrees to it before its cluster has it, and that the transfers of a step that
waits are kept, are the model's choices (assumption logs 105 and 104). -/
def Obligations.MemorySteps : Prop :=
  (∀ (s : State) (n idx : Nat) (o : PendingOp), getOp s n = some o →
    ((∀ a ∈ o.accs, a.stage.over = true) →
      (isProducer o.kind = true → exec (.producerComplete n) s = .next (endOp
        (modGang (draw s).2 o.block o.gang (fun g => writeResults g o (Config.freeValue s.tick))) n o)) ∧
      (isProducer o.kind = false → o.kind ≠ .accRead → (∀ ctx, o.kind ≠ .writeBackContext ctx) → backPending s o = false →
        exec (.storeAcknowledged n) s = .next (endOp (clearBusy s o) n o))) ∧
    (∀ a b core, o.accs[idx]? = some a → getBlock s o.block = some b → coreOf b = some core →
      (∀ bs, a.stage = .waiting → heldBack s n o a = false → inExtent s b a.target a.size = true → a.translated = true →
        readsL1 o.kind = true → l1Bytes s core b.ctx a.va.toNat a.size (roLaunch b o.kind) = some bs →
        exec (.pageWalkComplete n idx) s = .next (setStage s n idx (.done bs))) ∧
      (∀ l seq port, a.stage = .atHome l seq port →
        let reached : Prop := isPeer l = false ∨ seq = 0 ∨ portReaches s (peerDest l) port = true
        let owned : Prop := ownedSince s l = true ∧ busyHead o = none
        let home (u : State) : Prop := exec (.homeSliceAccess (.op n idx)) s = .next u
        let start : State := tracing (askAs s (.access n idx))
        let left (t : State) : State := untraced (askAs t s.asker)
        (∀ k m, onWay o a = some (k, m) →
          home (if storeOnWay s (clusterOf core) k (some m) then s else performStore s n idx)) ∧
        (onWay o a = none → ¬ reached → home s) ∧
        (onWay o a = none → reached → owned → home (setStage s n idx .waiting)) ∧
        (onWay o a = none → reached → ¬ owned → (∀ tag, o.kind = .planeStore tag → idx ≠ 0) →
          ∀ r t, serveAccess start core b.ctx o a b l port = (r, t) →
            (r = .blocked → home (beginAgain s t)) ∧
            (r ≠ .blocked → home (advancePlanes (settleAccess (left t) core b.ctx n idx o a l r) n))) ∧
        (∀ tag, onWay o a = none → reached → ¬ owned → o.kind = .planeStore tag → idx = 0 →
          let key := realPlace s l a.va.toNat
          let near := storeOnWay s (clusterOf core) (l1Key l a.va.toNat / 32) none
          (planeReady s o = false ∨ key ∈ s.hostIf.busy ∨ near = true → home s) ∧
          (planeReady s o = true → key ∉ s.hostIf.busy → near = false →
            (∀ x k t, reserveWords start (o.accs.drop 1) = (.error (x, .refused k), t) →
              home (unreachableAccess (left t) n 0 o x k)) ∧
            (∀ ws t, reserveWords start (o.accs.drop 1) = (.ok ws, t) →
              let r := updateHead t (clusterOf core) a.va.toNat l tag
              (∀ old u, r = (.bytes old, u) →
                let v := storeNear (left u) core a.va.toNat l (nextHead tag old)
                home (setOp { v with hostIf := { v.hostIf with busy := v.hostIf.busy ++ [key] } } n
                  (some { o with accs := { a with stage := .done (natBytes 8 key) } :: ws }))) ∧
              (∀ u, r = (.blocked, u) → home (beginAgain s u)) ∧
              (∀ u, r = (.bad, u) → home (badAccess (left u) n 0 o a))))) ∧
        (∀ p, ¬ reached → nextPort s (peerDest l) port = some p →
          exec (.peerResend n idx) s = .next (setStage s n idx (.atHome l seq p)))))) ∧
  (∀ (x y z w : Byte),
    loadWords 0 [x] = [x.setWidth 32] ∧ loadWords 1 [x] = [x.signExtend 32] ∧
    loadWords 2 [x, y] = [(y ++ x).setWidth 32] ∧ loadWords 3 [x, y] = [(y ++ x).signExtend 32] ∧
    loadWords 4 [x, y, z, w] = [w ++ z ++ y ++ x])

/-- R165 to R168, R174, R178, R194, R231, R336: every command of a skidder takes its next step or starts in its ring, waits,
leaves its entry where it has no element left, or ends in a fault of Table 13.1 that its issuing thread is told. At its start
and at each element a copy command and an SPSTATE stop with ASYNC_COPY_FAULT, the later elements having been performed or not;
a row is parked in its gang's fault queue, or raises FQ_OVERFLOW once where that is full. A command that meets uncorrectable
data freezes its context and ends (R385). A matrix command in its turn has its effect, waits for memory, in which nothing of it
is done but its transfers (R382), or leaves with the fault that it has met. That the elements go in rising order up to a fault,
what sys.taux1 to sys.taux3 record where Table 13.1 names nothing, and that a command that meets a fault other than a page's, a
permission's or a window's ends and completes, are the model's choices (assumption logs 32, 26 and 25). So is it that the
transfers of a step that waits are kept (assumption log 104). -/
def Obligations.CommandSteps : Prop :=
  (∀ (s : State) (core e : Nat) (c : Command), commandAt s core e = some c →
    let runs (u : State) : Prop :=
      (startsInRing c = false → exec (.homeSliceAccess (.engine core e)) s = .next u) ∧
      (startsInRing c = true → exec (.ringCommandStart core e) s = .next u)
    let told (u : State) (x : Trap) : State := defer u c.block c.lead.1 c.lead.2 x
    let copyFault (kind : Nat) (aux1 : Word) (va : Dword) : Trap :=
      { cause := 0x0A, aux0 := BitVec.ofNat 32 (e + kind * 2 ^ 8), aux1 := aux1, aux2 := lo32 va, aux3 := hi32 va }
    (∀ c' t, progressAt s core e = .go c' t → runs (setEntry t core e (some c'))) ∧
    (∀ t, progressAt s core e = .wait t → runs t) ∧
    (∀ x t, progressAt s core e = .stop x t →
      runs (if c.parked = 0 then retire (told t x) core e c
        else setEntry (told t x) core e (some { c with phase := .running (elementCount c) }))) ∧
    (∀ x, e < 48 → engineAt s core e = some x → progressAt s core e = .finished →
      (∀ c' t, lastWrites x s = .go c' t → exec (.commandComplete core e) s = .next (retire t core e x.c)) ∧
      (∀ va t, lastWrites x s = .bad va t →
        exec (.commandComplete core e) s = .next (retire (x.freeze t va) core e x.c))) ∧
    (∀ va t, progressAt s core e = .bad va t →
      let u := freezeData t c.block c.lead.1 c.lead.2 (standsAt t c.block c.lead.1 c.lead.2) va
      runs (if c.parked = 0 then retire u core e c
        else setEntry u core e (some { c with phase := .running (elementCount c) }))) ∧
    (∀ kind aux1 va t, progressAt s core e = .fault kind aux1 va t →
      (∀ c', c.phase = .ready → commandAt t core e = some c' → exec (.asyncCopyFault core e) s =
        .next (told (setEntry t core e (some { c' with phase := .stopped 0 kind })) (copyFault kind aux1 va))) ∧
      (∀ next c', c.phase = .running next →
        let u := runPast t core e (next + 1)
        commandAt u core e = some c' → exec (.asyncCopyFault core e) s =
          .next (told (setEntry u core e (some { c' with phase := .stopped next kind })) (copyFault kind aux1 va)))) ∧
    (∀ next p index t, c.phase = .running next → progressAt s core e = .park p index t →
      let q := (getGang t c.block p.gang).faultq
      (q.length < 32 → exec (.elementParked core e) s = .next (setEntry
        (modGang t c.block p.gang (fun g => { g with faultq := g.faultq ++ [⟨e, p.gang, p.lane, index⟩] })) core e
        (some { c with phase := .running (next + 1), parked := c.parked + 1 }))) ∧
      (32 ≤ q.length → c.overflowed = false → exec (.elementParked core e) s = .next (told
        (setEntry t core e (some { c with overflowed := true }))
        { cause := 0x18, aux0 := BitVec.ofNat 32 e, aux1 := 32 })))) ∧
  (∀ (s : State) (core id : Nat) (m : MatrixCommand) (b : Block),
    (getCore s core).mx.find? (fun m => m.id == id) = some m → getBlock s m.block = some b → mayPerform s core m = true →
    let who : Asker := .command m.block m.id
    let r := ({ core := core, b := b, c := m } : MxRun).perform (tracing (askAs s who))
    let own (t : State) : State := untraced (forgetAsker (askAs t s.asker) who)
    let after (u : State) : Prop :=
      exec (.matrixCommandComplete core id) s = .next (settleHeld u core (getCore u core).mx.length)
    (∀ o t, r = .ok o t → after (applyOutcome (own t) core m o)) ∧
    (∀ x t, r = .trap x t → after (leaveMatrix (defer (own t) m.block m.lead.1 m.lead.2 x) core m)) ∧
    (∀ va t, r = .bad va t → after (leaveMatrix
      (freezeData (own t) m.block m.lead.1 m.lead.2 (standsAt t m.block m.lead.1 m.lead.2) va) core m)) ∧
    (∀ t, r = .wait t → exec (.matrixCommandComplete core id) s = .next (beginAgain s t)))

/-- R27, R28, R137, R227, R232, R234, R409, R410: a deferred fault is delivered to the threads of a unit that is between words
or suspended; SPBEGIN's step waits until kd may be written; a window that opens gives its handle to kd and its unit goes on,
and one that does not is a fault at SPBEGIN's word; a commit or an abort waits for its home slices, leaves its entry once it
has been carried out, or stops with ASYNC_COPY_FAULT kind 1 where its descriptor is out of reach. That the fault's sys.taux1 is
then a free value, and that uncorrectable data give SPBEGIN reason 7, are the model's choices (assumption logs 26 and 37). So
is it that what a step does while a home slice keeps it waiting is done again, its transfers kept (assumption log 104). -/
def Obligations.DeliverySteps : Prop :=
  (∀ (s : State) (id gang lane : Nat) (b : Block) (u : ExecUnit),
    getBlock s id = some b → unitWith (gangOf b gang) lane = some u → (coreOf b).isSome = true → isFrozen s b = false →
    (getContext s b.ctx).tearing = false → u.wait ≠ .halted → deferredLanes (gangOf b gang) u ≠ [] →
    exec (.deferredFaultDelivery id gang lane) s = .next (deliverDeferred s id gang u)) ∧
  (∀ (s : State) (id gang lane core : Nat) (b : Block) (u : ExecUnit) (active : BitVec 32) (kd : BitVec 6) (desc word : Dword),
    getBlock s id = some b → unitWith (gangOf b gang) lane = some u → u.wait = .window active kd desc word →
    coreOf b = some core →
    let d : Doer := { core := core, ctx := b.ctx, blk := id, gang := gang, lane := lowest active }
    let spx := (getThread s id gang (lowest active)).spx
    let opens (u : State) : Prop := exec (.windowOpen id gang lane) s = .next u
    let step := runErrand (.unit id gang (lowest active)) (openWindow d desc) s
    let writable := (kReg (gangOf b gang) kd.toNat).empty = false ∧ (kReg (gangOf b gang) kd.toNat).locks = 0
    (¬ writable → opens s) ∧
    (∀ h t, writable → step = .done (.handle h) t →
      opens (modUnit (modGang t id gang (fun g => writeK g kd.toNat h false)) id gang (lowest u.lanes)
        (fun v => { v with wait := .none }))) ∧
    (∀ r t, writable → step = .done (.stale r) t → opens (spbeginFault t id gang u active word (windowTrap 0x0E r spx desc))) ∧
    (∀ r t, writable → step = .done (.overflow r) t →
      opens (spbeginFault t id gang u active word (windowTrap 0x0F r spx desc))) ∧
    (∀ t, writable → step = .failed t → opens (spbeginFault t id gang u active word (windowTrap 0x0F 7 spx desc))) ∧
    (∀ t, writable → step = .waits t → opens t)) ∧
  (∀ (s : State) (core e w : Nat) (c : Command) (b : Block) (gd : BitVec 4) (kh kk : BitVec 6),
    commandAt s core e = some c → c.phase = .ready → opsOver s c.after = true → getBlock s c.block = some b →
    namedEntry s (c.uni.getD 0 0) = some w →
    let d : Doer := { core := core, ctx := b.ctx, blk := c.block, gang := c.lead.1, lane := c.lead.2 }
    let closes (i : Instr) (run : Errand Bool) : Prop :=
      let r := runErrand (.command c.block c.id) run s
      (∀ t, r = .done true t → exec i s = .next (retire t core e c)) ∧
      (∀ t, r = .waits t → exec i s = .next t) ∧
      (∀ t, r = .done false t →
        let u := modWindow (draw t).2 w (fun x => { x with closing := false, closer := none })
        exec i s = .next (defer (setEntry u core e (some { c with phase := .stopped 0 1 })) c.block c.lead.1 c.lead.2
          (copyTrap e 1 (BitVec.ofNat 32 (draw t).1) (getWindow u w).desc)))
    (c.instr = .spcommit gd kh kk → statesPending s core c = false →
      closes (.spcommitExecute core e) (runCommit d (c.uni.getD 1 0).toNat w)) ∧
    (c.instr = .spabort gd kh → closes (.spabortExecute core e) (runAbort d w)))

/-! ### Launches, queues and scheduling (spec/12) -/

/-- R304 to R307, R310, R322: a write of QCTL keeps its fields, a weight of 0 as 1, and as it enables a queue resets QHEAD and
QCSEQ, so that the next record is the one at QBASE; QTAIL takes the value; clearing stopped clears the reason; DQERR is
cleared; none acts before the device is ready. A record is read and checked; one that breaks no check becomes a launch that
waits for the landing, and QHEAD rises by one; one that breaks any stops the queue with the lowest reason, one that cannot be
read with reason 1, and one of a context that is not enabled with reason 9. -/
def Obligations.QueueSteps : Prop :=
  (∀ (s : State) (q : BitVec 12) (v : Word), ready s = true →
    let ctl : Word := (v &&& 0xF0FF003F) ||| (if v &&& 0x00FF0000 = 0 then 0x00010000 else 0)
    let t := modQueue s q.toNat (fun x =>
      if v.getLsbD 31 ∧ x.ctl.getLsbD 31 = false then { x with ctl := ctl, head := 0, cseq := 0, began := false }
      else { x with ctl := ctl })
    exec (.queueEnable q v) s = .next t ∧ exec (.queueDisable q v) s = .next t ∧
    exec (.queuePriorityWeight q v) s = .next t ∧
    exec (.qtail q v) s = .next (modQueue s q.toNat (fun x => { x with tail := v })) ∧
    exec (.qstatClearStopped q) s = .next (modQueue s q.toNat (fun x => { x with stopped := false, reason := 0 }))) ∧
  (∀ (s : State) (q : BitVec 12) (v : Word), ready s = false →
    exec (.queueEnable q v) s = .next s ∧ exec (.queueDisable q v) s = .next s ∧
    exec (.queuePriorityWeight q v) s = .next s ∧ exec (.qtail q v) s = .next s ∧ exec (.qstatClearStopped q) s = .next s) ∧
  (∀ (s : State) (die : BitVec 1), ready s = true →
    exec (.dqerrClear die) s = .next (modDie s die.toNat (fun d => { d with dqerr := 0 }))) ∧
  (∀ (s : State) (q : BitVec 12), mayTake s q.toNat = true →
    let x := getQueue s q.toNat
    let addr := (if x.began then x.nextRec else x.base).toNat
    let stopped (t : State) (reason : Nat) : State := notify
      (modQueue t q.toNat (fun x => { x with stopped := true, reason := BitVec.ofNat 8 reason })) 1 q.toNat
      (BitVec.ofNat 64 reason) (BitVec.ofNat 64 addr)
    let r := runErrand (.record q.toNat) (readRecord x.ctx addr id none) s
    ((getContext s x.ctx).enable = false → exec (.recordTake q) s = .next (stopped s 9)) ∧
    ((getContext s x.ctx).enable = true →
      (∀ t, r = .waits t → exec (.recordTake q) s = .next t) ∧
      (∀ t, r = .failed t → exec (.recordTake q) s = .next (stopped t 1)) ∧
      (∀ bs c reason t, r = .done (bs, c, reason) t → reason ≠ 0 → exec (.recordTake q) s = .next (stopped t reason)) ∧
      (∀ bs c t, r = .done (bs, c, 0) t →
        let f := recordFields bs
        exec (.recordTake q) s = .next (addLaunch
          (modQueue t q.toNat (fun y =>
            { y with head := y.head + 1, began := true, nextRec := BitVec.ofNat 64 f.next }))
          { origin := .queue q.toNat x.head, ctx := x.ctx, root := q.toNat, record := bs,
            params := BitVec.ofNat 64 f.params, entry := BitVec.ofNat 64 c.entry, consts := BitVec.ofNat 64 c.consts,
            constLen := c.constLen, graph := c.graph }).2)))

/-- R16, R17, R21, R308, R312, R313, R315, R320, R346: a launch whose dependences hold enters a landing that has room, in a
context that is neither frozen nor torn down; the distributor goes through the levels by falling priority, placing a chain or
making a plan at the first that lets it; a complete launch writes back its lines, settles them and concludes; a child's template
that breaks a check refuses it; a gang with nothing left releases its slot; a drained chain that fits its save area is saved;
and a core without a run begins one with the unit it chooses. -/
def Obligations.LaunchSteps : Prop :=
  (∀ (s : State) (id : Nat) (l : Launch), getLaunch s id = some l →
    (let r := recordFields l.record
     l.phase = .taken → depHolds s r.dep0 = true → depHolds s r.dep1 = true → followsOn s l r.overlap = true →
     (getContext s l.ctx).frozen = false → (getContext s l.ctx).tearing = false → landingCount s < 512 →
     exec (.landingEntry id) s = .next (modLaunch s id (fun l => { l with phase := .landed }))) ∧
    (isOver s id l = true →
      let t := cleanLaunch s l
      (l.clusters.any (backsWait t) = true → exec (.launchComplete id) s = .next t) ∧
      (l.clusters.any (backsWait t) = false →
        exec (.launchComplete id) s = .next (concludeLaunch (settleLines t id) id l)))) ∧
  (∀ (f : Nat → State) (p : Nat) (t : State), p ≤ 7 →
    (∀ p', p < p' → p' ≤ 7 → ∃ u, visitLevel p' (f (p' + 1)) = (false, u) ∧ planLevel p' u = (false, f p')) →
    (visitLevel p (f (p + 1)) = (true, t) ∨
      ∃ u, visitLevel p (f (p + 1)) = (false, u) ∧ planLevel p u = (true, t)) →
    exec .chainPlacement (f 8) = .next t) ∧
  (∀ (s : State) (die : BitVec 1) (ch : Child), nextChild s die.toNat = some ch →
    let r := runErrand (.template die.toNat)
      (readRecord ch.ctx ch.template.toNat (fun r => { r with next := 0 }) (some ch.params.toNat)) s
    let reads (u : State) : Prop := exec (.childTemplateRead die) s = .next u
    (∀ t, r = .waits t → reads t) ∧
    (∀ t, r = .failed t → reads (refuseChild t die.toNat ch.seq 1)) ∧
    (∀ bs c reason t, r = .done (bs, c, reason) t → reason ≠ 0 → reads (refuseChild t die.toNat ch.seq reason)) ∧
    (∀ bs c t, r = .done (bs, c, 0) t → reads (modDie
      (addLaunch t (launchOf (.child die.toNat ch.seq) ch.ctx ch.root bs ch.params.toNat c)).2 die.toNat
      (fun d => { d with dq := d.dq.map (fun x => if x.seq = ch.seq then { x with launch := some t.nextId } else x) })))) ∧
  (∀ (s : State) (id gang : Nat) (b : Block) (g : Gang), getBlock s id = some b → b.gangs[gang]? = some g →
    b.ended = false → g.released = false → g.units = [] → liveLanes g = 0 → g.counts = [] →
    let b' := modGangOf b gang (fun g => { g with released := true })
    exec (.slotRelease id gang) s = .next
      (if b'.gangs.all (fun g => g.released) then endBlock (setBlock s id (some b')) id b' else setBlock s id (some b'))) ∧
  (∀ (s : State) (id : Nat) (b : Block) (ps : List (Nat × Nat)), getBlock s id = some b → b.saveReq = true →
    (coreOf b).isSome = true → (∀ p ∈ s.plans, ∀ m ∈ p.moves, m.1 ≠ id) →
    let es := chainBlocks s b.launch b.chain
    chainRecords s es false = some ps → (∀ e ∈ es, onHeldChannel s e.1 = false ∧ isDrained s e.1 e.2 = true) →
    (∀ u t, runErrand (.save id) (saveChain es ps) s = .done u t → exec (.blockSave id) s = .next t) ∧
    (∀ t, runErrand (.save id) (saveChain es ps) s = .waits t → exec (.blockSave id) s = .next t)) ∧
  (∀ (s s' : State) (core id g : Nat) (u : ExecUnit), (getCore s core).run = none →
    chooseUnit s core = (some (id, g, u), s') → exec (.arbitration core) s = .next (beginRun s' core id g u))

/-- R323 to R326, R382: a kernel node that is to run becomes a launch and is running; a copy node that has copied all is
complete, and one that waits goes on from where it stands; a condition node keeps the word that it has read and is complete; a
loop node whose word is 0 or whose count has come is complete, and another issues its body; a node whose read waits is tried
again. That the transfers of a step that waits are kept is the model's choice (assumption log 104). -/
def Obligations.GraphSteps : Prop :=
  ∀ (s : State) (id k : Nat) (l : Launch) (g : GraphRun), graphOf s id = some (l, g) →
    let n := g.node k
    let word := runErrand (.node id k) (nodeWord l.ctx n.a) s
    let kernel := runErrand (.node id k) (readNode l.ctx g k
      { origin := .node id k, ctx := l.ctx, root := l.root, record := [], params := 0 }) s
    (n.kind = 0 → runsNow g k = true →
      (∀ x t, kernel = .done x t →
        exec (.kernelNodeRun id k) s = .next (modGraph (addLaunch t x).2 id (fun g => g.setStatus k .running))) ∧
      (∀ t, kernel = .waits t → exec (.kernelNodeRun id k) s = .next t)) ∧
    (n.kind = 1 → (runsNow g k = true ∨ g.statusOf k = .running) →
      let start := if g.statusOf k = .running then tget 0 g.loops k else 0
      let r := copyPieces (.node id k) l.ctx n.a n.b n.c (decide (n.a < n.b + n.c ∧ n.b < n.a + n.c)) (n.c + 1) start s
      (∀ t, r = (.done, t) →
        exec (.copyNode id k) s = .next (modGraph t id (fun g => completeNode { g with loops := tset 0 g.loops k 0 } k))) ∧
      (∀ o t, r = (.wait o, t) →
        exec (.copyNode id k) s = .next (modGraph t id (fun g =>
          { g.setStatus k .running with loops := tset 0 g.loops k o })))) ∧
    (n.kind = 3 → runsNow g k = true →
      (∀ w t, word = .done w t → exec (.conditionNode id k) s =
        .next (modGraph t id (fun g => completeNode { g with words := tset 0 g.words k w } k))) ∧
      (∀ t, word = .waits t → exec (.conditionNode id k) s = .next t)) ∧
    (let again := g.statusOf k == .running && levelResolved g (some k)
     n.kind = 2 → (runsNow g k = true ∨ again = true) →
      (∀ w t, word = .done w t → exec (.loopNode id k) s = .next (modGraph t id (fun g =>
        let count := if again then tget 0 g.loops k + 1 else 0
        if w = 0 ∨ ((g.node k).c ≠ 0 ∧ (g.node k).c ≤ count) then
          completeNode { g with loops := tset 0 (tset 0 g.loops k count) k 0 } k
        else issueBody { g with loops := tset 0 g.loops k count } k))) ∧
      (∀ t, word = .waits t → exec (.loopNode id k) s = .next t))

/-! ### Contexts (spec/13) -/

/-- R339, R340, R342, R344 to R346: while the device is ready, a write that enables a context that is not enabled sets its
privilege bit and clears its freeze record, its condition bits and its reasons; the requests act only on an enabled context:
a freeze with reason 8, an evict on its placed chains, a thaw that clears the freeze and lets its threads go on, a teardown
that marks it; and a teardown ends, once its blocks stand still, its windows are closed and its write-backs acknowledged, with
the context not enabled. That a write to a resident context that would clear enable has no effect, whatever its other requests,
unless it asks for a teardown or one is under way, is the model's choice (assumption log 97). -/
def Obligations.ContextSteps : Prop :=
  ∀ (s : State) (c : BitVec 6),
    let n := c.toNat
    let x := getContext s n
    (∀ v : Word, ready s = true → v.getLsbD 26 = false → v.getLsbD 27 = false → v.getLsbD 28 = false →
      v.getLsbD 29 = false →
      (x.enable = false → v.getLsbD 31 = true → exec (.contextEnable c v) s = .next (modContext s n (fun x =>
        { x with enable := true, privileged := v.getLsbD 30, frozen := false, tearing := false, reason := 0, later := 0,
                 frz0 := 0, frz1 := 0, frz2 := 0, frz3 := 0 }))) ∧
      (x.enable = true → exec (.contextEnable c v) s = .next (modContext s n id))) ∧
    (∀ v : Word, ready s = true → x.enable = true → x.tearing = false → v.getLsbD 31 = false → v.getLsbD 28 = false →
      exec (.contextEnable c v) s = .next (modContext s n id)) ∧
    (ready s = true → x.enable = true →
      exec (.contextFreezeRequest c) s = .next (freezeCtx s n 8 0 0 0 0) ∧
      exec (.contextEvict c) s = .next (((blockList s).filter (fun e =>
        e.2.ctx == n && e.2.stage == 0 && (coreOf e.2).isSome)).foldl
          (fun s e => askSave s (chainBlocks s e.2.launch e.2.chain)) s) ∧
      (x.frozen = true → exec (.contextThaw c) s = .next (((blockList s).filter (fun e => e.2.ctx == n)).foldl
        (fun s e => thawBlock s e.1 e.2) (modContext s n (fun x => { x with frozen := false, reason := 0, later := 0 })))) ∧
      exec (.contextTeardown c) s = .next (modContext s n (fun x => { x with tearing := true }))) ∧
    (x.enable = false →
      exec (.contextFreezeRequest c) s = .next s ∧ exec (.contextEvict c) s = .next s ∧
      exec (.contextThaw c) s = .next s ∧ exec (.contextTeardown c) s = .next s) ∧
    (x.tearing = true → (∀ e ∈ contextBlocks s n, isStill s x.frozen e.1 e.2 = true) →
      let left := dropLaunches ((contextBlocks s n).foldl (fun s e => discardBlock s e.1 e.2) s) n
      let closed := runErrand (.teardown n) (tearWindows n (openWindows left n)) left
      (∀ t, closed = .waits t → exec (.teardownEnd c) s = .next t) ∧
      (∀ y t, closed = .done y t → backsOf (clearContextLines t n) n = false →
        ∃ u, exec (.teardownEnd c) s = .next u ∧ (getContext u n).enable = false ∧ (getContext u n).tearing = false ∧
          (getContext u n).frozen = false ∧ (getContext u n).reason = 0))

/-! ### The host, peers and the pod (spec/15) -/

/-- R356, R359, R360, R382, R385, R398, Table 15.7: a host access before the device is ready, or to an address that holds no
memory, is refused with reason 9, and one to a page that a window owns with reason 5: a read then completes with all bytes 0xFF
and a write is dropped; any other is performed at the home slices, or, where it must wait there, stands behind those that wait
already, and a read of data that cannot be corrected completes poisoned. What of a waiting request is done is its transfers,
and of a write the sectors before the one that waits. That an access to several addresses is classified as a whole, reason 9
before reason 5, and that a refused AtomicOp returns all ones, is the model's choice (assumption log 66); so is it that CXL.mem
is treated as BAR2 is (assumption log 67). The transfers of a request that waits are kept, which is the model's choice too
(assumption log 104). -/
def Obligations.HostSteps : Prop :=
  ∀ (s : State) (pa : BitVec 40) (len : Nat) (bs : List Byte) (op : HostAtomic) (wide : Bool) (b c : Dword),
    let opCode : Nat := match op with | .fetchAdd => 0 | .swap => 8 | .cas => 14
    let message (s : State) (m : Message) : State := { s with out := s.out ++ [m] }
    let refused (reason : Nat) : State := refusedAccess s 0xFFFF pa.toNat reason
    let size := if wide then 8 else 4
    let who : Asker := .host (hostId s)
    let waits (t : State) (r : HostReq) : State :=
      { t with hostIf := { t.hostIf with waiting := t.hostIf.waiting ++ [{ id := hostId s, req := r }] } }
    (∀ e, hostRefusal s pa.toNat len = some e →
      exec (.hostBar2Read pa len) s = .next (message (refused e) (.readData (some (List.replicate len 0xFF)))) ∧
      (s.link.cxl = true →
        exec (.cxlMemAccess pa none len) s = .next (message (refused e) (.cxlData (some (List.replicate len 0xFF)))))) ∧
    (∀ e, hostRefusal s pa.toNat bs.length = some e →
      exec (.hostBar2Write pa bs) s = .next (refused e) ∧
      (s.link.cxl = true → exec (.cxlMemAccess pa (some bs) len) s = .next (refused e))) ∧
    (∀ e, hostRefusal s pa.toNat size = some e → exec (.hostAtomicop pa op wide b c) s =
      .next (message (refused e) (.atomicData (if wide then BitVec.allOnes 64 else 0xFFFFFFFF)))) ∧
    (hostRefusal s pa.toNat len = none →
      (∀ data t, sliceRead who s pa.toNat len = .done data t →
        exec (.hostBar2Read pa len) s = .next (message t (.readData (some data))) ∧
        (s.link.cxl = true → exec (.cxlMemAccess pa none len) s = .next (message t (.cxlData (some data))))) ∧
      (∀ t, sliceRead who s pa.toNat len = .failed t →
        exec (.hostBar2Read pa len) s = .next (message t (.readData none)) ∧
        (s.link.cxl = true → exec (.cxlMemAccess pa none len) s = .next (message t (.cxlData none)))) ∧
      (∀ t, sliceRead who s pa.toNat len = .waits t →
        exec (.hostBar2Read pa len) s = .next (waits t (.read pa.toNat len)) ∧
        (s.link.cxl = true → exec (.cxlMemAccess pa none len) s = .next (waits t (.cxlRead pa.toNat len))))) ∧
    (hostRefusal s pa.toNat bs.length = none →
      (∀ a t, sliceWrite who s pa.toNat bs = ((a, []), t) →
        exec (.hostBar2Write pa bs) s = .next t ∧
        (s.link.cxl = true → exec (.cxlMemAccess pa (some bs) len) s = .next t)) ∧
      (∀ a x xs t, sliceWrite who s pa.toNat bs = ((a, x :: xs), t) →
        exec (.hostBar2Write pa bs) s = .next (waits t (.write a (x :: xs))) ∧
        (s.link.cxl = true → exec (.cxlMemAccess pa (some bs) len) s = .next (waits t (.cxlWrite a (x :: xs)))))) ∧
    (hostRefusal s pa.toNat size = none →
      let r := runErrand who (Errand.ask (fun u => atomHome u pa.toNat whoHost opCode wide b c)) s
      (∀ old t, r = .done old t → exec (.hostAtomicop pa op wide b c) s =
        .next (message t (.atomicData (BitVec.ofNat 64 (leNat old))))) ∧
      (∀ t, r = .waits t → exec (.hostAtomicop pa op wide b c) s =
        .next (waits t (.atomic pa.toNat opCode wide b c)))) ∧
    (∀ h ∈ s.hostIf.waiting, h.id < hostId s) ∧
    (ready s = false → 0 < len → hostRefusal s pa.toNat len = some 9)

/-- R257, R356, R357, R362, R363, R365, R366, R369, R371, R398, R304, R339: what the pod and the host do to the device and to its BAR0
registers: a peer's request is performed once the ports are released, under the export table as it stands when the request
arrives, and never twice; a port that changes is reported with the ports; a row that may go is sent; FWDERR is cleared; link
training sets the link; a host invalidation removes translations. A write of a BAR0 register does what Tables 12.1, 13.2, 15.3,
15.6, 15.8 and 17.5 and R322 say of it, and before stage 3 nothing outside the management region; a read gives the register, or 0
before stage 3; an offset that no table lists reads 0 and ignores writes, and one that is only read ignores writes. That the
host's register writes keep their place behind its posted writes that wait is the model's choice, and no clause here (assumption
log 65); so are how a peer's request is checked and how rows are merged, which performPeer and sendRow hold (assumption logs 68
and 69). -/
def Obligations.PodSteps : Prop :=
  (∀ (s : State) (r : PeerReq),
    (s.link.released = true → r.seq ∉ tget [] s.link.seen r.src → exec (.peerRequest r) s = .next (performPeer
      { s with link := { s.link with seen := tset [] s.link.seen r.src (r.seq :: tget [] s.link.seen r.src) } }
      { req := r, base := s.link.pexbase, cnt := s.link.pexcnt })) ∧
    (r.seq ∈ tget [] s.link.seen r.src → exec (.peerRequest r) s = .next s)) ∧
  (∀ (s : State) (port : BitVec 5) (up : Bool), port.toNat < 18 → s.link.released = true →
    s.link.ports.getLsbD port.toNat ≠ up → ∃ ports : BitVec 18,
      (∀ k, k < 18 → ports.getLsbD k = if k = port.toNat then up else s.link.ports.getLsbD k) ∧
      exec (.portStateChange port up) s = .next (notify { s with link := { s.link with ports := ports } } 5 port.toNat
        (if up then 1 else 0) (ports.setWidth 64))) ∧
  (∀ (s : State) (die : BitVec 1) (n : Nat) (r : Row) (c : SendCommand) (b : Block),
    sendableRows s die.toNat = [n] → (getDie s die.toNat).rows[n]? = some r →
    (getDie s die.toNat).sends.find? (fun c => c.id == r.cmd) = some c → getBlock s c.block = some b →
    exec (.forwarderRowSend die) s = .next (sendRow (draw s).2 die.toNat n r c b)) ∧
  (∀ (s : State) (die : BitVec 1), ready s = true →
    exec (.fwderrClear die) s = .next (modDie s die.toNat (fun d => { d with fwderr := 0 }))) ∧
  (∀ (s : State) (rate width : Nat) (cxl : Bool), ∃ t, exec (.linkTraining rate width cxl) s = .next t ∧
    t.link.rate = rate ∧ t.link.width = width ∧ t.link.cxl = cxl ∧ t.mem = s.mem ∧ t.link.ports = s.link.ports ∧
    (cxl = false → t.hostIf.lines = [])) ∧
  (∀ (s : State) (c : BitVec 6) (va : Dword) (len : Nat),
    exec (.hostInvalidation c true va len) s = .next (invalidateTranslations s (some c.toNat) none) ∧
    exec (.hostInvalidation c false va len) s =
      .next (invalidateTranslations s (some c.toNat) (some (va.toNat, len)))) ∧
  (∀ (s : State) (o : BitVec 25) (v : Dword),
    (ready s = false → (pageAt o.toNat).managed = false → exec (.registerWrite o v) s = .next s) ∧
    (o = 0x1101000 → exec (.registerWrite o v) s = .next { s with mgmt := { s.mgmt with
      pwrlim := BitVec.ofNat 32 (max 1200 (min 2600 (v.toNat % 4096))) } }) ∧
    (ready s = true →
      (o = 0x1042000 → s.hostIf.nqctl.getLsbD 31 = false →
        exec (.registerWrite o v) s = .next { s with hostIf := { s.hostIf with nqbase := v } }) ∧
      (o = 0x104200C →
        exec (.registerWrite o v) s = .next { s with hostIf := { s.hostIf with nqhead := v.extractLsb' 0 32 } }) ∧
      (o = 0x1043008 → exec (.registerWrite o v) s = .next { s with link := { s.link with pexbase := v } }) ∧
      (o = 0x1043014 → exec (.registerWrite o v) s =
        .next { s with link := { s.link with pkey := v.extractLsb' 0 32 &&& 0xFFFF } }) ∧
      (∀ q : BitVec 12,
        (o.toNat = q.toNat * 4096 → (getQueue s q.toNat).enabled = false →
          exec (.registerWrite o v) s = .next (modQueue s q.toNat (fun x => { x with base := v }))) ∧
        (o.toNat = q.toNat * 4096 + 0x008 → exec (.registerWrite o v) s = exec (.qtail q (v.extractLsb' 0 32)) s) ∧
        (o.toNat = q.toNat * 4096 + 0x018 → exec (.registerWrite o v) s = exec (.queueEnable q (v.extractLsb' 0 32)) s)) ∧
      (∀ c : BitVec 6, o.toNat = 0x1000000 + c.toNat * 4096 + 0x014 →
        exec (.registerWrite o v) s = exec (.contextEnable c (v.extractLsb' 0 32)) s))) ∧
  (∀ (s : State) (o : BitVec 25) (v : Dword), ready s = true →
    let w : Word := v.extractLsb' 0 32
    let gives (n : Nat) (u : State) : Prop := o.toNat = n → exec (.registerWrite o v) s = .next u
    let reads (n : Nat) (x : Dword) : Prop := readRegister s n = x
    let h := s.hostIf
    let k := s.link
    gives 0x1042000 (if h.nqctl.getLsbD 31 then s else { s with hostIf := { h with nqbase := v } }) ∧
    gives 0x1042008 { s with hostIf := { h with nqctl := (w &&& 0x801F0000) ||| BitVec.ofNat 32 (min 9 (w.toNat % 16)) } } ∧
    gives 0x1042014 (if w = 0 then { s with hostIf := { h with nqlost := 0 } } else s) ∧
    gives 0x1043010 { s with link := { k with pexcnt := BitVec.ofNat 32 (min 65536 w.toNat) } } ∧
    reads 0x1042000 h.nqbase ∧ reads 0x1042008 (h.nqctl.setWidth 64) ∧ reads 0x104200C (h.nqhead.setWidth 64) ∧
    reads 0x1042010 (h.nqtail.setWidth 64) ∧ reads 0x1042014 (h.nqlost.setWidth 64) ∧
    reads 0x1043000 (k.uadev.setWidth 64) ∧ reads 0x1043004 (k.ports.setWidth 64) ∧ reads 0x1043008 k.pexbase ∧
    reads 0x1043010 (k.pexcnt.setWidth 64) ∧ reads 0x1043014 (k.pkey.setWidth 64) ∧
    (∀ d : BitVec 1,
      let x := getDie s d.toNat
      let page := 0x1040000 + d.toNat * 4096
      let forwarder := 0x1044000 + d.toNat * 0x800
      gives page (modDie s d.toNat (fun y => { y with dqcpl := v })) ∧
      gives (page + 0x10) (if v = 0 then modDie s d.toNat (fun y => { y with dqerr := 0 }) else s) ∧
      gives (forwarder + 8) (if v = 0 then modDie s d.toNat (fun y => { y with fwderr := 0 }) else s) ∧
      reads page x.dqcpl ∧ reads (page + 8) (x.dqseq.setWidth 64) ∧ reads (page + 0x10) x.dqerr ∧
      reads forwarder (BitVec.ofNat 64 x.rows.length) ∧ reads (forwarder + 8) x.fwderr) ∧
    (∀ q : BitVec 12,
      let x := getQueue s q.toNat
      let page := q.toNat * 4096
      gives page (modQueue s q.toNat (fun y => if x.enabled then y else { y with base := v })) ∧
      gives (page + 0x10) (modQueue s q.toNat (fun y => if x.enabled then y else { y with cpl := v })) ∧
      gives (page + 0x1C) (if v.getLsbD 30 then modQueue s q.toNat (fun y => { y with stopped := false, reason := 0 }) else s) ∧
      reads page x.base ∧ reads (page + 8) (x.tail.setWidth 64) ∧ reads (page + 0xC) (x.head.setWidth 64) ∧
      reads (page + 0x10) x.cpl ∧ reads (page + 0x18) (x.ctl.setWidth 64) ∧ reads (page + 0x20) (x.cseq.setWidth 64) ∧
      (let stat := readRegister s (page + 0x1C)
       stat.getLsbD 30 = x.stopped ∧ stat.extractLsb' 8 8 = x.reason ∧
       (stat.getLsbD 31 = true ↔ x.head = x.tail ∧ ∀ e ∈ launchList s, (∃ m, e.2.origin = .queue q.toNat m) →
         e.2.phase = .complete))) ∧
    (∀ c : BitVec 6,
      let x := getContext s c.toNat
      let page := 0x1000000 + c.toNat * 4096
      gives page (modContext s c.toNat (fun y => if x.enable then y else { y with root := v })) ∧
      gives (page + 8) (modContext s c.toNat (fun y => if x.enable then y else { y with save := v })) ∧
      gives (page + 0x10) (modContext s c.toNat (fun y => { y with ssz := w })) ∧
      reads page x.root ∧ reads (page + 8) x.save ∧ reads (page + 0x10) (x.ssz.setWidth 64) ∧
      reads (page + 0x20) x.frz0 ∧ reads (page + 0x28) x.frz1 ∧ reads (page + 0x30) x.frz2 ∧ reads (page + 0x38) x.frz3 ∧
      (let ctl := readRegister s (page + 0x14)
       ctl.getLsbD 31 = x.enable ∧ ctl.getLsbD 30 = x.privileged ∧ ctl.extractLsb' 0 30 = 0) ∧
      (let stat := readRegister s (page + 0x18)
       stat.getLsbD 31 = x.enable ∧ stat.getLsbD 30 = x.frozen ∧ stat.getLsbD 29 = x.tearing ∧
       stat.extractLsb' 8 8 = x.reason ∧ stat.extractLsb' 0 8 = x.later))) ∧
  (∀ (s : State) (o : BitVec 25) (v : Dword),
    let n := o.toNat
    let within (lo hi : Nat) : Prop := lo ≤ n ∧ n < hi
    let among (size : Nat) (l : List Nat) : Prop := n % size ∈ l
    let logs (lo hi : Nat) : Prop := lo ≤ n % 4096 ∧ n % 4096 < hi ∧ n % 8 = 0
    let swaps : Prop := 0x400 ≤ n % 4096 ∧ n % 4096 < 0x680 ∧ n % 4 = 0
    let written : Prop :=
      (within 0 0x1000000 ∧ among 4096 [0, 0x8, 0x10, 0x18, 0x1C]) ∨
      (within 0x1000000 0x1040000 ∧ among 4096 [0, 0x8, 0x10, 0x14]) ∨ (within 0x1040000 0x1042000 ∧ among 4096 [0, 0x10]) ∨
      (within 0x1042000 0x1043000 ∧ among 4096 [0, 0x8, 0xC, 0x14]) ∨
      (within 0x1043000 0x1044000 ∧ among 4096 [0x8, 0x10, 0x14]) ∨ (within 0x1044000 0x1045000 ∧ among 2048 [0x8]) ∨
      (within 0x1100000 0x1101000 ∧ among 4096 [0x10]) ∨ (within 0x1101000 0x1102000 ∧ among 4096 [0, 0x10, 0x18]) ∨
      (within 0x1140000 0x1146000 ∧ (among 4096 [0, 0x4, 0x8, 0xC, 0x10, 0x40] ∨ swaps)) ∨
      (within 0x1150000 0x1152800 ∧ among 256 [0x4, 0x10, 0x18, 0x20, 0x24, 0x28])
    let read : Prop :=
      (within 0 0x1000000 ∧ among 4096 [0, 0x8, 0xC, 0x10, 0x18, 0x1C, 0x20]) ∨
      (within 0x1000000 0x1040000 ∧ among 4096 [0, 0x8, 0x10, 0x14, 0x18, 0x20, 0x28, 0x30, 0x38]) ∨
      (within 0x1040000 0x1042000 ∧ among 4096 [0, 0x8, 0x10]) ∨
      (within 0x1042000 0x1043000 ∧ among 4096 [0, 0x8, 0xC, 0x10, 0x14]) ∨
      (within 0x1043000 0x1044000 ∧ among 4096 [0, 0x4, 0x8, 0x10, 0x14]) ∨ (within 0x1044000 0x1045000 ∧ among 2048 [0, 0x8]) ∨
      (within 0x1100000 0x1101000 ∧ among 4096 [0, 0x4, 0x8]) ∨
      (within 0x1101000 0x1102000 ∧ among 4096 [0, 0x4, 0x8, 0xC, 0x10, 0x14, 0x18]) ∨
      (within 0x1140000 0x1146000 ∧
        (among 4096 [0, 0x4, 0x8, 0xC, 0x10, 0x14, 0x20, 0x24, 0x28, 0x2C, 0x30] ∨ logs 0x100 0x300 ∨ swaps)) ∨
      (within 0x1150000 0x1152800 ∧
        (among 256 [0, 0x4, 0x8, 0x10, 0x18, 0x20, 0x24, 0x28] ∨ (0x80 ≤ n % 256 ∧ n % 8 = 0)))
    (¬ written → exec (.registerWrite o v) s = .next s) ∧ (¬ read → readRegister s n = 0) ∧
    (ready s = false → n < 0x1100000 → exec (.registerWrite o v) s = .next s ∧ readRegister s n = 0) ∧
    takeInput s (.registerRead n) = { s with out := s.out ++ [.registerData (readRegister s n)] })

/-! ### Banks, HBM4 and the platform (spec/16, spec/17) -/

/-- R245, R375, R376, R377, R382 to R384, R386, R389: a write of CBREQ joins the cluster's requests, and their first is served: the
modes that it leads to are settled as it begins, and the rest follows once its write-backs are acknowledged. A write of CBHEALTH
is taken field by field, one or several: a field is refused that R389 names, what a bank is to become counted for those that
wait; a retirement, the end of one, and a change behind one that waits join the requests; any other field is changed at once.
The logs are cleared; a failed transfer is tried again, up to four times, and then its pseudo-channel is held, until HREL
releases or fails it; HSWAP keeps its fields unless they are out of range or name one lane twice. The registers of Tables 16.1 and
16.2 are written and read as the tables say. That the fields of one write
of CBHEALTH are counted together, with the changes that wait, is the model's choice (assumption log 48). -/
def Obligations.BankAndTransferSteps : Prop :=
  (∀ (s : State) (cl : Nat) (v : Word) (h : Dword),
    exec (.cbreq cl v) s = .next (modCluster s cl (fun c => { c with cbreq := v, requests := c.requests ++ [.mode v] })) ∧
    (let u := deliverAnswers s
     ∀ r rs, (getCluster u cl).requests = r :: rs →
      let new := (getCluster u cl).change.getD (modesAfter u cl r)
      let t := surrender u cl new
      (backsWait t cl = true →
        exec (.bankModeChange cl) s = .next (modCluster t cl (fun c => { c with change := some new }))) ∧
      (backsWait t cl = false → exec (.bankModeChange cl) s =
        .next (serveRequest (modCluster t cl (fun c => { c with requests := rs, change := none })) cl new r))) ∧
    (let old := getCluster s cl
     let want (k : Nat) : Nat := healthOf h k
     let toCome (k : Nat) : Nat := old.requests.foldl (fun x r =>
       match r with | .health j y => if j = k then y else x | _ => x) (healthOf old.cbhealth k)
     let target (k : Nat) : Nat := if want k = 3 ∨ (want k = 2 ∧ 16 ≤ k) then toCome k else want k
     let count (x : Nat) : Nat := ((List.range 18).filter (fun k => target k == x)).length
     let refused (k : Nat) : Prop := want k = 3 ∨ (want k = 2 ∧ 16 ≤ k) ∨
       (want k = 2 ∧ toCome k ≠ 2 ∧ bankModeOf old.cbmode k = 2 ∧ bankBound s cl k = true) ∨
       (want k = 1 ∧ toCome k ≠ 1 ∧ 2 < count 1) ∨ (want k = 2 ∧ toCome k ≠ 2 ∧ 1 < count 2)
     let later (k : Nat) : Prop :=
       want k = 2 ∨ healthOf old.cbhealth k = 2 ∨ ∃ x, BankRequest.health k x ∈ old.requests
     ∃ t, exec (.cbhealth cl h) s = .next t ∧ (∀ j, j ≠ cl → getCluster t j = getCluster s j) ∧ t.mem = s.mem ∧
       ((getCluster t cl).refused = true ↔ ∃ k, k < 18 ∧ refused k) ∧
       (getCluster t cl).cbmode = old.cbmode ∧
       (∀ k, k < 18 →
         (¬ refused k → want k ≠ toCome k → ¬ later k → healthOf (getCluster t cl).cbhealth k = want k) ∧
         (refused k ∨ want k = toCome k ∨ later k → healthOf (getCluster t cl).cbhealth k = healthOf old.cbhealth k)) ∧
       (∃ xs : List BankRequest, (getCluster t cl).requests = old.requests ++ xs ∧
         ∀ x, x ∈ xs ↔ ∃ k, k < 18 ∧ ¬ refused k ∧ want k ≠ toCome k ∧ later k ∧ x = .health k (want k))) ∧
    exec (.selogClear cl) s = .next (modCluster s cl (fun c => { c with selog := [], overflow := false }))) ∧
  (∀ (s : State) (k pc : Nat) (t : Transfer), tget none (getStack s k).xfers pc = some t →
    let held := tget false (getStack s k).holds pc
    let good (t : Transfer) : Nat := if t.bad then 2 else 1
    (∀ s', t.tries < 4 → held = false → attempt s k pc t.sector = (true, s') → exec (.transferRetry k pc) s =
      .next (modStack s' k (fun st => { st with xfers := tset none st.xfers pc (some { t with tries := t.tries + 1 }) }))) ∧
    (∀ s', t.tries < 4 → held = false → attempt s k pc t.sector = (false, s') → exec (.transferRetry k pc) s =
      .next (settleTransfer (logTransfer s' k pc t 1 (t.tries + 1) []) k pc t (good t))) ∧
    (4 ≤ t.tries → held = false → exec (.pseudoChannelHold k pc) s = .next (logTransfer
      (modStack s k (fun st => { st with holds := tset false st.holds pc true })) k pc t 2 4 (testLanes s k pc))) ∧
    (held = true →
      let s1 := modStack s k (fun st => { st with holds := tset false st.holds pc false })
      (∀ s', attempt s1 k pc t.sector = (false, s') →
        exec (.hrelRelease k pc) s = .next (settleTransfer s' k pc t (good t))) ∧
      (∀ s', attempt s1 k pc t.sector = (true, s') →
        exec (.hrelRelease k pc) s = .next
          (modStack s' k (fun st => { st with xfers := tset none st.xfers pc (some { t with tries := 0 }) }))) ∧
      exec (.hrelFail k pc) s = .next (settleTransfer s1 k pc t 3))) ∧
  (∀ (s : State) (k pc : Nat) (v : Word),
    let a := v.extractLsb' 24 6
    let b := v.extractLsb' 16 6
    let refused : Prop := (v.getLsbD 31 = true ∧ v.getLsbD 23 = true ∧ a = b) ∨ (v.getLsbD 31 = true ∧ 35 < a.toNat) ∨
      (v.getLsbD 23 = true ∧ 35 < b.toNat)
    (refused → exec (.hswap k pc v) s = .next s) ∧
    (¬ refused → exec (.hswap k pc v) s =
      .next (modStack s k (fun st => { st with hswap := tset 0 st.hswap pc (v &&& 0xBFBF0000) }))) ∧
    exec (.hlogClearArray k) s = .next (modStack s k (fun st => { st with halog := [], arrayOverflow := false })) ∧
    exec (.hlogClearTransfer k) s = .next (modStack s k (fun st => { st with htlog := [], transferOverflow := false }))) ∧
  (∀ (s : State) (o : BitVec 25) (v : Dword),
    let w : Word := v.extractLsb' 0 32
    let writes (n : Nat) (r : Host.Outcome State Fault Refusal) : Prop := o.toNat = n → exec (.registerWrite o v) s = r
    let reads (n : Nat) (x : Dword) : Prop := readRegister s n = x
    (∀ k, k < 6 →
      let page := 0x1140000 + k * 4096
      let x := getStack s k
      let noted := modStack s k (fun st => { st with notify := v.getLsbD 8 })
      let cleared (f : Machine.Stack → Machine.Stack) : Host.Outcome State Fault Refusal :=
        .next (if w = 0 then modStack s k f else s)
      writes page (cleared (fun st => { st with hacorr := 0 })) ∧ writes (page + 4) (cleared (fun st => { st with haunc := 0 })) ∧
      writes (page + 8) (cleared (fun st => { st with htrec := 0 })) ∧
      writes (page + 0xC) (cleared (fun st => { st with htheld := 0 })) ∧
      (v.getLsbD 0 = false → v.getLsbD 1 = false → writes (page + 0x10) (.next noted)) ∧
      (v.getLsbD 0 = true → v.getLsbD 1 = false → writes (page + 0x10) (exec (.hlogClearArray k) noted)) ∧
      (v.getLsbD 0 = false → v.getLsbD 1 = true → writes (page + 0x10) (exec (.hlogClearTransfer k) noted)) ∧
      (v.getLsbD 0 = true → v.getLsbD 1 = true → writes (page + 0x10) (.next (modStack noted k (fun st =>
        { st with halog := [], arrayOverflow := false, htlog := [], transferOverflow := false })))) ∧
      (v.extractLsb' 8 2 = 1 → writes (page + 0x40) (exec (.hrelRelease k (v.extractLsb' 0 8).toNat) s)) ∧
      (v.extractLsb' 8 2 = 2 → writes (page + 0x40) (exec (.hrelFail k (v.extractLsb' 0 8).toNat) s)) ∧
      (v.extractLsb' 8 2 = 0 ∨ v.extractLsb' 8 2 = 3 → writes (page + 0x40) (.next s)) ∧
      (∀ n, n < 160 → writes (page + 0x400 + 4 * n) (exec (.hswap k n w) s) ∧
        reads (page + 0x400 + 4 * n) ((tget 0 x.hswap n).setWidth 64)) ∧
      reads page (x.hacorr.setWidth 64) ∧ reads (page + 4) (x.haunc.setWidth 64) ∧ reads (page + 8) (x.htrec.setWidth 64) ∧
      reads (page + 0xC) (x.htheld.setWidth 64) ∧ reads (page + 0x14) (x.hseq.setWidth 64) ∧ reads (page + 0x40) 0 ∧
      (x.halog.length ≤ 16 → x.htlog.length ≤ 16 →
        let ctl := readRegister s (page + 0x10)
        ctl.getLsbD 31 = x.arrayOverflow ∧ ctl.getLsbD 30 = x.transferOverflow ∧ ctl.getLsbD 8 = x.notify ∧
        (ctl.extractLsb' 24 5).toNat = x.htlog.length ∧ (ctl.extractLsb' 16 5).toNat = x.halog.length) ∧
      (∀ n, n < 160 → (readRegister s (page + 0x20 + 4 * (n / 32))).getLsbD (n % 32) = tget false x.holds n) ∧
      (∀ n e, x.halog[n]? = some e → n < 16 → reads (page + 0x100 + 16 * n) e.1 ∧ reads (page + 0x108 + 16 * n) e.2) ∧
      (∀ n e, x.htlog[n]? = some e → n < 16 → reads (page + 0x200 + 16 * n) e.1 ∧ reads (page + 0x208 + 16 * n) e.2)) ∧
    (∀ c, c < 40 →
      let page := 0x1150000 + c * 256
      let x := getCluster s c
      let noted := modCluster s c (fun y => { y with notify := v.getLsbD 8 })
      let cleared (f : Machine.Cluster → Machine.Cluster) : Host.Outcome State Fault Refusal :=
        .next (if w = 0 then modCluster s c f else s)
      writes (page + 4) (exec (.cbreq c w) s) ∧ writes (page + 0x10) (exec (.cbhealth c v) s) ∧
      writes (page + 0x18) (if v.getLsbD 0 then exec (.selogClear c) noted else .next noted) ∧
      writes (page + 0x20) (cleared (fun y => { y with secorr := 0 })) ∧
      writes (page + 0x24) (cleared (fun y => { y with serec := 0 })) ∧
      writes (page + 0x28) (cleared (fun y => { y with seunc := 0 })) ∧
      reads page (x.cbmode.setWidth 64) ∧ reads (page + 4) (x.cbreq.setWidth 64) ∧ reads (page + 0x10) x.cbhealth ∧
      reads (page + 0x20) (x.secorr.setWidth 64) ∧ reads (page + 0x24) (x.serec.setWidth 64) ∧
      reads (page + 0x28) (x.seunc.setWidth 64) ∧
      (let stat := readRegister s (page + 8)
       stat.getLsbD 31 = x.change.isSome ∧ stat.getLsbD 30 = x.left ∧ stat.getLsbD 29 = x.refused ∧
       stat.extractLsb' 0 29 = 0) ∧
      (x.selog.length ≤ 8 →
        let ctl := readRegister s (page + 0x18)
        ctl.getLsbD 31 = x.overflow ∧ ctl.getLsbD 8 = x.notify ∧ (ctl.extractLsb' 16 4).toNat = x.selog.length) ∧
      (∀ n e, x.selog[n]? = some e → n < 8 → reads (page + 0x80 + 16 * n) e.1 ∧ reads (page + 0x88 + 16 * n) e.2)))

/-- R36, R374, R395 to R397, R399, R400, R402, R404 to R406: reset and power-off keep flash and put every register of the module at
its reset value; the boot goes from the ROM, with the identity key derived, to verifying, to the first slot that is accepted, A
before B, with its image measured and the alias key derived, and to ready, or to recovery where neither is accepted, as where
neither can be read; a slot is accepted, or has another result, as R396 says of its header, its key's hash and its signature. At
the step to ready the repair records are applied, the swaps first, a record out of range skipped and reported; then the device
number is written and the ports are released; and the measurements of Table 17.2 are complete. A device that has booted does not
boot again. A flash write changes bytes of its region only; the clock moves one step of 250 MHz within its limits, with the
throttle bits, of which two stay until they are cleared, and the highest temperature; a die at 105 degrees trips; each core's
cycle counter rises by one in every cycle once the device is ready; the registers of Tables 17.4 and 17.5 are written and read as
the tables say. That the boot is seen at these stages and at no other (assumption log 71), that readings are taken at the clock's
step and the counters rise from stage 3 on (assumption log 72), that the flash page takes no write before Sarmer, which serves it,
runs (assumption log 123), and the formats of the records and the derivation of the keys (assumption log 15), are the model's
choices. -/
def Obligations.PlatformSteps : Prop :=
  (∀ (s : State), ∃ t, exec .powerOff s = .next t ∧ exec (.resetreq 0xB0070001) s = .next t ∧
    t.mem = [] ∧ t.blocks = [] ∧ t.ops = [] ∧ t.backs = [] ∧ t.cores = [] ∧ t.clusters = [] ∧ t.hbmStacks = [] ∧
    t.contexts = [] ∧ t.queues = [] ∧ t.dies = [] ∧ t.launches = [] ∧ t.windows = [] ∧ t.hostIf = {} ∧
    t.mgmt = { State.reset.mgmt with flash := s.mgmt.flash, boots := s.mgmt.boots + 1 } ∧ t.hostMem = s.hostMem ∧
    t.link = { State.reset.link with peers := s.link.peers } ∧
    (∀ c, (getCluster t c).cbmode = 0 ∧ (getCluster t c).cbhealth = 0 ∧ (getCluster t c).selog = []) ∧
    (∀ k n, tget 0 (getStack t k).hswap n = 0 ∧ (getStack t k).halog = [] ∧ (getStack t k).htlog = [])) ∧
  (∀ (s : State) (v : Word), v ≠ 0xB0070001 → exec (.resetreq v) s = .next s) ∧
  (∀ (s : State),
    let stage := s.mgmt.bootstat.extractLsb' 28 4
    let a := s.mgmt.bootstat.extractLsb' 8 8
    let resultA := slotResult s.mgmt.flash.slotA s.phys.flashA s.phys.rootKeyHash
    let resultB := slotResult s.mgmt.flash.slotB s.phys.flashB s.phys.rootKeyHash
    let digest (bs : List Byte) : List Byte := Crypto.bigBytes 32 (Crypto.sha256 bs).toNat
    let boots (word : Word) : Prop := ∃ t, exec .powerOnReset s = .next t ∧ t.mgmt.bootstat = word ∧
      t.mgmt.flash = s.mgmt.flash ∧ t.link = s.link ∧ t.mem = s.mem
    let handed (word : Word) (slot : Table Byte) : Prop := ∃ t, exec .powerOnReset s = .next t ∧ t.mgmt.bootstat = word ∧
      t.mgmt.fwver = BitVec.ofNat 32 (fieldAt (tgetMany 0 slot 0 512) 4 4) ∧
      t.mgmt.fwsvn = BitVec.ofNat 32 (fieldAt (tgetMany 0 slot 0 512) 8 4) ∧
      (let header := tgetMany 0 slot 0 512
       let image := header ++ tgetMany 0 slot 512 (fieldAt header 12 4)
       t.mgmt.aliasKey = s.mgmt.identityKey.map (fun k => Config.aliasKey k (Crypto.sha256 image)) ∧
       t.mgmt.measurements = [Crypto.bigBytes 32 Config.romRelease.toNat, digest image, (header.drop 4).take 8]) ∧
      t.mgmt.flash = s.mgmt.flash ∧ t.link = s.link ∧ t.mem = s.mem
    (stage = 0 → boots 0x10000000 ∧ ∃ t, exec .powerOnReset s = .next t ∧
      t.mgmt.identityKey = some (Config.identityKey s.mgmt.flash.identity)) ∧
    (stage = 1 → a = 0 → resultA = 1 → handed 0x20000100 s.mgmt.flash.slotA) ∧
    (stage = 1 → a = 0 → resultA ≠ 1 → boots (0x10000000 + BitVec.ofNat 32 (resultA * 2 ^ 8))) ∧
    (stage = 1 → a ≠ 0 → resultB = 1 → handed (0x21000001 + a.setWidth 32 * 256) s.mgmt.flash.slotB) ∧
    (stage = 1 → a ≠ 0 → resultB ≠ 1 → boots (0xF0000000 + a.setWidth 32 * 256 + BitVec.ofNat 32 resultB)) ∧
    (s.phys.flashA = true → resultA = 5) ∧ (s.phys.flashB = true → resultB = 5) ∧
    (stage = 2 → ∃ t, exec .powerOnReset s = .next t ∧ t.mgmt.bootstat.extractLsb' 28 4 = 3 ∧
      t.mgmt.bootstat.extractLsb' 24 4 = s.mgmt.bootstat.extractLsb' 24 4 ∧
      t.mgmt.bootstat.extractLsb' 0 16 = s.mgmt.bootstat.extractLsb' 0 16 ∧
      (let recs := s.mgmt.flash.records
       let run (i : Instr) (u : State) : State := match exec i u with | .next v => v | _ => u
       let swapped := (Config.laneSwaps recs).foldl (fun u x =>
         if x.1 < 6 ∧ x.2.1 < 160 then run (.hswap x.1 x.2.1 (BitVec.ofNat 32 x.2.2)) u else u) s
       let repaired := (Config.bankHealths recs).foldl (fun u x =>
         if x.1 < 40 ∧ x.2 < 2 ^ 36 then
           let v := run (.cbhealth x.1 (BitVec.ofNat 64 x.2)) u
           serveAll x.1 (getCluster v x.1).requests.length v
         else u) swapped
       t.hbmStacks = repaired.hbmStacks ∧ t.clusters = repaired.clusters ∧
       (t.mgmt.bootstat.getLsbD 16 = true ↔ (∃ x ∈ Config.laneSwaps recs, 6 ≤ x.1 ∨ 160 ≤ x.2.1) ∨
         ∃ x ∈ Config.bankHealths recs, 40 ≤ x.1 ∨ 2 ^ 36 ≤ x.2) ∧
       (∀ n, Config.podNumber repaired.mgmt.flash.records = some n → n < 576 →
         t.link = { repaired.link with uadev := BitVec.ofNat 32 (2 ^ 31 + n), released := true }) ∧
       ((∀ n, Config.podNumber repaired.mgmt.flash.records = some n → 576 ≤ n) → t.link = repaired.link) ∧
       t.mgmt.measurements = repaired.mgmt.measurements.take 3 ++
         [digest (Config.podRecord repaired.mgmt.flash.records), digest (Config.appliedRecords repaired.mgmt.flash.records),
          [(s.mgmt.bootstat.extractLsb' 24 4).setWidth 8]])) ∧
    (2 < stage.toNat → exec .powerOnReset s = .next s)) ∧
  (∀ (slot : Table Byte) (root : BitVec 256),
    let header := tgetMany 0 slot 0 512
    let len := fieldAt header 12 4
    let part (n m : Nat) : List Byte := (header.drop n).take m
    let result := slotResult slot false root
    let sound : Prop := fieldAt header 0 4 = 0x5A4D0940 ∧ 4096 ∣ len ∧ len ≤ 2 ^ 24 - 4096
    let signed : Bool := Crypto.verify (Crypto.sha256 (header.take 80 ++ header.drop 144 ++ tgetMany 0 slot 512 len))
      (Crypto.bigNat (part 16 32), Crypto.bigNat (part 48 32)) (Crypto.bigNat (part 80 32)) (Crypto.bigNat (part 112 32))
    slotResult slot true root = 5 ∧ (¬ sound → result = 2) ∧ (sound → Crypto.sha256 (part 16 64) ≠ root → result = 3) ∧
    (sound → Crypto.sha256 (part 16 64) = root → result = if signed then 1 else 4)) ∧
  (∀ (s : State) (region : FlashRegion) (offset : Nat) (bs : List Byte),
    let size := if region = .records then 2 ^ 20 else 2 ^ 24
    let served := 1 < (s.mgmt.bootstat.extractLsb' 28 4).toNat
    let f := s.mgmt.flash
    (served → offset + bs.length ≤ size → exec (.flashPageWrite region offset bs) s = .next { s with mgmt :=
      { s.mgmt with flash := match region with
        | .slotA => { f with slotA := tsetMany 0 f.slotA offset bs }
        | .slotB => { f with slotB := tsetMany 0 f.slotB offset bs }
        | .records => { f with records := tsetMany 0 f.records offset bs } } }) ∧
    (¬ (served ∧ offset + bs.length ≤ size) → exec (.flashPageWrite region offset bs) s = .next s)) ∧
  (∀ (s : State), ∃ t, exec .clockStep s = .next t ∧
    let high : Prop := s.mgmt.pwrlim.toNat ≤ s.phys.power ∨ (s.mgmt.tempwarn.toNat : Int) ≤ max s.phys.tempA s.phys.tempB
    (high → t.mgmt.clknow = BitVec.ofNat 32 (max 1000 (s.mgmt.clknow.toNat - 250))) ∧
    (¬ high → t.mgmt.clknow = BitVec.ofNat 32 (min 4000 (s.mgmt.clknow.toNat + 250))) ∧
    (let power := decide (s.mgmt.pwrlim.toNat ≤ s.phys.power)
     let heat := decide ((s.mgmt.tempwarn.toNat : Int) ≤ max s.phys.tempA s.phys.tempB)
     let old := s.mgmt.throttle
     let new := t.mgmt.throttle
     new.getLsbD 0 = power ∧ new.getLsbD 1 = heat ∧ new.getLsbD 31 = (old.getLsbD 31 || power) ∧
     new.getLsbD 30 = (old.getLsbD 30 || heat) ∧ new.extractLsb' 2 28 = 0) ∧
    t.mgmt.tempmax = (BitVec.ofInt 8 (max s.phys.tempA s.phys.tempB)).setWidth 32 ∧
    t.mgmt.pwrnow = BitVec.ofNat 32 s.phys.power ∧ t.mgmt.vin = BitVec.ofNat 32 s.phys.vin ∧ t.mem = s.mem) ∧
  (∀ (s : State) (die : BitVec 1),
    let x := if die = 0 then s.phys.tempA else s.phys.tempB
    (105 ≤ x → exec (.thermtrip die) s = .next { s with mgmt := { s.mgmt with thermtrip := true } }) ∧
    (x < 105 → exec (.thermtrip die) s = .next s)) ∧
  (∀ (s : State), ready s = true → twf ({} : Core) s.cores = true → ∃ t, exec .arithmeticClockCycle s = .next t ∧
    (∀ k, k < 320 → getCore t k = { getCore s k with cyc := (getCore s k).cyc + 1 }) ∧
    (∀ k, 320 ≤ k → getCore t k = getCore s k) ∧ t.mem = s.mem) ∧
  (∀ (s : State) (o : BitVec 25) (v : Dword),
    let w : Word := v.extractLsb' 0 32
    let m := s.mgmt
    let writes (n : Nat) (r : Host.Outcome State Fault Refusal) : Prop := o.toNat = n → exec (.registerWrite o v) s = r
    let reads (n : Nat) (x : Word) : Prop := readRegister s n = x.setWidth 64
    writes 0x1100010 (exec (.resetreq w) s) ∧
    writes 0x1101000 (.next { s with mgmt := { m with pwrlim := BitVec.ofNat 32 (max 1200 (min 2600 (w.toNat % 4096))) } }) ∧
    writes 0x1101010 (.next { s with mgmt := { m with throttle := m.throttle &&& ~~~(w &&& 0xC0000000) } }) ∧
    writes 0x1101018 (.next { s with mgmt := { m with tempwarn := BitVec.ofNat 32 (max 60 (min 100 (w.toNat % 256))) } }) ∧
    reads 0x1100000 m.bootstat ∧ reads 0x1100004 m.fwver ∧ reads 0x1100008 m.fwsvn ∧ reads 0x1100010 0 ∧
    reads 0x1101000 m.pwrlim ∧ reads 0x1101004 m.pwrnow ∧ reads 0x1101008 m.vin ∧ reads 0x110100C m.clknow ∧
    reads 0x1101010 m.throttle ∧ reads 0x1101014 m.tempmax ∧ reads 0x1101018 m.tempwarn)

/-- R401 to R403, Table 17.2: each request of an SPDM transport that the device is ready for is answered on that transport alone; a
request that comes before those it follows is answered with an error, and one that is not supported with UnsupportedRequest, as is
with an error one for a slot other than 0 or for a measurement that there is not. The digest is that of the certificate chain, a
certificate a part of it, and the measurements those of this boot, one of them or all. The two signed answers end the transport's
transcript with a signature of ECDSA P-256 under the alias key over the SHA-256 of the transcript, the request and the answer.
Before stage 3 no request is answered. That the codes of requests, responses and errors, their order, the measurement indexes 0
and 255, what a transcript holds, and that nothing is answered before the device is ready, are the model's choices after DSP0274
(assumption log 16); SHA-256 and ECDSA P-256 are those of their standards (assumption log 15). -/
def Obligations.AttestationSteps : Prop :=
  (∀ (s : State) (t : Transport), ready s = false → ∀ p q slot offset len nonce code,
    exec (.getVersion t) s = .next s ∧ exec (.getCapabilities t) s = .next s ∧ exec (.negotiateAlgorithms t p q) s = .next s ∧
    exec (.getDigests t) s = .next s ∧ exec (.getCertificate t slot offset len) s = .next s ∧
    exec (.challenge t slot nonce) s = .next s ∧ exec (.getMeasurements t slot nonce) s = .next s ∧
    exec (.unsupportedrequest t code) s = .next s) ∧
  ∀ (s : State) (t : Transport), ready s = true →
    let x := spdmOf s.mgmt t
    let chain := certificateChain s.mgmt
    let digest : List Byte := Crypto.bigBytes 32 (Crypto.sha256 chain).toNat
    let gives (i : Instr) (code : Byte) (content : List (List Byte)) : Prop := ∃ u, exec i s = .next u ∧
      u.out = s.out ++ [.spdm t code content none]
    let signs (i : Instr) (request : List Byte) (code : Byte) (content : List (List Byte)) : Prop :=
      ∀ k, s.mgmt.aliasKey = some k → ∃ u nonce n, exec i s = .next u ∧ (spdmOf u.mgmt t).transcript = [] ∧
        u.out = s.out ++ [.spdm t code (content ++ [natBytes 32 nonce]) (some (Crypto.sign k (Crypto.sha256
          (x.transcript ++ request ++ code :: (content.flatten ++ natBytes 32 nonce))) n))]
    let answered (i : Instr) (code : Byte) : Prop := ∃ u content signature, exec i s = .next u ∧
      u.out = s.out ++ [.spdm t code content signature] ∧ (∀ t', t' ≠ t → spdmOf u.mgmt t' = spdmOf s.mgmt t') ∧
      u.mem = s.mem ∧ u.mgmt.flash = s.mgmt.flash
    let error (i : Instr) (e : Byte) (detail : Byte) : Prop :=
      exec i s = .next { s with out := s.out ++ [.spdm t 0x7F [[e], [detail]] none] }
    (answered (.getVersion t) 0x04) ∧
    (x.version = true → answered (.getCapabilities t) 0x61) ∧
    (x.version = false → error (.getCapabilities t) 0x04 0) ∧
    (x.caps = true → answered (.negotiateAlgorithms t true true) 0x63) ∧
    (x.caps = false → ∀ p q, error (.negotiateAlgorithms t p q) 0x04 0) ∧
    (x.algorithms = true →
      answered (.getDigests t) 0x01 ∧ (∀ offset len, answered (.getCertificate t 0 offset len) 0x02) ∧
      (∀ nonce, answered (.challenge t 0 nonce) 0x03) ∧ (∀ nonce, answered (.getMeasurements t 0xFF nonce) 0x60) ∧
      gives (.getDigests t) 0x01 [[0x01], digest] ∧
      (∀ offset len, gives (.getCertificate t 0 offset len) 0x02 [(chain.drop offset).take len]) ∧
      (∀ nonce, signs (.challenge t 0 nonce) (0x83 :: 0 :: natBytes 32 nonce.toNat) 0x03 [digest]) ∧
      (∀ slot offset len nonce, slot ≠ 0 →
        error (.getCertificate t slot offset len) 0x01 0 ∧ error (.challenge t slot nonce) 0x01 0) ∧
      (∀ (index : BitVec 8) (nonce : BitVec 256),
        let held := s.mgmt.measurements
        let asks (blocks : List (List Byte)) : Prop := answered (.getMeasurements t index nonce) 0x60 ∧
          signs (.getMeasurements t index nonce) (0xE0 :: index :: natBytes 32 nonce.toNat) 0x60 blocks
        (index = 0 → asks [[BitVec.ofNat 8 held.length]]) ∧ (index = 255 → asks held) ∧
        (index ≠ 0 → index ≠ 255 → (∀ m, held[index.toNat - 1]? = some m → asks [m]) ∧
          (held.length < index.toNat → error (.getMeasurements t index nonce) 0x01 0)))) ∧
    (x.algorithms = false → ∀ slot offset len nonce,
      error (.getDigests t) 0x04 0 ∧ error (.getCertificate t slot offset len) 0x04 0 ∧
      error (.challenge t slot nonce) 0x04 0 ∧ error (.getMeasurements t slot nonce) 0x04 0) ∧
    (∀ code, error (.unsupportedrequest t code) 0x07 code)

/-! ### The gate of a word, traps, frames, reset and the step (spec/01, spec/03, spec/13) -/

/-- R78 to R83, R240, R15, R73, R100, R332: a word whose guard is never does nothing and its unit goes on. An issuing thread whose
guard is empty holds the word and ends the run, or takes EMPTY_READ under its clause's policy bit; one whose guard is poisoned takes
POISON_CONSUMED; the others issue the word. Where the guard holds in some of them, the word raises ILLEGAL in those with the lowest
reason that applies; then, where it is privileged and its context is not, PRIVILEGED; then the trap of a register number that its
block has not declared; an empty source holds the word and ends the run, or raises EMPTY_READ under the policy bit in the threads
that meet it, where of SEL only the source that a thread chooses counts; a poisoned consumed register raises POISON_CONSUMED in its
threads (a transfer word traps so where its guard holds in all that issue it, since R113 comes between); for the threads that are
left an empty or read-locked destination, a full counter or engine, or the word's own wait holds it, and else it has its effect in
them while the others take their traps (R14). After EXIT and GJOIN the merge sets of the gang are settled, whatever the gate gives
(R120). That a source that SEL does not choose holds the word under a policy bit of 0, and that a poisoned guard traps before the
word's legality is judged, are the model's choices (assumption logs 102 and 84). -/
def Obligations.WordGate : Prop :=
  ∀ (i : Instr) (s : State) (t : Site) (b : Block), i.isWord = true →
    siteFor s ((encode i).headD 0) ((encode i).getD 1 0) i.words = some t → getBlock s t.blk = some b →
    unitBlocked (gangOf b t.gang) t.unit = false → t.unit.lanes ≠ 0 →
    let g := gangOf b t.gang
    let leaves (u : State) : Prop := exec i s = .next (match i with
      | .exit _ => settleMerges u t.blk t.gang
      | .gjoin _ _ => settleMerges u t.blk t.gang
      | _ => u)
    let held : Prop := leaves (endRun s s.focus)
    let guardReg : RegRef := .p (i.guard.extractLsb' 0 3).toNat
    let meets (cause : BitVec 8) (r : RegRef) (l : Nat) : Nat × Trap :=
      (l, t.trap { cause := cause, aux0 := t.w, aux1 := r.identity })
    let policy := hdrTraps t.hdr t.slot
    let guards : List (Nat × Trap) := (lanesOf t.unit.lanes).filterMap (fun l =>
      if refEmpty g l guardReg then some (meets 4 guardReg l)
      else if refPoison g l guardReg then some (meets 5 guardReg l) else none)
    let issuing : BitVec 32 :=
      maskWhere (fun l => t.unit.lanes.getLsbD l && !refEmpty g l guardReg && !refPoison g l guardReg)
    let act := if isSel i then issuing else guardHolds g i.guard issuing
    let traps (more : List (Nat × Trap)) : Prop := leaves (trapsSome t i.words s (guards ++ more))
    let everyone (x : Trap) : Prop := traps ((lanesOf act).map (fun l => (l, t.trap x)))
    (i.guard = 15 → leaves (wentOn t i.words s)) ∧
    (i.guard ≠ 15 → policy = false → (∃ l ∈ lanesOf t.unit.lanes, refEmpty g l guardReg = true) → held) ∧
    (i.guard ≠ 15 → (policy = true ∨ ∀ l ∈ lanesOf t.unit.lanes, refEmpty g l guardReg = false) →
      let fields := if i.words = 2 ∧ hdrCount t.hdr ≤ t.slot + 1 then firstWordReasons i else legality i
      let reason := lowestReason (fields ++ placeReasons t i ++ valueReasons g i)
      let privileged : Prop := needsPrivilege i = true → (getContext s b.ctx).privileged = true
      (act = 0 → traps []) ∧
      (act ≠ 0 → reason ≠ 0 → everyone
        { cause := 1, aux0 := t.w, aux1 := BitVec.ofNat 32 reason, aux2 := if i.words = 2 then t.w2 else 0 }) ∧
      (act ≠ 0 → reason = 0 → ¬ privileged → everyone { cause := 0x16, aux0 := t.w }) ∧
      (∀ x, act ≠ 0 → reason = 0 → privileged → numberTrap s b i = some x → everyone x) ∧
      (act ≠ 0 → reason = 0 → privileged → numberTrap s b i = none →
        let blocks : Prop := policy = false ∧ ∃ l ∈ lanesOf act, emptyOf g l (sourcesAt g i) ≠ none
        let operand (l : Nat) : Option (Nat × Trap) :=
          ((emptyOf g l (trapSources g i l)).map (fun r => meets 4 r l)).or
            (((consumed i).find? (refPoison g l)).map (fun r => meets 5 r l))
        let more := (lanesOf act).filterMap operand
        let rest := maskWhere (fun l => act.getLsbD l && (operand l).isNone)
        let stuck : Prop := (∃ l ∈ lanesOf rest, ∃ r ∈ destsAt g i, refEmpty g l r = true ∨ refLocked g l r = true) ∨
          engineFull s t b rest i = true ∨ ownWait s t b rest i = true
        (blocks → held) ∧
        (¬ blocks → rest = 0 → act = issuing ∨ isControl i = false → traps more) ∧
        (¬ blocks → rest ≠ 0 → stuck → held) ∧
        (¬ blocks → rest ≠ 0 → ¬ stuck → ∀ effect : State → Site → BitVec 32 → BitVec 32 → Effect,
          (∀ u, exec i u = runWord i u (effect u)) →
            let e := effect s t issuing rest
            exec i s = .next (finish t { e with traps := guards ++ more ++ e.traps }))))

/-- R329, R331, R344: a thread that meets a trap records its cause, resume point and auxiliary words and enters the handler
at sys.trapbase as a sub-gang of its own, at a clause boundary and in handler state; where the handler cannot be entered, the
record stays, the trap is pending and the context freezes with reason 0x02; a thread already in handler state keeps its trap
registers, and its context freezes with reason 0x04. -/
def Obligations.TrapEntry : Prop :=
  ∀ (s : State) (id g l last : Nat) (x : Trap) (stay : Dword) (b : Block), getBlock s id = some b →
    g < b.gangs.length → l < 32 →
    let th := getThread s id g l
    let t := takeTraps s id g [(l, x)] stay last
    let recorded : Thread := { th with tcause := x.cause.setWidth 32, tpc := x.tpc.getD 0, taux0 := x.aux0, taux1 := x.aux1,
                                       taux2 := x.aux2, taux3 := x.aux3, handler := true }
    t.mem = s.mem ∧ (∀ l', l' ≠ l → getThread t id g l' = getThread s id g l') ∧
    (th.handler = false → handlerOk s id g = true →
      getThread t id g l = recorded ∧ t.contexts = s.contexts ∧ t.hostMem = s.hostMem ∧
      (getGang t id g).units = splitOff (gangOf b g).units
        { lanes := laneBit l, pc := resumeAt (gangOf b g).trapbase.toNat 15, lastIssue := last,
          via := some (stay, (gangOf b g).trapbase) }) ∧
    (th.handler = false → handlerOk s id g = false →
      getThread t id g l = { recorded with stalled := some x } ∧
      (getGang t id g).units = splitOff (gangOf b g).units { lanes := laneBit l, pc := stay, lastIssue := last } ∧
      (getContext t b.ctx).frozen = true ∧
      ((getContext s b.ctx).frozen = false → (getContext t b.ctx).reason = 2 ∧
        (getContext t b.ctx).frz1 = x.tpc.getD 0 ∧ (getContext t b.ctx).frz2 = (gangOf b g).trapbase ∧
        (getContext t b.ctx).frz3 = x.aux1 ++ x.aux0)) ∧
    (th.handler = true →
      getThread t id g l = { th with stalled := some x } ∧
      (getGang t id g).units = splitOff (gangOf b g).units { lanes := laneBit l, pc := stay, lastIssue := last } ∧
      (getContext t b.ctx).frozen = true ∧
      ((getContext s b.ctx).frozen = false → (getContext t b.ctx).reason = 4 ∧
        (getContext t b.ctx).frz1 = x.tpc.getD 0 ∧ (getContext t b.ctx).frz3 = x.aux1 ++ x.aux0))

/-- What every word leaves as it was that acts in each of its active threads (the words that GivesV, GivesPair, GivesP,
GivesThread, GivesFp and GivesUnless speak of) or on its gang alone (GivesGang): the threads that are not active; the gang's own
registers, counts and fault queue in the first case; every other gang and block; the block's tiles, local store, windows and
join registers; every other core, and the issuing core but for its run; memory, operations, engines and every register of
the machine. Where some of the threads trap (GivesUnless), those keep their v registers, predicates and modulus slots, and take
the trap, the others have the word's effect, and beside the trap's own record only the contexts and what a freeze reports may
change. What a write of a v register, a v pair or a predicate leaves in its thread: every other register. And what a load,
a store, an atomic or another word that starts an operation (StartsAccesses, StartsAccess, StartsProducer) leaves at its issue:
every register of its threads that is not a destination, and the value of its destinations, which are only empty until it
completes (R27); every other gang, block and core; and every byte of memory. -/
def Obligations.WordFrame : Prop :=
  (∀ (i : Instr) (s : State) (t : Site) (b : Block) (act : BitVec 32), Issues i s t b act →
    let elsewhere (u : State) : Prop :=
      (∀ m, m ≠ t.gang → getGang u t.blk m = getGang s t.blk m) ∧
      (∀ n, n ≠ t.blk → getBlock u n = getBlock s n) ∧
      (∃ b', getBlock u t.blk = some b' ∧ { b' with gangs := [] } = { b with gangs := [] }) ∧
      (∀ c, c ≠ t.core → getCore u c = getCore s c) ∧
      { getCore u t.core with run := none } = { getCore s t.core with run := none } ∧
      { u with blocks := [], cores := [] } = { s with blocks := [], cores := [] } ∧
      (∀ a, tget 0 u.mem a = tget 0 s.mem a)
    (∀ f, GivesThread i f → ∃ u, exec i s = .next u ∧
      (∀ l, threadOf (t.g u) l =
        if l ∈ lanesOf act then f act (t.g s) l (threadOf (t.g s) l) else threadOf (t.g s) l) ∧
      { t.g u with threads := [], units := [] } = { t.g s with threads := [], units := [] } ∧ elsewhere u) ∧
    (∀ trap f, GivesUnless i trap f →
      let raised := trap t (t.g s) act
      ((∀ l ∈ lanesOf act, raised l = none) → ∃ u, exec i s = .next u ∧
        (∀ l, threadOf (t.g u) l =
          if l ∈ lanesOf act then f act (t.g s) l (threadOf (t.g s) l) else threadOf (t.g s) l) ∧
        { t.g u with threads := [], units := [] } = { t.g s with threads := [], units := [] } ∧ elsewhere u) ∧
      ((∃ l ∈ lanesOf act, raised l ≠ none) → ∃ u, exec i s = .next u ∧
        (∀ l, l ∉ lanesOf act → threadOf (t.g u) l = threadOf (t.g s) l) ∧
        (∀ l ∈ lanesOf act, raised l = none → threadOf (t.g u) l = f act (t.g s) l (threadOf (t.g s) l)) ∧
        (∀ l ∈ lanesOf act, ∀ x, raised l = some x →
          let was := threadOf (t.g s) l
          let now := threadOf (t.g u) l
          now.v = was.v ∧ now.p = was.p ∧ now.mods = was.mods ∧ now.cond = was.cond ∧ now.fpmode = was.fpmode ∧
          (was.handler = false → now.handler = true ∧ now.tcause = x.cause.setWidth 32 ∧ now.tpc = t.unit.pc ∧
            now.taux0 = x.aux0 ∧ now.taux1 = x.aux1 ∧ now.taux2 = x.aux2 ∧ now.taux3 = x.aux3)) ∧
        { t.g u with threads := [], units := [] } = { t.g s with threads := [], units := [] } ∧
        (∀ m, m ≠ t.gang → getGang u t.blk m = getGang s t.blk m) ∧
        (∀ n, n ≠ t.blk → getBlock u n = getBlock s n) ∧
        (∃ b', getBlock u t.blk = some b' ∧ { b' with gangs := [] } = { b with gangs := [] }) ∧
        (∀ c, c ≠ t.core → getCore u c = getCore s c) ∧
        { getCore u t.core with run := none } = { getCore s t.core with run := none } ∧
        { u with blocks := [], cores := [], contexts := [], hostMem := [], hostIf := {}, out := [] } =
          { s with blocks := [], cores := [], contexts := [], hostMem := [], hostIf := {}, out := [] } ∧
        (∀ a, tget 0 u.mem a = tget 0 s.mem a))) ∧
    (∀ f, GivesGang i f → ∃ u, exec i s = .next u ∧
      { t.g u with units := [] } = { f (t.g s) act with units := [] } ∧ elsewhere u)) ∧
  (∀ (x : Thread) (d : Nat) (w : Word) (q : Dword) (v p : Bool),
    ({ writeV x d w p with v := [] } = { x with v := [] } ∧
      ∀ r, vReg (writeV x d w p) r = if r = d then { vReg x d with val := w, poison := p, empty := false } else vReg x r) ∧
    ({ writePair x d q p with v := [] } = { x with v := [] } ∧ pairV (writePair x d q p) d = q ∧
      ∀ r, r ≠ d → r ≠ d + 1 → vReg (writePair x d q p) r = vReg x r) ∧
    ({ writeP x d v p with p := [] } = { x with p := [] } ∧
      ∀ r, pReg (writeP x d v p) r =
        if r = 7 then { val := true } else if r = d then { val := v, poison := p } else pReg x r)) ∧
  (∀ (s : State) (t : Site) (b : Block) (lanes : List Nat) (dst : List RegRef) (cls : Option Counter) (kind : OpKind)
        (accs : List Access), getBlock s t.blk = some b →
      let u := startOp s t lanes dst cls kind accs
      getOp u s.nextId = some { block := t.blk, gang := t.gang, lead := lanes.headD 0, cls := cls, kind := kind, accs := accs } ∧
      (∀ n, n ≠ s.nextId → getOp u n = getOp s n) ∧
      (∀ l, { threadOf (t.g u) l with v := [], p := [] } = { threadOf (t.g s) l with v := [], p := [] }) ∧
      (∀ l r, (l ∉ lanes ∨ .v r ∉ dst) → vReg (threadOf (t.g u) l) r = vReg (threadOf (t.g s) l) r) ∧
      (∀ l r, (l ∉ lanes ∨ .p r ∉ dst) → pReg (threadOf (t.g u) l) r = pReg (threadOf (t.g s) l) r) ∧
      (∀ r, .k r ∉ dst → kReg (t.g u) r = kReg (t.g s) r) ∧ (∀ r, .q r ∉ dst → qReg (t.g u) r = qReg (t.g s) r) ∧
      (∀ l r, (vReg (threadOf (t.g u) l) r).val = (vReg (threadOf (t.g s) l) r).val) ∧
      (∀ r, (kReg (t.g u) r).val = (kReg (t.g s) r).val) ∧
      (∀ m, m ≠ t.gang → getGang u t.blk m = getGang s t.blk m) ∧ (∀ n, n ≠ t.blk → getBlock u n = getBlock s n) ∧
      u.cores = s.cores ∧ u.contexts = s.contexts ∧ u.hostMem = s.hostMem ∧ ∀ a, tget 0 u.mem a = tget 0 s.mem a)

/-- A word changes no byte of memory as it issues: its accesses take effect at later steps (R138, R147, R269). The words that reach
memory themselves leave this unchanged as they act. PF (R148), SPQUERY (R235) and SPALLOC (R230): every other block and gang, the
registers of their threads and gang but for the k register that the last two write, every core but for its L1 and its run, the
queues and launches; windows too, but that SPALLOC appends to the log of its own; and, where the cluster's L2s hold no dirty byte
and no store is on its way, every byte of memory but the count of the free stack that SPALLOC pops, at the address that the
meaning itself computes. Where the handle is not current, nothing of memory. FQRP's replay (R247): every thread's registers, and
with an empty fault queue all memory, windows and operations. TRAPRET and a write of sys.tcause (R331, R337): the v registers,
predicates and modulus slots; and, where no thread leaves the handler of a copy fault, every other block and gang, all operations,
windows, cores but for the run, and all memory. -/
def Obligations.WordsKeepMemory : Prop :=
  (∀ (i : Instr) (s t : State), i.isWord = true → (∀ gd d a, i ≠ .spalloc gd d a) → (∀ gd d kh, i ≠ .spquery gd d kh) →
    (∀ gd d, i ≠ .fqrpReplay gd d) → (∀ gd lvl a lines, i ≠ .pf gd lvl a lines) → (∀ gd, i ≠ .trapret gd) →
    (∀ gd a, i ≠ .sysw gd a 0x10) → exec i s = .next t → ∀ a, tget 0 t.mem a = tget 0 s.mem a) ∧
  (∀ (i : Instr) (s t : State) (x : Site) (b : Block) (act : BitVec 32), Issues i s x b act → exec i s = .next t →
    let memory : Prop := ∀ a, tget 0 t.mem a = tget 0 s.mem a
    let others : Prop := (∀ n, n ≠ x.blk → getBlock t n = getBlock s n) ∧
      (∀ m, m ≠ x.gang → getGang t x.blk m = getGang s x.blk m) ∧
      (∀ c, { getCore t c with run := none, l1 := [] } = { getCore s c with run := none, l1 := [] }) ∧
      t.queues = s.queues ∧ t.launches = s.launches
    let values : Prop := ∀ l, let was := threadOf (x.g s) l
      let now := threadOf (x.g t) l
      now.v = was.v ∧ now.p = was.p ∧ now.mods = was.mods ∧ now.cond = was.cond
    let quiet : Prop := storesOnWay s (fun _ _ => true) = [] ∧ ∀ e ∈ (getCluster s (clusterOf x.core)).l2, ∀ l, e.2 = some l →
      ∀ f ∈ l.sectors, ∀ y, f.2 = some y → y.dirty = 0
    let gangBut (d : BitVec 6) : Prop := { x.g t with units := [], threads := [], k := [] } =
        { x.g s with units := [], threads := [], k := [] } ∧ ∀ r, r ≠ d.toNat → kReg (x.g t) r = kReg (x.g s) r
    (∀ gd lvl a lines, i = .pf gd lvl a lines →
      others ∧ { x.g t with units := [] } = { x.g s with units := [] } ∧ t.windows = s.windows ∧ t.ops = s.ops ∧
      (quiet → memory)) ∧
    (∀ gd d kh, i = .spquery gd d kh → others ∧ values ∧ gangBut d ∧ t.windows = s.windows ∧
      (currentEntry s (kReg (x.g s) kh.toNat).val = none ∨ quiet → memory)) ∧
    (∀ gd d a, i = .spalloc gd d a →
      let entry := currentEntry s (threadOf (x.g s) (lowest act)).spx
      let doer := doerOf s x act
      others ∧ values ∧ gangBut d ∧
      (∀ e, entry ≠ some e → getWindow t e = getWindow s e) ∧
      (∀ e, entry = some e → { getWindow t e with log := [] } = { getWindow s e with log := [] } ∧
        let w := getWindow s e
        let place : Errand Nat := do
          let count ← winWord doer w.stack
          let _ ← winWord doer (w.stack + 16 + 4 * (count - 1))
          winPage doer none w.stack
        (quiet → ∀ y,
          (∀ pa u, place (tracing (askAs s (.unit x.blk x.gang (lowest act)))) = .ok (pa, u) → y < pa ∨ pa + 4 ≤ y) →
          tget 0 t.mem y = tget 0 s.mem y)) ∧
      (entry = none → memory)) ∧
    (∀ gd d, i = .fqrpReplay gd d → (∀ n g l, getThread t n g l = getThread s n g l) ∧
      ((x.g s).faultq = [] → others ∧ gangBut d ∧ t.windows = s.windows ∧ t.ops = s.ops ∧ memory)) ∧
    ((∃ gd, i = .trapret gd) ∨ (∃ gd a, i = .sysw gd a 0x10) → values ∧
      ((∀ l ∈ lanesOf act, (threadOf (x.g s) l).handler = true → (threadOf (x.g s) l).tcause ≠ 0x0A) →
        others ∧ t.windows = s.windows ∧ t.ops = s.ops ∧ memory)))

/-- The bytes that a store changes, and no others (R264, R269, R359, R361): a write at a home slice that is performed leaves
its bytes at its address; a store, when it is performed for a page whose stores go to the home slices, changes no byte of
device memory but those at the physical address of its access, and a store to the host's memory none of the device's; those
bytes it writes where its home has agreed to it and no earlier store of its cluster to the sector is on its way (R286), or
where the home takes it in this step. A store through the local window changes the block's local store alone; a host's write of
a refused range changes nothing. That its home has agreed to a store before its cluster has it, and that the transfers of a
step that waits are kept, are the model's choices (assumption logs 105 and 104). -/
def Obligations.StoreFrame : Prop :=
  (∀ (s s' : State) (pa who : Nat) (bs : List Byte), homeWrite s pa bs who = (.clean, s') → ∀ a,
    tget 0 s'.mem a = if pa ≤ a ∧ a < pa + bs.length then bs.getD (a - pa) 0 else tget 0 s.mem a) ∧
  (∀ (s t : State) (n idx port seq core : Nat) (o : PendingOp) (sp : Bool) (a : Access) (b : Block) (l : Leaf),
    getOp s n = some o → o.kind = .store sp → o.accs[idx]? = some a → opPlace s o = some (b, core) →
    a.stage = .atHome l seq port → isPeer l = false → (l.tier < 2 → (l.shared || sp) = true) →
    exec (.homeSliceAccess (.op n idx)) s = .next t →
    let pa := physical l a.va.toNat
    let bs := a.wr.getD []
    let stored (now was : List Host.Cell) : Prop :=
      ∀ x, tget 0 now x = if pa ≤ x ∧ x < pa + bs.length then bs.getD (x - pa) 0 else tget 0 was x
    let performed : Prop :=
      (∃ k m, onWay o a = some (k, m) ∧ storeOnWay s (clusterOf core) k (some m) = false) ∨
      (onWay o a = none ∧ ownedSince s l = false ∧
        ∃ s', serveAccess (tracing (askAs s (.access n idx))) core b.ctx o a b l port = (.bytes [], s'))
    (l.tier < 2 → (∀ x, (x < pa ∨ pa + bs.length ≤ x) → tget 0 t.mem x = tget 0 s.mem x) ∧
      (performed → stored t.mem s.mem)) ∧
    (2 ≤ l.tier → (∀ x, tget 0 t.mem x = tget 0 s.mem x) ∧ (performed → stored t.hostMem s.hostMem))) ∧
  (∀ (s : State) (id o : Nat) (b : Block) (bs : List Byte), getBlock s id = some b → ∃ b',
    getBlock (windowWrite s id b (.lstore o) bs) id = some b' ∧ { b' with lstore := [] } = { b with lstore := [] } ∧
    (windowWrite s id b (.lstore o) bs).mem = s.mem ∧
    ∀ x, tget 0 b'.lstore x = if o ≤ x ∧ x < o + bs.length then bs.getD (x - o) 0 else tget 0 b.lstore x) ∧
  (∀ (s t : State) (pa : BitVec 40) (bs : List Byte), exec (.hostBar2Write pa bs) s = .next t →
    (hostRefusal s pa.toNat bs.length ≠ none → ∀ x, tget 0 t.mem x = tget 0 s.mem x) ∧
    (∀ x, (x < pa.toNat ∨ pa.toNat + bs.length ≤ x) → tget 0 t.mem x = tget 0 s.mem x))

/-- R68, R75, R76, R258, R360: the step of a device that has booted, with an empty agenda or with a turn of a core, is the
meaning of the instruction that the words at the resume point of the core's run decode to; at a clause's header it enters the
clause; and a turn of the device is the meaning of the step that it names, but for a host request that arrives behind posted
writes which wait at their home slices: it waits after them. That a read and an AtomicOp are held so too, and a register's
write, is read from the bus's rules (assumption log 65); that an agenda names the turns is the model's choice (assumption log
1). So is it that the second word is 0 after a clause's last slot and behind a reserved xop (assumption logs 77 and 99). -/
def Obligations.StepRunsDecodedInstruction : Prop :=
  (∀ (s s' : State) (r : Run) (b : Block) (u : ExecUnit) (w w2 : Word) (i : Instr),
    s.agenda = [] → 2 < (s.mgmt.bootstat.extractLsb' 28 4).toNat → (getCore s s.focus).run = some r →
    getBlock s r.block = some b → unitWith (gangOf b r.gang) r.lane = some u → rpSlot u.pc ≠ 15 →
    fetchPair s s.focus r.block b (rpAddr u.pc) (hdrCount r.hdr ≤ rpSlot u.pc + 1) = (some (w, w2), s') →
    decodeWords w w2 = .ok i → step s = exec i s') ∧
  (∀ (s s' : State) (c : Nat) (rest : List Turn) (r : Run) (b : Block) (u : ExecUnit) (w w2 : Word) (i : Instr),
    s.agenda = .issue c :: rest →
    let s0 := { s with agenda := rest, focus := c }
    (getCore s c).run = some r → getBlock s r.block = some b → unitWith (gangOf b r.gang) r.lane = some u →
    rpSlot u.pc ≠ 15 →
    fetchPair s0 c r.block b (rpAddr u.pc) (hdrCount r.hdr ≤ rpSlot u.pc + 1) = (some (w, w2), s') →
    decodeWords w w2 = .ok i → step s = exec i s') ∧
  (∀ (s : State) (r : Run) (b : Block) (u : ExecUnit),
    s.agenda = [] → 2 < (s.mgmt.bootstat.extractLsb' 28 4).toNat → (getCore s s.focus).run = some r →
    getBlock s r.block = some b → unitWith (gangOf b r.gang) r.lane = some u → rpSlot u.pc = 15 →
    step s = .next (enterClause s s.focus r.block r.gang b u)) ∧
  (∀ (s : State) (e : Instr) (rest : List Turn), s.agenda = .device e :: rest → e.isWord = false →
    ((∀ h ∈ s.hostIf.waiting, h.req.posted = false) ∨ orderedRequest e = none → step s = exec e { s with agenda := rest }) ∧
    (∀ r, (∃ h ∈ s.hostIf.waiting, h.req.posted = true) → orderedRequest e = some r →
      ∃ id, (∀ h ∈ s.hostIf.waiting, h.id < id) ∧
        step s = .next { s with agenda := rest, hostIf := { s.hostIf with waiting := s.hostIf.waiting ++ [{ id := id, req := r }] } }))

/-- The machine after reset: the registers to which the spec gives a value hold it (PWRLIM 2600, TEMPWARN 95, the clock at
4000 MHz, the boot stage 0, and 0 in each other register of queues, contexts, dies, stacks, clusters, cores, the notification and
link pages and the management region); the device is not ready, holds no block, launch, operation, window or message, and
memory is in its canonical form. That memory, caches and the registers with no stated value read 0 is the model's choice
(assumption logs 3 and 4), and so is that there are no peers (log 5), that the flash is empty and no exchange with the management
controller is under way (log 6), and that no boot has been counted and nothing has been sent (logs 72 and 1). -/
def Obligations.ResetState : Prop :=
  let s := State.reset
  MemoryWf s ∧ s.mem = [] ∧ ready s = false ∧ s.blocks = [] ∧ s.launches = [] ∧ s.ops = [] ∧ s.backs = [] ∧
  s.windows = [] ∧ s.out = [] ∧ s.agenda = [] ∧ s.serves = none ∧ s.phys.rootKeyHash = Config.rootKeyHash ∧
  (∀ q, getQueue s q = { base := 0, tail := 0, head := 0, cpl := 0, ctl := 0, stopped := false, reason := 0, cseq := 0,
                         began := false, nextRec := 0 }) ∧
  (∀ c, getContext s c = { root := 0, save := 0, ssz := 0, enable := false, privileged := false, frozen := false,
                           tearing := false, reason := 0, later := 0, frz0 := 0, frz1 := 0, frz2 := 0, frz3 := 0 }) ∧
  (∀ d, getDie s d = { dqcpl := 0, dqseq := 0, dqerr := 0, dq := [], pushSeq := 0, ended := [], fwderr := 0, rows := [],
                       sends := [] }) ∧
  (∀ k, getStack s k = { hacorr := 0, haunc := 0, htrec := 0, htheld := 0, notify := false, arrayOverflow := false,
                         transferOverflow := false, hseq := 0, holds := [], halog := [], htlog := [], hswap := [],
                         xfers := [], settled := [], waiting := [] }) ∧
  (∀ k, getCluster s k = { tlb := [], walks := [], l2 := [], gen := 0, cbmode := 0, cbreq := 0, left := false,
                           refused := false, cbhealth := 0, notify := false, overflow := false, secorr := 0, serec := 0,
                           seunc := 0, selog := [], seseq := 0, requests := [], coming := [], change := none }) ∧
  (∀ c, getCore s c = { cyc := 0, run := none, l1 := [], icache := [], skid := [], mx := [], consts := [] }) ∧
  s.hostIf = { nqbase := 0, nqctl := 0, nqhead := 0, nqtail := 0, nqlost := 0, nseq := 0, lines := [], marked := [],
               busy := [], waiting := [] } ∧
  s.link = { rate := 0, width := 0, cxl := false, uadev := 0, ports := 0, released := false, pexbase := 0, pexcnt := 0,
             pkey := 0, sent := [], seen := [], waiting := [], peers := [] } ∧
  s.mgmt = { bootstat := 0, fwver := 0, fwsvn := 0, pwrlim := 2600, pwrnow := 0, vin := 0, clknow := 4000, throttle := 0,
             tempmax := 0, tempwarn := 95, thermtrip := false, identityKey := none, aliasKey := none, measurements := [],
             flash := {}, boots := 0, doe := {}, mctp := {} }

/-- The canonical form of the memories, in which equal memories are equal data, is kept by every step. -/
def Obligations.StepKeepsMemory : Prop :=
  ∀ s t : State, MemoryWf s → step s = .next t → MemoryWf t

/-- R77, R83, R85 to R87: decoding the bytes of the encoding of a well-formed instruction word gives the instruction back, with every
operand at every value that the encoding admits, whatever bytes follow it. -/
def Obligations.EncodingRoundTrip : Prop :=
  ∀ i : Instr, i.isWord = true → i.WellFormed →
    decode (encodeBytes i) = .ok i ∧ ∀ a b c d rest, decode (encodeBytes i ++ [a, b, c, d] ++ rest) = .ok i

/-- Words of the spec's own listings (Tables 3.11, 4.7, 5.5, 6.2, 7.2, 13.5, 15.9, 16.10 and spec/08's listings) decode to the
instructions written beside them. -/
def Obligations.DecodeWords : Prop :=
  decodeWords 0x01C61420 0 = .ok (.add 7 6 5 2) ∧ decodeWords 0x05C2000D 0 = .ok (.movK 7 2 0) ∧
  decodeWords 0x15C5100C 0 = .ok (.addImm 7 5 4 12) ∧ decodeWords 0x29C10001 0 = .ok (.movi 7 1 1) ∧
  decodeWords 0x89C40004 0 = .ok (.gsplit 7 4 0 0) ∧ decodeWords 0x8C000005 0 = .ok (.bru 0 5) ∧
  decodeWords 0x61C40A02 0 = .ok (.ld 7 4 2 4 0 2) ∧ decodeWords 0x64040E40 0 = .ok (.st 0 4 3 4 2 0) ∧
  decodeWords 0x7DC08220 0 = .ok (.ldp 7 0 8 2 1) ∧ decodeWords 0x41C10830 0 = .ok (.fadd 7 1 2 3) ∧
  decodeWords 0xC1C43203 0 = .ok (.mmulm 7 2 3 4 0) ∧ decodeWords 0xC9C61281 0 = .ok (.nrev 7 6 4 5) ∧
  decodeWords 0xD1C00002 0 = .ok (.trapret 7) ∧ decodeWords 0xD1F21000 0 = .ok (.sysr 7 50 16) ∧
  decodeWords 0xFDD00520 0x480FC000 = .ok (.cpy 7 5 8 1 0 8 63) ∧
  decodeWords 0xFC880030 0x28128000 = .ok (.atom 2 0 12 0 10 0 0 4 2 1 0)
end

