-- ==== Sys2Proof/Laws/Bits.lean ====
section
/-! SUPPORT. Fields of a word read back from the fields it was put together from: which part of `x ++ y` a field lies in, for the
widths that occur in the encodings; and the member tables that a major opcode chooses. -/

/- Theorems are checked one after another: many at once ask for more memory than the check allows. -/
set_option Elab.async false

namespace Sys2Proof

theorem field_low {n m : Nat} (x : BitVec n) (y : BitVec m) (s k : Nat) (h : s + k ≤ m) :
    (x ++ y).extractLsb' s k = y.extractLsb' s k := by
  ext i hi
  simp only [BitVec.getElem_extractLsb', BitVec.getLsbD_append]
  have : s + i < m := by omega
  simp [this]

theorem field_high {n m : Nat} (x : BitVec n) (y : BitVec m) (s k : Nat) (h : m ≤ s) :
    (x ++ y).extractLsb' s k = x.extractLsb' (s - m) k := by
  ext i hi
  simp only [BitVec.getElem_extractLsb', BitVec.getLsbD_append]
  have h1 : ¬ s + i < m := by omega
  have h2 : s + i - m = s - m + i := by omega
  simp [h1, h2]

@[simp] theorem field_all {n : Nat} (x : BitVec n) : x.extractLsb' 0 n = x := by
  ext i hi
  simp

theorem bit_as_field (w : Word) (i : Nat) : w.getLsbD i = decide (w.extractLsb' i 1 = 1#1) := by
  cases h : w.getLsbD i
  · symm
    simp only [decide_eq_false_iff_not]
    intro e
    have := congrArg (fun x => x.getLsbD 0) e
    simp [h] at this
  · symm
    simp only [decide_eq_true_eq]
    ext k hk
    have : k = 0 := by omega
    subst this
    simp [h]

/-! ### The widths of the encodings -/

@[simp] theorem low_2_2 (x : BitVec 2) (y : BitVec 2) (s k : Nat) (h : s + k ≤ 2) :
    (x ++ y : BitVec 4).extractLsb' s k = y.extractLsb' s k := field_low x y s k h
@[simp] theorem high_2_2 (x : BitVec 2) (y : BitVec 2) (s k : Nat) (h : 2 ≤ s) :
    (x ++ y : BitVec 4).extractLsb' s k = x.extractLsb' (s - 2) k := field_high x y s k h
@[simp] theorem low_4_4 (x : BitVec 4) (y : BitVec 4) (s k : Nat) (h : s + k ≤ 4) :
    (x ++ y : BitVec 8).extractLsb' s k = y.extractLsb' s k := field_low x y s k h
@[simp] theorem high_4_4 (x : BitVec 4) (y : BitVec 4) (s k : Nat) (h : 4 ≤ s) :
    (x ++ y : BitVec 8).extractLsb' s k = x.extractLsb' (s - 4) k := field_high x y s k h
@[simp] theorem low_4_16 (x : BitVec 4) (y : BitVec 16) (s k : Nat) (h : s + k ≤ 16) :
    (x ++ y : BitVec 20).extractLsb' s k = y.extractLsb' s k := field_low x y s k h
@[simp] theorem high_4_16 (x : BitVec 4) (y : BitVec 16) (s k : Nat) (h : 16 ≤ s) :
    (x ++ y : BitVec 20).extractLsb' s k = x.extractLsb' (s - 16) k := field_high x y s k h
@[simp] theorem low_5_5 (x : BitVec 5) (y : BitVec 5) (s k : Nat) (h : s + k ≤ 5) :
    (x ++ y : BitVec 10).extractLsb' s k = y.extractLsb' s k := field_low x y s k h
@[simp] theorem high_5_5 (x : BitVec 5) (y : BitVec 5) (s k : Nat) (h : 5 ≤ s) :
    (x ++ y : BitVec 10).extractLsb' s k = x.extractLsb' (s - 5) k := field_high x y s k h
@[simp] theorem low_5_27 (x : BitVec 5) (y : BitVec 27) (s k : Nat) (h : s + k ≤ 27) :
    (x ++ y : BitVec 32).extractLsb' s k = y.extractLsb' s k := field_low x y s k h
@[simp] theorem high_5_27 (x : BitVec 5) (y : BitVec 27) (s k : Nat) (h : 27 ≤ s) :
    (x ++ y : BitVec 32).extractLsb' s k = x.extractLsb' (s - 27) k := field_high x y s k h
@[simp] theorem low_6_1 (x : BitVec 6) (y : BitVec 1) (s k : Nat) (h : s + k ≤ 1) :
    (x ++ y : BitVec 7).extractLsb' s k = y.extractLsb' s k := field_low x y s k h
@[simp] theorem high_6_1 (x : BitVec 6) (y : BitVec 1) (s k : Nat) (h : 1 ≤ s) :
    (x ++ y : BitVec 7).extractLsb' s k = x.extractLsb' (s - 1) k := field_high x y s k h
@[simp] theorem low_6_4 (x : BitVec 6) (y : BitVec 4) (s k : Nat) (h : s + k ≤ 4) :
    (x ++ y : BitVec 10).extractLsb' s k = y.extractLsb' s k := field_low x y s k h
@[simp] theorem high_6_4 (x : BitVec 6) (y : BitVec 4) (s k : Nat) (h : 4 ≤ s) :
    (x ++ y : BitVec 10).extractLsb' s k = x.extractLsb' (s - 4) k := field_high x y s k h
@[simp] theorem low_6_6 (x : BitVec 6) (y : BitVec 6) (s k : Nat) (h : s + k ≤ 6) :
    (x ++ y : BitVec 12).extractLsb' s k = y.extractLsb' s k := field_low x y s k h
@[simp] theorem high_6_6 (x : BitVec 6) (y : BitVec 6) (s k : Nat) (h : 6 ≤ s) :
    (x ++ y : BitVec 12).extractLsb' s k = x.extractLsb' (s - 6) k := field_high x y s k h
@[simp] theorem low_6_16 (x : BitVec 6) (y : BitVec 16) (s k : Nat) (h : s + k ≤ 16) :
    (x ++ y : BitVec 22).extractLsb' s k = y.extractLsb' s k := field_low x y s k h
@[simp] theorem high_6_16 (x : BitVec 6) (y : BitVec 16) (s k : Nat) (h : 16 ≤ s) :
    (x ++ y : BitVec 22).extractLsb' s k = x.extractLsb' (s - 16) k := field_high x y s k h
@[simp] theorem low_6_22 (x : BitVec 6) (y : BitVec 22) (s k : Nat) (h : s + k ≤ 22) :
    (x ++ y : BitVec 28).extractLsb' s k = y.extractLsb' s k := field_low x y s k h
@[simp] theorem high_6_22 (x : BitVec 6) (y : BitVec 22) (s k : Nat) (h : 22 ≤ s) :
    (x ++ y : BitVec 28).extractLsb' s k = x.extractLsb' (s - 22) k := field_high x y s k h
@[simp] theorem low_6_26 (x : BitVec 6) (y : BitVec 26) (s k : Nat) (h : s + k ≤ 26) :
    (x ++ y : BitVec 32).extractLsb' s k = y.extractLsb' s k := field_low x y s k h
@[simp] theorem high_6_26 (x : BitVec 6) (y : BitVec 26) (s k : Nat) (h : 26 ≤ s) :
    (x ++ y : BitVec 32).extractLsb' s k = x.extractLsb' (s - 26) k := field_high x y s k h
@[simp] theorem low_7_1 (x : BitVec 7) (y : BitVec 1) (s k : Nat) (h : s + k ≤ 1) :
    (x ++ y : BitVec 8).extractLsb' s k = y.extractLsb' s k := field_low x y s k h
@[simp] theorem high_7_1 (x : BitVec 7) (y : BitVec 1) (s k : Nat) (h : 1 ≤ s) :
    (x ++ y : BitVec 8).extractLsb' s k = x.extractLsb' (s - 1) k := field_high x y s k h
@[simp] theorem low_8_1 (x : BitVec 8) (y : BitVec 1) (s k : Nat) (h : s + k ≤ 1) :
    (x ++ y : BitVec 9).extractLsb' s k = y.extractLsb' s k := field_low x y s k h
@[simp] theorem high_8_1 (x : BitVec 8) (y : BitVec 1) (s k : Nat) (h : 1 ≤ s) :
    (x ++ y : BitVec 9).extractLsb' s k = x.extractLsb' (s - 1) k := field_high x y s k h
@[simp] theorem low_8_4 (x : BitVec 8) (y : BitVec 4) (s k : Nat) (h : s + k ≤ 4) :
    (x ++ y : BitVec 12).extractLsb' s k = y.extractLsb' s k := field_low x y s k h
@[simp] theorem high_8_4 (x : BitVec 8) (y : BitVec 4) (s k : Nat) (h : 4 ≤ s) :
    (x ++ y : BitVec 12).extractLsb' s k = x.extractLsb' (s - 4) k := field_high x y s k h
@[simp] theorem low_8_10 (x : BitVec 8) (y : BitVec 10) (s k : Nat) (h : s + k ≤ 10) :
    (x ++ y : BitVec 18).extractLsb' s k = y.extractLsb' s k := field_low x y s k h
@[simp] theorem high_8_10 (x : BitVec 8) (y : BitVec 10) (s k : Nat) (h : 10 ≤ s) :
    (x ++ y : BitVec 18).extractLsb' s k = x.extractLsb' (s - 10) k := field_high x y s k h
@[simp] theorem low_9_3 (x : BitVec 9) (y : BitVec 3) (s k : Nat) (h : s + k ≤ 3) :
    (x ++ y : BitVec 12).extractLsb' s k = y.extractLsb' s k := field_low x y s k h
@[simp] theorem high_9_3 (x : BitVec 9) (y : BitVec 3) (s k : Nat) (h : 3 ≤ s) :
    (x ++ y : BitVec 12).extractLsb' s k = x.extractLsb' (s - 3) k := field_high x y s k h
@[simp] theorem low_10_1 (x : BitVec 10) (y : BitVec 1) (s k : Nat) (h : s + k ≤ 1) :
    (x ++ y : BitVec 11).extractLsb' s k = y.extractLsb' s k := field_low x y s k h
@[simp] theorem high_10_1 (x : BitVec 10) (y : BitVec 1) (s k : Nat) (h : 1 ≤ s) :
    (x ++ y : BitVec 11).extractLsb' s k = x.extractLsb' (s - 1) k := field_high x y s k h
@[simp] theorem low_10_2 (x : BitVec 10) (y : BitVec 2) (s k : Nat) (h : s + k ≤ 2) :
    (x ++ y : BitVec 12).extractLsb' s k = y.extractLsb' s k := field_low x y s k h
@[simp] theorem high_10_2 (x : BitVec 10) (y : BitVec 2) (s k : Nat) (h : 2 ≤ s) :
    (x ++ y : BitVec 12).extractLsb' s k = x.extractLsb' (s - 2) k := field_high x y s k h
@[simp] theorem low_10_3 (x : BitVec 10) (y : BitVec 3) (s k : Nat) (h : s + k ≤ 3) :
    (x ++ y : BitVec 13).extractLsb' s k = y.extractLsb' s k := field_low x y s k h
@[simp] theorem high_10_3 (x : BitVec 10) (y : BitVec 3) (s k : Nat) (h : 3 ≤ s) :
    (x ++ y : BitVec 13).extractLsb' s k = x.extractLsb' (s - 3) k := field_high x y s k h
@[simp] theorem low_10_4 (x : BitVec 10) (y : BitVec 4) (s k : Nat) (h : s + k ≤ 4) :
    (x ++ y : BitVec 14).extractLsb' s k = y.extractLsb' s k := field_low x y s k h
@[simp] theorem high_10_4 (x : BitVec 10) (y : BitVec 4) (s k : Nat) (h : 4 ≤ s) :
    (x ++ y : BitVec 14).extractLsb' s k = x.extractLsb' (s - 4) k := field_high x y s k h
@[simp] theorem low_10_5 (x : BitVec 10) (y : BitVec 5) (s k : Nat) (h : s + k ≤ 5) :
    (x ++ y : BitVec 15).extractLsb' s k = y.extractLsb' s k := field_low x y s k h
@[simp] theorem high_10_5 (x : BitVec 10) (y : BitVec 5) (s k : Nat) (h : 5 ≤ s) :
    (x ++ y : BitVec 15).extractLsb' s k = x.extractLsb' (s - 5) k := field_high x y s k h
@[simp] theorem low_10_6 (x : BitVec 10) (y : BitVec 6) (s k : Nat) (h : s + k ≤ 6) :
    (x ++ y : BitVec 16).extractLsb' s k = y.extractLsb' s k := field_low x y s k h
@[simp] theorem high_10_6 (x : BitVec 10) (y : BitVec 6) (s k : Nat) (h : 6 ≤ s) :
    (x ++ y : BitVec 16).extractLsb' s k = x.extractLsb' (s - 6) k := field_high x y s k h
@[simp] theorem low_10_7 (x : BitVec 10) (y : BitVec 7) (s k : Nat) (h : s + k ≤ 7) :
    (x ++ y : BitVec 17).extractLsb' s k = y.extractLsb' s k := field_low x y s k h
@[simp] theorem high_10_7 (x : BitVec 10) (y : BitVec 7) (s k : Nat) (h : 7 ≤ s) :
    (x ++ y : BitVec 17).extractLsb' s k = x.extractLsb' (s - 7) k := field_high x y s k h
@[simp] theorem low_10_8 (x : BitVec 10) (y : BitVec 8) (s k : Nat) (h : s + k ≤ 8) :
    (x ++ y : BitVec 18).extractLsb' s k = y.extractLsb' s k := field_low x y s k h
@[simp] theorem high_10_8 (x : BitVec 10) (y : BitVec 8) (s k : Nat) (h : 8 ≤ s) :
    (x ++ y : BitVec 18).extractLsb' s k = x.extractLsb' (s - 8) k := field_high x y s k h
@[simp] theorem low_10_12 (x : BitVec 10) (y : BitVec 12) (s k : Nat) (h : s + k ≤ 12) :
    (x ++ y : BitVec 22).extractLsb' s k = y.extractLsb' s k := field_low x y s k h
@[simp] theorem high_10_12 (x : BitVec 10) (y : BitVec 12) (s k : Nat) (h : 12 ≤ s) :
    (x ++ y : BitVec 22).extractLsb' s k = x.extractLsb' (s - 12) k := field_high x y s k h
@[simp] theorem low_10_18 (x : BitVec 10) (y : BitVec 18) (s k : Nat) (h : s + k ≤ 18) :
    (x ++ y : BitVec 28).extractLsb' s k = y.extractLsb' s k := field_low x y s k h
@[simp] theorem high_10_18 (x : BitVec 10) (y : BitVec 18) (s k : Nat) (h : 18 ≤ s) :
    (x ++ y : BitVec 28).extractLsb' s k = x.extractLsb' (s - 18) k := field_high x y s k h
@[simp] theorem low_10_22 (x : BitVec 10) (y : BitVec 22) (s k : Nat) (h : s + k ≤ 22) :
    (x ++ y : BitVec 32).extractLsb' s k = y.extractLsb' s k := field_low x y s k h
@[simp] theorem high_10_22 (x : BitVec 10) (y : BitVec 22) (s k : Nat) (h : 22 ≤ s) :
    (x ++ y : BitVec 32).extractLsb' s k = x.extractLsb' (s - 22) k := field_high x y s k h
@[simp] theorem low_11_1 (x : BitVec 11) (y : BitVec 1) (s k : Nat) (h : s + k ≤ 1) :
    (x ++ y : BitVec 12).extractLsb' s k = y.extractLsb' s k := field_low x y s k h
@[simp] theorem high_11_1 (x : BitVec 11) (y : BitVec 1) (s k : Nat) (h : 1 ≤ s) :
    (x ++ y : BitVec 12).extractLsb' s k = x.extractLsb' (s - 1) k := field_high x y s k h
@[simp] theorem low_11_3 (x : BitVec 11) (y : BitVec 3) (s k : Nat) (h : s + k ≤ 3) :
    (x ++ y : BitVec 14).extractLsb' s k = y.extractLsb' s k := field_low x y s k h
@[simp] theorem high_11_3 (x : BitVec 11) (y : BitVec 3) (s k : Nat) (h : 3 ≤ s) :
    (x ++ y : BitVec 14).extractLsb' s k = x.extractLsb' (s - 3) k := field_high x y s k h
@[simp] theorem low_11_21 (x : BitVec 11) (y : BitVec 21) (s k : Nat) (h : s + k ≤ 21) :
    (x ++ y : BitVec 32).extractLsb' s k = y.extractLsb' s k := field_low x y s k h
@[simp] theorem high_11_21 (x : BitVec 11) (y : BitVec 21) (s k : Nat) (h : 21 ≤ s) :
    (x ++ y : BitVec 32).extractLsb' s k = x.extractLsb' (s - 21) k := field_high x y s k h
@[simp] theorem low_12_1 (x : BitVec 12) (y : BitVec 1) (s k : Nat) (h : s + k ≤ 1) :
    (x ++ y : BitVec 13).extractLsb' s k = y.extractLsb' s k := field_low x y s k h
@[simp] theorem high_12_1 (x : BitVec 12) (y : BitVec 1) (s k : Nat) (h : 1 ≤ s) :
    (x ++ y : BitVec 13).extractLsb' s k = x.extractLsb' (s - 1) k := field_high x y s k h
@[simp] theorem low_12_4 (x : BitVec 12) (y : BitVec 4) (s k : Nat) (h : s + k ≤ 4) :
    (x ++ y : BitVec 16).extractLsb' s k = y.extractLsb' s k := field_low x y s k h
@[simp] theorem high_12_4 (x : BitVec 12) (y : BitVec 4) (s k : Nat) (h : 4 ≤ s) :
    (x ++ y : BitVec 16).extractLsb' s k = x.extractLsb' (s - 4) k := field_high x y s k h
@[simp] theorem low_12_12 (x : BitVec 12) (y : BitVec 12) (s k : Nat) (h : s + k ≤ 12) :
    (x ++ y : BitVec 24).extractLsb' s k = y.extractLsb' s k := field_low x y s k h
@[simp] theorem high_12_12 (x : BitVec 12) (y : BitVec 12) (s k : Nat) (h : 12 ≤ s) :
    (x ++ y : BitVec 24).extractLsb' s k = x.extractLsb' (s - 12) k := field_high x y s k h
@[simp] theorem low_13_1 (x : BitVec 13) (y : BitVec 1) (s k : Nat) (h : s + k ≤ 1) :
    (x ++ y : BitVec 14).extractLsb' s k = y.extractLsb' s k := field_low x y s k h
@[simp] theorem high_13_1 (x : BitVec 13) (y : BitVec 1) (s k : Nat) (h : 1 ≤ s) :
    (x ++ y : BitVec 14).extractLsb' s k = x.extractLsb' (s - 1) k := field_high x y s k h
@[simp] theorem low_13_2 (x : BitVec 13) (y : BitVec 2) (s k : Nat) (h : s + k ≤ 2) :
    (x ++ y : BitVec 15).extractLsb' s k = y.extractLsb' s k := field_low x y s k h
@[simp] theorem high_13_2 (x : BitVec 13) (y : BitVec 2) (s k : Nat) (h : 2 ≤ s) :
    (x ++ y : BitVec 15).extractLsb' s k = x.extractLsb' (s - 2) k := field_high x y s k h
@[simp] theorem low_13_3 (x : BitVec 13) (y : BitVec 3) (s k : Nat) (h : s + k ≤ 3) :
    (x ++ y : BitVec 16).extractLsb' s k = y.extractLsb' s k := field_low x y s k h
@[simp] theorem high_13_3 (x : BitVec 13) (y : BitVec 3) (s k : Nat) (h : 3 ≤ s) :
    (x ++ y : BitVec 16).extractLsb' s k = x.extractLsb' (s - 3) k := field_high x y s k h
@[simp] theorem low_13_6 (x : BitVec 13) (y : BitVec 6) (s k : Nat) (h : s + k ≤ 6) :
    (x ++ y : BitVec 19).extractLsb' s k = y.extractLsb' s k := field_low x y s k h
@[simp] theorem high_13_6 (x : BitVec 13) (y : BitVec 6) (s k : Nat) (h : 6 ≤ s) :
    (x ++ y : BitVec 19).extractLsb' s k = x.extractLsb' (s - 6) k := field_high x y s k h
@[simp] theorem low_14_2 (x : BitVec 14) (y : BitVec 2) (s k : Nat) (h : s + k ≤ 2) :
    (x ++ y : BitVec 16).extractLsb' s k = y.extractLsb' s k := field_low x y s k h
@[simp] theorem high_14_2 (x : BitVec 14) (y : BitVec 2) (s k : Nat) (h : 2 ≤ s) :
    (x ++ y : BitVec 16).extractLsb' s k = x.extractLsb' (s - 2) k := field_high x y s k h
@[simp] theorem low_14_6 (x : BitVec 14) (y : BitVec 6) (s k : Nat) (h : s + k ≤ 6) :
    (x ++ y : BitVec 20).extractLsb' s k = y.extractLsb' s k := field_low x y s k h
@[simp] theorem high_14_6 (x : BitVec 14) (y : BitVec 6) (s k : Nat) (h : 6 ≤ s) :
    (x ++ y : BitVec 20).extractLsb' s k = x.extractLsb' (s - 6) k := field_high x y s k h
@[simp] theorem low_15_5 (x : BitVec 15) (y : BitVec 5) (s k : Nat) (h : s + k ≤ 5) :
    (x ++ y : BitVec 20).extractLsb' s k = y.extractLsb' s k := field_low x y s k h
@[simp] theorem high_15_5 (x : BitVec 15) (y : BitVec 5) (s k : Nat) (h : 5 ≤ s) :
    (x ++ y : BitVec 20).extractLsb' s k = x.extractLsb' (s - 5) k := field_high x y s k h
@[simp] theorem low_15_17 (x : BitVec 15) (y : BitVec 17) (s k : Nat) (h : s + k ≤ 17) :
    (x ++ y : BitVec 32).extractLsb' s k = y.extractLsb' s k := field_low x y s k h
@[simp] theorem high_15_17 (x : BitVec 15) (y : BitVec 17) (s k : Nat) (h : 17 ≤ s) :
    (x ++ y : BitVec 32).extractLsb' s k = x.extractLsb' (s - 17) k := field_high x y s k h
@[simp] theorem low_16_1 (x : BitVec 16) (y : BitVec 1) (s k : Nat) (h : s + k ≤ 1) :
    (x ++ y : BitVec 17).extractLsb' s k = y.extractLsb' s k := field_low x y s k h
@[simp] theorem high_16_1 (x : BitVec 16) (y : BitVec 1) (s k : Nat) (h : 1 ≤ s) :
    (x ++ y : BitVec 17).extractLsb' s k = x.extractLsb' (s - 1) k := field_high x y s k h
@[simp] theorem low_16_2 (x : BitVec 16) (y : BitVec 2) (s k : Nat) (h : s + k ≤ 2) :
    (x ++ y : BitVec 18).extractLsb' s k = y.extractLsb' s k := field_low x y s k h
@[simp] theorem high_16_2 (x : BitVec 16) (y : BitVec 2) (s k : Nat) (h : 2 ≤ s) :
    (x ++ y : BitVec 18).extractLsb' s k = x.extractLsb' (s - 2) k := field_high x y s k h
@[simp] theorem low_16_3 (x : BitVec 16) (y : BitVec 3) (s k : Nat) (h : s + k ≤ 3) :
    (x ++ y : BitVec 19).extractLsb' s k = y.extractLsb' s k := field_low x y s k h
@[simp] theorem high_16_3 (x : BitVec 16) (y : BitVec 3) (s k : Nat) (h : 3 ≤ s) :
    (x ++ y : BitVec 19).extractLsb' s k = x.extractLsb' (s - 3) k := field_high x y s k h
@[simp] theorem low_16_4 (x : BitVec 16) (y : BitVec 4) (s k : Nat) (h : s + k ≤ 4) :
    (x ++ y : BitVec 20).extractLsb' s k = y.extractLsb' s k := field_low x y s k h
@[simp] theorem high_16_4 (x : BitVec 16) (y : BitVec 4) (s k : Nat) (h : 4 ≤ s) :
    (x ++ y : BitVec 20).extractLsb' s k = x.extractLsb' (s - 4) k := field_high x y s k h
@[simp] theorem low_16_6 (x : BitVec 16) (y : BitVec 6) (s k : Nat) (h : s + k ≤ 6) :
    (x ++ y : BitVec 22).extractLsb' s k = y.extractLsb' s k := field_low x y s k h
@[simp] theorem high_16_6 (x : BitVec 16) (y : BitVec 6) (s k : Nat) (h : 6 ≤ s) :
    (x ++ y : BitVec 22).extractLsb' s k = x.extractLsb' (s - 6) k := field_high x y s k h
@[simp] theorem low_16_8 (x : BitVec 16) (y : BitVec 8) (s k : Nat) (h : s + k ≤ 8) :
    (x ++ y : BitVec 24).extractLsb' s k = y.extractLsb' s k := field_low x y s k h
@[simp] theorem high_16_8 (x : BitVec 16) (y : BitVec 8) (s k : Nat) (h : 8 ≤ s) :
    (x ++ y : BitVec 24).extractLsb' s k = x.extractLsb' (s - 8) k := field_high x y s k h
@[simp] theorem low_16_10 (x : BitVec 16) (y : BitVec 10) (s k : Nat) (h : s + k ≤ 10) :
    (x ++ y : BitVec 26).extractLsb' s k = y.extractLsb' s k := field_low x y s k h
@[simp] theorem high_16_10 (x : BitVec 16) (y : BitVec 10) (s k : Nat) (h : 10 ≤ s) :
    (x ++ y : BitVec 26).extractLsb' s k = x.extractLsb' (s - 10) k := field_high x y s k h
@[simp] theorem low_16_16 (x : BitVec 16) (y : BitVec 16) (s k : Nat) (h : s + k ≤ 16) :
    (x ++ y : BitVec 32).extractLsb' s k = y.extractLsb' s k := field_low x y s k h
@[simp] theorem high_16_16 (x : BitVec 16) (y : BitVec 16) (s k : Nat) (h : 16 ≤ s) :
    (x ++ y : BitVec 32).extractLsb' s k = x.extractLsb' (s - 16) k := field_high x y s k h
@[simp] theorem low_17_1 (x : BitVec 17) (y : BitVec 1) (s k : Nat) (h : s + k ≤ 1) :
    (x ++ y : BitVec 18).extractLsb' s k = y.extractLsb' s k := field_low x y s k h
@[simp] theorem high_17_1 (x : BitVec 17) (y : BitVec 1) (s k : Nat) (h : 1 ≤ s) :
    (x ++ y : BitVec 18).extractLsb' s k = x.extractLsb' (s - 1) k := field_high x y s k h
@[simp] theorem low_17_6 (x : BitVec 17) (y : BitVec 6) (s k : Nat) (h : s + k ≤ 6) :
    (x ++ y : BitVec 23).extractLsb' s k = y.extractLsb' s k := field_low x y s k h
@[simp] theorem high_17_6 (x : BitVec 17) (y : BitVec 6) (s k : Nat) (h : 6 ≤ s) :
    (x ++ y : BitVec 23).extractLsb' s k = x.extractLsb' (s - 6) k := field_high x y s k h
@[simp] theorem low_17_11 (x : BitVec 17) (y : BitVec 11) (s k : Nat) (h : s + k ≤ 11) :
    (x ++ y : BitVec 28).extractLsb' s k = y.extractLsb' s k := field_low x y s k h
@[simp] theorem high_17_11 (x : BitVec 17) (y : BitVec 11) (s k : Nat) (h : 11 ≤ s) :
    (x ++ y : BitVec 28).extractLsb' s k = x.extractLsb' (s - 11) k := field_high x y s k h
@[simp] theorem low_17_15 (x : BitVec 17) (y : BitVec 15) (s k : Nat) (h : s + k ≤ 15) :
    (x ++ y : BitVec 32).extractLsb' s k = y.extractLsb' s k := field_low x y s k h
@[simp] theorem high_17_15 (x : BitVec 17) (y : BitVec 15) (s k : Nat) (h : 15 ≤ s) :
    (x ++ y : BitVec 32).extractLsb' s k = x.extractLsb' (s - 15) k := field_high x y s k h
@[simp] theorem low_18_3 (x : BitVec 18) (y : BitVec 3) (s k : Nat) (h : s + k ≤ 3) :
    (x ++ y : BitVec 21).extractLsb' s k = y.extractLsb' s k := field_low x y s k h
@[simp] theorem high_18_3 (x : BitVec 18) (y : BitVec 3) (s k : Nat) (h : 3 ≤ s) :
    (x ++ y : BitVec 21).extractLsb' s k = x.extractLsb' (s - 3) k := field_high x y s k h
@[simp] theorem low_18_6 (x : BitVec 18) (y : BitVec 6) (s k : Nat) (h : s + k ≤ 6) :
    (x ++ y : BitVec 24).extractLsb' s k = y.extractLsb' s k := field_low x y s k h
@[simp] theorem high_18_6 (x : BitVec 18) (y : BitVec 6) (s k : Nat) (h : 6 ≤ s) :
    (x ++ y : BitVec 24).extractLsb' s k = x.extractLsb' (s - 6) k := field_high x y s k h
@[simp] theorem low_18_14 (x : BitVec 18) (y : BitVec 14) (s k : Nat) (h : s + k ≤ 14) :
    (x ++ y : BitVec 32).extractLsb' s k = y.extractLsb' s k := field_low x y s k h
@[simp] theorem high_18_14 (x : BitVec 18) (y : BitVec 14) (s k : Nat) (h : 14 ≤ s) :
    (x ++ y : BitVec 32).extractLsb' s k = x.extractLsb' (s - 14) k := field_high x y s k h
@[simp] theorem low_19_1 (x : BitVec 19) (y : BitVec 1) (s k : Nat) (h : s + k ≤ 1) :
    (x ++ y : BitVec 20).extractLsb' s k = y.extractLsb' s k := field_low x y s k h
@[simp] theorem high_19_1 (x : BitVec 19) (y : BitVec 1) (s k : Nat) (h : 1 ≤ s) :
    (x ++ y : BitVec 20).extractLsb' s k = x.extractLsb' (s - 1) k := field_high x y s k h
@[simp] theorem low_19_13 (x : BitVec 19) (y : BitVec 13) (s k : Nat) (h : s + k ≤ 13) :
    (x ++ y : BitVec 32).extractLsb' s k = y.extractLsb' s k := field_low x y s k h
@[simp] theorem high_19_13 (x : BitVec 19) (y : BitVec 13) (s k : Nat) (h : 13 ≤ s) :
    (x ++ y : BitVec 32).extractLsb' s k = x.extractLsb' (s - 13) k := field_high x y s k h
@[simp] theorem low_20_1 (x : BitVec 20) (y : BitVec 1) (s k : Nat) (h : s + k ≤ 1) :
    (x ++ y : BitVec 21).extractLsb' s k = y.extractLsb' s k := field_low x y s k h
@[simp] theorem high_20_1 (x : BitVec 20) (y : BitVec 1) (s k : Nat) (h : 1 ≤ s) :
    (x ++ y : BitVec 21).extractLsb' s k = x.extractLsb' (s - 1) k := field_high x y s k h
@[simp] theorem low_20_4 (x : BitVec 20) (y : BitVec 4) (s k : Nat) (h : s + k ≤ 4) :
    (x ++ y : BitVec 24).extractLsb' s k = y.extractLsb' s k := field_low x y s k h
@[simp] theorem high_20_4 (x : BitVec 20) (y : BitVec 4) (s k : Nat) (h : 4 ≤ s) :
    (x ++ y : BitVec 24).extractLsb' s k = x.extractLsb' (s - 4) k := field_high x y s k h
@[simp] theorem low_20_5 (x : BitVec 20) (y : BitVec 5) (s k : Nat) (h : s + k ≤ 5) :
    (x ++ y : BitVec 25).extractLsb' s k = y.extractLsb' s k := field_low x y s k h
@[simp] theorem high_20_5 (x : BitVec 20) (y : BitVec 5) (s k : Nat) (h : 5 ≤ s) :
    (x ++ y : BitVec 25).extractLsb' s k = x.extractLsb' (s - 5) k := field_high x y s k h
@[simp] theorem low_20_12 (x : BitVec 20) (y : BitVec 12) (s k : Nat) (h : s + k ≤ 12) :
    (x ++ y : BitVec 32).extractLsb' s k = y.extractLsb' s k := field_low x y s k h
@[simp] theorem high_20_12 (x : BitVec 20) (y : BitVec 12) (s k : Nat) (h : 12 ≤ s) :
    (x ++ y : BitVec 32).extractLsb' s k = x.extractLsb' (s - 12) k := field_high x y s k h
@[simp] theorem low_21_2 (x : BitVec 21) (y : BitVec 2) (s k : Nat) (h : s + k ≤ 2) :
    (x ++ y : BitVec 23).extractLsb' s k = y.extractLsb' s k := field_low x y s k h
@[simp] theorem high_21_2 (x : BitVec 21) (y : BitVec 2) (s k : Nat) (h : 2 ≤ s) :
    (x ++ y : BitVec 23).extractLsb' s k = x.extractLsb' (s - 2) k := field_high x y s k h
@[simp] theorem low_21_3 (x : BitVec 21) (y : BitVec 3) (s k : Nat) (h : s + k ≤ 3) :
    (x ++ y : BitVec 24).extractLsb' s k = y.extractLsb' s k := field_low x y s k h
@[simp] theorem high_21_3 (x : BitVec 21) (y : BitVec 3) (s k : Nat) (h : 3 ≤ s) :
    (x ++ y : BitVec 24).extractLsb' s k = x.extractLsb' (s - 3) k := field_high x y s k h
@[simp] theorem low_21_5 (x : BitVec 21) (y : BitVec 5) (s k : Nat) (h : s + k ≤ 5) :
    (x ++ y : BitVec 26).extractLsb' s k = y.extractLsb' s k := field_low x y s k h
@[simp] theorem high_21_5 (x : BitVec 21) (y : BitVec 5) (s k : Nat) (h : 5 ≤ s) :
    (x ++ y : BitVec 26).extractLsb' s k = x.extractLsb' (s - 5) k := field_high x y s k h
@[simp] theorem low_21_6 (x : BitVec 21) (y : BitVec 6) (s k : Nat) (h : s + k ≤ 6) :
    (x ++ y : BitVec 27).extractLsb' s k = y.extractLsb' s k := field_low x y s k h
@[simp] theorem high_21_6 (x : BitVec 21) (y : BitVec 6) (s k : Nat) (h : 6 ≤ s) :
    (x ++ y : BitVec 27).extractLsb' s k = x.extractLsb' (s - 6) k := field_high x y s k h
@[simp] theorem low_21_7 (x : BitVec 21) (y : BitVec 7) (s k : Nat) (h : s + k ≤ 7) :
    (x ++ y : BitVec 28).extractLsb' s k = y.extractLsb' s k := field_low x y s k h
@[simp] theorem high_21_7 (x : BitVec 21) (y : BitVec 7) (s k : Nat) (h : 7 ≤ s) :
    (x ++ y : BitVec 28).extractLsb' s k = x.extractLsb' (s - 7) k := field_high x y s k h
@[simp] theorem low_21_11 (x : BitVec 21) (y : BitVec 11) (s k : Nat) (h : s + k ≤ 11) :
    (x ++ y : BitVec 32).extractLsb' s k = y.extractLsb' s k := field_low x y s k h
@[simp] theorem high_21_11 (x : BitVec 21) (y : BitVec 11) (s k : Nat) (h : 11 ≤ s) :
    (x ++ y : BitVec 32).extractLsb' s k = x.extractLsb' (s - 11) k := field_high x y s k h
@[simp] theorem low_22_1 (x : BitVec 22) (y : BitVec 1) (s k : Nat) (h : s + k ≤ 1) :
    (x ++ y : BitVec 23).extractLsb' s k = y.extractLsb' s k := field_low x y s k h
@[simp] theorem high_22_1 (x : BitVec 22) (y : BitVec 1) (s k : Nat) (h : 1 ≤ s) :
    (x ++ y : BitVec 23).extractLsb' s k = x.extractLsb' (s - 1) k := field_high x y s k h
@[simp] theorem low_22_2 (x : BitVec 22) (y : BitVec 2) (s k : Nat) (h : s + k ≤ 2) :
    (x ++ y : BitVec 24).extractLsb' s k = y.extractLsb' s k := field_low x y s k h
@[simp] theorem high_22_2 (x : BitVec 22) (y : BitVec 2) (s k : Nat) (h : 2 ≤ s) :
    (x ++ y : BitVec 24).extractLsb' s k = x.extractLsb' (s - 2) k := field_high x y s k h
@[simp] theorem low_22_3 (x : BitVec 22) (y : BitVec 3) (s k : Nat) (h : s + k ≤ 3) :
    (x ++ y : BitVec 25).extractLsb' s k = y.extractLsb' s k := field_low x y s k h
@[simp] theorem high_22_3 (x : BitVec 22) (y : BitVec 3) (s k : Nat) (h : 3 ≤ s) :
    (x ++ y : BitVec 25).extractLsb' s k = x.extractLsb' (s - 3) k := field_high x y s k h
@[simp] theorem low_22_4 (x : BitVec 22) (y : BitVec 4) (s k : Nat) (h : s + k ≤ 4) :
    (x ++ y : BitVec 26).extractLsb' s k = y.extractLsb' s k := field_low x y s k h
@[simp] theorem high_22_4 (x : BitVec 22) (y : BitVec 4) (s k : Nat) (h : 4 ≤ s) :
    (x ++ y : BitVec 26).extractLsb' s k = x.extractLsb' (s - 4) k := field_high x y s k h
@[simp] theorem low_22_5 (x : BitVec 22) (y : BitVec 5) (s k : Nat) (h : s + k ≤ 5) :
    (x ++ y : BitVec 27).extractLsb' s k = y.extractLsb' s k := field_low x y s k h
@[simp] theorem high_22_5 (x : BitVec 22) (y : BitVec 5) (s k : Nat) (h : 5 ≤ s) :
    (x ++ y : BitVec 27).extractLsb' s k = x.extractLsb' (s - 5) k := field_high x y s k h
@[simp] theorem low_22_6 (x : BitVec 22) (y : BitVec 6) (s k : Nat) (h : s + k ≤ 6) :
    (x ++ y : BitVec 28).extractLsb' s k = y.extractLsb' s k := field_low x y s k h
@[simp] theorem high_22_6 (x : BitVec 22) (y : BitVec 6) (s k : Nat) (h : 6 ≤ s) :
    (x ++ y : BitVec 28).extractLsb' s k = x.extractLsb' (s - 6) k := field_high x y s k h
@[simp] theorem low_22_10 (x : BitVec 22) (y : BitVec 10) (s k : Nat) (h : s + k ≤ 10) :
    (x ++ y : BitVec 32).extractLsb' s k = y.extractLsb' s k := field_low x y s k h
@[simp] theorem high_22_10 (x : BitVec 22) (y : BitVec 10) (s k : Nat) (h : 10 ≤ s) :
    (x ++ y : BitVec 32).extractLsb' s k = x.extractLsb' (s - 10) k := field_high x y s k h
@[simp] theorem low_23_1 (x : BitVec 23) (y : BitVec 1) (s k : Nat) (h : s + k ≤ 1) :
    (x ++ y : BitVec 24).extractLsb' s k = y.extractLsb' s k := field_low x y s k h
@[simp] theorem high_23_1 (x : BitVec 23) (y : BitVec 1) (s k : Nat) (h : 1 ≤ s) :
    (x ++ y : BitVec 24).extractLsb' s k = x.extractLsb' (s - 1) k := field_high x y s k h
@[simp] theorem low_23_9 (x : BitVec 23) (y : BitVec 9) (s k : Nat) (h : s + k ≤ 9) :
    (x ++ y : BitVec 32).extractLsb' s k = y.extractLsb' s k := field_low x y s k h
@[simp] theorem high_23_9 (x : BitVec 23) (y : BitVec 9) (s k : Nat) (h : 9 ≤ s) :
    (x ++ y : BitVec 32).extractLsb' s k = x.extractLsb' (s - 9) k := field_high x y s k h
@[simp] theorem low_24_1 (x : BitVec 24) (y : BitVec 1) (s k : Nat) (h : s + k ≤ 1) :
    (x ++ y : BitVec 25).extractLsb' s k = y.extractLsb' s k := field_low x y s k h
@[simp] theorem high_24_1 (x : BitVec 24) (y : BitVec 1) (s k : Nat) (h : 1 ≤ s) :
    (x ++ y : BitVec 25).extractLsb' s k = x.extractLsb' (s - 1) k := field_high x y s k h
@[simp] theorem low_24_2 (x : BitVec 24) (y : BitVec 2) (s k : Nat) (h : s + k ≤ 2) :
    (x ++ y : BitVec 26).extractLsb' s k = y.extractLsb' s k := field_low x y s k h
@[simp] theorem high_24_2 (x : BitVec 24) (y : BitVec 2) (s k : Nat) (h : 2 ≤ s) :
    (x ++ y : BitVec 26).extractLsb' s k = x.extractLsb' (s - 2) k := field_high x y s k h
@[simp] theorem low_24_3 (x : BitVec 24) (y : BitVec 3) (s k : Nat) (h : s + k ≤ 3) :
    (x ++ y : BitVec 27).extractLsb' s k = y.extractLsb' s k := field_low x y s k h
@[simp] theorem high_24_3 (x : BitVec 24) (y : BitVec 3) (s k : Nat) (h : 3 ≤ s) :
    (x ++ y : BitVec 27).extractLsb' s k = x.extractLsb' (s - 3) k := field_high x y s k h
@[simp] theorem low_24_4 (x : BitVec 24) (y : BitVec 4) (s k : Nat) (h : s + k ≤ 4) :
    (x ++ y : BitVec 28).extractLsb' s k = y.extractLsb' s k := field_low x y s k h
@[simp] theorem high_24_4 (x : BitVec 24) (y : BitVec 4) (s k : Nat) (h : 4 ≤ s) :
    (x ++ y : BitVec 28).extractLsb' s k = x.extractLsb' (s - 4) k := field_high x y s k h
@[simp] theorem low_24_6 (x : BitVec 24) (y : BitVec 6) (s k : Nat) (h : s + k ≤ 6) :
    (x ++ y : BitVec 30).extractLsb' s k = y.extractLsb' s k := field_low x y s k h
@[simp] theorem high_24_6 (x : BitVec 24) (y : BitVec 6) (s k : Nat) (h : 6 ≤ s) :
    (x ++ y : BitVec 30).extractLsb' s k = x.extractLsb' (s - 6) k := field_high x y s k h
@[simp] theorem low_24_8 (x : BitVec 24) (y : BitVec 8) (s k : Nat) (h : s + k ≤ 8) :
    (x ++ y : BitVec 32).extractLsb' s k = y.extractLsb' s k := field_low x y s k h
@[simp] theorem high_24_8 (x : BitVec 24) (y : BitVec 8) (s k : Nat) (h : 8 ≤ s) :
    (x ++ y : BitVec 32).extractLsb' s k = x.extractLsb' (s - 8) k := field_high x y s k h
@[simp] theorem low_25_1 (x : BitVec 25) (y : BitVec 1) (s k : Nat) (h : s + k ≤ 1) :
    (x ++ y : BitVec 26).extractLsb' s k = y.extractLsb' s k := field_low x y s k h
@[simp] theorem high_25_1 (x : BitVec 25) (y : BitVec 1) (s k : Nat) (h : 1 ≤ s) :
    (x ++ y : BitVec 26).extractLsb' s k = x.extractLsb' (s - 1) k := field_high x y s k h
@[simp] theorem low_25_2 (x : BitVec 25) (y : BitVec 2) (s k : Nat) (h : s + k ≤ 2) :
    (x ++ y : BitVec 27).extractLsb' s k = y.extractLsb' s k := field_low x y s k h
@[simp] theorem high_25_2 (x : BitVec 25) (y : BitVec 2) (s k : Nat) (h : 2 ≤ s) :
    (x ++ y : BitVec 27).extractLsb' s k = x.extractLsb' (s - 2) k := field_high x y s k h
@[simp] theorem low_25_7 (x : BitVec 25) (y : BitVec 7) (s k : Nat) (h : s + k ≤ 7) :
    (x ++ y : BitVec 32).extractLsb' s k = y.extractLsb' s k := field_low x y s k h
@[simp] theorem high_25_7 (x : BitVec 25) (y : BitVec 7) (s k : Nat) (h : 7 ≤ s) :
    (x ++ y : BitVec 32).extractLsb' s k = x.extractLsb' (s - 7) k := field_high x y s k h
@[simp] theorem low_26_1 (x : BitVec 26) (y : BitVec 1) (s k : Nat) (h : s + k ≤ 1) :
    (x ++ y : BitVec 27).extractLsb' s k = y.extractLsb' s k := field_low x y s k h
@[simp] theorem high_26_1 (x : BitVec 26) (y : BitVec 1) (s k : Nat) (h : 1 ≤ s) :
    (x ++ y : BitVec 27).extractLsb' s k = x.extractLsb' (s - 1) k := field_high x y s k h
@[simp] theorem low_26_2 (x : BitVec 26) (y : BitVec 2) (s k : Nat) (h : s + k ≤ 2) :
    (x ++ y : BitVec 28).extractLsb' s k = y.extractLsb' s k := field_low x y s k h
@[simp] theorem high_26_2 (x : BitVec 26) (y : BitVec 2) (s k : Nat) (h : 2 ≤ s) :
    (x ++ y : BitVec 28).extractLsb' s k = x.extractLsb' (s - 2) k := field_high x y s k h
@[simp] theorem low_26_5 (x : BitVec 26) (y : BitVec 5) (s k : Nat) (h : s + k ≤ 5) :
    (x ++ y : BitVec 31).extractLsb' s k = y.extractLsb' s k := field_low x y s k h
@[simp] theorem high_26_5 (x : BitVec 26) (y : BitVec 5) (s k : Nat) (h : 5 ≤ s) :
    (x ++ y : BitVec 31).extractLsb' s k = x.extractLsb' (s - 5) k := field_high x y s k h
@[simp] theorem low_26_6 (x : BitVec 26) (y : BitVec 6) (s k : Nat) (h : s + k ≤ 6) :
    (x ++ y : BitVec 32).extractLsb' s k = y.extractLsb' s k := field_low x y s k h
@[simp] theorem high_26_6 (x : BitVec 26) (y : BitVec 6) (s k : Nat) (h : 6 ≤ s) :
    (x ++ y : BitVec 32).extractLsb' s k = x.extractLsb' (s - 6) k := field_high x y s k h
@[simp] theorem low_27_1 (x : BitVec 27) (y : BitVec 1) (s k : Nat) (h : s + k ≤ 1) :
    (x ++ y : BitVec 28).extractLsb' s k = y.extractLsb' s k := field_low x y s k h
@[simp] theorem high_27_1 (x : BitVec 27) (y : BitVec 1) (s k : Nat) (h : 1 ≤ s) :
    (x ++ y : BitVec 28).extractLsb' s k = x.extractLsb' (s - 1) k := field_high x y s k h
@[simp] theorem low_27_2 (x : BitVec 27) (y : BitVec 2) (s k : Nat) (h : s + k ≤ 2) :
    (x ++ y : BitVec 29).extractLsb' s k = y.extractLsb' s k := field_low x y s k h
@[simp] theorem high_27_2 (x : BitVec 27) (y : BitVec 2) (s k : Nat) (h : 2 ≤ s) :
    (x ++ y : BitVec 29).extractLsb' s k = x.extractLsb' (s - 2) k := field_high x y s k h
@[simp] theorem low_27_5 (x : BitVec 27) (y : BitVec 5) (s k : Nat) (h : s + k ≤ 5) :
    (x ++ y : BitVec 32).extractLsb' s k = y.extractLsb' s k := field_low x y s k h
@[simp] theorem high_27_5 (x : BitVec 27) (y : BitVec 5) (s k : Nat) (h : 5 ≤ s) :
    (x ++ y : BitVec 32).extractLsb' s k = x.extractLsb' (s - 5) k := field_high x y s k h
@[simp] theorem low_28_4 (x : BitVec 28) (y : BitVec 4) (s k : Nat) (h : s + k ≤ 4) :
    (x ++ y : BitVec 32).extractLsb' s k = y.extractLsb' s k := field_low x y s k h
@[simp] theorem high_28_4 (x : BitVec 28) (y : BitVec 4) (s k : Nat) (h : 4 ≤ s) :
    (x ++ y : BitVec 32).extractLsb' s k = x.extractLsb' (s - 4) k := field_high x y s k h
@[simp] theorem low_29_3 (x : BitVec 29) (y : BitVec 3) (s k : Nat) (h : s + k ≤ 3) :
    (x ++ y : BitVec 32).extractLsb' s k = y.extractLsb' s k := field_low x y s k h
@[simp] theorem high_29_3 (x : BitVec 29) (y : BitVec 3) (s k : Nat) (h : 3 ≤ s) :
    (x ++ y : BitVec 32).extractLsb' s k = x.extractLsb' (s - 3) k := field_high x y s k h
@[simp] theorem low_30_2 (x : BitVec 30) (y : BitVec 2) (s k : Nat) (h : s + k ≤ 2) :
    (x ++ y : BitVec 32).extractLsb' s k = y.extractLsb' s k := field_low x y s k h
@[simp] theorem high_30_2 (x : BitVec 30) (y : BitVec 2) (s k : Nat) (h : 2 ≤ s) :
    (x ++ y : BitVec 32).extractLsb' s k = x.extractLsb' (s - 2) k := field_high x y s k h
@[simp] theorem low_31_1 (x : BitVec 31) (y : BitVec 1) (s k : Nat) (h : s + k ≤ 1) :
    (x ++ y : BitVec 32).extractLsb' s k = y.extractLsb' s k := field_low x y s k h
@[simp] theorem high_31_1 (x : BitVec 31) (y : BitVec 1) (s k : Nat) (h : 1 ≤ s) :
    (x ++ y : BitVec 32).extractLsb' s k = x.extractLsb' (s - 1) k := field_high x y s k h

/-! ### The member table of a major opcode -/

theorem decodeFields_00 (w w2 : Word) (h : w.extractLsb' 26 6 = 0#6) :
    decodeFields w w2 = decodeMajor00 w := by
  simp only [decodeFields, majorOf, h]
  rfl
theorem decodeFields_01 (w w2 : Word) (h : w.extractLsb' 26 6 = 1#6) :
    decodeFields w w2 = decodeMajor01 w := by
  simp only [decodeFields, majorOf, h]
  rfl
theorem decodeFields_02 (w w2 : Word) (h : w.extractLsb' 26 6 = 2#6) :
    decodeFields w w2 = decodeMajor02 w := by
  simp only [decodeFields, majorOf, h]
  rfl
theorem decodeFields_03 (w w2 : Word) (h : w.extractLsb' 26 6 = 3#6) :
    decodeFields w w2 = decodeMajor03 w := by
  simp only [decodeFields, majorOf, h]
  rfl
theorem decodeFields_04 (w w2 : Word) (h : w.extractLsb' 26 6 = 4#6) :
    decodeFields w w2 = decodeMajor04 w := by
  simp only [decodeFields, majorOf, h]
  rfl
theorem decodeFields_05 (w w2 : Word) (h : w.extractLsb' 26 6 = 5#6) :
    decodeFields w w2 = some (.addImm (w.extractLsb' 22 4) (w.extractLsb' 16 6) (w.extractLsb' 10 6) (w.extractLsb' 0 10)) := by
  simp only [decodeFields, majorOf, h]
  rfl
theorem decodeFields_06 (w w2 : Word) (h : w.extractLsb' 26 6 = 6#6) :
    decodeFields w w2 = some (.andImm (w.extractLsb' 22 4) (w.extractLsb' 16 6) (w.extractLsb' 10 6) (w.extractLsb' 0 10)) := by
  simp only [decodeFields, majorOf, h]
  rfl
theorem decodeFields_07 (w w2 : Word) (h : w.extractLsb' 26 6 = 7#6) :
    decodeFields w w2 = some (.orImm (w.extractLsb' 22 4) (w.extractLsb' 16 6) (w.extractLsb' 10 6) (w.extractLsb' 0 10)) := by
  simp only [decodeFields, majorOf, h]
  rfl
theorem decodeFields_08 (w w2 : Word) (h : w.extractLsb' 26 6 = 8#6) :
    decodeFields w w2 = some (.xorImm (w.extractLsb' 22 4) (w.extractLsb' 16 6) (w.extractLsb' 10 6) (w.extractLsb' 0 10)) := by
  simp only [decodeFields, majorOf, h]
  rfl
theorem decodeFields_09 (w w2 : Word) (h : w.extractLsb' 26 6 = 9#6) :
    decodeFields w w2 = decodeMajor09 w := by
  simp only [decodeFields, majorOf, h]
  rfl
theorem decodeFields_0A (w w2 : Word) (h : w.extractLsb' 26 6 = 10#6) :
    decodeFields w w2 = some (.movi (w.extractLsb' 22 4) (w.extractLsb' 16 6) (w.extractLsb' 0 16)) := by
  simp only [decodeFields, majorOf, h]
  rfl
theorem decodeFields_0B (w w2 : Word) (h : w.extractLsb' 26 6 = 11#6) :
    decodeFields w w2 = some (.movh (w.extractLsb' 22 4) (w.extractLsb' 16 6) (w.extractLsb' 0 16)) := by
  simp only [decodeFields, majorOf, h]
  rfl
theorem decodeFields_0C (w w2 : Word) (h : w.extractLsb' 26 6 = 12#6) :
    decodeFields w w2 = some (.cmp (w.extractLsb' 22 4) (w.extractLsb' 19 3) (w.extractLsb' 18 1) (w.extractLsb' 16 2) (w.extractLsb' 10 6) (w.extractLsb' 4 6) (w.extractLsb' 0 4)) := by
  simp only [decodeFields, majorOf, h]
  rfl
theorem decodeFields_0D (w w2 : Word) (h : w.extractLsb' 26 6 = 13#6) :
    decodeFields w w2 = some (.cmpImm (w.extractLsb' 22 4) (w.extractLsb' 19 3) (w.extractLsb' 16 3) (w.extractLsb' 10 6) (w.extractLsb' 0 10)) := by
  simp only [decodeFields, majorOf, h]
  rfl
theorem decodeFields_0E (w w2 : Word) (h : w.extractLsb' 26 6 = 14#6) :
    decodeFields w w2 = decodeMajor0E w := by
  simp only [decodeFields, majorOf, h]
  rfl
theorem decodeFields_0F (w w2 : Word) (h : w.extractLsb' 26 6 = 15#6) :
    decodeFields w w2 = decodeMajor0F w := by
  simp only [decodeFields, majorOf, h]
  rfl
theorem decodeFields_10 (w w2 : Word) (h : w.extractLsb' 26 6 = 16#6) :
    decodeFields w w2 = decodeMajor10 w := by
  simp only [decodeFields, majorOf, h]
  rfl
theorem decodeFields_11 (w w2 : Word) (h : w.extractLsb' 26 6 = 17#6) :
    decodeFields w w2 = decodeMajor11 w := by
  simp only [decodeFields, majorOf, h]
  rfl
theorem decodeFields_12 (w w2 : Word) (h : w.extractLsb' 26 6 = 18#6) :
    decodeFields w w2 = decodeMajor12 w := by
  simp only [decodeFields, majorOf, h]
  rfl
theorem decodeFields_13 (w w2 : Word) (h : w.extractLsb' 26 6 = 19#6) :
    decodeFields w w2 = decodeMajor13 w := by
  simp only [decodeFields, majorOf, h]
  rfl
theorem decodeFields_14 (w w2 : Word) (h : w.extractLsb' 26 6 = 20#6) :
    decodeFields w w2 = decodeMajor14 w := by
  simp only [decodeFields, majorOf, h]
  rfl
theorem decodeFields_15 (w w2 : Word) (h : w.extractLsb' 26 6 = 21#6) :
    decodeFields w w2 = some (.fcmp (w.extractLsb' 22 4) (w.extractLsb' 19 3) (w.extractLsb' 16 2) (w.extractLsb' 10 6) (w.extractLsb' 4 6) (w.extractLsb' 0 4)) := by
  simp only [decodeFields, majorOf, h]
  rfl
theorem decodeFields_16 (w w2 : Word) (h : w.extractLsb' 26 6 = 22#6) :
    decodeFields w w2 = some (.cvt (w.extractLsb' 22 4) (w.extractLsb' 16 6) (w.extractLsb' 10 6) (w.extractLsb' 6 4) (w.extractLsb' 5 1) (w.extractLsb' 4 1) (w.extractLsb' 0 4)) := by
  simp only [decodeFields, majorOf, h]
  rfl
theorem decodeFields_17 (w w2 : Word) (h : w.extractLsb' 26 6 = 23#6) :
    decodeFields w w2 = decodeMajor17 w := by
  simp only [decodeFields, majorOf, h]
  rfl
theorem decodeFields_18 (w w2 : Word) (h : w.extractLsb' 26 6 = 24#6) :
    decodeFields w w2 = some (.ld (w.extractLsb' 22 4) (w.extractLsb' 16 6) (w.extractLsb' 10 6) (w.extractLsb' 7 3) (w.extractLsb' 5 2) (w.extractLsb' 0 5)) := by
  simp only [decodeFields, majorOf, h]
  rfl
theorem decodeFields_19 (w w2 : Word) (h : w.extractLsb' 26 6 = 25#6) :
    decodeFields w w2 = some (.st (w.extractLsb' 22 4) (w.extractLsb' 16 6) (w.extractLsb' 10 6) (w.extractLsb' 7 3) (w.extractLsb' 5 2) (w.extractLsb' 0 5)) := by
  simp only [decodeFields, majorOf, h]
  rfl
theorem decodeFields_1A (w w2 : Word) (h : w.extractLsb' 26 6 = 26#6) :
    decodeFields w w2 = decodeMajor1A w := by
  simp only [decodeFields, majorOf, h]
  rfl
theorem decodeFields_1B (w w2 : Word) (h : w.extractLsb' 26 6 = 27#6) :
    decodeFields w w2 = some (.ldro (w.extractLsb' 22 4) (w.extractLsb' 16 6) (w.extractLsb' 10 6) (w.extractLsb' 7 3) (w.extractLsb' 5 2) (w.extractLsb' 0 5)) := by
  simp only [decodeFields, majorOf, h]
  rfl
theorem decodeFields_1C (w w2 : Word) (h : w.extractLsb' 26 6 = 28#6) :
    decodeFields w w2 = decodeMajor1C w := by
  simp only [decodeFields, majorOf, h]
  rfl
theorem decodeFields_1D (w w2 : Word) (h : w.extractLsb' 26 6 = 29#6) :
    decodeFields w w2 = decodeMajor1D w := by
  simp only [decodeFields, majorOf, h]
  rfl
theorem decodeFields_1E (w w2 : Word) (h : w.extractLsb' 26 6 = 30#6) :
    decodeFields w w2 = decodeMajor1E w := by
  simp only [decodeFields, majorOf, h]
  rfl
theorem decodeFields_1F (w w2 : Word) (h : w.extractLsb' 26 6 = 31#6) :
    decodeFields w w2 = decodeMajor1F w := by
  simp only [decodeFields, majorOf, h]
  rfl
theorem decodeFields_20 (w w2 : Word) (h : w.extractLsb' 26 6 = 32#6) :
    decodeFields w w2 = decodeMajor20 w := by
  simp only [decodeFields, majorOf, h]
  rfl
theorem decodeFields_21 (w w2 : Word) (h : w.extractLsb' 26 6 = 33#6) :
    decodeFields w w2 = decodeMajor21 w := by
  simp only [decodeFields, majorOf, h]
  rfl
theorem decodeFields_22 (w w2 : Word) (h : w.extractLsb' 26 6 = 34#6) :
    decodeFields w w2 = decodeMajor22 w := by
  simp only [decodeFields, majorOf, h]
  rfl
theorem decodeFields_23 (w w2 : Word) (h : w.extractLsb' 26 6 = 35#6) :
    decodeFields w w2 = some (.bru (w.extractLsb' 22 4) (w.extractLsb' 0 22)) := by
  simp only [decodeFields, majorOf, h]
  rfl
theorem decodeFields_24 (w w2 : Word) (h : w.extractLsb' 26 6 = 36#6) :
    decodeFields w w2 = some (.jmp (w.extractLsb' 22 4) (w.extractLsb' 0 22)) := by
  simp only [decodeFields, majorOf, h]
  rfl
theorem decodeFields_25 (w w2 : Word) (h : w.extractLsb' 26 6 = 37#6) :
    decodeFields w w2 = some (.call (w.extractLsb' 22 4) (w.extractLsb' 0 22)) := by
  simp only [decodeFields, majorOf, h]
  rfl
theorem decodeFields_26 (w w2 : Word) (h : w.extractLsb' 26 6 = 38#6) :
    decodeFields w w2 = decodeMajor26 w := by
  simp only [decodeFields, majorOf, h]
  rfl
theorem decodeFields_30 (w w2 : Word) (h : w.extractLsb' 26 6 = 48#6) :
    decodeFields w w2 = decodeMajor30 w := by
  simp only [decodeFields, majorOf, h]
  rfl
theorem decodeFields_31 (w w2 : Word) (h : w.extractLsb' 26 6 = 49#6) :
    decodeFields w w2 = decodeMajor31 w := by
  simp only [decodeFields, majorOf, h]
  rfl
theorem decodeFields_32 (w w2 : Word) (h : w.extractLsb' 26 6 = 50#6) :
    decodeFields w w2 = decodeMajor32 w := by
  simp only [decodeFields, majorOf, h]
  rfl
theorem decodeFields_33 (w w2 : Word) (h : w.extractLsb' 26 6 = 51#6) :
    decodeFields w w2 = decodeMajor33 w := by
  simp only [decodeFields, majorOf, h]
  rfl
theorem decodeFields_34 (w w2 : Word) (h : w.extractLsb' 26 6 = 52#6) :
    decodeFields w w2 = decodeMajor34 w := by
  simp only [decodeFields, majorOf, h]
  rfl
theorem decodeFields_3F (w w2 : Word) (h : w.extractLsb' 26 6 = 63#6) :
    decodeFields w w2 = decodeMajor3F w w2 := by
  simp only [decodeFields, majorOf, h]
  rfl

end Sys2Proof
end

