-- ==== Sys2Proof/Laws/Dispatch.lean ====
section
/-! SUPPORT. The dispatch of exec, one equation for each constructor of Instr. -/

/- Theorems are checked one after another: many at once ask for more memory than the check allows. -/
set_option Elab.async false

namespace Sys2Proof.Machine

theorem exec_add {g d a b} (s : State) :
    exec (.add g d a b) s = execAdd g d a b s := rfl
theorem exec_sub {g d a b} (s : State) :
    exec (.sub g d a b) s = execSub g d a b s := rfl
theorem exec_mul {g d a b} (s : State) :
    exec (.mul g d a b) s = execMul g d a b s := rfl
theorem exec_mulh {g d a b} (s : State) :
    exec (.mulh g d a b) s = execMulh g d a b s := rfl
theorem exec_mad {g d a b} (s : State) :
    exec (.mad g d a b) s = execMad g d a b s := rfl
theorem exec_min {g d a b} (s : State) :
    exec (.min g d a b) s = execMin g d a b s := rfl
theorem exec_max {g d a b} (s : State) :
    exec (.max g d a b) s = execMax g d a b s := rfl
theorem exec_abs {g d b} (s : State) :
    exec (.abs g d b) s = execAbs g d b s := rfl
theorem exec_neg {g d b} (s : State) :
    exec (.neg g d b) s = execNeg g d b s := rfl
theorem exec_div {g d a b} (s : State) :
    exec (.div g d a b) s = execDiv g d a b s := rfl
theorem exec_rem {g d a b} (s : State) :
    exec (.rem g d a b) s = execRem g d a b s := rfl
theorem exec_lea {g d a b} (s : State) :
    exec (.lea g d a b) s = execLea g d a b s := rfl
theorem exec_sel {g d a b} (s : State) :
    exec (.sel g d a b) s = execSel g d a b s := rfl
theorem exec_mov {g d b} (s : State) :
    exec (.mov g d b) s = execMov g d b s := rfl
theorem exec_addK {g d a b} (s : State) :
    exec (.addK g d a b) s = execAddK g d a b s := rfl
theorem exec_subK {g d a b} (s : State) :
    exec (.subK g d a b) s = execSubK g d a b s := rfl
theorem exec_mulK {g d a b} (s : State) :
    exec (.mulK g d a b) s = execMulK g d a b s := rfl
theorem exec_mulhK {g d a b} (s : State) :
    exec (.mulhK g d a b) s = execMulhK g d a b s := rfl
theorem exec_madK {g d a b} (s : State) :
    exec (.madK g d a b) s = execMadK g d a b s := rfl
theorem exec_minK {g d a b} (s : State) :
    exec (.minK g d a b) s = execMinK g d a b s := rfl
theorem exec_maxK {g d a b} (s : State) :
    exec (.maxK g d a b) s = execMaxK g d a b s := rfl
theorem exec_absK {g d b} (s : State) :
    exec (.absK g d b) s = execAbsK g d b s := rfl
theorem exec_negK {g d b} (s : State) :
    exec (.negK g d b) s = execNegK g d b s := rfl
theorem exec_divK {g d a b} (s : State) :
    exec (.divK g d a b) s = execDivK g d a b s := rfl
theorem exec_remK {g d a b} (s : State) :
    exec (.remK g d a b) s = execRemK g d a b s := rfl
theorem exec_leaK {g d a b} (s : State) :
    exec (.leaK g d a b) s = execLeaK g d a b s := rfl
theorem exec_selK {g d a b} (s : State) :
    exec (.selK g d a b) s = execSelK g d a b s := rfl
theorem exec_movK {g d b} (s : State) :
    exec (.movK g d b) s = execMovK g d b s := rfl
theorem exec_and {g d a b} (s : State) :
    exec (.and g d a b) s = execAnd g d a b s := rfl
theorem exec_or {g d a b} (s : State) :
    exec (.or g d a b) s = execOr g d a b s := rfl
theorem exec_xor {g d a b} (s : State) :
    exec (.xor g d a b) s = execXor g d a b s := rfl
theorem exec_andn {g d a b} (s : State) :
    exec (.andn g d a b) s = execAndn g d a b s := rfl
theorem exec_shl {g d a b} (s : State) :
    exec (.shl g d a b) s = execShl g d a b s := rfl
theorem exec_shr {g d a b} (s : State) :
    exec (.shr g d a b) s = execShr g d a b s := rfl
theorem exec_sra {g d a b} (s : State) :
    exec (.sra g d a b) s = execSra g d a b s := rfl
theorem exec_rot {g d a b} (s : State) :
    exec (.rot g d a b) s = execRot g d a b s := rfl
theorem exec_bfe {g d a b} (s : State) :
    exec (.bfe g d a b) s = execBfe g d a b s := rfl
theorem exec_bfi {g d a b} (s : State) :
    exec (.bfi g d a b) s = execBfi g d a b s := rfl
theorem exec_popc {g d b} (s : State) :
    exec (.popc g d b) s = execPopc g d b s := rfl
theorem exec_clz {g d b} (s : State) :
    exec (.clz g d b) s = execClz g d b s := rfl
theorem exec_brev {g d b} (s : State) :
    exec (.brev g d b) s = execBrev g d b s := rfl
theorem exec_andK {g d a b} (s : State) :
    exec (.andK g d a b) s = execAndK g d a b s := rfl
theorem exec_orK {g d a b} (s : State) :
    exec (.orK g d a b) s = execOrK g d a b s := rfl
theorem exec_xorK {g d a b} (s : State) :
    exec (.xorK g d a b) s = execXorK g d a b s := rfl
theorem exec_andnK {g d a b} (s : State) :
    exec (.andnK g d a b) s = execAndnK g d a b s := rfl
theorem exec_shlK {g d a b} (s : State) :
    exec (.shlK g d a b) s = execShlK g d a b s := rfl
theorem exec_shrK {g d a b} (s : State) :
    exec (.shrK g d a b) s = execShrK g d a b s := rfl
theorem exec_sraK {g d a b} (s : State) :
    exec (.sraK g d a b) s = execSraK g d a b s := rfl
theorem exec_rotK {g d a b} (s : State) :
    exec (.rotK g d a b) s = execRotK g d a b s := rfl
theorem exec_bfeK {g d a b} (s : State) :
    exec (.bfeK g d a b) s = execBfeK g d a b s := rfl
theorem exec_bfiK {g d a b} (s : State) :
    exec (.bfiK g d a b) s = execBfiK g d a b s := rfl
theorem exec_popcK {g d b} (s : State) :
    exec (.popcK g d b) s = execPopcK g d b s := rfl
theorem exec_clzK {g d b} (s : State) :
    exec (.clzK g d b) s = execClzK g d b s := rfl
theorem exec_brevK {g d b} (s : State) :
    exec (.brevK g d b) s = execBrevK g d b s := rfl
theorem exec_add64 {g d a b} (s : State) :
    exec (.add64 g d a b) s = execAdd64 g d a b s := rfl
theorem exec_sub64 {g d a b} (s : State) :
    exec (.sub64 g d a b) s = execSub64 g d a b s := rfl
theorem exec_mul64 {g d a b} (s : State) :
    exec (.mul64 g d a b) s = execMul64 g d a b s := rfl
theorem exec_mulh64 {g d a b} (s : State) :
    exec (.mulh64 g d a b) s = execMulh64 g d a b s := rfl
theorem exec_min64 {g d a b} (s : State) :
    exec (.min64 g d a b) s = execMin64 g d a b s := rfl
theorem exec_max64 {g d a b} (s : State) :
    exec (.max64 g d a b) s = execMax64 g d a b s := rfl
theorem exec_shl64 {g d a b} (s : State) :
    exec (.shl64 g d a b) s = execShl64 g d a b s := rfl
theorem exec_shr64 {g d a b} (s : State) :
    exec (.shr64 g d a b) s = execShr64 g d a b s := rfl
theorem exec_sra64 {g d a b} (s : State) :
    exec (.sra64 g d a b) s = execSra64 g d a b s := rfl
theorem exec_addImm {g d a imm} (s : State) :
    exec (.addImm g d a imm) s = execAddImm g d a imm s := rfl
theorem exec_andImm {g d a imm} (s : State) :
    exec (.andImm g d a imm) s = execAndImm g d a imm s := rfl
theorem exec_orImm {g d a imm} (s : State) :
    exec (.orImm g d a imm) s = execOrImm g d a imm s := rfl
theorem exec_xorImm {g d a imm} (s : State) :
    exec (.xorImm g d a imm) s = execXorImm g d a imm s := rfl
theorem exec_shlImm {g d a w amt} (s : State) :
    exec (.shlImm g d a w amt) s = execShlImm g d a w amt s := rfl
theorem exec_shrImm {g d a w amt} (s : State) :
    exec (.shrImm g d a w amt) s = execShrImm g d a w amt s := rfl
theorem exec_sraImm {g d a w amt} (s : State) :
    exec (.sraImm g d a w amt) s = execSraImm g d a w amt s := rfl
theorem exec_rotImm {g d a w amt} (s : State) :
    exec (.rotImm g d a w amt) s = execRotImm g d a w amt s := rfl
theorem exec_movi {g d imm} (s : State) :
    exec (.movi g d imm) s = execMovi g d imm s := rfl
theorem exec_movh {g d imm} (s : State) :
    exec (.movh g d imm) s = execMovh g d imm s := rfl
theorem exec_cmp {g pd w comb a b cond} (s : State) :
    exec (.cmp g pd w comb a b cond) s = execCmp g pd w comb a b cond s := rfl
theorem exec_cmpImm {g pd cond a imm} (s : State) :
    exec (.cmpImm g pd cond a imm) s = execCmpImm g pd cond a imm s := rfl
theorem exec_plop {g pd pa pb na nb op} (s : State) :
    exec (.plop g pd pa pb na nb op) s = execPlop g pd pa pb na nb op s := rfl
theorem exec_pmovv {g d} (s : State) :
    exec (.pmovv g d) s = execPmovv g d s := rfl
theorem exec_vpmov {g mask a} (s : State) :
    exec (.vpmov g mask a) s = execVpmov g mask a s := rfl
theorem exec_kmov {g d a} (s : State) :
    exec (.kmov g d a) s = execKmov g d a s := rfl
theorem exec_kmovImm {g d imm} (s : State) :
    exec (.kmovImm g d imm) s = execKmovImm g d imm s := rfl
theorem exec_klane {g d a b} (s : State) :
    exec (.klane g d a b) s = execKlane g d a b s := rfl
theorem exec_fadd {g d a b} (s : State) :
    exec (.fadd g d a b) s = execFadd g d a b s := rfl
theorem exec_fsub {g d a b} (s : State) :
    exec (.fsub g d a b) s = execFsub g d a b s := rfl
theorem exec_fmul {g d a b} (s : State) :
    exec (.fmul g d a b) s = execFmul g d a b s := rfl
theorem exec_ffma {g d a b} (s : State) :
    exec (.ffma g d a b) s = execFfma g d a b s := rfl
theorem exec_fmin {g d a b} (s : State) :
    exec (.fmin g d a b) s = execFmin g d a b s := rfl
theorem exec_fmax {g d a b} (s : State) :
    exec (.fmax g d a b) s = execFmax g d a b s := rfl
theorem exec_fabs {g d b} (s : State) :
    exec (.fabs g d b) s = execFabs g d b s := rfl
theorem exec_fneg {g d b} (s : State) :
    exec (.fneg g d b) s = execFneg g d b s := rfl
theorem exec_faddK {g d a b} (s : State) :
    exec (.faddK g d a b) s = execFaddK g d a b s := rfl
theorem exec_fsubK {g d a b} (s : State) :
    exec (.fsubK g d a b) s = execFsubK g d a b s := rfl
theorem exec_fmulK {g d a b} (s : State) :
    exec (.fmulK g d a b) s = execFmulK g d a b s := rfl
theorem exec_ffmaK {g d a b} (s : State) :
    exec (.ffmaK g d a b) s = execFfmaK g d a b s := rfl
theorem exec_fminK {g d a b} (s : State) :
    exec (.fminK g d a b) s = execFminK g d a b s := rfl
theorem exec_fmaxK {g d a b} (s : State) :
    exec (.fmaxK g d a b) s = execFmaxK g d a b s := rfl
theorem exec_fabsK {g d b} (s : State) :
    exec (.fabsK g d b) s = execFabsK g d b s := rfl
theorem exec_fnegK {g d b} (s : State) :
    exec (.fnegK g d b) s = execFnegK g d b s := rfl
theorem exec_faddF16x2 {g d a b} (s : State) :
    exec (.faddF16x2 g d a b) s = execFaddF16x2 g d a b s := rfl
theorem exec_fsubF16x2 {g d a b} (s : State) :
    exec (.fsubF16x2 g d a b) s = execFsubF16x2 g d a b s := rfl
theorem exec_fmulF16x2 {g d a b} (s : State) :
    exec (.fmulF16x2 g d a b) s = execFmulF16x2 g d a b s := rfl
theorem exec_ffmaF16x2 {g d a b} (s : State) :
    exec (.ffmaF16x2 g d a b) s = execFfmaF16x2 g d a b s := rfl
theorem exec_fminF16x2 {g d a b} (s : State) :
    exec (.fminF16x2 g d a b) s = execFminF16x2 g d a b s := rfl
theorem exec_fmaxF16x2 {g d a b} (s : State) :
    exec (.fmaxF16x2 g d a b) s = execFmaxF16x2 g d a b s := rfl
theorem exec_fabsF16x2 {g d b} (s : State) :
    exec (.fabsF16x2 g d b) s = execFabsF16x2 g d b s := rfl
theorem exec_fnegF16x2 {g d b} (s : State) :
    exec (.fnegF16x2 g d b) s = execFnegF16x2 g d b s := rfl
theorem exec_faddBf16x2 {g d a b} (s : State) :
    exec (.faddBf16x2 g d a b) s = execFaddBf16x2 g d a b s := rfl
theorem exec_fsubBf16x2 {g d a b} (s : State) :
    exec (.fsubBf16x2 g d a b) s = execFsubBf16x2 g d a b s := rfl
theorem exec_fmulBf16x2 {g d a b} (s : State) :
    exec (.fmulBf16x2 g d a b) s = execFmulBf16x2 g d a b s := rfl
theorem exec_ffmaBf16x2 {g d a b} (s : State) :
    exec (.ffmaBf16x2 g d a b) s = execFfmaBf16x2 g d a b s := rfl
theorem exec_fminBf16x2 {g d a b} (s : State) :
    exec (.fminBf16x2 g d a b) s = execFminBf16x2 g d a b s := rfl
theorem exec_fmaxBf16x2 {g d a b} (s : State) :
    exec (.fmaxBf16x2 g d a b) s = execFmaxBf16x2 g d a b s := rfl
theorem exec_fabsBf16x2 {g d b} (s : State) :
    exec (.fabsBf16x2 g d b) s = execFabsBf16x2 g d b s := rfl
theorem exec_fnegBf16x2 {g d b} (s : State) :
    exec (.fnegBf16x2 g d b) s = execFnegBf16x2 g d b s := rfl
theorem exec_frcp {g d b} (s : State) :
    exec (.frcp g d b) s = execFrcp g d b s := rfl
theorem exec_frsq {g d b} (s : State) :
    exec (.frsq g d b) s = execFrsq g d b s := rfl
theorem exec_fsqrt {g d b} (s : State) :
    exec (.fsqrt g d b) s = execFsqrt g d b s := rfl
theorem exec_fex2 {g d b} (s : State) :
    exec (.fex2 g d b) s = execFex2 g d b s := rfl
theorem exec_flg2 {g d b} (s : State) :
    exec (.flg2 g d b) s = execFlg2 g d b s := rfl
theorem exec_fsin {g d b} (s : State) :
    exec (.fsin g d b) s = execFsin g d b s := rfl
theorem exec_fcos {g d b} (s : State) :
    exec (.fcos g d b) s = execFcos g d b s := rfl
theorem exec_ftanh {g d b} (s : State) :
    exec (.ftanh g d b) s = execFtanh g d b s := rfl
theorem exec_fcls {g d b} (s : State) :
    exec (.fcls g d b) s = execFcls g d b s := rfl
theorem exec_fcmp {g pd comb a b cond} (s : State) :
    exec (.fcmp g pd comb a b cond) s = execFcmp g pd comb a b cond s := rfl
theorem exec_cvt {g d a src sat rz dst} (s : State) :
    exec (.cvt g d a src sat rz dst) s = execCvt g d a src sat rz dst s := rfl
theorem exec_cvtpk {g d a fmt sat rz} (s : State) :
    exec (.cvtpk g d a fmt sat rz) s = execCvtpk g d a fmt sat rz s := rfl
theorem exec_cvtup {g d a fmt} (s : State) :
    exec (.cvtup g d a fmt) s = execCvtup g d a fmt s := rfl
theorem exec_ld {g d a size sp off} (s : State) :
    exec (.ld g d a size sp off) s = execLd g d a size sp off s := rfl
theorem exec_st {g d a size sp off} (s : State) :
    exec (.st g d a size sp off) s = execSt g d a size sp off s := rfl
theorem exec_ldx {g d a size sp off} (s : State) :
    exec (.ldx g d a size sp off) s = execLdx g d a size sp off s := rfl
theorem exec_stx {g d a size sp off} (s : State) :
    exec (.stx g d a size sp off) s = execStx g d a size sp off s := rfl
theorem exec_ldro {g d a size sp off} (s : State) :
    exec (.ldro g d a size sp off) s = execLdro g d a size sp off s := rfl
theorem exec_fence {g scope kind} (s : State) :
    exec (.fence g scope kind) s = execFence g scope kind s := rfl
theorem exec_wait {g ctr thr} (s : State) :
    exec (.wait g ctr thr) s = execWait g ctr thr s := rfl
theorem exec_pf {g lvl a lines} (s : State) :
    exec (.pf g lvl a lines) s = execPf g lvl a lines s := rfl
theorem exec_cmaintDropL1 {g} (s : State) :
    exec (.cmaintDropL1 g) s = execCmaintDropL1 g s := rfl
theorem exec_cmaintCleanL2 {g a lines} (s : State) :
    exec (.cmaintCleanL2 g a lines) s = execCmaintCleanL2 g a lines s := rfl
theorem exec_cmaintFlushL2 {g a lines} (s : State) :
    exec (.cmaintFlushL2 g a lines) s = execCmaintFlushL2 g a lines s := rfl
theorem exec_cmaintDropL2 {g a lines} (s : State) :
    exec (.cmaintDropL2 g a lines) s = execCmaintDropL2 g a lines s := rfl
theorem exec_ldp {g q kq n pd} (s : State) :
    exec (.ldp g q kq n pd) s = execLdp g q kq n pd s := rfl
theorem exec_ldpr {g q kq n pd} (s : State) :
    exec (.ldpr g q kq n pd) s = execLdpr g q kq n pd s := rfl
theorem exec_stp {g q kq} (s : State) :
    exec (.stp g q kq) s = execStp g q kq s := rfl
theorem exec_qunp {g d q mid ty} (s : State) :
    exec (.qunp g d q mid ty) s = execQunp g d q mid ty s := rfl
theorem exec_qpk {g q a n mode ty} (s : State) :
    exec (.qpk g q a n mode ty) s = execQpk g q a n mode ty s := rfl
theorem exec_qtagGet {g d q} (s : State) :
    exec (.qtagGet g d q) s = execQtagGet g d q s := rfl
theorem exec_qtagSet {g d q} (s : State) :
    exec (.qtagSet g d q) s = execQtagSet g d q s := rfl
theorem exec_shfl {g d a b} (s : State) :
    exec (.shfl g d a b) s = execShfl g d a b s := rfl
theorem exec_shfld {g d a b} (s : State) :
    exec (.shfld g d a b) s = execShfld g d a b s := rfl
theorem exec_shflx {g d a b} (s : State) :
    exec (.shflx g d a b) s = execShflx g d a b s := rfl
theorem exec_pcons {g d a b} (s : State) :
    exec (.pcons g d a b) s = execPcons g d a b s := rfl
theorem exec_lmask {g d a} (s : State) :
    exec (.lmask g d a) s = execLmask g d a s := rfl
theorem exec_red {g d a op} (s : State) :
    exec (.red g d a op) s = execRed g d a op s := rfl
theorem exec_scan {g d a excl op} (s : State) :
    exec (.scan g d a excl op) s = execScan g d a excl op s := rfl
theorem exec_matchEq {g d a} (s : State) :
    exec (.matchEq g d a) s = execMatchEq g d a s := rfl
theorem exec_conflict {g d a} (s : State) :
    exec (.conflict g d a) s = execConflict g d a s := rfl
theorem exec_hist {g d a} (s : State) :
    exec (.hist g d a) s = execHist g d a s := rfl
theorem exec_jinit {g a j} (s : State) :
    exec (.jinit g a j) s = execJinit g a j s := rfl
theorem exec_jsign {g d j} (s : State) :
    exec (.jsign g d j) s = execJsign g d j s := rfl
theorem exec_jwait {g a j} (s : State) :
    exec (.jwait g a j) s = execJwait g a j s := rfl
theorem exec_jleave {g j} (s : State) :
    exec (.jleave g j) s = execJleave g j s := rfl
theorem exec_gsplit {g d a inv} (s : State) :
    exec (.gsplit g d a inv) s = execGsplit g d a inv s := rfl
theorem exec_gjoin {g a} (s : State) :
    exec (.gjoin g a) s = execGjoin g a s := rfl
theorem exec_bru {g off} (s : State) :
    exec (.bru g off) s = execBru g off s := rfl
theorem exec_jmp {g off} (s : State) :
    exec (.jmp g off) s = execJmp g off s := rfl
theorem exec_call {g off} (s : State) :
    exec (.call g off) s = execCall g off s := rfl
theorem exec_ret {g d} (s : State) :
    exec (.ret g d) s = execRet g d s := rfl
theorem exec_jmpi {g d cls} (s : State) :
    exec (.jmpi g d cls) s = execJmpi g d cls s := rfl
theorem exec_exit {g} (s : State) :
    exec (.exit g) s = execExit g s := rfl
theorem exec_brk {g imm} (s : State) :
    exec (.brk g imm) s = execBrk g imm s := rfl
theorem exec_trap {g imm} (s : State) :
    exec (.trap g imm) s = execTrap g imm s := rfl
theorem exec_yield {g} (s : State) :
    exec (.yield g) s = execYield g s := rfl
theorem exec_maddm {g d a b slot} (s : State) :
    exec (.maddm g d a b slot) s = execMaddm g d a b slot s := rfl
theorem exec_msubm {g d a b slot} (s : State) :
    exec (.msubm g d a b slot) s = execMsubm g d a b slot s := rfl
theorem exec_mnegm {g d b slot} (s : State) :
    exec (.mnegm g d b slot) s = execMnegm g d b slot s := rfl
theorem exec_mmulm {g d a b slot} (s : State) :
    exec (.mmulm g d a b slot) s = execMmulm g d a b slot s := rfl
theorem exec_mmacm {g d a b slot} (s : State) :
    exec (.mmacm g d a b slot) s = execMmacm g d a b slot s := rfl
theorem exec_mredm {g d b slot} (s : State) :
    exec (.mredm g d b slot) s = execMredm g d b slot s := rfl
theorem exec_bflyct {g d a b slot} (s : State) :
    exec (.bflyct g d a b slot) s = execBflyct g d a b slot s := rfl
theorem exec_bflygs {g d a b slot} (s : State) :
    exec (.bflygs g d a b slot) s = execBflygs g d a b slot s := rfl
theorem exec_nperm {g d a sh mode} (s : State) :
    exec (.nperm g d a sh mode) s = execNperm g d a sh mode s := rfl
theorem exec_nrev {g d a k} (s : State) :
    exec (.nrev g d a k) s = execNrev g d a k s := rfl
theorem exec_nauto {g d a kg} (s : State) :
    exec (.nauto g d a kg) s = execNauto g d a kg s := rfl
theorem exec_modset {g a b slot auto} (s : State) :
    exec (.modset g a b slot auto) s = execModset g a b slot auto s := rfl
theorem exec_spbegin {g d kr} (s : State) :
    exec (.spbegin g d kr) s = execSpbegin g d kr s := rfl
theorem exec_spst {g d a size} (s : State) :
    exec (.spst g d a size) s = execSpst g d a size s := rfl
theorem exec_spld {g d a size} (s : State) :
    exec (.spld g d a size) s = execSpld g d a size s := rfl
theorem exec_spalloc {g d a} (s : State) :
    exec (.spalloc g d a) s = execSpalloc g d a s := rfl
theorem exec_spstate {g ks kp} (s : State) :
    exec (.spstate g ks kp) s = execSpstate g ks kp s := rfl
theorem exec_spcommit {g kh kk} (s : State) :
    exec (.spcommit g kh kk) s = execSpcommit g kh kk s := rfl
theorem exec_spabort {g kh} (s : State) :
    exec (.spabort g kh) s = execSpabort g kh s := rfl
theorem exec_spquery {g d kh} (s : State) :
    exec (.spquery g d kh) s = execSpquery g d kh s := rfl
theorem exec_treemask {g d a} (s : State) :
    exec (.treemask g d a) s = execTreemask g d a s := rfl
theorem exec_sysr {g d num} (s : State) :
    exec (.sysr g d num) s = execSysr g d num s := rfl
theorem exec_sysw {g a num} (s : State) :
    exec (.sysw g a num) s = execSysw g a num s := rfl
theorem exec_trapret {g} (s : State) :
    exec (.trapret g) s = execTrapret g s := rfl
theorem exec_tlbinv {g every ctx ka kn} (s : State) :
    exec (.tlbinv g every ctx ka kn) s = execTlbinv g every ctx ka kn s := rfl
theorem exec_cwb {g ctx} (s : State) :
    exec (.cwb g ctx) s = execCwb g ctx s := rfl
theorem exec_bankmode {g d a} (s : State) :
    exec (.bankmode g d a) s = execBankmode g d a s := rfl
theorem exec_launch {g d kt kp} (s : State) :
    exec (.launch g d kt kp) s = execLaunch g d kt kp s := rfl
theorem exec_fqrpReplay {g d} (s : State) :
    exec (.fqrpReplay g d) s = execFqrpReplay g d s := rfl
theorem exec_fqrpSkip {g d} (s : State) :
    exec (.fqrpSkip g d) s = execFqrpSkip g d s := rfl
theorem exec_fqrpPeek {g d} (s : State) :
    exec (.fqrpPeek g d) s = execFqrpPeek g d s := rfl
theorem exec_halt {g imm} (s : State) :
    exec (.halt g imm) s = execHalt g imm s := rfl
theorem exec_mma {g a fa fb sat ra rb sa sb gm z j} (s : State) :
    exec (.mma g a fa fb sat ra rb sa sb gm z j) s = execMma g a fa fb sat ra rb sa sb gm z j s := rfl
theorem exec_mmas {g a fa fb sat ra rb sa sb gm z ks j} (s : State) :
    exec (.mmas g a fa fb sat ra rb sa sb gm z ks j) s = execMmas g a fa fb sat ra rb sa sb gm z ks j s := rfl
theorem exec_mconv {g a fa fb sat kr rb sb gm z ko j} (s : State) :
    exec (.mconv g a fa fb sat kr rb sb gm z ko j) s = execMconv g a fa fb sat kr rb sb gm z ko j s := rfl
theorem exec_mtrn {g d t acc sat j} (s : State) :
    exec (.mtrn g d t acc sat j) s = execMtrn g d t acc sat j s := rfl
theorem exec_mperm {g d t acc mode sat kp j} (s : State) :
    exec (.mperm g d t acc mode sat kp j) s = execMperm g d t acc mode sat kp j s := rfl
theorem exec_mred {g d t acc mode sat j} (s : State) :
    exec (.mred g d t acc mode sat j) s = execMred g d t acc mode sat j s := rfl
theorem exec_accz {g t j} (s : State) :
    exec (.accz g t j) s = execAccz g t j s := rfl
theorem exec_accld {g t fmt sp kx pitch j} (s : State) :
    exec (.accld g t fmt sp kx pitch j) s = execAccld g t fmt sp kx pitch j s := rfl
theorem exec_accst {g t fmt sat sp kx pitch j} (s : State) :
    exec (.accst g t fmt sat sp kx pitch j) s = execAccst g t fmt sat sp kx pitch j s := rfl
theorem exec_accrd {g t v n kpos} (s : State) :
    exec (.accrd g t v n kpos) s = execAccrd g t v n kpos s := rfl
theorem exec_accwr {g t v n kpos} (s : State) :
    exec (.accwr g t v n kpos) s = execAccwr g t v n kpos s := rfl
theorem exec_atom {g d a sp b op w scope order noret off} (s : State) :
    exec (.atom g d a sp b op w scope order noret off) s = execAtom g d a sp b op w scope order noret off s := rfl
theorem exec_cas {g d a sp b c w scope order off} (s : State) :
    exec (.cas g d a sp b c w scope order off) s = execCas g d a sp b c w scope order off s := rfl
theorem exec_cpy {g dst src dsp ssp j words} (s : State) :
    exec (.cpy g dst src dsp ssp j words) s = execCpy g dst src dsp ssp j words s := rfl
theorem exec_cpyt {g kr kc kt dir sp ring j} (s : State) :
    exec (.cpyt g kr kc kt dir sp ring j) s = execCpyt g kr kc kt dir sp ring j s := rfl
theorem exec_cpyp {g kq kt lo hi sp ring j t} (s : State) :
    exec (.cpyp g kq kt lo hi sp ring j t) s = execCpyp g kq kt lo hi sp ring j t s := rfl
theorem exec_cpyx {g vi kb kd sp dir j row} (s : State) :
    exec (.cpyx g vi kb kd sp dir j row) s = execCpyx g vi kb kd sp dir j row s := rfl
theorem exec_cpyf {g vd ks kr sp j row} (s : State) :
    exec (.cpyf g vd ks kr sp j row) s = execCpyf g vd ks kr sp j row s := rfl
theorem exec_ringinit {g kr slots size} (s : State) :
    exec (.ringinit g kr slots size) s = execRinginit g kr slots size s := rfl
theorem exec_rawait {g kr kt n} (s : State) :
    exec (.rawait g kr kt n) s = execRawait g kr kt n s := rfl
theorem exec_rrel {g kr kt} (s : State) :
    exec (.rrel g kr kt) s = execRrel g kr kt s := rfl
theorem exec_arbitration {core} (s : State) :
    exec (.arbitration core) s = execArbitration core s := rfl
theorem exec_producerComplete {op} (s : State) :
    exec (.producerComplete op) s = execProducerComplete op s := rfl
theorem exec_storeAcknowledged {op} (s : State) :
    exec (.storeAcknowledged op) s = execStoreAcknowledged op s := rfl
theorem exec_pageWalkComplete {op idx} (s : State) :
    exec (.pageWalkComplete op idx) s = execPageWalkComplete op idx s := rfl
theorem exec_homeSliceAccess {ref} (s : State) :
    exec (.homeSliceAccess ref) s = execHomeSliceAccess ref s := rfl
theorem exec_commandComplete {core entry} (s : State) :
    exec (.commandComplete core entry) s = execCommandComplete core entry s := rfl
theorem exec_matrixCommandComplete {core id} (s : State) :
    exec (.matrixCommandComplete core id) s = execMatrixCommandComplete core id s := rfl
theorem exec_ringCommandStart {core entry} (s : State) :
    exec (.ringCommandStart core entry) s = execRingCommandStart core entry s := rfl
theorem exec_asyncCopyFault {core entry} (s : State) :
    exec (.asyncCopyFault core entry) s = execAsyncCopyFault core entry s := rfl
theorem exec_elementParked {core entry} (s : State) :
    exec (.elementParked core entry) s = execElementParked core entry s := rfl
theorem exec_deferredFaultDelivery {block gang lane} (s : State) :
    exec (.deferredFaultDelivery block gang lane) s = execDeferredFaultDelivery block gang lane s := rfl
theorem exec_slotRelease {block gang} (s : State) :
    exec (.slotRelease block gang) s = execSlotRelease block gang s := rfl
theorem exec_windowOpen {block gang lane} (s : State) :
    exec (.windowOpen block gang lane) s = execWindowOpen block gang lane s := rfl
theorem exec_spcommitExecute {core entry} (s : State) :
    exec (.spcommitExecute core entry) s = execSpcommitExecute core entry s := rfl
theorem exec_spabortExecute {core entry} (s : State) :
    exec (.spabortExecute core entry) s = execSpabortExecute core entry s := rfl
theorem exec_queueEnable {q value} (s : State) :
    exec (.queueEnable q value) s = execQueueEnable q value s := rfl
theorem exec_queueDisable {q value} (s : State) :
    exec (.queueDisable q value) s = execQueueDisable q value s := rfl
theorem exec_queuePriorityWeight {q value} (s : State) :
    exec (.queuePriorityWeight q value) s = execQueuePriorityWeight q value s := rfl
theorem exec_qtail {q value} (s : State) :
    exec (.qtail q value) s = execQtail q value s := rfl
theorem exec_qstatClearStopped {q} (s : State) :
    exec (.qstatClearStopped q) s = execQstatClearStopped q s := rfl
theorem exec_recordTake {q} (s : State) :
    exec (.recordTake q) s = execRecordTake q s := rfl
theorem exec_landingEntry {launch} (s : State) :
    exec (.landingEntry launch) s = execLandingEntry launch s := rfl
theorem exec_chainPlacement (s : State) : exec .chainPlacement s = execChainPlacement s := rfl
theorem exec_blockSave {block} (s : State) :
    exec (.blockSave block) s = execBlockSave block s := rfl
theorem exec_launchComplete {launch} (s : State) :
    exec (.launchComplete launch) s = execLaunchComplete launch s := rfl
theorem exec_childTemplateRead {die} (s : State) :
    exec (.childTemplateRead die) s = execChildTemplateRead die s := rfl
theorem exec_dqerrClear {die} (s : State) :
    exec (.dqerrClear die) s = execDqerrClear die s := rfl
theorem exec_kernelNodeRun {launch node} (s : State) :
    exec (.kernelNodeRun launch node) s = execKernelNodeRun launch node s := rfl
theorem exec_copyNode {launch node} (s : State) :
    exec (.copyNode launch node) s = execCopyNode launch node s := rfl
theorem exec_conditionNode {launch node} (s : State) :
    exec (.conditionNode launch node) s = execConditionNode launch node s := rfl
theorem exec_loopNode {launch node} (s : State) :
    exec (.loopNode launch node) s = execLoopNode launch node s := rfl
theorem exec_contextEnable {c value} (s : State) :
    exec (.contextEnable c value) s = execContextEnable c value s := rfl
theorem exec_contextFreezeRequest {c} (s : State) :
    exec (.contextFreezeRequest c) s = execContextFreezeRequest c s := rfl
theorem exec_contextEvict {c} (s : State) :
    exec (.contextEvict c) s = execContextEvict c s := rfl
theorem exec_contextThaw {c} (s : State) :
    exec (.contextThaw c) s = execContextThaw c s := rfl
theorem exec_contextTeardown {c} (s : State) :
    exec (.contextTeardown c) s = execContextTeardown c s := rfl
theorem exec_teardownEnd {c} (s : State) :
    exec (.teardownEnd c) s = execTeardownEnd c s := rfl
theorem exec_hostBar2Read {pa len} (s : State) :
    exec (.hostBar2Read pa len) s = execHostBar2Read pa len s := rfl
theorem exec_hostBar2Write {pa bytes} (s : State) :
    exec (.hostBar2Write pa bytes) s = execHostBar2Write pa bytes s := rfl
theorem exec_hostAtomicop {pa op wide b c} (s : State) :
    exec (.hostAtomicop pa op wide b c) s = execHostAtomicop pa op wide b c s := rfl
theorem exec_peerRequest {req} (s : State) :
    exec (.peerRequest req) s = execPeerRequest req s := rfl
theorem exec_portStateChange {port up} (s : State) :
    exec (.portStateChange port up) s = execPortStateChange port up s := rfl
theorem exec_peerResend {op idx} (s : State) :
    exec (.peerResend op idx) s = execPeerResend op idx s := rfl
theorem exec_forwarderRowSend {die} (s : State) :
    exec (.forwarderRowSend die) s = execForwarderRowSend die s := rfl
theorem exec_fwderrClear {die} (s : State) :
    exec (.fwderrClear die) s = execFwderrClear die s := rfl
theorem exec_cbreq {cluster value} (s : State) :
    exec (.cbreq cluster value) s = execCbreq cluster value s := rfl
theorem exec_bankModeChange {cluster} (s : State) :
    exec (.bankModeChange cluster) s = execBankModeChange cluster s := rfl
theorem exec_cbhealth {cluster value} (s : State) :
    exec (.cbhealth cluster value) s = execCbhealth cluster value s := rfl
theorem exec_selogClear {cluster} (s : State) :
    exec (.selogClear cluster) s = execSelogClear cluster s := rfl
theorem exec_transferRetry {stack pc} (s : State) :
    exec (.transferRetry stack pc) s = execTransferRetry stack pc s := rfl
theorem exec_pseudoChannelHold {stack pc} (s : State) :
    exec (.pseudoChannelHold stack pc) s = execPseudoChannelHold stack pc s := rfl
theorem exec_hrelRelease {stack pc} (s : State) :
    exec (.hrelRelease stack pc) s = execHrelRelease stack pc s := rfl
theorem exec_hrelFail {stack pc} (s : State) :
    exec (.hrelFail stack pc) s = execHrelFail stack pc s := rfl
theorem exec_hswap {stack pc value} (s : State) :
    exec (.hswap stack pc value) s = execHswap stack pc value s := rfl
theorem exec_hlogClearArray {stack} (s : State) :
    exec (.hlogClearArray stack) s = execHlogClearArray stack s := rfl
theorem exec_hlogClearTransfer {stack} (s : State) :
    exec (.hlogClearTransfer stack) s = execHlogClearTransfer stack s := rfl
theorem exec_powerOnReset (s : State) : exec .powerOnReset s = execPowerOnReset s := rfl
theorem exec_resetreq {value} (s : State) :
    exec (.resetreq value) s = execResetreq value s := rfl
theorem exec_flashPageWrite {region offset bytes} (s : State) :
    exec (.flashPageWrite region offset bytes) s = execFlashPageWrite region offset bytes s := rfl
theorem exec_clockStep (s : State) : exec .clockStep s = execClockStep s := rfl
theorem exec_thermtrip {die} (s : State) :
    exec (.thermtrip die) s = execThermtrip die s := rfl
theorem exec_getVersion {t} (s : State) :
    exec (.getVersion t) s = execGetVersion t s := rfl
theorem exec_getCapabilities {t} (s : State) :
    exec (.getCapabilities t) s = execGetCapabilities t s := rfl
theorem exec_negotiateAlgorithms {t ecdsaP256 sha256} (s : State) :
    exec (.negotiateAlgorithms t ecdsaP256 sha256) s = execNegotiateAlgorithms t ecdsaP256 sha256 s := rfl
theorem exec_getDigests {t} (s : State) :
    exec (.getDigests t) s = execGetDigests t s := rfl
theorem exec_getCertificate {t slot offset len} (s : State) :
    exec (.getCertificate t slot offset len) s = execGetCertificate t slot offset len s := rfl
theorem exec_challenge {t slot nonce} (s : State) :
    exec (.challenge t slot nonce) s = execChallenge t slot nonce s := rfl
theorem exec_getMeasurements {t index nonce} (s : State) :
    exec (.getMeasurements t index nonce) s = execGetMeasurements t index nonce s := rfl
theorem exec_unsupportedrequest {t code} (s : State) :
    exec (.unsupportedrequest t code) s = execUnsupportedrequest t code s := rfl
theorem exec_registerWrite {offset value} (s : State) :
    exec (.registerWrite offset value) s = execRegisterWrite offset value s := rfl
theorem exec_arithmeticClockCycle (s : State) : exec .arithmeticClockCycle s = execArithmeticClockCycle s := rfl
theorem exec_hostInvalidation {c every va len} (s : State) :
    exec (.hostInvalidation c every va len) s = execHostInvalidation c every va len s := rfl
theorem exec_cxlMemAccess {pa write len} (s : State) :
    exec (.cxlMemAccess pa write len) s = execCxlMemAccess pa write len s := rfl
theorem exec_linkTraining {rate width cxl} (s : State) :
    exec (.linkTraining rate width cxl) s = execLinkTraining rate width cxl s := rfl
theorem exec_powerOff (s : State) : exec .powerOff s = execPowerOff s := rfl

end Sys2Proof.Machine
end

