-- ==== Sys2Proof/Laws/Issue.lean ====
section
/-! SUPPORT. What a word does that meets the conditions of `Issues`: it passes its gate for its active threads, its effect is
taken, and its unit goes on. One lemma for each shape of word. -/

/- Theorems are checked one after another: many at once ask for more memory than the check allows. -/
set_option Elab.async false

namespace Sys2Proof.Machine

theorem maskWhere_false : maskWhere (fun _ => false) = 0 := by decide

theorem trapMask_nil : trapMask [] = 0 := by
  simp only [trapMask, List.any_nil]
  exact maskWhere_false

theorem and_no_traps (m : BitVec 32) : m &&& ~~~(trapMask []) = m := by
  rw [trapMask_nil]
  apply BitVec.eq_of_getLsbD_eq
  intro i hi
  rw [BitVec.getLsbD_and, BitVec.getLsbD_not]
  simp [hi]

theorem getGang_of_block {s : State} {n g : Nat} {b : Block} (h : getBlock s n = some b) : getGang s n g = gangOf b g := by
  simp [getGang, h]

/-- A bit of a mask built from a condition. -/
theorem getLsbD_maskWhere (p : Nat → Bool) (l : Nat) : (maskWhere p).getLsbD l = (decide (l < 32) && p l) := by
  have key : ∀ (ls : List Nat) (m : BitVec 32), (∀ k ∈ ls, k < 32) →
      (ls.foldl (fun m k => if p k then m ||| laneBit k else m) m).getLsbD l = (m.getLsbD l || (decide (l ∈ ls) && p l)) := by
    intro ls
    induction ls with
    | nil => intro m _; simp
    | cons k ls ih =>
      intro m hk
      have h32 : k < 32 := hk k (by simp)
      rw [List.foldl_cons, ih _ (fun j hj => hk j (by simp [hj]))]
      by_cases hp : p k
      · by_cases hkl : l = k
        · subst hkl
          simp [hp, laneBit, h32]
        · have : (laneBit k).getLsbD l = false := by
            simp only [laneBit, BitVec.getLsbD_shiftLeft]
            by_cases hlt : l < k
            · simp [hlt]
            · have : l - k ≠ 0 := by omega
              simp [BitVec.getLsbD_one, this]
          simp [hp, this, hkl]
      · by_cases hkl : l = k
        · subst hkl; simp [hp]
        · simp [hp, hkl]
  have := key lanes32 0 (by simp [lanes32])
  simp only [maskWhere]
  rw [this]
  simp [lanes32]

theorem mem_lanesOf {m : BitVec 32} {l : Nat} : l ∈ lanesOf m ↔ l < 32 ∧ m.getLsbD l = true := by
  simp [lanesOf, lanes32]

/-- A mask with no lane is empty. -/
theorem lanesOf_eq_nil {m : BitVec 32} : lanesOf m = [] ↔ m = 0 := by
  constructor
  · intro h
    apply BitVec.eq_of_getLsbD_eq
    intro i hi
    have : i ∉ lanesOf m := by simp [h]
    rw [mem_lanesOf] at this
    simpa [hi] using this
  · rintro rfl; decide

/-- The lanes whose guard holds are among those asked of. -/
theorem guardHolds_subset (g : Gang) (gd : BitVec 4) (m : BitVec 32) : guardHolds g gd m &&& m = guardHolds g gd m := by
  apply BitVec.eq_of_getLsbD_eq
  intro i hi
  simp only [guardHolds, BitVec.getLsbD_and, getLsbD_maskWhere]
  cases m.getLsbD i <;> simp

/-- The unit of a word that issues holds a lane. -/
theorem Issues.lanes_ne {i s t b act} (h : Issues i s t b act) : t.unit.lanes ≠ 0 := by
  intro h0
  apply h.some
  rw [h.active, h0]
  split
  · rfl
  · have := guardHolds_subset (gangOf b t.gang) i.guard 0
    simpa using this.symm

theorem sourcesAt_sel (g : Gang) (gd : BitVec 4) (d a b : BitVec 6) :
    sourcesAt g (.sel gd d a b) = [.v a.toNat, .v b.toNat] := rfl

theorem sourcesAt_selK (g : Gang) (gd : BitVec 4) (d a b : BitVec 6) :
    sourcesAt g (.selK gd d a b) = [.v a.toNat, .k b.toNat] := rfl

/-- A word reads no other register than its sources. -/
theorem trapSources_subset (g : Gang) (i : Instr) (l : Nat) : ∀ r ∈ trapSources g i l, r ∈ sourcesAt g i := by
  intro r hr
  unfold trapSources at hr
  split at hr
  · rw [List.mem_singleton] at hr
    rw [sourcesAt_sel]
    split at hr <;> simp [hr]
  · rw [List.mem_singleton] at hr
    rw [sourcesAt_selK]
    split at hr <;> simp [hr]
  · exact hr

/-- Where no source of a lane is empty, none of those it reads is. -/
theorem trapSources_full {g : Gang} {i : Instr} {l : Nat} (h : emptyOf g l (sourcesAt g i) = none) :
    emptyOf g l (trapSources g i l) = none := by
  simp only [emptyOf, List.find?_eq_none] at h ⊢
  exact fun r hr => h r (trapSources_subset g i l r hr)

/-- A word that is not out of place is judged by all its fields. -/
theorem fieldReasonsAt_of_place {t : Site} {i : Instr} (h : placeReasons t i = []) : fieldReasonsAt t i = legality i := by
  have : startsLast t i = false := by
    rw [Bool.eq_false_iff]
    intro hc
    simp only [startsLast, Bool.and_eq_true, beq_iff_eq, decide_eq_true_eq] at hc
    simp only [placeReasons, hc, and_self, if_true] at h
    simp at h
  simp [fieldReasonsAt, this]

/-- A word under the conditions of `Issues` passes its gate, with no trap. -/
theorem gate_of_issues {i s t b act} (h : Issues i s t b act) : gate i s = .go t t.unit.lanes act [] := by
  have hops : operandTraps t (gangOf b t.gang) i act = [] := by
    simp only [operandTraps, List.filterMap_eq_nil_iff]
    intro l hl
    simp [h.full l hl, h.clean l hl]
  have hempty : ¬ (hdrTraps t.hdr t.slot = false ∧
      (lanesOf act).any (fun l => (emptyOf (gangOf b t.gang) l (sourcesAt (gangOf b t.gang) i)).isSome) = true) := by
    rintro ⟨hp, ha⟩
    rw [List.any_eq_true] at ha
    obtain ⟨l, hl, hs⟩ := ha
    rw [h.whole hp l hl] at hs
    cases hs
  have hdests : (lanesOf act).any (fun l => (destsAt (gangOf b t.gang) i).any (fun r =>
      refEmpty (gangOf b t.gang) l r || refLocked (gangOf b t.gang) l r)) = false := by
    rw [List.any_eq_false]
    intro l hl
    rw [Bool.not_eq_true, List.any_eq_false]
    intro r hr
    simp [h.dests l hl r hr]
  have hmode : ¬ (needsPrivilege i = true ∧ (getContext s b.ctx).privileged = false) := by
    rintro ⟨h1, h2⟩
    simp [h.mode h1] at h2
  have hg15 : (i.guard = 15) = False := by simpa using h.guard
  simp only [gate, h.site, gateAt, h.block, h.free, hg15, h.clear, List.any_nil, and_no_traps, ← h.active, h.some, if_false,
    Bool.false_eq_true, and_false, gateActive, fieldReasonsAt_of_place h.place, h.legal, h.place, h.values, List.append_nil, lowestReason, ne_eq,
    not_true_eq_false, hmode, h.number, if_neg hempty, hops, and_no_traps, hdests, h.room, h.ready, Bool.or_false]

/-- The moves of a word without traps that all its unit makes. -/
theorem moves_kept (t : Site) (m : Move) (hm : m.lanes = t.unit.lanes) (hl : t.unit.lanes ≠ 0) :
    ([m].map (fun m => { m with lanes := m.lanes &&& ~~~(trapMask []) })).filter (fun m => m.lanes != 0) = [m] := by
  have h : (m.lanes != 0) = true := by rw [hm]; simpa [bne_iff_ne] using hl
  simp only [List.map_cons, List.map_nil, and_no_traps, List.filter_cons, h, if_true, List.filter_nil]

/-- What a word leaves whose whole unit goes on, with no trap. -/
theorem finish_onward (t : Site) (n : Nat) (s : State) (hl : t.unit.lanes ≠ 0) :
    finish t { st := s, traps := [], moves := t.onward n t.unit.lanes, ends := false } = wentOn t n s := by
  simp only [finish, Site.onward, moves_kept t { lanes := t.unit.lanes, pc := t.after n } rfl hl, List.foldl_cons,
    List.foldl_nil, List.isEmpty_nil, if_true, and_self]
  rfl

theorem finish_onward_ending (t : Site) (n : Nat) (s : State) (hl : t.unit.lanes ≠ 0) :
    finish t { st := s, traps := [], moves := t.onward n t.unit.lanes, ends := true } = wentOnEnding t n s := by
  simp only [finish, Site.onward, moves_kept t { lanes := t.unit.lanes, pc := t.after n } rfl hl, List.foldl_cons,
    List.foldl_nil, List.isEmpty_nil, if_true, Bool.true_eq_false, false_and, and_false, if_false]
  rfl

theorem finish_waiting (t : Site) (pc : Dword) (w : UnitWait) (s : State) (hl : t.unit.lanes ≠ 0) (hw : w ≠ .none) (e : Bool) :
    finish t { st := s, traps := [], moves := [{ lanes := t.unit.lanes, pc := pc, wait := w }], ends := e } =
      endRun (makeMove t s { lanes := t.unit.lanes, pc := pc, wait := w }) t.core := by
  simp only [finish, moves_kept t { lanes := t.unit.lanes, pc := pc, wait := w } rfl hl, List.foldl_cons,
    List.foldl_nil, List.isEmpty_nil, if_true, hw, and_false, if_false]

/-- A word under the conditions of `Issues` has its effect. -/
theorem runWord_of_issues {i s t b act} (h : Issues i s t b act) (eff : Site → BitVec 32 → BitVec 32 → Effect) :
    runWord i s eff = .next (finish t (eff t t.unit.lanes act)) := by
  simp only [runWord, gate_of_issues h, throughGate, h.some, if_false, List.nil_append]

/-- A word of `lanesWord` under the conditions of `Issues`: the traps it meets are its own, and every other active thread is
as `y` gives it. -/
theorem lanesWord_of_issues {i s t b act} (h : Issues i s t b act) (f : Site → Gang → List Nat → Nat → LaneResult)
    (raised : Nat → Option Trap) (y : Gang → Nat → Thread → Thread)
    (hf : ∀ l ∈ lanesOf act, f t (t.g s) (lanesOf act) l =
      match raised l with | some x => .error x | none => .ok (y (t.g s) l (threadOf (t.g s) l))) :
    lanesWord i s f = .next (trapsSome t i.words (eachThread s t (sparedOf act raised) y) (ownTraps t act raised)) := by
  rw [lanesWord, runWord_of_issues h]
  have htr : (lanesOf act).filterMap (fun l =>
      match f t (t.g s) (lanesOf act) l with | .ok _ => none | .error x => some (l, t.trap x)) =
      ownTraps t act raised := by
    have key : ∀ ls : List Nat, (∀ l ∈ ls, l ∈ lanesOf act) → ls.filterMap (fun l =>
        match f t (t.g s) (lanesOf act) l with | .ok _ => none | .error x => some (l, t.trap x)) =
        ls.filterMap (fun l => (raised l).map (fun x => (l, t.trap x))) := by
      intro ls
      induction ls with
      | nil => intro _; rfl
      | cons k ls ih =>
        intro hk
        have hr := hf k (hk k (by simp))
        rw [List.filterMap_cons, List.filterMap_cons, hr, ih (fun l hl => hk l (by simp [hl]))]
        cases raised k <;> rfl
    exact key _ (fun _ hl => hl)
  have hlanes : lanesOf (sparedOf act raised) = (lanesOf act).filter (fun l => (raised l).isNone) := by
    simp only [lanesOf, List.filter_filter, sparedOf]
    refine List.filter_congr (fun l hl => ?_)
    have : l < 32 := by simpa [lanes32] using hl
    rw [BitVec.getLsbD_and, getLsbD_maskWhere, Bool.and_comm]
    simp [this]
  have hfold : ∀ (ls : List Nat) (x : Gang), (∀ l ∈ ls, l ∈ lanesOf act) →
      ls.foldl (fun x l => match f t (t.g s) (lanesOf act) l with
        | .ok z => modThreadOf x l (fun _ => z)
        | .error _ => x) x =
      (ls.filter (fun l => (raised l).isNone)).foldl
        (fun x l => modThreadOf x l (fun _ => y (t.g s) l (threadOf (t.g s) l))) x := by
    intro ls
    induction ls with
    | nil => intro x _; rfl
    | cons k ls ih =>
      intro x hk
      rw [List.foldl_cons, hf k (hk k (by simp)), List.filter_cons]
      cases hr : raised k with
      | some z =>
        simp only [Option.isNone_some, Bool.false_eq_true, if_false]
        exact ih _ (fun l hl => hk l (by simp [hl]))
      | none =>
        simp only [Option.isNone_none, if_true, List.foldl_cons]
        exact ih _ (fun l hl => hk l (by simp [hl]))
  have hst : modGang s t.blk t.gang (fun x => (lanesOf act).foldl (fun x l =>
        match f t (t.g s) (lanesOf act) l with
        | .ok z => modThreadOf x l (fun _ => z)
        | .error _ => x) x) = eachThread s t (sparedOf act raised) y := by
    simp only [eachThread, hlanes]
    congr 1
    funext x
    exact hfold _ x (fun _ hl => hl)
  refine congrArg _ ?_
  rw [trapsSome, ← hst, ← htr] <;> rfl

/-- Where no lane raises a trap, every lane is spared and no trap is taken. -/
theorem no_ownTraps {t : Site} {act : BitVec 32} {raised : Nat → Option Trap} (hn : ∀ l ∈ lanesOf act, raised l = none) :
    sparedOf act raised = act ∧ ownTraps t act raised = [] := by
  constructor
  · apply BitVec.eq_of_getLsbD_eq
    intro l hl
    rw [sparedOf, BitVec.getLsbD_and, getLsbD_maskWhere]
    by_cases ha : act.getLsbD l = true
    · simp [hl, hn l (mem_lanesOf.mpr ⟨hl, ha⟩)]
    · simp [ha]
  · rw [ownTraps, List.filterMap_eq_nil_iff]
    intro l hl
    simp [hn l hl]

/-- A word whose traps are none goes on. -/
theorem trapsSome_none (t : Site) (n : Nat) (s : State) (hl : t.unit.lanes ≠ 0) : trapsSome t n s [] = wentOn t n s :=
  finish_onward t n s hl

theorem laneWord_of_issues {i s t b act} (h : Issues i s t b act) (f : Site → Gang → Nat → LaneResult)
    (y : Gang → Nat → Thread → Thread) (hf : ∀ l ∈ lanesOf act, f t (t.g s) l = .ok (y (t.g s) l (threadOf (t.g s) l))) :
    laneWord i s f = .next (wentOn t i.words (eachThread s t act y)) := by
  rw [laneWord, lanesWord_of_issues h _ (fun _ => none) y hf, (no_ownTraps (t := t) (act := act) (fun _ _ => rfl)).1,
    (no_ownTraps (t := t) (act := act) (fun _ _ => rfl)).2, trapsSome_none _ _ _ h.lanes_ne]

theorem vWord_of_issues {i s t b act} (h : Issues i s t b act) (d : Nat) (f : Gang → Nat → Thread → Word) :
    vWord i s d f = .next (wentOn t i.words (eachThread s t act (fun g l x =>
      writeV x d (f g l x) (anyPoison g l (sources i))))) :=
  laneWord_of_issues h _ _ (fun _ _ => rfl)

theorem pairWord_of_issues {i s t b act} (h : Issues i s t b act) (d : Nat) (f : Gang → Nat → Thread → Dword) :
    pairWord i s d f = .next (wentOn t i.words (eachThread s t act (fun g l x =>
      writePair x d (f g l x) (anyPoison g l (sources i))))) :=
  laneWord_of_issues h _ _ (fun _ _ => rfl)

theorem predWord_of_issues {i s t b act} (h : Issues i s t b act) (d : Nat) (f : Gang → Nat → Thread → Bool) :
    predWord i s d f = .next (wentOn t i.words (eachThread s t act (fun g l x =>
      writeP x d (f g l x) (anyPoison g l (sources i))))) :=
  laneWord_of_issues h _ _ (fun _ _ => rfl)

theorem crossWord_of_issues {i s t b act} (h : Issues i s t b act) (f : Gang → List Nat → Nat → Thread → Thread) :
    crossWord i s f = .next (wentOn t i.words (eachThread s t act (fun g l x => f g (lanesOf act) l x))) := by
  rw [crossWord, runWord_of_issues h]
  simp only [eachThread]
  rw [finish_onward t i.words _ h.lanes_ne]

theorem gangWord_of_issues {i s t b act} (h : Issues i s t b act) (f : Gang → BitVec 32 → Gang) :
    gangWord i s f = .next (wentOn t i.words (modGang s t.blk t.gang (fun g => f g act))) := by
  rw [gangWord, runWord_of_issues h, finish_onward t i.words _ h.lanes_ne]

theorem onceWord_of_issues {i s t b act} (h : Issues i s t b act) (f : Site → BitVec 32 → State) :
    onceWord i s false f = .next (wentOn t i.words (f t act)) := by
  rw [onceWord, runWord_of_issues h, finish_onward t i.words _ h.lanes_ne]

theorem onceWord_of_issues_ending {i s t b act} (h : Issues i s t b act) (f : Site → BitVec 32 → State) :
    onceWord i s true f = .next (wentOnEnding t i.words (f t act)) := by
  rw [onceWord, runWord_of_issues h, finish_onward_ending t i.words _ h.lanes_ne]

/-! ### The shapes of memory words -/

theorem site_block {i s t b act} (h : Issues i s t b act) : t.g s = gangOf b t.gang := by
  simp only [Site.g, getGang, h.block]

theorem lanes_some {i s t b act} (h : Issues i s t b act) : (lanesOf act).isEmpty = false := by
  cases hh : lanesOf act with
  | nil => exact absurd (lanesOf_eq_nil.mp hh) h.some
  | cons => rfl

/-- The lanes of a list that meet no error are all of them where none does. -/
theorem filter_no_error {α : Type} [DecidableEq α] (ls : List Nat) (err : Nat → Option α) (h : ∀ l ∈ ls, err l = none) :
    ls.filter (fun l => err l == none) = ls := by
  rw [List.filter_eq_self]
  intro l hl
  simp [h l hl]

theorem filterMap_no_error {α β : Type} (ls : List Nat) (err : Nat → Option α) (f : Nat → α → β)
    (h : ∀ l ∈ ls, err l = none) : ls.filterMap (fun l => (err l).map (f l)) = [] := by
  rw [List.filterMap_eq_nil_iff]
  intro l hl
  simp [h l hl]

/-- A word of `accessWord` under the conditions of `Issues`: the threads whose access meets a trap take it, and the others start
theirs. -/
theorem accessWord_traps {i s t b act} (h : Issues i s t b act) (dst : List RegRef) (kind : OpKind) (addr : Gang → Nat → Int)
    (acc : Gang → Nat → Access) :
    accessWord i s dst kind addr acc = .next (trapsSome t i.words
      (if ((lanesOf act).filter (fun l =>
          accessTrap s b (acc (t.g s) l).space (addr (t.g s) l) (acc (t.g s) l).size == none)).isEmpty then s
        else startOp s t ((lanesOf act).filter (fun l =>
            accessTrap s b (acc (t.g s) l).space (addr (t.g s) l) (acc (t.g s) l).size == none)) dst (counterClass i) kind
          (((lanesOf act).filter (fun l =>
            accessTrap s b (acc (t.g s) l).space (addr (t.g s) l) (acc (t.g s) l).size == none)).map (acc (t.g s))))
      (ownTraps t act (fun l => accessTrap s b (acc (t.g s) l).space (addr (t.g s) l) (acc (t.g s) l).size))) := by
  rw [site_block h, accessWord, runWord_of_issues h]
  simp only [h.block]
  rfl

theorem accessWord_of_issues {i s t b act} (h : Issues i s t b act) (dst : List RegRef) (kind : OpKind)
    (addr : Gang → Nat → Int) (acc : Gang → Nat → Access)
    (hn : ∀ l ∈ lanesOf act, accessTrap s b (acc (t.g s) l).space (addr (t.g s) l) (acc (t.g s) l).size = none) :
    accessWord i s dst kind addr acc = .next (wentOn t i.words (startOp s t (lanesOf act) dst (counterClass i) kind
      ((lanesOf act).map (acc (t.g s))))) := by
  rw [accessWord_traps h, filter_no_error _ _ hn, (no_ownTraps hn).2, trapsSome_none _ _ _ h.lanes_ne]
  simp only [lanes_some h, Bool.false_eq_true, if_false]

/-- The shape of a word that starts one access in each of its threads. -/
theorem startsAccesses_of_accessWord {i : Instr} {cls : Counter} {dst : List RegRef} {kind : OpKind}
    {addr : Gang → Nat → Int} {acc : State → Gang → Nat → Access} (hc : counterClass i = some cls)
    (he : ∀ s, exec i s = accessWord i s dst kind addr (acc s)) : StartsAccesses i cls dst kind addr acc := by
  intro s t b act h
  refine ⟨fun hn => ?_, fun _ => ?_⟩
  · rw [he, accessWord_of_issues h _ _ _ _ hn, hc]
  · rw [he, accessWord_traps h, hc]
    simp only [startIn, List.isEmpty_iff]

theorem onceAccess_of_issues {i s t b act} (h : Issues i s t b act) (dst : List RegRef) (kind : OpKind) (addr : Gang → Int)
    (acc : Gang → BitVec 32 → Access)
    (hn : accessTrap s b (acc (t.g s) act).space (addr (t.g s)) (acc (t.g s) act).size = none) :
    onceAccess i s dst kind addr acc = .next (wentOn t i.words (startOp s t (lanesOf act) dst (counterClass i) kind
      [acc (t.g s) act])) := by
  rw [site_block h] at hn ⊢
  rw [onceAccess, runWord_of_issues h]
  simp only [h.block, hn]
  rw [finish_onward _ _ _ h.lanes_ne]

theorem onceAccess_traps {i s t b act} (h : Issues i s t b act) (dst : List RegRef) (kind : OpKind) (addr : Gang → Int)
    (acc : Gang → BitVec 32 → Access) {x : Trap}
    (hx : accessTrap s b (acc (t.g s) act).space (addr (t.g s)) (acc (t.g s) act).size = some x) :
    onceAccess i s dst kind addr acc = .next (trapsAll t i.words s act (t.trap x)) := by
  rw [site_block h] at hx
  rw [onceAccess, runWord_of_issues h]
  simp only [h.block, hx]
  rfl

/-- The shape of a word that makes one access for its gang. -/
theorem startsAccess_of_onceAccess {i : Instr} {cls : Counter} {dst : List RegRef} {kind : OpKind} {addr : Gang → Int}
    {acc : Gang → BitVec 32 → Access} (hc : counterClass i = some cls)
    (he : ∀ s, exec i s = onceAccess i s dst kind addr acc) : StartsAccess i cls dst kind addr acc := by
  intro s t b act h
  refine ⟨fun hn => ?_, fun x hx => ?_⟩
  · rw [he, onceAccess_of_issues h _ _ _ _ hn, hc]
  · rw [he, onceAccess_traps h _ _ _ _ hx]

/-- The words that a plane word names, with their sizes: the head and the plane words of some numbers. -/
abbrev namedWords (p : PlaneOperand) (planes : List Nat) : List (Nat × Nat) :=
  (headAddress p.base p.blk, 2) :: planes.map (fun k => (planeAddress p.base p.blk p.stride k, 4))

theorem planeWord_of_issues {i s t b act} (h : Issues i s t b act) (kq : BitVec 6) (dst : List RegRef)
    (mk : Gang → PlaneOperand → BitVec 32 → OpKind × List Access) (planes : Gang → List Nat)
    (hp : planeOperandTrap (planeOperand (t.g s) kq) = none)
    (hn : (namedWords (planeOperand (t.g s) kq) (planes (t.g s))).findSome? (fun a => accessTrap s b 0 a.1 a.2) = none) :
    planeWord i s kq dst mk planes = .next (wentOn t i.words (startOp s t (lanesOf act) dst (counterClass i)
      (mk (t.g s) (planeOperand (t.g s) kq) act).1 (mk (t.g s) (planeOperand (t.g s) kq) act).2)) := by
  rw [site_block h] at hp hn ⊢
  rw [planeWord, runWord_of_issues h]
  simp only [h.block, hp, hn]
  rw [finish_onward _ _ _ h.lanes_ne]

theorem planeWord_range {i s t b act} (h : Issues i s t b act) (kq : BitVec 6) (dst : List RegRef)
    (mk : Gang → PlaneOperand → BitVec 32 → OpKind × List Access) (planes : Gang → List Nat) (x : Trap)
    (hp : planeOperandTrap (planeOperand (t.g s) kq) = none)
    (hx : (namedWords (planeOperand (t.g s) kq) (planes (t.g s))).findSome? (fun a => accessTrap s b 0 a.1 a.2) = some x) :
    planeWord i s kq dst mk planes = .next (trapsAll t i.words s act (t.trap x)) := by
  rw [site_block h] at hp hx
  rw [planeWord, runWord_of_issues h]
  simp only [h.block, hp, hx, trapsAll, trapsSome]

theorem planeWord_traps {i s t b act} (h : Issues i s t b act) (kq : BitVec 6) (dst : List RegRef)
    (mk : Gang → PlaneOperand → BitVec 32 → OpKind × List Access) (planes : Gang → List Nat) (x : Trap)
    (hp : planeOperandTrap (planeOperand (t.g s) kq) = some x) :
    planeWord i s kq dst mk planes = .next (trapsAll t i.words s act (t.trap x)) := by
  rw [site_block h] at hp
  rw [planeWord, runWord_of_issues h]
  simp only [h.block, hp, trapsAll, trapsSome]

/-- What an atomic word leaves from the threads that start their atomic: the traps of the others, and a wait after the word where
it acquires. -/
theorem atomicWord_traps {i s t b act} (h : Issues i s t b act) (dst : List RegRef) (a : BitVec 6) (sp : BitVec 2)
    (off : BitVec 14) (w : BitVec 1) (order : BitVec 2) (scope : BitVec 3) (kind : Gang → List Nat → OpKind) :
    let raised (l : Nat) : Option Trap :=
      accessTrap s b sp.toNat (effectiveAddress (t.g s) l a sp.toNat off.toInt) (4 * (1 + w.toNat))
    let ok := (lanesOf act).filter (fun l => raised l == none)
    let s' := if ok.isEmpty then s else startOp s t ok dst (counterClass i) (kind (t.g s) ok)
      (ok.map (fun l => laneAccess (t.g s) l a sp.toNat off.toInt (4 * (1 + w.toNat)) none))
    atomicWord i s dst a sp off w order scope kind = .next (trapsSomeWaiting t i.words
      (if order.getLsbD 0 && !ok.isEmpty then .acquire [s.nextId] scope.toNat else .none) s' (ownTraps t act raised)) := by
  rw [site_block h, atomicWord, runWord_of_issues h]
  simp only [h.block]
  rfl

theorem atomicWord_of_issues {i s t b act} (h : Issues i s t b act) (dst : List RegRef) (a : BitVec 6) (sp : BitVec 2)
    (off : BitVec 14) (w : BitVec 1) (order : BitVec 2) (scope : BitVec 3) (kind : Gang → List Nat → OpKind)
    (hn : ∀ l ∈ lanesOf act, accessTrap s b sp.toNat (effectiveAddress (t.g s) l a sp.toNat off.toInt)
      (4 * (1 + w.toNat)) = none) :
    atomicWord i s dst a sp off w order scope kind =
      let s' := startOp s t (lanesOf act) dst (counterClass i) (kind (t.g s) (lanesOf act))
        ((lanesOf act).map (fun l => laneAccess (t.g s) l a sp.toNat off.toInt (4 * (1 + w.toNat)) none))
      if order.getLsbD 0 then .next (wentOnWaiting t i.words (.acquire [s.nextId] scope.toNat) s')
      else .next (wentOn t i.words s') := by
  rw [atomicWord_traps h]
  simp only [filter_no_error _ _ hn, (no_ownTraps hn).2, lanes_some h, Bool.false_eq_true, if_false,
    Bool.not_false, Bool.and_true, trapsSomeWaiting]
  by_cases ho : order.getLsbD 0 = true
  · simp only [ho, if_true]
    rw [finish_waiting _ _ _ _ h.lanes_ne (by simp)]
    rfl
  · simp only [ho]
    rw [← finish_onward _ _ _ h.lanes_ne]
    rfl

end Sys2Proof.Machine
end

