-- ==== Sys2Proof/Laws/Float.lean ====
section
/-! SUPPORT. The shape of words some of whose threads may trap (GivesUnless), and of the floating-point words among them. -/

set_option Elab.async false

namespace Sys2Proof.Machine

/-- A word of `lanesWord` changes each of its threads but for those that meet a trap of its description. -/
theorem givesUnless_of_lanesWord {i : Instr} {f : State → Site → Gang → List Nat → Nat → LaneResult}
    (he : ∀ s, exec i s = lanesWord i s (f s)) (raised : Site → Gang → BitVec 32 → Nat → Option Trap)
    (y : BitVec 32 → Gang → Nat → Thread → Thread)
    (hf : ∀ s t act, ∀ l ∈ lanesOf act, f s t (t.g s) (lanesOf act) l =
      match raised t (t.g s) act l with | some x => .error x | none => .ok (y act (t.g s) l (threadOf (t.g s) l))) :
    GivesUnless i raised y := by
  intro s t b act h
  have hr := (he s).trans (lanesWord_of_issues h (f s) (raised t (t.g s) act) (y act) (hf s t act))
  refine ⟨fun hn => ?_, fun _ => hr⟩
  rw [hr, (no_ownTraps (t := t) hn).1, (no_ownTraps (t := t) hn).2, trapsSome_none _ _ _ h.lanes_ne]

/-- A floating-point word gives its result, or raises FP_NONFINITE. -/
theorem givesFp_of_fpWord {i : Instr} {f : Fmt} {packed : Bool} {d : BitVec 6} {srcs : Gang → Thread → List Word}
    {op : FpMode → List Nat → Nat} (he : ∀ s, exec i s = fpWord i s f packed d.toNat srcs op) :
    GivesFp i f packed d srcs op := by
  refine givesUnless_of_lanesWord (f := fun _ t g _ l =>
    match nonFiniteElement (fpMode (threadOf g l)) (elementNumbers packed) (fun k => isFinite f
      (((elementNumbers packed).map (fun k => op (fpMode (threadOf g l)) (elementAt packed (srcs g (threadOf g l)) k))).getD k 0))
      (fun k => (elementAt packed (srcs g (threadOf g l)) k).map (isFinite f)) with
    | some k => .error (nonFiniteTrap t k)
    | none => .ok (writeV (threadOf g l) d.toNat (fromElements packed ((elementNumbers packed).map (fun k =>
        op (fpMode (threadOf g l)) (elementAt packed (srcs g (threadOf g l)) k)))) (anyPoison g l (sources i))))
    (fun s => (he s).trans rfl) _ _ ?_
  intro s t act l _
  have hk : nonFiniteElement (fpMode (threadOf (t.g s) l)) (elementNumbers packed) (fun k => isFinite f
      (((elementNumbers packed).map (fun k => op (fpMode (threadOf (t.g s) l))
        (elementAt packed (srcs (t.g s) (threadOf (t.g s) l)) k))).getD k 0))
      (fun k => (elementAt packed (srcs (t.g s) (threadOf (t.g s) l)) k).map (isFinite f)) =
      recordsNonFinite f packed (srcs (t.g s) (threadOf (t.g s) l)) op (threadOf (t.g s) l) := by
    cases packed <;>
      simp [nonFiniteElement, recordsNonFinite, nonFinite, raisesNonFinite, elementNumbers, List.find?, List.all_map,
        Function.comp_def]
  simp only [hk]
  cases recordsNonFinite f packed (srcs (t.g s) (threadOf (t.g s) l)) op (threadOf (t.g s) l) <;> rfl

/-- FABS by the class of its operand. -/
theorem fAbs_eq (f : Fmt) (b : Nat) : fAbs f b = if decodeF f b = .nan then canonicalNan f else b % 2 ^ (f.eb + f.mb) := by
  unfold fAbs
  cases decodeF f b <;> simp

/-- FNEG by the class of its operand. -/
theorem fNeg_eq (f : Fmt) (b : Nat) : fNeg f b = if decodeF f b = .nan then canonicalNan f else b ^^^ 2 ^ (f.eb + f.mb) := by
  unfold fNeg
  cases decodeF f b <;> simp

end Sys2Proof.Machine
end

