-- ==== Sys2Proof/Laws/Integer.lean ====
section
/-! SUPPORT. The integer functions of Arith as the spec's formulas over numbers. -/

/- Theorems are checked one after another: many at once ask for more memory than the check allows. -/
set_option Elab.async false

namespace Sys2Proof.Machine

theorem add_nat (a b : Word) : a + b = BitVec.ofNat 32 (a.toNat + b.toNat) := by
  apply BitVec.eq_of_toNat_eq; simp [BitVec.toNat_add]

theorem sub_int {w : Nat} (a b : BitVec w) : a - b = BitVec.ofInt w (a.toInt - b.toInt) := by
  apply BitVec.eq_of_toInt_eq; simp [BitVec.toInt_sub]

theorem add_int {w : Nat} (a b : BitVec w) : a + b = BitVec.ofInt w (a.toInt + b.toInt) := by
  apply BitVec.eq_of_toInt_eq; simp [BitVec.toInt_add]

theorem neg_int {w : Nat} (a : BitVec w) : -a = BitVec.ofInt w (-a.toInt) := by
  have := sub_int (0 : BitVec w) a
  simpa using this

theorem mul_nat (a b : Word) : a * b = BitVec.ofNat 32 (a.toNat * b.toNat) := by
  apply BitVec.eq_of_toNat_eq; simp [BitVec.toNat_mul]

theorem mad_nat (a b d : Word) : a * b + d = BitVec.ofNat 32 (a.toNat * b.toNat + d.toNat) := by
  apply BitVec.eq_of_toNat_eq; simp [BitVec.toNat_mul, BitVec.toNat_add]

/-- The high half of a value of twice the width, read as two's complement. -/
theorem high_half_32 (x : BitVec 64) : x.extractLsb' 32 32 = BitVec.ofInt 32 (x.toInt / 2 ^ 32) := by
  apply BitVec.eq_of_toNat_eq
  rw [BitVec.extractLsb'_toNat, Nat.shiftRight_eq_div_pow, BitVec.toNat_ofInt, BitVec.toInt_eq_toNat_cond]
  have := x.isLt
  split <;> omega

theorem high_half_64 (x : BitVec 128) : x.extractLsb' 64 64 = BitVec.ofInt 64 (x.toInt / 2 ^ 64) := by
  apply BitVec.eq_of_toNat_eq
  rw [BitVec.extractLsb'_toNat, Nat.shiftRight_eq_div_pow, BitVec.toNat_ofInt, BitVec.toInt_eq_toNat_cond]
  have := x.isLt
  split <;> omega

theorem wide_product_32 (a b : BitVec 32) : (a.signExtend 64 * b.signExtend 64).toInt = a.toInt * b.toInt := by
  rw [BitVec.toInt_mul, BitVec.toInt_signExtend_of_le (by omega), BitVec.toInt_signExtend_of_le (by omega)]
  have ha := BitVec.le_toInt a
  have ha' := BitVec.toInt_lt (x := a)
  have hb := BitVec.le_toInt b
  have hb' := BitVec.toInt_lt (x := b)
  have h1 : a.toInt * b.toInt ≤ 2 ^ 62 := by
    have := Int.mul_le_mul_of_natAbs_le (x := a.toInt) (y := b.toInt) (s := 2 ^ 31) (t := 2 ^ 31) (by omega) (by omega)
    simpa using this
  have h2 : -(2 ^ 62) ≤ a.toInt * b.toInt := by
    have := Int.mul_le_mul_of_natAbs_le (x := -a.toInt) (y := b.toInt) (s := 2 ^ 31) (t := 2 ^ 31) (by omega) (by omega)
    rw [Int.neg_mul] at this
    have e : ((2 ^ 31 : Nat) : Int) * ((2 ^ 31 : Nat) : Int) = 2 ^ 62 := by decide
    omega
  exact Int.bmod_eq_of_le (by omega) (by omega)

theorem wide_product_64 (a b : BitVec 64) : (a.signExtend 128 * b.signExtend 128).toInt = a.toInt * b.toInt := by
  rw [BitVec.toInt_mul, BitVec.toInt_signExtend_of_le (by omega), BitVec.toInt_signExtend_of_le (by omega)]
  have ha := BitVec.le_toInt a
  have ha' := BitVec.toInt_lt (x := a)
  have hb := BitVec.le_toInt b
  have hb' := BitVec.toInt_lt (x := b)
  have h1 : a.toInt * b.toInt ≤ 2 ^ 126 := by
    have := Int.mul_le_mul_of_natAbs_le (x := a.toInt) (y := b.toInt) (s := 2 ^ 63) (t := 2 ^ 63) (by omega) (by omega)
    simpa using this
  have h2 : -(2 ^ 126) ≤ a.toInt * b.toInt := by
    have := Int.mul_le_mul_of_natAbs_le (x := -a.toInt) (y := b.toInt) (s := 2 ^ 63) (t := 2 ^ 63) (by omega) (by omega)
    rw [Int.neg_mul] at this
    have e : ((2 ^ 63 : Nat) : Int) * ((2 ^ 63 : Nat) : Int) = 2 ^ 126 := by decide
    omega
  exact Int.bmod_eq_of_le (by omega) (by omega)

theorem mulHigh_32 (a b : Word) : mulHigh a b = (a.signExtend 64 * b.signExtend 64).extractLsb' 32 32 := by
  rw [high_half_32, wide_product_32, mulHigh]

theorem mulHigh_64 (a b : Dword) : mulHigh a b = (a.signExtend 128 * b.signExtend 128).extractLsb' 64 64 := by
  rw [high_half_64, wide_product_64, mulHigh]

theorem minSigned_int {w : Nat} (a b : BitVec w) : minSigned a b = if a.toInt ≤ b.toInt then a else b := by
  simp [minSigned, BitVec.sle_eq_decide]

theorem maxSigned_int {w : Nat} (a b : BitVec w) : maxSigned a b = if b.toInt ≤ a.toInt then a else b := by
  simp [maxSigned, BitVec.sle_eq_decide]

theorem signExtend_int {v w : Nat} (a : BitVec v) (h : v ≤ w) : a.signExtend w = BitVec.ofInt w a.toInt := by
  apply BitVec.eq_of_toInt_eq
  rw [BitVec.toInt_signExtend_of_le h, BitVec.toInt_ofInt]
  have := BitVec.toInt_signExtend_of_le (x := a) h
  rw [← this, BitVec.toInt_bmod_cancel]

theorem leaSum_int (a : Dword) (b : Word) : leaSum a b = BitVec.ofInt 64 (a.toInt + b.toInt) := by
  rw [leaSum, add_int, BitVec.toInt_signExtend_of_le (by omega)]

theorem shlBy_nat {w : Nat} (a : BitVec w) (n : Nat) :
    shlBy a n = if n < w then BitVec.ofNat w (a.toNat * 2 ^ n) else 0 := by
  simp only [shlBy]
  split
  · apply BitVec.eq_of_toNat_eq; simp [BitVec.toNat_shiftLeft, Nat.shiftLeft_eq]
  · rfl

theorem shrBy_nat {w : Nat} (a : BitVec w) (n : Nat) :
    shrBy a n = if n < w then BitVec.ofNat w (a.toNat / 2 ^ n) else 0 := by
  simp only [shrBy]
  split
  · apply BitVec.eq_of_toNat_eq
    rw [BitVec.toNat_ushiftRight, Nat.shiftRight_eq_div_pow, BitVec.toNat_ofNat, Nat.mod_eq_of_lt]
    exact Nat.lt_of_le_of_lt (Nat.div_le_self _ _) a.isLt
  · rfl

theorem sraBy_int {w : Nat} (a : BitVec w) (n : Nat) :
    sraBy a n = BitVec.ofInt w (a.toInt / 2 ^ min n (w - 1)) := by
  rw [sraBy, BitVec.sshiftRight, Int.shiftRight_eq_div_pow]
  push_cast
  rfl

theorem rotBy_rotateLeft {w : Nat} (a : BitVec w) (n : Nat) : rotBy a n = a.rotateLeft n := by
  rw [rotBy, BitVec.rotateLeft_def]

theorem rotBy_pos (a b : Word) : rotBy a b.toNat = a.rotateLeft (b.extractLsb' 0 5).toNat := by
  rw [rotBy, BitVec.rotateLeft_def]
  simp [BitVec.extractLsb'_toNat]

theorem popCount_nat (b : Word) :
    popCount b = BitVec.ofNat 32 ((List.range 32).filter (fun k => b.getLsbD k)).length := rfl

theorem leadingZeros_nat (b : Word) :
    leadingZeros b = if b = 0 then 32 else BitVec.ofNat 32 (31 - Nat.log2 b.toNat) := by
  rw [leadingZeros, bitLength]
  by_cases h : b = 0
  · subst h; rfl
  · have h' : b.toNat ≠ 0 := fun e => h (BitVec.eq_of_toNat_eq (by simpa using e))
    simp only [h, h', if_false]
    congr 1
    omega

theorem reverseBits_reverse (b : Word) : reverseBits b = b.reverse := by
  apply BitVec.eq_of_getLsbD_eq
  intro i hi
  rw [reverseBits, getLsbD_maskWhere, BitVec.getLsbD_reverse, BitVec.getMsbD_eq_getLsbD]

/-- The conditions of the model are those of Table 4.2. -/
theorem intCond_compares {w : Nat} (c : Nat) (u v : BitVec w) : intCond c u v = compares c u v := by
  have e : ∀ x y : BitVec w, (x == y) = decide (x = y) := fun x y => by
    by_cases h : x = y <;> simp [h]
  unfold intCond compares
  split <;> simp only [BitVec.slt, BitVec.sle, BitVec.ult, BitVec.ule, bne, e, decide_not, ne_eq]

/-- Whether a guard holds in one lane (R78). -/
theorem guard_lane (g : Gang) (gd : BitVec 4) (l : Nat) (hl : l < 32) :
    (guardHolds g gd (laneBit l) ≠ 0) = ((pReg (threadOf g l) (gd.extractLsb' 0 3).toNat).val != gd.getLsbD 3) := by
  have hbit : ∀ k, (laneBit l).getLsbD k = (decide (k < 32) && decide (k = l)) := by
    intro k
    simp only [laneBit, BitVec.getLsbD_shiftLeft, BitVec.getLsbD_one]
    by_cases h : k < l
    · have : k ≠ l := by omega
      simp [h, this]
    · by_cases h' : k = l
      · subst h'; simp [hl]
      · have : k - l ≠ 0 := by omega
        simp [this, h']
  apply propext
  constructor
  · intro h
    refine Classical.byContradiction fun hc => h ?_
    apply BitVec.eq_of_getLsbD_eq
    intro k hk
    rw [guardHolds, getLsbD_maskWhere, hbit]
    by_cases hkl : k = l
    · subst hkl
      rw [Bool.not_eq_true] at hc
      simp only [hc, Bool.and_false]
      exact (BitVec.getLsbD_zero).symm
    · simp [hkl]
  · intro h h0
    have := congrArg (fun m => BitVec.getLsbD m l) h0
    simp only [guardHolds, getLsbD_maskWhere, hbit, h] at this
    simp [hl] at this

end Sys2Proof.Machine
end

