-- ==== Sys2Proof/Laws/State.lean ====
section
/-! SUPPORT. One lemma for each field that each update of the state leaves as it is, true by rfl, so that no proof unfolds a
record update; and one for each field of a thread or gang that writing a register leaves. -/

/- Theorems are checked one after another: many at once ask for more memory than the check allows. -/
set_option Elab.async false

namespace Sys2Proof.Machine

@[simp] theorem modCore_agenda (s : State) (c : Nat) (f : Core → Core) : (modCore s c f).agenda = s.agenda := rfl
@[simp] theorem modCore_tick (s : State) (c : Nat) (f : Core → Core) : (modCore s c f).tick = s.tick := rfl
@[simp] theorem modCore_focus (s : State) (c : Nat) (f : Core → Core) : (modCore s c f).focus = s.focus := rfl
@[simp] theorem modCore_asker (s : State) (c : Nat) (f : Core → Core) : (modCore s c f).asker = s.asker := rfl
@[simp] theorem modCore_serves (s : State) (c : Nat) (f : Core → Core) : (modCore s c f).serves = s.serves := rfl
@[simp] theorem modCore_nextId (s : State) (c : Nat) (f : Core → Core) : (modCore s c f).nextId = s.nextId := rfl
@[simp] theorem modCore_out (s : State) (c : Nat) (f : Core → Core) : (modCore s c f).out = s.out := rfl
@[simp] theorem modCore_visits (s : State) (c : Nat) (f : Core → Core) : (modCore s c f).visits = s.visits := rfl
@[simp] theorem modCore_plans (s : State) (c : Nat) (f : Core → Core) : (modCore s c f).plans = s.plans := rfl
@[simp] theorem modCore_mem (s : State) (c : Nat) (f : Core → Core) : (modCore s c f).mem = s.mem := rfl
@[simp] theorem modCore_hostMem (s : State) (c : Nat) (f : Core → Core) : (modCore s c f).hostMem = s.hostMem := rfl
@[simp] theorem modCore_blocks (s : State) (c : Nat) (f : Core → Core) : (modCore s c f).blocks = s.blocks := rfl
@[simp] theorem modCore_ops (s : State) (c : Nat) (f : Core → Core) : (modCore s c f).ops = s.ops := rfl
@[simp] theorem modCore_backs (s : State) (c : Nat) (f : Core → Core) : (modCore s c f).backs = s.backs := rfl
@[simp] theorem modCore_clusters (s : State) (c : Nat) (f : Core → Core) : (modCore s c f).clusters = s.clusters := rfl
@[simp] theorem modCore_dies (s : State) (c : Nat) (f : Core → Core) : (modCore s c f).dies = s.dies := rfl
@[simp] theorem modCore_hbmStacks (s : State) (c : Nat) (f : Core → Core) : (modCore s c f).hbmStacks = s.hbmStacks := rfl
@[simp] theorem modCore_contexts (s : State) (c : Nat) (f : Core → Core) : (modCore s c f).contexts = s.contexts := rfl
@[simp] theorem modCore_queues (s : State) (c : Nat) (f : Core → Core) : (modCore s c f).queues = s.queues := rfl
@[simp] theorem modCore_launches (s : State) (c : Nat) (f : Core → Core) : (modCore s c f).launches = s.launches := rfl
@[simp] theorem modCore_windows (s : State) (c : Nat) (f : Core → Core) : (modCore s c f).windows = s.windows := rfl
@[simp] theorem modCore_hostIf (s : State) (c : Nat) (f : Core → Core) : (modCore s c f).hostIf = s.hostIf := rfl
@[simp] theorem modCore_link (s : State) (c : Nat) (f : Core → Core) : (modCore s c f).link = s.link := rfl
@[simp] theorem modCore_mgmt (s : State) (c : Nat) (f : Core → Core) : (modCore s c f).mgmt = s.mgmt := rfl
@[simp] theorem modCore_phys (s : State) (c : Nat) (f : Core → Core) : (modCore s c f).phys = s.phys := rfl

@[simp] theorem modCluster_agenda (s : State) (c : Nat) (f : Cluster → Cluster) : (modCluster s c f).agenda = s.agenda := rfl
@[simp] theorem modCluster_tick (s : State) (c : Nat) (f : Cluster → Cluster) : (modCluster s c f).tick = s.tick := rfl
@[simp] theorem modCluster_focus (s : State) (c : Nat) (f : Cluster → Cluster) : (modCluster s c f).focus = s.focus := rfl
@[simp] theorem modCluster_asker (s : State) (c : Nat) (f : Cluster → Cluster) : (modCluster s c f).asker = s.asker := rfl
@[simp] theorem modCluster_serves (s : State) (c : Nat) (f : Cluster → Cluster) : (modCluster s c f).serves = s.serves := rfl
@[simp] theorem modCluster_nextId (s : State) (c : Nat) (f : Cluster → Cluster) : (modCluster s c f).nextId = s.nextId := rfl
@[simp] theorem modCluster_out (s : State) (c : Nat) (f : Cluster → Cluster) : (modCluster s c f).out = s.out := rfl
@[simp] theorem modCluster_visits (s : State) (c : Nat) (f : Cluster → Cluster) : (modCluster s c f).visits = s.visits := rfl
@[simp] theorem modCluster_plans (s : State) (c : Nat) (f : Cluster → Cluster) : (modCluster s c f).plans = s.plans := rfl
@[simp] theorem modCluster_mem (s : State) (c : Nat) (f : Cluster → Cluster) : (modCluster s c f).mem = s.mem := rfl
@[simp] theorem modCluster_hostMem (s : State) (c : Nat) (f : Cluster → Cluster) : (modCluster s c f).hostMem = s.hostMem := rfl
@[simp] theorem modCluster_blocks (s : State) (c : Nat) (f : Cluster → Cluster) : (modCluster s c f).blocks = s.blocks := rfl
@[simp] theorem modCluster_ops (s : State) (c : Nat) (f : Cluster → Cluster) : (modCluster s c f).ops = s.ops := rfl
@[simp] theorem modCluster_backs (s : State) (c : Nat) (f : Cluster → Cluster) : (modCluster s c f).backs = s.backs := rfl
@[simp] theorem modCluster_cores (s : State) (c : Nat) (f : Cluster → Cluster) : (modCluster s c f).cores = s.cores := rfl
@[simp] theorem modCluster_dies (s : State) (c : Nat) (f : Cluster → Cluster) : (modCluster s c f).dies = s.dies := rfl
@[simp] theorem modCluster_hbmStacks (s : State) (c : Nat) (f : Cluster → Cluster) : (modCluster s c f).hbmStacks = s.hbmStacks := rfl
@[simp] theorem modCluster_contexts (s : State) (c : Nat) (f : Cluster → Cluster) : (modCluster s c f).contexts = s.contexts := rfl
@[simp] theorem modCluster_queues (s : State) (c : Nat) (f : Cluster → Cluster) : (modCluster s c f).queues = s.queues := rfl
@[simp] theorem modCluster_launches (s : State) (c : Nat) (f : Cluster → Cluster) : (modCluster s c f).launches = s.launches := rfl
@[simp] theorem modCluster_windows (s : State) (c : Nat) (f : Cluster → Cluster) : (modCluster s c f).windows = s.windows := rfl
@[simp] theorem modCluster_hostIf (s : State) (c : Nat) (f : Cluster → Cluster) : (modCluster s c f).hostIf = s.hostIf := rfl
@[simp] theorem modCluster_link (s : State) (c : Nat) (f : Cluster → Cluster) : (modCluster s c f).link = s.link := rfl
@[simp] theorem modCluster_mgmt (s : State) (c : Nat) (f : Cluster → Cluster) : (modCluster s c f).mgmt = s.mgmt := rfl
@[simp] theorem modCluster_phys (s : State) (c : Nat) (f : Cluster → Cluster) : (modCluster s c f).phys = s.phys := rfl

@[simp] theorem askAs_agenda (s : State) (a : Asker) : (askAs s a).agenda = s.agenda := rfl
@[simp] theorem askAs_tick (s : State) (a : Asker) : (askAs s a).tick = s.tick := rfl
@[simp] theorem askAs_focus (s : State) (a : Asker) : (askAs s a).focus = s.focus := rfl
@[simp] theorem askAs_asker (s : State) (a : Asker) : (askAs s a).asker = a := rfl
@[simp] theorem askAs_serves (s : State) (a : Asker) : (askAs s a).serves = s.serves := rfl
@[simp] theorem askAs_nextId (s : State) (a : Asker) : (askAs s a).nextId = s.nextId := rfl
@[simp] theorem askAs_out (s : State) (a : Asker) : (askAs s a).out = s.out := rfl
@[simp] theorem askAs_visits (s : State) (a : Asker) : (askAs s a).visits = s.visits := rfl
@[simp] theorem askAs_plans (s : State) (a : Asker) : (askAs s a).plans = s.plans := rfl
@[simp] theorem askAs_mem (s : State) (a : Asker) : (askAs s a).mem = s.mem := rfl
@[simp] theorem askAs_hostMem (s : State) (a : Asker) : (askAs s a).hostMem = s.hostMem := rfl
@[simp] theorem askAs_blocks (s : State) (a : Asker) : (askAs s a).blocks = s.blocks := rfl
@[simp] theorem askAs_ops (s : State) (a : Asker) : (askAs s a).ops = s.ops := rfl
@[simp] theorem askAs_backs (s : State) (a : Asker) : (askAs s a).backs = s.backs := rfl
@[simp] theorem askAs_cores (s : State) (a : Asker) : (askAs s a).cores = s.cores := rfl
@[simp] theorem askAs_clusters (s : State) (a : Asker) : (askAs s a).clusters = s.clusters := rfl
@[simp] theorem askAs_dies (s : State) (a : Asker) : (askAs s a).dies = s.dies := rfl
@[simp] theorem askAs_hbmStacks (s : State) (a : Asker) : (askAs s a).hbmStacks = s.hbmStacks := rfl
@[simp] theorem askAs_contexts (s : State) (a : Asker) : (askAs s a).contexts = s.contexts := rfl
@[simp] theorem askAs_queues (s : State) (a : Asker) : (askAs s a).queues = s.queues := rfl
@[simp] theorem askAs_launches (s : State) (a : Asker) : (askAs s a).launches = s.launches := rfl
@[simp] theorem askAs_windows (s : State) (a : Asker) : (askAs s a).windows = s.windows := rfl
@[simp] theorem askAs_hostIf (s : State) (a : Asker) : (askAs s a).hostIf = s.hostIf := rfl
@[simp] theorem askAs_link (s : State) (a : Asker) : (askAs s a).link = s.link := rfl
@[simp] theorem askAs_mgmt (s : State) (a : Asker) : (askAs s a).mgmt = s.mgmt := rfl
@[simp] theorem askAs_phys (s : State) (a : Asker) : (askAs s a).phys = s.phys := rfl
@[simp] theorem tracing_agenda (s : State) : (tracing s).agenda = s.agenda := rfl
@[simp] theorem tracing_tick (s : State) : (tracing s).tick = s.tick := rfl
@[simp] theorem tracing_focus (s : State) : (tracing s).focus = s.focus := rfl
@[simp] theorem tracing_asker (s : State) : (tracing s).asker = s.asker := rfl
@[simp] theorem tracing_serves (s : State) : (tracing s).serves = some [] := rfl
@[simp] theorem tracing_nextId (s : State) : (tracing s).nextId = s.nextId := rfl
@[simp] theorem tracing_out (s : State) : (tracing s).out = s.out := rfl
@[simp] theorem tracing_visits (s : State) : (tracing s).visits = s.visits := rfl
@[simp] theorem tracing_plans (s : State) : (tracing s).plans = s.plans := rfl
@[simp] theorem tracing_mem (s : State) : (tracing s).mem = s.mem := rfl
@[simp] theorem tracing_hostMem (s : State) : (tracing s).hostMem = s.hostMem := rfl
@[simp] theorem tracing_blocks (s : State) : (tracing s).blocks = s.blocks := rfl
@[simp] theorem tracing_ops (s : State) : (tracing s).ops = s.ops := rfl
@[simp] theorem tracing_backs (s : State) : (tracing s).backs = s.backs := rfl
@[simp] theorem tracing_cores (s : State) : (tracing s).cores = s.cores := rfl
@[simp] theorem tracing_clusters (s : State) : (tracing s).clusters = s.clusters := rfl
@[simp] theorem tracing_dies (s : State) : (tracing s).dies = s.dies := rfl
@[simp] theorem tracing_hbmStacks (s : State) : (tracing s).hbmStacks = s.hbmStacks := rfl
@[simp] theorem tracing_contexts (s : State) : (tracing s).contexts = s.contexts := rfl
@[simp] theorem tracing_queues (s : State) : (tracing s).queues = s.queues := rfl
@[simp] theorem tracing_launches (s : State) : (tracing s).launches = s.launches := rfl
@[simp] theorem tracing_windows (s : State) : (tracing s).windows = s.windows := rfl
@[simp] theorem tracing_hostIf (s : State) : (tracing s).hostIf = s.hostIf := rfl
@[simp] theorem tracing_link (s : State) : (tracing s).link = s.link := rfl
@[simp] theorem tracing_mgmt (s : State) : (tracing s).mgmt = s.mgmt := rfl
@[simp] theorem tracing_phys (s : State) : (tracing s).phys = s.phys := rfl
@[simp] theorem untraced_agenda (s : State) : (untraced s).agenda = s.agenda := rfl
@[simp] theorem untraced_tick (s : State) : (untraced s).tick = s.tick := rfl
@[simp] theorem untraced_focus (s : State) : (untraced s).focus = s.focus := rfl
@[simp] theorem untraced_asker (s : State) : (untraced s).asker = s.asker := rfl
@[simp] theorem untraced_serves (s : State) : (untraced s).serves = none := rfl
@[simp] theorem untraced_nextId (s : State) : (untraced s).nextId = s.nextId := rfl
@[simp] theorem untraced_out (s : State) : (untraced s).out = s.out := rfl
@[simp] theorem untraced_visits (s : State) : (untraced s).visits = s.visits := rfl
@[simp] theorem untraced_plans (s : State) : (untraced s).plans = s.plans := rfl
@[simp] theorem untraced_mem (s : State) : (untraced s).mem = s.mem := rfl
@[simp] theorem untraced_hostMem (s : State) : (untraced s).hostMem = s.hostMem := rfl
@[simp] theorem untraced_blocks (s : State) : (untraced s).blocks = s.blocks := rfl
@[simp] theorem untraced_ops (s : State) : (untraced s).ops = s.ops := rfl
@[simp] theorem untraced_backs (s : State) : (untraced s).backs = s.backs := rfl
@[simp] theorem untraced_cores (s : State) : (untraced s).cores = s.cores := rfl
@[simp] theorem untraced_clusters (s : State) : (untraced s).clusters = s.clusters := rfl
@[simp] theorem untraced_dies (s : State) : (untraced s).dies = s.dies := rfl
@[simp] theorem untraced_hbmStacks (s : State) : (untraced s).hbmStacks = s.hbmStacks := rfl
@[simp] theorem untraced_contexts (s : State) : (untraced s).contexts = s.contexts := rfl
@[simp] theorem untraced_queues (s : State) : (untraced s).queues = s.queues := rfl
@[simp] theorem untraced_launches (s : State) : (untraced s).launches = s.launches := rfl
@[simp] theorem untraced_windows (s : State) : (untraced s).windows = s.windows := rfl
@[simp] theorem untraced_hostIf (s : State) : (untraced s).hostIf = s.hostIf := rfl
@[simp] theorem untraced_link (s : State) : (untraced s).link = s.link := rfl
@[simp] theorem untraced_mgmt (s : State) : (untraced s).mgmt = s.mgmt := rfl
@[simp] theorem untraced_phys (s : State) : (untraced s).phys = s.phys := rfl
@[simp] theorem waitAt_agenda (s : State) (k pc : Nat) : (waitAt s k pc).agenda = s.agenda := rfl
@[simp] theorem waitAt_tick (s : State) (k pc : Nat) : (waitAt s k pc).tick = s.tick := rfl
@[simp] theorem waitAt_focus (s : State) (k pc : Nat) : (waitAt s k pc).focus = s.focus := rfl
@[simp] theorem waitAt_asker (s : State) (k pc : Nat) : (waitAt s k pc).asker = s.asker := rfl
@[simp] theorem waitAt_serves (s : State) (k pc : Nat) : (waitAt s k pc).serves = s.serves := rfl
@[simp] theorem waitAt_nextId (s : State) (k pc : Nat) : (waitAt s k pc).nextId = s.nextId := rfl
@[simp] theorem waitAt_out (s : State) (k pc : Nat) : (waitAt s k pc).out = s.out := rfl
@[simp] theorem waitAt_visits (s : State) (k pc : Nat) : (waitAt s k pc).visits = s.visits := rfl
@[simp] theorem waitAt_plans (s : State) (k pc : Nat) : (waitAt s k pc).plans = s.plans := rfl
@[simp] theorem waitAt_mem (s : State) (k pc : Nat) : (waitAt s k pc).mem = s.mem := rfl
@[simp] theorem waitAt_hostMem (s : State) (k pc : Nat) : (waitAt s k pc).hostMem = s.hostMem := rfl
@[simp] theorem waitAt_blocks (s : State) (k pc : Nat) : (waitAt s k pc).blocks = s.blocks := rfl
@[simp] theorem waitAt_ops (s : State) (k pc : Nat) : (waitAt s k pc).ops = s.ops := rfl
@[simp] theorem waitAt_backs (s : State) (k pc : Nat) : (waitAt s k pc).backs = s.backs := rfl
@[simp] theorem waitAt_cores (s : State) (k pc : Nat) : (waitAt s k pc).cores = s.cores := rfl
@[simp] theorem waitAt_clusters (s : State) (k pc : Nat) : (waitAt s k pc).clusters = s.clusters := rfl
@[simp] theorem waitAt_dies (s : State) (k pc : Nat) : (waitAt s k pc).dies = s.dies := rfl
@[simp] theorem waitAt_contexts (s : State) (k pc : Nat) : (waitAt s k pc).contexts = s.contexts := rfl
@[simp] theorem waitAt_queues (s : State) (k pc : Nat) : (waitAt s k pc).queues = s.queues := rfl
@[simp] theorem waitAt_launches (s : State) (k pc : Nat) : (waitAt s k pc).launches = s.launches := rfl
@[simp] theorem waitAt_windows (s : State) (k pc : Nat) : (waitAt s k pc).windows = s.windows := rfl
@[simp] theorem waitAt_hostIf (s : State) (k pc : Nat) : (waitAt s k pc).hostIf = s.hostIf := rfl
@[simp] theorem waitAt_link (s : State) (k pc : Nat) : (waitAt s k pc).link = s.link := rfl
@[simp] theorem waitAt_mgmt (s : State) (k pc : Nat) : (waitAt s k pc).mgmt = s.mgmt := rfl
@[simp] theorem waitAt_phys (s : State) (k pc : Nat) : (waitAt s k pc).phys = s.phys := rfl

@[simp] theorem modDie_agenda (s : State) (d : Nat) (f : Die → Die) : (modDie s d f).agenda = s.agenda := rfl
@[simp] theorem modDie_tick (s : State) (d : Nat) (f : Die → Die) : (modDie s d f).tick = s.tick := rfl
@[simp] theorem modDie_focus (s : State) (d : Nat) (f : Die → Die) : (modDie s d f).focus = s.focus := rfl
@[simp] theorem modDie_asker (s : State) (d : Nat) (f : Die → Die) : (modDie s d f).asker = s.asker := rfl
@[simp] theorem modDie_serves (s : State) (d : Nat) (f : Die → Die) : (modDie s d f).serves = s.serves := rfl
@[simp] theorem modDie_nextId (s : State) (d : Nat) (f : Die → Die) : (modDie s d f).nextId = s.nextId := rfl
@[simp] theorem modDie_out (s : State) (d : Nat) (f : Die → Die) : (modDie s d f).out = s.out := rfl
@[simp] theorem modDie_visits (s : State) (d : Nat) (f : Die → Die) : (modDie s d f).visits = s.visits := rfl
@[simp] theorem modDie_plans (s : State) (d : Nat) (f : Die → Die) : (modDie s d f).plans = s.plans := rfl
@[simp] theorem modDie_mem (s : State) (d : Nat) (f : Die → Die) : (modDie s d f).mem = s.mem := rfl
@[simp] theorem modDie_hostMem (s : State) (d : Nat) (f : Die → Die) : (modDie s d f).hostMem = s.hostMem := rfl
@[simp] theorem modDie_blocks (s : State) (d : Nat) (f : Die → Die) : (modDie s d f).blocks = s.blocks := rfl
@[simp] theorem modDie_ops (s : State) (d : Nat) (f : Die → Die) : (modDie s d f).ops = s.ops := rfl
@[simp] theorem modDie_backs (s : State) (d : Nat) (f : Die → Die) : (modDie s d f).backs = s.backs := rfl
@[simp] theorem modDie_cores (s : State) (d : Nat) (f : Die → Die) : (modDie s d f).cores = s.cores := rfl
@[simp] theorem modDie_clusters (s : State) (d : Nat) (f : Die → Die) : (modDie s d f).clusters = s.clusters := rfl
@[simp] theorem modDie_hbmStacks (s : State) (d : Nat) (f : Die → Die) : (modDie s d f).hbmStacks = s.hbmStacks := rfl
@[simp] theorem modDie_contexts (s : State) (d : Nat) (f : Die → Die) : (modDie s d f).contexts = s.contexts := rfl
@[simp] theorem modDie_queues (s : State) (d : Nat) (f : Die → Die) : (modDie s d f).queues = s.queues := rfl
@[simp] theorem modDie_launches (s : State) (d : Nat) (f : Die → Die) : (modDie s d f).launches = s.launches := rfl
@[simp] theorem modDie_windows (s : State) (d : Nat) (f : Die → Die) : (modDie s d f).windows = s.windows := rfl
@[simp] theorem modDie_hostIf (s : State) (d : Nat) (f : Die → Die) : (modDie s d f).hostIf = s.hostIf := rfl
@[simp] theorem modDie_link (s : State) (d : Nat) (f : Die → Die) : (modDie s d f).link = s.link := rfl
@[simp] theorem modDie_mgmt (s : State) (d : Nat) (f : Die → Die) : (modDie s d f).mgmt = s.mgmt := rfl
@[simp] theorem modDie_phys (s : State) (d : Nat) (f : Die → Die) : (modDie s d f).phys = s.phys := rfl

@[simp] theorem modStack_agenda (s : State) (k : Nat) (f : Stack → Stack) : (modStack s k f).agenda = s.agenda := rfl
@[simp] theorem modStack_tick (s : State) (k : Nat) (f : Stack → Stack) : (modStack s k f).tick = s.tick := rfl
@[simp] theorem modStack_focus (s : State) (k : Nat) (f : Stack → Stack) : (modStack s k f).focus = s.focus := rfl
@[simp] theorem modStack_asker (s : State) (k : Nat) (f : Stack → Stack) : (modStack s k f).asker = s.asker := rfl
@[simp] theorem modStack_serves (s : State) (k : Nat) (f : Stack → Stack) : (modStack s k f).serves = s.serves := rfl
@[simp] theorem modStack_nextId (s : State) (k : Nat) (f : Stack → Stack) : (modStack s k f).nextId = s.nextId := rfl
@[simp] theorem modStack_out (s : State) (k : Nat) (f : Stack → Stack) : (modStack s k f).out = s.out := rfl
@[simp] theorem modStack_visits (s : State) (k : Nat) (f : Stack → Stack) : (modStack s k f).visits = s.visits := rfl
@[simp] theorem modStack_plans (s : State) (k : Nat) (f : Stack → Stack) : (modStack s k f).plans = s.plans := rfl
@[simp] theorem modStack_mem (s : State) (k : Nat) (f : Stack → Stack) : (modStack s k f).mem = s.mem := rfl
@[simp] theorem modStack_hostMem (s : State) (k : Nat) (f : Stack → Stack) : (modStack s k f).hostMem = s.hostMem := rfl
@[simp] theorem modStack_blocks (s : State) (k : Nat) (f : Stack → Stack) : (modStack s k f).blocks = s.blocks := rfl
@[simp] theorem modStack_ops (s : State) (k : Nat) (f : Stack → Stack) : (modStack s k f).ops = s.ops := rfl
@[simp] theorem modStack_backs (s : State) (k : Nat) (f : Stack → Stack) : (modStack s k f).backs = s.backs := rfl
@[simp] theorem modStack_cores (s : State) (k : Nat) (f : Stack → Stack) : (modStack s k f).cores = s.cores := rfl
@[simp] theorem modStack_clusters (s : State) (k : Nat) (f : Stack → Stack) : (modStack s k f).clusters = s.clusters := rfl
@[simp] theorem modStack_dies (s : State) (k : Nat) (f : Stack → Stack) : (modStack s k f).dies = s.dies := rfl
@[simp] theorem modStack_contexts (s : State) (k : Nat) (f : Stack → Stack) : (modStack s k f).contexts = s.contexts := rfl
@[simp] theorem modStack_queues (s : State) (k : Nat) (f : Stack → Stack) : (modStack s k f).queues = s.queues := rfl
@[simp] theorem modStack_launches (s : State) (k : Nat) (f : Stack → Stack) : (modStack s k f).launches = s.launches := rfl
@[simp] theorem modStack_windows (s : State) (k : Nat) (f : Stack → Stack) : (modStack s k f).windows = s.windows := rfl
@[simp] theorem modStack_hostIf (s : State) (k : Nat) (f : Stack → Stack) : (modStack s k f).hostIf = s.hostIf := rfl
@[simp] theorem modStack_link (s : State) (k : Nat) (f : Stack → Stack) : (modStack s k f).link = s.link := rfl
@[simp] theorem modStack_mgmt (s : State) (k : Nat) (f : Stack → Stack) : (modStack s k f).mgmt = s.mgmt := rfl
@[simp] theorem modStack_phys (s : State) (k : Nat) (f : Stack → Stack) : (modStack s k f).phys = s.phys := rfl

@[simp] theorem modContext_agenda (s : State) (c : Nat) (f : Context → Context) : (modContext s c f).agenda = s.agenda := rfl
@[simp] theorem modContext_tick (s : State) (c : Nat) (f : Context → Context) : (modContext s c f).tick = s.tick := rfl
@[simp] theorem modContext_focus (s : State) (c : Nat) (f : Context → Context) : (modContext s c f).focus = s.focus := rfl
@[simp] theorem modContext_asker (s : State) (c : Nat) (f : Context → Context) : (modContext s c f).asker = s.asker := rfl
@[simp] theorem modContext_serves (s : State) (c : Nat) (f : Context → Context) : (modContext s c f).serves = s.serves := rfl
@[simp] theorem modContext_nextId (s : State) (c : Nat) (f : Context → Context) : (modContext s c f).nextId = s.nextId := rfl
@[simp] theorem modContext_out (s : State) (c : Nat) (f : Context → Context) : (modContext s c f).out = s.out := rfl
@[simp] theorem modContext_visits (s : State) (c : Nat) (f : Context → Context) : (modContext s c f).visits = s.visits := rfl
@[simp] theorem modContext_plans (s : State) (c : Nat) (f : Context → Context) : (modContext s c f).plans = s.plans := rfl
@[simp] theorem modContext_mem (s : State) (c : Nat) (f : Context → Context) : (modContext s c f).mem = s.mem := rfl
@[simp] theorem modContext_hostMem (s : State) (c : Nat) (f : Context → Context) : (modContext s c f).hostMem = s.hostMem := rfl
@[simp] theorem modContext_blocks (s : State) (c : Nat) (f : Context → Context) : (modContext s c f).blocks = s.blocks := rfl
@[simp] theorem modContext_ops (s : State) (c : Nat) (f : Context → Context) : (modContext s c f).ops = s.ops := rfl
@[simp] theorem modContext_backs (s : State) (c : Nat) (f : Context → Context) : (modContext s c f).backs = s.backs := rfl
@[simp] theorem modContext_cores (s : State) (c : Nat) (f : Context → Context) : (modContext s c f).cores = s.cores := rfl
@[simp] theorem modContext_clusters (s : State) (c : Nat) (f : Context → Context) : (modContext s c f).clusters = s.clusters := rfl
@[simp] theorem modContext_dies (s : State) (c : Nat) (f : Context → Context) : (modContext s c f).dies = s.dies := rfl
@[simp] theorem modContext_hbmStacks (s : State) (c : Nat) (f : Context → Context) : (modContext s c f).hbmStacks = s.hbmStacks := rfl
@[simp] theorem modContext_queues (s : State) (c : Nat) (f : Context → Context) : (modContext s c f).queues = s.queues := rfl
@[simp] theorem modContext_launches (s : State) (c : Nat) (f : Context → Context) : (modContext s c f).launches = s.launches := rfl
@[simp] theorem modContext_windows (s : State) (c : Nat) (f : Context → Context) : (modContext s c f).windows = s.windows := rfl
@[simp] theorem modContext_hostIf (s : State) (c : Nat) (f : Context → Context) : (modContext s c f).hostIf = s.hostIf := rfl
@[simp] theorem modContext_link (s : State) (c : Nat) (f : Context → Context) : (modContext s c f).link = s.link := rfl
@[simp] theorem modContext_mgmt (s : State) (c : Nat) (f : Context → Context) : (modContext s c f).mgmt = s.mgmt := rfl
@[simp] theorem modContext_phys (s : State) (c : Nat) (f : Context → Context) : (modContext s c f).phys = s.phys := rfl

@[simp] theorem modQueue_agenda (s : State) (q : Nat) (f : Queue → Queue) : (modQueue s q f).agenda = s.agenda := rfl
@[simp] theorem modQueue_tick (s : State) (q : Nat) (f : Queue → Queue) : (modQueue s q f).tick = s.tick := rfl
@[simp] theorem modQueue_focus (s : State) (q : Nat) (f : Queue → Queue) : (modQueue s q f).focus = s.focus := rfl
@[simp] theorem modQueue_asker (s : State) (q : Nat) (f : Queue → Queue) : (modQueue s q f).asker = s.asker := rfl
@[simp] theorem modQueue_serves (s : State) (q : Nat) (f : Queue → Queue) : (modQueue s q f).serves = s.serves := rfl
@[simp] theorem modQueue_nextId (s : State) (q : Nat) (f : Queue → Queue) : (modQueue s q f).nextId = s.nextId := rfl
@[simp] theorem modQueue_out (s : State) (q : Nat) (f : Queue → Queue) : (modQueue s q f).out = s.out := rfl
@[simp] theorem modQueue_visits (s : State) (q : Nat) (f : Queue → Queue) : (modQueue s q f).visits = s.visits := rfl
@[simp] theorem modQueue_plans (s : State) (q : Nat) (f : Queue → Queue) : (modQueue s q f).plans = s.plans := rfl
@[simp] theorem modQueue_mem (s : State) (q : Nat) (f : Queue → Queue) : (modQueue s q f).mem = s.mem := rfl
@[simp] theorem modQueue_hostMem (s : State) (q : Nat) (f : Queue → Queue) : (modQueue s q f).hostMem = s.hostMem := rfl
@[simp] theorem modQueue_blocks (s : State) (q : Nat) (f : Queue → Queue) : (modQueue s q f).blocks = s.blocks := rfl
@[simp] theorem modQueue_ops (s : State) (q : Nat) (f : Queue → Queue) : (modQueue s q f).ops = s.ops := rfl
@[simp] theorem modQueue_backs (s : State) (q : Nat) (f : Queue → Queue) : (modQueue s q f).backs = s.backs := rfl
@[simp] theorem modQueue_cores (s : State) (q : Nat) (f : Queue → Queue) : (modQueue s q f).cores = s.cores := rfl
@[simp] theorem modQueue_clusters (s : State) (q : Nat) (f : Queue → Queue) : (modQueue s q f).clusters = s.clusters := rfl
@[simp] theorem modQueue_dies (s : State) (q : Nat) (f : Queue → Queue) : (modQueue s q f).dies = s.dies := rfl
@[simp] theorem modQueue_hbmStacks (s : State) (q : Nat) (f : Queue → Queue) : (modQueue s q f).hbmStacks = s.hbmStacks := rfl
@[simp] theorem modQueue_contexts (s : State) (q : Nat) (f : Queue → Queue) : (modQueue s q f).contexts = s.contexts := rfl
@[simp] theorem modQueue_launches (s : State) (q : Nat) (f : Queue → Queue) : (modQueue s q f).launches = s.launches := rfl
@[simp] theorem modQueue_windows (s : State) (q : Nat) (f : Queue → Queue) : (modQueue s q f).windows = s.windows := rfl
@[simp] theorem modQueue_hostIf (s : State) (q : Nat) (f : Queue → Queue) : (modQueue s q f).hostIf = s.hostIf := rfl
@[simp] theorem modQueue_link (s : State) (q : Nat) (f : Queue → Queue) : (modQueue s q f).link = s.link := rfl
@[simp] theorem modQueue_mgmt (s : State) (q : Nat) (f : Queue → Queue) : (modQueue s q f).mgmt = s.mgmt := rfl
@[simp] theorem modQueue_phys (s : State) (q : Nat) (f : Queue → Queue) : (modQueue s q f).phys = s.phys := rfl

@[simp] theorem modWindow_agenda (s : State) (e : Nat) (f : Window → Window) : (modWindow s e f).agenda = s.agenda := rfl
@[simp] theorem modWindow_tick (s : State) (e : Nat) (f : Window → Window) : (modWindow s e f).tick = s.tick := rfl
@[simp] theorem modWindow_focus (s : State) (e : Nat) (f : Window → Window) : (modWindow s e f).focus = s.focus := rfl
@[simp] theorem modWindow_asker (s : State) (e : Nat) (f : Window → Window) : (modWindow s e f).asker = s.asker := rfl
@[simp] theorem modWindow_serves (s : State) (e : Nat) (f : Window → Window) : (modWindow s e f).serves = s.serves := rfl
@[simp] theorem modWindow_nextId (s : State) (e : Nat) (f : Window → Window) : (modWindow s e f).nextId = s.nextId := rfl
@[simp] theorem modWindow_out (s : State) (e : Nat) (f : Window → Window) : (modWindow s e f).out = s.out := rfl
@[simp] theorem modWindow_visits (s : State) (e : Nat) (f : Window → Window) : (modWindow s e f).visits = s.visits := rfl
@[simp] theorem modWindow_plans (s : State) (e : Nat) (f : Window → Window) : (modWindow s e f).plans = s.plans := rfl
@[simp] theorem modWindow_mem (s : State) (e : Nat) (f : Window → Window) : (modWindow s e f).mem = s.mem := rfl
@[simp] theorem modWindow_hostMem (s : State) (e : Nat) (f : Window → Window) : (modWindow s e f).hostMem = s.hostMem := rfl
@[simp] theorem modWindow_blocks (s : State) (e : Nat) (f : Window → Window) : (modWindow s e f).blocks = s.blocks := rfl
@[simp] theorem modWindow_ops (s : State) (e : Nat) (f : Window → Window) : (modWindow s e f).ops = s.ops := rfl
@[simp] theorem modWindow_backs (s : State) (e : Nat) (f : Window → Window) : (modWindow s e f).backs = s.backs := rfl
@[simp] theorem modWindow_cores (s : State) (e : Nat) (f : Window → Window) : (modWindow s e f).cores = s.cores := rfl
@[simp] theorem modWindow_clusters (s : State) (e : Nat) (f : Window → Window) : (modWindow s e f).clusters = s.clusters := rfl
@[simp] theorem modWindow_dies (s : State) (e : Nat) (f : Window → Window) : (modWindow s e f).dies = s.dies := rfl
@[simp] theorem modWindow_hbmStacks (s : State) (e : Nat) (f : Window → Window) : (modWindow s e f).hbmStacks = s.hbmStacks := rfl
@[simp] theorem modWindow_contexts (s : State) (e : Nat) (f : Window → Window) : (modWindow s e f).contexts = s.contexts := rfl
@[simp] theorem modWindow_queues (s : State) (e : Nat) (f : Window → Window) : (modWindow s e f).queues = s.queues := rfl
@[simp] theorem modWindow_launches (s : State) (e : Nat) (f : Window → Window) : (modWindow s e f).launches = s.launches := rfl
@[simp] theorem modWindow_hostIf (s : State) (e : Nat) (f : Window → Window) : (modWindow s e f).hostIf = s.hostIf := rfl
@[simp] theorem modWindow_link (s : State) (e : Nat) (f : Window → Window) : (modWindow s e f).link = s.link := rfl
@[simp] theorem modWindow_mgmt (s : State) (e : Nat) (f : Window → Window) : (modWindow s e f).mgmt = s.mgmt := rfl
@[simp] theorem modWindow_phys (s : State) (e : Nat) (f : Window → Window) : (modWindow s e f).phys = s.phys := rfl

@[simp] theorem setLaunch_agenda (s : State) (l : Nat) (x : Option Launch) : (setLaunch s l x).agenda = s.agenda := rfl
@[simp] theorem setLaunch_tick (s : State) (l : Nat) (x : Option Launch) : (setLaunch s l x).tick = s.tick := rfl
@[simp] theorem setLaunch_focus (s : State) (l : Nat) (x : Option Launch) : (setLaunch s l x).focus = s.focus := rfl
@[simp] theorem setLaunch_asker (s : State) (l : Nat) (x : Option Launch) : (setLaunch s l x).asker = s.asker := rfl
@[simp] theorem setLaunch_serves (s : State) (l : Nat) (x : Option Launch) : (setLaunch s l x).serves = s.serves := rfl
@[simp] theorem setLaunch_nextId (s : State) (l : Nat) (x : Option Launch) : (setLaunch s l x).nextId = s.nextId := rfl
@[simp] theorem setLaunch_out (s : State) (l : Nat) (x : Option Launch) : (setLaunch s l x).out = s.out := rfl
@[simp] theorem setLaunch_visits (s : State) (l : Nat) (x : Option Launch) : (setLaunch s l x).visits = s.visits := rfl
@[simp] theorem setLaunch_plans (s : State) (l : Nat) (x : Option Launch) : (setLaunch s l x).plans = s.plans := rfl
@[simp] theorem setLaunch_mem (s : State) (l : Nat) (x : Option Launch) : (setLaunch s l x).mem = s.mem := rfl
@[simp] theorem setLaunch_hostMem (s : State) (l : Nat) (x : Option Launch) : (setLaunch s l x).hostMem = s.hostMem := rfl
@[simp] theorem setLaunch_blocks (s : State) (l : Nat) (x : Option Launch) : (setLaunch s l x).blocks = s.blocks := rfl
@[simp] theorem setLaunch_ops (s : State) (l : Nat) (x : Option Launch) : (setLaunch s l x).ops = s.ops := rfl
@[simp] theorem setLaunch_backs (s : State) (l : Nat) (x : Option Launch) : (setLaunch s l x).backs = s.backs := rfl
@[simp] theorem setLaunch_cores (s : State) (l : Nat) (x : Option Launch) : (setLaunch s l x).cores = s.cores := rfl
@[simp] theorem setLaunch_clusters (s : State) (l : Nat) (x : Option Launch) : (setLaunch s l x).clusters = s.clusters := rfl
@[simp] theorem setLaunch_dies (s : State) (l : Nat) (x : Option Launch) : (setLaunch s l x).dies = s.dies := rfl
@[simp] theorem setLaunch_hbmStacks (s : State) (l : Nat) (x : Option Launch) : (setLaunch s l x).hbmStacks = s.hbmStacks := rfl
@[simp] theorem setLaunch_contexts (s : State) (l : Nat) (x : Option Launch) : (setLaunch s l x).contexts = s.contexts := rfl
@[simp] theorem setLaunch_queues (s : State) (l : Nat) (x : Option Launch) : (setLaunch s l x).queues = s.queues := rfl
@[simp] theorem setLaunch_windows (s : State) (l : Nat) (x : Option Launch) : (setLaunch s l x).windows = s.windows := rfl
@[simp] theorem setLaunch_hostIf (s : State) (l : Nat) (x : Option Launch) : (setLaunch s l x).hostIf = s.hostIf := rfl
@[simp] theorem setLaunch_link (s : State) (l : Nat) (x : Option Launch) : (setLaunch s l x).link = s.link := rfl
@[simp] theorem setLaunch_mgmt (s : State) (l : Nat) (x : Option Launch) : (setLaunch s l x).mgmt = s.mgmt := rfl
@[simp] theorem setLaunch_phys (s : State) (l : Nat) (x : Option Launch) : (setLaunch s l x).phys = s.phys := rfl

@[simp] theorem modLaunch_agenda (s : State) (l : Nat) (f : Launch → Launch) : (modLaunch s l f).agenda = s.agenda := rfl
@[simp] theorem modLaunch_tick (s : State) (l : Nat) (f : Launch → Launch) : (modLaunch s l f).tick = s.tick := rfl
@[simp] theorem modLaunch_focus (s : State) (l : Nat) (f : Launch → Launch) : (modLaunch s l f).focus = s.focus := rfl
@[simp] theorem modLaunch_asker (s : State) (l : Nat) (f : Launch → Launch) : (modLaunch s l f).asker = s.asker := rfl
@[simp] theorem modLaunch_serves (s : State) (l : Nat) (f : Launch → Launch) : (modLaunch s l f).serves = s.serves := rfl
@[simp] theorem modLaunch_nextId (s : State) (l : Nat) (f : Launch → Launch) : (modLaunch s l f).nextId = s.nextId := rfl
@[simp] theorem modLaunch_out (s : State) (l : Nat) (f : Launch → Launch) : (modLaunch s l f).out = s.out := rfl
@[simp] theorem modLaunch_visits (s : State) (l : Nat) (f : Launch → Launch) : (modLaunch s l f).visits = s.visits := rfl
@[simp] theorem modLaunch_plans (s : State) (l : Nat) (f : Launch → Launch) : (modLaunch s l f).plans = s.plans := rfl
@[simp] theorem modLaunch_mem (s : State) (l : Nat) (f : Launch → Launch) : (modLaunch s l f).mem = s.mem := rfl
@[simp] theorem modLaunch_hostMem (s : State) (l : Nat) (f : Launch → Launch) : (modLaunch s l f).hostMem = s.hostMem := rfl
@[simp] theorem modLaunch_blocks (s : State) (l : Nat) (f : Launch → Launch) : (modLaunch s l f).blocks = s.blocks := rfl
@[simp] theorem modLaunch_ops (s : State) (l : Nat) (f : Launch → Launch) : (modLaunch s l f).ops = s.ops := rfl
@[simp] theorem modLaunch_backs (s : State) (l : Nat) (f : Launch → Launch) : (modLaunch s l f).backs = s.backs := rfl
@[simp] theorem modLaunch_cores (s : State) (l : Nat) (f : Launch → Launch) : (modLaunch s l f).cores = s.cores := rfl
@[simp] theorem modLaunch_clusters (s : State) (l : Nat) (f : Launch → Launch) : (modLaunch s l f).clusters = s.clusters := rfl
@[simp] theorem modLaunch_dies (s : State) (l : Nat) (f : Launch → Launch) : (modLaunch s l f).dies = s.dies := rfl
@[simp] theorem modLaunch_hbmStacks (s : State) (l : Nat) (f : Launch → Launch) : (modLaunch s l f).hbmStacks = s.hbmStacks := rfl
@[simp] theorem modLaunch_contexts (s : State) (l : Nat) (f : Launch → Launch) : (modLaunch s l f).contexts = s.contexts := rfl
@[simp] theorem modLaunch_queues (s : State) (l : Nat) (f : Launch → Launch) : (modLaunch s l f).queues = s.queues := rfl
@[simp] theorem modLaunch_windows (s : State) (l : Nat) (f : Launch → Launch) : (modLaunch s l f).windows = s.windows := rfl
@[simp] theorem modLaunch_hostIf (s : State) (l : Nat) (f : Launch → Launch) : (modLaunch s l f).hostIf = s.hostIf := rfl
@[simp] theorem modLaunch_link (s : State) (l : Nat) (f : Launch → Launch) : (modLaunch s l f).link = s.link := rfl
@[simp] theorem modLaunch_mgmt (s : State) (l : Nat) (f : Launch → Launch) : (modLaunch s l f).mgmt = s.mgmt := rfl
@[simp] theorem modLaunch_phys (s : State) (l : Nat) (f : Launch → Launch) : (modLaunch s l f).phys = s.phys := rfl

@[simp] theorem setBlock_agenda (s : State) (b : Nat) (x : Option Block) : (setBlock s b x).agenda = s.agenda := rfl
@[simp] theorem setBlock_tick (s : State) (b : Nat) (x : Option Block) : (setBlock s b x).tick = s.tick := rfl
@[simp] theorem setBlock_focus (s : State) (b : Nat) (x : Option Block) : (setBlock s b x).focus = s.focus := rfl
@[simp] theorem setBlock_asker (s : State) (b : Nat) (x : Option Block) : (setBlock s b x).asker = s.asker := rfl
@[simp] theorem setBlock_serves (s : State) (b : Nat) (x : Option Block) : (setBlock s b x).serves = s.serves := rfl
@[simp] theorem setBlock_nextId (s : State) (b : Nat) (x : Option Block) : (setBlock s b x).nextId = s.nextId := rfl
@[simp] theorem setBlock_out (s : State) (b : Nat) (x : Option Block) : (setBlock s b x).out = s.out := rfl
@[simp] theorem setBlock_visits (s : State) (b : Nat) (x : Option Block) : (setBlock s b x).visits = s.visits := rfl
@[simp] theorem setBlock_plans (s : State) (b : Nat) (x : Option Block) : (setBlock s b x).plans = s.plans := rfl
@[simp] theorem setBlock_mem (s : State) (b : Nat) (x : Option Block) : (setBlock s b x).mem = s.mem := rfl
@[simp] theorem setBlock_hostMem (s : State) (b : Nat) (x : Option Block) : (setBlock s b x).hostMem = s.hostMem := rfl
@[simp] theorem setBlock_ops (s : State) (b : Nat) (x : Option Block) : (setBlock s b x).ops = s.ops := rfl
@[simp] theorem setBlock_backs (s : State) (b : Nat) (x : Option Block) : (setBlock s b x).backs = s.backs := rfl
@[simp] theorem setBlock_cores (s : State) (b : Nat) (x : Option Block) : (setBlock s b x).cores = s.cores := rfl
@[simp] theorem setBlock_clusters (s : State) (b : Nat) (x : Option Block) : (setBlock s b x).clusters = s.clusters := rfl
@[simp] theorem setBlock_dies (s : State) (b : Nat) (x : Option Block) : (setBlock s b x).dies = s.dies := rfl
@[simp] theorem setBlock_hbmStacks (s : State) (b : Nat) (x : Option Block) : (setBlock s b x).hbmStacks = s.hbmStacks := rfl
@[simp] theorem setBlock_contexts (s : State) (b : Nat) (x : Option Block) : (setBlock s b x).contexts = s.contexts := rfl
@[simp] theorem setBlock_queues (s : State) (b : Nat) (x : Option Block) : (setBlock s b x).queues = s.queues := rfl
@[simp] theorem setBlock_launches (s : State) (b : Nat) (x : Option Block) : (setBlock s b x).launches = s.launches := rfl
@[simp] theorem setBlock_windows (s : State) (b : Nat) (x : Option Block) : (setBlock s b x).windows = s.windows := rfl
@[simp] theorem setBlock_hostIf (s : State) (b : Nat) (x : Option Block) : (setBlock s b x).hostIf = s.hostIf := rfl
@[simp] theorem setBlock_link (s : State) (b : Nat) (x : Option Block) : (setBlock s b x).link = s.link := rfl
@[simp] theorem setBlock_mgmt (s : State) (b : Nat) (x : Option Block) : (setBlock s b x).mgmt = s.mgmt := rfl
@[simp] theorem setBlock_phys (s : State) (b : Nat) (x : Option Block) : (setBlock s b x).phys = s.phys := rfl

@[simp] theorem modBlock_agenda (s : State) (b : Nat) (f : Block → Block) : (modBlock s b f).agenda = s.agenda := rfl
@[simp] theorem modBlock_tick (s : State) (b : Nat) (f : Block → Block) : (modBlock s b f).tick = s.tick := rfl
@[simp] theorem modBlock_focus (s : State) (b : Nat) (f : Block → Block) : (modBlock s b f).focus = s.focus := rfl
@[simp] theorem modBlock_asker (s : State) (b : Nat) (f : Block → Block) : (modBlock s b f).asker = s.asker := rfl
@[simp] theorem modBlock_serves (s : State) (b : Nat) (f : Block → Block) : (modBlock s b f).serves = s.serves := rfl
@[simp] theorem modBlock_nextId (s : State) (b : Nat) (f : Block → Block) : (modBlock s b f).nextId = s.nextId := rfl
@[simp] theorem modBlock_out (s : State) (b : Nat) (f : Block → Block) : (modBlock s b f).out = s.out := rfl
@[simp] theorem modBlock_visits (s : State) (b : Nat) (f : Block → Block) : (modBlock s b f).visits = s.visits := rfl
@[simp] theorem modBlock_plans (s : State) (b : Nat) (f : Block → Block) : (modBlock s b f).plans = s.plans := rfl
@[simp] theorem modBlock_mem (s : State) (b : Nat) (f : Block → Block) : (modBlock s b f).mem = s.mem := rfl
@[simp] theorem modBlock_hostMem (s : State) (b : Nat) (f : Block → Block) : (modBlock s b f).hostMem = s.hostMem := rfl
@[simp] theorem modBlock_ops (s : State) (b : Nat) (f : Block → Block) : (modBlock s b f).ops = s.ops := rfl
@[simp] theorem modBlock_backs (s : State) (b : Nat) (f : Block → Block) : (modBlock s b f).backs = s.backs := rfl
@[simp] theorem modBlock_cores (s : State) (b : Nat) (f : Block → Block) : (modBlock s b f).cores = s.cores := rfl
@[simp] theorem modBlock_clusters (s : State) (b : Nat) (f : Block → Block) : (modBlock s b f).clusters = s.clusters := rfl
@[simp] theorem modBlock_dies (s : State) (b : Nat) (f : Block → Block) : (modBlock s b f).dies = s.dies := rfl
@[simp] theorem modBlock_hbmStacks (s : State) (b : Nat) (f : Block → Block) : (modBlock s b f).hbmStacks = s.hbmStacks := rfl
@[simp] theorem modBlock_contexts (s : State) (b : Nat) (f : Block → Block) : (modBlock s b f).contexts = s.contexts := rfl
@[simp] theorem modBlock_queues (s : State) (b : Nat) (f : Block → Block) : (modBlock s b f).queues = s.queues := rfl
@[simp] theorem modBlock_launches (s : State) (b : Nat) (f : Block → Block) : (modBlock s b f).launches = s.launches := rfl
@[simp] theorem modBlock_windows (s : State) (b : Nat) (f : Block → Block) : (modBlock s b f).windows = s.windows := rfl
@[simp] theorem modBlock_hostIf (s : State) (b : Nat) (f : Block → Block) : (modBlock s b f).hostIf = s.hostIf := rfl
@[simp] theorem modBlock_link (s : State) (b : Nat) (f : Block → Block) : (modBlock s b f).link = s.link := rfl
@[simp] theorem modBlock_mgmt (s : State) (b : Nat) (f : Block → Block) : (modBlock s b f).mgmt = s.mgmt := rfl
@[simp] theorem modBlock_phys (s : State) (b : Nat) (f : Block → Block) : (modBlock s b f).phys = s.phys := rfl

@[simp] theorem modGang_agenda (s : State) (b g : Nat) (f : Gang → Gang) : (modGang s b g f).agenda = s.agenda := rfl
@[simp] theorem modGang_tick (s : State) (b g : Nat) (f : Gang → Gang) : (modGang s b g f).tick = s.tick := rfl
@[simp] theorem modGang_focus (s : State) (b g : Nat) (f : Gang → Gang) : (modGang s b g f).focus = s.focus := rfl
@[simp] theorem modGang_asker (s : State) (b g : Nat) (f : Gang → Gang) : (modGang s b g f).asker = s.asker := rfl
@[simp] theorem modGang_serves (s : State) (b g : Nat) (f : Gang → Gang) : (modGang s b g f).serves = s.serves := rfl
@[simp] theorem modGang_nextId (s : State) (b g : Nat) (f : Gang → Gang) : (modGang s b g f).nextId = s.nextId := rfl
@[simp] theorem modGang_out (s : State) (b g : Nat) (f : Gang → Gang) : (modGang s b g f).out = s.out := rfl
@[simp] theorem modGang_visits (s : State) (b g : Nat) (f : Gang → Gang) : (modGang s b g f).visits = s.visits := rfl
@[simp] theorem modGang_plans (s : State) (b g : Nat) (f : Gang → Gang) : (modGang s b g f).plans = s.plans := rfl
@[simp] theorem modGang_mem (s : State) (b g : Nat) (f : Gang → Gang) : (modGang s b g f).mem = s.mem := rfl
@[simp] theorem modGang_hostMem (s : State) (b g : Nat) (f : Gang → Gang) : (modGang s b g f).hostMem = s.hostMem := rfl
@[simp] theorem modGang_ops (s : State) (b g : Nat) (f : Gang → Gang) : (modGang s b g f).ops = s.ops := rfl
@[simp] theorem modGang_backs (s : State) (b g : Nat) (f : Gang → Gang) : (modGang s b g f).backs = s.backs := rfl
@[simp] theorem modGang_cores (s : State) (b g : Nat) (f : Gang → Gang) : (modGang s b g f).cores = s.cores := rfl
@[simp] theorem modGang_clusters (s : State) (b g : Nat) (f : Gang → Gang) : (modGang s b g f).clusters = s.clusters := rfl
@[simp] theorem modGang_dies (s : State) (b g : Nat) (f : Gang → Gang) : (modGang s b g f).dies = s.dies := rfl
@[simp] theorem modGang_hbmStacks (s : State) (b g : Nat) (f : Gang → Gang) : (modGang s b g f).hbmStacks = s.hbmStacks := rfl
@[simp] theorem modGang_contexts (s : State) (b g : Nat) (f : Gang → Gang) : (modGang s b g f).contexts = s.contexts := rfl
@[simp] theorem modGang_queues (s : State) (b g : Nat) (f : Gang → Gang) : (modGang s b g f).queues = s.queues := rfl
@[simp] theorem modGang_launches (s : State) (b g : Nat) (f : Gang → Gang) : (modGang s b g f).launches = s.launches := rfl
@[simp] theorem modGang_windows (s : State) (b g : Nat) (f : Gang → Gang) : (modGang s b g f).windows = s.windows := rfl
@[simp] theorem modGang_hostIf (s : State) (b g : Nat) (f : Gang → Gang) : (modGang s b g f).hostIf = s.hostIf := rfl
@[simp] theorem modGang_link (s : State) (b g : Nat) (f : Gang → Gang) : (modGang s b g f).link = s.link := rfl
@[simp] theorem modGang_mgmt (s : State) (b g : Nat) (f : Gang → Gang) : (modGang s b g f).mgmt = s.mgmt := rfl
@[simp] theorem modGang_phys (s : State) (b g : Nat) (f : Gang → Gang) : (modGang s b g f).phys = s.phys := rfl

@[simp] theorem modThread_agenda (s : State) (b g l : Nat) (f : Thread → Thread) : (modThread s b g l f).agenda = s.agenda := rfl
@[simp] theorem modThread_tick (s : State) (b g l : Nat) (f : Thread → Thread) : (modThread s b g l f).tick = s.tick := rfl
@[simp] theorem modThread_focus (s : State) (b g l : Nat) (f : Thread → Thread) : (modThread s b g l f).focus = s.focus := rfl
@[simp] theorem modThread_asker (s : State) (b g l : Nat) (f : Thread → Thread) : (modThread s b g l f).asker = s.asker := rfl
@[simp] theorem modThread_serves (s : State) (b g l : Nat) (f : Thread → Thread) : (modThread s b g l f).serves = s.serves := rfl
@[simp] theorem modThread_nextId (s : State) (b g l : Nat) (f : Thread → Thread) : (modThread s b g l f).nextId = s.nextId := rfl
@[simp] theorem modThread_out (s : State) (b g l : Nat) (f : Thread → Thread) : (modThread s b g l f).out = s.out := rfl
@[simp] theorem modThread_visits (s : State) (b g l : Nat) (f : Thread → Thread) : (modThread s b g l f).visits = s.visits := rfl
@[simp] theorem modThread_plans (s : State) (b g l : Nat) (f : Thread → Thread) : (modThread s b g l f).plans = s.plans := rfl
@[simp] theorem modThread_mem (s : State) (b g l : Nat) (f : Thread → Thread) : (modThread s b g l f).mem = s.mem := rfl
@[simp] theorem modThread_hostMem (s : State) (b g l : Nat) (f : Thread → Thread) : (modThread s b g l f).hostMem = s.hostMem := rfl
@[simp] theorem modThread_ops (s : State) (b g l : Nat) (f : Thread → Thread) : (modThread s b g l f).ops = s.ops := rfl
@[simp] theorem modThread_backs (s : State) (b g l : Nat) (f : Thread → Thread) : (modThread s b g l f).backs = s.backs := rfl
@[simp] theorem modThread_cores (s : State) (b g l : Nat) (f : Thread → Thread) : (modThread s b g l f).cores = s.cores := rfl
@[simp] theorem modThread_clusters (s : State) (b g l : Nat) (f : Thread → Thread) : (modThread s b g l f).clusters = s.clusters := rfl
@[simp] theorem modThread_dies (s : State) (b g l : Nat) (f : Thread → Thread) : (modThread s b g l f).dies = s.dies := rfl
@[simp] theorem modThread_hbmStacks (s : State) (b g l : Nat) (f : Thread → Thread) : (modThread s b g l f).hbmStacks = s.hbmStacks := rfl
@[simp] theorem modThread_contexts (s : State) (b g l : Nat) (f : Thread → Thread) : (modThread s b g l f).contexts = s.contexts := rfl
@[simp] theorem modThread_queues (s : State) (b g l : Nat) (f : Thread → Thread) : (modThread s b g l f).queues = s.queues := rfl
@[simp] theorem modThread_launches (s : State) (b g l : Nat) (f : Thread → Thread) : (modThread s b g l f).launches = s.launches := rfl
@[simp] theorem modThread_windows (s : State) (b g l : Nat) (f : Thread → Thread) : (modThread s b g l f).windows = s.windows := rfl
@[simp] theorem modThread_hostIf (s : State) (b g l : Nat) (f : Thread → Thread) : (modThread s b g l f).hostIf = s.hostIf := rfl
@[simp] theorem modThread_link (s : State) (b g l : Nat) (f : Thread → Thread) : (modThread s b g l f).link = s.link := rfl
@[simp] theorem modThread_mgmt (s : State) (b g l : Nat) (f : Thread → Thread) : (modThread s b g l f).mgmt = s.mgmt := rfl
@[simp] theorem modThread_phys (s : State) (b g l : Nat) (f : Thread → Thread) : (modThread s b g l f).phys = s.phys := rfl

@[simp] theorem setOp_agenda (s : State) (n : Nat) (x : Option PendingOp) : (setOp s n x).agenda = s.agenda := rfl
@[simp] theorem setOp_tick (s : State) (n : Nat) (x : Option PendingOp) : (setOp s n x).tick = s.tick := rfl
@[simp] theorem setOp_focus (s : State) (n : Nat) (x : Option PendingOp) : (setOp s n x).focus = s.focus := rfl
@[simp] theorem setOp_asker (s : State) (n : Nat) (x : Option PendingOp) : (setOp s n x).asker = s.asker := rfl
@[simp] theorem setOp_serves (s : State) (n : Nat) (x : Option PendingOp) : (setOp s n x).serves = s.serves := rfl
@[simp] theorem setOp_nextId (s : State) (n : Nat) (x : Option PendingOp) : (setOp s n x).nextId = s.nextId := rfl
@[simp] theorem setOp_out (s : State) (n : Nat) (x : Option PendingOp) : (setOp s n x).out = s.out := rfl
@[simp] theorem setOp_visits (s : State) (n : Nat) (x : Option PendingOp) : (setOp s n x).visits = s.visits := rfl
@[simp] theorem setOp_plans (s : State) (n : Nat) (x : Option PendingOp) : (setOp s n x).plans = s.plans := rfl
@[simp] theorem setOp_mem (s : State) (n : Nat) (x : Option PendingOp) : (setOp s n x).mem = s.mem := rfl
@[simp] theorem setOp_hostMem (s : State) (n : Nat) (x : Option PendingOp) : (setOp s n x).hostMem = s.hostMem := rfl
@[simp] theorem setOp_blocks (s : State) (n : Nat) (x : Option PendingOp) : (setOp s n x).blocks = s.blocks := rfl
@[simp] theorem setOp_backs (s : State) (n : Nat) (x : Option PendingOp) : (setOp s n x).backs = s.backs := rfl
@[simp] theorem setOp_cores (s : State) (n : Nat) (x : Option PendingOp) : (setOp s n x).cores = s.cores := rfl
@[simp] theorem setOp_clusters (s : State) (n : Nat) (x : Option PendingOp) : (setOp s n x).clusters = s.clusters := rfl
@[simp] theorem setOp_dies (s : State) (n : Nat) (x : Option PendingOp) : (setOp s n x).dies = s.dies := rfl
@[simp] theorem setOp_hbmStacks (s : State) (n : Nat) (x : Option PendingOp) : (setOp s n x).hbmStacks = s.hbmStacks := rfl
@[simp] theorem setOp_contexts (s : State) (n : Nat) (x : Option PendingOp) : (setOp s n x).contexts = s.contexts := rfl
@[simp] theorem setOp_queues (s : State) (n : Nat) (x : Option PendingOp) : (setOp s n x).queues = s.queues := rfl
@[simp] theorem setOp_launches (s : State) (n : Nat) (x : Option PendingOp) : (setOp s n x).launches = s.launches := rfl
@[simp] theorem setOp_windows (s : State) (n : Nat) (x : Option PendingOp) : (setOp s n x).windows = s.windows := rfl
@[simp] theorem setOp_hostIf (s : State) (n : Nat) (x : Option PendingOp) : (setOp s n x).hostIf = s.hostIf := rfl
@[simp] theorem setOp_link (s : State) (n : Nat) (x : Option PendingOp) : (setOp s n x).link = s.link := rfl
@[simp] theorem setOp_mgmt (s : State) (n : Nat) (x : Option PendingOp) : (setOp s n x).mgmt = s.mgmt := rfl
@[simp] theorem setOp_phys (s : State) (n : Nat) (x : Option PendingOp) : (setOp s n x).phys = s.phys := rfl

@[simp] theorem setPeer_agenda (s : State) (d : Nat) (p : Option Peer) : (setPeer s d p).agenda = s.agenda := rfl
@[simp] theorem setPeer_tick (s : State) (d : Nat) (p : Option Peer) : (setPeer s d p).tick = s.tick := rfl
@[simp] theorem setPeer_focus (s : State) (d : Nat) (p : Option Peer) : (setPeer s d p).focus = s.focus := rfl
@[simp] theorem setPeer_asker (s : State) (d : Nat) (p : Option Peer) : (setPeer s d p).asker = s.asker := rfl
@[simp] theorem setPeer_serves (s : State) (d : Nat) (p : Option Peer) : (setPeer s d p).serves = s.serves := rfl
@[simp] theorem setPeer_nextId (s : State) (d : Nat) (p : Option Peer) : (setPeer s d p).nextId = s.nextId := rfl
@[simp] theorem setPeer_out (s : State) (d : Nat) (p : Option Peer) : (setPeer s d p).out = s.out := rfl
@[simp] theorem setPeer_visits (s : State) (d : Nat) (p : Option Peer) : (setPeer s d p).visits = s.visits := rfl
@[simp] theorem setPeer_plans (s : State) (d : Nat) (p : Option Peer) : (setPeer s d p).plans = s.plans := rfl
@[simp] theorem setPeer_mem (s : State) (d : Nat) (p : Option Peer) : (setPeer s d p).mem = s.mem := rfl
@[simp] theorem setPeer_hostMem (s : State) (d : Nat) (p : Option Peer) : (setPeer s d p).hostMem = s.hostMem := rfl
@[simp] theorem setPeer_blocks (s : State) (d : Nat) (p : Option Peer) : (setPeer s d p).blocks = s.blocks := rfl
@[simp] theorem setPeer_ops (s : State) (d : Nat) (p : Option Peer) : (setPeer s d p).ops = s.ops := rfl
@[simp] theorem setPeer_backs (s : State) (d : Nat) (p : Option Peer) : (setPeer s d p).backs = s.backs := rfl
@[simp] theorem setPeer_cores (s : State) (d : Nat) (p : Option Peer) : (setPeer s d p).cores = s.cores := rfl
@[simp] theorem setPeer_clusters (s : State) (d : Nat) (p : Option Peer) : (setPeer s d p).clusters = s.clusters := rfl
@[simp] theorem setPeer_dies (s : State) (d : Nat) (p : Option Peer) : (setPeer s d p).dies = s.dies := rfl
@[simp] theorem setPeer_hbmStacks (s : State) (d : Nat) (p : Option Peer) : (setPeer s d p).hbmStacks = s.hbmStacks := rfl
@[simp] theorem setPeer_contexts (s : State) (d : Nat) (p : Option Peer) : (setPeer s d p).contexts = s.contexts := rfl
@[simp] theorem setPeer_queues (s : State) (d : Nat) (p : Option Peer) : (setPeer s d p).queues = s.queues := rfl
@[simp] theorem setPeer_launches (s : State) (d : Nat) (p : Option Peer) : (setPeer s d p).launches = s.launches := rfl
@[simp] theorem setPeer_windows (s : State) (d : Nat) (p : Option Peer) : (setPeer s d p).windows = s.windows := rfl
@[simp] theorem setPeer_hostIf (s : State) (d : Nat) (p : Option Peer) : (setPeer s d p).hostIf = s.hostIf := rfl
@[simp] theorem setPeer_mgmt (s : State) (d : Nat) (p : Option Peer) : (setPeer s d p).mgmt = s.mgmt := rfl
@[simp] theorem setPeer_phys (s : State) (d : Nat) (p : Option Peer) : (setPeer s d p).phys = s.phys := rfl

@[simp] theorem memWrite_agenda (s : State) (pa : Nat) (bs : List Byte) : (memWrite s pa bs).agenda = s.agenda := rfl
@[simp] theorem memWrite_tick (s : State) (pa : Nat) (bs : List Byte) : (memWrite s pa bs).tick = s.tick := rfl
@[simp] theorem memWrite_focus (s : State) (pa : Nat) (bs : List Byte) : (memWrite s pa bs).focus = s.focus := rfl
@[simp] theorem memWrite_asker (s : State) (pa : Nat) (bs : List Byte) : (memWrite s pa bs).asker = s.asker := rfl
@[simp] theorem memWrite_serves (s : State) (pa : Nat) (bs : List Byte) : (memWrite s pa bs).serves = s.serves := rfl
@[simp] theorem memWrite_nextId (s : State) (pa : Nat) (bs : List Byte) : (memWrite s pa bs).nextId = s.nextId := rfl
@[simp] theorem memWrite_out (s : State) (pa : Nat) (bs : List Byte) : (memWrite s pa bs).out = s.out := rfl
@[simp] theorem memWrite_visits (s : State) (pa : Nat) (bs : List Byte) : (memWrite s pa bs).visits = s.visits := rfl
@[simp] theorem memWrite_plans (s : State) (pa : Nat) (bs : List Byte) : (memWrite s pa bs).plans = s.plans := rfl
@[simp] theorem memWrite_hostMem (s : State) (pa : Nat) (bs : List Byte) : (memWrite s pa bs).hostMem = s.hostMem := rfl
@[simp] theorem memWrite_blocks (s : State) (pa : Nat) (bs : List Byte) : (memWrite s pa bs).blocks = s.blocks := rfl
@[simp] theorem memWrite_ops (s : State) (pa : Nat) (bs : List Byte) : (memWrite s pa bs).ops = s.ops := rfl
@[simp] theorem memWrite_backs (s : State) (pa : Nat) (bs : List Byte) : (memWrite s pa bs).backs = s.backs := rfl
@[simp] theorem memWrite_cores (s : State) (pa : Nat) (bs : List Byte) : (memWrite s pa bs).cores = s.cores := rfl
@[simp] theorem memWrite_clusters (s : State) (pa : Nat) (bs : List Byte) : (memWrite s pa bs).clusters = s.clusters := rfl
@[simp] theorem memWrite_dies (s : State) (pa : Nat) (bs : List Byte) : (memWrite s pa bs).dies = s.dies := rfl
@[simp] theorem memWrite_hbmStacks (s : State) (pa : Nat) (bs : List Byte) : (memWrite s pa bs).hbmStacks = s.hbmStacks := rfl
@[simp] theorem memWrite_contexts (s : State) (pa : Nat) (bs : List Byte) : (memWrite s pa bs).contexts = s.contexts := rfl
@[simp] theorem memWrite_queues (s : State) (pa : Nat) (bs : List Byte) : (memWrite s pa bs).queues = s.queues := rfl
@[simp] theorem memWrite_launches (s : State) (pa : Nat) (bs : List Byte) : (memWrite s pa bs).launches = s.launches := rfl
@[simp] theorem memWrite_windows (s : State) (pa : Nat) (bs : List Byte) : (memWrite s pa bs).windows = s.windows := rfl
@[simp] theorem memWrite_link (s : State) (pa : Nat) (bs : List Byte) : (memWrite s pa bs).link = s.link := rfl
@[simp] theorem memWrite_mgmt (s : State) (pa : Nat) (bs : List Byte) : (memWrite s pa bs).mgmt = s.mgmt := rfl
@[simp] theorem memWrite_phys (s : State) (pa : Nat) (bs : List Byte) : (memWrite s pa bs).phys = s.phys := rfl

@[simp] theorem draw_agenda (s : State) : ((draw s).2).agenda = s.agenda := rfl
@[simp] theorem draw_focus (s : State) : ((draw s).2).focus = s.focus := rfl
@[simp] theorem draw_asker (s : State) : ((draw s).2).asker = s.asker := rfl
@[simp] theorem draw_serves (s : State) : ((draw s).2).serves = s.serves := rfl
@[simp] theorem draw_nextId (s : State) : ((draw s).2).nextId = s.nextId := rfl
@[simp] theorem draw_out (s : State) : ((draw s).2).out = s.out := rfl
@[simp] theorem draw_visits (s : State) : ((draw s).2).visits = s.visits := rfl
@[simp] theorem draw_plans (s : State) : ((draw s).2).plans = s.plans := rfl
@[simp] theorem draw_mem (s : State) : ((draw s).2).mem = s.mem := rfl
@[simp] theorem draw_hostMem (s : State) : ((draw s).2).hostMem = s.hostMem := rfl
@[simp] theorem draw_blocks (s : State) : ((draw s).2).blocks = s.blocks := rfl
@[simp] theorem draw_ops (s : State) : ((draw s).2).ops = s.ops := rfl
@[simp] theorem draw_backs (s : State) : ((draw s).2).backs = s.backs := rfl
@[simp] theorem draw_cores (s : State) : ((draw s).2).cores = s.cores := rfl
@[simp] theorem draw_clusters (s : State) : ((draw s).2).clusters = s.clusters := rfl
@[simp] theorem draw_dies (s : State) : ((draw s).2).dies = s.dies := rfl
@[simp] theorem draw_hbmStacks (s : State) : ((draw s).2).hbmStacks = s.hbmStacks := rfl
@[simp] theorem draw_contexts (s : State) : ((draw s).2).contexts = s.contexts := rfl
@[simp] theorem draw_queues (s : State) : ((draw s).2).queues = s.queues := rfl
@[simp] theorem draw_launches (s : State) : ((draw s).2).launches = s.launches := rfl
@[simp] theorem draw_windows (s : State) : ((draw s).2).windows = s.windows := rfl
@[simp] theorem draw_hostIf (s : State) : ((draw s).2).hostIf = s.hostIf := rfl
@[simp] theorem draw_link (s : State) : ((draw s).2).link = s.link := rfl
@[simp] theorem draw_mgmt (s : State) : ((draw s).2).mgmt = s.mgmt := rfl
@[simp] theorem draw_phys (s : State) : ((draw s).2).phys = s.phys := rfl

@[simp] theorem freshId_agenda (s : State) : ((freshId s).2).agenda = s.agenda := rfl
@[simp] theorem freshId_tick (s : State) : ((freshId s).2).tick = s.tick := rfl
@[simp] theorem freshId_focus (s : State) : ((freshId s).2).focus = s.focus := rfl
@[simp] theorem freshId_asker (s : State) : ((freshId s).2).asker = s.asker := rfl
@[simp] theorem freshId_serves (s : State) : ((freshId s).2).serves = s.serves := rfl
@[simp] theorem freshId_out (s : State) : ((freshId s).2).out = s.out := rfl
@[simp] theorem freshId_visits (s : State) : ((freshId s).2).visits = s.visits := rfl
@[simp] theorem freshId_plans (s : State) : ((freshId s).2).plans = s.plans := rfl
@[simp] theorem freshId_mem (s : State) : ((freshId s).2).mem = s.mem := rfl
@[simp] theorem freshId_hostMem (s : State) : ((freshId s).2).hostMem = s.hostMem := rfl
@[simp] theorem freshId_blocks (s : State) : ((freshId s).2).blocks = s.blocks := rfl
@[simp] theorem freshId_ops (s : State) : ((freshId s).2).ops = s.ops := rfl
@[simp] theorem freshId_backs (s : State) : ((freshId s).2).backs = s.backs := rfl
@[simp] theorem freshId_cores (s : State) : ((freshId s).2).cores = s.cores := rfl
@[simp] theorem freshId_clusters (s : State) : ((freshId s).2).clusters = s.clusters := rfl
@[simp] theorem freshId_dies (s : State) : ((freshId s).2).dies = s.dies := rfl
@[simp] theorem freshId_hbmStacks (s : State) : ((freshId s).2).hbmStacks = s.hbmStacks := rfl
@[simp] theorem freshId_contexts (s : State) : ((freshId s).2).contexts = s.contexts := rfl
@[simp] theorem freshId_queues (s : State) : ((freshId s).2).queues = s.queues := rfl
@[simp] theorem freshId_launches (s : State) : ((freshId s).2).launches = s.launches := rfl
@[simp] theorem freshId_windows (s : State) : ((freshId s).2).windows = s.windows := rfl
@[simp] theorem freshId_hostIf (s : State) : ((freshId s).2).hostIf = s.hostIf := rfl
@[simp] theorem freshId_link (s : State) : ((freshId s).2).link = s.link := rfl
@[simp] theorem freshId_mgmt (s : State) : ((freshId s).2).mgmt = s.mgmt := rfl
@[simp] theorem freshId_phys (s : State) : ((freshId s).2).phys = s.phys := rfl

@[simp] theorem writeV_cond (t : Thread) (n : Nat) (x : Word) (q : Bool) : (writeV t n x q).cond = t.cond := rfl
@[simp] theorem writeV_p (t : Thread) (n : Nat) (x : Word) (q : Bool) : (writeV t n x q).p = t.p := rfl
@[simp] theorem writeV_mods (t : Thread) (n : Nat) (x : Word) (q : Bool) : (writeV t n x q).mods = t.mods := rfl
@[simp] theorem writeV_fpmode (t : Thread) (n : Nat) (x : Word) (q : Bool) : (writeV t n x q).fpmode = t.fpmode := rfl
@[simp] theorem writeV_tcause (t : Thread) (n : Nat) (x : Word) (q : Bool) : (writeV t n x q).tcause = t.tcause := rfl
@[simp] theorem writeV_tpc (t : Thread) (n : Nat) (x : Word) (q : Bool) : (writeV t n x q).tpc = t.tpc := rfl
@[simp] theorem writeV_taux0 (t : Thread) (n : Nat) (x : Word) (q : Bool) : (writeV t n x q).taux0 = t.taux0 := rfl
@[simp] theorem writeV_taux1 (t : Thread) (n : Nat) (x : Word) (q : Bool) : (writeV t n x q).taux1 = t.taux1 := rfl
@[simp] theorem writeV_taux2 (t : Thread) (n : Nat) (x : Word) (q : Bool) : (writeV t n x q).taux2 = t.taux2 := rfl
@[simp] theorem writeV_taux3 (t : Thread) (n : Nat) (x : Word) (q : Bool) : (writeV t n x q).taux3 = t.taux3 := rfl
@[simp] theorem writeV_plog (t : Thread) (n : Nat) (x : Word) (q : Bool) : (writeV t n x q).plog = t.plog := rfl
@[simp] theorem writeV_spx (t : Thread) (n : Nat) (x : Word) (q : Bool) : (writeV t n x q).spx = t.spx := rfl
@[simp] theorem writeV_handler (t : Thread) (n : Nat) (x : Word) (q : Bool) : (writeV t n x q).handler = t.handler := rfl
@[simp] theorem writeV_deferred (t : Thread) (n : Nat) (x : Word) (q : Bool) : (writeV t n x q).deferred = t.deferred := rfl
@[simp] theorem writeV_stalled (t : Thread) (n : Nat) (x : Word) (q : Bool) : (writeV t n x q).stalled = t.stalled := rfl

@[simp] theorem writeP_cond (t : Thread) (n : Nat) (x q : Bool) : (writeP t n x q).cond = t.cond := rfl
@[simp] theorem writeP_v (t : Thread) (n : Nat) (x q : Bool) : (writeP t n x q).v = t.v := rfl
@[simp] theorem writeP_mods (t : Thread) (n : Nat) (x q : Bool) : (writeP t n x q).mods = t.mods := rfl
@[simp] theorem writeP_fpmode (t : Thread) (n : Nat) (x q : Bool) : (writeP t n x q).fpmode = t.fpmode := rfl
@[simp] theorem writeP_tcause (t : Thread) (n : Nat) (x q : Bool) : (writeP t n x q).tcause = t.tcause := rfl
@[simp] theorem writeP_tpc (t : Thread) (n : Nat) (x q : Bool) : (writeP t n x q).tpc = t.tpc := rfl
@[simp] theorem writeP_taux0 (t : Thread) (n : Nat) (x q : Bool) : (writeP t n x q).taux0 = t.taux0 := rfl
@[simp] theorem writeP_taux1 (t : Thread) (n : Nat) (x q : Bool) : (writeP t n x q).taux1 = t.taux1 := rfl
@[simp] theorem writeP_taux2 (t : Thread) (n : Nat) (x q : Bool) : (writeP t n x q).taux2 = t.taux2 := rfl
@[simp] theorem writeP_taux3 (t : Thread) (n : Nat) (x q : Bool) : (writeP t n x q).taux3 = t.taux3 := rfl
@[simp] theorem writeP_plog (t : Thread) (n : Nat) (x q : Bool) : (writeP t n x q).plog = t.plog := rfl
@[simp] theorem writeP_spx (t : Thread) (n : Nat) (x q : Bool) : (writeP t n x q).spx = t.spx := rfl
@[simp] theorem writeP_handler (t : Thread) (n : Nat) (x q : Bool) : (writeP t n x q).handler = t.handler := rfl
@[simp] theorem writeP_deferred (t : Thread) (n : Nat) (x q : Bool) : (writeP t n x q).deferred = t.deferred := rfl
@[simp] theorem writeP_stalled (t : Thread) (n : Nat) (x q : Bool) : (writeP t n x q).stalled = t.stalled := rfl

@[simp] theorem writeK_slot (g : Gang) (n : Nat) (x : Word) (p : Bool) : (writeK g n x p).slot = g.slot := rfl
@[simp] theorem writeK_q (g : Gang) (n : Nat) (x : Word) (p : Bool) : (writeK g n x p).q = g.q := rfl
@[simp] theorem writeK_mxflags (g : Gang) (n : Nat) (x : Word) (p : Bool) : (writeK g n x p).mxflags = g.mxflags := rfl
@[simp] theorem writeK_trapbase (g : Gang) (n : Nat) (x : Word) (p : Bool) : (writeK g n x p).trapbase = g.trapbase := rfl
@[simp] theorem writeK_threads (g : Gang) (n : Nat) (x : Word) (p : Bool) : (writeK g n x p).threads = g.threads := rfl
@[simp] theorem writeK_units (g : Gang) (n : Nat) (x : Word) (p : Bool) : (writeK g n x p).units = g.units := rfl
@[simp] theorem writeK_counts (g : Gang) (n : Nat) (x : Word) (p : Bool) : (writeK g n x p).counts = g.counts := rfl
@[simp] theorem writeK_faultq (g : Gang) (n : Nat) (x : Word) (p : Bool) : (writeK g n x p).faultq = g.faultq := rfl
@[simp] theorem writeK_released (g : Gang) (n : Nat) (x : Word) (p : Bool) : (writeK g n x p).released = g.released := rfl

@[simp] theorem writeQ_slot (g : Gang) (n : Nat) (ls : Table (BitVec 16)) (tag : BitVec 20) (p : Bool) : (writeQ g n ls tag p).slot = g.slot := rfl
@[simp] theorem writeQ_k (g : Gang) (n : Nat) (ls : Table (BitVec 16)) (tag : BitVec 20) (p : Bool) : (writeQ g n ls tag p).k = g.k := rfl
@[simp] theorem writeQ_mxflags (g : Gang) (n : Nat) (ls : Table (BitVec 16)) (tag : BitVec 20) (p : Bool) : (writeQ g n ls tag p).mxflags = g.mxflags := rfl
@[simp] theorem writeQ_trapbase (g : Gang) (n : Nat) (ls : Table (BitVec 16)) (tag : BitVec 20) (p : Bool) : (writeQ g n ls tag p).trapbase = g.trapbase := rfl
@[simp] theorem writeQ_threads (g : Gang) (n : Nat) (ls : Table (BitVec 16)) (tag : BitVec 20) (p : Bool) : (writeQ g n ls tag p).threads = g.threads := rfl
@[simp] theorem writeQ_units (g : Gang) (n : Nat) (ls : Table (BitVec 16)) (tag : BitVec 20) (p : Bool) : (writeQ g n ls tag p).units = g.units := rfl
@[simp] theorem writeQ_counts (g : Gang) (n : Nat) (ls : Table (BitVec 16)) (tag : BitVec 20) (p : Bool) : (writeQ g n ls tag p).counts = g.counts := rfl
@[simp] theorem writeQ_faultq (g : Gang) (n : Nat) (ls : Table (BitVec 16)) (tag : BitVec 20) (p : Bool) : (writeQ g n ls tag p).faultq = g.faultq := rfl
@[simp] theorem writeQ_released (g : Gang) (n : Nat) (ls : Table (BitVec 16)) (tag : BitVec 20) (p : Bool) : (writeQ g n ls tag p).released = g.released := rfl

@[simp] theorem modThreadOf_slot (g : Gang) (l : Nat) (f : Thread → Thread) : (modThreadOf g l f).slot = g.slot := rfl
@[simp] theorem modThreadOf_k (g : Gang) (l : Nat) (f : Thread → Thread) : (modThreadOf g l f).k = g.k := rfl
@[simp] theorem modThreadOf_q (g : Gang) (l : Nat) (f : Thread → Thread) : (modThreadOf g l f).q = g.q := rfl
@[simp] theorem modThreadOf_mxflags (g : Gang) (l : Nat) (f : Thread → Thread) : (modThreadOf g l f).mxflags = g.mxflags := rfl
@[simp] theorem modThreadOf_trapbase (g : Gang) (l : Nat) (f : Thread → Thread) : (modThreadOf g l f).trapbase = g.trapbase := rfl
@[simp] theorem modThreadOf_units (g : Gang) (l : Nat) (f : Thread → Thread) : (modThreadOf g l f).units = g.units := rfl
@[simp] theorem modThreadOf_counts (g : Gang) (l : Nat) (f : Thread → Thread) : (modThreadOf g l f).counts = g.counts := rfl
@[simp] theorem modThreadOf_faultq (g : Gang) (l : Nat) (f : Thread → Thread) : (modThreadOf g l f).faultq = g.faultq := rfl
@[simp] theorem modThreadOf_released (g : Gang) (l : Nat) (f : Thread → Thread) : (modThreadOf g l f).released = g.released := rfl

@[simp] theorem countOp_slot (g : Gang) (c : Counter) (i : Nat) : (countOp g c i).slot = g.slot := rfl
@[simp] theorem countOp_k (g : Gang) (c : Counter) (i : Nat) : (countOp g c i).k = g.k := rfl
@[simp] theorem countOp_q (g : Gang) (c : Counter) (i : Nat) : (countOp g c i).q = g.q := rfl
@[simp] theorem countOp_mxflags (g : Gang) (c : Counter) (i : Nat) : (countOp g c i).mxflags = g.mxflags := rfl
@[simp] theorem countOp_trapbase (g : Gang) (c : Counter) (i : Nat) : (countOp g c i).trapbase = g.trapbase := rfl
@[simp] theorem countOp_threads (g : Gang) (c : Counter) (i : Nat) : (countOp g c i).threads = g.threads := rfl
@[simp] theorem countOp_units (g : Gang) (c : Counter) (i : Nat) : (countOp g c i).units = g.units := rfl
@[simp] theorem countOp_faultq (g : Gang) (c : Counter) (i : Nat) : (countOp g c i).faultq = g.faultq := rfl
@[simp] theorem countOp_released (g : Gang) (c : Counter) (i : Nat) : (countOp g c i).released = g.released := rfl

end Sys2Proof.Machine
end

