-- ==== Sys2Proof/Laws/Table.lean ====
section
/-! SUPPORT. The laws of sparse tables: what a key reads as after a write, for every table, and that every write keeps the
canonical form. -/

/- Theorems are checked one after another: many at once ask for more memory than the check allows. -/
set_option Elab.async false

namespace Sys2Proof.Machine

variable {α : Type}

/-! ### Reads after writes -/

theorem tget_tput_self {d : α} (t : Table α) (n : Nat) (v : α) : tget d (tput t n v) n = v := by
  induction t with
  | nil => simp [tput, tget]
  | cons e t ih =>
    obtain ⟨k, w⟩ := e
    simp only [tput]
    split
    · simp [tget]
    · split
      · simp [tget]
      · rename_i h
        simp [tget, Ne.symm h, ih]

theorem tget_tput_ne {d : α} (t : Table α) {n m : Nat} (v : α) (hm : m ≠ n) : tget d (tput t n v) m = tget d t m := by
  induction t with
  | nil => simp [tput, tget, Ne.symm hm]
  | cons e t ih =>
    obtain ⟨k, w⟩ := e
    simp only [tput]
    split
    · simp [tget, Ne.symm hm]
    · split
      · rename_i h
        subst h
        simp [tget, Ne.symm hm]
      · simp [tget, ih]

theorem tget_tdrop_self {d : α} (t : Table α) (n : Nat) : tget d (tdrop t n) n = d := by
  induction t with
  | nil => rfl
  | cons e t ih =>
    obtain ⟨k, w⟩ := e
    simp only [tdrop, List.filter_cons] at ih ⊢
    by_cases h : k = n
    · simpa [h] using ih
    · simpa [h, tget] using ih

theorem tget_tdrop_ne {d : α} (t : Table α) {n m : Nat} (hm : m ≠ n) : tget d (tdrop t n) m = tget d t m := by
  induction t with
  | nil => rfl
  | cons e t ih =>
    obtain ⟨k, w⟩ := e
    simp only [tdrop, List.filter_cons] at ih ⊢
    by_cases h : k = n
    · subst h
      simpa [tget, Ne.symm hm] using ih
    · simp [h, tget, ih]

/-- A key reads as what was written to it. -/
theorem tget_tset_self [DecidableEq α] {d : α} (t : Table α) (n : Nat) (v : α) : tget d (tset d t n v) n = v := by
  simp only [tset]
  split
  · rename_i h
    rw [tget_tdrop_self, h]
  · exact tget_tput_self t n v

/-- Every other key reads as before a write. -/
theorem tget_tset_ne [DecidableEq α] {d : α} (t : Table α) {n m : Nat} (v : α) (hm : m ≠ n) :
    tget d (tset d t n v) m = tget d t m := by
  simp only [tset]
  split
  · exact tget_tdrop_ne t hm
  · exact tget_tput_ne t v hm

/-- A read after a write, whichever the key. -/
theorem tget_tset [DecidableEq α] {d : α} (t : Table α) (n m : Nat) (v : α) :
    tget d (tset d t n v) m = if m = n then v else tget d t m := by
  split
  · rename_i h; subst h; exact tget_tset_self t m v
  · rename_i h; exact tget_tset_ne t v h

/-- A read after a change, whichever the key. -/
theorem tget_tmod [DecidableEq α] {d : α} (t : Table α) (n m : Nat) (f : α → α) :
    tget d (tmod d t n f) m = if m = n then f (tget d t m) else tget d t m := by
  rw [tmod, tget_tset]
  split
  · rename_i h; subst h; rfl
  · rfl

/-- A key below the keys written reads as before. -/
theorem tget_tsetMany_below [DecidableEq α] {d : α} (t : Table α) (n : Nat) (vs : List α) {m : Nat} (hm : m < n) :
    tget d (tsetMany d t n vs) m = tget d t m := by
  induction vs generalizing t n with
  | nil => rfl
  | cons v vs ih => rw [tsetMany, ih _ _ (by omega), tget_tset_ne _ v (by omega)]

/-- A key outside the keys written reads as before. -/
theorem tget_tsetMany_ne [DecidableEq α] {d : α} (t : Table α) (n : Nat) (vs : List α) {m : Nat}
    (hm : m < n ∨ n + vs.length ≤ m) : tget d (tsetMany d t n vs) m = tget d t m := by
  induction vs generalizing t n with
  | nil => rfl
  | cons v vs ih =>
    simp only [List.length_cons] at hm
    rw [tsetMany, ih _ _ (by omega), tget_tset_ne _ v (by omega)]

/-- A key among the keys written reads as its value. -/
theorem tget_tsetMany_at [DecidableEq α] {d : α} (t : Table α) (n : Nat) (vs : List α) (i : Nat) (hi : i < vs.length) :
    tget d (tsetMany d t n vs) (n + i) = vs[i] := by
  induction vs generalizing t n i with
  | nil => exact absurd hi (by simp)
  | cons v vs ih =>
    cases i with
    | zero =>
      rw [tsetMany, tget_tsetMany_below _ _ _ (by omega)]
      exact tget_tset_self t n v
    | succ i =>
      have := ih (tset d t n v) (n + 1) i (by simpa using hi)
      rw [tsetMany, show n + (i + 1) = n + 1 + i by omega, this]
      rfl

/-! ### The canonical form -/

/-- A bound may be lowered. -/
theorem twfFrom_mono [DecidableEq α] {d : α} {t : Table α} {a b : Nat} (h : twfFrom d b t = true) (hab : a ≤ b) :
    twfFrom d a t = true := by
  cases t with
  | nil => rfl
  | cons e t =>
    obtain ⟨k, v⟩ := e
    simp only [twfFrom, Bool.and_eq_true, decide_eq_true_eq] at h ⊢
    exact ⟨⟨by omega, h.1.2⟩, h.2⟩

theorem twfFrom_tput [DecidableEq α] {d : α} {t : Table α} {lo n : Nat} {v : α} (h : twfFrom d lo t = true) (hn : lo ≤ n)
    (hv : v ≠ d) : twfFrom d lo (tput t n v) = true := by
  induction t generalizing lo with
  | nil => simp [tput, twfFrom, hn, hv]
  | cons e t ih =>
    obtain ⟨k, w⟩ := e
    simp only [twfFrom, Bool.and_eq_true, decide_eq_true_eq] at h
    obtain ⟨⟨h1, h2⟩, h3⟩ := h
    simp only [tput]
    split
    · simp [twfFrom, hn, hv, h2, h3]; omega
    · split
      · rename_i hk
        subst hk
        simp [twfFrom, hn, hv, h3]
      · simp [twfFrom, h1, h2, ih h3 (by omega)]

theorem twfFrom_tdrop [DecidableEq α] {d : α} {t : Table α} {lo n : Nat} (h : twfFrom d lo t = true) :
    twfFrom d lo (tdrop t n) = true := by
  induction t generalizing lo with
  | nil => rfl
  | cons e t ih =>
    obtain ⟨k, w⟩ := e
    simp only [twfFrom, Bool.and_eq_true, decide_eq_true_eq] at h
    obtain ⟨⟨h1, h2⟩, h3⟩ := h
    simp only [tdrop, List.filter_cons]
    split
    · simp only [twfFrom, Bool.and_eq_true, decide_eq_true_eq]
      exact ⟨⟨h1, h2⟩, ih h3⟩
    · exact twfFrom_mono (ih h3) (by omega)

/-- A write keeps the canonical form. -/
theorem twf_tset [DecidableEq α] {d : α} {t : Table α} (n : Nat) (v : α) (h : twf d t = true) : twf d (tset d t n v) = true := by
  simp only [tset]
  split
  · exact twfFrom_tdrop h
  · rename_i hv; exact twfFrom_tput h (Nat.zero_le n) hv

/-- Writes of consecutive keys keep the canonical form. -/
theorem twf_tsetMany [DecidableEq α] {d : α} (t : Table α) (n : Nat) (vs : List α) (h : twf d t = true) :
    twf d (tsetMany d t n vs) = true := by
  induction vs generalizing t n with
  | nil => exact h
  | cons v vs ih => exact ih _ _ (twf_tset n v h)

/-- The empty table is canonical. -/
theorem twf_nil [DecidableEq α] (d : α) : twf d ([] : Table α) = true := rfl

end Sys2Proof.Machine
end

