-- ==== Sys2Proof/Laws/Memory.lean ====
section
/-! SUPPORT. What each operation on memory leaves: every one keeps the canonical form of the memories (the `_wf` laws), and
those that only read, look up, freeze or trap change no byte of device memory (the `_mem` laws). -/

/- Theorems are checked one after another: many at once ask for more memory than the check allows. -/
set_option Elab.async false

namespace Sys2Proof.Machine

/-- The canonical form speaks of the two memories alone. -/
theorem memoryWf_congr {s t : State} (h : MemoryWf s) (h1 : t.mem = s.mem) (h2 : t.hostMem = s.hostMem) : MemoryWf t := by
  rw [MemoryWf, h1, h2]; exact h

theorem notify_mem (s : State) (ty src : Nat) (a b : Dword) : (notify s ty src a b).mem = s.mem := by
  simp only [notify]; split <;> rfl
theorem notify_wf {s : State} (ty src : Nat) (a b : Dword) (h : MemoryWf s) : MemoryWf (notify s ty src a b) := by
  simp only [notify]
  split
  · exact h
  · exact ⟨h.1, twf_tsetMany _ _ _ h.2⟩

theorem memWrite_wf {s : State} (pa : Nat) (bs : List Byte) (h : MemoryWf s) : MemoryWf (memWrite s pa bs) :=
  ⟨twf_tsetMany _ _ _ h.1, h.2⟩

theorem logArray_mem (s : State) (pa who err : Nat) : (logArray s pa who err).mem = s.mem := by
  simp only [logArray]
  split <;> simp [notify_mem]
theorem logArray_wf {s : State} (pa who err : Nat) (h : MemoryWf s) : MemoryWf (logArray s pa who err) := by
  simp only [logArray]
  split
  · exact notify_wf _ _ _ _ h
  · exact h
theorem arrayCheck_mem (s : State) (pa who : Nat) : (arrayCheck s pa who).2.mem = s.mem := by
  simp only [arrayCheck]
  split <;> simp [logArray_mem]
theorem arrayCheck_wf {s : State} (pa who : Nat) (h : MemoryWf s) : MemoryWf (arrayCheck s pa who).2 := by
  simp only [arrayCheck]
  split
  · exact h
  · exact logArray_wf _ _ _ h
theorem attempt_mem (s : State) (k pc sec : Nat) : (attempt s k pc sec).2.mem = s.mem := by
  simp only [attempt]; split <;> rfl
theorem attempt_wf {s : State} (k pc sec : Nat) (h : MemoryWf s) : MemoryWf (attempt s k pc sec).2 := by
  simp only [attempt]; split <;> exact h

theorem modStack_wf {s : State} (k : Nat) (f : Stack → Stack) (h : MemoryWf s) : MemoryWf (modStack s k f) := h
theorem waitAt_wf {s : State} (k pc : Nat) (h : MemoryWf s) : MemoryWf (waitAt s k pc) := h

/-- What an access takes of the array check, where it needs one. -/
theorem checkIf_mem (s : State) (pa who : Nat) (n : Bool) :
    (if n then arrayCheck s pa who else (false, s)).2.mem = s.mem := by
  split <;> simp [arrayCheck_mem]
theorem checkIf_wf {s : State} (pa who : Nat) (n : Bool) (h : MemoryWf s) :
    MemoryWf (if n then arrayCheck s pa who else (false, s)).2 := by
  split
  · exact arrayCheck_wf _ _ h
  · exact h

theorem serveSector_mem (s : State) (pa who : Nat) (w n : Bool) : (serveSector s pa w n who).2.mem = s.mem := by
  simp only [serveSector]
  split
  · exact checkIf_mem ..
  · split
    · rfl
    · split
      · rfl
      · split
        · rfl
        · have h := (attempt_mem (if n then arrayCheck s pa who else (false, s)).2 (stackOf pa) (channelOf pa) (pa / 32)).trans
            (checkIf_mem s pa who n)
          generalize attempt (if n then arrayCheck s pa who else (false, s)).2 (stackOf pa) (channelOf pa) (pa / 32) = r at h ⊢
          split
          · exact h
          · exact h
theorem serveSector_wf {s : State} (pa who : Nat) (w n : Bool) (h : MemoryWf s) : MemoryWf (serveSector s pa w n who).2 := by
  simp only [serveSector]
  split
  · exact checkIf_wf _ _ _ h
  · split
    · exact h
    · split
      · exact h
      · split
        · exact h
        · have h := attempt_wf (stackOf pa) (channelOf pa) (pa / 32) (checkIf_wf pa who n h)
          generalize attempt (if n then arrayCheck s pa who else (false, s)).2 (stackOf pa) (channelOf pa) (pa / 32) = r at h ⊢
          split
          · exact modStack_wf _ _ (waitAt_wf _ _ h)
          · exact h
theorem noteServe_mem (e : Serve) (r : Served × State) : (noteServe e r).2.mem = r.2.mem := by
  simp only [noteServe]; split <;> rfl
theorem noteServe_wf (e : Serve) {r : Served × State} (h : MemoryWf r.2) : MemoryWf (noteServe e r).2 := by
  simp only [noteServe]; split <;> exact h
theorem homeServe_mem (s : State) (pa who : Nat) (w n : Bool) : (homeServe s pa w n who).2.mem = s.mem := by
  simp only [homeServe]
  split
  · rfl
  · rw [noteServe_mem, serveSector_mem]
theorem homeServe_wf {s : State} (pa who : Nat) (w n : Bool) (h : MemoryWf s) : MemoryWf (homeServe s pa w n who).2 := by
  simp only [homeServe]
  split
  · exact h
  · exact noteServe_wf _ (serveSector_wf _ _ _ _ h)

theorem homeRead_mem (s : State) (pa n who : Nat) : (homeRead s pa n who).2.mem = s.mem := by
  have h := homeServe_mem s pa who false true
  simp only [homeRead]
  rcases hh : homeServe s pa false true who with ⟨r, s1⟩
  rw [hh] at h
  cases r <;> exact h
theorem homeRead_wf {s : State} (pa n who : Nat) (h : MemoryWf s) : MemoryWf (homeRead s pa n who).2 := by
  have h := homeServe_wf (s := s) pa who false true h
  simp only [homeRead]
  rcases hh : homeServe s pa false true who with ⟨r, s1⟩
  rw [hh] at h
  cases r <;> exact h

theorem cellsAfterWrite_mem (s : State) (sec : Nat) (w : Bool) : (cellsAfterWrite s sec w).mem = s.mem := by
  simp only [cellsAfterWrite]; split
  · rfl
  · split <;> rfl
theorem cellsAfterWrite_hostMem (s : State) (sec : Nat) (w : Bool) : (cellsAfterWrite s sec w).hostMem = s.hostMem := by
  simp only [cellsAfterWrite]; split
  · rfl
  · split <;> rfl
theorem cellsAfterWrite_wf {s : State} (sec : Nat) (w : Bool) (h : MemoryWf s) : MemoryWf (cellsAfterWrite s sec w) :=
  memoryWf_congr h (cellsAfterWrite_mem ..) (cellsAfterWrite_hostMem ..)

/-- A write at a home slice, by what the slice answers. -/
theorem homeWrite_eq {s s1 : State} {r : Served} (pa who : Nat) (bs : List Byte)
    (h : homeServe s pa true (!decide (bs.length = 32)) who = (r, s1)) :
    homeWrite s pa bs who = (match r with
      | .failed => (.failed, s1)
      | .blocked => (.blocked, s1)
      | _ => (.clean, cellsAfterWrite (memWrite s1 pa bs) (pa / 32) (decide (bs.length = 32)))) := by
  simp only [homeWrite, h]
  cases r <;> rfl

/-- A write at a home slice changes the bytes it is performed on and nothing else of memory. -/
theorem homeWrite_mem (s : State) (pa who : Nat) (bs : List Byte) :
    (homeWrite s pa bs who).2.mem = if (homeWrite s pa bs who).1 = .clean then tsetMany 0 s.mem pa bs else s.mem := by
  have h := homeServe_mem s pa who true (!decide (bs.length = 32))
  rcases hh : homeServe s pa true (!decide (bs.length = 32)) who with ⟨r, s1⟩
  rw [hh] at h
  simp only at h
  rw [homeWrite_eq pa who bs hh]
  cases r <;> simp [cellsAfterWrite_mem, memWrite, h]
theorem homeWrite_wf {s : State} (pa who : Nat) (bs : List Byte) (h : MemoryWf s) : MemoryWf (homeWrite s pa bs who).2 := by
  have h := homeServe_wf (s := s) pa who true (!decide (bs.length = 32)) h
  simp only [homeWrite]
  rcases hh : homeServe s pa true (!decide (bs.length = 32)) who with ⟨r, s1⟩
  rw [hh] at h
  cases r
  · exact cellsAfterWrite_wf _ _ (memWrite_wf _ _ h)
  · exact cellsAfterWrite_wf _ _ (memWrite_wf _ _ h)
  · exact h
  · exact h

/-! ### The stacked SRAM and the caches -/

/-- A fold of steps that keep a property keeps it. -/
theorem foldl_keeps {α β : Type} {p : β → Prop} {f : β → α → β} (hf : ∀ b a, p b → p (f b a)) (l : List α) {b : β} (h : p b) :
    p (l.foldl f b) := by
  induction l generalizing b with
  | nil => exact h
  | cons a l ih => exact ih (hf b a h)

theorem foldl_mem {α : Type} {f : State → α → State} (hf : ∀ t a, (f t a).mem = t.mem) (l : List α) (s : State) :
    (l.foldl f s).mem = s.mem := by
  induction l generalizing s with
  | nil => rfl
  | cons a l ih => exact (ih (f s a)).trans (hf s a)
theorem foldl_wf {α : Type} {f : State → α → State} (hf : ∀ t a, MemoryWf t → MemoryWf (f t a)) (l : List α) {s : State}
    (h : MemoryWf s) : MemoryWf (l.foldl f s) := foldl_keeps hf l h

theorem freezeCtx_mem (s : State) (c r low : Nat) (a b d : Dword) : (freezeCtx s c r low a b d).mem = s.mem := by
  simp only [freezeCtx]
  split <;> simp [notify_mem]
theorem freezeCtx_wf {s : State} (c r low : Nat) (a b d : Dword) (h : MemoryWf s) : MemoryWf (freezeCtx s c r low a b d) := by
  simp only [freezeCtx]
  split
  · exact h
  · exact notify_wf _ _ _ _ h
theorem askAs_wf {s : State} (a : Asker) (h : MemoryWf s) : MemoryWf (askAs s a) := h
theorem forgetAsker_wf {s : State} (a : Asker) (h : MemoryWf s) : MemoryWf (forgetAsker s a) :=
  foldl_wf (fun _ _ ht => modStack_wf _ _ ht) _ h
/-- Forgetting a requester changes nothing but the stacks. -/
theorem forgetAsker_eq (s : State) (a : Asker) : forgetAsker s a = { s with hbmStacks := (forgetAsker s a).hbmStacks } := by
  have key : ∀ (l : List (Nat × Stack)) (f : Stack → Stack) (t : State),
      l.foldl (fun s e => modStack s e.1 f) t = { t with hbmStacks := (l.foldl (fun s e => modStack s e.1 f) t).hbmStacks } := by
    intro l f
    induction l with
    | nil => intro t; rfl
    | cons e l ih => intro t; exact ih (modStack t e.1 f)
  exact key s.hbmStacks _ s

theorem writeBackBytes_wf {s : State} (b : Back) (h : MemoryWf s) : MemoryWf (writeBackBytes s b) := by
  have h := homeServe_wf (b.sector * 32) whoDevice true (!decide (b.mask = BitVec.allOnes 32)) (askAs_wf .back h)
  have key : ∀ t : State, MemoryWf t → MemoryWf (cellsAfterWrite ((List.range 32).foldl (fun s i =>
      if b.mask.getLsbD i then memWrite s (b.sector * 32 + i) [b.data.getD i 0] else s) (askAs t s.asker)) b.sector
      (decide (b.mask = BitVec.allOnes 32))) := by
    intro t ht
    refine cellsAfterWrite_wf _ _ (foldl_wf ?_ _ (askAs_wf _ ht))
    intro u i hu
    split
    · exact memWrite_wf _ _ hu
    · exact hu
  simp only [writeBackBytes]
  rcases hh : homeServe (askAs s .back) (b.sector * 32) true (!decide (b.mask = BitVec.allOnes 32)) whoDevice with ⟨r, s1⟩
  rw [hh] at h
  cases r
  · exact key _ h
  · exact key _ h
  · exact freezeCtx_wf _ _ _ _ _ _ (askAs_wf _ h)
  · exact h
/-- Trying the waiting write-backs keeps the canonical form. -/
theorem drainBacks_wf {s : State} (h : MemoryWf s) : MemoryWf (drainBacks s) :=
  foldl_wf (s := { s with backs := [] }) (fun _ _ ht => writeBackBytes_wf _ ht) _ h

theorem logSram_mem (s : State) (cl kind bank pa off sy : Nat) : (logSram s cl kind bank pa off sy).mem = s.mem := by
  simp only [logSram]
  split <;> simp [notify_mem]
theorem logSram_wf {s : State} (cl kind bank pa off sy : Nat) (h : MemoryWf s) : MemoryWf (logSram s cl kind bank pa off sy) := by
  simp only [logSram]
  split
  · exact notify_wf _ _ _ _ h
  · exact h
theorem sramReadAs_mem (s : State) (cl bank pa off kind : Nat) : (sramReadAs s cl bank pa off kind).2.mem = s.mem := by
  simp only [sramReadAs]
  repeat' split
  all_goals simp [logSram_mem]
theorem sramReadAs_wf {s : State} (cl bank pa off kind : Nat) (h : MemoryWf s) :
    MemoryWf (sramReadAs s cl bank pa off kind).2 := by
  simp only [sramReadAs]
  repeat' split
  all_goals first | exact h | exact logSram_wf _ _ _ _ _ _ h
theorem sramRead_mem (s : State) (cl bank pa off : Nat) : (sramRead s cl bank pa off).2.mem = s.mem := sramReadAs_mem ..
theorem sramRead_wf {s : State} (cl bank pa off : Nat) (h : MemoryWf s) : MemoryWf (sramRead s cl bank pa off).2 :=
  sramReadAs_wf _ _ _ _ _ h
theorem sramWrite_mem (s : State) (cl bank pa off : Nat) (w : Bool) : (sramWrite s cl bank pa off w).mem = s.mem := by
  simp only [sramWrite]; split <;> exact sramRead_mem ..
theorem sramWrite_wf {s : State} (cl bank pa off : Nat) (w : Bool) (h : MemoryWf s) :
    MemoryWf (sramWrite s cl bank pa off w) := by
  simp only [sramWrite]; split <;> exact sramRead_wf _ _ _ _ h

theorem setL2_mem (s : State) (cl bank set : Nat) (l : Option L2Line) : (setL2 s cl bank set l).mem = s.mem := rfl
theorem setL2_wf {s : State} (cl bank set : Nat) (l : Option L2Line) (h : MemoryWf s) : MemoryWf (setL2 s cl bank set l) := h
theorem l2Touch_mem (s : State) (cl bank set : Nat) : (l2Touch s cl bank set).mem = s.mem := by
  simp only [l2Touch]
  apply foldl_mem
  intro t w
  split <;> rfl
theorem l2Touch_wf {s : State} (cl bank set : Nat) (h : MemoryWf s) : MemoryWf (l2Touch s cl bank set) := by
  simp only [l2Touch]
  apply foldl_keeps (p := MemoryWf) _ _ h
  intro t w ht
  split <;> exact ht

theorem writeBackSector_wf {s : State} (cl bank set : Nat) (l : L2Line) (i : Nat) (h : MemoryWf s) :
    MemoryWf (writeBackSector s cl bank set l i).2 := by
  simp only [writeBackSector]
  split
  · exact h
  · split
    · exact h
    · have h := sramReadAs_wf cl bank (lineSector l.tag set i * 32) (lineSector l.tag set i * 32) 4 h
      rcases hh : sramReadAs s cl bank (lineSector l.tag set i * 32) (lineSector l.tag set i * 32) 4 with ⟨r, s1⟩
      rw [hh] at h
      cases r
      · exact h
      · exact writeBackBytes_wf _ h
theorem cleanSectors_wf {s : State} (cl bank set : Nat) (l : L2Line) (h : MemoryWf s) :
    MemoryWf (cleanSectors s cl bank set l).2 := by
  simp only [cleanSectors]
  exact foldl_keeps (p := fun r : L2Line × State => MemoryWf r.2) (fun _ _ hr => writeBackSector_wf _ _ _ _ _ hr) _ h
theorem writeBackLine_wf {s : State} (cl bank set : Nat) (l : L2Line) (keep : Bool) (h : MemoryWf s) :
    MemoryWf (writeBackLine s cl bank set l keep) := setL2_wf _ _ _ _ (cleanSectors_wf _ _ _ _ h)
theorem writeBackWhere_wf {s : State} (cl : Nat) (p : Nat → L2Line → Bool) (keep : Bool) (h : MemoryWf s) :
    MemoryWf (writeBackWhere s cl p keep) := by
  simp only [writeBackWhere]
  apply foldl_keeps (p := MemoryWf) _ _ h
  intro t e ht
  split
  · split
    · exact writeBackLine_wf _ _ _ _ _ ht
    · exact ht
  · exact ht
theorem l2Alloc_wf {s : State} (cl ctx pa pc : Nat) (sh : Bool) (h : MemoryWf s) : MemoryWf (l2Alloc s cl ctx pa pc sh).2 := by
  simp only [l2Alloc]
  split
  · exact h
  · split
    · exact h
    · split
      · exact writeBackLine_wf _ _ _ _ _ h
      · exact h
theorem l2Fill_wf {s : State} (cl ctx pa pc : Nat) (sh : Bool) (data : List Byte) (h : MemoryWf s) :
    MemoryWf (l2Fill s cl ctx pa pc sh data) := by
  have h := l2Alloc_wf (s := s) cl ctx pa pc sh h
  simp only [l2Fill]
  rcases hh : l2Alloc s cl ctx pa pc sh with ⟨r, s1⟩
  rw [hh] at h
  cases r with
  | none => exact h
  | some e => exact l2Touch_wf _ _ _ (sramWrite_wf _ _ _ _ _ h)
theorem l2StoreLocal_wf {s : State} (cl ctx pa pc : Nat) (bs : List Byte) (h : MemoryWf s) :
    MemoryWf (l2StoreLocal s cl ctx pa pc bs).2 := by
  have h := l2Alloc_wf (s := s) cl ctx pa pc false h
  simp only [l2StoreLocal]
  rcases hh : l2Alloc s cl ctx pa pc false with ⟨r, s1⟩
  rw [hh] at h
  cases r with
  | none => exact h
  | some e => exact l2Touch_wf _ _ _ (sramWrite_wf _ _ _ _ _ h)
theorem l2WriteThrough_mem (s : State) (cl pa : Nat) (bs : List Byte) : (l2WriteThrough s cl pa bs).mem = s.mem := by
  simp only [l2WriteThrough]
  split
  · rfl
  · split
    · rfl
    · exact (l2Touch_mem ..).trans (sramWrite_mem ..)
theorem l2WriteThrough_wf {s : State} (cl pa : Nat) (bs : List Byte) (h : MemoryWf s) : MemoryWf (l2WriteThrough s cl pa bs) := by
  simp only [l2WriteThrough]
  split
  · exact h
  · split
    · exact h
    · exact l2Touch_wf _ _ _ (sramWrite_wf _ _ _ _ _ h)
theorem l2Read_mem (s : State) (cl pa n : Nat) : (l2Read s cl pa n).2.mem = s.mem := by
  simp only [l2Read]
  split
  · rfl
  · split
    · rfl
    · split
      · rfl
      · split
        · rfl
        · simp [l2Touch_mem, sramRead_mem]
theorem l2Read_wf {s : State} (cl pa n : Nat) (h : MemoryWf s) : MemoryWf (l2Read s cl pa n).2 := by
  simp only [l2Read]
  split
  · exact h
  · split
    · exact h
    · split
      · exact h
      · split
        · exact h
        · exact l2Touch_wf _ _ _ (sramRead_wf _ _ _ _ h)
theorem l2Purge_wf {s : State} (cl pa : Nat) (h : MemoryWf s) : MemoryWf (l2Purge s cl pa) := by
  simp only [l2Purge]
  split
  · exact h
  · exact setL2_wf _ _ _ _ (writeBackSector_wf _ _ _ _ _ h)

theorem l1Fill_mem (s : State) (core ctx va pa : Nat) (ro : Option Nat) (data : List Byte) :
    (l1Fill s core ctx va pa ro data).mem = s.mem := by
  simp only [l1Fill]
  split <;> simp only [draw, modCore_mem] <;> (apply foldl_mem; intro t i; rfl)
theorem l1Fill_hostMem (s : State) (core ctx va pa : Nat) (ro : Option Nat) (data : List Byte) :
    (l1Fill s core ctx va pa ro data).hostMem = s.hostMem := by
  have key : ∀ (l : List Nat) (f : State → Nat → State) (t : State), (∀ t i, (f t i).hostMem = t.hostMem) →
      (l.foldl f t).hostMem = t.hostMem := by
    intro l f t hf
    induction l generalizing t with
    | nil => rfl
    | cons a l ih => exact (ih (f t a)).trans (hf t a)
  simp only [l1Fill]
  split <;> simp only [draw, modCore_hostMem] <;> (apply key; intro t i; rfl)
theorem l1Fill_wf {s : State} (core ctx va pa : Nat) (ro : Option Nat) (data : List Byte) (h : MemoryWf s) :
    MemoryWf (l1Fill s core ctx va pa ro data) :=
  memoryWf_congr h (l1Fill_mem ..) (l1Fill_hostMem ..)

theorem l1Store_mem (s : State) (core pa : Nat) (bs : List Byte) : (l1Store s core pa bs).mem = s.mem := rfl
theorem l1Store_hostMem (s : State) (core pa : Nat) (bs : List Byte) : (l1Store s core pa bs).hostMem = s.hostMem := rfl

/-! ### The windows and the freeze of a context -/

theorem sectorsRead_mem (s : State) (cl : Nat) (bank : Nat → Option (Nat × Nat)) (o n : Nat) :
    (sectorsRead s cl bank o n).2.mem = s.mem := by
  refine foldl_keeps (p := fun r : Bool × State => r.2.mem = s.mem) (fun r q hr => ?_) _ rfl
  split
  · exact hr
  · exact (sramRead_mem ..).trans hr
theorem sectorsRead_wf {s : State} (cl : Nat) (bank : Nat → Option (Nat × Nat)) (o n : Nat) (h : MemoryWf s) :
    MemoryWf (sectorsRead s cl bank o n).2 := by
  refine foldl_keeps (p := fun r : Bool × State => MemoryWf r.2) (fun r q hr => ?_) _ h
  split
  · exact hr
  · exact sramRead_wf _ _ _ _ hr
theorem sectorsWrite_mem (s : State) (cl : Nat) (bank : Nat → Option (Nat × Nat)) (o n : Nat) :
    (sectorsWrite s cl bank o n).mem = s.mem := by
  refine foldl_mem (fun t q => ?_) _ _
  split
  · rfl
  · exact sramWrite_mem ..
theorem sectorsWrite_wf {s : State} (cl : Nat) (bank : Nat → Option (Nat × Nat)) (o n : Nat) (h : MemoryWf s) :
    MemoryWf (sectorsWrite s cl bank o n) := by
  refine foldl_wf (fun t q ht => ?_) _ h
  split
  · exact ht
  · exact sramWrite_wf _ _ _ _ _ ht
theorem windowRead_mem (s : State) (b : Block) (t : Target) (n : Nat) : (windowRead s b t n).2.mem = s.mem := by
  simp only [windowRead]
  repeat' split
  all_goals first | rfl | exact sectorsRead_mem ..
theorem windowRead_wf {s : State} (b : Block) (t : Target) (n : Nat) (h : MemoryWf s) : MemoryWf (windowRead s b t n).2 := by
  simp only [windowRead]
  repeat' split
  all_goals first | exact h | exact sectorsRead_wf _ _ _ _ h
theorem windowWrite_mem (s : State) (id : Nat) (b : Block) (t : Target) (bs : List Byte) :
    (windowWrite s id b t bs).mem = s.mem := by
  simp only [windowWrite]
  repeat' split
  all_goals simp [sectorsWrite_mem]
theorem windowWrite_wf {s : State} (id : Nat) (b : Block) (t : Target) (bs : List Byte) (h : MemoryWf s) :
    MemoryWf (windowWrite s id b t bs) := by
  simp only [windowWrite]
  repeat' split
  all_goals first | exact h | exact sectorsWrite_wf _ _ _ _ h

theorem freezeTrap_mem (s : State) (id g l r : Nat) (t : Trap) (x : Dword) : (freezeTrap s id g l r t x).mem = s.mem := by
  simp only [freezeTrap]
  split <;> simp [freezeCtx_mem]
theorem freezeTrap_wf {s : State} (id g l r : Nat) (t : Trap) (x : Dword) (h : MemoryWf s) :
    MemoryWf (freezeTrap s id g l r t x) := by
  simp only [freezeTrap]
  split
  · exact h
  · exact freezeCtx_wf _ _ _ _ _ _ h
theorem freezeData_mem (s : State) (id g l : Nat) (a b : Dword) : (freezeData s id g l a b).mem = s.mem := by
  simp only [freezeData]
  split <;> simp [freezeCtx_mem]
theorem freezeData_wf {s : State} (id g l : Nat) (a b : Dword) (h : MemoryWf s) : MemoryWf (freezeData s id g l a b) := by
  simp only [freezeData]
  split
  · exact h
  · exact freezeCtx_wf _ _ _ _ _ _ h
theorem defer_mem (s : State) (id g l : Nat) (t : Trap) : (defer s id g l t).mem = s.mem := by
  simp only [defer]
  repeat' split
  all_goals simp [freezeTrap_mem]
theorem defer_wf {s : State} (id g l : Nat) (t : Trap) (h : MemoryWf s) : MemoryWf (defer s id g l t) := by
  simp only [defer]
  repeat' split
  all_goals first | exact h | exact freezeTrap_wf _ _ _ _ _ _ h
theorem dropDeferred_mem (s : State) (id g l : Nat) : (dropDeferred s id g l).mem = s.mem := by
  simp only [dropDeferred]
  rw [foldl_mem]
  · simp
  · intro t a
    split <;> simp [freezeTrap_mem]
theorem dropDeferred_wf {s : State} (id g l : Nat) (h : MemoryWf s) : MemoryWf (dropDeferred s id g l) := by
  simp only [dropDeferred]
  apply foldl_wf
  · intro t a ht
    split
    · exact ht
    · exact freezeTrap_wf _ _ _ _ _ _ ht
  · exact h
theorem meetTrap_mem (s : State) (id g l : Nat) (x : Trap) (en : Bool) : (meetTrap s id g l x en).mem = s.mem := by
  simp only [meetTrap]
  repeat' split
  all_goals simp [freezeTrap_mem]
theorem meetTrap_wf {s : State} (id g l : Nat) (x : Trap) (en : Bool) (h : MemoryWf s) : MemoryWf (meetTrap s id g l x en) := by
  simp only [meetTrap]
  repeat' split
  all_goals first | exact h | exact freezeTrap_wf _ _ _ _ _ _ h
/-- Taking traps changes no byte of device memory (a freeze may report to the host's). -/
theorem takeTraps_mem (s : State) (id g : Nat) (ts : List (Nat × Trap)) (stay : Dword) (last : Nat) :
    (takeTraps s id g ts stay last).mem = s.mem := by
  simp only [takeTraps]
  repeat' split
  all_goals (try simp only [putUnit, modGang_mem]); apply foldl_mem; intro t a; exact meetTrap_mem ..
theorem takeTraps_wf {s : State} (id g : Nat) (ts : List (Nat × Trap)) (stay : Dword) (last : Nat) (h : MemoryWf s) :
    MemoryWf (takeTraps s id g ts stay last) := by
  have key : ∀ en : Bool, MemoryWf (ts.foldl (fun s e => meetTrap s id g e.1 e.2 en) s) :=
    fun en => foldl_wf (fun t a ht => meetTrap_wf _ _ _ _ _ ht) _ h
  simp only [takeTraps]
  repeat' split
  all_goals exact key _

/-! ### The way of an access (R136, R257) -/

theorem pteRead_mem (s : State) (cl pa : Nat) : (pteRead s cl pa).2.mem = s.mem := by
  simp only [pteRead]
  split
  · exact homeRead_mem ..
  · rfl
theorem pteRead_wf {s : State} (cl pa : Nat) (h : MemoryWf s) : MemoryWf (pteRead s cl pa).2 := by
  simp only [pteRead]
  split
  · exact homeRead_wf _ _ _ h
  · exact h
theorem rangeHome_mem (s : State) (cl table idx pte : Nat) : (rangeHome s cl table idx pte).2.mem = s.mem := by
  simp only [rangeHome]
  split
  · rfl
  · exact pteRead_mem ..
theorem rangeHome_wf {s : State} (cl table idx pte : Nat) (h : MemoryWf s) : MemoryWf (rangeHome s cl table idx pte).2 := by
  simp only [rangeHome]
  split
  · exact h
  · exact pteRead_wf (s := (draw s).2) _ _ h
theorem keepWalk_mem (s : State) (cl ctx page level table : Nat) : (keepWalk s cl ctx page level table).mem = s.mem := rfl
theorem keepWalk_wf {s : State} (cl ctx page level table : Nat) (h : MemoryWf s) :
    MemoryWf (keepWalk s cl ctx page level table) := h

/-- What a walk leaves, by what one of its levels and those below it leave: a property of states that reading an entry and
keeping a walk preserve holds of the state a walk leaves. -/
theorem walkHome_keeps {p : State → Prop} (cl ctx va : Nat) (hr : ∀ s pa, p s → p (pteRead s cl pa).2)
    (h64 : ∀ s table idx pte, p s → p (rangeHome s cl table idx pte).2)
    (hk : ∀ s level table, p s → p (keepWalk s cl ctx (va / 4096) level table)) (level table : Nat) {s : State} (h : p s) :
    p (walkHome s cl ctx va level table).2 := by
  induction level generalizing s table with
  | zero =>
    have h1 := hr s (table + 8 * bitsOf va (12 + 9 * 0 + 8) (12 + 9 * 0)) h
    unfold walkHome
    dsimp only
    generalize pteRead s cl (table + 8 * bitsOf va (12 + 9 * 0 + 8) (12 + 9 * 0)) = r at h1 ⊢
    rcases r with ⟨x, s1⟩
    cases x with
    | blocked => exact hk _ _ _ h1
    | bad => exact h1
    | bytes bs =>
      simp only
      split
      · exact h1
      · split
        · split
          · have h2 := h64 s1 table (bitsOf va (12 + 9 * 0 + 8) (12 + 9 * 0)) (leNat bs) h1
            generalize rangeHome s1 cl table (bitsOf va (12 + 9 * 0 + 8) (12 + 9 * 0)) (leNat bs) = r at h2 ⊢
            rcases r with ⟨x, s2⟩
            cases x with
            | blocked => exact hk _ _ _ h2
            | bad => exact h2
            | bytes bs => exact h2
          · exact h1
        · exact h1
  | succ level ih =>
    have h1 := hr s (table + 8 * bitsOf va (12 + 9 * (level + 1) + 8) (12 + 9 * (level + 1))) h
    unfold walkHome
    dsimp only
    generalize pteRead s cl (table + 8 * bitsOf va (12 + 9 * (level + 1) + 8) (12 + 9 * (level + 1))) = r at h1 ⊢
    rcases r with ⟨x, s1⟩
    cases x with
    | blocked => exact hk _ _ _ h1
    | bad => exact h1
    | bytes bs =>
      simp only
      split
      · exact h1
      · split
        · split
          · exact absurd (And.left (by assumption)) (Nat.succ_ne_zero level)
          · exact h1
        · exact ih _ h1

theorem walkHome_mem (s : State) (cl ctx va level table : Nat) : (walkHome s cl ctx va level table).2.mem = s.mem :=
  walkHome_keeps (p := fun t => t.mem = s.mem) cl ctx va (fun _ _ h => (pteRead_mem ..).trans h)
    (fun _ _ _ _ h => (rangeHome_mem ..).trans h) (fun _ _ _ h => h) level table rfl
theorem walkHome_wf {s : State} (cl ctx va level table : Nat) (h : MemoryWf s) :
    MemoryWf (walkHome s cl ctx va level table).2 :=
  walkHome_keeps cl ctx va (fun _ _ h => pteRead_wf _ _ h) (fun _ _ _ _ h => rangeHome_wf _ _ _ _ h) (fun _ _ _ h => h)
    level table h
theorem dropWalk_mem (s : State) (cl ctx page : Nat) : (dropWalk s cl ctx page).mem = s.mem := by
  simp only [dropWalk]; split <;> rfl
theorem dropWalk_wf {s : State} (cl ctx page : Nat) (h : MemoryWf s) : MemoryWf (dropWalk s cl ctx page) := by
  simp only [dropWalk]; split <;> exact h
theorem walkNow_mem (s : State) (cl ctx va : Nat) : (walkNow s cl ctx va).2.mem = s.mem := by
  simp only [walkNow]
  split
  · rfl
  · exact (walkHome_mem ..).trans (dropWalk_mem ..)
theorem walkNow_wf {s : State} (cl ctx va : Nat) (h : MemoryWf s) : MemoryWf (walkNow s cl ctx va).2 := by
  simp only [walkNow]
  split
  · exact h
  · exact askAs_wf _ (walkHome_wf _ _ _ _ _ (askAs_wf _ (dropWalk_wf _ _ _ h)))
theorem walkInto_mem (s : State) (cl ctx va : Nat) : (walkInto s cl ctx va).2.mem = s.mem := by
  have h := walkNow_mem s cl ctx va
  simp only [walkInto]
  generalize walkNow s cl ctx va = r at h ⊢
  rcases r with ⟨x, s1⟩
  cases x <;> first | exact h | (simp only; split <;> exact h)
theorem walkInto_wf {s : State} (cl ctx va : Nat) (h : MemoryWf s) : MemoryWf (walkInto s cl ctx va).2 := by
  have h := walkNow_wf cl ctx va h
  simp only [walkInto]
  generalize walkNow s cl ctx va = r at h ⊢
  rcases r with ⟨x, s1⟩
  cases x <;> first | exact h | (simp only; split <;> exact h)
theorem translate_mem (s : State) (cl ctx va : Nat) : (translate s cl ctx va).2.mem = s.mem := by
  unfold translate
  split
  · exact walkInto_mem ..
  · split
    · rfl
    · by_cases hn : (draw s).1 % 2 = 0
      · simp only [hn, if_true]; rfl
      · simp only [hn, if_false]; exact walkInto_mem ..
theorem translate_wf {s : State} (cl ctx va : Nat) (h : MemoryWf s) : MemoryWf (translate s cl ctx va).2 := by
  unfold translate
  split
  · exact walkInto_wf _ _ _ h
  · split
    · exact h
    · by_cases hn : (draw s).1 % 2 = 0
      · simp only [hn, if_true]; exact h
      · simp only [hn, if_false]; exact walkInto_wf (s := (draw s).2) _ _ _ h
theorem wayOf_mem (s : State) (cl ctx va : Nat) (rd wr : Bool) : (wayOf s cl ctx va rd wr).2.mem = s.mem := by
  have h := translate_mem s cl ctx va
  simp only [wayOf]
  generalize translate s cl ctx va = r at h ⊢
  rcases r with ⟨x, s1⟩
  cases x <;> first | exact h | (simp only; repeat' split) <;> exact h
theorem wayOf_wf {s : State} (cl ctx va : Nat) (rd wr : Bool) (h : MemoryWf s) : MemoryWf (wayOf s cl ctx va rd wr).2 := by
  have h := translate_wf (s := s) cl ctx va h
  simp only [wayOf]
  generalize translate s cl ctx va = r at h ⊢
  rcases r with ⟨x, s1⟩
  cases x <;> first | exact h | (simp only; repeat' split) <;> exact h

/-! ### Reads, writes and atomics at their point of coherence -/

theorem fillFromHome_wf {s : State} (cl ctx pa : Nat) (l : Leaf) (h : MemoryWf s) : MemoryWf (fillFromHome s cl ctx pa l).2 := by
  have h := homeRead_wf (s := s) (pa / 32 * 32) 32 cl h
  simp only [fillFromHome]
  rcases hh : homeRead s (pa / 32 * 32) 32 cl with ⟨r, s1⟩
  rw [hh] at h
  cases r with
  | bytes bs => exact l2Fill_wf _ _ _ _ _ _ h
  | bad => exact h
  | blocked => exact h
theorem readThroughL2_wf {s : State} (cl ctx va n : Nat) (l : Leaf) (h : MemoryWf s) :
    MemoryWf (readThroughL2 s cl ctx va n l).2 := by
  have h := l2Read_wf (s := s) cl (physical l va) n h
  simp only [readThroughL2]
  rcases hh : l2Read s cl (physical l va) n with ⟨r, s1⟩
  rw [hh] at h
  rcases r with _ | r
  · have h2 := fillFromHome_wf (s := s1) cl ctx (physical l va) l h
    simp only
    rcases h3 : fillFromHome s1 cl ctx (physical l va) l with ⟨q, s2⟩
    rw [h3] at h2
    cases q <;> exact h2
  · cases r <;> exact h
theorem refusedAccess_mem (s : State) (who a r : Nat) : (refusedAccess s who a r).mem = s.mem := notify_mem ..
theorem refusedAccess_wf {s : State} (who a r : Nat) (h : MemoryWf s) : MemoryWf (refusedAccess s who a r) := notify_wf _ _ _ _ h
theorem homeReply_wf {r : HomeData × State} (h : MemoryWf r.2) : MemoryWf (homeReply r).2 := by
  rcases r with ⟨x, s⟩; cases x <;> exact h
theorem writeReply_wf {r : Served × State} (h : MemoryWf r.2) : MemoryWf (writeReply r).2 := by
  rcases r with ⟨x, s⟩; cases x <;> exact h
theorem exportAt_wf {s : State} (base : Dword) (cnt : Word) (ea key : Nat) (need : PeerNeed) (h : MemoryWf s) :
    MemoryWf (exportAt s base cnt ea key need).2 := by
  have h1 := homeRead_wf (s := s) (base.toNat + 8 * (ea / 2 ^ 21)) 8 whoHost h
  simp only [exportAt]
  split
  · exact h
  · generalize homeRead s (base.toNat + 8 * (ea / 2 ^ 21)) 8 whoHost = r at h1 ⊢
    rcases r with ⟨x, s1⟩
    cases x <;> exact h1

/-- A request to the own number keeps what its performance keeps. -/
theorem selfRequest_wf {s : State} (d ea : Nat) (need : PeerNeed) (f : State → Nat → Reply × State)
    (hf : ∀ t pa, MemoryWf t → MemoryWf (f t pa).2) (h : MemoryWf s) : MemoryWf (selfRequest s d ea need f).2 := by
  have h := exportAt_wf s.link.pexbase s.link.pexcnt ea (ownKey s) need h
  simp only [selfRequest, ownExport]
  generalize exportAt s s.link.pexbase s.link.pexcnt ea (ownKey s) need = r at h ⊢
  rcases r with ⟨x, s1⟩
  cases x with
  | ok pa => exact hf _ _ h
  | refused r => exact refusedAccess_wf _ _ _ h
  | blocked => exact h
theorem farRequest_wf {s : State} (d ea : Nat) (need : PeerNeed) (f : Peer → Nat → Reply × State)
    (hf : ∀ p pa, MemoryWf (f p pa).2) (h : MemoryWf s) : MemoryWf (farRequest s d ea need f).2 := by
  simp only [farRequest]
  split
  · exact h
  · split
    · exact h
    · exact hf _ _
theorem peerRead_wf {s : State} (d ea n : Nat) (h : MemoryWf s) : MemoryWf (peerRead s d ea n).2 := by
  simp only [peerRead]
  split
  · exact h
  · split
    · exact selfRequest_wf _ _ _ _ (fun _ _ ht => homeReply_wf (homeRead_wf _ _ _ ht)) h
    · exact farRequest_wf _ _ _ _ (fun _ _ => h) h
theorem peerWrite_wf {s : State} (d ea : Nat) (bs : List Byte) (h : MemoryWf s) : MemoryWf (peerWrite s d ea bs).2 := by
  simp only [peerWrite]
  split
  · exact h
  · split
    · exact selfRequest_wf _ _ _ _ (fun _ _ ht => writeReply_wf (homeWrite_wf _ _ _ ht)) h
    · exact farRequest_wf _ _ _ _ (fun _ _ => h) h
theorem hostWrite_wf {s : State} (pa : Nat) (bs : List Byte) (h : MemoryWf s) : MemoryWf (hostWrite s pa bs).2 := by
  simp only [hostWrite]
  split
  · exact h
  · exact ⟨h.1, twf_tsetMany _ _ _ h.2⟩
theorem readAtHome_wf {s : State} (va n who : Nat) (l : Leaf) (h : MemoryWf s) : MemoryWf (readAtHome s va n who l).2 := by
  simp only [readAtHome]
  split
  · exact peerRead_wf _ _ _ h
  · split
    · exact h
    · exact homeReply_wf (homeRead_wf _ _ _ h)
theorem fillFound_wf {r : Reply × State} (core ctx va n key : Nat) (ro : Option Nat) (h : MemoryWf r.2) :
    MemoryWf (match r.1 with
      | .bytes bs => (Reply.bytes ((bs.drop (va % 32)).take n), l1Fill r.2 core ctx va key ro bs)
      | x => (x, r.2)).2 := by
  rcases r with ⟨x, s1⟩
  cases x with
  | bytes bs =>
    show MemoryWf (l1Fill s1 core ctx va key ro bs)
    exact l1Fill_wf core ctx va key ro bs h
  | bad => exact h
  | failed => exact h
  | blocked => exact h
  | unreachable r => exact h
theorem loadSector_wf {s : State} (core ctx va n : Nat) (l : Leaf) (ro : Option Nat) (h : MemoryWf s) :
    MemoryWf (loadSector s core ctx va n l ro).2 := by
  have h1 : MemoryWf (if inL2 l then readThroughL2 s (clusterOf core) ctx (va / 32 * 32) 32 l
      else readAtHome s (va / 32 * 32) 32 (clusterOf core) l).2 := by
    split
    · exact readThroughL2_wf _ _ _ _ _ h
    · exact readAtHome_wf _ _ _ _ h
  exact fillFound_wf core ctx va n (l1Key l va) ro h1
theorem setStage_wf {s : State} (n idx : Nat) (x : Stage) (h : MemoryWf s) : MemoryWf (setStage s n idx x) := by
  simp only [setStage]
  split <;> exact h
theorem storeAgreed_wf {s : State} (l : Leaf) (va : Nat) (bs : List Byte) (h : MemoryWf s) :
    MemoryWf (storeAgreed s l va bs) := by
  simp only [storeAgreed]
  split
  · exact ⟨h.1, twf_tsetMany _ _ _ h.2⟩
  · exact cellsAfterWrite_wf _ _ (memWrite_wf _ _ h)
theorem performStore_wf {s : State} (n idx : Nat) (h : MemoryWf s) : MemoryWf (performStore s n idx) := by
  simp only [performStore]
  split
  · exact h
  · split
    · exact setStage_wf _ _ _ (storeAgreed_wf _ _ _ h)
    · exact h
theorem performStores_wf {s : State} (p : Nat → Nat → Bool) (h : MemoryWf s) : MemoryWf (performStores s p) :=
  foldl_wf (fun _ _ ht => performStore_wf _ _ ht) _ h
theorem storesFirst_wf {s : State} (cl k : Nat) (h : MemoryWf s) : MemoryWf (storesFirst s cl k) := performStores_wf _ h
theorem engineRead_wf {s : State} (cl va n who : Nat) (l : Leaf) (h : MemoryWf s) : MemoryWf (engineRead s cl va n who l).2 := by
  have home : ∀ t : State, MemoryWf t →
      MemoryWf (readAtHome (if inL2 l then l2Purge t cl (physical l va) else t) va n who l).2 := by
    intro t ht
    apply readAtHome_wf
    split
    · exact l2Purge_wf _ _ ht
    · exact ht
  have h := storesFirst_wf (s := s) cl (l1Key l va / 32) h
  simp only [engineRead]
  generalize storesFirst s cl (l1Key l va / 32) = s at h ⊢
  have h1 : MemoryWf (if inL2 l && l.shared then l2Read s cl (physical l va) n else (none, s)).2 := by
    split
    · exact l2Read_wf _ _ _ h
    · exact h
  generalize (if inL2 l && l.shared then l2Read s cl (physical l va) n else (none, s)) = r at h1 ⊢
  rcases r with ⟨x, s1⟩
  cases x with
  | none => exact home _ h
  | some x =>
    by_cases hn : (draw s).1 % 2 = 1
    · simp only [hn, if_true]; exact homeReply_wf (r := (x, { s1 with tick := (draw s).2.tick })) h1
    · simp only [hn, if_false]; exact home (draw s).2 h
theorem storeHome_wf {s : State} (cl va : Nat) (l : Leaf) (bs : List Byte) (h : MemoryWf s) :
    MemoryWf (storeHome s cl va l bs).2 := by
  simp only [storeHome]
  split
  · exact peerWrite_wf _ _ _ h
  · split
    · exact hostWrite_wf _ _ h
    · exact writeReply_wf (homeWrite_wf _ _ _ h)
theorem l1Store_wf {s : State} (core pa : Nat) (bs : List Byte) (h : MemoryWf s) : MemoryWf (l1Store s core pa bs) := h
theorem storeNear_wf {s : State} (core va : Nat) (l : Leaf) (bs : List Byte) (h : MemoryWf s) :
    MemoryWf (storeNear s core va l bs) := by
  simp only [storeNear]
  split
  · exact l1Store_wf _ _ _ (l2WriteThrough_wf _ _ _ h)
  · exact l1Store_wf _ _ _ h
theorem storeBytes_wf {s : State} (core ctx va : Nat) (l : Leaf) (bs : List Byte) (th : Bool) (h : MemoryWf s) :
    MemoryWf (storeBytes s core ctx va l bs th).2 := by
  have home : ∀ t : State, MemoryWf t → MemoryWf (match storeHome t (clusterOf core) va l bs with
      | (.bytes _, s) => (Reply.bytes [], storeNear s core va l bs)
      | r => r).2 := by
    intro t ht
    have ht := storeHome_wf (s := t) (clusterOf core) va l bs ht
    generalize storeHome t (clusterOf core) va l bs = r at ht ⊢
    rcases r with ⟨x, s1⟩
    cases x <;> first | exact storeNear_wf _ _ _ _ ht | exact ht
  simp only [storeBytes]
  split
  · have h := l2StoreLocal_wf (s := s) (clusterOf core) ctx (physical l va) l.pclass bs h
    generalize l2StoreLocal s (clusterOf core) ctx (physical l va) l.pclass bs = r at h ⊢
    rcases r with ⟨x, s1⟩
    cases x
    · exact home s1 h
    · exact h
  · exact home s h
theorem homeUpdate_wf {s : State} (pa n who : Nat) (f : List Byte → List Byte) (h : MemoryWf s) :
    MemoryWf (homeUpdate s pa n who f).2 := by
  have h := homeRead_wf (s := s) pa n who h
  simp only [homeUpdate]
  generalize homeRead s pa n who = r at h ⊢
  rcases r with ⟨x, s1⟩
  cases x with
  | bytes old =>
    have h := homeServe_wf (s := s1) pa who true false h
    simp only
    generalize homeServe s1 pa true false who = r at h ⊢
    rcases r with ⟨y, s2⟩
    cases y <;> first | exact h | exact cellsAfterWrite_wf _ _ (memWrite_wf _ _ h)
  | bad => exact h
  | blocked => exact h
theorem atomHome_wf {s : State} (pa who op : Nat) (wide : Bool) (b c : Dword) (h : MemoryWf s) :
    MemoryWf (atomHome s pa who op wide b c).2 := by
  have h := homeUpdate_wf (s := s) pa (if wide then 8 else 4) who (fun old => atomBytes op wide old b c) h
  simp only [atomHome]
  generalize homeUpdate s pa (if wide then 8 else 4) who (fun old => atomBytes op wide old b c) = r at h ⊢
  rcases r with ⟨x, s1⟩
  cases x <;> exact h
theorem peerAtomic_wf {s : State} (d ea op : Nat) (wide : Bool) (b c : Dword) (h : MemoryWf s) :
    MemoryWf (peerAtomic s d ea op wide b c).2 := by
  simp only [peerAtomic]
  split
  · exact h
  · split
    · exact selfRequest_wf _ _ _ _ (fun _ _ ht => atomHome_wf _ _ _ _ _ _ ht) h
    · refine farRequest_wf _ _ _ _ (fun p pa => ?_) h
      by_cases hb : peerBad p pa (if wide then 8 else 4) = true
      · simp only [hb, if_true]; exact h
      · simp only [hb]; exact h
theorem hostAtomic_wf {s : State} (pa op : Nat) (wide : Bool) (b c : Dword) (h : MemoryWf s) :
    MemoryWf (hostAtomic s pa op wide b c).2 := by
  simp only [hostAtomic]
  split
  · exact h
  · split
    · exact hostWrite_wf _ _ h
    · exact h
theorem atomL2_wf {s : State} (cl ctx va : Nat) (l : Leaf) (op : Nat) (wide : Bool) (b c : Dword) (h : MemoryWf s) :
    MemoryWf (atomL2 s cl ctx va l op wide b c).2 := by
  have h := readThroughL2_wf cl ctx va (if wide then 8 else 4) l h
  simp only [atomL2]
  generalize readThroughL2 s cl ctx va (if wide then 8 else 4) l = r at h ⊢
  rcases r with ⟨x, s1⟩
  cases x with
  | bytes old =>
    simp only
    split
    · have h := homeWrite_wf (s := s1) (physical l va) cl (atomBytes op wide old b c) h
      generalize homeWrite s1 (physical l va) (atomBytes op wide old b c) cl = r at h ⊢
      rcases r with ⟨y, s2⟩
      cases y <;> first | exact h | exact l2WriteThrough_wf _ _ _ h
    · exact l2StoreLocal_wf _ _ _ _ _ h
  | bad => exact h
  | failed => exact h
  | blocked => exact h
  | unreachable r => exact h
theorem l1Remove_wf {s : State} (core pa : Nat) (h : MemoryWf s) : MemoryWf (l1Remove s core pa) := h
theorem atomAt_wf {s : State} (core ctx va : Nat) (l : Leaf) (scope op : Nat) (wide : Bool) (b c : Dword) (h : MemoryWf s) :
    MemoryWf (atomAt s core ctx va l scope op wide b c).2 := by
  have h := l1Remove_wf core (l1Key l va) h
  simp only [atomAt]
  split
  · exact peerAtomic_wf _ _ _ _ _ _ h
  · split
    · exact hostAtomic_wf _ _ _ _ _ h
    · split
      · exact atomHome_wf _ _ _ _ _ _ (l2Purge_wf _ _ h)
      · exact atomL2_wf _ _ _ _ _ _ _ _ h
theorem atomWindow_wf {s : State} (id : Nat) (bl : Block) (t : Target) (op : Nat) (wide : Bool) (b c : Dword) (h : MemoryWf s) :
    MemoryWf (atomWindow s id bl t op wide b c).2 := by
  have h := windowRead_wf (s := s) bl t (if wide then 8 else 4) h
  simp only [atomWindow]
  rcases hh : windowRead s bl t (if wide then 8 else 4) with ⟨r, s1⟩
  rw [hh] at h
  cases r with
  | bytes old => exact windowWrite_wf _ _ _ _ h
  | bad => exact h
  | blocked => exact h

/-! ### Requests to peers that leave, and errands -/

theorem peerLeave_wf {s t : State} {d ea : Nat} (h : MemoryWf s) (ht : peerLeave s d ea = some t) : MemoryWf t := by
  simp only [peerLeave] at ht
  repeat' split at ht
  all_goals first | (cases ht; exact h) | cases ht
theorem peerSend_wf {s : State} (d ea : Nat) (f : State → Reply × State) (hf : ∀ t, MemoryWf t → MemoryWf (f t).2)
    (h : MemoryWf s) : MemoryWf (peerSend s d ea f).2 := by
  simp only [peerSend]
  split
  · exact h
  · split
    · exact h
    · exact hf _ (peerLeave_wf h (by assumption))
theorem farSend_wf {s : State} (va : Nat) (l : Leaf) (f : State → Reply × State) (hf : ∀ t, MemoryWf t → MemoryWf (f t).2)
    (h : MemoryWf s) : MemoryWf (farSend va l f s).2 := by
  simp only [farSend]
  split
  · exact peerSend_wf _ _ _ hf h
  · exact hf _ h

/-- An errand that keeps the canonical form of the memories, whether it comes to its end, fails or waits. -/
def Errand.Keeps {α : Type} (f : Errand α) : Prop :=
  ∀ s, MemoryWf s → match f s with
    | .ok (_, t) => MemoryWf t
    | .error (.failed t) => MemoryWf t
    | .error (.waits t) => MemoryWf t

theorem keeps_pure {α : Type} (x : α) : Errand.Keeps (pure x) := fun _ h => h
theorem keeps_get : Errand.Keeps get := fun _ h => h
theorem keeps_fail {α : Type} : Errand.Keeps (Errand.fail : Errand α) := fun _ h => h
theorem keeps_wait {α : Type} : Errand.Keeps (Errand.wait : Errand α) := fun _ h => h
theorem keeps_free : Errand.Keeps Errand.free := fun _ h => h
theorem keeps_bind {α β : Type} {f : Errand α} {g : α → Errand β} (hf : f.Keeps) (hg : ∀ x, (g x).Keeps) : (f >>= g).Keeps := by
  intro s h
  have h1 := hf s h
  simp only [bind, StateT.bind, Except.bind]
  generalize f s = r at h1 ⊢
  match r with
  | .ok (x, t) => exact hg x t h1
  | .error (.failed t) => exact h1
  | .error (.waits t) => exact h1
theorem keeps_ite {α : Type} {c : Prop} [Decidable c] {f g : Errand α} (hf : f.Keeps) (hg : g.Keeps) :
    (if c then f else g).Keeps := by split <;> assumption
theorem keeps_attempt {α : Type} {f : Errand α} (hf : f.Keeps) : f.attempt.Keeps := by
  intro s h
  have h1 := hf s h
  simp only [Errand.attempt]
  generalize f s = r at h1 ⊢
  match r with
  | .ok (x, t) => exact h1
  | .error (.failed t) => exact h1
  | .error (.waits t) => exact h1
theorem keeps_ask {f : State → Reply × State} (hf : ∀ t, MemoryWf t → MemoryWf (f t).2) : (Errand.ask f).Keeps := by
  intro s h
  have h1 := hf s h
  simp only [Errand.ask]
  generalize f s = r at h1 ⊢
  rcases r with ⟨x, s1⟩
  cases x <;> exact h1

/-- The state that an errand's end leaves. -/
def ErrandEnd.state {α : Type} : ErrandEnd α → State
  | .done _ s => s
  | .failed s => s
  | .waits s => s

theorem untraced_wf {s : State} (h : MemoryWf s) : MemoryWf (untraced s) := h
theorem tracing_wf {s : State} (h : MemoryWf s) : MemoryWf (tracing s) := h
theorem replayServe_wf {r : List Settled × State} (e : Serve) (h : MemoryWf r.2) : MemoryWf (replayServe r e).2 := by
  have h := serveSector_wf (s := askAs r.2 e.asker) e.pa e.who e.write e.array (askAs_wf _ h)
  simp only [replayServe]
  generalize serveSector (askAs r.2 e.asker) e.pa e.write e.array e.who = q at h ⊢
  rcases q with ⟨x, s1⟩
  cases x <;> exact h
theorem keepServed_wf {s : State} (xs : List Settled) (h : MemoryWf s) : MemoryWf (keepServed s xs) := by
  induction xs with
  | nil => exact h
  | cons x xs ih => exact modStack_wf _ _ ih
theorem withWalks_wf {s : State} (t : State) (h : MemoryWf s) : MemoryWf (withWalks s t) := by
  simp only [withWalks]
  refine foldl_wf (fun u e hu => ?_) _ h
  exact hu
theorem orderServed_wf (s : State) {t : State} (h : MemoryWf t) : MemoryWf (orderServed s t) := by
  simp only [orderServed]
  exact foldl_wf (fun _ _ hu => modStack_wf _ _ hu) _ h

/-- A step that begins again leaves the memories as its start and its transfers left them. -/
theorem beginAgain_wf {s : State} (t : State) (h : MemoryWf s) : MemoryWf (beginAgain s t) := by
  have h1 : MemoryWf ((t.serves.getD []).reverse.foldl replayServe ([], s)).2 :=
    foldl_keeps (p := fun r : List Settled × State => MemoryWf r.2) (fun _ _ hr => replayServe_wf _ hr) _ h
  simp only [beginAgain]
  exact withWalks_wf _ (orderServed_wf _ (keepServed_wf _ h1))

/-- An errand that keeps the canonical form keeps it when it is run. -/
theorem runErrand_wf {α : Type} {f : Errand α} (hf : f.Keeps) (who : Asker) {s : State} (h : MemoryWf s) :
    MemoryWf (runErrand who f s).state := by
  have h1 := hf (tracing (askAs s who)) (tracing_wf (askAs_wf who h))
  simp only [runErrand]
  generalize f (tracing (askAs s who)) = r at h1 ⊢
  match r with
  | .ok (x, t) => exact forgetAsker_wf _ (askAs_wf _ h1)
  | .error (.failed t) => exact forgetAsker_wf _ (askAs_wf _ h1)
  | .error (.waits t) => exact beginAgain_wf t h

/-! ### Accesses of the distributor -/

theorem farPte_keeps (pa : Nat) : (farPte pa).Keeps := by
  exact keeps_ite (keeps_bind (keeps_ask (fun _ h => homeReply_wf (homeRead_wf _ _ _ h))) (fun _ => keeps_pure _)) (keeps_pure _)
theorem farRangePte_keeps (table idx pte : Nat) : (farRangePte table idx pte).Keeps := by
  refine keeps_bind keeps_get (fun s => ?_)
  exact keeps_ite (keeps_pure _) (keeps_bind keeps_free (fun _ => farPte_keeps _))
theorem foundLeaf_keeps (pte level : Nat) :
    Errand.Keeps (match leafOf pte level with | some l => pure l | none => Errand.fail) := by
  split
  · exact keeps_pure _
  · exact keeps_fail
theorem farWalk_keeps (va level table : Nat) : (farWalk va level table).Keeps := by
  induction level generalizing table with
  | zero =>
    unfold farWalk
    refine keeps_bind (farPte_keeps _) (fun pte => keeps_ite keeps_fail (keeps_ite (keeps_ite ?_ ?_) keeps_fail))
    · exact keeps_bind (farRangePte_keeps _ _ _) (fun _ => foundLeaf_keeps _ _)
    · exact keeps_bind (keeps_pure _) (fun _ => foundLeaf_keeps _ _)
  | succ level ih =>
    unfold farWalk
    refine keeps_bind (farPte_keeps _) (fun pte => keeps_ite keeps_fail (keeps_ite (keeps_ite ?_ ?_) (ih _)))
    · exact keeps_bind (farRangePte_keeps _ _ _) (fun _ => foundLeaf_keeps _ _)
    · exact keeps_bind (keeps_pure _) (fun _ => foundLeaf_keeps _ _)
theorem farLeaf_keeps (ctx va : Nat) (rd wr : Bool) : (farLeaf ctx va rd wr).Keeps := by
  unfold farLeaf
  split
  · exact keeps_bind keeps_get (fun _ => keeps_bind (farWalk_keeps _ _ _) (fun _ =>
      keeps_bind keeps_get (fun _ => keeps_ite (keeps_pure _) keeps_fail)))
  · exact keeps_fail
theorem farRead_keeps (ctx va n : Nat) : (farRead ctx va n).Keeps :=
  keeps_bind (farLeaf_keeps _ _ _ _) (fun _ => keeps_ask (fun _ h => farSend_wf _ _ _ (fun _ ht => readAtHome_wf _ _ _ _ ht) h))
theorem farPieces_keeps (ctx fuel va n : Nat) : (farPieces ctx fuel va n).Keeps := by
  induction fuel generalizing va n with
  | zero => exact keeps_pure _
  | succ fuel ih =>
    unfold farPieces
    exact keeps_ite (keeps_pure _) (keeps_bind (farRead_keeps _ _ _) (fun _ => keeps_bind (ih _ _) (fun _ => keeps_pure _)))
theorem farRange_keeps (ctx va n : Nat) : (farRange ctx va n).Keeps := farPieces_keeps _ _ _ _
theorem farWrite_keeps (ctx va : Nat) (bs : List Byte) : (farWrite ctx va bs).Keeps := by
  refine keeps_bind (farLeaf_keeps _ _ _ _) (fun l s h => ?_)
  have key : ∀ t, MemoryWf t → MemoryWf (farSend va l (fun s => storeHome s whoDevice va l bs) t).2 :=
    fun t ht => farSend_wf _ _ _ (fun _ hu => storeHome_wf _ _ _ _ hu) ht
  have h1 := key s h
  generalize farSend va l (fun s => storeHome s whoDevice va l bs) s = r at h1 ⊢
  rcases r with ⟨x, s1⟩
  cases x <;> first | exact h1 | exact freezeCtx_wf _ _ _ _ _ _ h1

/-- Memory after reset is in its canonical form. -/
theorem reset_wf : MemoryWf State.reset := ⟨rfl, rfl⟩

end Sys2Proof.Machine
end

