-- ==== Sys2Proof/Laws/PerInstr.lean ====
section
/-! SUPPORT. The family Encoding: the fields of an instruction word's encoding decode to the instruction, whatever second word
follows a one-word instruction. One lemma for each constructor. -/

/- Theorems are checked one after another: many at once ask for more memory than the check allows. -/
set_option Elab.async false

namespace Sys2Proof.Laws.Encoding

/-- The fields of the words that encode an instruction word choose that instruction (R77, R84, R85). -/
def Statement (i : Instr) : Prop :=
  i.isWord = true → ∀ w2, decodeFields ((encode i).headD 0) ((encode i).getD 1 w2) = some i

end Sys2Proof.Laws.Encoding

open Sys2Proof

theorem Sys2Proof.Laws.Encoding.add (g : BitVec 4) (d a b : BitVec 6) :
    Sys2Proof.Laws.Encoding.Statement (.add g d a b) := by
  intro _ w2
  change decodeFields (0#6 ++ g ++ d ++ a ++ b ++ 0#4 : BitVec 32) w2 = _
  rw [decodeFields_00 _ _ (by simp)]
  simp [decodeMajor00, minorOf]

theorem Sys2Proof.Laws.Encoding.sub (g : BitVec 4) (d a b : BitVec 6) :
    Sys2Proof.Laws.Encoding.Statement (.sub g d a b) := by
  intro _ w2
  change decodeFields (0#6 ++ g ++ d ++ a ++ b ++ 1#4 : BitVec 32) w2 = _
  rw [decodeFields_00 _ _ (by simp)]
  simp [decodeMajor00, minorOf]

theorem Sys2Proof.Laws.Encoding.mul (g : BitVec 4) (d a b : BitVec 6) :
    Sys2Proof.Laws.Encoding.Statement (.mul g d a b) := by
  intro _ w2
  change decodeFields (0#6 ++ g ++ d ++ a ++ b ++ 2#4 : BitVec 32) w2 = _
  rw [decodeFields_00 _ _ (by simp)]
  simp [decodeMajor00, minorOf]

theorem Sys2Proof.Laws.Encoding.mulh (g : BitVec 4) (d a b : BitVec 6) :
    Sys2Proof.Laws.Encoding.Statement (.mulh g d a b) := by
  intro _ w2
  change decodeFields (0#6 ++ g ++ d ++ a ++ b ++ 3#4 : BitVec 32) w2 = _
  rw [decodeFields_00 _ _ (by simp)]
  simp [decodeMajor00, minorOf]

theorem Sys2Proof.Laws.Encoding.mad (g : BitVec 4) (d a b : BitVec 6) :
    Sys2Proof.Laws.Encoding.Statement (.mad g d a b) := by
  intro _ w2
  change decodeFields (0#6 ++ g ++ d ++ a ++ b ++ 4#4 : BitVec 32) w2 = _
  rw [decodeFields_00 _ _ (by simp)]
  simp [decodeMajor00, minorOf]

theorem Sys2Proof.Laws.Encoding.min (g : BitVec 4) (d a b : BitVec 6) :
    Sys2Proof.Laws.Encoding.Statement (.min g d a b) := by
  intro _ w2
  change decodeFields (0#6 ++ g ++ d ++ a ++ b ++ 5#4 : BitVec 32) w2 = _
  rw [decodeFields_00 _ _ (by simp)]
  simp [decodeMajor00, minorOf]

theorem Sys2Proof.Laws.Encoding.max (g : BitVec 4) (d a b : BitVec 6) :
    Sys2Proof.Laws.Encoding.Statement (.max g d a b) := by
  intro _ w2
  change decodeFields (0#6 ++ g ++ d ++ a ++ b ++ 6#4 : BitVec 32) w2 = _
  rw [decodeFields_00 _ _ (by simp)]
  simp [decodeMajor00, minorOf]

theorem Sys2Proof.Laws.Encoding.abs (g : BitVec 4) (d b : BitVec 6) :
    Sys2Proof.Laws.Encoding.Statement (.abs g d b) := by
  intro _ w2
  change decodeFields (0#6 ++ g ++ d ++ 0#6 ++ b ++ 7#4 : BitVec 32) w2 = _
  rw [decodeFields_00 _ _ (by simp)]
  simp [decodeMajor00, minorOf]

theorem Sys2Proof.Laws.Encoding.neg (g : BitVec 4) (d b : BitVec 6) :
    Sys2Proof.Laws.Encoding.Statement (.neg g d b) := by
  intro _ w2
  change decodeFields (0#6 ++ g ++ d ++ 0#6 ++ b ++ 8#4 : BitVec 32) w2 = _
  rw [decodeFields_00 _ _ (by simp)]
  simp [decodeMajor00, minorOf]

theorem Sys2Proof.Laws.Encoding.div (g : BitVec 4) (d a b : BitVec 6) :
    Sys2Proof.Laws.Encoding.Statement (.div g d a b) := by
  intro _ w2
  change decodeFields (0#6 ++ g ++ d ++ a ++ b ++ 9#4 : BitVec 32) w2 = _
  rw [decodeFields_00 _ _ (by simp)]
  simp [decodeMajor00, minorOf]

theorem Sys2Proof.Laws.Encoding.rem (g : BitVec 4) (d a b : BitVec 6) :
    Sys2Proof.Laws.Encoding.Statement (.rem g d a b) := by
  intro _ w2
  change decodeFields (0#6 ++ g ++ d ++ a ++ b ++ 10#4 : BitVec 32) w2 = _
  rw [decodeFields_00 _ _ (by simp)]
  simp [decodeMajor00, minorOf]

theorem Sys2Proof.Laws.Encoding.lea (g : BitVec 4) (d a b : BitVec 6) :
    Sys2Proof.Laws.Encoding.Statement (.lea g d a b) := by
  intro _ w2
  change decodeFields (0#6 ++ g ++ d ++ a ++ b ++ 11#4 : BitVec 32) w2 = _
  rw [decodeFields_00 _ _ (by simp)]
  simp [decodeMajor00, minorOf]

theorem Sys2Proof.Laws.Encoding.sel (g : BitVec 4) (d a b : BitVec 6) :
    Sys2Proof.Laws.Encoding.Statement (.sel g d a b) := by
  intro _ w2
  change decodeFields (0#6 ++ g ++ d ++ a ++ b ++ 12#4 : BitVec 32) w2 = _
  rw [decodeFields_00 _ _ (by simp)]
  simp [decodeMajor00, minorOf]

theorem Sys2Proof.Laws.Encoding.mov (g : BitVec 4) (d b : BitVec 6) :
    Sys2Proof.Laws.Encoding.Statement (.mov g d b) := by
  intro _ w2
  change decodeFields (0#6 ++ g ++ d ++ 0#6 ++ b ++ 13#4 : BitVec 32) w2 = _
  rw [decodeFields_00 _ _ (by simp)]
  simp [decodeMajor00, minorOf]

theorem Sys2Proof.Laws.Encoding.addK (g : BitVec 4) (d a b : BitVec 6) :
    Sys2Proof.Laws.Encoding.Statement (.addK g d a b) := by
  intro _ w2
  change decodeFields (1#6 ++ g ++ d ++ a ++ b ++ 0#4 : BitVec 32) w2 = _
  rw [decodeFields_01 _ _ (by simp)]
  simp [decodeMajor01, minorOf]

theorem Sys2Proof.Laws.Encoding.subK (g : BitVec 4) (d a b : BitVec 6) :
    Sys2Proof.Laws.Encoding.Statement (.subK g d a b) := by
  intro _ w2
  change decodeFields (1#6 ++ g ++ d ++ a ++ b ++ 1#4 : BitVec 32) w2 = _
  rw [decodeFields_01 _ _ (by simp)]
  simp [decodeMajor01, minorOf]

theorem Sys2Proof.Laws.Encoding.mulK (g : BitVec 4) (d a b : BitVec 6) :
    Sys2Proof.Laws.Encoding.Statement (.mulK g d a b) := by
  intro _ w2
  change decodeFields (1#6 ++ g ++ d ++ a ++ b ++ 2#4 : BitVec 32) w2 = _
  rw [decodeFields_01 _ _ (by simp)]
  simp [decodeMajor01, minorOf]

theorem Sys2Proof.Laws.Encoding.mulhK (g : BitVec 4) (d a b : BitVec 6) :
    Sys2Proof.Laws.Encoding.Statement (.mulhK g d a b) := by
  intro _ w2
  change decodeFields (1#6 ++ g ++ d ++ a ++ b ++ 3#4 : BitVec 32) w2 = _
  rw [decodeFields_01 _ _ (by simp)]
  simp [decodeMajor01, minorOf]

theorem Sys2Proof.Laws.Encoding.madK (g : BitVec 4) (d a b : BitVec 6) :
    Sys2Proof.Laws.Encoding.Statement (.madK g d a b) := by
  intro _ w2
  change decodeFields (1#6 ++ g ++ d ++ a ++ b ++ 4#4 : BitVec 32) w2 = _
  rw [decodeFields_01 _ _ (by simp)]
  simp [decodeMajor01, minorOf]

theorem Sys2Proof.Laws.Encoding.minK (g : BitVec 4) (d a b : BitVec 6) :
    Sys2Proof.Laws.Encoding.Statement (.minK g d a b) := by
  intro _ w2
  change decodeFields (1#6 ++ g ++ d ++ a ++ b ++ 5#4 : BitVec 32) w2 = _
  rw [decodeFields_01 _ _ (by simp)]
  simp [decodeMajor01, minorOf]

theorem Sys2Proof.Laws.Encoding.maxK (g : BitVec 4) (d a b : BitVec 6) :
    Sys2Proof.Laws.Encoding.Statement (.maxK g d a b) := by
  intro _ w2
  change decodeFields (1#6 ++ g ++ d ++ a ++ b ++ 6#4 : BitVec 32) w2 = _
  rw [decodeFields_01 _ _ (by simp)]
  simp [decodeMajor01, minorOf]

theorem Sys2Proof.Laws.Encoding.absK (g : BitVec 4) (d b : BitVec 6) :
    Sys2Proof.Laws.Encoding.Statement (.absK g d b) := by
  intro _ w2
  change decodeFields (1#6 ++ g ++ d ++ 0#6 ++ b ++ 7#4 : BitVec 32) w2 = _
  rw [decodeFields_01 _ _ (by simp)]
  simp [decodeMajor01, minorOf]

theorem Sys2Proof.Laws.Encoding.negK (g : BitVec 4) (d b : BitVec 6) :
    Sys2Proof.Laws.Encoding.Statement (.negK g d b) := by
  intro _ w2
  change decodeFields (1#6 ++ g ++ d ++ 0#6 ++ b ++ 8#4 : BitVec 32) w2 = _
  rw [decodeFields_01 _ _ (by simp)]
  simp [decodeMajor01, minorOf]

theorem Sys2Proof.Laws.Encoding.divK (g : BitVec 4) (d a b : BitVec 6) :
    Sys2Proof.Laws.Encoding.Statement (.divK g d a b) := by
  intro _ w2
  change decodeFields (1#6 ++ g ++ d ++ a ++ b ++ 9#4 : BitVec 32) w2 = _
  rw [decodeFields_01 _ _ (by simp)]
  simp [decodeMajor01, minorOf]

theorem Sys2Proof.Laws.Encoding.remK (g : BitVec 4) (d a b : BitVec 6) :
    Sys2Proof.Laws.Encoding.Statement (.remK g d a b) := by
  intro _ w2
  change decodeFields (1#6 ++ g ++ d ++ a ++ b ++ 10#4 : BitVec 32) w2 = _
  rw [decodeFields_01 _ _ (by simp)]
  simp [decodeMajor01, minorOf]

theorem Sys2Proof.Laws.Encoding.leaK (g : BitVec 4) (d a b : BitVec 6) :
    Sys2Proof.Laws.Encoding.Statement (.leaK g d a b) := by
  intro _ w2
  change decodeFields (1#6 ++ g ++ d ++ a ++ b ++ 11#4 : BitVec 32) w2 = _
  rw [decodeFields_01 _ _ (by simp)]
  simp [decodeMajor01, minorOf]

theorem Sys2Proof.Laws.Encoding.selK (g : BitVec 4) (d a b : BitVec 6) :
    Sys2Proof.Laws.Encoding.Statement (.selK g d a b) := by
  intro _ w2
  change decodeFields (1#6 ++ g ++ d ++ a ++ b ++ 12#4 : BitVec 32) w2 = _
  rw [decodeFields_01 _ _ (by simp)]
  simp [decodeMajor01, minorOf]

theorem Sys2Proof.Laws.Encoding.movK (g : BitVec 4) (d b : BitVec 6) :
    Sys2Proof.Laws.Encoding.Statement (.movK g d b) := by
  intro _ w2
  change decodeFields (1#6 ++ g ++ d ++ 0#6 ++ b ++ 13#4 : BitVec 32) w2 = _
  rw [decodeFields_01 _ _ (by simp)]
  simp [decodeMajor01, minorOf]

theorem Sys2Proof.Laws.Encoding.and (g : BitVec 4) (d a b : BitVec 6) :
    Sys2Proof.Laws.Encoding.Statement (.and g d a b) := by
  intro _ w2
  change decodeFields (2#6 ++ g ++ d ++ a ++ b ++ 0#4 : BitVec 32) w2 = _
  rw [decodeFields_02 _ _ (by simp)]
  simp [decodeMajor02, minorOf]

theorem Sys2Proof.Laws.Encoding.or (g : BitVec 4) (d a b : BitVec 6) :
    Sys2Proof.Laws.Encoding.Statement (.or g d a b) := by
  intro _ w2
  change decodeFields (2#6 ++ g ++ d ++ a ++ b ++ 1#4 : BitVec 32) w2 = _
  rw [decodeFields_02 _ _ (by simp)]
  simp [decodeMajor02, minorOf]

theorem Sys2Proof.Laws.Encoding.xor (g : BitVec 4) (d a b : BitVec 6) :
    Sys2Proof.Laws.Encoding.Statement (.xor g d a b) := by
  intro _ w2
  change decodeFields (2#6 ++ g ++ d ++ a ++ b ++ 2#4 : BitVec 32) w2 = _
  rw [decodeFields_02 _ _ (by simp)]
  simp [decodeMajor02, minorOf]

theorem Sys2Proof.Laws.Encoding.andn (g : BitVec 4) (d a b : BitVec 6) :
    Sys2Proof.Laws.Encoding.Statement (.andn g d a b) := by
  intro _ w2
  change decodeFields (2#6 ++ g ++ d ++ a ++ b ++ 3#4 : BitVec 32) w2 = _
  rw [decodeFields_02 _ _ (by simp)]
  simp [decodeMajor02, minorOf]

theorem Sys2Proof.Laws.Encoding.shl (g : BitVec 4) (d a b : BitVec 6) :
    Sys2Proof.Laws.Encoding.Statement (.shl g d a b) := by
  intro _ w2
  change decodeFields (2#6 ++ g ++ d ++ a ++ b ++ 4#4 : BitVec 32) w2 = _
  rw [decodeFields_02 _ _ (by simp)]
  simp [decodeMajor02, minorOf]

theorem Sys2Proof.Laws.Encoding.shr (g : BitVec 4) (d a b : BitVec 6) :
    Sys2Proof.Laws.Encoding.Statement (.shr g d a b) := by
  intro _ w2
  change decodeFields (2#6 ++ g ++ d ++ a ++ b ++ 5#4 : BitVec 32) w2 = _
  rw [decodeFields_02 _ _ (by simp)]
  simp [decodeMajor02, minorOf]

theorem Sys2Proof.Laws.Encoding.sra (g : BitVec 4) (d a b : BitVec 6) :
    Sys2Proof.Laws.Encoding.Statement (.sra g d a b) := by
  intro _ w2
  change decodeFields (2#6 ++ g ++ d ++ a ++ b ++ 6#4 : BitVec 32) w2 = _
  rw [decodeFields_02 _ _ (by simp)]
  simp [decodeMajor02, minorOf]

theorem Sys2Proof.Laws.Encoding.rot (g : BitVec 4) (d a b : BitVec 6) :
    Sys2Proof.Laws.Encoding.Statement (.rot g d a b) := by
  intro _ w2
  change decodeFields (2#6 ++ g ++ d ++ a ++ b ++ 7#4 : BitVec 32) w2 = _
  rw [decodeFields_02 _ _ (by simp)]
  simp [decodeMajor02, minorOf]

theorem Sys2Proof.Laws.Encoding.bfe (g : BitVec 4) (d a b : BitVec 6) :
    Sys2Proof.Laws.Encoding.Statement (.bfe g d a b) := by
  intro _ w2
  change decodeFields (2#6 ++ g ++ d ++ a ++ b ++ 8#4 : BitVec 32) w2 = _
  rw [decodeFields_02 _ _ (by simp)]
  simp [decodeMajor02, minorOf]

theorem Sys2Proof.Laws.Encoding.bfi (g : BitVec 4) (d a b : BitVec 6) :
    Sys2Proof.Laws.Encoding.Statement (.bfi g d a b) := by
  intro _ w2
  change decodeFields (2#6 ++ g ++ d ++ a ++ b ++ 9#4 : BitVec 32) w2 = _
  rw [decodeFields_02 _ _ (by simp)]
  simp [decodeMajor02, minorOf]

theorem Sys2Proof.Laws.Encoding.popc (g : BitVec 4) (d b : BitVec 6) :
    Sys2Proof.Laws.Encoding.Statement (.popc g d b) := by
  intro _ w2
  change decodeFields (2#6 ++ g ++ d ++ 0#6 ++ b ++ 10#4 : BitVec 32) w2 = _
  rw [decodeFields_02 _ _ (by simp)]
  simp [decodeMajor02, minorOf]

theorem Sys2Proof.Laws.Encoding.clz (g : BitVec 4) (d b : BitVec 6) :
    Sys2Proof.Laws.Encoding.Statement (.clz g d b) := by
  intro _ w2
  change decodeFields (2#6 ++ g ++ d ++ 0#6 ++ b ++ 11#4 : BitVec 32) w2 = _
  rw [decodeFields_02 _ _ (by simp)]
  simp [decodeMajor02, minorOf]

theorem Sys2Proof.Laws.Encoding.brev (g : BitVec 4) (d b : BitVec 6) :
    Sys2Proof.Laws.Encoding.Statement (.brev g d b) := by
  intro _ w2
  change decodeFields (2#6 ++ g ++ d ++ 0#6 ++ b ++ 12#4 : BitVec 32) w2 = _
  rw [decodeFields_02 _ _ (by simp)]
  simp [decodeMajor02, minorOf]

theorem Sys2Proof.Laws.Encoding.andK (g : BitVec 4) (d a b : BitVec 6) :
    Sys2Proof.Laws.Encoding.Statement (.andK g d a b) := by
  intro _ w2
  change decodeFields (3#6 ++ g ++ d ++ a ++ b ++ 0#4 : BitVec 32) w2 = _
  rw [decodeFields_03 _ _ (by simp)]
  simp [decodeMajor03, minorOf]

theorem Sys2Proof.Laws.Encoding.orK (g : BitVec 4) (d a b : BitVec 6) :
    Sys2Proof.Laws.Encoding.Statement (.orK g d a b) := by
  intro _ w2
  change decodeFields (3#6 ++ g ++ d ++ a ++ b ++ 1#4 : BitVec 32) w2 = _
  rw [decodeFields_03 _ _ (by simp)]
  simp [decodeMajor03, minorOf]

theorem Sys2Proof.Laws.Encoding.xorK (g : BitVec 4) (d a b : BitVec 6) :
    Sys2Proof.Laws.Encoding.Statement (.xorK g d a b) := by
  intro _ w2
  change decodeFields (3#6 ++ g ++ d ++ a ++ b ++ 2#4 : BitVec 32) w2 = _
  rw [decodeFields_03 _ _ (by simp)]
  simp [decodeMajor03, minorOf]

theorem Sys2Proof.Laws.Encoding.andnK (g : BitVec 4) (d a b : BitVec 6) :
    Sys2Proof.Laws.Encoding.Statement (.andnK g d a b) := by
  intro _ w2
  change decodeFields (3#6 ++ g ++ d ++ a ++ b ++ 3#4 : BitVec 32) w2 = _
  rw [decodeFields_03 _ _ (by simp)]
  simp [decodeMajor03, minorOf]

theorem Sys2Proof.Laws.Encoding.shlK (g : BitVec 4) (d a b : BitVec 6) :
    Sys2Proof.Laws.Encoding.Statement (.shlK g d a b) := by
  intro _ w2
  change decodeFields (3#6 ++ g ++ d ++ a ++ b ++ 4#4 : BitVec 32) w2 = _
  rw [decodeFields_03 _ _ (by simp)]
  simp [decodeMajor03, minorOf]

theorem Sys2Proof.Laws.Encoding.shrK (g : BitVec 4) (d a b : BitVec 6) :
    Sys2Proof.Laws.Encoding.Statement (.shrK g d a b) := by
  intro _ w2
  change decodeFields (3#6 ++ g ++ d ++ a ++ b ++ 5#4 : BitVec 32) w2 = _
  rw [decodeFields_03 _ _ (by simp)]
  simp [decodeMajor03, minorOf]

theorem Sys2Proof.Laws.Encoding.sraK (g : BitVec 4) (d a b : BitVec 6) :
    Sys2Proof.Laws.Encoding.Statement (.sraK g d a b) := by
  intro _ w2
  change decodeFields (3#6 ++ g ++ d ++ a ++ b ++ 6#4 : BitVec 32) w2 = _
  rw [decodeFields_03 _ _ (by simp)]
  simp [decodeMajor03, minorOf]

theorem Sys2Proof.Laws.Encoding.rotK (g : BitVec 4) (d a b : BitVec 6) :
    Sys2Proof.Laws.Encoding.Statement (.rotK g d a b) := by
  intro _ w2
  change decodeFields (3#6 ++ g ++ d ++ a ++ b ++ 7#4 : BitVec 32) w2 = _
  rw [decodeFields_03 _ _ (by simp)]
  simp [decodeMajor03, minorOf]

theorem Sys2Proof.Laws.Encoding.bfeK (g : BitVec 4) (d a b : BitVec 6) :
    Sys2Proof.Laws.Encoding.Statement (.bfeK g d a b) := by
  intro _ w2
  change decodeFields (3#6 ++ g ++ d ++ a ++ b ++ 8#4 : BitVec 32) w2 = _
  rw [decodeFields_03 _ _ (by simp)]
  simp [decodeMajor03, minorOf]

theorem Sys2Proof.Laws.Encoding.bfiK (g : BitVec 4) (d a b : BitVec 6) :
    Sys2Proof.Laws.Encoding.Statement (.bfiK g d a b) := by
  intro _ w2
  change decodeFields (3#6 ++ g ++ d ++ a ++ b ++ 9#4 : BitVec 32) w2 = _
  rw [decodeFields_03 _ _ (by simp)]
  simp [decodeMajor03, minorOf]

theorem Sys2Proof.Laws.Encoding.popcK (g : BitVec 4) (d b : BitVec 6) :
    Sys2Proof.Laws.Encoding.Statement (.popcK g d b) := by
  intro _ w2
  change decodeFields (3#6 ++ g ++ d ++ 0#6 ++ b ++ 10#4 : BitVec 32) w2 = _
  rw [decodeFields_03 _ _ (by simp)]
  simp [decodeMajor03, minorOf]

theorem Sys2Proof.Laws.Encoding.clzK (g : BitVec 4) (d b : BitVec 6) :
    Sys2Proof.Laws.Encoding.Statement (.clzK g d b) := by
  intro _ w2
  change decodeFields (3#6 ++ g ++ d ++ 0#6 ++ b ++ 11#4 : BitVec 32) w2 = _
  rw [decodeFields_03 _ _ (by simp)]
  simp [decodeMajor03, minorOf]

theorem Sys2Proof.Laws.Encoding.brevK (g : BitVec 4) (d b : BitVec 6) :
    Sys2Proof.Laws.Encoding.Statement (.brevK g d b) := by
  intro _ w2
  change decodeFields (3#6 ++ g ++ d ++ 0#6 ++ b ++ 12#4 : BitVec 32) w2 = _
  rw [decodeFields_03 _ _ (by simp)]
  simp [decodeMajor03, minorOf]

theorem Sys2Proof.Laws.Encoding.add64 (g : BitVec 4) (d a b : BitVec 6) :
    Sys2Proof.Laws.Encoding.Statement (.add64 g d a b) := by
  intro _ w2
  change decodeFields (4#6 ++ g ++ d ++ a ++ b ++ 0#4 : BitVec 32) w2 = _
  rw [decodeFields_04 _ _ (by simp)]
  simp [decodeMajor04, minorOf]

theorem Sys2Proof.Laws.Encoding.sub64 (g : BitVec 4) (d a b : BitVec 6) :
    Sys2Proof.Laws.Encoding.Statement (.sub64 g d a b) := by
  intro _ w2
  change decodeFields (4#6 ++ g ++ d ++ a ++ b ++ 1#4 : BitVec 32) w2 = _
  rw [decodeFields_04 _ _ (by simp)]
  simp [decodeMajor04, minorOf]

theorem Sys2Proof.Laws.Encoding.mul64 (g : BitVec 4) (d a b : BitVec 6) :
    Sys2Proof.Laws.Encoding.Statement (.mul64 g d a b) := by
  intro _ w2
  change decodeFields (4#6 ++ g ++ d ++ a ++ b ++ 2#4 : BitVec 32) w2 = _
  rw [decodeFields_04 _ _ (by simp)]
  simp [decodeMajor04, minorOf]

theorem Sys2Proof.Laws.Encoding.mulh64 (g : BitVec 4) (d a b : BitVec 6) :
    Sys2Proof.Laws.Encoding.Statement (.mulh64 g d a b) := by
  intro _ w2
  change decodeFields (4#6 ++ g ++ d ++ a ++ b ++ 3#4 : BitVec 32) w2 = _
  rw [decodeFields_04 _ _ (by simp)]
  simp [decodeMajor04, minorOf]

theorem Sys2Proof.Laws.Encoding.min64 (g : BitVec 4) (d a b : BitVec 6) :
    Sys2Proof.Laws.Encoding.Statement (.min64 g d a b) := by
  intro _ w2
  change decodeFields (4#6 ++ g ++ d ++ a ++ b ++ 4#4 : BitVec 32) w2 = _
  rw [decodeFields_04 _ _ (by simp)]
  simp [decodeMajor04, minorOf]

theorem Sys2Proof.Laws.Encoding.max64 (g : BitVec 4) (d a b : BitVec 6) :
    Sys2Proof.Laws.Encoding.Statement (.max64 g d a b) := by
  intro _ w2
  change decodeFields (4#6 ++ g ++ d ++ a ++ b ++ 5#4 : BitVec 32) w2 = _
  rw [decodeFields_04 _ _ (by simp)]
  simp [decodeMajor04, minorOf]

theorem Sys2Proof.Laws.Encoding.shl64 (g : BitVec 4) (d a b : BitVec 6) :
    Sys2Proof.Laws.Encoding.Statement (.shl64 g d a b) := by
  intro _ w2
  change decodeFields (4#6 ++ g ++ d ++ a ++ b ++ 6#4 : BitVec 32) w2 = _
  rw [decodeFields_04 _ _ (by simp)]
  simp [decodeMajor04, minorOf]

theorem Sys2Proof.Laws.Encoding.shr64 (g : BitVec 4) (d a b : BitVec 6) :
    Sys2Proof.Laws.Encoding.Statement (.shr64 g d a b) := by
  intro _ w2
  change decodeFields (4#6 ++ g ++ d ++ a ++ b ++ 7#4 : BitVec 32) w2 = _
  rw [decodeFields_04 _ _ (by simp)]
  simp [decodeMajor04, minorOf]

theorem Sys2Proof.Laws.Encoding.sra64 (g : BitVec 4) (d a b : BitVec 6) :
    Sys2Proof.Laws.Encoding.Statement (.sra64 g d a b) := by
  intro _ w2
  change decodeFields (4#6 ++ g ++ d ++ a ++ b ++ 8#4 : BitVec 32) w2 = _
  rw [decodeFields_04 _ _ (by simp)]
  simp [decodeMajor04, minorOf]

theorem Sys2Proof.Laws.Encoding.addImm (g : BitVec 4) (d a : BitVec 6) (imm : BitVec 10) :
    Sys2Proof.Laws.Encoding.Statement (.addImm g d a imm) := by
  intro _ w2
  change decodeFields (5#6 ++ g ++ d ++ a ++ imm : BitVec 32) w2 = _
  rw [decodeFields_05 _ _ (by simp)]
  simp

theorem Sys2Proof.Laws.Encoding.andImm (g : BitVec 4) (d a : BitVec 6) (imm : BitVec 10) :
    Sys2Proof.Laws.Encoding.Statement (.andImm g d a imm) := by
  intro _ w2
  change decodeFields (6#6 ++ g ++ d ++ a ++ imm : BitVec 32) w2 = _
  rw [decodeFields_06 _ _ (by simp)]
  simp

theorem Sys2Proof.Laws.Encoding.orImm (g : BitVec 4) (d a : BitVec 6) (imm : BitVec 10) :
    Sys2Proof.Laws.Encoding.Statement (.orImm g d a imm) := by
  intro _ w2
  change decodeFields (7#6 ++ g ++ d ++ a ++ imm : BitVec 32) w2 = _
  rw [decodeFields_07 _ _ (by simp)]
  simp

theorem Sys2Proof.Laws.Encoding.xorImm (g : BitVec 4) (d a : BitVec 6) (imm : BitVec 10) :
    Sys2Proof.Laws.Encoding.Statement (.xorImm g d a imm) := by
  intro _ w2
  change decodeFields (8#6 ++ g ++ d ++ a ++ imm : BitVec 32) w2 = _
  rw [decodeFields_08 _ _ (by simp)]
  simp

theorem Sys2Proof.Laws.Encoding.shlImm (g : BitVec 4) (d a : BitVec 6) (w : BitVec 1) (amt : BitVec 6) :
    Sys2Proof.Laws.Encoding.Statement (.shlImm g d a w amt) := by
  intro _ w2
  change decodeFields (9#6 ++ g ++ d ++ a ++ 0#3 ++ w ++ amt : BitVec 32) w2 = _
  rw [decodeFields_09 _ _ (by simp)]
  simp [decodeMajor09]

theorem Sys2Proof.Laws.Encoding.shrImm (g : BitVec 4) (d a : BitVec 6) (w : BitVec 1) (amt : BitVec 6) :
    Sys2Proof.Laws.Encoding.Statement (.shrImm g d a w amt) := by
  intro _ w2
  change decodeFields (9#6 ++ g ++ d ++ a ++ 2#3 ++ w ++ amt : BitVec 32) w2 = _
  rw [decodeFields_09 _ _ (by simp)]
  simp [decodeMajor09]

theorem Sys2Proof.Laws.Encoding.sraImm (g : BitVec 4) (d a : BitVec 6) (w : BitVec 1) (amt : BitVec 6) :
    Sys2Proof.Laws.Encoding.Statement (.sraImm g d a w amt) := by
  intro _ w2
  change decodeFields (9#6 ++ g ++ d ++ a ++ 4#3 ++ w ++ amt : BitVec 32) w2 = _
  rw [decodeFields_09 _ _ (by simp)]
  simp [decodeMajor09]

theorem Sys2Proof.Laws.Encoding.rotImm (g : BitVec 4) (d a : BitVec 6) (w : BitVec 1) (amt : BitVec 6) :
    Sys2Proof.Laws.Encoding.Statement (.rotImm g d a w amt) := by
  intro _ w2
  change decodeFields (9#6 ++ g ++ d ++ a ++ 6#3 ++ w ++ amt : BitVec 32) w2 = _
  rw [decodeFields_09 _ _ (by simp)]
  simp [decodeMajor09]

theorem Sys2Proof.Laws.Encoding.movi (g : BitVec 4) (d : BitVec 6) (imm : BitVec 16) :
    Sys2Proof.Laws.Encoding.Statement (.movi g d imm) := by
  intro _ w2
  change decodeFields (10#6 ++ g ++ d ++ imm : BitVec 32) w2 = _
  rw [decodeFields_0A _ _ (by simp)]
  simp

theorem Sys2Proof.Laws.Encoding.movh (g : BitVec 4) (d : BitVec 6) (imm : BitVec 16) :
    Sys2Proof.Laws.Encoding.Statement (.movh g d imm) := by
  intro _ w2
  change decodeFields (11#6 ++ g ++ d ++ imm : BitVec 32) w2 = _
  rw [decodeFields_0B _ _ (by simp)]
  simp

theorem Sys2Proof.Laws.Encoding.cmp (g : BitVec 4) (pd : BitVec 3) (w : BitVec 1) (comb : BitVec 2) (a b : BitVec 6) (cond : BitVec 4) :
    Sys2Proof.Laws.Encoding.Statement (.cmp g pd w comb a b cond) := by
  intro _ w2
  change decodeFields (12#6 ++ g ++ pd ++ w ++ comb ++ a ++ b ++ cond : BitVec 32) w2 = _
  rw [decodeFields_0C _ _ (by simp)]
  simp

theorem Sys2Proof.Laws.Encoding.cmpImm (g : BitVec 4) (pd cond : BitVec 3) (a : BitVec 6) (imm : BitVec 10) :
    Sys2Proof.Laws.Encoding.Statement (.cmpImm g pd cond a imm) := by
  intro _ w2
  change decodeFields (13#6 ++ g ++ pd ++ cond ++ a ++ imm : BitVec 32) w2 = _
  rw [decodeFields_0D _ _ (by simp)]
  simp

theorem Sys2Proof.Laws.Encoding.plop (g : BitVec 4) (pd pa pb : BitVec 3) (na nb : BitVec 1) (op : BitVec 2) :
    Sys2Proof.Laws.Encoding.Statement (.plop g pd pa pb na nb op) := by
  intro _ w2
  change decodeFields (14#6 ++ g ++ pd ++ pa ++ pb ++ na ++ nb ++ op ++ 0#9 : BitVec 32) w2 = _
  rw [decodeFields_0E _ _ (by simp)]
  simp [decodeMajor0E, minorOf]

theorem Sys2Proof.Laws.Encoding.pmovv (g : BitVec 4) (d : BitVec 6) :
    Sys2Proof.Laws.Encoding.Statement (.pmovv g d) := by
  intro _ w2
  change decodeFields (14#6 ++ g ++ d ++ 1#16 : BitVec 32) w2 = _
  rw [decodeFields_0E _ _ (by simp)]
  simp [decodeMajor0E, minorOf]

theorem Sys2Proof.Laws.Encoding.vpmov (g : BitVec 4) (mask : BitVec 7) (a : BitVec 6) :
    Sys2Proof.Laws.Encoding.Statement (.vpmov g mask a) := by
  intro _ w2
  change decodeFields (14#6 ++ g ++ mask ++ a ++ 2#9 : BitVec 32) w2 = _
  rw [decodeFields_0E _ _ (by simp)]
  simp [decodeMajor0E, minorOf]

theorem Sys2Proof.Laws.Encoding.kmov (g : BitVec 4) (d a : BitVec 6) :
    Sys2Proof.Laws.Encoding.Statement (.kmov g d a) := by
  intro _ w2
  change decodeFields (15#6 ++ g ++ d ++ 0#1 ++ a ++ 0#9 : BitVec 32) w2 = _
  rw [decodeFields_0F _ _ (by simp)]
  simp only [decodeMajor0F, bit_as_field]
  simp [minorOf]

theorem Sys2Proof.Laws.Encoding.kmovImm (g : BitVec 4) (d : BitVec 6) (imm : BitVec 11) :
    Sys2Proof.Laws.Encoding.Statement (.kmovImm g d imm) := by
  intro _ w2
  change decodeFields (15#6 ++ g ++ d ++ 1#1 ++ imm ++ 0#4 : BitVec 32) w2 = _
  rw [decodeFields_0F _ _ (by simp)]
  simp only [decodeMajor0F, bit_as_field]
  simp [minorOf]

theorem Sys2Proof.Laws.Encoding.klane (g : BitVec 4) (d a b : BitVec 6) :
    Sys2Proof.Laws.Encoding.Statement (.klane g d a b) := by
  intro _ w2
  change decodeFields (15#6 ++ g ++ d ++ a ++ b ++ 1#4 : BitVec 32) w2 = _
  rw [decodeFields_0F _ _ (by simp)]
  simp [decodeMajor0F, minorOf]

theorem Sys2Proof.Laws.Encoding.fadd (g : BitVec 4) (d a b : BitVec 6) :
    Sys2Proof.Laws.Encoding.Statement (.fadd g d a b) := by
  intro _ w2
  change decodeFields (16#6 ++ g ++ d ++ a ++ b ++ 0#4 : BitVec 32) w2 = _
  rw [decodeFields_10 _ _ (by simp)]
  simp [decodeMajor10, minorOf]

theorem Sys2Proof.Laws.Encoding.fsub (g : BitVec 4) (d a b : BitVec 6) :
    Sys2Proof.Laws.Encoding.Statement (.fsub g d a b) := by
  intro _ w2
  change decodeFields (16#6 ++ g ++ d ++ a ++ b ++ 1#4 : BitVec 32) w2 = _
  rw [decodeFields_10 _ _ (by simp)]
  simp [decodeMajor10, minorOf]

theorem Sys2Proof.Laws.Encoding.fmul (g : BitVec 4) (d a b : BitVec 6) :
    Sys2Proof.Laws.Encoding.Statement (.fmul g d a b) := by
  intro _ w2
  change decodeFields (16#6 ++ g ++ d ++ a ++ b ++ 2#4 : BitVec 32) w2 = _
  rw [decodeFields_10 _ _ (by simp)]
  simp [decodeMajor10, minorOf]

theorem Sys2Proof.Laws.Encoding.ffma (g : BitVec 4) (d a b : BitVec 6) :
    Sys2Proof.Laws.Encoding.Statement (.ffma g d a b) := by
  intro _ w2
  change decodeFields (16#6 ++ g ++ d ++ a ++ b ++ 3#4 : BitVec 32) w2 = _
  rw [decodeFields_10 _ _ (by simp)]
  simp [decodeMajor10, minorOf]

theorem Sys2Proof.Laws.Encoding.fmin (g : BitVec 4) (d a b : BitVec 6) :
    Sys2Proof.Laws.Encoding.Statement (.fmin g d a b) := by
  intro _ w2
  change decodeFields (16#6 ++ g ++ d ++ a ++ b ++ 4#4 : BitVec 32) w2 = _
  rw [decodeFields_10 _ _ (by simp)]
  simp [decodeMajor10, minorOf]

theorem Sys2Proof.Laws.Encoding.fmax (g : BitVec 4) (d a b : BitVec 6) :
    Sys2Proof.Laws.Encoding.Statement (.fmax g d a b) := by
  intro _ w2
  change decodeFields (16#6 ++ g ++ d ++ a ++ b ++ 5#4 : BitVec 32) w2 = _
  rw [decodeFields_10 _ _ (by simp)]
  simp [decodeMajor10, minorOf]

theorem Sys2Proof.Laws.Encoding.fabs (g : BitVec 4) (d b : BitVec 6) :
    Sys2Proof.Laws.Encoding.Statement (.fabs g d b) := by
  intro _ w2
  change decodeFields (16#6 ++ g ++ d ++ 0#6 ++ b ++ 6#4 : BitVec 32) w2 = _
  rw [decodeFields_10 _ _ (by simp)]
  simp [decodeMajor10, minorOf]

theorem Sys2Proof.Laws.Encoding.fneg (g : BitVec 4) (d b : BitVec 6) :
    Sys2Proof.Laws.Encoding.Statement (.fneg g d b) := by
  intro _ w2
  change decodeFields (16#6 ++ g ++ d ++ 0#6 ++ b ++ 7#4 : BitVec 32) w2 = _
  rw [decodeFields_10 _ _ (by simp)]
  simp [decodeMajor10, minorOf]

theorem Sys2Proof.Laws.Encoding.faddK (g : BitVec 4) (d a b : BitVec 6) :
    Sys2Proof.Laws.Encoding.Statement (.faddK g d a b) := by
  intro _ w2
  change decodeFields (17#6 ++ g ++ d ++ a ++ b ++ 0#4 : BitVec 32) w2 = _
  rw [decodeFields_11 _ _ (by simp)]
  simp [decodeMajor11, minorOf]

theorem Sys2Proof.Laws.Encoding.fsubK (g : BitVec 4) (d a b : BitVec 6) :
    Sys2Proof.Laws.Encoding.Statement (.fsubK g d a b) := by
  intro _ w2
  change decodeFields (17#6 ++ g ++ d ++ a ++ b ++ 1#4 : BitVec 32) w2 = _
  rw [decodeFields_11 _ _ (by simp)]
  simp [decodeMajor11, minorOf]

theorem Sys2Proof.Laws.Encoding.fmulK (g : BitVec 4) (d a b : BitVec 6) :
    Sys2Proof.Laws.Encoding.Statement (.fmulK g d a b) := by
  intro _ w2
  change decodeFields (17#6 ++ g ++ d ++ a ++ b ++ 2#4 : BitVec 32) w2 = _
  rw [decodeFields_11 _ _ (by simp)]
  simp [decodeMajor11, minorOf]

theorem Sys2Proof.Laws.Encoding.ffmaK (g : BitVec 4) (d a b : BitVec 6) :
    Sys2Proof.Laws.Encoding.Statement (.ffmaK g d a b) := by
  intro _ w2
  change decodeFields (17#6 ++ g ++ d ++ a ++ b ++ 3#4 : BitVec 32) w2 = _
  rw [decodeFields_11 _ _ (by simp)]
  simp [decodeMajor11, minorOf]

theorem Sys2Proof.Laws.Encoding.fminK (g : BitVec 4) (d a b : BitVec 6) :
    Sys2Proof.Laws.Encoding.Statement (.fminK g d a b) := by
  intro _ w2
  change decodeFields (17#6 ++ g ++ d ++ a ++ b ++ 4#4 : BitVec 32) w2 = _
  rw [decodeFields_11 _ _ (by simp)]
  simp [decodeMajor11, minorOf]

theorem Sys2Proof.Laws.Encoding.fmaxK (g : BitVec 4) (d a b : BitVec 6) :
    Sys2Proof.Laws.Encoding.Statement (.fmaxK g d a b) := by
  intro _ w2
  change decodeFields (17#6 ++ g ++ d ++ a ++ b ++ 5#4 : BitVec 32) w2 = _
  rw [decodeFields_11 _ _ (by simp)]
  simp [decodeMajor11, minorOf]

theorem Sys2Proof.Laws.Encoding.fabsK (g : BitVec 4) (d b : BitVec 6) :
    Sys2Proof.Laws.Encoding.Statement (.fabsK g d b) := by
  intro _ w2
  change decodeFields (17#6 ++ g ++ d ++ 0#6 ++ b ++ 6#4 : BitVec 32) w2 = _
  rw [decodeFields_11 _ _ (by simp)]
  simp [decodeMajor11, minorOf]

theorem Sys2Proof.Laws.Encoding.fnegK (g : BitVec 4) (d b : BitVec 6) :
    Sys2Proof.Laws.Encoding.Statement (.fnegK g d b) := by
  intro _ w2
  change decodeFields (17#6 ++ g ++ d ++ 0#6 ++ b ++ 7#4 : BitVec 32) w2 = _
  rw [decodeFields_11 _ _ (by simp)]
  simp [decodeMajor11, minorOf]

theorem Sys2Proof.Laws.Encoding.faddF16x2 (g : BitVec 4) (d a b : BitVec 6) :
    Sys2Proof.Laws.Encoding.Statement (.faddF16x2 g d a b) := by
  intro _ w2
  change decodeFields (18#6 ++ g ++ d ++ a ++ b ++ 0#4 : BitVec 32) w2 = _
  rw [decodeFields_12 _ _ (by simp)]
  simp [decodeMajor12, minorOf]

theorem Sys2Proof.Laws.Encoding.fsubF16x2 (g : BitVec 4) (d a b : BitVec 6) :
    Sys2Proof.Laws.Encoding.Statement (.fsubF16x2 g d a b) := by
  intro _ w2
  change decodeFields (18#6 ++ g ++ d ++ a ++ b ++ 1#4 : BitVec 32) w2 = _
  rw [decodeFields_12 _ _ (by simp)]
  simp [decodeMajor12, minorOf]

theorem Sys2Proof.Laws.Encoding.fmulF16x2 (g : BitVec 4) (d a b : BitVec 6) :
    Sys2Proof.Laws.Encoding.Statement (.fmulF16x2 g d a b) := by
  intro _ w2
  change decodeFields (18#6 ++ g ++ d ++ a ++ b ++ 2#4 : BitVec 32) w2 = _
  rw [decodeFields_12 _ _ (by simp)]
  simp [decodeMajor12, minorOf]

theorem Sys2Proof.Laws.Encoding.ffmaF16x2 (g : BitVec 4) (d a b : BitVec 6) :
    Sys2Proof.Laws.Encoding.Statement (.ffmaF16x2 g d a b) := by
  intro _ w2
  change decodeFields (18#6 ++ g ++ d ++ a ++ b ++ 3#4 : BitVec 32) w2 = _
  rw [decodeFields_12 _ _ (by simp)]
  simp [decodeMajor12, minorOf]

theorem Sys2Proof.Laws.Encoding.fminF16x2 (g : BitVec 4) (d a b : BitVec 6) :
    Sys2Proof.Laws.Encoding.Statement (.fminF16x2 g d a b) := by
  intro _ w2
  change decodeFields (18#6 ++ g ++ d ++ a ++ b ++ 4#4 : BitVec 32) w2 = _
  rw [decodeFields_12 _ _ (by simp)]
  simp [decodeMajor12, minorOf]

theorem Sys2Proof.Laws.Encoding.fmaxF16x2 (g : BitVec 4) (d a b : BitVec 6) :
    Sys2Proof.Laws.Encoding.Statement (.fmaxF16x2 g d a b) := by
  intro _ w2
  change decodeFields (18#6 ++ g ++ d ++ a ++ b ++ 5#4 : BitVec 32) w2 = _
  rw [decodeFields_12 _ _ (by simp)]
  simp [decodeMajor12, minorOf]

theorem Sys2Proof.Laws.Encoding.fabsF16x2 (g : BitVec 4) (d b : BitVec 6) :
    Sys2Proof.Laws.Encoding.Statement (.fabsF16x2 g d b) := by
  intro _ w2
  change decodeFields (18#6 ++ g ++ d ++ 0#6 ++ b ++ 6#4 : BitVec 32) w2 = _
  rw [decodeFields_12 _ _ (by simp)]
  simp [decodeMajor12, minorOf]

theorem Sys2Proof.Laws.Encoding.fnegF16x2 (g : BitVec 4) (d b : BitVec 6) :
    Sys2Proof.Laws.Encoding.Statement (.fnegF16x2 g d b) := by
  intro _ w2
  change decodeFields (18#6 ++ g ++ d ++ 0#6 ++ b ++ 7#4 : BitVec 32) w2 = _
  rw [decodeFields_12 _ _ (by simp)]
  simp [decodeMajor12, minorOf]

theorem Sys2Proof.Laws.Encoding.faddBf16x2 (g : BitVec 4) (d a b : BitVec 6) :
    Sys2Proof.Laws.Encoding.Statement (.faddBf16x2 g d a b) := by
  intro _ w2
  change decodeFields (19#6 ++ g ++ d ++ a ++ b ++ 0#4 : BitVec 32) w2 = _
  rw [decodeFields_13 _ _ (by simp)]
  simp [decodeMajor13, minorOf]

theorem Sys2Proof.Laws.Encoding.fsubBf16x2 (g : BitVec 4) (d a b : BitVec 6) :
    Sys2Proof.Laws.Encoding.Statement (.fsubBf16x2 g d a b) := by
  intro _ w2
  change decodeFields (19#6 ++ g ++ d ++ a ++ b ++ 1#4 : BitVec 32) w2 = _
  rw [decodeFields_13 _ _ (by simp)]
  simp [decodeMajor13, minorOf]

theorem Sys2Proof.Laws.Encoding.fmulBf16x2 (g : BitVec 4) (d a b : BitVec 6) :
    Sys2Proof.Laws.Encoding.Statement (.fmulBf16x2 g d a b) := by
  intro _ w2
  change decodeFields (19#6 ++ g ++ d ++ a ++ b ++ 2#4 : BitVec 32) w2 = _
  rw [decodeFields_13 _ _ (by simp)]
  simp [decodeMajor13, minorOf]

theorem Sys2Proof.Laws.Encoding.ffmaBf16x2 (g : BitVec 4) (d a b : BitVec 6) :
    Sys2Proof.Laws.Encoding.Statement (.ffmaBf16x2 g d a b) := by
  intro _ w2
  change decodeFields (19#6 ++ g ++ d ++ a ++ b ++ 3#4 : BitVec 32) w2 = _
  rw [decodeFields_13 _ _ (by simp)]
  simp [decodeMajor13, minorOf]

theorem Sys2Proof.Laws.Encoding.fminBf16x2 (g : BitVec 4) (d a b : BitVec 6) :
    Sys2Proof.Laws.Encoding.Statement (.fminBf16x2 g d a b) := by
  intro _ w2
  change decodeFields (19#6 ++ g ++ d ++ a ++ b ++ 4#4 : BitVec 32) w2 = _
  rw [decodeFields_13 _ _ (by simp)]
  simp [decodeMajor13, minorOf]

theorem Sys2Proof.Laws.Encoding.fmaxBf16x2 (g : BitVec 4) (d a b : BitVec 6) :
    Sys2Proof.Laws.Encoding.Statement (.fmaxBf16x2 g d a b) := by
  intro _ w2
  change decodeFields (19#6 ++ g ++ d ++ a ++ b ++ 5#4 : BitVec 32) w2 = _
  rw [decodeFields_13 _ _ (by simp)]
  simp [decodeMajor13, minorOf]

theorem Sys2Proof.Laws.Encoding.fabsBf16x2 (g : BitVec 4) (d b : BitVec 6) :
    Sys2Proof.Laws.Encoding.Statement (.fabsBf16x2 g d b) := by
  intro _ w2
  change decodeFields (19#6 ++ g ++ d ++ 0#6 ++ b ++ 6#4 : BitVec 32) w2 = _
  rw [decodeFields_13 _ _ (by simp)]
  simp [decodeMajor13, minorOf]

theorem Sys2Proof.Laws.Encoding.fnegBf16x2 (g : BitVec 4) (d b : BitVec 6) :
    Sys2Proof.Laws.Encoding.Statement (.fnegBf16x2 g d b) := by
  intro _ w2
  change decodeFields (19#6 ++ g ++ d ++ 0#6 ++ b ++ 7#4 : BitVec 32) w2 = _
  rw [decodeFields_13 _ _ (by simp)]
  simp [decodeMajor13, minorOf]

theorem Sys2Proof.Laws.Encoding.frcp (g : BitVec 4) (d b : BitVec 6) :
    Sys2Proof.Laws.Encoding.Statement (.frcp g d b) := by
  intro _ w2
  change decodeFields (20#6 ++ g ++ d ++ 0#6 ++ b ++ 0#4 : BitVec 32) w2 = _
  rw [decodeFields_14 _ _ (by simp)]
  simp [decodeMajor14, minorOf]

theorem Sys2Proof.Laws.Encoding.frsq (g : BitVec 4) (d b : BitVec 6) :
    Sys2Proof.Laws.Encoding.Statement (.frsq g d b) := by
  intro _ w2
  change decodeFields (20#6 ++ g ++ d ++ 0#6 ++ b ++ 1#4 : BitVec 32) w2 = _
  rw [decodeFields_14 _ _ (by simp)]
  simp [decodeMajor14, minorOf]

theorem Sys2Proof.Laws.Encoding.fsqrt (g : BitVec 4) (d b : BitVec 6) :
    Sys2Proof.Laws.Encoding.Statement (.fsqrt g d b) := by
  intro _ w2
  change decodeFields (20#6 ++ g ++ d ++ 0#6 ++ b ++ 2#4 : BitVec 32) w2 = _
  rw [decodeFields_14 _ _ (by simp)]
  simp [decodeMajor14, minorOf]

theorem Sys2Proof.Laws.Encoding.fex2 (g : BitVec 4) (d b : BitVec 6) :
    Sys2Proof.Laws.Encoding.Statement (.fex2 g d b) := by
  intro _ w2
  change decodeFields (20#6 ++ g ++ d ++ 0#6 ++ b ++ 3#4 : BitVec 32) w2 = _
  rw [decodeFields_14 _ _ (by simp)]
  simp [decodeMajor14, minorOf]

theorem Sys2Proof.Laws.Encoding.flg2 (g : BitVec 4) (d b : BitVec 6) :
    Sys2Proof.Laws.Encoding.Statement (.flg2 g d b) := by
  intro _ w2
  change decodeFields (20#6 ++ g ++ d ++ 0#6 ++ b ++ 4#4 : BitVec 32) w2 = _
  rw [decodeFields_14 _ _ (by simp)]
  simp [decodeMajor14, minorOf]

theorem Sys2Proof.Laws.Encoding.fsin (g : BitVec 4) (d b : BitVec 6) :
    Sys2Proof.Laws.Encoding.Statement (.fsin g d b) := by
  intro _ w2
  change decodeFields (20#6 ++ g ++ d ++ 0#6 ++ b ++ 5#4 : BitVec 32) w2 = _
  rw [decodeFields_14 _ _ (by simp)]
  simp [decodeMajor14, minorOf]

theorem Sys2Proof.Laws.Encoding.fcos (g : BitVec 4) (d b : BitVec 6) :
    Sys2Proof.Laws.Encoding.Statement (.fcos g d b) := by
  intro _ w2
  change decodeFields (20#6 ++ g ++ d ++ 0#6 ++ b ++ 6#4 : BitVec 32) w2 = _
  rw [decodeFields_14 _ _ (by simp)]
  simp [decodeMajor14, minorOf]

theorem Sys2Proof.Laws.Encoding.ftanh (g : BitVec 4) (d b : BitVec 6) :
    Sys2Proof.Laws.Encoding.Statement (.ftanh g d b) := by
  intro _ w2
  change decodeFields (20#6 ++ g ++ d ++ 0#6 ++ b ++ 7#4 : BitVec 32) w2 = _
  rw [decodeFields_14 _ _ (by simp)]
  simp [decodeMajor14, minorOf]

theorem Sys2Proof.Laws.Encoding.fcls (g : BitVec 4) (d b : BitVec 6) :
    Sys2Proof.Laws.Encoding.Statement (.fcls g d b) := by
  intro _ w2
  change decodeFields (20#6 ++ g ++ d ++ 0#6 ++ b ++ 8#4 : BitVec 32) w2 = _
  rw [decodeFields_14 _ _ (by simp)]
  simp [decodeMajor14, minorOf]

theorem Sys2Proof.Laws.Encoding.fcmp (g : BitVec 4) (pd : BitVec 3) (comb : BitVec 2) (a b : BitVec 6) (cond : BitVec 4) :
    Sys2Proof.Laws.Encoding.Statement (.fcmp g pd comb a b cond) := by
  intro _ w2
  change decodeFields (21#6 ++ g ++ pd ++ 0#1 ++ comb ++ a ++ b ++ cond : BitVec 32) w2 = _
  rw [decodeFields_15 _ _ (by simp)]
  simp

theorem Sys2Proof.Laws.Encoding.cvt (g : BitVec 4) (d a : BitVec 6) (src : BitVec 4) (sat rz : BitVec 1) (dst : BitVec 4) :
    Sys2Proof.Laws.Encoding.Statement (.cvt g d a src sat rz dst) := by
  intro _ w2
  change decodeFields (22#6 ++ g ++ d ++ a ++ src ++ sat ++ rz ++ dst : BitVec 32) w2 = _
  rw [decodeFields_16 _ _ (by simp)]
  simp

theorem Sys2Proof.Laws.Encoding.cvtpk (g : BitVec 4) (d a : BitVec 6) (fmt : BitVec 4) (sat rz : BitVec 1) :
    Sys2Proof.Laws.Encoding.Statement (.cvtpk g d a fmt sat rz) := by
  intro _ w2
  change decodeFields (23#6 ++ g ++ d ++ a ++ fmt ++ sat ++ rz ++ 0#4 : BitVec 32) w2 = _
  rw [decodeFields_17 _ _ (by simp)]
  simp [decodeMajor17, minorOf]

theorem Sys2Proof.Laws.Encoding.cvtup (g : BitVec 4) (d a : BitVec 6) (fmt : BitVec 4) :
    Sys2Proof.Laws.Encoding.Statement (.cvtup g d a fmt) := by
  intro _ w2
  change decodeFields (23#6 ++ g ++ d ++ a ++ fmt ++ 1#6 : BitVec 32) w2 = _
  rw [decodeFields_17 _ _ (by simp)]
  simp [decodeMajor17, minorOf]

theorem Sys2Proof.Laws.Encoding.ld (g : BitVec 4) (d a : BitVec 6) (size : BitVec 3) (sp : BitVec 2) (off : BitVec 5) :
    Sys2Proof.Laws.Encoding.Statement (.ld g d a size sp off) := by
  intro _ w2
  change decodeFields (24#6 ++ g ++ d ++ a ++ size ++ sp ++ off : BitVec 32) w2 = _
  rw [decodeFields_18 _ _ (by simp)]
  simp

theorem Sys2Proof.Laws.Encoding.st (g : BitVec 4) (d a : BitVec 6) (size : BitVec 3) (sp : BitVec 2) (off : BitVec 5) :
    Sys2Proof.Laws.Encoding.Statement (.st g d a size sp off) := by
  intro _ w2
  change decodeFields (25#6 ++ g ++ d ++ a ++ size ++ sp ++ off : BitVec 32) w2 = _
  rw [decodeFields_19 _ _ (by simp)]
  simp

theorem Sys2Proof.Laws.Encoding.ldx (g : BitVec 4) (d a : BitVec 6) (size sp : BitVec 2) (off : BitVec 4) :
    Sys2Proof.Laws.Encoding.Statement (.ldx g d a size sp off) := by
  intro _ w2
  change decodeFields (26#6 ++ g ++ d ++ a ++ size ++ sp ++ 0#2 ++ off : BitVec 32) w2 = _
  rw [decodeFields_1A _ _ (by simp)]
  simp only [decodeMajor1A, bit_as_field]
  simp

theorem Sys2Proof.Laws.Encoding.stx (g : BitVec 4) (d a : BitVec 6) (size sp : BitVec 2) (off : BitVec 4) :
    Sys2Proof.Laws.Encoding.Statement (.stx g d a size sp off) := by
  intro _ w2
  change decodeFields (26#6 ++ g ++ d ++ a ++ size ++ sp ++ 1#2 ++ off : BitVec 32) w2 = _
  rw [decodeFields_1A _ _ (by simp)]
  simp only [decodeMajor1A, bit_as_field]
  simp

theorem Sys2Proof.Laws.Encoding.ldro (g : BitVec 4) (d a : BitVec 6) (size : BitVec 3) (sp : BitVec 2) (off : BitVec 5) :
    Sys2Proof.Laws.Encoding.Statement (.ldro g d a size sp off) := by
  intro _ w2
  change decodeFields (27#6 ++ g ++ d ++ a ++ size ++ sp ++ off : BitVec 32) w2 = _
  rw [decodeFields_1B _ _ (by simp)]
  simp

theorem Sys2Proof.Laws.Encoding.fence (g : BitVec 4) (scope : BitVec 3) (kind : BitVec 2) :
    Sys2Proof.Laws.Encoding.Statement (.fence g scope kind) := by
  intro _ w2
  change decodeFields (28#6 ++ g ++ scope ++ kind ++ 0#17 : BitVec 32) w2 = _
  rw [decodeFields_1C _ _ (by simp)]
  simp [decodeMajor1C, minorOf]

theorem Sys2Proof.Laws.Encoding.wait (g : BitVec 4) (ctr : BitVec 3) (thr : BitVec 6) :
    Sys2Proof.Laws.Encoding.Statement (.wait g ctr thr) := by
  intro _ w2
  change decodeFields (29#6 ++ g ++ ctr ++ thr ++ 0#13 : BitVec 32) w2 = _
  rw [decodeFields_1D _ _ (by simp)]
  simp [decodeMajor1D, minorOf]

theorem Sys2Proof.Laws.Encoding.pf (g : BitVec 4) (lvl : BitVec 2) (a lines : BitVec 6) :
    Sys2Proof.Laws.Encoding.Statement (.pf g lvl a lines) := by
  intro _ w2
  change decodeFields (30#6 ++ g ++ lvl ++ 0#4 ++ a ++ lines ++ 0#4 : BitVec 32) w2 = _
  rw [decodeFields_1E _ _ (by simp)]
  simp [decodeMajor1E, minorOf]

theorem Sys2Proof.Laws.Encoding.cmaintDropL1 (g : BitVec 4) :
    Sys2Proof.Laws.Encoding.Statement (.cmaintDropL1 g) := by
  intro _ w2
  change decodeFields (30#6 ++ g ++ 1#22 : BitVec 32) w2 = _
  rw [decodeFields_1E _ _ (by simp)]
  simp [decodeMajor1E, minorOf]

theorem Sys2Proof.Laws.Encoding.cmaintCleanL2 (g : BitVec 4) (a lines : BitVec 6) :
    Sys2Proof.Laws.Encoding.Statement (.cmaintCleanL2 g a lines) := by
  intro _ w2
  change decodeFields (30#6 ++ g ++ 16#6 ++ a ++ lines ++ 1#4 : BitVec 32) w2 = _
  rw [decodeFields_1E _ _ (by simp)]
  simp [decodeMajor1E, minorOf]

theorem Sys2Proof.Laws.Encoding.cmaintFlushL2 (g : BitVec 4) (a lines : BitVec 6) :
    Sys2Proof.Laws.Encoding.Statement (.cmaintFlushL2 g a lines) := by
  intro _ w2
  change decodeFields (30#6 ++ g ++ 32#6 ++ a ++ lines ++ 1#4 : BitVec 32) w2 = _
  rw [decodeFields_1E _ _ (by simp)]
  simp [decodeMajor1E, minorOf]

theorem Sys2Proof.Laws.Encoding.cmaintDropL2 (g : BitVec 4) (a lines : BitVec 6) :
    Sys2Proof.Laws.Encoding.Statement (.cmaintDropL2 g a lines) := by
  intro _ w2
  change decodeFields (30#6 ++ g ++ 48#6 ++ a ++ lines ++ 1#4 : BitVec 32) w2 = _
  rw [decodeFields_1E _ _ (by simp)]
  simp [decodeMajor1E, minorOf]

theorem Sys2Proof.Laws.Encoding.ldp (g q : BitVec 4) (kq : BitVec 6) (n : BitVec 4) (pd : BitVec 3) :
    Sys2Proof.Laws.Encoding.Statement (.ldp g q kq n pd) := by
  intro _ w2
  change decodeFields (31#6 ++ g ++ q ++ kq ++ n ++ pd ++ 0#5 : BitVec 32) w2 = _
  rw [decodeFields_1F _ _ (by simp)]
  simp [decodeMajor1F, minorOf]

theorem Sys2Proof.Laws.Encoding.ldpr (g q : BitVec 4) (kq : BitVec 6) (n : BitVec 4) (pd : BitVec 3) :
    Sys2Proof.Laws.Encoding.Statement (.ldpr g q kq n pd) := by
  intro _ w2
  change decodeFields (31#6 ++ g ++ q ++ kq ++ n ++ pd ++ 1#5 : BitVec 32) w2 = _
  rw [decodeFields_1F _ _ (by simp)]
  simp [decodeMajor1F, minorOf]

theorem Sys2Proof.Laws.Encoding.stp (g q : BitVec 4) (kq : BitVec 6) :
    Sys2Proof.Laws.Encoding.Statement (.stp g q kq) := by
  intro _ w2
  change decodeFields (31#6 ++ g ++ q ++ kq ++ 2#12 : BitVec 32) w2 = _
  rw [decodeFields_1F _ _ (by simp)]
  simp [decodeMajor1F, minorOf]

theorem Sys2Proof.Laws.Encoding.qunp (g : BitVec 4) (d : BitVec 6) (q : BitVec 4) (mid : BitVec 1) (ty : BitVec 3) :
    Sys2Proof.Laws.Encoding.Statement (.qunp g d q mid ty) := by
  intro _ w2
  change decodeFields (32#6 ++ g ++ d ++ q ++ mid ++ ty ++ 0#8 : BitVec 32) w2 = _
  rw [decodeFields_20 _ _ (by simp)]
  simp [decodeMajor20, minorOf]

theorem Sys2Proof.Laws.Encoding.qpk (g q : BitVec 4) (a : BitVec 6) (n : BitVec 4) (mode : BitVec 1) (ty : BitVec 2) :
    Sys2Proof.Laws.Encoding.Statement (.qpk g q a n mode ty) := by
  intro _ w2
  change decodeFields (32#6 ++ g ++ q ++ a ++ n ++ mode ++ ty ++ 1#5 : BitVec 32) w2 = _
  rw [decodeFields_20 _ _ (by simp)]
  simp [decodeMajor20, minorOf]

theorem Sys2Proof.Laws.Encoding.qtagGet (g : BitVec 4) (d : BitVec 6) (q : BitVec 4) :
    Sys2Proof.Laws.Encoding.Statement (.qtagGet g d q) := by
  intro _ w2
  change decodeFields (32#6 ++ g ++ d ++ q ++ 2#12 : BitVec 32) w2 = _
  rw [decodeFields_20 _ _ (by simp)]
  simp only [decodeMajor20, bit_as_field]
  simp [minorOf]

theorem Sys2Proof.Laws.Encoding.qtagSet (g : BitVec 4) (d : BitVec 6) (q : BitVec 4) :
    Sys2Proof.Laws.Encoding.Statement (.qtagSet g d q) := by
  intro _ w2
  change decodeFields (32#6 ++ g ++ d ++ q ++ 2050#12 : BitVec 32) w2 = _
  rw [decodeFields_20 _ _ (by simp)]
  simp only [decodeMajor20, bit_as_field]
  simp [minorOf]

theorem Sys2Proof.Laws.Encoding.shfl (g : BitVec 4) (d a b : BitVec 6) :
    Sys2Proof.Laws.Encoding.Statement (.shfl g d a b) := by
  intro _ w2
  change decodeFields (33#6 ++ g ++ d ++ a ++ b ++ 0#4 : BitVec 32) w2 = _
  rw [decodeFields_21 _ _ (by simp)]
  simp [decodeMajor21, minorOf]

theorem Sys2Proof.Laws.Encoding.shfld (g : BitVec 4) (d a b : BitVec 6) :
    Sys2Proof.Laws.Encoding.Statement (.shfld g d a b) := by
  intro _ w2
  change decodeFields (33#6 ++ g ++ d ++ a ++ b ++ 1#4 : BitVec 32) w2 = _
  rw [decodeFields_21 _ _ (by simp)]
  simp [decodeMajor21, minorOf]

theorem Sys2Proof.Laws.Encoding.shflx (g : BitVec 4) (d a b : BitVec 6) :
    Sys2Proof.Laws.Encoding.Statement (.shflx g d a b) := by
  intro _ w2
  change decodeFields (33#6 ++ g ++ d ++ a ++ b ++ 2#4 : BitVec 32) w2 = _
  rw [decodeFields_21 _ _ (by simp)]
  simp [decodeMajor21, minorOf]

theorem Sys2Proof.Laws.Encoding.pcons (g : BitVec 4) (d a b : BitVec 6) :
    Sys2Proof.Laws.Encoding.Statement (.pcons g d a b) := by
  intro _ w2
  change decodeFields (33#6 ++ g ++ d ++ a ++ b ++ 3#4 : BitVec 32) w2 = _
  rw [decodeFields_21 _ _ (by simp)]
  simp [decodeMajor21, minorOf]

theorem Sys2Proof.Laws.Encoding.lmask (g : BitVec 4) (d a : BitVec 6) :
    Sys2Proof.Laws.Encoding.Statement (.lmask g d a) := by
  intro _ w2
  change decodeFields (33#6 ++ g ++ d ++ a ++ 4#10 : BitVec 32) w2 = _
  rw [decodeFields_21 _ _ (by simp)]
  simp [decodeMajor21, minorOf]

theorem Sys2Proof.Laws.Encoding.red (g : BitVec 4) (d a : BitVec 6) (op : BitVec 4) :
    Sys2Proof.Laws.Encoding.Statement (.red g d a op) := by
  intro _ w2
  change decodeFields (33#6 ++ g ++ d ++ a ++ 0#2 ++ op ++ 5#4 : BitVec 32) w2 = _
  rw [decodeFields_21 _ _ (by simp)]
  simp [decodeMajor21, minorOf]

theorem Sys2Proof.Laws.Encoding.scan (g : BitVec 4) (d a : BitVec 6) (excl : BitVec 1) (op : BitVec 4) :
    Sys2Proof.Laws.Encoding.Statement (.scan g d a excl op) := by
  intro _ w2
  change decodeFields (33#6 ++ g ++ d ++ a ++ 0#1 ++ excl ++ op ++ 6#4 : BitVec 32) w2 = _
  rw [decodeFields_21 _ _ (by simp)]
  simp [decodeMajor21, minorOf]

theorem Sys2Proof.Laws.Encoding.matchEq (g : BitVec 4) (d a : BitVec 6) :
    Sys2Proof.Laws.Encoding.Statement (.matchEq g d a) := by
  intro _ w2
  change decodeFields (33#6 ++ g ++ d ++ a ++ 7#10 : BitVec 32) w2 = _
  rw [decodeFields_21 _ _ (by simp)]
  simp [decodeMajor21, minorOf]

theorem Sys2Proof.Laws.Encoding.conflict (g : BitVec 4) (d a : BitVec 6) :
    Sys2Proof.Laws.Encoding.Statement (.conflict g d a) := by
  intro _ w2
  change decodeFields (33#6 ++ g ++ d ++ a ++ 8#10 : BitVec 32) w2 = _
  rw [decodeFields_21 _ _ (by simp)]
  simp [decodeMajor21, minorOf]

theorem Sys2Proof.Laws.Encoding.hist (g : BitVec 4) (d a : BitVec 6) :
    Sys2Proof.Laws.Encoding.Statement (.hist g d a) := by
  intro _ w2
  change decodeFields (33#6 ++ g ++ d ++ a ++ 9#10 : BitVec 32) w2 = _
  rw [decodeFields_21 _ _ (by simp)]
  simp [decodeMajor21, minorOf]

theorem Sys2Proof.Laws.Encoding.jinit (g : BitVec 4) (a j : BitVec 6) :
    Sys2Proof.Laws.Encoding.Statement (.jinit g a j) := by
  intro _ w2
  change decodeFields (34#6 ++ g ++ 0#6 ++ a ++ j ++ 0#4 : BitVec 32) w2 = _
  rw [decodeFields_22 _ _ (by simp)]
  simp [decodeMajor22, minorOf]

theorem Sys2Proof.Laws.Encoding.jsign (g : BitVec 4) (d j : BitVec 6) :
    Sys2Proof.Laws.Encoding.Statement (.jsign g d j) := by
  intro _ w2
  change decodeFields (34#6 ++ g ++ d ++ 0#6 ++ j ++ 1#4 : BitVec 32) w2 = _
  rw [decodeFields_22 _ _ (by simp)]
  simp [decodeMajor22, minorOf]

theorem Sys2Proof.Laws.Encoding.jwait (g : BitVec 4) (a j : BitVec 6) :
    Sys2Proof.Laws.Encoding.Statement (.jwait g a j) := by
  intro _ w2
  change decodeFields (34#6 ++ g ++ 0#6 ++ a ++ j ++ 2#4 : BitVec 32) w2 = _
  rw [decodeFields_22 _ _ (by simp)]
  simp [decodeMajor22, minorOf]

theorem Sys2Proof.Laws.Encoding.jleave (g : BitVec 4) (j : BitVec 6) :
    Sys2Proof.Laws.Encoding.Statement (.jleave g j) := by
  intro _ w2
  change decodeFields (34#6 ++ g ++ 0#12 ++ j ++ 3#4 : BitVec 32) w2 = _
  rw [decodeFields_22 _ _ (by simp)]
  simp [decodeMajor22, minorOf]

theorem Sys2Proof.Laws.Encoding.gsplit (g : BitVec 4) (d a : BitVec 6) (inv : BitVec 1) :
    Sys2Proof.Laws.Encoding.Statement (.gsplit g d a inv) := by
  intro _ w2
  change decodeFields (34#6 ++ g ++ d ++ a ++ 0#5 ++ inv ++ 4#4 : BitVec 32) w2 = _
  rw [decodeFields_22 _ _ (by simp)]
  simp [decodeMajor22, minorOf]

theorem Sys2Proof.Laws.Encoding.gjoin (g : BitVec 4) (a : BitVec 6) :
    Sys2Proof.Laws.Encoding.Statement (.gjoin g a) := by
  intro _ w2
  change decodeFields (34#6 ++ g ++ 0#6 ++ a ++ 5#10 : BitVec 32) w2 = _
  rw [decodeFields_22 _ _ (by simp)]
  simp [decodeMajor22, minorOf]

theorem Sys2Proof.Laws.Encoding.bru (g : BitVec 4) (off : BitVec 22) :
    Sys2Proof.Laws.Encoding.Statement (.bru g off) := by
  intro _ w2
  change decodeFields (35#6 ++ g ++ off : BitVec 32) w2 = _
  rw [decodeFields_23 _ _ (by simp)]
  simp

theorem Sys2Proof.Laws.Encoding.jmp (g : BitVec 4) (off : BitVec 22) :
    Sys2Proof.Laws.Encoding.Statement (.jmp g off) := by
  intro _ w2
  change decodeFields (36#6 ++ g ++ off : BitVec 32) w2 = _
  rw [decodeFields_24 _ _ (by simp)]
  simp

theorem Sys2Proof.Laws.Encoding.call (g : BitVec 4) (off : BitVec 22) :
    Sys2Proof.Laws.Encoding.Statement (.call g off) := by
  intro _ w2
  change decodeFields (37#6 ++ g ++ off : BitVec 32) w2 = _
  rw [decodeFields_25 _ _ (by simp)]
  simp

theorem Sys2Proof.Laws.Encoding.ret (g : BitVec 4) (d : BitVec 6) :
    Sys2Proof.Laws.Encoding.Statement (.ret g d) := by
  intro _ w2
  change decodeFields (38#6 ++ g ++ d ++ 0#16 : BitVec 32) w2 = _
  rw [decodeFields_26 _ _ (by simp)]
  simp [decodeMajor26, minorOf]

theorem Sys2Proof.Laws.Encoding.jmpi (g : BitVec 4) (d : BitVec 6) (cls : BitVec 1) :
    Sys2Proof.Laws.Encoding.Statement (.jmpi g d cls) := by
  intro _ w2
  change decodeFields (38#6 ++ g ++ d ++ cls ++ 1#15 : BitVec 32) w2 = _
  rw [decodeFields_26 _ _ (by simp)]
  simp [decodeMajor26, minorOf]

theorem Sys2Proof.Laws.Encoding.exit (g : BitVec 4) :
    Sys2Proof.Laws.Encoding.Statement (.exit g) := by
  intro _ w2
  change decodeFields (38#6 ++ g ++ 2#22 : BitVec 32) w2 = _
  rw [decodeFields_26 _ _ (by simp)]
  simp [decodeMajor26, minorOf]

theorem Sys2Proof.Laws.Encoding.brk (g : BitVec 4) (imm : BitVec 18) :
    Sys2Proof.Laws.Encoding.Statement (.brk g imm) := by
  intro _ w2
  change decodeFields (38#6 ++ g ++ imm ++ 3#4 : BitVec 32) w2 = _
  rw [decodeFields_26 _ _ (by simp)]
  simp [decodeMajor26, minorOf]

theorem Sys2Proof.Laws.Encoding.trap (g : BitVec 4) (imm : BitVec 18) :
    Sys2Proof.Laws.Encoding.Statement (.trap g imm) := by
  intro _ w2
  change decodeFields (38#6 ++ g ++ imm ++ 4#4 : BitVec 32) w2 = _
  rw [decodeFields_26 _ _ (by simp)]
  simp [decodeMajor26, minorOf]

theorem Sys2Proof.Laws.Encoding.yield (g : BitVec 4) :
    Sys2Proof.Laws.Encoding.Statement (.yield g) := by
  intro _ w2
  change decodeFields (38#6 ++ g ++ 5#22 : BitVec 32) w2 = _
  rw [decodeFields_26 _ _ (by simp)]
  simp [decodeMajor26, minorOf]

theorem Sys2Proof.Laws.Encoding.maddm (g : BitVec 4) (d a b : BitVec 5) (slot : BitVec 2) :
    Sys2Proof.Laws.Encoding.Statement (.maddm g d a b slot) := by
  intro _ w2
  change decodeFields (48#6 ++ g ++ d ++ a ++ b ++ slot ++ 0#5 : BitVec 32) w2 = _
  rw [decodeFields_30 _ _ (by simp)]
  simp [decodeMajor30, minorOf]

theorem Sys2Proof.Laws.Encoding.msubm (g : BitVec 4) (d a b : BitVec 5) (slot : BitVec 2) :
    Sys2Proof.Laws.Encoding.Statement (.msubm g d a b slot) := by
  intro _ w2
  change decodeFields (48#6 ++ g ++ d ++ a ++ b ++ slot ++ 1#5 : BitVec 32) w2 = _
  rw [decodeFields_30 _ _ (by simp)]
  simp [decodeMajor30, minorOf]

theorem Sys2Proof.Laws.Encoding.mnegm (g : BitVec 4) (d b : BitVec 5) (slot : BitVec 2) :
    Sys2Proof.Laws.Encoding.Statement (.mnegm g d b slot) := by
  intro _ w2
  change decodeFields (48#6 ++ g ++ d ++ 0#5 ++ b ++ slot ++ 2#5 : BitVec 32) w2 = _
  rw [decodeFields_30 _ _ (by simp)]
  simp [decodeMajor30, minorOf]

theorem Sys2Proof.Laws.Encoding.mmulm (g : BitVec 4) (d a b : BitVec 5) (slot : BitVec 2) :
    Sys2Proof.Laws.Encoding.Statement (.mmulm g d a b slot) := by
  intro _ w2
  change decodeFields (48#6 ++ g ++ d ++ a ++ b ++ slot ++ 3#5 : BitVec 32) w2 = _
  rw [decodeFields_30 _ _ (by simp)]
  simp [decodeMajor30, minorOf]

theorem Sys2Proof.Laws.Encoding.mmacm (g : BitVec 4) (d a b : BitVec 5) (slot : BitVec 2) :
    Sys2Proof.Laws.Encoding.Statement (.mmacm g d a b slot) := by
  intro _ w2
  change decodeFields (49#6 ++ g ++ d ++ a ++ b ++ slot ++ 0#5 : BitVec 32) w2 = _
  rw [decodeFields_31 _ _ (by simp)]
  simp [decodeMajor31, minorOf]

theorem Sys2Proof.Laws.Encoding.mredm (g : BitVec 4) (d b : BitVec 5) (slot : BitVec 2) :
    Sys2Proof.Laws.Encoding.Statement (.mredm g d b slot) := by
  intro _ w2
  change decodeFields (49#6 ++ g ++ d ++ 0#5 ++ b ++ slot ++ 1#5 : BitVec 32) w2 = _
  rw [decodeFields_31 _ _ (by simp)]
  simp [decodeMajor31, minorOf]

theorem Sys2Proof.Laws.Encoding.bflyct (g : BitVec 4) (d a b : BitVec 5) (slot : BitVec 2) :
    Sys2Proof.Laws.Encoding.Statement (.bflyct g d a b slot) := by
  intro _ w2
  change decodeFields (49#6 ++ g ++ d ++ a ++ b ++ slot ++ 2#5 : BitVec 32) w2 = _
  rw [decodeFields_31 _ _ (by simp)]
  simp [decodeMajor31, minorOf]

theorem Sys2Proof.Laws.Encoding.bflygs (g : BitVec 4) (d a b : BitVec 5) (slot : BitVec 2) :
    Sys2Proof.Laws.Encoding.Statement (.bflygs g d a b slot) := by
  intro _ w2
  change decodeFields (49#6 ++ g ++ d ++ a ++ b ++ slot ++ 3#5 : BitVec 32) w2 = _
  rw [decodeFields_31 _ _ (by simp)]
  simp [decodeMajor31, minorOf]

theorem Sys2Proof.Laws.Encoding.nperm (g : BitVec 4) (d a : BitVec 6) (sh : BitVec 3) (mode : BitVec 1) :
    Sys2Proof.Laws.Encoding.Statement (.nperm g d a sh mode) := by
  intro _ w2
  change decodeFields (50#6 ++ g ++ d ++ a ++ sh ++ mode ++ 0#6 : BitVec 32) w2 = _
  rw [decodeFields_32 _ _ (by simp)]
  simp [decodeMajor32, minorOf]

theorem Sys2Proof.Laws.Encoding.nrev (g : BitVec 4) (d a : BitVec 6) (k : BitVec 3) :
    Sys2Proof.Laws.Encoding.Statement (.nrev g d a k) := by
  intro _ w2
  change decodeFields (50#6 ++ g ++ d ++ a ++ k ++ 1#7 : BitVec 32) w2 = _
  rw [decodeFields_32 _ _ (by simp)]
  simp [decodeMajor32, minorOf]

theorem Sys2Proof.Laws.Encoding.nauto (g : BitVec 4) (d a kg : BitVec 6) :
    Sys2Proof.Laws.Encoding.Statement (.nauto g d a kg) := by
  intro _ w2
  change decodeFields (50#6 ++ g ++ d ++ a ++ kg ++ 2#4 : BitVec 32) w2 = _
  rw [decodeFields_32 _ _ (by simp)]
  simp [decodeMajor32, minorOf]

theorem Sys2Proof.Laws.Encoding.modset (g : BitVec 4) (a b : BitVec 6) (slot : BitVec 2) (auto : BitVec 1) :
    Sys2Proof.Laws.Encoding.Statement (.modset g a b slot auto) := by
  intro _ w2
  change decodeFields (50#6 ++ g ++ a ++ b ++ slot ++ auto ++ 3#7 : BitVec 32) w2 = _
  rw [decodeFields_32 _ _ (by simp)]
  simp [decodeMajor32, minorOf]

theorem Sys2Proof.Laws.Encoding.spbegin (g : BitVec 4) (d kr : BitVec 6) :
    Sys2Proof.Laws.Encoding.Statement (.spbegin g d kr) := by
  intro _ w2
  change decodeFields (51#6 ++ g ++ d ++ kr ++ 0#10 : BitVec 32) w2 = _
  rw [decodeFields_33 _ _ (by simp)]
  simp [decodeMajor33, minorOf]

theorem Sys2Proof.Laws.Encoding.spst (g : BitVec 4) (d a : BitVec 6) (size : BitVec 3) :
    Sys2Proof.Laws.Encoding.Statement (.spst g d a size) := by
  intro _ w2
  change decodeFields (51#6 ++ g ++ d ++ a ++ size ++ 1#7 : BitVec 32) w2 = _
  rw [decodeFields_33 _ _ (by simp)]
  simp [decodeMajor33, minorOf]

theorem Sys2Proof.Laws.Encoding.spld (g : BitVec 4) (d a : BitVec 6) (size : BitVec 3) :
    Sys2Proof.Laws.Encoding.Statement (.spld g d a size) := by
  intro _ w2
  change decodeFields (51#6 ++ g ++ d ++ a ++ size ++ 2#7 : BitVec 32) w2 = _
  rw [decodeFields_33 _ _ (by simp)]
  simp [decodeMajor33, minorOf]

theorem Sys2Proof.Laws.Encoding.spalloc (g : BitVec 4) (d a : BitVec 6) :
    Sys2Proof.Laws.Encoding.Statement (.spalloc g d a) := by
  intro _ w2
  change decodeFields (51#6 ++ g ++ d ++ a ++ 3#10 : BitVec 32) w2 = _
  rw [decodeFields_33 _ _ (by simp)]
  simp [decodeMajor33, minorOf]

theorem Sys2Proof.Laws.Encoding.spstate (g : BitVec 4) (ks kp : BitVec 6) :
    Sys2Proof.Laws.Encoding.Statement (.spstate g ks kp) := by
  intro _ w2
  change decodeFields (51#6 ++ g ++ ks ++ kp ++ 4#10 : BitVec 32) w2 = _
  rw [decodeFields_33 _ _ (by simp)]
  simp [decodeMajor33, minorOf]

theorem Sys2Proof.Laws.Encoding.spcommit (g : BitVec 4) (kh kk : BitVec 6) :
    Sys2Proof.Laws.Encoding.Statement (.spcommit g kh kk) := by
  intro _ w2
  change decodeFields (51#6 ++ g ++ 0#6 ++ kh ++ kk ++ 5#4 : BitVec 32) w2 = _
  rw [decodeFields_33 _ _ (by simp)]
  simp [decodeMajor33, minorOf]

theorem Sys2Proof.Laws.Encoding.spabort (g : BitVec 4) (kh : BitVec 6) :
    Sys2Proof.Laws.Encoding.Statement (.spabort g kh) := by
  intro _ w2
  change decodeFields (51#6 ++ g ++ 0#6 ++ kh ++ 6#10 : BitVec 32) w2 = _
  rw [decodeFields_33 _ _ (by simp)]
  simp [decodeMajor33, minorOf]

theorem Sys2Proof.Laws.Encoding.spquery (g : BitVec 4) (d kh : BitVec 6) :
    Sys2Proof.Laws.Encoding.Statement (.spquery g d kh) := by
  intro _ w2
  change decodeFields (51#6 ++ g ++ d ++ kh ++ 7#10 : BitVec 32) w2 = _
  rw [decodeFields_33 _ _ (by simp)]
  simp [decodeMajor33, minorOf]

theorem Sys2Proof.Laws.Encoding.treemask (g : BitVec 4) (d a : BitVec 6) :
    Sys2Proof.Laws.Encoding.Statement (.treemask g d a) := by
  intro _ w2
  change decodeFields (51#6 ++ g ++ d ++ a ++ 8#10 : BitVec 32) w2 = _
  rw [decodeFields_33 _ _ (by simp)]
  simp [decodeMajor33, minorOf]

theorem Sys2Proof.Laws.Encoding.sysr (g : BitVec 4) (d : BitVec 6) (num : BitVec 8) :
    Sys2Proof.Laws.Encoding.Statement (.sysr g d num) := by
  intro _ w2
  change decodeFields (52#6 ++ g ++ d ++ num ++ 0#8 : BitVec 32) w2 = _
  rw [decodeFields_34 _ _ (by simp)]
  simp [decodeMajor34, minorOf]

theorem Sys2Proof.Laws.Encoding.sysw (g : BitVec 4) (a : BitVec 6) (num : BitVec 8) :
    Sys2Proof.Laws.Encoding.Statement (.sysw g a num) := by
  intro _ w2
  change decodeFields (52#6 ++ g ++ a ++ num ++ 1#8 : BitVec 32) w2 = _
  rw [decodeFields_34 _ _ (by simp)]
  simp [decodeMajor34, minorOf]

theorem Sys2Proof.Laws.Encoding.trapret (g : BitVec 4) :
    Sys2Proof.Laws.Encoding.Statement (.trapret g) := by
  intro _ w2
  change decodeFields (52#6 ++ g ++ 2#22 : BitVec 32) w2 = _
  rw [decodeFields_34 _ _ (by simp)]
  simp [decodeMajor34, minorOf]

theorem Sys2Proof.Laws.Encoding.tlbinv (g : BitVec 4) (every ctx : BitVec 1) (ka kn : BitVec 6) :
    Sys2Proof.Laws.Encoding.Statement (.tlbinv g every ctx ka kn) := by
  intro _ w2
  change decodeFields (52#6 ++ g ++ every ++ ctx ++ 0#4 ++ ka ++ kn ++ 3#4 : BitVec 32) w2 = _
  rw [decodeFields_34 _ _ (by simp)]
  simp [decodeMajor34, minorOf]

theorem Sys2Proof.Laws.Encoding.cwb (g : BitVec 4) (ctx : BitVec 1) :
    Sys2Proof.Laws.Encoding.Statement (.cwb g ctx) := by
  intro _ w2
  change decodeFields (52#6 ++ g ++ ctx ++ 4#21 : BitVec 32) w2 = _
  rw [decodeFields_34 _ _ (by simp)]
  simp [decodeMajor34, minorOf]

theorem Sys2Proof.Laws.Encoding.bankmode (g : BitVec 4) (d a : BitVec 6) :
    Sys2Proof.Laws.Encoding.Statement (.bankmode g d a) := by
  intro _ w2
  change decodeFields (52#6 ++ g ++ d ++ a ++ 5#10 : BitVec 32) w2 = _
  rw [decodeFields_34 _ _ (by simp)]
  simp [decodeMajor34, minorOf]

theorem Sys2Proof.Laws.Encoding.launch (g : BitVec 4) (d kt kp : BitVec 6) :
    Sys2Proof.Laws.Encoding.Statement (.launch g d kt kp) := by
  intro _ w2
  change decodeFields (52#6 ++ g ++ d ++ kt ++ kp ++ 6#4 : BitVec 32) w2 = _
  rw [decodeFields_34 _ _ (by simp)]
  simp [decodeMajor34, minorOf]

theorem Sys2Proof.Laws.Encoding.fqrpReplay (g : BitVec 4) (d : BitVec 6) :
    Sys2Proof.Laws.Encoding.Statement (.fqrpReplay g d) := by
  intro _ w2
  change decodeFields (52#6 ++ g ++ d ++ 7#16 : BitVec 32) w2 = _
  rw [decodeFields_34 _ _ (by simp)]
  simp [decodeMajor34, minorOf]

theorem Sys2Proof.Laws.Encoding.fqrpSkip (g : BitVec 4) (d : BitVec 6) :
    Sys2Proof.Laws.Encoding.Statement (.fqrpSkip g d) := by
  intro _ w2
  change decodeFields (52#6 ++ g ++ d ++ 16391#16 : BitVec 32) w2 = _
  rw [decodeFields_34 _ _ (by simp)]
  simp [decodeMajor34, minorOf]

theorem Sys2Proof.Laws.Encoding.fqrpPeek (g : BitVec 4) (d : BitVec 6) :
    Sys2Proof.Laws.Encoding.Statement (.fqrpPeek g d) := by
  intro _ w2
  change decodeFields (52#6 ++ g ++ d ++ 32775#16 : BitVec 32) w2 = _
  rw [decodeFields_34 _ _ (by simp)]
  simp [decodeMajor34, minorOf]

theorem Sys2Proof.Laws.Encoding.halt (g : BitVec 4) (imm : BitVec 18) :
    Sys2Proof.Laws.Encoding.Statement (.halt g imm) := by
  intro _ w2
  change decodeFields (52#6 ++ g ++ imm ++ 8#4 : BitVec 32) w2 = _
  rw [decodeFields_34 _ _ (by simp)]
  simp [decodeMajor34, minorOf]

theorem Sys2Proof.Laws.Encoding.mma (g : BitVec 4) (a : BitVec 3) (fa fb : BitVec 5) (sat : BitVec 1) (ra rb : BitVec 6) (sa sb : BitVec 1) (gm : BitVec 6) (z : BitVec 1) (j : BitVec 4) :
    Sys2Proof.Laws.Encoding.Statement (.mma g a fa fb sat ra rb sa sb gm z j) := by
  intro _ w2
  change decodeFields (63#6 ++ g ++ 0#8 ++ a ++ fa ++ fb ++ sat : BitVec 32) (ra ++ rb ++ sa ++ sb ++ gm ++ z ++ 0#7 ++ j : BitVec 32) = _
  rw [decodeFields_3F _ _ (by simp)]
  simp [decodeMajor3F, xopOf]

theorem Sys2Proof.Laws.Encoding.mmas (g : BitVec 4) (a : BitVec 3) (fa fb : BitVec 5) (sat : BitVec 1) (ra rb : BitVec 6) (sa sb : BitVec 1) (gm : BitVec 6) (z : BitVec 1) (ks : BitVec 6) (j : BitVec 4) :
    Sys2Proof.Laws.Encoding.Statement (.mmas g a fa fb sat ra rb sa sb gm z ks j) := by
  intro _ w2
  change decodeFields (63#6 ++ g ++ 1#8 ++ a ++ fa ++ fb ++ sat : BitVec 32) (ra ++ rb ++ sa ++ sb ++ gm ++ z ++ ks ++ 0#1 ++ j : BitVec 32) = _
  rw [decodeFields_3F _ _ (by simp)]
  simp [decodeMajor3F, xopOf]

theorem Sys2Proof.Laws.Encoding.mconv (g : BitVec 4) (a : BitVec 3) (fa fb : BitVec 5) (sat : BitVec 1) (kr rb : BitVec 6) (sb : BitVec 1) (gm : BitVec 6) (z : BitVec 1) (ko : BitVec 6) (j : BitVec 4) :
    Sys2Proof.Laws.Encoding.Statement (.mconv g a fa fb sat kr rb sb gm z ko j) := by
  intro _ w2
  change decodeFields (63#6 ++ g ++ 2#8 ++ a ++ fa ++ fb ++ sat : BitVec 32) (kr ++ rb ++ 0#1 ++ sb ++ gm ++ z ++ ko ++ 0#1 ++ j : BitVec 32) = _
  rw [decodeFields_3F _ _ (by simp)]
  simp [decodeMajor3F, xopOf]

theorem Sys2Proof.Laws.Encoding.mtrn (g : BitVec 4) (d t : BitVec 3) (acc sat : BitVec 1) (j : BitVec 4) :
    Sys2Proof.Laws.Encoding.Statement (.mtrn g d t acc sat j) := by
  intro _ w2
  change decodeFields (63#6 ++ g ++ 3#8 ++ d ++ t ++ acc ++ 0#1 ++ sat ++ 0#5 : BitVec 32) (0#28 ++ j : BitVec 32) = _
  rw [decodeFields_3F _ _ (by simp)]
  simp [decodeMajor3F, xopOf]

theorem Sys2Proof.Laws.Encoding.mperm (g : BitVec 4) (d t : BitVec 3) (acc mode sat : BitVec 1) (kp : BitVec 6) (j : BitVec 4) :
    Sys2Proof.Laws.Encoding.Statement (.mperm g d t acc mode sat kp j) := by
  intro _ w2
  change decodeFields (63#6 ++ g ++ 4#8 ++ d ++ t ++ acc ++ mode ++ sat ++ 0#5 : BitVec 32) (kp ++ 0#22 ++ j : BitVec 32) = _
  rw [decodeFields_3F _ _ (by simp)]
  simp [decodeMajor3F, xopOf]

theorem Sys2Proof.Laws.Encoding.mred (g : BitVec 4) (d t : BitVec 3) (acc mode sat : BitVec 1) (j : BitVec 4) :
    Sys2Proof.Laws.Encoding.Statement (.mred g d t acc mode sat j) := by
  intro _ w2
  change decodeFields (63#6 ++ g ++ 5#8 ++ d ++ t ++ acc ++ mode ++ sat ++ 0#5 : BitVec 32) (0#28 ++ j : BitVec 32) = _
  rw [decodeFields_3F _ _ (by simp)]
  simp [decodeMajor3F, xopOf]

theorem Sys2Proof.Laws.Encoding.accz (g : BitVec 4) (t : BitVec 3) (j : BitVec 4) :
    Sys2Proof.Laws.Encoding.Statement (.accz g t j) := by
  intro _ w2
  change decodeFields (63#6 ++ g ++ 6#8 ++ t ++ 0#11 : BitVec 32) (0#28 ++ j : BitVec 32) = _
  rw [decodeFields_3F _ _ (by simp)]
  simp [decodeMajor3F, xopOf]

theorem Sys2Proof.Laws.Encoding.accld (g : BitVec 4) (t : BitVec 3) (fmt sp : BitVec 2) (kx : BitVec 6) (pitch : BitVec 16) (j : BitVec 4) :
    Sys2Proof.Laws.Encoding.Statement (.accld g t fmt sp kx pitch j) := by
  intro _ w2
  change decodeFields (63#6 ++ g ++ 7#8 ++ t ++ fmt ++ 0#1 ++ sp ++ 0#6 : BitVec 32) (kx ++ pitch ++ 0#6 ++ j : BitVec 32) = _
  rw [decodeFields_3F _ _ (by simp)]
  simp [decodeMajor3F, xopOf]

theorem Sys2Proof.Laws.Encoding.accst (g : BitVec 4) (t : BitVec 3) (fmt : BitVec 2) (sat : BitVec 1) (sp : BitVec 2) (kx : BitVec 6) (pitch : BitVec 16) (j : BitVec 4) :
    Sys2Proof.Laws.Encoding.Statement (.accst g t fmt sat sp kx pitch j) := by
  intro _ w2
  change decodeFields (63#6 ++ g ++ 8#8 ++ t ++ fmt ++ sat ++ sp ++ 0#6 : BitVec 32) (kx ++ pitch ++ 0#6 ++ j : BitVec 32) = _
  rw [decodeFields_3F _ _ (by simp)]
  simp [decodeMajor3F, xopOf]

theorem Sys2Proof.Laws.Encoding.accrd (g : BitVec 4) (t : BitVec 3) (v : BitVec 6) (n : BitVec 2) (kpos : BitVec 6) :
    Sys2Proof.Laws.Encoding.Statement (.accrd g t v n kpos) := by
  intro _ w2
  change decodeFields (63#6 ++ g ++ 9#8 ++ t ++ v ++ n ++ 0#3 : BitVec 32) (kpos ++ 0#26 : BitVec 32) = _
  rw [decodeFields_3F _ _ (by simp)]
  simp [decodeMajor3F, xopOf]

theorem Sys2Proof.Laws.Encoding.accwr (g : BitVec 4) (t : BitVec 3) (v : BitVec 6) (n : BitVec 2) (kpos : BitVec 6) :
    Sys2Proof.Laws.Encoding.Statement (.accwr g t v n kpos) := by
  intro _ w2
  change decodeFields (63#6 ++ g ++ 10#8 ++ t ++ v ++ n ++ 0#3 : BitVec 32) (kpos ++ 0#26 : BitVec 32) = _
  rw [decodeFields_3F _ _ (by simp)]
  simp [decodeMajor3F, xopOf]

theorem Sys2Proof.Laws.Encoding.atom (g : BitVec 4) (d a : BitVec 6) (sp : BitVec 2) (b : BitVec 6) (op : BitVec 4) (w : BitVec 1) (scope : BitVec 3) (order : BitVec 2) (noret : BitVec 1) (off : BitVec 14) :
    Sys2Proof.Laws.Encoding.Statement (.atom g d a sp b op w scope order noret off) := by
  intro _ w2
  change decodeFields (63#6 ++ g ++ 32#8 ++ d ++ a ++ sp : BitVec 32) (b ++ op ++ w ++ scope ++ order ++ noret ++ 0#1 ++ off : BitVec 32) = _
  rw [decodeFields_3F _ _ (by simp)]
  simp [decodeMajor3F, xopOf]

theorem Sys2Proof.Laws.Encoding.cas (g : BitVec 4) (d a : BitVec 6) (sp : BitVec 2) (b c : BitVec 6) (w : BitVec 1) (scope : BitVec 3) (order : BitVec 2) (off : BitVec 14) :
    Sys2Proof.Laws.Encoding.Statement (.cas g d a sp b c w scope order off) := by
  intro _ w2
  change decodeFields (63#6 ++ g ++ 33#8 ++ d ++ a ++ sp : BitVec 32) (b ++ c ++ w ++ scope ++ order ++ off : BitVec 32) = _
  rw [decodeFields_3F _ _ (by simp)]
  simp [decodeMajor3F, xopOf]

theorem Sys2Proof.Laws.Encoding.cpy (g : BitVec 4) (dst src : BitVec 6) (dsp ssp : BitVec 2) (j : BitVec 4) (words : BitVec 10) :
    Sys2Proof.Laws.Encoding.Statement (.cpy g dst src dsp ssp j words) := by
  intro _ w2
  change decodeFields (63#6 ++ g ++ 64#8 ++ dst ++ src ++ 0#2 : BitVec 32) (dsp ++ ssp ++ j ++ words ++ 0#14 : BitVec 32) = _
  rw [decodeFields_3F _ _ (by simp)]
  simp [decodeMajor3F, xopOf]

theorem Sys2Proof.Laws.Encoding.cpyt (g : BitVec 4) (kr kc kt : BitVec 6) (dir sp ring : BitVec 1) (j : BitVec 4) :
    Sys2Proof.Laws.Encoding.Statement (.cpyt g kr kc kt dir sp ring j) := by
  intro _ w2
  change decodeFields (63#6 ++ g ++ 65#8 ++ kr ++ kc ++ 0#2 : BitVec 32) (kt ++ dir ++ sp ++ ring ++ 0#3 ++ j ++ 0#16 : BitVec 32) = _
  rw [decodeFields_3F _ _ (by simp)]
  simp [decodeMajor3F, xopOf]

theorem Sys2Proof.Laws.Encoding.cpyp (g : BitVec 4) (kq kt : BitVec 6) (lo hi : BitVec 5) (sp ring : BitVec 1) (j : BitVec 4) (t : BitVec 10) :
    Sys2Proof.Laws.Encoding.Statement (.cpyp g kq kt lo hi sp ring j t) := by
  intro _ w2
  change decodeFields (63#6 ++ g ++ 66#8 ++ kq ++ kt ++ 0#2 : BitVec 32) (lo ++ hi ++ sp ++ ring ++ j ++ t ++ 0#6 : BitVec 32) = _
  rw [decodeFields_3F _ _ (by simp)]
  simp [decodeMajor3F, xopOf]

theorem Sys2Proof.Laws.Encoding.cpyx (g : BitVec 4) (vi kb kd : BitVec 6) (sp dir : BitVec 1) (j : BitVec 4) (row : BitVec 12) :
    Sys2Proof.Laws.Encoding.Statement (.cpyx g vi kb kd sp dir j row) := by
  intro _ w2
  change decodeFields (63#6 ++ g ++ 67#8 ++ vi ++ kb ++ 0#2 : BitVec 32) (kd ++ sp ++ dir ++ j ++ row ++ 0#8 : BitVec 32) = _
  rw [decodeFields_3F _ _ (by simp)]
  simp [decodeMajor3F, xopOf]

theorem Sys2Proof.Laws.Encoding.cpyf (g : BitVec 4) (vd ks kr : BitVec 6) (sp : BitVec 1) (j : BitVec 4) (row : BitVec 12) :
    Sys2Proof.Laws.Encoding.Statement (.cpyf g vd ks kr sp j row) := by
  intro _ w2
  change decodeFields (63#6 ++ g ++ 68#8 ++ vd ++ ks ++ 0#2 : BitVec 32) (kr ++ sp ++ 0#1 ++ j ++ row ++ 0#8 : BitVec 32) = _
  rw [decodeFields_3F _ _ (by simp)]
  simp [decodeMajor3F, xopOf]

theorem Sys2Proof.Laws.Encoding.ringinit (g : BitVec 4) (kr : BitVec 6) (slots : BitVec 4) (size : BitVec 16) :
    Sys2Proof.Laws.Encoding.Statement (.ringinit g kr slots size) := by
  intro _ w2
  change decodeFields (63#6 ++ g ++ 80#8 ++ kr ++ 0#8 : BitVec 32) (slots ++ size ++ 0#12 : BitVec 32) = _
  rw [decodeFields_3F _ _ (by simp)]
  simp [decodeMajor3F, xopOf]

theorem Sys2Proof.Laws.Encoding.rawait (g : BitVec 4) (kr kt : BitVec 6) (n : BitVec 5) :
    Sys2Proof.Laws.Encoding.Statement (.rawait g kr kt n) := by
  intro _ w2
  change decodeFields (63#6 ++ g ++ 81#8 ++ kr ++ kt ++ 0#2 : BitVec 32) (n ++ 0#27 : BitVec 32) = _
  rw [decodeFields_3F _ _ (by simp)]
  simp [decodeMajor3F, xopOf]

theorem Sys2Proof.Laws.Encoding.rrel (g : BitVec 4) (kr kt : BitVec 6) :
    Sys2Proof.Laws.Encoding.Statement (.rrel g kr kt) := by
  intro _ w2
  change decodeFields (63#6 ++ g ++ 82#8 ++ kr ++ kt ++ 0#2 : BitVec 32) (0#32 : BitVec 32) = _
  rw [decodeFields_3F _ _ (by simp)]
  simp [decodeMajor3F, xopOf]

theorem Sys2Proof.Laws.Encoding.arbitration (core : Nat) :
    Sys2Proof.Laws.Encoding.Statement (.arbitration core) := nofun
theorem Sys2Proof.Laws.Encoding.producerComplete (op : Nat) :
    Sys2Proof.Laws.Encoding.Statement (.producerComplete op) := nofun
theorem Sys2Proof.Laws.Encoding.storeAcknowledged (op : Nat) :
    Sys2Proof.Laws.Encoding.Statement (.storeAcknowledged op) := nofun
theorem Sys2Proof.Laws.Encoding.pageWalkComplete (op idx : Nat) :
    Sys2Proof.Laws.Encoding.Statement (.pageWalkComplete op idx) := nofun
theorem Sys2Proof.Laws.Encoding.homeSliceAccess (ref : AccessRef) :
    Sys2Proof.Laws.Encoding.Statement (.homeSliceAccess ref) := nofun
theorem Sys2Proof.Laws.Encoding.commandComplete (core entry : Nat) :
    Sys2Proof.Laws.Encoding.Statement (.commandComplete core entry) := nofun
theorem Sys2Proof.Laws.Encoding.matrixCommandComplete (core id : Nat) :
    Sys2Proof.Laws.Encoding.Statement (.matrixCommandComplete core id) := nofun
theorem Sys2Proof.Laws.Encoding.ringCommandStart (core entry : Nat) :
    Sys2Proof.Laws.Encoding.Statement (.ringCommandStart core entry) := nofun
theorem Sys2Proof.Laws.Encoding.asyncCopyFault (core entry : Nat) :
    Sys2Proof.Laws.Encoding.Statement (.asyncCopyFault core entry) := nofun
theorem Sys2Proof.Laws.Encoding.elementParked (core entry : Nat) :
    Sys2Proof.Laws.Encoding.Statement (.elementParked core entry) := nofun
theorem Sys2Proof.Laws.Encoding.deferredFaultDelivery (block gang lane : Nat) :
    Sys2Proof.Laws.Encoding.Statement (.deferredFaultDelivery block gang lane) := nofun
theorem Sys2Proof.Laws.Encoding.slotRelease (block gang : Nat) :
    Sys2Proof.Laws.Encoding.Statement (.slotRelease block gang) := nofun
theorem Sys2Proof.Laws.Encoding.windowOpen (block gang lane : Nat) :
    Sys2Proof.Laws.Encoding.Statement (.windowOpen block gang lane) := nofun
theorem Sys2Proof.Laws.Encoding.spcommitExecute (core entry : Nat) :
    Sys2Proof.Laws.Encoding.Statement (.spcommitExecute core entry) := nofun
theorem Sys2Proof.Laws.Encoding.spabortExecute (core entry : Nat) :
    Sys2Proof.Laws.Encoding.Statement (.spabortExecute core entry) := nofun
theorem Sys2Proof.Laws.Encoding.queueEnable (q : BitVec 12) (value : BitVec 32) :
    Sys2Proof.Laws.Encoding.Statement (.queueEnable q value) := nofun
theorem Sys2Proof.Laws.Encoding.queueDisable (q : BitVec 12) (value : BitVec 32) :
    Sys2Proof.Laws.Encoding.Statement (.queueDisable q value) := nofun
theorem Sys2Proof.Laws.Encoding.queuePriorityWeight (q : BitVec 12) (value : BitVec 32) :
    Sys2Proof.Laws.Encoding.Statement (.queuePriorityWeight q value) := nofun
theorem Sys2Proof.Laws.Encoding.qtail (q : BitVec 12) (value : BitVec 32) :
    Sys2Proof.Laws.Encoding.Statement (.qtail q value) := nofun
theorem Sys2Proof.Laws.Encoding.qstatClearStopped (q : BitVec 12) :
    Sys2Proof.Laws.Encoding.Statement (.qstatClearStopped q) := nofun
theorem Sys2Proof.Laws.Encoding.recordTake (q : BitVec 12) :
    Sys2Proof.Laws.Encoding.Statement (.recordTake q) := nofun
theorem Sys2Proof.Laws.Encoding.landingEntry (launch : Nat) :
    Sys2Proof.Laws.Encoding.Statement (.landingEntry launch) := nofun
theorem Sys2Proof.Laws.Encoding.chainPlacement :
    Sys2Proof.Laws.Encoding.Statement (.chainPlacement) := nofun
theorem Sys2Proof.Laws.Encoding.blockSave (block : Nat) :
    Sys2Proof.Laws.Encoding.Statement (.blockSave block) := nofun
theorem Sys2Proof.Laws.Encoding.launchComplete (launch : Nat) :
    Sys2Proof.Laws.Encoding.Statement (.launchComplete launch) := nofun
theorem Sys2Proof.Laws.Encoding.childTemplateRead (die : BitVec 1) :
    Sys2Proof.Laws.Encoding.Statement (.childTemplateRead die) := nofun
theorem Sys2Proof.Laws.Encoding.dqerrClear (die : BitVec 1) :
    Sys2Proof.Laws.Encoding.Statement (.dqerrClear die) := nofun
theorem Sys2Proof.Laws.Encoding.kernelNodeRun (launch node : Nat) :
    Sys2Proof.Laws.Encoding.Statement (.kernelNodeRun launch node) := nofun
theorem Sys2Proof.Laws.Encoding.copyNode (launch node : Nat) :
    Sys2Proof.Laws.Encoding.Statement (.copyNode launch node) := nofun
theorem Sys2Proof.Laws.Encoding.conditionNode (launch node : Nat) :
    Sys2Proof.Laws.Encoding.Statement (.conditionNode launch node) := nofun
theorem Sys2Proof.Laws.Encoding.loopNode (launch node : Nat) :
    Sys2Proof.Laws.Encoding.Statement (.loopNode launch node) := nofun
theorem Sys2Proof.Laws.Encoding.contextEnable (c : BitVec 6) (value : BitVec 32) :
    Sys2Proof.Laws.Encoding.Statement (.contextEnable c value) := nofun
theorem Sys2Proof.Laws.Encoding.contextFreezeRequest (c : BitVec 6) :
    Sys2Proof.Laws.Encoding.Statement (.contextFreezeRequest c) := nofun
theorem Sys2Proof.Laws.Encoding.contextEvict (c : BitVec 6) :
    Sys2Proof.Laws.Encoding.Statement (.contextEvict c) := nofun
theorem Sys2Proof.Laws.Encoding.contextThaw (c : BitVec 6) :
    Sys2Proof.Laws.Encoding.Statement (.contextThaw c) := nofun
theorem Sys2Proof.Laws.Encoding.contextTeardown (c : BitVec 6) :
    Sys2Proof.Laws.Encoding.Statement (.contextTeardown c) := nofun
theorem Sys2Proof.Laws.Encoding.teardownEnd (c : BitVec 6) :
    Sys2Proof.Laws.Encoding.Statement (.teardownEnd c) := nofun
theorem Sys2Proof.Laws.Encoding.hostBar2Read (pa : BitVec 40) (len : Nat) :
    Sys2Proof.Laws.Encoding.Statement (.hostBar2Read pa len) := nofun
theorem Sys2Proof.Laws.Encoding.hostBar2Write (pa : BitVec 40) (bytes : List (BitVec 8)) :
    Sys2Proof.Laws.Encoding.Statement (.hostBar2Write pa bytes) := nofun
theorem Sys2Proof.Laws.Encoding.hostAtomicop (pa : BitVec 40) (op : HostAtomic) (wide : Bool) (b c : BitVec 64) :
    Sys2Proof.Laws.Encoding.Statement (.hostAtomicop pa op wide b c) := nofun
theorem Sys2Proof.Laws.Encoding.peerRequest (req : PeerReq) :
    Sys2Proof.Laws.Encoding.Statement (.peerRequest req) := nofun
theorem Sys2Proof.Laws.Encoding.portStateChange (port : BitVec 5) (up : Bool) :
    Sys2Proof.Laws.Encoding.Statement (.portStateChange port up) := nofun
theorem Sys2Proof.Laws.Encoding.peerResend (op idx : Nat) :
    Sys2Proof.Laws.Encoding.Statement (.peerResend op idx) := nofun
theorem Sys2Proof.Laws.Encoding.forwarderRowSend (die : BitVec 1) :
    Sys2Proof.Laws.Encoding.Statement (.forwarderRowSend die) := nofun
theorem Sys2Proof.Laws.Encoding.fwderrClear (die : BitVec 1) :
    Sys2Proof.Laws.Encoding.Statement (.fwderrClear die) := nofun
theorem Sys2Proof.Laws.Encoding.cbreq (cluster : Nat) (value : BitVec 32) :
    Sys2Proof.Laws.Encoding.Statement (.cbreq cluster value) := nofun
theorem Sys2Proof.Laws.Encoding.bankModeChange (cluster : Nat) :
    Sys2Proof.Laws.Encoding.Statement (.bankModeChange cluster) := nofun
theorem Sys2Proof.Laws.Encoding.cbhealth (cluster : Nat) (value : BitVec 64) :
    Sys2Proof.Laws.Encoding.Statement (.cbhealth cluster value) := nofun
theorem Sys2Proof.Laws.Encoding.selogClear (cluster : Nat) :
    Sys2Proof.Laws.Encoding.Statement (.selogClear cluster) := nofun
theorem Sys2Proof.Laws.Encoding.transferRetry (stack pc : Nat) :
    Sys2Proof.Laws.Encoding.Statement (.transferRetry stack pc) := nofun
theorem Sys2Proof.Laws.Encoding.pseudoChannelHold (stack pc : Nat) :
    Sys2Proof.Laws.Encoding.Statement (.pseudoChannelHold stack pc) := nofun
theorem Sys2Proof.Laws.Encoding.hrelRelease (stack pc : Nat) :
    Sys2Proof.Laws.Encoding.Statement (.hrelRelease stack pc) := nofun
theorem Sys2Proof.Laws.Encoding.hrelFail (stack pc : Nat) :
    Sys2Proof.Laws.Encoding.Statement (.hrelFail stack pc) := nofun
theorem Sys2Proof.Laws.Encoding.hswap (stack pc : Nat) (value : BitVec 32) :
    Sys2Proof.Laws.Encoding.Statement (.hswap stack pc value) := nofun
theorem Sys2Proof.Laws.Encoding.hlogClearArray (stack : Nat) :
    Sys2Proof.Laws.Encoding.Statement (.hlogClearArray stack) := nofun
theorem Sys2Proof.Laws.Encoding.hlogClearTransfer (stack : Nat) :
    Sys2Proof.Laws.Encoding.Statement (.hlogClearTransfer stack) := nofun
theorem Sys2Proof.Laws.Encoding.powerOnReset :
    Sys2Proof.Laws.Encoding.Statement (.powerOnReset) := nofun
theorem Sys2Proof.Laws.Encoding.resetreq (value : BitVec 32) :
    Sys2Proof.Laws.Encoding.Statement (.resetreq value) := nofun
theorem Sys2Proof.Laws.Encoding.flashPageWrite (region : FlashRegion) (offset : Nat) (bytes : List (BitVec 8)) :
    Sys2Proof.Laws.Encoding.Statement (.flashPageWrite region offset bytes) := nofun
theorem Sys2Proof.Laws.Encoding.clockStep :
    Sys2Proof.Laws.Encoding.Statement (.clockStep) := nofun
theorem Sys2Proof.Laws.Encoding.thermtrip (die : BitVec 1) :
    Sys2Proof.Laws.Encoding.Statement (.thermtrip die) := nofun
theorem Sys2Proof.Laws.Encoding.getVersion (t : Transport) :
    Sys2Proof.Laws.Encoding.Statement (.getVersion t) := nofun
theorem Sys2Proof.Laws.Encoding.getCapabilities (t : Transport) :
    Sys2Proof.Laws.Encoding.Statement (.getCapabilities t) := nofun
theorem Sys2Proof.Laws.Encoding.negotiateAlgorithms (t : Transport) (ecdsaP256 sha256 : Bool) :
    Sys2Proof.Laws.Encoding.Statement (.negotiateAlgorithms t ecdsaP256 sha256) := nofun
theorem Sys2Proof.Laws.Encoding.getDigests (t : Transport) :
    Sys2Proof.Laws.Encoding.Statement (.getDigests t) := nofun
theorem Sys2Proof.Laws.Encoding.getCertificate (t : Transport) (slot : BitVec 8) (offset len : Nat) :
    Sys2Proof.Laws.Encoding.Statement (.getCertificate t slot offset len) := nofun
theorem Sys2Proof.Laws.Encoding.challenge (t : Transport) (slot : BitVec 8) (nonce : BitVec 256) :
    Sys2Proof.Laws.Encoding.Statement (.challenge t slot nonce) := nofun
theorem Sys2Proof.Laws.Encoding.getMeasurements (t : Transport) (index : BitVec 8) (nonce : BitVec 256) :
    Sys2Proof.Laws.Encoding.Statement (.getMeasurements t index nonce) := nofun
theorem Sys2Proof.Laws.Encoding.unsupportedrequest (t : Transport) (code : BitVec 8) :
    Sys2Proof.Laws.Encoding.Statement (.unsupportedrequest t code) := nofun
theorem Sys2Proof.Laws.Encoding.registerWrite (offset : BitVec 25) (value : BitVec 64) :
    Sys2Proof.Laws.Encoding.Statement (.registerWrite offset value) := nofun
theorem Sys2Proof.Laws.Encoding.arithmeticClockCycle :
    Sys2Proof.Laws.Encoding.Statement (.arithmeticClockCycle) := nofun
theorem Sys2Proof.Laws.Encoding.hostInvalidation (c : BitVec 6) (every : Bool) (va : BitVec 64) (len : Nat) :
    Sys2Proof.Laws.Encoding.Statement (.hostInvalidation c every va len) := nofun
theorem Sys2Proof.Laws.Encoding.cxlMemAccess (pa : BitVec 40) (write : Option (List (BitVec 8))) (len : Nat) :
    Sys2Proof.Laws.Encoding.Statement (.cxlMemAccess pa write len) := nofun
theorem Sys2Proof.Laws.Encoding.linkTraining (rate width : Nat) (cxl : Bool) :
    Sys2Proof.Laws.Encoding.Statement (.linkTraining rate width cxl) := nofun
theorem Sys2Proof.Laws.Encoding.powerOff :
    Sys2Proof.Laws.Encoding.Statement (.powerOff) := nofun
end

