-- ==== Sys2Proof/Laws/Words.lean ====
section
/-! SUPPORT. What each shape of instruction word leaves of device memory, through its gate, its traps and its effect: nothing
changes as a word issues, where its effect changes nothing. -/

/- Theorems are checked one after another: many at once ask for more memory than the check allows. -/
set_option Elab.async false

namespace Sys2Proof.Machine

/-- An outcome whose next state has the device memory of `s`. -/
abbrev KeepsMem (o : Host.Outcome State Fault Refusal) (s : State) : Prop := ∀ t, o = .next t → t.mem = s.mem

theorem goOn_mem (s : State) (c : Nat) (pc : Dword) : (goOn s c pc).mem = s.mem := by
  simp only [goOn]
  repeat' split
  all_goals rfl

theorem finish_mem (t : Site) (e : Effect) : (finish t e).mem = e.st.mem := by
  have h1 : (if e.traps.isEmpty then e.st else takeTraps e.st t.blk t.gang e.traps t.unit.pc t.unit.lastIssue).mem = e.st.mem := by
    split
    · rfl
    · exact takeTraps_mem ..
  simp only [finish]
  generalize (if e.traps.isEmpty then e.st else takeTraps e.st t.blk t.gang e.traps t.unit.pc t.unit.lastIssue) = s0 at h1 ⊢
  have h2 : ∀ ms : List Move, (ms.foldl (makeMove t) s0).mem = e.st.mem := by
    intro ms
    rw [foldl_mem]
    · exact h1
    · intro t a; rfl
  split
  · split
    · rw [goOn_mem]; exact h2 _
    · exact h2 _
  · exact h2 _

theorem throughGate_keeps (gt : Gate) (n : Nat) (s : State) (eff : Site → BitVec 32 → BitVec 32 → Effect)
    (h : ∀ t iss act, (eff t iss act).st.mem = s.mem) : KeepsMem (throughGate gt n s eff) s := by
  intro t ht
  simp only [throughGate] at ht
  split at ht
  · cases ht
  · cases ht; rfl
  · split at ht
    · cases ht; exact finish_mem ..
    · cases ht; exact (finish_mem ..).trans (h ..)

theorem runWord_keeps (i : Instr) (s : State) (eff : Site → BitVec 32 → BitVec 32 → Effect)
    (h : ∀ t iss act, (eff t iss act).st.mem = s.mem) : KeepsMem (runWord i s eff) s := throughGate_keeps _ _ _ _ h

theorem lanesWord_keeps (i : Instr) (s : State) (f : Site → Gang → List Nat → Nat → LaneResult) :
    KeepsMem (lanesWord i s f) s := runWord_keeps _ _ _ (fun _ _ _ => rfl)
theorem laneWord_keeps (i : Instr) (s : State) (f : Site → Gang → Nat → LaneResult) : KeepsMem (laneWord i s f) s :=
  lanesWord_keeps _ _ _
theorem vWord_keeps (i : Instr) (s : State) (d : Nat) (f : Gang → Nat → Thread → Word) : KeepsMem (vWord i s d f) s :=
  laneWord_keeps _ _ _
theorem pairWord_keeps (i : Instr) (s : State) (d : Nat) (f : Gang → Nat → Thread → Dword) : KeepsMem (pairWord i s d f) s :=
  laneWord_keeps _ _ _
theorem predWord_keeps (i : Instr) (s : State) (d : Nat) (f : Gang → Nat → Thread → Bool) : KeepsMem (predWord i s d f) s :=
  laneWord_keeps _ _ _
theorem crossWord_keeps (i : Instr) (s : State) (f : Gang → List Nat → Nat → Thread → Thread) : KeepsMem (crossWord i s f) s :=
  runWord_keeps _ _ _ (fun _ _ _ => rfl)
theorem gangWord_keeps (i : Instr) (s : State) (f : Gang → BitVec 32 → Gang) : KeepsMem (gangWord i s f) s :=
  runWord_keeps _ _ _ (fun _ _ _ => rfl)
theorem onceWord_keeps (i : Instr) (s : State) (e : Bool) (f : Site → BitVec 32 → State)
    (h : ∀ t act, (f t act).mem = s.mem) : KeepsMem (onceWord i s e f) s := runWord_keeps _ _ _ (fun t _ act => h t act)
theorem modWord_keeps (i : Instr) (s : State) (sl : BitVec 2) (f : Modulus → Thread → List (Nat × Dword)) :
    KeepsMem (modWord i s sl f) s := laneWord_keeps _ _ _

theorem startOp_mem (s : State) (t : Site) (lanes : List Nat) (dst : List RegRef) (cls : Option Counter) (kind : OpKind)
    (accs : List Access) : (startOp s t lanes dst cls kind accs).mem = s.mem := rfl
theorem startProducer_mem (s : State) (t : Site) (lanes : List Nat) (dst : List RegRef) (res : List Result) :
    (startProducer s t lanes dst res).mem = s.mem := rfl

theorem accessWord_keeps (i : Instr) (s : State) (dst : List RegRef) (kind : OpKind) (addr : Gang → Nat → Int)
    (acc : Gang → Nat → Access) : KeepsMem (accessWord i s dst kind addr acc) s := by
  apply runWord_keeps
  intro t iss act
  dsimp only
  split
  · rfl
  · split <;> rfl
theorem atomicWord_keeps (i : Instr) (s : State) (dst : List RegRef) (a : BitVec 6) (sp : BitVec 2) (off : BitVec 14) (w : BitVec 1)
    (order : BitVec 2) (scope : BitVec 3) (kind : Gang → List Nat → OpKind) :
    KeepsMem (atomicWord i s dst a sp off w order scope kind) s := by
  apply runWord_keeps
  intro t iss act
  dsimp only
  split
  · rfl
  · split <;> rfl
theorem planeWord_keeps (i : Instr) (s : State) (kq : BitVec 6) (dst : List RegRef)
    (mk : Gang → PlaneOperand → BitVec 32 → OpKind × List Access) (planes : Gang → List Nat) :
    KeepsMem (planeWord i s kq dst mk planes) s := by
  apply runWord_keeps
  intro t iss act
  dsimp only
  split
  · rfl
  · split <;> rfl
theorem onceAccess_keeps (i : Instr) (s : State) (dst : List RegRef) (kind : OpKind) (addr : Gang → Int)
    (acc : Gang → BitVec 32 → Access) : KeepsMem (onceAccess i s dst kind addr acc) s := by
  apply runWord_keeps
  intro t iss act
  dsimp only
  split
  · rfl
  · split <;> rfl
theorem softwareWord_keeps (i : Instr) (s : State) (c : BitVec 8) (imm : BitVec 18) : KeepsMem (softwareWord i s c imm) s :=
  runWord_keeps _ _ _ (fun _ _ _ => rfl)
theorem writeBackWord_keeps (i : Instr) (s : State) (a l : BitVec 6) (d : Bool) : KeepsMem (writeBackWord i s a l d) s :=
  onceWord_keeps _ _ _ _ (fun _ _ => rfl)
theorem specialWord_keeps (i : Instr) (s : State) (c : Nat) (d b : BitVec 6) : KeepsMem (specialWord i s c d b) s := by
  apply runWord_keeps
  intro t iss act
  dsimp only
  split <;> rfl
theorem ringWord_keeps (i : Instr) (s : State) (f : Site → Block → Gang → Except Trap State)
    (h : ∀ t b g u, f t b g = .ok u → u.mem = s.mem) : KeepsMem (ringWord i s f) s := by
  apply runWord_keeps
  intro t iss act
  split
  · rfl
  · split
    · rename_i hh; exact h _ _ _ _ hh
    · rfl
theorem windowWord_keeps (i : Instr) (s : State) (f : Site → BitVec 32 → Except Trap State)
    (h : ∀ t act u, f t act = .ok u → u.mem = s.mem) : KeepsMem (windowWord i s f) s := by
  apply runWord_keeps
  intro t iss act
  split
  · rename_i hh; exact h _ _ _ hh
  · rfl
theorem tileWordOp_keeps (i : Instr) (s : State) (tile n : Nat) (kpos : BitVec 6) (f : Site → Block → Word → List Nat → State)
    (h : ∀ t b p ls, (f t b p ls).mem = s.mem) : KeepsMem (tileWordOp i s tile n kpos f) s := by
  apply runWord_keeps
  intro t iss act
  dsimp only
  split
  · rfl
  · split
    · rfl
    · exact h ..

/-! ### Commands, joins and rings -/

theorem setEntry_mem (s : State) (core e : Nat) (x : Option Command) : (setEntry s core e x).mem = s.mem := rfl
theorem dropRow_mem (s : State) (d r x : Nat) : (dropRow s d r x).mem = s.mem := by
  simp only [dropRow]
  split
  · rfl
  · simp [notify_mem]
theorem issueCommand_mem (s : State) (core blk id : Nat) (i : Instr) (uni : List Word) (parts : List Participant)
    (lead : ThreadRef) (gangs : List Nat) : (issueCommand s core blk id i uni parts lead gangs).mem = s.mem := by
  simp only [issueCommand]
  split
  · simp only [issueSkidder]; split <;> rfl
  · split
    · simp only [issueForwarder]
      split
      · simp only [modDie_mem]
        apply foldl_mem
        intro t a; exact dropRow_mem ..
      · rfl
    · simp only [issueMatrix]; split <;> rfl
theorem countIn_mem (s : State) (blk g : Nat) (i : Instr) (id : Nat) : (countIn s blk g i id).mem = s.mem := by
  simp only [countIn]; split <;> rfl
theorem issueUnsigned_mem (s : State) (t : Site) (i : Instr) (ls : List Nat) : (issueUnsigned s t i ls).mem = s.mem := by
  simp only [issueUnsigned, issueCommand_mem, countIn_mem, freshId]
theorem lockSigner_mem (s : State) (blk : Nat) (x : Signer) (f : Nat → Nat) : (lockSigner s blk x f).mem = s.mem := rfl
theorem modJoin_mem (s : State) (blk j : Nat) (f : JoinReg → JoinReg) : (modJoin s blk j f).mem = s.mem := rfl
theorem settle_mem (s : State) (core blk j : Nat) (lead : ThreadRef) : (settle s core blk j lead).mem = s.mem := by
  have h : ∀ (xs : List Signer), (xs.foldl (fun s g => lockSigner s blk g (fun n => n - 1)) s).mem = s.mem := by
    intro xs; apply foldl_mem; intro t a; rfl
  simp only [settle]
  split
  · rfl
  · split
    · split
      · rw [issueCommand_mem, modJoin_mem, h]
      · rw [modJoin_mem, h]
    · rw [modJoin_mem, h]
theorem signLanes_mem (s : State) (t : Site) (j : Nat) (k : JoinKind) (ls : List Nat) (mk : Nat → Signer) :
    (signLanes s t j k ls mk).mem = s.mem := by
  simp only [signLanes]
  split
  · rfl
  · rw [settle_mem, modJoin_mem]
theorem signCommand_mem (s : State) (t : Site) (j : Nat) (i : Instr) (ls : List Nat) : (signCommand s t j i ls).mem = s.mem := by
  simp only [signCommand]
  split
  · rfl
  · rw [signLanes_mem, foldl_mem]
    · split
      · split <;> rfl
      · rw [countIn_mem]; split <;> rfl
    · intro t a; rfl
theorem leaveJoin_mem (s : State) (core blk j g : Nat) (act : BitVec 32) : (leaveJoin s core blk j g act).mem = s.mem := by
  simp only [leaveJoin]
  repeat' split
  · rfl
  · rfl
  · rw [settle_mem, modJoin_mem]
theorem commandWord_keeps (i : Instr) (s : State) (check : Block → Site → Gang → Nat → Option Trap) :
    KeepsMem (commandWord i s check) s := by
  apply runWord_keeps
  intro t iss act
  dsimp only
  split
  · rfl
  · dsimp only
    split
    · exact signCommand_mem ..
    · repeat' split
      all_goals first | rfl | exact issueUnsigned_mem ..
theorem transferWord_keeps (i : Instr) (s : State) (target : Site → Gang → Nat → Dword) (point : Dword → Dword × Nat)
    (also left : Site → BitVec 32 → State → State) (h1 : ∀ t a u, (also t a u).mem = u.mem) (h2 : ∀ t a u, (left t a u).mem = u.mem) :
    KeepsMem (transferWord i s target point also left) s := by
  intro t ht
  simp only [transferWord] at ht
  repeat' split at ht
  all_goals first
    | cases ht; rfl
    | (cases ht; simp only [finish_mem, h1, h2])
    | cases ht
theorem resetSlot_mem (s : State) (blk o g : Nat) : (resetSlot s blk o g).mem = s.mem := by
  simp only [resetSlot]; split
  · rfl
  · exact windowWrite_mem ..
theorem acquire_mem (s : State) (c n : Nat) : (acquire s c n).mem = s.mem := by
  simp only [acquire]
  repeat' split
  all_goals rfl
theorem mapCores_mem (s : State) (f : Core → Core) : (mapCores s f).mem = s.mem := by
  simp only [mapCores]; apply foldl_mem; intro t a; rfl
theorem mapClusters_mem (s : State) (f : Cluster → Cluster) : (mapClusters s f).mem = s.mem := by
  simp only [mapClusters]; apply foldl_mem; intro t a; rfl
theorem invalidateTranslations_mem (s : State) (c : Option Nat) (r : Option (Nat × Nat)) :
    (invalidateTranslations s c r).mem = s.mem := by
  simp only [invalidateTranslations, mapCores_mem, mapClusters_mem]
theorem issueWindow_mem (s : State) (t : Site) (i : Instr) (a : BitVec 32) (h : List Nat) : (issueWindow s t i a h).mem = s.mem := by
  simp only [issueWindow]; split
  · rfl
  · simp [issueUnsigned_mem]
theorem settleMerges_mem (s : State) (b g : Nat) : (settleMerges s b g).mem = s.mem := by
  simp only [settleMerges]
  split
  · rfl
  · rw [foldl_mem]
    · rfl
    · intro t a; exact takeTraps_mem ..
theorem thenMerges_keeps (p : Nat × Nat) (o : Host.Outcome State Fault Refusal) (s : State) (h : KeepsMem o s) :
    KeepsMem (thenMerges p o) s := by
  intro t ht
  cases o with
  | next u => simp only [thenMerges] at ht; cases ht; exact (settleMerges_mem ..).trans (h u rfl)
  | fault f => simp [thenMerges] at ht
  | refused f => simp [thenMerges] at ht

/-! ### Tiles, windows and the end of a thread -/

theorem putTileByte_mem (s : State) (blk sp o x : Nat) : (putTileByte s blk sp o x).mem = s.mem := by
  simp only [putTileByte]; repeat' split
  all_goals first | rfl | exact windowWrite_mem ..
theorem putTileWord_mem (s : State) (blk sp o x : Nat) : (putTileWord s blk sp o x).mem = s.mem := by
  simp only [putTileWord]; repeat' split
  all_goals first | rfl | exact windowWrite_mem ..
theorem setTileGap_mem (s : State) (blk sp o : Nat) : (setTileGap s blk sp o).mem = s.mem := by
  simp only [setTileGap]; repeat' split
  all_goals first | rfl | exact putTileWord_mem ..
theorem zeroTile_mem (s : State) (blk : Nat) (b : Block) (sp : Nat) (o n : Nat) : (zeroTile s blk b sp o n).mem = s.mem := by
  simp only [zeroTile]; repeat' split
  all_goals first | rfl | exact windowWrite_mem ..
theorem skipEntry_mem (s : State) (c : Nat) (x : Parked) : (skipEntry s c x).mem = s.mem := by
  have hu : ∀ t : State, (unpark t c x.handle).mem = t.mem := by
    intro t; simp only [unpark]; split <;> rfl
  simp only [skipEntry]
  split
  · rfl
  · rw [hu]; split
    · rfl
    · exact zeroTile_mem ..
theorem issueClose_mem {s : State} {t : Site} {i : Instr} {a : BitVec 32} {h : Word} {k : Nat} {u : State}
    (hu : issueClose s t i a h k = .ok u) : u.mem = s.mem := by
  simp only [issueClose] at hu
  split at hu
  · cases hu
  · cases hu; exact issueWindow_mem ..
theorem accWrite_mem (s : State) (blk t n : Nat) (k : Word) (ls : List Nat) (v : Table Word) : (accWrite s blk t n k ls v).mem = s.mem := rfl
theorem reachClusters_mem (s : State) : (reachClusters s).mem = s.mem := by
  simp only [reachClusters]
  apply foldl_mem
  intro t e
  split <;> rfl
theorem doneInGangs_mem (s : State) (b : Nat) (gangs : List Nat) (id : Nat) : (doneInGangs s b gangs id).mem = s.mem := by
  rw [doneInGangs, reachClusters_mem]
  apply foldl_mem
  intro t a; rfl
theorem retire_mem (s : State) (core e : Nat) (c : Command) : (retire s core e c).mem = s.mem := doneInGangs_mem ..
theorem abortCommand_mem (e : Engine) (s : State) (entry kind : Nat) : (abortCommand e s entry kind).mem = s.mem := by
  have h : (match gapTile e s with
      | some (sp, o) => if kind = 3 then s else setTileGap s e.blk sp o
      | none => s).mem = s.mem := by
    split
    · split
      · rfl
      · exact setTileGap_mem ..
    · rfl
  simp only [abortCommand]
  split
  · exact (retire_mem ..).trans h
  · exact h
theorem abortChoice_mem (s : State) (core entry blk : Nat) : (chooseCopy s core entry blk 2).mem = s.mem := by
  simp only [chooseCopy]
  split
  · rfl
  · split
    · rfl
    · split
      · rw [if_neg (by decide)]
        split
        · exact retire_mem ..
        · exact retire_mem ..
        · rw [if_neg (by decide)]; exact abortCommand_mem ..
      · rfl
theorem readChoice_exit_mem (s : State) (core blk : Nat) (b : Thread) : (readChoice s core blk b true).mem = s.mem := by
  simp only [readChoice]
  split
  · rfl
  · exact abortChoice_mem ..
theorem exitLanes_mem (s : State) (core blk g : Nat) (act : BitVec 32) : (exitLanes s core blk g act).mem = s.mem := by
  simp only [exitLanes, modGang_mem]
  rw [foldl_mem, foldl_mem]
  · intro t l
    simp only [exitLane, modThread_mem, dropDeferred_mem, readChoice_exit_mem]
  · intro t j; exact leaveJoin_mem ..
theorem dropLine_mem (s : State) (core ctx va : Nat) : (dropLine s core ctx va).2.mem = s.mem := by
  have h := translate_mem s (clusterOf core) ctx va
  simp only [dropLine]
  split
  · rfl
  · generalize translate s (clusterOf core) ctx va = r at h ⊢
    rcases r with ⟨x, s1⟩
    cases x with
    | leaf l =>
      simp only
      repeat' split
      all_goals exact h
    | none => exact h
    | bad => exact h
    | blocked => exact h

end Sys2Proof.Machine
end

