-- ==== Sys2Proof/Tests/Slice0.lean ====
section
/-! SUPPORT. The tests of the model: ill-formed terms that WellFormed refuses, words of the spec's listings that decode, worked
values of the spec's tables, and for every statement a state and operands that meet its hypotheses. -/

/- Theorems are checked one after another: many at once ask for more memory than the check allows. -/
set_option Elab.async false

namespace Sys2Proof.Tests

open Machine

/-! ### A word laid to run first -/

/-- The state after reset with an instruction word laid as the first to run. -/
def placed (i : Instr) : State := placeWord State.reset ((encode i).headD 0) ((encode i).getD 1 0)

/-- The descriptor bytes 20 to 87 of a window of one draft page, 256 bytes a token, one checkpoint slot of 256 bytes, and its
free stack at 0x200100. -/
def geometry : List Byte :=
  natBytes 2 16 ++ natBytes 2 1 ++ natBytes 4 256 ++ natBytes 4 1 ++ natBytes 8 0x200400 ++ natBytes 8 0 ++
    natBytes 8 0x200100 ++ natBytes 8 0x400000 ++ natBytes 8 0x200800 ++ natBytes 4 256 ++ natBytes 4 0 ++ natBytes 8 0x200900

/-- The thread of a prepared state: v20:v21 the code address, v22 all ones, slot 0 set to 257, sys.tpc the clause's header, and
sys.spx the handle of speculation entry 0. -/
def preparedThread : Thread :=
  { cond := .live, v := [(20, { val := 0x200000 }), (22, { val := 0xFFFFFFFF })], mods := [(0, some { q := 257, c := 1020 })],
    tpc := resumeAt 0x200000 15, spx := 0x80000000 }

/-- A state made ready for every word: registers as `preparedThread` has them, p0 true in lane 0 alone, k20:k21 the code
address, k24 a handle, k28:k29 and k30:k31 scratch operands, k36:k39 a plane operand, join register 0 armed with the whole
gang, a ring at the start of local store, and speculation entry 0 live. -/
def prepared (s : State) : State :=
  let s := modBlock s 1 (fun b =>
    { b with
      joins := [(0, { armed := true, members := lanes32.map (fun l => (0, l)) })]
      lstore := tsetMany 0 [] 0 (natBytes 4 0x91A70000 ++ natBytes 4 64) })
  let s := modGang s 1 0 (fun g =>
    { g with
      threads := lanes32.map (fun l => (l, if l = 0 then { preparedThread with p := [(0, { val := true })] } else preparedThread))
      k := [(20, { val := 0x200000 }), (24, { val := 0x80000000 }), (29, { val := 64 }), (31, { val := 64 }), (37, { val := 0x7F00 }), (38, { val := 1 }), (39, { val := 256 }),
            (41, { val := 1 })] })
  { s with
    mem := tsetMany 0 s.mem 0x200100 (natBytes 4 1 ++ natBytes 4 8 ++ natBytes 8 0 ++ natBytes 4 5)
    windows := [(0, { live := true, desc := 0x200200, geom := geometry })] }

/-- Whether a word goes on in a state: no thread of the gang laid to run has trapped, and no unit stands at the word. -/
def completes (i : Instr) (s : State) : Bool :=
  match exec i s with
  | .next t =>
    lanes32.all (fun l => (getThread t 1 0 l).stalled.isNone && !(getThread t 1 0 l).handler) &&
      (getGang t 1 0).units.all (fun u => u.pc != resumeAt 0x200004 0 || u.wait != .none)
  | _ => false

/-- Whether a word issues in a state for the threads its guard leaves active: the conditions of `Issues`, computed. -/
def issuing (i : Instr) (s : State) : Bool :=
  match siteFor s ((encode i).headD 0) ((encode i).getD 1 0) i.words with
  | none => false
  | some t =>
    match getBlock s t.blk with
    | none => false
    | some b =>
      let g := gangOf b t.gang
      let act := if isSel i then t.unit.lanes else guardHolds g i.guard t.unit.lanes
      !unitBlocked g t.unit && i.guard != 15 && (guardTraps t g i.guard).isEmpty && act != 0 && (legality i).isEmpty &&
        (placeReasons t i).isEmpty && (valueReasons g i).isEmpty &&
        (!needsPrivilege i || (getContext s b.ctx).privileged) && (numberTrap s b i).isNone &&
        (lanesOf act).all (fun l => (emptyOf g l (trapSources g i l)).isNone && ((consumed i).find? (refPoison g l)).isNone &&
          (hdrTraps t.hdr t.slot || (emptyOf g l (sourcesAt g i)).isNone) &&
          (destsAt g i).all (fun r => !refEmpty g l r && !refLocked g l r)) &&
        !engineFull s t b act i && !ownWait s t b act i

theorem issues_of_issuing {i : Instr} {s : State} (h : issuing i s = true) : ∃ t b act, Issues i s t b act := by
  unfold issuing at h
  split at h
  · cases h
  · rename_i t ht
    split at h
    · cases h
    · rename_i b hb
      simp only [Bool.and_eq_true, Bool.not_eq_true', bne_iff_ne, ne_eq, List.isEmpty_iff, Option.isNone_iff_eq_none,
        List.all_eq_true, Bool.or_eq_true] at h
      obtain ⟨⟨⟨⟨⟨⟨⟨⟨⟨⟨⟨h1, h2⟩, h3⟩, h4⟩, h5⟩, h6⟩, h7⟩, h8⟩, h9⟩, h10⟩, h11⟩, h12⟩ := h
      refine ⟨t, b, _, ht, hb, h1, h2, h3, rfl, h4, h5, h6, h7, ?_, h9, ?_, ?_, ?_, ?_, h11, h12⟩
      · intro hp
        rcases h8 with h8 | h8
        · rw [hp] at h8; cases h8
        · exact h8
      · exact fun l hl => (h10 l hl).1.1.1
      · intro hd l hl
        have h := (h10 l hl).1.2
        rwa [hd, Bool.false_eq_true, false_or] at h
      · exact fun l hl => (h10 l hl).1.1.2
      · exact fun l hl r hr => (h10 l hl).2 r hr

/-- A word issues, and goes on, as the first word of a prepared state. -/
def runs (i : Instr) : Bool :=
  let s := prepared (placed i)
  issuing i s && completes i s



theorem issues_of_runs {i : Instr} (h : runs i = true) : ∃ s t b act, Issues i s t b act := by
  simp only [runs, Bool.and_eq_true] at h
  exact ⟨_, issues_of_issuing h.1⟩

theorem issues_of_all {l : List Instr} (h : l.all runs = true) : ∀ i ∈ l, ∃ s t b act, Issues i s t b act :=
  fun i hi => issues_of_runs (List.all_eq_true.mp h i hi)

/-! ### Words that issue and complete: the hypotheses of the statements about each word -/

theorem witness_IntegerWords :
    ∀ i ∈ ([.add 0 4 8 12, .addK 0 4 8 12, .sub 0 4 8 12, .subK 0 4 8 12, .mul 0 4 8 12, .mulK 0 4 8 12, .mulh 0 4 8 12,
     .mulhK 0 4 8 12, .mad 0 4 8 12, .madK 0 4 8 12, .min 0 4 8 12, .minK 0 4 8 12, .max 0 4 8 12, .maxK 0 4 8 12,
     .abs 0 4 8, .absK 0 4 8, .neg 0 4 8, .negK 0 4 8, .div 0 4 8 12, .divK 0 4 8 12, .rem 0 4 8 12, .remK 0 4 8 12,
     .mov 0 4 8, .movK 0 4 8, .lea 0 4 8 12, .leaK 0 4 8 12] : List Instr), ∃ s t b act, Issues i s t b act :=
  issues_of_all (by decide +kernel)

theorem witness_LogicWords :
    ∀ i ∈ ([.and 0 4 8 12, .andK 0 4 8 12, .or 0 4 8 12, .orK 0 4 8 12, .xor 0 4 8 12, .xorK 0 4 8 12, .andn 0 4 8 12,
     .andnK 0 4 8 12, .shl 0 4 8 12, .shlK 0 4 8 12, .shr 0 4 8 12, .shrK 0 4 8 12, .sra 0 4 8 12, .sraK 0 4 8 12,
     .rot 0 4 8 12, .rotK 0 4 8 12, .bfe 0 4 8 12, .bfeK 0 4 8 12, .bfi 0 4 8 12, .bfiK 0 4 8 12, .popc 0 4 8,
     .popcK 0 4 8, .clz 0 4 8, .clzK 0 4 8, .brev 0 4 8, .brevK 0 4 8] : List Instr), ∃ s t b act, Issues i s t b act :=
  issues_of_all (by decide +kernel)

theorem witness_PairWords :
    ∀ i ∈ ([.add64 0 4 8 12, .sub64 0 4 8 12, .mul64 0 4 8 12, .mulh64 0 4 8 12, .min64 0 4 8 12, .max64 0 4 8 12,
     .shl64 0 4 8 12, .shr64 0 4 8 12, .sra64 0 4 8 12] : List Instr), ∃ s t b act, Issues i s t b act :=
  issues_of_all (by decide +kernel)

theorem witness_ImmediateWords :
    ∀ i ∈ ([.addImm 0 4 8 0, .andImm 0 4 8 0, .orImm 0 4 8 0, .xorImm 0 4 8 0, .movi 0 4 0, .movh 0 4 0, .shlImm 0 4 8 0 12,
     .shrImm 0 4 8 0 12, .sraImm 0 4 8 0 12, .rotImm 0 4 8 0 12, .shlImm 7 4 8 1 40, .shrImm 7 4 8 1 40,
     .sraImm 7 4 8 1 63, .rotImm 7 4 8 1 32, .shlImm 7 4 8 0 31] : List Instr), ∃ s t b act, Issues i s t b act :=
  issues_of_all (by decide +kernel)

theorem witness_SelectWords :
    ∀ i ∈ ([.sel 0 4 8 12, .selK 0 4 8 12] : List Instr), ∃ s t b act, Issues i s t b act :=
  issues_of_all (by decide +kernel)

theorem witness_PredicateWords :
    ∀ i ∈ ([.cmp 0 0 0 0 4 8 0, .cmpImm 0 0 0 4 0, .plop 0 0 0 0 0 0 0, .pmovv 0 4, .vpmov 0 127 4] : List Instr), ∃ s t b act, Issues i s t b act :=
  issues_of_all (by decide +kernel)

theorem witness_UniformWords :
    ∀ i ∈ ([.kmov 7 4 8, .kmovImm 7 4 2047, .klane 7 4 8 12] : List Instr), ∃ s t b act, Issues i s t b act :=
  issues_of_all (by decide +kernel)

theorem witness_SingleFloatWords :
    ∀ i ∈ ([.fadd 0 4 8 12, .faddK 0 4 8 12, .fsub 0 4 8 12, .fsubK 0 4 8 12, .fmul 0 4 8 12, .fmulK 0 4 8 12,
     .ffma 0 4 8 12, .ffmaK 0 4 8 12, .fmin 0 4 8 12, .fminK 0 4 8 12, .fmax 0 4 8 12, .fmaxK 0 4 8 12, .fabs 0 4 8,
     .fabsK 0 4 8, .fneg 0 4 8, .fnegK 0 4 8] : List Instr), ∃ s t b act, Issues i s t b act :=
  issues_of_all (by decide +kernel)

theorem witness_PackedFloatWords :
    ∀ i ∈ ([.faddF16x2 0 4 8 12, .faddBf16x2 0 4 8 12, .fsubF16x2 0 4 8 12, .fsubBf16x2 0 4 8 12, .fmulF16x2 0 4 8 12,
     .fmulBf16x2 0 4 8 12, .ffmaF16x2 0 4 8 12, .ffmaBf16x2 0 4 8 12, .fminF16x2 0 4 8 12, .fminBf16x2 0 4 8 12,
     .fmaxF16x2 0 4 8 12, .fmaxBf16x2 0 4 8 12, .fabsF16x2 0 4 8, .fabsBf16x2 0 4 8, .fnegF16x2 0 4 8,
     .fnegBf16x2 0 4 8] : List Instr), ∃ s t b act, Issues i s t b act :=
  issues_of_all (by decide +kernel)

theorem witness_SpecialFunctionWords :
    ∀ i ∈ ([.frcp 0 4 8, .frsq 0 4 8, .fsqrt 0 4 8, .fex2 0 4 8, .flg2 0 4 8, .fsin 0 4 8, .fcos 0 4 8, .ftanh 0 4 8,
     .fcls 0 4 8] : List Instr), ∃ s t b act, Issues i s t b act :=
  issues_of_all (by decide +kernel)

/-- Operands of the special functions (R186): within FRCP's and FRSQ's steps of a power of two, with an exact reciprocal, at the
powers of four and two, and a whole number for FEX2; and under ftz a subnormal operand, and a subnormal and a normal result. -/
theorem witness_SpecialFunctionWords_bounds :
    let y (x : Nat) : Machine.Dyadic := match decodeF fp32 x with | .fin z => z | _ => dyOf 0 0
    let le (u v : Machine.Dyadic) : Bool := dyLe u v
    let same (u v : Machine.Dyadic) : Bool := le u v && le v u
    (y 0x40400000).m ≠ 0 ∧ le (dyMul (dyOf 1 (-2)) (y 0x40400000)) (dyOf 1 0) = true ∧
    le (dyMul (dyOf 1 (-1)) (y 0x40400000)) (dyOf 1 0) = false ∧ same (dyMul (y 0x3F000000) (y 0x40000000)) (dyOf 1 0) = true ∧
    le (dyMul (dyOf 1 (2 * -1)) (y 0x40400000)) (dyOf 1 0) = true ∧ le (dyMul (dyOf 1 (2 * -1 + 2)) (y 0x40400000)) (dyOf 1 0) = false ∧
    same (y 0x40800000) (dyOf 1 (2 * 1)) = true ∧ same (y 0x41000000) (dyOf 1 3) = true ∧
    same (y 0xC1000000) { neg := true, m := 8, e := 0 } = true ∧ dyLog (y 0x00000001) < -126 ∧ (y 0x00000001).m ≠ 0 ∧
    -126 ≤ dyLog (y 0xC2FE0000) ∧
    (let m : FpMode := { rm := 0, ftz := false, nft := false }
     (y (specialBits 3 m 0xC2FE0000)).m ≠ 0 ∧ dyLog (y (specialBits 3 m 0xC2FE0000)) < -126 ∧
       -126 ≤ dyLog (y (specialBits 3 m 0x40000000))) := by decide +kernel

theorem witness_FloatCompare :
    ∀ i ∈ ([.fcmp 0 0 0 4 8 0] : List Instr), ∃ s t b act, Issues i s t b act :=
  issues_of_all (by decide +kernel)

theorem witness_ConversionWords :
    ∀ i ∈ ([.cvt 0 4 8 0 1 1 12, .cvtpk 0 4 8 0 0 0, .cvtup 0 4 8 0] : List Instr), ∃ s t b act, Issues i s t b act :=
  issues_of_all (by decide +kernel)

theorem witness_ShuffleAndVoteWords :
    ∀ i ∈ ([.shfl 7 4 8 12, .shfld 7 4 8 12, .shflx 7 4 8 31, .pcons 7 1 2 3, .lmask 7 4 7] : List Instr), ∃ s t b act, Issues i s t b act :=
  issues_of_all (by decide +kernel)

theorem witness_ReductionWords :
    ∀ i ∈ ([.red 0 4 8 0, .scan 0 4 8 0 0, .matchEq 0 4 8, .conflict 0 4 8, .hist 0 4 8] : List Instr), ∃ s t b act, Issues i s t b act :=
  issues_of_all (by decide +kernel)

theorem witness_LoadsAndStoresIssue :
    ∀ i ∈ ([.ld 0 4 8 6 0 15, .ldro 0 4 8 4 0 1, .st 0 4 8 6 0 0, .ldx 0 4 8 2 0 7, .stx 0 4 8 2 0 1] : List Instr), ∃ s t b act, Issues i s t b act :=
  issues_of_all (by decide +kernel)

theorem witness_AtomicsIssue :
    ∀ i ∈ ([.atom 0 4 8 1 12 0 0 4 3 0 8188, .cas 0 4 8 1 12 16 1 0 0 0, .atom 0 4 8 1 12 0 1 4 1 0 0,
     .cas 0 4 8 1 12 16 0 0 3 0, .atom 0 4 8 0 12 0 0 4 0 0 8188] : List Instr), ∃ s t b act, Issues i s t b act :=
  issues_of_all (by decide +kernel)

theorem witness_FenceAndCacheWords :
    ∀ i ∈ ([.wait 0 6 63, .fence 0 4 2, .cmaintDropL1 7, .pf 0 1 4 8, .cmaintCleanL2 0 4 8, .cmaintFlushL2 0 4 8,
     .cmaintDropL2 0 4 8, .fence 7 0 0, .fence 7 2 1] : List Instr), ∃ s t b act, Issues i s t b act :=
  issues_of_all (by decide +kernel)

theorem witness_PlaneWords :
    ∀ i ∈ ([.ldp 7 15 36 15 6, .ldpr 7 0 36 0 0, .stp 7 0 36, .qunp 7 4 0 0 0, .qtagGet 7 4 0, .qpk 7 15 4 15 1 2,
     .qtagSet 7 4 0] : List Instr), ∃ s t b act, Issues i s t b act :=
  issues_of_all (by decide +kernel)

theorem witness_JoinWords :
    ∀ i ∈ ([.jinit 7 4 1, .jsign 7 4 0, .jwait 7 22 0, .jleave 7 7] : List Instr), ∃ s t b act, Issues i s t b act :=
  issues_of_all (by decide +kernel)

theorem witness_DivergenceWords :
    ∀ i ∈ ([.gsplit 7 4 7 1, .gjoin 7 22] : List Instr), ∃ s t b act, Issues i s t b act :=
  issues_of_all (by decide +kernel)

theorem witness_TransferWords :
    ∀ i ∈ ([.ret 7 20, .jmpi 7 20 1, .call 7 0, .bru 7 0, .jmp 7 0] : List Instr), ∃ s t b act, Issues i s t b act :=
  issues_of_all (by decide +kernel)

theorem witness_EndingWords :
    ∀ i ∈ ([.exit 7, .yield 7, .halt 7 0] : List Instr), ∃ s t b act, Issues i s t b act :=
  issues_of_all (by decide +kernel)

/-- An odd modulus in range, and an x below the bound; and an even one that is at least 3. -/
theorem witness_BarrettIsRemainder :
    3 ≤ 257 ∧ 257 % 2 = 1 ∧ 257 < 2 ^ 62 ∧ 256 * 256 < 2 ^ (2 * (Nat.log2 257 + 1)) ∧ 3 ≤ 4 := by decide +kernel

theorem witness_ModularWords :
    ∀ i ∈ ([.maddm 0 2 4 6 0, .msubm 0 2 4 6 0, .mnegm 0 2 4 0, .mmulm 0 2 4 6 0, .mmacm 0 2 4 6 0, .mredm 0 2 4 0,
     .bflyct 0 2 4 6 0, .bflygs 0 2 4 6 0, .modset 0 4 8 0 0] : List Instr), ∃ s t b act, Issues i s t b act :=
  issues_of_all (by decide +kernel)

theorem witness_NetworkWords :
    ∀ i ∈ ([.nperm 7 4 8 4 0, .nrev 7 4 8 5, .nauto 7 4 8 41, .nperm 0 4 8 3 1] : List Instr), ∃ s t b act, Issues i s t b act :=
  issues_of_all (by decide +kernel)

theorem witness_SystemRegisterWords :
    ∀ i ∈ ([.sysr 7 4 40, .sysw 7 4 10, .sysw 7 4 8, .sysw 7 4 9, .sysw 7 4 17, .sysw 7 4 27, .sysr 7 4 0] : List Instr), ∃ s t b act, Issues i s t b act :=
  issues_of_all (by decide +kernel)

theorem witness_TrapReturn :
    ∀ i ∈ ([.trapret 7] : List Instr), ∃ s t b act, Issues i s t b act :=
  issues_of_all (by decide +kernel)

theorem witness_SystemWords :
    ∀ i ∈ ([.tlbinv 7 0 0 4 8, .cwb 7 0, .bankmode 7 4 8, .launch 7 4 8 12, .fqrpReplay 7 4, .fqrpSkip 7 4, .fqrpPeek 7 4] : List Instr), ∃ s t b act, Issues i s t b act :=
  issues_of_all (by decide +kernel)

theorem witness_WindowWords :
    ∀ i ∈ ([.spbegin 7 4 8, .spst 7 4 8 4, .spld 7 4 8 6, .spalloc 7 4 8, .spquery 7 4 24] : List Instr), ∃ s t b act, Issues i s t b act :=
  issues_of_all (by decide +kernel)

theorem witness_WindowCommands :
    ∀ i ∈ ([.spstate 7 4 8, .spcommit 7 24 8, .spabort 7 24] : List Instr), ∃ s t b act, Issues i s t b act :=
  issues_of_all (by decide +kernel)

theorem witness_TreeMaskWord :
    ∀ i ∈ ([.treemask 7 4 22] : List Instr), ∃ s t b act, Issues i s t b act :=
  issues_of_all (by decide +kernel)

theorem witness_MatrixCommandWords :
    ∀ i ∈ ([.mma 7 0 4 4 0 8 16 0 0 0 0 8, .mmas 7 0 13 13 0 28 30 1 1 0 1 20 8, .mconv 7 0 4 4 0 12 16 0 0 1 24 8,
     .mtrn 7 0 0 0 0 8, .mperm 7 0 0 0 0 0 4 8, .mred 7 0 0 0 0 0 8, .accz 7 0 8, .accld 7 7 0 1 4 256 8,
     .accst 7 7 0 0 1 4 256 8] : List Instr), ∃ s t b act, Issues i s t b act :=
  issues_of_all (by decide +kernel)

theorem witness_CopyCommandWords :
    ∀ i ∈ ([.cpy 7 4 8 1 0 8 3, .cpyt 7 4 8 12 0 1 0 8, .cpyp 7 36 12 1 16 1 0 8 0, .cpyx 7 4 8 12 0 0 8 0,
     .cpyf 7 4 8 12 0 8 0] : List Instr), ∃ s t b act, Issues i s t b act :=
  issues_of_all (by decide +kernel)

theorem witness_TileWords :
    ∀ i ∈ ([.accrd 7 7 8 3 8, .accwr 7 7 8 3 8] : List Instr), ∃ s t b act, Issues i s t b act :=
  issues_of_all (by decide +kernel)

theorem witness_RingWords :
    ∀ i ∈ ([.ringinit 7 8 15 4, .rawait 7 8 8 0, .rrel 7 8 8] : List Instr), ∃ s t b act, Issues i s t b act :=
  issues_of_all (by decide +kernel)

/-! ### Clauses that end in a trap -/

/-- The trap that a word which issues in a prepared state, changed as told, leaves in its lowest lane. -/
def trapIn (f : State → State) (i : Instr) : Option (BitVec 8 × Word × Word × Word × Word) :=
  let s := f (prepared (placed i))
  if issuing i s then
    match exec i s with
    | .next t => (lanes32.findSome? (fun l => (getThread t 1 0 l).stalled)).map (fun x => (x.cause, x.aux0, x.aux1, x.aux2, x.aux3))
    | _ => none
  else none

/-- A change of the gang of a prepared state. -/
def gangWith (f : Gang → Gang) (s : State) : State := modGang s 1 0 f

/-- A v register of one lane changed. -/
def laneV (l r : Nat) (v : Word) (s : State) : State := modThread s 1 0 l (fun x => writeV x r v false)

/-- A v register of every lane changed. -/
def everyV (r : Nat) (v : Word) (s : State) : State := lanes32.foldl (fun s l => laneV l r v s) s

/-- A k register changed. -/
def kWith (r : Nat) (v : Word) (s : State) : State := gangWith (fun g => writeK g r v false) s

/-- Lane 0 in non-finite trap mode, and the state changed as told. -/
def trappingFp (f : State → State) (s : State) : State := modThread (f s) 1 0 0 (fun x => { x with fpmode := 8 })

/-- Whether a word issues and goes on in a prepared state changed as told. -/
def goesIn (f : State → State) (i : Instr) : Bool := let s := f (prepared (placed i)); issuing i s && completes i s

/-- sys.spx of every lane changed. -/
def withKey (v : Word) (s : State) : State :=
  lanes32.foldl (fun s l => modThread s 1 0 l (fun x => { x with spx := v })) s

/-- FP_NONFINITE (R60, R193): the word, and the lowest element that raises it; not from an infinity. -/
theorem traps_float :
    [trapIn (trappingFp (fun s => laneV 0 12 0x7F7FFFFF (laneV 0 8 0x7F7FFFFF s))) (.fadd 7 4 8 12),
     trapIn (trappingFp (laneV 0 12 0x7F800000)) (.fadd 7 4 8 12),
     trapIn (trappingFp (fun s => laneV 0 12 0x7BFF0000 (laneV 0 8 0x7BFF0000 s))) (.faddF16x2 7 4 8 12),
     trapIn (trappingFp id) (.frcp 7 4 8),
     trapIn (trappingFp (laneV 0 8 0x7F7FFFFF)) (.cvt 7 4 8 0 0 0 1),
     trapIn (trappingFp (laneV 0 9 0x7F7FFFFF)) (.cvtpk 7 4 8 1 0 0)] =
    [some (11, 0x41C420C0, 0, 0, 0), none, some (11, 0x49C420C0, 1, 0, 0), some (11, 0x51C40080, 0, 0, 0),
     some (11, 0x59C42001, 0, 0, 0), some (11, 0x5DC42040, 1, 0, 0)] := by decide +kernel

/-- The same of a reduction, and of the empty combination of an exclusive minimum. -/
theorem traps_ReductionWords :
    [trapIn (trappingFp (laneV 1 8 0x7F7FFFFF ∘ laneV 0 8 0x7F7FFFFF)) (.red 7 4 8 8),
     trapIn (trappingFp id) (.scan 7 4 8 1 9)] =
    [some (11, 0x85C42085, 0, 0, 0), some (11, 0x85C42196, 0, 0, 0)] := by decide +kernel

theorem traps_JoinWords :
    [trapIn (fun s => modJoin s 1 0 (fun x => { x with signed := [(0, 0)] })) (.jinit 7 4 0),
     trapIn (fun s => modJoin s 1 0 (fun x => { x with members := [(0, 1)] })) (.jsign 7 4 0),
     trapIn (fun s => modJoin s 1 0 (fun x => { x with signed := [(0, 2)] })) (.jsign 7 4 0),
     trapIn (fun s => modJoin s 1 0 (fun x => { x with kind := .command 0 0 })) (.jsign 7 4 0),
     trapIn id (.jwait 7 4 1), trapIn (laneV 3 4 5) (.jwait 7 4 1)] =
    [some (12, 0, 4, 0, 0), some (12, 0, 2, 0, 0), some (12, 0, 3, 0, 0), some (12, 0, 5, 0, 0), some (12, 1, 6, 0, 0),
     some (12, 1, 6, 0, 0)] := by decide +kernel

theorem traps_DivergenceWords :
    [trapIn (laneV 3 22 0xFFFFFFF7) (.gjoin 7 22)] = [some (12, 255, 7, 0xFFFFFFF7, 0)] := by decide +kernel

theorem traps_TransferWords :
    [trapIn id (.bru 0 0),
     trapIn (laneV 3 20 0x200004) (.ret 7 20),
     trapIn (everyV 26 2) (.ret 7 26),
     trapIn (laneV 3 20 0x200004) (.jmpi 7 20 0),
     trapIn (gangWith (fun g => writeK g 26 2 false)) (.jmpi 7 26 1),
     trapIn id (.call 7 1024)] =
    [some (3, 1, 0xFFFFFFFF, 0, 0), some (3, 0xFFFFFFF7, 0xFFFFFFFF, 0, 0), some (2, 2, 0, 0, 0), some (3,
     0xFFFFFFF7, 0xFFFFFFFF, 0, 0), some (2, 2, 0, 0, 0), some (2, 0x201000, 0, 10, 0)] := by decide +kernel

theorem traps_EndingWords :
    [trapIn id (.brk 7 5),
     trapIn id (.trap 7 6)] =
    [some (18, 5, 0, 0, 0), some (19, 6, 0, 0, 0)] := by decide +kernel

theorem traps_ModularWords :
    [trapIn id (.mmulm 7 2 4 6 1)] =
    [some (17, 0xC1C44323, 1, 0, 0)] := by decide +kernel

theorem traps_TrapReturn :
    [trapIn id (.trapret 0),
     trapIn (fun s => modThread s 1 0 3 (fun x => { x with tpc := 0 })) (.trapret 7),
     trapIn (fun s => lanes32.foldl (fun s l => modThread s 1 0 l (fun x => { x with tpc := 0x200002 })) s) (.trapret 7)] =
    [some (3, 1, 0xFFFFFFFF, 0, 0), some (3, 0xFFFFFFF7, 0xFFFFFFFF, 0, 0), some (2, 0x200002, 0, 0, 0)] := by decide +kernel

theorem traps_WindowWords :
    [trapIn (withKey 0x80010000) (.spalloc 7 4 8),
     trapIn (fun s => modWindow s 0 (fun w => { w with log := List.replicate 16 (0, 0) })) (.spalloc 7 4 8),
     trapIn (fun s => { s with mem := tsetMany 0 s.mem 0x200100 (natBytes 4 0) }) (.spalloc 7 4 8),
     trapIn (fun s => modWindow s 0 (fun w => { w with geom := [] })) (.spalloc 7 4 8)] =
    [some (14, 2, 0x80010000, 0, 0), some (15, 3, 0x80000000, 0, 0), some (15, 4, 0x80000000, 0, 0), some (15, 8,
     0x80000000, 0, 0)] := by decide +kernel

theorem traps_WindowCommands :
    [trapIn (withKey 0x80010000) (.spstate 7 4 8),
     trapIn (gangWith (fun g => writeK g 8 1 false)) (.spstate 7 4 8),
     trapIn id (.spcommit 7 4 8),
     trapIn (gangWith (fun g => writeK g 8 5 false)) (.spcommit 7 24 8),
     trapIn id (.spabort 7 4)] =
    [some (14, 2, 0x80010000, 0, 0), some (15, 5, 0x80000000, 0, 0), some (14, 2, 0, 0, 0), some (15, 6, 0x80000000,
     0, 0), some (14, 2, 0, 0, 0)] := by decide +kernel

theorem traps_TreeMaskWord :
    [trapIn id (.treemask 7 4 8)] =
    [some (16, 1, 0, 0, 0)] := by decide +kernel

/-- The last columns and rows of a tile; the row and the column beyond them, in some threads and in all. -/
theorem traps_TileWords :
    goesIn (kWith 8 0x3820) (.accrd 7 1 24 3 8) = true ∧ goesIn (kWith 8 0x3820) (.accwr 7 1 24 3 8) = true ∧
    [trapIn (kWith 8 0x3F00) (.accrd 7 1 12 1 8), trapIn (kWith 8 0x21) (.accrd 7 1 24 3 8),
     trapIn (kWith 8 0x3900) (.accwr 7 1 24 3 8), trapIn (kWith 8 0x3F) (.accwr 7 1 24 3 8)] =
    [some (21, 1, 2, 0x3F00, 0), some (21, 1, 2, 0x21, 0), some (21, 1, 2, 0x3900, 0), some (21, 1, 2, 0x3F, 0)] := by
  decide +kernel

/-- A ring that ends with the window and one beyond it; a misaligned ring, one without a marker, without the slot, with its
record or its slot's header outside the window, and of another generation. -/
theorem traps_RingWords :
    goesIn (kWith 8 0x2FFC0) (.ringinit 7 8 0 3) = true ∧
    [trapIn (kWith 8 4) (.ringinit 7 8 3 4), trapIn (kWith 8 0x2FFC0) (.ringinit 7 8 0 4),
     trapIn (kWith 8 4) (.rawait 7 8 12 0), trapIn (kWith 8 64) (.rawait 7 8 12 0),
     trapIn (kWith 12 0x10000) (.rawait 7 8 12 0), trapIn (kWith 8 0x30000) (.rawait 7 8 12 0),
     trapIn (kWith 8 4) (.rrel 7 8 12), trapIn (kWith 8 64) (.rrel 7 8 12), trapIn (kWith 12 1) (.rrel 7 8 12),
     trapIn (kWith 8 0x30000) (.rrel 7 8 12)] =
    [some (6, 4, 0, 1, 0), some (7, 0x2FFC0, 0, 1, 0), some (6, 4, 0, 1, 0), some (20, 64, 0, 0, 1),
     some (20, 0, 0x10000, 0, 2), some (7, 0x30000, 0, 1, 0), some (6, 4, 0, 1, 0), some (20, 64, 0, 0, 1),
     some (20, 0, 1, 0, 6), some (7, 0x30000, 0, 1, 0)] := by decide +kernel

theorem traps_PlaneWords :
    [trapIn (gangWith (fun g => writeK g 36 8 false)) (.ldp 7 0 36 8 0),
     trapIn (gangWith (fun g => writeK g 39 8 false)) (.ldpr 7 0 36 8 0),
     trapIn (gangWith (fun g => writeK g 36 8 false)) (.stp 7 0 36),
     trapIn (kWith 37 0xFF000000) (.stp 7 0 36), trapIn (kWith 37 0x1000000) (.ldp 7 15 36 15 6),
     trapIn (laneV 0 4 0x3200) (.qtagSet 7 4 0)] =
    [some (23, 1, 1, 0, 0), some (23, 2, 1, 0, 0), some (23, 1, 1, 0, 0), some (23, 3, 1, 0, 0),
     some (7, 2, 0x1000000, 0, 0), some (23, 4, 0, 0, 0)] := by decide +kernel

theorem traps_LoadsAndStoresIssue :
    [trapIn (laneV 0 8 2) (.ld 7 4 8 4 0 0)] =
    [some (6, 2, 0, 0, 0)] := by decide +kernel

theorem traps_MatrixCommandWords :
    goesIn id (.accz 7 0 0) = true ∧
    [trapIn (kWith 8 4) (.mperm 7 0 0 0 0 0 8 8),
     trapIn (fun s => modJoin s 1 0 (fun x => { x with signed := [(0, 2)] })) (.accz 7 0 0)] =
    [some (6, 4, 0, 1, 0), some (12, 0, 3, 0, 0)] := by decide +kernel

/-- A misaligned segment; a segment, a record, a tensor and a tile list outside the generic space; a ring's record and a sent row
outside the window; and a signature of a thread that is no member. -/
theorem traps_CopyCommandWords :
    goesIn id (.cpy 7 4 8 1 0 0 3) = true ∧
    [trapIn (laneV 0 8 2) (.cpy 7 4 8 1 0 8 3), trapIn (laneV 0 9 0x1000000) (.cpy 7 8 4 0 1 8 3),
     trapIn (kWith 5 0x1000000) (.cpyt 7 4 8 12 0 1 0 8), trapIn (kWith 37 0x1000000) (.cpyp 7 36 12 1 16 1 0 8 0),
     trapIn (kWith 9 0x1000000) (.cpyx 7 4 8 12 0 0 8 0), trapIn (kWith 8 0x30000) (.cpyt 7 4 16 8 0 0 1 8),
     trapIn (kWith 12 0x30000) (.cpyp 7 36 12 1 16 0 1 8 0), trapIn (kWith 8 0x2FFF0) (.cpyf 7 4 8 12 0 8 1),
     trapIn (kWith 36 8) (.cpyp 7 36 12 1 16 1 0 8 0),
     trapIn (fun s => modJoin s 1 0 (fun x => { x with members := [(0, 2)] })) (.cpy 7 4 8 1 0 0 3)] =
    [some (6, 2, 0, 0, 0), some (7, 0, 0x1000000, 0, 0), some (7, 0, 0x1000000, 0, 0), some (7, 0, 0x1000000, 0, 0),
     some (7, 0, 0x1000000, 0, 0), some (7, 0x30000, 0, 1, 0), some (7, 0x30000, 0, 1, 0), some (7, 0x2FFF0, 0, 1, 0),
     some (23, 1, 1, 0, 0), some (12, 0, 2, 0, 0)] := by decide +kernel

/-! ### States of the device's steps -/

/-- The state after a step of the device, or after a word of the core in focus. -/
def after (i : Instr) (s : State) : State := match exec i s with | .next t => t | _ => s

/-- A word run first in a prepared state. -/
def ran (i : Instr) : State := after i (prepared (placed i))

/-- The state after some steps of the device. -/
def afterAll (l : List Instr) (s : State) : State := l.foldl (fun s i => after i s) s

/-- A prepared state. -/
def base : State := prepared (placed (.mov 7 4 8))

/-- An access of an operation, or one of no size. -/
def accessOf (s : State) (n idx : Nat) : Access :=
  match getOp s n with
  | some o => o.accs.getD idx { lanes := 0, space := 0, va := 0, size := 0 }
  | none => { lanes := 0, space := 0, va := 0, size := 0 }

/-- Whether an access is at its home. -/
def atItsHome (a : Access) : Bool := match a.stage with | .atHome .. => true | _ => false

/-- The transfers of an address's sector fail nine times. -/
def lossy (pa : Nat) (s : State) : State := { s with phys := { s.phys with xfers := [(pa / 32, 9)] } }

/-- An address's sector is uncorrectable. -/
def broken (pa : Nat) (s : State) : State := { s with phys := { s.phys with cells := [(pa / 32, some 256)] } }

/-- A write-back of cluster 0 that waits at its home slice. -/
def writingBack (s : State) : State :=
  { s with backs := [{ cluster := 0, ctx := 0, sector := 0x10000, data := List.replicate 32 0, mask := 1 }] }

/-- A word run first in a prepared state with a k register, or a pair of them, changed. -/
def ranWith (i : Instr) (r : Nat) (hi lo : Word) : State := after i (kWith (r + 1) hi (kWith r lo (prepared (placed i))))

/-- How an errand ends: 0 done, 1 failed, 2 waiting at a home slice. -/
def errandEnd {α : Type} (r : ErrandEnd α) : Nat := match r with | .done .. => 0 | .failed _ => 1 | .waits _ => 2

/-- Lane 0 loads four bytes at the code's address. -/
def loading : State := ran (.ld 0 4 20 4 0 0)
/-- Lane 0 stores a word 60 bytes above. -/
def storing : State := ran (.st 0 22 20 4 0 15)
def loaded : State := afterAll [.pageWalkComplete 2 0, .homeSliceAccess (.op 2 0)] loading
def stored : State := afterAll [.pageWalkComplete 2 0, .homeSliceAccess (.op 2 0)] storing

/-- A load of the same bytes when the L1 and the TLB hold them. -/
def loadingAgain : State :=
  let i : Instr := .ld 0 4 20 4 0 0
  after i (prepared (placeWord (after (.producerComplete 2) loaded) ((encode i).headD 0) 0))

/-- The conditions under which a load ends at its walk. -/
def hitsL1 (s : State) (n idx : Nat) : Bool :=
  match getOp s n with
  | none => false
  | some o =>
    match o.accs[idx]?, getBlock s o.block with
    | some a, some b =>
      a.stage == .waiting && !heldBack s n o a && inExtent s b a.target a.size && a.translated && readsL1 o.kind &&
        (l1Bytes s 0 b.ctx a.va.toNat a.size (roLaunch b o.kind)).isSome
    | _, _ => false

/-- The same load, whose page a window has come to own since its walk. -/
def ownedLater : State :=
  let s := after (.pageWalkComplete 2 0) loading
  { s with windows := [(0, { live := true, desc := 0x200200, geom := geometry, drafts := [1] })]
           hostIf := { s.hostIf with marked := [1] } }

/-- Whether the page of an access at its home has come to be owned since its walk. -/
def comesOwned (s : State) (n idx : Nat) : Bool :=
  match (accessOf s n idx).stage with
  | .atHome l _ _ => ownedSince s l
  | _ => false

/-- A load under a leaf of device 1, whose port 0 is down, port 3 up. -/
def toPeer : State :=
  let leaf : Leaf := { page := 2 ^ 47 + 2 ^ 37, size := 2 ^ 21, tier := 0, pclass := 0, shared := false, x := false, w := true,
                       r := true, owner := none }
  let s := setStage (afterAll [.pageWalkComplete 2 0] loading) 2 0 (.atHome leaf 1 0)
  { s with link := { s.link with ports := 0x3FFFE, peers := [(1, some { ports := 0x3FFFE })] } }

/-- How a skidder command's next step ends. -/
inductive StepKind where
  | none | goes | finished | fault | park | stop | bad | wait
  deriving DecidableEq, Repr

/-- What the command at an entry of core 0 does next. -/
def nextStep (s : State) (e : Nat) : StepKind :=
  if (commandAt s 0 e).isNone then .none else
  match progressAt s 0 e with
  | .go .. => .goes
  | .finished => .finished
  | .fault .. => .fault
  | .park .. => .park
  | .stop .. => .stop
  | .bad .. => .bad
  | .wait _ => .wait

/-- Lane 0 copies sixteen bytes of the code page to local store. -/
def copying : State := ran (.cpy 0 4 20 1 0 8 3)
def copied : State := afterAll (List.replicate 5 (.homeSliceAccess (.engine 0 0))) copying
/-- The same from an address without a page, about to read it. -/
def astray : State :=
  let i : Instr := .cpy 0 4 20 1 0 8 3
  after (.homeSliceAccess (.engine 0 0)) (after i (laneV 0 20 0x600000 (prepared (placed i))))
/-- The copy about to read. -/
def reading : State := after (.homeSliceAccess (.engine 0 0)) copying
/-- A CPYP into a ring whose slots hold 1,024 bytes. -/
def ringCopy : State :=
  let i : Instr := .cpyp 0 36 12 0 4 0 1 8 0
  after i (modBlock (prepared (placed i)) 1 (fun b => { b with lstore := tsetMany 0 b.lstore 4 (natBytes 4 1024) }))
/-- The same once it has started, at a tensor without a page. -/
def copyFaults : State := after (.ringCommandStart 0 0) ringCopy
/-- A gather of a row without a page, with the gang's fault queue empty and full. -/
def gathering : State := after (.homeSliceAccess (.engine 0 0)) (ran (.cpyx 0 4 8 8 0 0 8 0))
def gatheringFull : State := gangWith (fun g => { g with faultq := List.replicate 32 ⟨1, 0, 0, 0⟩ }) gathering
/-- A tile to be zeroed. -/
def zeroing : State := ran (.accz 0 0 8)

/-- What a matrix command of core 0 that may perform comes to: 0 its effect, 1 a fault, 2 a wait, 3 uncorrectable data. -/
def performs (s : State) (id : Nat) : Option Nat :=
  match (getCore s 0).mx.find? (fun m => m.id == id) with
  | none => none
  | some m =>
    match getBlock s m.block with
    | none => none
    | some b =>
      if mayPerform s 0 m then
        some (match ({ core := 0, b := b, c := m } : MxRun).perform (askAs s (.command m.block m.id)) with
          | .ok _ _ => 0 | .trap _ _ => 1 | .wait _ => 2 | .bad _ _ => 3)
      else none

/-- Lane 0 with a deferred fault. -/
def deferring : State := modThread base 1 0 0 (fun x => { x with deferred := [{ cause := 9 }] })

/-- The conditions under which a deferred fault is delivered. -/
def delivers (s : State) (id gang lane : Nat) : Bool :=
  match getBlock s id with
  | none => false
  | some b =>
    match unitWith (gangOf b gang) lane with
    | none => false
    | some u => (coreOf b).isSome && !isFrozen s b && !(getContext s b.ctx).tearing && u.wait != .halted &&
        !(deferredLanes (gangOf b gang) u).isEmpty

/-- A draft page at 0x400000, and at 0x200200 a descriptor, free or open, of `geometry`. -/
def withDescriptor (state : Nat) (s : State) : State :=
  let mem := tsetMany 0 s.mem 0x4010 (natBytes 8 0x40001F)
  { s with mem := tsetMany 0 mem 0x200200 (natBytes 8 0 ++ natBytes 4 state ++ natBytes 8 0 ++ geometry) }

/-- An SPBEGIN of all lanes at its window step, with k20:k21 a descriptor's address. -/
def opening (state : Nat) : State :=
  withDescriptor state (after (.spbegin 7 4 20) (gangWith (fun g => writeK g 20 0x200200 false)
    (prepared (placed (.spbegin 7 4 20)))))

/-- What a window's opening step gives: 0 a handle, 1 stale, 2 an overflow, 3 a failure, 4 a wait. -/
def opens (s : State) : Option Nat :=
  match (getGang s 1 0).units.map ExecUnit.wait with
  | [UnitWait.window active _ desc _] =>
    some (match runErrand (.unit 1 0 (lowest active)) (openWindow { core := 0, ctx := 0, blk := 1, gang := 0, lane := 0 } desc) s with
      | .done (.handle _) _ => 0
      | .done (.stale _) _ => 1
      | .done (.overflow _) _ => 2
      | .failed _ => 3
      | .waits _ => 4)
  | _ => none

/-- The descriptor bytes of a window without draft pages. -/
def undrafted : List Byte := geometry.take 8 ++ natBytes 4 0 ++ geometry.drop 12

/-- A close of the window of speculation entry 0 at skidder entry 0 of core 0, with its descriptor open. -/
def closingBy (i : Instr) : State :=
  let table (n : Nat) : List Byte := natBytes 8 (n * 4096 + 1)
  withDescriptor 1
    { State.reset with
      mem := tsetMany 0 (tsetMany 0 (tsetMany 0 (tsetMany 0 [] 0x1000 (table 2)) 0x2000 (table 3)) 0x3000 (table 4)) 0x4008
        (natBytes 8 0x20001F)
      contexts := [(0, { root := 0x1000, enable := true })]
      blocks := [(1, some { launch := 0, ctx := 0, place := .core 0 })]
      windows := [(0, { live := true, desc := 0x200200, geom := undrafted, closing := true })]
      cores := [(0, { skid := [(0, some { id := 2, block := 1, instr := i, uni := [0x80000000, 0], parts := [], lead := (0, 0),
                                          gangs := [0] })] })] }
def committing : State := closingBy (.spcommit 7 24 8)
def aborting : State := closingBy (.spabort 7 24)

/-- How the close at skidder entry 0 ends, where it may run: 0 carried out, 1 its descriptor out of reach, 2 waiting. -/
def closes (s : State) : Option Nat :=
  match commandAt s 0 0 with
  | none => none
  | some c =>
    let d : Doer := { core := 0, ctx := 0, blk := 1, gang := c.lead.1, lane := c.lead.2 }
    if c.phase == .ready && opsOver s c.after && c.block == 1 && namedEntry s (c.uni.getD 0 0) == some 0 &&
        !statesPending s 0 c then
      some (match runErrand (.command c.block c.id) (match c.instr with
          | .spcommit _ _ _ => runCommit d (c.uni.getD 1 0).toNat 0
          | _ => runAbort d 0) s with
        | .done true _ => 0
        | .done false _ => 1
        | .failed _ => 3
        | .waits _ => 2)
    else none

/-- A window whose descriptor lies on no page. -/
def undescribed (s : State) : State := modWindow s 0 (fun w => { w with desc := 0x600000 })

/-- The 64 bytes of a record of one block of one gang, whose descriptor stands at 0x200D00. -/
def kernelRecord : List Byte :=
  natBytes 8 0 ++ natBytes 8 0x200D00 ++ natBytes 16 0 ++ natBytes 4 (31 * 2 ^ 4) ++ natBytes 28 0

/-- A state whose queue 0, of priority 7, has one record at 0x200C00. -/
def queued : State :=
  { base with
    mem := tsetMany 0 (tsetMany 0 base.mem 0x200C00 kernelRecord) 0x200D00
      (natBytes 4 0xD6B10001 ++ natBytes 4 0 ++ natBytes 8 0x200000 ++ natBytes 48 0)
    queues := [(0, { base := 0x200C00, tail := 1, ctl := 0xF0010000 })] }

/-- What taking queue 0's next record comes to: its lowest reason, 101 where it cannot be read, 102 where it waits. -/
def takes (s : State) : Option Nat :=
  if mayTake s 0 then
    let x := getQueue s 0
    some (match runErrand (.record 0) (readRecord x.ctx (if x.began then x.nextRec else x.base).toNat id none) s with
      | .done (_, _, reason) _ => reason
      | .failed _ => 101
      | .waits _ => 102)
  else none

/-- The record taken, and its launch in the landing. -/
def taken : State := after (.recordTake 0) queued
def landed : State := modLaunch taken 2 (fun l => { l with phase := .landed })

/-- A child launch in die 0's queue, of a template that is in order, or of one whose descriptor is not. -/
def pushed (good : Bool) : State :=
  { queued with
    mem := tsetMany 0 queued.mem 0x200C40 (natBytes 8 0 ++ natBytes 8 0x200D40 ++ kernelRecord.drop 16)
    dies := [(0, { pushSeq := 1, dq := [{ seq := 1, template := if good then 0x200C00 else 0x200C40, params := 0, ctx := 0,
                                          root := 0 }] })] }

/-- What reading a child's template comes to: its lowest reason, 101 where it cannot be read, 102 where it waits. -/
def childReason (s : State) : Option Nat :=
  (nextChild s 0).map (fun ch =>
    match runErrand (.template 0) (readRecord ch.ctx ch.template.toNat (fun r => { r with next := 0 }) (some ch.params.toNat)) s with
    | .done (_, _, reason) _ => reason
    | .failed _ => 101
    | .waits _ => 102)

/-- A block whose gang has exited. -/
def exited : State := ran (.exit 7)

/-- A launch whose last block has left. -/
def completing : State := modLaunch (after (.slotRelease 1 0) exited) 0 (fun l => { l with clusters := [0] })

/-- Whether a launch is over, and whether its clusters' write-backs wait. -/
def overWith (s : State) : Option Bool :=
  match getLaunch s 0 with
  | some l => if isOver s 0 l then some (l.clusters.any (backsWait (cleanLaunch s l))) else none
  | none => none

/-- The gang of a block between clauses, asked to be saved, with a save area at 0x400000. -/
def saving : State :=
  let s := modContext base 0 (fun c => { c with save := 0x400000, ssz := 512 })
  let s := { s with mem := tsetMany 0 s.mem 0x4010 (natBytes 8 0x40001F) }
  let s := { s with cores := tset {} s.cores 0 { getCore s 0 with run := none } }
  modBlock (gangWith (fun g => { g with units := [{ lanes := BitVec.allOnes 32, pc := resumeAt 0x200000 15 }] }) s) 1
    (fun b => { b with saveReq := true })

/-- A block that has ended asked to be saved, with its save area on a page of the host. -/
def savingEnded : State :=
  let s := modContext base 0 (fun c => { c with save := 0x400000, ssz := 1 })
  let s := { s with mem := tsetMany 0 (tsetMany 0 s.mem 0x4010 (natBytes 8 0x5001)) 0x5000 (natBytes 8 0x40060F) }
  let s := { s with cores := tset {} s.cores 0 { getCore s 0 with run := none } }
  modBlock s 1 (fun b => { b with saveReq := true, ended := true, gangs := [] })

/-- A core without a run. -/
def idle : State := { base with cores := tset {} base.cores 0 { getCore base 0 with run := none } }

/-- How the save of a block that is asked to be saved, and may be, ends. -/
def saves (s : State) : Option Nat :=
  match getBlock s 1 with
  | none => none
  | some b =>
    let es := chainBlocks s b.launch b.chain
    if b.saveReq && (coreOf b).isSome && s.plans.isEmpty && es.all (fun e => !onHeldChannel s e.1 && isDrained s e.1 e.2) then
      (chainRecords s es false).map (fun ps => errandEnd (runErrand (.save 1) (saveChain es ps) s))
    else none

/-- A launch of a graph of five nodes: a kernel, a copy, a condition, and a loop whose body is a kernel. -/
def graphLaunch (status : Table NodeStatus) : State :=
  let nodes : List GraphNode :=
    [{ kind := 0, first := 0, count := 0, a := 0, b := 0, c := 0 },
     { kind := 1, first := 0, count := 0, a := 0x200000, b := 0x200E00, c := 8 },
     { kind := 3, first := 0, count := 0, a := 0x200000, b := 0, c := 0 },
     { kind := 2, first := 0, count := 0, a := 0x200000, b := 0x40004, c := 3 },
     { kind := 0, first := 0, count := 0, a := 0, b := 0, c := 0 }]
  let r : GraphRun := { base := 0x200BC0, nodes := nodes, edges := [], status := status }
  { queued with launches := [(0, some { origin := .queue 0 0, ctx := 0, root := 0, record := probeRecord, params := 0,
                                        phase := .landed, graph := some r })] }

/-- How the errand of a node that is to run, or of a loop to begin again, ends. -/
def nodeEnds (s : State) (k : Nat) : Option Nat :=
  match graphOf s 0 with
  | none => none
  | some (l, g) =>
    let n := g.node k
    if runsNow g k || (g.statusOf k == .running && (n.kind == 1 || levelResolved g (some k))) then
      some (match n.kind with
        | 0 => errandEnd (runErrand (.node 0 k) (readNode l.ctx g k
            { origin := .node 0 k, ctx := l.ctx, root := l.root, record := [], params := 0 }) s)
        | 1 =>
          (match (copyPieces (.node 0 k) l.ctx n.a n.b n.c (decide (n.a < n.b + n.c ∧ n.b < n.a + n.c)) (n.c + 1)
              (if g.statusOf k == .running then tget 0 g.loops k else 0) s).1 with
            | .done => 0
            | .fault .. => 1
            | .wait _ => 2)
        | _ => errandEnd (runErrand (.node 0 k) (nodeWord l.ctx n.a) s))
    else none

/-- The state whose context 0 tears down, with its block's run ended. -/
def tearing : State :=
  let s := modContext base 0 (fun c => { c with tearing := true })
  { s with cores := tset {} s.cores 0 { getCore s 0 with run := none } }

/-- How the closing of a torn context's windows ends, once its blocks stand still. -/
def tears (s : State) : Option Nat :=
  if (getContext s 0).tearing && (contextBlocks s 0).all (fun e => isStill s (getContext s 0).frozen e.1 e.2) then
    let left := dropLaunches ((contextBlocks s 0).foldl (fun s e => discardBlock s e.1 e.2) s) 0
    some (match runErrand (.teardown 0) (tearWindows 0 (openWindows left 0)) left with
      | .done _ t => if backsOf (clearContextLines t 0) 0 then 3 else 0
      | .failed _ => 1
      | .waits _ => 2)
  else none

/-- The state with a row of a CPYF in die 0's send queue. -/
def rowWaiting : State :=
  { base with dies := [(0, { rows := [{ dest := 0, ea := 0, size := 16, space := 1, off := 0, cmd := 9 }]
                             sends := [{ id := 9, block := 1, lead := (0, 0), gangs := [0], left := 1 }] })] }

/-- Pseudo-channel 3 of stack 0 with a failed transfer of sector 7, retried some times, that still fails some times. -/
def failing (tries fails : Nat) (held : Bool) : State :=
  let s := modStack base 0 (fun st =>
    { st with xfers := [(3, some { sector := 7, who := 0, asker := .host 1, write := false, tries := tries, bad := false })]
              holds := if held then [(3, true)] else [] })
  { s with phys := { s.phys with xfers := if fails = 0 then [] else [(7, fails)] } }

/-- A device that has booted and has given its SPDM version, capabilities and algorithms. -/
def attesting : State :=
  { base with mgmt := { base.mgmt with aliasKey := some 5, measurements := [[1], [2, 3]]
                                       doe := { version := true, caps := true, algorithms := true } } }

/-- Whether a word stands at the head of its unit in a state, with more to hold. -/
def standing (i : Instr) (s : State) (P : Site → Block → Bool) : Bool :=
  match siteFor s ((encode i).headD 0) ((encode i).getD 1 0) i.words with
  | none => false
  | some t =>
    match getBlock s t.blk with
    | none => false
    | some b => !unitBlocked (gangOf b t.gang) t.unit && t.unit.lanes != 0 && P t b

/-- The lanes a word's guard leaves active. -/
def activeAt (t : Site) (b : Block) (i : Instr) : BitVec 32 :=
  if isSel i then t.unit.lanes else guardHolds (gangOf b t.gang) i.guard t.unit.lanes

/-- Whether a word has passed the gate's checks of its guard, its encoding, its mode and its register numbers. -/
def checked (i : Instr) (s : State) (P : Site → Block → BitVec 32 → Bool) : Bool :=
  standing i s (fun t b =>
    let g := gangOf b t.gang
    i.guard != 15 && (guardTraps t g i.guard).isEmpty && activeAt t b i != 0 &&
      lowestReason (legality i ++ placeReasons t i ++ valueReasons g i) == 0 &&
      (!needsPrivilege i || (getContext s b.ctx).privileged) && (numberTrap s b i).isNone && P t b (activeAt t b i))

/-- A change of a register of every lane. -/
def everyReg (r : Nat) (f : Reg → Reg) (s : State) : State :=
  gangWith (fun g => lanes32.foldl (fun g l => modThreadOf g l (fun x => { x with v := tset {} x.v r (f (vReg x r)) })) g) s

/-- The policy bits of the clause's header set. -/
def trapping (s : State) : State :=
  { s with cores := tset {} s.cores 0 { getCore s 0 with run := (getCore s 0).run.map (fun r => { r with hdr := r.hdr ||| 0x7FFF }) } }

/-! ### Steps of the device: the hypotheses of the statements about them -/

theorem witness_MemorySteps :
    (getOp loaded 2).any (fun o => o.accs.all (fun a => a.stage.over) && isProducer o.kind) = true ∧
    (getOp stored 2).any (fun o => o.accs.all (fun a => a.stage.over) && o.kind == .store false && !backPending stored o) = true ∧
    hitsL1 loadingAgain 2 0 = true ∧ atItsHome (accessOf (after (.pageWalkComplete 2 0) loading) 2 0) = true ∧
    comesOwned (after (.pageWalkComplete 2 0) loading) 2 0 = false ∧ comesOwned ownedLater 2 0 = true ∧
    portReaches toPeer 1 0 = false ∧ nextPort toPeer 1 0 = some 1 := by decide +kernel

/-- Lane 0's store on its way: its home has agreed to it, and its cluster has it. -/
def sentStore : State := after (.pageWalkComplete 2 0) storing

/-- A plane store of one plane, its addresses not yet translated, and with its head and its word at their homes. -/
def planeStoring : State := ranWith (.stp 7 0 36) 36 0 0x200400
def planeHeld : State := afterAll [.pageWalkComplete 2 0, .pageWalkComplete 2 1] planeStoring

/-- How the head of a plane store fares at its home: whether the store is ready; whether its words are taken, 0, or one is refused,
1, or must wait, 2; and whether the head is updated, 0, is uncorrectable, 1, or must wait, 2. -/
def headFares (s : State) : Option (Bool × Nat × Nat) :=
  match getOp s 2 with
  | none => none
  | some o =>
    match o.accs, o.kind with
    | a :: words, .planeStore tag =>
      (match a.stage with
       | .atHome l _ _ =>
         let start := tracing (askAs s (.access 2 0))
         (match reserveWords start words with
          | (.ok _, t) => some (planeReady s o, 0,
              match (updateHead t 0 a.va.toNat l tag).1 with | .bytes _ => 0 | .blocked => 2 | _ => 1)
          | (.error (_, .refused _), _) => some (planeReady s o, 1, 3)
          | (.error _, _) => some (planeReady s o, 2, 3))
       | _ => none)
    | _, _ => none

/-- A store on its way, and one that the home has not agreed to. -/
theorem witness_MemorySteps_stores :
    (getOp sentStore 2).any (fun o => (onWay o (accessOf sentStore 2 0)).isSome) = true ∧
    storeOnWay sentStore 0 (0x20003C / 32) (some 4) = false ∧ storeOnWay sentStore 0 (0x20003C / 32) (some 5) = true ∧
    (getOp planeHeld 2).any (fun o => onWay o (accessOf planeHeld 2 0) == none && busyHead o == none) = true := by decide +kernel

/-- A leaf of the host's memory that no CXL link serves. -/
def farLeaf : Leaf := { page := 0, size := 2 ^ 12, tier := 2, pclass := 0, shared := true, x := false, w := true, r := true,
                        owner := none }

/-- The head of a plane store: ready, with a word not yet translated, uncorrectable, behind a failing transfer, and with a word
that is refused. -/
theorem witness_MemorySteps_head :
    [headFares planeHeld, headFares (after (.pageWalkComplete 2 0) planeStoring), headFares (broken 0x200400 planeHeld),
     headFares (lossy 0x200400 planeHeld), headFares (setStage planeHeld 2 1 (.atHome farLeaf 0 0))] =
      [some (true, 0, 0), some (false, 2, 3), some (true, 0, 1), some (true, 0, 2), some (true, 1, 3)] ∧
    planeHeld.hostIf.busy = [] ∧ storeOnWay planeHeld 0 (0x200400 / 32) none = false := by decide +kernel

theorem witness_CommandSteps :
    nextStep copying 0 = .goes ∧ (commandAt copying 0 0).any (fun c => !startsInRing c) = true ∧
    nextStep ringCopy 0 = .goes ∧ (commandAt ringCopy 0 0).any startsInRing = true ∧ nextStep copied 0 = .finished ∧
    nextStep (lossy 0x200000 reading) 0 = .wait ∧ nextStep (ranWith (.cpyp 0 36 12 1 16 0 1 8 0) 12 64 64) 0 = .stop ∧
    nextStep (ranWith (.cpyt 0 4 8 12 0 1 0 8) 4 0 0x600000) 0 = .fault ∧ nextStep astray 0 = .fault ∧
    nextStep copyFaults 0 = .fault ∧ (commandAt copyFaults 0 0).any (fun c => c.phase == .running 0) = true ∧
    nextStep gathering 0 = .park ∧ (getGang gathering 1 0).faultq.length < 32 ∧
    nextStep gatheringFull 0 = .park ∧ 32 ≤ (getGang gatheringFull 1 0).faultq.length ∧
    (commandAt gatheringFull 0 0).any (fun c => c.phase == .running 0 && !c.overflowed) = true := by decide +kernel

/-- A matrix command that has its effect, one that waits for memory, and one whose tile lies on no page. -/
theorem witness_CommandSteps_matrix :
    performs zeroing 2 = some 0 ∧ performs (lossy 0x200000 (ranWith (.accld 7 7 0 0 4 256 8) 4 0 0x200000)) 2 = some 2 ∧
    performs (ranWith (.accld 7 7 0 0 4 256 8) 4 0 0x600000) 2 = some 1 := by decide +kernel

/-- A CPYP into scratch whose elements have moved, the sector of its tile's header lost with three banks. -/
def tileLost : State :=
  let i : Instr := .cpyp 0 36 12 0 0 1 0 8 0
  let s := setEntry ringCopy 0 0 ((commandAt ringCopy 0 0).map (fun c =>
    { c with instr := i, held := [0, 0, 0], phase := .running (elementCount { c with instr := i }) }))
  modCluster s 0 (fun c => { c with cbmode := 1, cbhealth := 21 })

/-- What the command at entry 0 of core 0 writes last: 0 done, 1 uncorrectable. -/
def lastly (s : State) : Option Nat :=
  (engineAt s 0 0).map (fun e => match lastWrites e s with | .go _ _ => 0 | .bad _ _ => 1 | _ => 2)

/-- Commands that have moved their elements: one whose last writes can be made, and one whose tile is lost; and a read and a
matrix command that meet uncorrectable data. -/
theorem witness_CommandSteps_bad :
    [nextStep copied 0, nextStep tileLost 0, nextStep (broken 0x200000 reading) 0] = [.finished, .finished, .bad] ∧
    [lastly copied, lastly tileLost] = [some 0, some 1] ∧
    performs (broken 0x200000 (ranWith (.accld 7 7 0 0 4 256 8) 4 0 0x200000)) 2 = some 3 := by decide +kernel

/-- A descriptor that is free, open, in a state that no window has, on no page, and behind a failing transfer; and a kd that is
not to be written yet. -/
theorem witness_DeliverySteps :
    delivers deferring 1 0 0 = true ∧ opens (opening 0) = some 0 ∧ opens (opening 1) = some 1 ∧ opens (opening 5) = some 2 ∧
    opens (ranWith (.spbegin 7 4 20) 20 0 0x600000) = some 3 ∧ opens (lossy 0x200200 (opening 0)) = some 4 ∧
    ((getGang (opening 0) 1 0).units.map (fun u => u.wait) == [.window (BitVec.allOnes 32) 4 0x200200 (resumeAt 0x200004 0)]) = true ∧
    (kReg (getGang (opening 0) 1 0) 4).empty = false ∧ (kReg (getGang (opening 0) 1 0) 4).locks = 0 ∧
    (kReg (getGang (gangWith (fun g => { g with k := tset {} g.k 4 { empty := true } }) (opening 0)) 1 0) 4).empty = true := by
  decide +kernel

theorem witness_DeliverySteps_close :
    [closes committing, closes (lossy 0x200200 committing), closes (undescribed committing)] = [some 0, some 2, some 1] ∧
    [closes aborting, closes (lossy 0x200200 aborting), closes (undescribed aborting)] = [some 0, some 2, some 1] := by
  decide +kernel

theorem witness_QueueSteps :
    ready base = true ∧ ready State.reset = false ∧ (getContext queued 0).enable = true ∧
    mayTake (modContext queued 0 (fun c => { c with enable := false })) 0 = true ∧
    [takes queued, takes (lossy 0x200C00 queued), takes (modQueue queued 0 (fun q => { q with base := 0x600000 })),
     takes (modQueue queued 0 (fun q => { q with base := 0x200C10 }))] = [some 0, some 102, some 101, some 2] := by
  decide +kernel

theorem witness_LaunchSteps :
    (getLaunch taken 2).any (fun l => l.phase == .taken && followsOn taken l false && (recordFields l.record).dep0 == 0) = true ∧
    landingCount taken < 512 ∧ (visitLevel 7 landed).1 = true ∧
    overWith completing = some false ∧ overWith (writingBack completing) = some true ∧
    [childReason (pushed true), childReason (pushed false), childReason (lossy 0x200C00 (pushed true)),
     childReason (broken 0x200C00 (pushed true))] = [some 0, some 2, some 102, some 101] ∧
    (getGang exited 1 0).units = [] ∧ liveLanes (getGang exited 1 0) = 0 ∧ (getGang exited 1 0).counts = [] ∧
    saves savingEnded = some 0 ∧ saves (lossy 0x400000 saving) = some 2 ∧
    (getCore idle 0).run = none ∧ (chooseUnit idle 0).1.isSome = true := by decide +kernel

theorem witness_GraphSteps :
    (List.range 4).map (nodeEnds (graphLaunch [])) = [some 0, some 0, some 0, some 0] ∧
    (List.range 4).map (nodeEnds (lossy 0x200000 (graphLaunch []))) = [some 0, some 2, some 2, some 2] ∧
    nodeEnds (lossy 0x200C00 (graphLaunch [])) 0 = some 2 ∧ nodeEnds (graphLaunch [(1, .running)]) 1 = some 0 ∧
    nodeEnds (graphLaunch [(3, .running), (4, .completed)]) 3 = some 0 := by decide +kernel

/-- A teardown with nothing to wait for, and one whose window's descriptor is behind a failing transfer. -/
theorem witness_ContextSteps :
    (getContext base 0).enable = true ∧ (getContext base 0).tearing = false ∧ (getContext base 1).enable = false ∧
    ready base = true ∧ (getContext (modContext base 0 (fun c => { c with frozen := true })) 0).frozen = true ∧
    tears tearing = some 0 ∧ tears (lossy 0x200200 (withDescriptor 1 tearing)) = some 2 := by decide +kernel

theorem witness_HostSteps :
    hostRefusal base 0x7000000000 4 = some 9 ∧ hostRefusal State.reset 0x200000 4 = some 9 ∧
    hostRefusal { base with hostIf := { base.hostIf with marked := [1] } } 0x200000 4 = some 5 ∧
    hostRefusal base 0x200000 4 = none ∧
    [errandEnd (sliceRead (.host 1) base 0x200000 4), errandEnd (sliceRead (.host 1) (broken 0x200000 base) 0x200000 4),
     errandEnd (sliceRead (.host 1) (lossy 0x200000 base) 0x200000 4)] = [0, 1, 2] ∧
    (sliceWrite (.host 1) base 0x200E00 [1, 2]).1.2 = [] ∧ (sliceWrite (.host 1) (lossy 0x200E00 base) 0x200E00 [1, 2]).1.2 = [1, 2] ∧
    (atomHome (askAs base (.host 1)) 0x200E00 whoHost 0 false 1 0).1 = .bytes [0, 0, 0, 0] ∧
    (atomHome (askAs (lossy 0x200E00 base) (.host 1)) 0x200E00 whoHost 0 false 1 0).1 = .blocked := by decide +kernel

theorem witness_PodSteps :
    (let t : State := { base with link := { base.link with released := true, seen := [(3, [7])] } }
     t.link.released = true ∧ 8 ∉ tget [] t.link.seen 3 ∧ 7 ∈ tget [] t.link.seen 3 ∧ t.link.ports.getLsbD 3 ≠ true) ∧
    sendableRows rowWaiting 0 = [0] ∧ (pageAt 0x1042000).managed = false ∧ ready base = true ∧ ready State.reset = false ∧
    base.hostIf.nqctl.getLsbD 31 = false ∧ (getQueue base 5).enabled = false := by decide +kernel

/-- A request whose cluster has a write-back waiting, and one whose has none. -/
def asked (r : BankRequest) (s : State) : State := modCluster s 0 (fun c => { c with requests := [r] })

/-- Whether the first request of cluster 0 waits for write-backs. -/
def bankWaits (s : State) : Option Bool :=
  let u := deliverAnswers s
  match (getCluster u 0).requests with
  | [] => none
  | r :: _ => some (backsWait (surrender u 0 ((getCluster u 0).change.getD (modesAfter u 0 r))) 0)

/-- The health fields, the requests and the refused bit of cluster 0 after a write of CBHEALTH. -/
def healthAfter (h : Dword) (s : State) : List Nat × List BankRequest × Bool :=
  let c := getCluster (match execCbhealth 0 h s with | .next t => t | _ => s) 0
  ((List.range 18).map (healthOf c.cbhealth), c.requests, c.refused)

theorem witness_BankAndTransferSteps :
    bankWaits (asked (.mode 0) base) = some false ∧ bankWaits (writingBack (asked (.mode 0) base)) = some true ∧
    (attempt (failing 1 2 false) 0 3 7).1 = true ∧ (attempt (failing 1 0 false) 0 3 7).1 = false ∧
    (attempt (failing 4 2 true) 0 3 7).1 = true ∧ tget false (getStack (failing 4 2 true) 0).holds 3 = true ∧
    tget false (getStack (failing 4 2 false) 0).holds 3 = false := by decide +kernel

/-- Logs with an entry each. -/
theorem witness_BankAndTransferSteps_logs :
    let s := modCluster (modStack base 0 (fun st => { st with halog := [(1, 2)], htlog := [(3, 4)] })) 0
      (fun c => { c with selog := [(5, 6)] })
    (getStack s 0).halog[0]? = some (1, 2) ∧ (getStack s 0).htlog[0]? = some (3, 4) ∧
    (getCluster s 0).selog[0]? = some (5, 6) ∧ (getStack s 0).halog.length ≤ 16 := by decide +kernel

/-- CBHEALTH (R389): one write that erases a bank, retires another and names a reserved value; three banks erased at once; the end
of a retirement; a field behind one that waits; and a check bank named for retirement. -/
theorem witness_BankAndTransferSteps_health :
    healthAfter (1 + 2 * 2 ^ 6 + 3 * 2 ^ 34) base = (1 :: List.replicate 17 0, [.health 3 2], true) ∧
    healthAfter (1 + 4 + 16) base = (List.replicate 18 0, [], true) ∧
    healthAfter 0 (modCluster base 0 (fun c => { c with cbhealth := 2 })) = (2 :: List.replicate 17 0, [.health 0 0], false) ∧
    healthAfter 1 (asked (.health 0 2) base) = (List.replicate 18 0, [.health 0 2, .health 0 1], false) ∧
    healthAfter (2 * 2 ^ 32) base = (List.replicate 18 0, [], true) := by decide +kernel

/-- The device before its boot, while it verifies slot A and slot B, and ready; a slot that is rejected and one that cannot be
read. An accepted slot is `witness_PlatformSteps_handed`. -/
theorem witness_PlatformSteps :
    State.reset.mgmt.bootstat.extractLsb' 28 4 = 0 ∧
    (let s := afterAll [.powerOnReset] State.reset
     s.mgmt.bootstat.extractLsb' 28 4 = 1 ∧ s.mgmt.bootstat.extractLsb' 8 8 = 0 ∧
     slotResult s.mgmt.flash.slotA s.phys.flashA 0 = 2) ∧
    (let s := afterAll [.powerOnReset, .powerOnReset] State.reset
     s.mgmt.bootstat.extractLsb' 28 4 = 1 ∧ s.mgmt.bootstat.extractLsb' 8 8 = 2 ∧
     slotResult s.mgmt.flash.slotB s.phys.flashB 0 = 2) ∧
    2 < (base.mgmt.bootstat.extractLsb' 28 4).toNat ∧ ready base = true ∧ twf ({} : Core) base.cores = true := by decide +kernel

/-- The header of an image without further bytes, signed under the key whose secret is 7: X, Y, r and s as an independent
computation of ECDSA P-256 gives them. -/
def signedImage : List Byte :=
  natBytes 4 0x5A4D0940 ++ natBytes 4 0x20100 ++ natBytes 4 3 ++ natBytes 4 0 ++
    Crypto.bigBytes 32 0x8e533b6fa0bf7b4625bb30667c01fb607ef9f8b8a80fef5b300628703187b2a3 ++
    Crypto.bigBytes 32 0x73eb1dbde03318366d069f83a6f5900053c73633cb041b21c55e1a86c1f400b4 ++
    Crypto.bigBytes 32 0x6b17d1f2e12c4247f8bce6e563a440f277037d812deb33a0f4a13945d898c296 ++
    Crypto.bigBytes 32 0x3660cd89c79ff1d4de0747aae23e7e298397925873af79c011b613e9b0aa583c ++ natBytes 368 0

/-- The hash of its key. -/
def imageRoot : BitVec 256 := 0x2238f0e348c0445a60affd248bfe765db34318c0a10bfc9fc7423170e019d490

/-- SHA-256 of the image without its signature, as it is computed elsewhere. -/
theorem test_imageDigest :
    Crypto.sha256 (signedImage.take 80 ++ signedImage.drop 144) = 0x48ba0fe29f6a21e010dcf76528c0b787793413d92787ebe83c7ae349b9a67615 ∧
    Crypto.sha256 ((signedImage.drop 16).take 64) = imageRoot := by decide +kernel

/-- The signature holds for the digest. -/
theorem test_imageSignature :
    Crypto.verify 0x48ba0fe29f6a21e010dcf76528c0b787793413d92787ebe83c7ae349b9a67615
      (0x8e533b6fa0bf7b4625bb30667c01fb607ef9f8b8a80fef5b300628703187b2a3, 0x73eb1dbde03318366d069f83a6f5900053c73633cb041b21c55e1a86c1f400b4)
      0x6b17d1f2e12c4247f8bce6e563a440f277037d812deb33a0f4a13945d898c296
      0x3660cd89c79ff1d4de0747aae23e7e298397925873af79c011b613e9b0aa583c = true := by decide +kernel

/-- A flash slot that holds the image is accepted under that root. -/
theorem witness_PlatformSteps_accepted : slotResult (tsetMany 0 [] 0 signedImage) false imageRoot = 1 := by
  have hn : signedImage.length = 512 := by decide +kernel
  have h : imageHeader (tsetMany 0 [] 0 signedImage) = signedImage := by
    unfold imageHeader tgetMany
    refine List.ext_getElem (by simp [hn]) fun i hi _ => ?_
    simp only [List.length_map, List.length_range] at hi
    rw [List.getElem_map, List.getElem_range, tget_tsetMany_at [] 0 signedImage i (by omega)]
  have hb : imageBody (tsetMany 0 [] 0 signedImage) = [] := by
    unfold imageBody
    rw [h, show fieldAt signedImage 12 4 = 0 by decide +kernel]
    rfl
  have hf : ¬ (fieldAt signedImage 0 4 ≠ 0x5A4D0940 ∨ fieldAt signedImage 12 4 % 4096 ≠ 0 ∨
      2 ^ 24 - 4096 < fieldAt signedImage 12 4) := by decide +kernel
  have hk : [((signedImage.drop 16).take 64).take 32, ((signedImage.drop 16).take 64).drop 32,
      ((signedImage.drop 80).take 64).take 32, ((signedImage.drop 80).take 64).drop 32].map Crypto.bigNat =
      [0x8e533b6fa0bf7b4625bb30667c01fb607ef9f8b8a80fef5b300628703187b2a3,
       0x73eb1dbde03318366d069f83a6f5900053c73633cb041b21c55e1a86c1f400b4,
       0x6b17d1f2e12c4247f8bce6e563a440f277037d812deb33a0f4a13945d898c296,
       0x3660cd89c79ff1d4de0747aae23e7e298397925873af79c011b613e9b0aa583c] := by decide +kernel
  simp only [List.map_cons, List.map_nil, List.cons.injEq, and_true] at hk
  obtain ⟨k1, k2, k3, k4⟩ := hk
  unfold slotResult
  simp only [h, hb, List.append_nil]
  rw [if_neg (by decide), if_neg hf, if_neg (by rw [test_imageDigest.2]; simp), test_imageDigest.1, k1, k2, k3, k4,
    test_imageSignature, if_pos rfl]

/-- A device that verifies slot A, in which that image stands. -/
def verifyingA (slot : Table Byte) : State :=
  { State.reset with
    mgmt := { State.reset.mgmt with bootstat := 0x10000000, flash := { slotA := slot } }
    phys := { rootKeyHash := imageRoot } }

theorem witness_PlatformSteps_handed :
    let s := verifyingA (tsetMany 0 [] 0 signedImage)
    s.mgmt.bootstat.extractLsb' 28 4 = 1 ∧ s.mgmt.bootstat.extractLsb' 8 8 = 0 ∧
    slotResult s.mgmt.flash.slotA s.phys.flashA s.phys.rootKeyHash = 1 := by
  have h : ∀ x, (verifyingA x).mgmt.bootstat.extractLsb' 28 4 = 1 ∧ (verifyingA x).mgmt.bootstat.extractLsb' 8 8 = 0 ∧
      slotResult (verifyingA x).mgmt.flash.slotA (verifyingA x).phys.flashA (verifyingA x).phys.rootKeyHash =
        slotResult x false imageRoot := fun x => by
    rw [show (verifyingA x).mgmt.bootstat = 0x10000000 from rfl]
    exact ⟨by decide, by decide, rfl⟩
  exact ⟨(h _).1, (h _).2.1, ((h _).2.2).trans witness_PlatformSteps_accepted⟩

/-- A device neither slot of which can be read ends in recovery (R397). -/
theorem witness_PlatformSteps_recovery :
    let s : State := { State.reset with phys := { flashA := true, flashB := true } }
    slotResult s.mgmt.flash.slotA s.phys.flashA 0 = 5 ∧ slotResult s.mgmt.flash.slotB s.phys.flashB 0 = 5 ∧
    (afterAll [.powerOnReset, .powerOnReset, .powerOnReset] s).mgmt.bootstat = 0xF0000505 := by decide +kernel

/-- A write of slot B, and one that runs past the region. -/
theorem witness_PlatformSteps_flash :
    tgetMany 0 (after (.flashPageWrite .slotB 8 [1, 2]) base).mgmt.flash.slotB 7 4 = [0, 1, 2, 0] ∧
    (after (.flashPageWrite .records 0xFFFFF [1, 2]) base).mgmt.flash = base.mgmt.flash := by decide +kernel

theorem witness_AttestationSteps :
    ready attesting = true ∧ (spdmOf attesting.mgmt .doe).version = true ∧ (spdmOf attesting.mgmt .doe).caps = true ∧
    (spdmOf attesting.mgmt .doe).algorithms = true ∧ (spdmOf attesting.mgmt .mctp).version = false ∧
    attesting.mgmt.aliasKey = some 5 ∧ attesting.mgmt.measurements[(2 : BitVec 8).toNat - 1]? = some [2, 3] ∧
    attesting.mgmt.measurements.length < (3 : BitVec 8).toNat := by decide +kernel

theorem witness_AccessChecks :
    inExtent base ((getBlock base 1).getD { launch := 0, ctx := 0, place := .core 0 }) (targetOf 1 0x100000) 4 = false ∧
    inExtent base ((getBlock base 1).getD { launch := 0, ctx := 0, place := .core 0 }) (targetOf 1 0x102) 4 = true ∧
    ¬ 4 ∣ (0x102 : Dword).toNat ∧ targetOf 1 0x100 = .lstore 0x100 := by decide +kernel

/-- The traps that a word leaves in some lanes of a prepared state, changed as told. -/
def trapsIn (f : State → State) (i : Instr) (lanes : List Nat) : List (Option (BitVec 8 × Word × Word × Word)) :=
  let s := f (prepared (placed i))
  lanes.map (fun l => (getThread (after i s) 1 0 l).stalled.map (fun x => (x.cause, x.aux0, x.aux1, x.aux2)))

/-- Words that issue, of which lane 1 traps and lanes 0 and 2 go on: misaligned or out of the generic space. -/
theorem traps_someLanes :
    [trapsIn (laneV 1 8 2) (.cas 7 4 8 1 12 16 0 0 3 0) [0, 1, 2], trapsIn (laneV 1 8 2) (.ld 7 4 8 4 1 0) [0, 1, 2],
     trapsIn (laneV 1 9 0x1000000) (.st 7 4 8 4 0 0) [0, 1, 2], trapsIn (laneV 1 8 2) (.spst 7 4 8 4) [0, 1, 2],
     trapsIn (laneV 1 9 0x1000000) (.spld 7 4 8 4) [0, 1, 2], trapsIn (laneV 1 8 0x30000) (.atom 7 4 8 1 12 0 0 4 0 0 0) [0, 1, 2]] =
    [[none, some (6, 2, 0, 1), none], [none, some (6, 2, 0, 1), none], [none, some (7, 0, 0x1000000, 0), none],
     [none, some (6, 2, 0, 0), none], [none, some (7, 0, 0x1000000, 0), none], [none, some (7, 0x30000, 0, 1), none]] := by
  decide +kernel

/-- An exact address below 0, a misaligned one of the gang's, and plane words of which the first lies past the lower half. -/
theorem traps_everyLane :
    [trapsIn id (.ld 7 4 8 4 0 31) [0, 31], trapsIn (kWith 8 2) (.ldx 7 4 8 2 0 0) [0, 31],
     trapsIn (kWith 8 2) (.stx 7 4 8 2 1 0) [0, 31], trapsIn (kWith 36 0xFFFFFF00 ∘ kWith 37 0x00FFFFFF) (.ldp 7 0 36 4 0) [0, 31],
     trapsIn (kWith 36 0xFFFFFF00 ∘ kWith 37 0x00FFFFFF) (.stp 7 0 36) [0, 31]] =
    [[some (7, 0xFFFFFFFC, 0xFFFFFFFF, 0), some (7, 0xFFFFFFFC, 0xFFFFFFFF, 0)], [some (6, 2, 0, 0), some (6, 2, 0, 0)],
     [some (6, 2, 0, 1), some (6, 2, 0, 1)], [some (7, 4, 0x1000000, 0), some (7, 4, 0x1000000, 0)],
     [some (7, 4, 0x1000000, 0), some (7, 4, 0x1000000, 0)]] := by decide +kernel

/-- The last bytes of local store and the byte beyond them; the launch's constants; the ends of the canonical halves, the window
region and the local window in it; and exact addresses below 0 and past 64 bits. -/
theorem witness_AccessChecks_extents :
    let s := modLaunch base 0 (fun l => { l with constLen := 64 })
    let holds (sp : Nat) (a : Int) (n : Nat) : Bool := (getBlock s 1).any (fun b => inExtent s b (targetOf sp a) n)
    (getBlock s 1).isSome = true ∧
    [holds 1 0x2FFFC 4, holds 1 0x2FFFD 4, holds 2 0 1, holds 3 60 4, holds 3 61 4, holds 0 0xFFFFFFFFFFFFFC 4,
     holds 0 0xFFFFFFFFFFFFFD 4, holds 0 0xFFFFFFFFFFFFFFFC 4, holds 0 0xFFFFFFFFFFFFFFFD 4, holds 0 0x100000000000000 1,
     holds 0 0xFEFFFFFFFFFFFFFF 1, holds 0 0xFF0000000002FFFC 4, holds 0 0xFF0000000002FFFD 4, holds 0 0xFF00000100000000 1,
     holds 0 0xFF00000400000000 1, holds 0 0xFF00FFFFFFFFFFFF 1, holds 0 0xFF01000000000000 1, holds 0 (-4) 4,
     holds 1 (-4) 4, holds 0 (2 ^ 64) 4] =
    [true, false, false, true, false, true, false, true, false, false, false, true, false, false, false, true, true, false,
     false, false] := by decide +kernel

/-- Lines of CMAINT drop.l2: two that can be dropped, one whose page denies writing, and one whose walk waits. -/
theorem witness_FenceAndCacheWords_drop :
    let leaf (flags : Nat) (s : State) : State := { s with mem := tsetMany 0 s.mem 0x4008 (natBytes 8 (0x200000 + flags)), clusters := [] }
    let drop (s : State) (vas : List Nat) : Option (Nat × Nat) × Bool :=
      let r := dropLines s 0 0 (vas.map (fun va => (0, va)))
      (r.1, r.2.1)
    [drop base [0x200000, 0x200080], drop (leaf 0x17 base) [0x200080, 0x200000],
     drop (lossy 0x4008 (leaf 0x1F base)) [0x200000]] = [(none, false), (some (0, 0x200080), false), (none, true)] := by
  decide +kernel

/-- Atomics that are performed at a home slice and in the local window: they answer with the old bytes. -/
theorem witness_AtomicsIssue_performed :
    (atomHome (askAs base (.access 9 0)) 0x200E00 0 0 false 1 0).1 = .bytes [0, 0, 0, 0] ∧
    ((getBlock base 1).map (fun b => (atomWindow base 1 b (.lstore 0) 8 true 1 0).1)) =
      some (.bytes (natBytes 4 0x91A70000 ++ natBytes 4 64)) := by decide +kernel

/-- A join register of threads 0 to 31 whose first `n` have signed. -/
def joining (n : Nat) : State := modJoin base 1 0 (fun x => { x with signed := (List.range n).map (fun l => (0, l)) })

/-- Leaves of a join register (R116, R122): the last that has not signed leaves, and the phase completes; one leaves while others
are to come; the last members leave, and nothing stays; a signer leaves with its phase; and a thread that is no member. -/
theorem witness_JoinPhases_leave :
    let x (n : Nat) : JoinReg := getJoin (joining n) 1 0
    let away (n : Nat) (act : BitVec 32) : List ThreadRef := (x n).members.filter (fun m => act.getLsbD m.2 && !(x n).signed.contains m)
    let left (n : Nat) (act : BitVec 32) : List ThreadRef := (x n).members.filter (fun m => !act.getLsbD m.2 || (x n).signed.contains m)
    ((x 31).armed = true ∧ away 31 0x80000000 ≠ [] ∧ left 31 0x80000000 ≠ [] ∧ ∀ m ∈ left 31 0x80000000, m ∈ (x 31).signed) ∧
    (away 5 0x80000000 ≠ [] ∧ ∃ m ∈ left 5 0x80000000, m ∉ (x 5).signed) ∧
    (away 0 0xFFFFFFFF ≠ [] ∧ left 0 0xFFFFFFFF = []) ∧ (away 5 1 = [] ∧ left 5 1 ≠ []) ∧
    ((x 0).kind = .none ∧ (x 0).signers = []) ∧ 0 < ((getBlock base 1).map (fun b => b.gangs.length)).getD 0 ∧
    (getJoin base 1 3).members = [] := by decide +kernel

/-- A join register whose last member signs, and one with another to come. -/
theorem witness_JoinPhases :
    let x : JoinReg := getJoin base 1 0
    x.armed = true ∧ x.members ≠ [] ∧ (∀ m ∈ x.members, m ∈ x.signed ++ lanes32.map (fun l => (0, l))) ∧
    ∃ m ∈ x.members, m ∉ x.signed ++ [0].map (fun l => (0, l)) := by decide +kernel

theorem witness_CommandsEnterEngines :
    isSkidder (.cpy 0 4 20 1 0 8 3) = true ∧ freeEntry (getCore base 0) = some 0 ∧
    isSkidder (.accz 0 0 8) = false ∧ isForwarder (.accz 0 0 8) = false := by decide +kernel

/-- A signature of a CPY that completes its phase decodes, from its words, to the command; its phase has no earlier signer. -/
theorem witness_CommandsEnterEngines_issued :
    let i : Instr := .cpy 7 4 8 1 0 0 3
    (match commandKind i with
     | .command w1 w2 => (match decodeWords (w1 ||| 0xFDC00000) w2 with | .ok j => isSkidder j | .error _ => false)
     | _ => false) = true ∧
    freeEntry (getCore base 0) = some 0 ∧ (getJoin base 1 0).armed = true ∧ (getJoin base 1 0).members = lanes32.map (fun l => (0, l)) ∧
    (let s := signCommand base { core := 0, blk := 1, gang := 0, unit := { lanes := 0xFFFFFFFF, pc := 0 }, hdr := 0, slot := 0, w := 0, w2 := 0, wide := 2 }
       0 i (List.range 31)
     let x := getJoin s 1 0
     let left := x.members.filter (fun m => x.signed.contains m || !(m.1 == 0 && (0x80000000 : BitVec 32).getLsbD m.2))
     left ≠ x.members ∧ left ≠ [] ∧ (∀ m ∈ left, m ∈ x.signed) ∧ x.kind = commandKind i) := by decide +kernel

/-- A CPYF whose first three lanes send to device 0, to 0x3FF and to a number that is no device: one row, and a drop. -/
theorem witness_CommandsEnterEngines_rows :
    let i : Instr := .cpyf 7 4 8 12 0 8 0
    let s := laneV 2 4 600 (laneV 1 4 0x3FF (prepared (placed i)))
    (siteFor s ((encode i).headD 0) ((encode i).getD 1 0) 2).any (fun t =>
      (getDie (issueUnsigned s t i [0, 1, 2]) 0).rows.length == 1 &&
        (getDie (issueUnsigned s t i [0, 1, 2]) 0).fwderr.getLsbD 63 && !(getDie (issueUnsigned s t i [0, 1]) 0).fwderr.getLsbD 63) =
      true := by decide +kernel

/-- A command that its first lane signs, and one whose last member signs. -/
theorem witness_CommandsEnterEngines_signed :
    let i : Instr := .cpy 7 4 8 1 0 0 3
    let s := prepared (placed i)
    (siteFor s ((encode i).headD 0) ((encode i).getD 1 0) 2).any (fun t =>
      (getJoin (signCommand s t 0 i [0]) 1 0).signed == [(0, 0)] && (getJoin (signCommand s t 0 i lanes32) 1 0).phase == 1) =
      true := by decide +kernel

/-- How an engine's read of four bytes of an address ends at its page: 0 with bytes, 2 waiting. -/
def engineReads (s : State) (va : Nat) : Option Nat :=
  (engineAt s 0 0).bind (fun e =>
    match e.way s 0 va 4 true false with
    | (.page l, u) => some (match (engineFetch u 0 va 4 l).1 with | .bytes _ => 0 | .blocked => 2 | _ => 1)
    | _ => none)

/-- How its write of four bytes ends. -/
def engineWrites (s : State) (va : Nat) : Option Nat :=
  (engineAt s 0 0).bind (fun e =>
    match e.way s 0 va 4 false true with
    | (.page l, u) => some (match (enginePut u 0 e.b.ctx va l [1, 2, 3, 4]).1 with | .bytes _ => 0 | .blocked => 2 | _ => 1)
    | _ => none)

/-- Reads and writes of a copy's elements: of memory, of a window, and outside it. -/
theorem witness_CopyCommandWords_moves :
    [engineReads reading 0x200000, engineReads (lossy 0x200000 reading) 0x200000, engineWrites reading 0x200E00,
     engineWrites (lossy 0x200E00 reading) 0x200E00] = [some 0, some 2, some 0, some 2] ∧
    (engineAt reading 0 0).any (fun e => inExtent reading e.b (targetOf 1 0x100) 4 && inExtent reading e.b (targetOf 1 0x100) 16 &&
      !inExtent reading e.b (targetOf 1 0x2FFFD) 4 && targetOf 1 0x100 == .lstore 0x100 && targetOf 2 64 == .scratch 64) = true ∧
    reading.phys.sram = [] ∧ (getCluster reading 0).cbhealth = 0 := by decide +kernel

/-- A CPY, whose segments do not meet; a CPYX of a row that its window holds; and a CPYP of one block. -/
theorem witness_CopyCommandWords_elements :
    (engineAt reading 0 0).any (fun e => e.c.instr == .cpy 0 4 20 1 0 8 3 && e.c.parts.length == 1) = true ∧
    (engineAt gathering 0 0).any (fun e => e.c.instr == .cpyx 0 4 8 8 0 0 8 0 && e.c.parts.any (fun p => p.a != 0xFFFFFFFF &&
      decide ((e.c.uni.getD 2 0).toNat + (32 * p.gang + p.lane) * 16 + 16 ≤ windowSize gathering e.b 1))) = true ∧
    (engineAt ringCopy 0 0).any (fun e => e.c.instr == .cpyp 0 36 12 0 4 0 1 8 0) = true ∧ (0 : BitVec 5) ≤ 4 := by decide +kernel

/-- A started CPYT of one element of four bytes: its layout record stands at 0x200C00, its tensor at 0x200E00. -/
def boxing (dir : BitVec 1) (coord : Word) : State :=
  let i : Instr := .cpyt 0 20 8 12 dir 0 0 8
  let record : List Byte := natBytes 8 0x200E00 ++ natBytes 4 1 ++ natBytes 36 0 ++ [0, 0, 0, 0, 2, 1, 0] ++ natBytes 9 0
  let s := kWith 8 coord (kWith 20 0x200C00 (prepared (placed i)))
  afterAll [.homeSliceAccess (.engine 0 0)] (after i { s with mem := tsetMany 0 s.mem 0x200C00 record })

/-- Its rank, its first extent and box size, and its first coordinate, once its elements are to move. -/
def boxed (s : State) : Option (List Int) :=
  (engineAt s 0 0).bind (fun e =>
    let x := heldLayout e.c
    if e.c.phase == .running 0 then some [x.rank, x.ext.getD 0 0, x.box.getD 0 0, (e.c.uni.getD 2 0).toInt] else none)

/-- A CPYT of an element within its tensor, both ways, and of one beyond it. -/
theorem witness_CopyCommandWords_boxes :
    [boxed (boxing 0 0), boxed (boxing 1 0), boxed (boxing 0 0xFFFFFFFF)] =
      [some [1, 1, 1, 0], some [1, 1, 1, 0], some [1, 1, 1, -1]] ∧
    [nextStep (boxing 0 0) 0, nextStep (boxing 1 0) 0, nextStep (boxing 0 0xFFFFFFFF) 0] = [.goes, .goes, .goes] := by
  decide +kernel

/-- How the reads of the operands' rows of an MMA issued first end: 0 both read. -/
def rowsRead (i : Instr) : Option Nat :=
  let s := ran i
  match (getCore s 0).mx, getBlock s 1 with
  | c :: _, some b =>
    let run : MxRun := { core := 0, b := b, c := c }
    let reads (f : Nat) (words : Table Word) : Nat :=
      match run.rows { fmt := f, inScratch := false, words := words, x0 := 0, x1 := 0 } (opGroup 4 4) (opGroup 4 4) s with
      | .ok rows _ => if rows.length = 64 then 0 else 1
      | _ => 1
    if c.instr == i then some (reads 4 c.fragA + reads 4 c.fragB) else none
  | _, _ => none

/-- An MMA of one k-group whose fragments are read, without scales; and the index bytes of an MPERM, all below 64. -/
theorem witness_TileWords_operands :
    rowsRead (.mma 7 0 4 4 0 8 16 0 0 0 0 8) = some 0 ∧ scaleUsed 4 (opGroup 4 4) = 0 ∧
    (getBlock base 1).any (fun b => decide (64 + 64 ≤ lstoreSize base b) &&
      (List.range 64).all (fun i => decide (((tgetMany 0 b.lstore 64 64).getD i 0).toNat < 64))) = true := by decide +kernel

/-- Products of mx_group that are not numbers, infinite, and finite with and without a sum; and accumulators of each class. -/
theorem witness_TileWords_products :
    let e (x : Nat) : Elem := plainElem (decodeF fp32 x)
    let product (x y : Nat) : Val := mulVal (e x).v (e y).v
    let classOf (v : Val) : Nat := match v with | .nan => 0 | .inf false => 1 | .inf true => 2 | .fin y => if y.m = 0 then 3 else 4
    [classOf (product 0x7F800000 0), classOf (product 0x7F800000 0x3F800000), classOf (product 0xFF800000 0x3F800000),
     classOf (product 0 0x3F800000), classOf (product 0x40000000 0x3F800000)] = [0, 1, 2, 3, 4] ∧
    [0x7FC00000, 0x7F800000, 0xFF800000, 0x80000000, 0x3F800000].map (fun a => classOf (decodeF fp32 a)) = [0, 1, 2, 3, 4] := by
  decide +kernel

theorem witness_TileWords_order :
    behind (getCore base 0).mx 1 (.accrd 0 0 8 1 8) = false ∧
    behind (getCore zeroing 0).mx 1 (.accrd 0 0 8 1 8) = true := by decide +kernel

/-! ### The gate of a word -/

/-- A word that stands first in a prepared state, changed as told, with more to hold. -/
abbrev gateHolds (f : State → State) (i : Instr) (P : State → Site → Block → BitVec 32 → Bool) : Bool :=
  checked i (f (prepared (placed i))) (P (f (prepared (placed i))))

theorem witness_WordGate_early :
    standing (.add 15 4 8 12) (prepared (placed (.add 15 4 8 12))) (fun _ _ => true) = true ∧
    standing (.add 1 4 8 12) (prepared (placed (.add 1 4 8 12))) (fun t b =>
      (guardTraps t (gangOf b 0) 1).isEmpty && activeAt t b (.add 1 4 8 12) == 0) = true ∧
    standing (.lea 7 5 8 12) (prepared (placed (.lea 7 5 8 12))) (fun t b =>
      activeAt t b (.lea 7 5 8 12) != 0 && lowestReason (legality (.lea 7 5 8 12)) == 5) = true ∧
    standing (.cwb 7 1) (modContext (prepared (placed (.cwb 7 1))) 0 (fun c => { c with privileged := false })) (fun t b =>
      activeAt t b (.cwb 7 1) != 0 && legality (.cwb 7 1) == [] && needsPrivilege (.cwb 7 1)) = true ∧
    standing (.exit 15) (prepared (placed (.exit 15))) (fun _ _ => true) = true ∧
    standing (.gjoin 1 22) (prepared (placed (.gjoin 1 22))) (fun t b => activeAt t b (.gjoin 1 22) == 0) = true := by
  decide +kernel

/-- A predicate of some lanes changed. -/
def someP (lanes : List Nat) (r : Nat) (x : Pred) (s : State) : State :=
  lanes.foldl (fun s l => modThread s 1 0 l (fun y => { y with p := tset {} y.p r x })) s

/-- A guard that is poisoned in lane 3, and empty in lane 4 under a policy bit of 1 and of 0; lanes whose source is empty, poisoned
and whole; and what the word of those that are left does is its effect. -/
theorem witness_WordGate_guards :
    let i : Instr := .add 1 4 8 12
    standing i (someP [3] 1 { poison := true } (prepared (placed i))) (fun _ b =>
      refPoison (gangOf b 0) 3 (.p 1) && !refEmpty (gangOf b 0) 4 (.p 1) && !refPoison (gangOf b 0) 4 (.p 1)) = true ∧
    standing i (trapping (someP [4] 1 { empty := true } (prepared (placed i)))) (fun t b =>
      hdrTraps t.hdr t.slot && refEmpty (gangOf b 0) 4 (.p 1)) = true ∧
    standing i (someP [4] 1 { empty := true } (prepared (placed i))) (fun t b =>
      !hdrTraps t.hdr t.slot && refEmpty (gangOf b 0) 4 (.p 1)) = true := by decide +kernel

theorem witness_WordGate_lanes :
    let i : Instr := .ld 7 4 8 4 1 0
    gateHolds (fun s => modThread (modThread (trapping s) 1 0 3 (fun x => writeV x 8 0 true)) 1 0 4
      (fun x => { x with v := tset {} x.v 8 { empty := true } })) i (fun _ t b act =>
      hdrTraps t.hdr t.slot && act.getLsbD 5 && (emptyOf (gangOf b 0) 4 (trapSources (gangOf b 0) i 4)).isSome &&
        (emptyOf (gangOf b 0) 3 (trapSources (gangOf b 0) i 3)).isNone &&
        ((consumed i).find? (refPoison (gangOf b 0) 3)).isSome && ((consumed i).find? (refPoison (gangOf b 0) 5)).isNone) = true := by
  decide +kernel

theorem witness_WordGate_effect :
    ∃ effect : State → Site → BitVec 32 → BitVec 32 → Effect,
      ∀ u, exec (.kmov 7 4 8) u = runWord (.kmov 7 4 8) u (effect u) := by
  refine ⟨fun u t iss act =>
    { st := modGang u t.blk t.gang (fun g => writeK g (4 : BitVec 6).toNat (kReg g (8 : BitVec 6).toNat).val
        (kReg g (8 : BitVec 6).toNat).poison)
      moves := t.onward (Instr.kmov 7 4 8).words iss }, fun u => ?_⟩
  rw [exec_kmov, execKmov]
  rfl

/-- SEL in lanes whose guard holds: the source that it does not choose is empty, under a policy bit of 1 and of 0; and the one
that it chooses, under 1. -/
theorem witness_WordGate_select :
    let i : Instr := .sel 7 4 8 12
    let sources (r : Nat) (f : State → State) (P : Bool → List (Option RegRef) → List (Option RegRef) → Bool) : Bool :=
      gateHolds (fun s => f (everyReg r (fun x => { x with empty := true }) s)) i (fun _ t b act =>
        P (hdrTraps t.hdr t.slot) ((lanesOf act).map (fun l => emptyOf (gangOf b 0) l (trapSources (gangOf b 0) i l)))
          ((lanesOf act).map (fun l => emptyOf (gangOf b 0) l (sourcesAt (gangOf b 0) i))))
    sources 12 trapping (fun p chosen _ => p && chosen.all Option.isNone) = true ∧
    sources 12 id (fun p chosen all => !p && chosen.all Option.isNone && all.all (· == some (.v 12))) = true ∧
    sources 8 trapping (fun p chosen _ => p && chosen.all (· == some (.v 8))) = true := by decide +kernel

theorem witness_WordGate_registers :
    trapIn (fun s => { s with launches := s.launches.map (fun e => (e.1, e.2.map (fun l => { l with record := emptyRecord }))) })
      (.jleave 7 7) = none ∧
    gateHolds (fun s => trapping (everyReg 8 (fun r => { r with empty := true }) s)) (.add 7 4 8 12) (fun _ t b act =>
      (lanesOf act).all (fun l => emptyOf (gangOf b 0) l (sourcesAt (gangOf b 0) (.add 7 4 8 12)) == some (.v 8)) &&
        hdrTraps t.hdr t.slot) = true ∧
    gateHolds (everyReg 8 (fun r => { r with empty := true })) (.add 7 4 8 12) (fun _ t b act =>
      (lanesOf act).any (fun l => (emptyOf (gangOf b 0) l (sourcesAt (gangOf b 0) (.add 7 4 8 12))).isSome) &&
        !hdrTraps t.hdr t.slot) = true ∧
    gateHolds (everyReg 8 (fun r => { r with poison := true })) (.ld 7 4 8 4 1 0) (fun _ _ b act =>
      (lanesOf act).all (fun l => (emptyOf (gangOf b 0) l (sourcesAt (gangOf b 0) (.ld 7 4 8 4 1 0))).isNone &&
        (consumed (.ld 7 4 8 4 1 0)).find? (refPoison (gangOf b 0) l) == some (.v 8))) = true ∧
    gateHolds (everyReg 4 (fun r => { r with empty := true })) (.add 7 4 8 12) (fun _ _ b act =>
      (lanesOf act).any (fun l => refEmpty (gangOf b 0) l (.v 4))) = true ∧
    gateHolds (gangWith (fun g => { g with counts := [{ cls := .ld, id := 1 }] })) (.wait 7 1 0) (fun s t b act =>
      ownWait s t b act (.wait 7 1 0)) = true := by decide +kernel

theorem witness_TrapEntry :
    handlerOk (gangWith (fun g => { g with trapbase := 0x200000 }) base) 1 0 = true ∧ handlerOk base 1 0 = false ∧
    (getThread base 1 0 5).handler = false ∧
    (getThread (modThread base 1 0 5 (fun x => { x with handler := true })) 1 0 5).handler = true := by decide +kernel

theorem witness_StoreFrame :
    (homeWrite base 0x200E00 [1, 2] 0).1 = .clean ∧
    atItsHome (accessOf (after (.pageWalkComplete 2 0) storing) 2 0) = true ∧
    (getOp storing 2).any (fun o => o.kind == .store false && (opPlace storing o).isSome) = true ∧
    (match (accessOf (after (.pageWalkComplete 2 0) storing) 2 0).stage with
     | .atHome l _ _ => l.shared && l.tier == 0 && !isPeer l
     | _ => false) = true ∧
    hostRefusal base 0x7000000000 2 ≠ none := by decide +kernel

/-- A store to a page of the host, which takes it. -/
theorem witness_StoreFrame_host :
    let l : Leaf := { page := 0x7000, size := 2 ^ 12, tier := 3, pclass := 0, shared := true, x := false, w := true, r := true,
                      owner := none }
    let s := setStage (after (.pageWalkComplete 2 0) storing) 2 0 (.atHome l 0 0)
    isPeer l = false ∧ (getOp s 2).any (fun o => (getBlock s 1).any (fun b =>
      (serveAccess (tracing (askAs s (.access 2 0))) 0 b.ctx o (accessOf s 2 0) b l 0).1 == .bytes [])) = true := by decide +kernel

/-- The step of a prepared state runs the word laid first; that of a unit at a header enters the clause. -/
theorem witness_StepRunsDecodedInstruction :
    (getCore base 0).run.isSome = true ∧ base.agenda = [] ∧ 2 < (base.mgmt.bootstat.extractLsb' 28 4).toNat ∧
    (getBlock base 1).any (fun b => (unitWith (gangOf b 0) 0).any (fun u =>
      rpSlot u.pc != 15 && (fetchPair base 0 1 b (rpAddr u.pc) true).1 == some ((encode (.mov 7 4 8)).headD 0, 0))) = true ∧
    (let s : State := { base with agenda := [.issue 0] }
     s.agenda = [.issue 0] ∧ (getCore s 0).run.isSome = true) ∧
    (getBlock saving 1).any (fun b => (unitWith (gangOf b 0) 0).any (fun u => rpSlot u.pc == 15)) = true ∧
    (orderedRequest (.hostBar2Write 0x200E00 [1])).isSome = true ∧ orderedRequest .clockStep = none := by decide +kernel

/-- A word that changes each of its threads and issues, one that changes its gang, and one whose threads may trap (and do in
`traps_float`). -/
theorem witness_WordFrame :
    (∃ f, GivesThread (.add 0 4 8 12) f ∧ ∃ s t b act, Issues (.add 0 4 8 12) s t b act) ∧
    (∃ f, GivesGang (.kmov 7 4 8) f ∧ ∃ s t b act, Issues (.kmov 7 4 8) s t b act) ∧
    (∃ trap f, GivesUnless (.fadd 7 4 8 12) trap f ∧ ∃ s t b act, Issues (.fadd 7 4 8 12) s t b act) := by
  refine ⟨⟨fun _ g l x => writeV x (4 : BitVec 6).toNat (opV x 8 + opV x 12) (anyPoison g l (sources (.add 0 4 8 12))), ?_,
    issues_of_runs (by decide +kernel)⟩, ⟨fun g _ => writeK g (4 : BitVec 6).toNat (kReg g (8 : BitVec 6).toNat).val
    (kReg g (8 : BitVec 6).toNat).poison, ?_, issues_of_runs (by decide +kernel)⟩,
    ⟨_, _, givesFp_of_fpWord (fun _ => exec_fadd ..), issues_of_runs (by decide +kernel)⟩⟩
  · intro s t b act h
    rw [exec_add, execAdd]
    exact vWord_of_issues h _ _
  · intro s t b act h
    rw [exec_kmov, execKmov]
    exact gangWord_of_issues h _

/-- A word that goes on. -/
theorem witness_WordsKeepMemory :
    (Instr.st 7 4 8 4 0 0).isWord = true ∧ completes (.st 7 4 8 4 0 0) (prepared (placed (.st 7 4 8 4 0 0))) = true := by
  decide +kernel

/-- The words that reach memory themselves issue and go on; their cluster's L2 is quiet, the handle current, and its stack read. -/
theorem witness_WordsKeepMemory_others :
    [.pf 7 1 20 0, .spquery 7 4 24, .spalloc 7 4 8, .fqrpReplay 7 4, .trapret 7, .sysw 7 4 0x10].all runs = true ∧
    (let s := prepared (placed (.spalloc 7 4 8))
     storesOnWay s (fun _ _ => true) = [] ∧ (getCluster s 0).l2 = [] ∧ currentEntry s 0x80000000 = some 0 ∧
     currentEntry s 0 = none ∧ (getGang s 1 0).faultq = [] ∧ (getThread s 1 0 0).handler = false ∧
     (match (do
         let count ← winWord { core := 0, ctx := 0, blk := 1, gang := 0, lane := 0 } (getWindow s 0).stack
         let _ ← winWord { core := 0, ctx := 0, blk := 1, gang := 0, lane := 0 } ((getWindow s 0).stack + 16 + 4 * (count - 1))
         winPage { core := 0, ctx := 0, blk := 1, gang := 0, lane := 0 } none (getWindow s 0).stack : Errand Nat)
         (tracing (askAs s (.unit 1 0 0))) with
       | .ok (pa, _) => pa == 0x200100
       | .error _ => false) = true) := by decide +kernel

/-- The same store where its home has not been asked before. -/
def homeStore : State :=
  match (accessOf sentStore 2 0).stage with
  | .atHome l _ _ => setStage sentStore 2 0 (.atHome l 0 0)
  | _ => sentStore

/-- How a store at its home is to be performed: 1 it is on its way, 2 the home takes it now. -/
def performsHow (s : State) : Option Nat :=
  match getOp s 2, getBlock s 1 with
  | some o, some b =>
    let a := accessOf s 2 0
    (match onWay o a, a.stage with
     | some (k, m), _ => if storeOnWay s 0 k (some m) then none else some 1
     | none, .atHome l _ port =>
       if !ownedSince s l && (serveAccess (tracing (askAs s (.access 2 0))) 0 b.ctx o a b l port).1 == .bytes [] then some 2
       else none
     | _, _ => none)
  | _, _ => none

/-- A store on its way that is performed, and one that the home takes in its step. -/
theorem witness_StoreFrame_performed : [performsHow sentStore, performsHow homeStore] = [some 1, some 2] := by decide +kernel

/-- Host requests that wait: posted, behind which others stand, and a read. -/
theorem witness_StepRunsDecodedInstruction_host :
    (HostReq.write 0x200E00 [1]).posted = true ∧ (HostReq.read 0x200E00 4).posted = false ∧
    orderedRequest (.resetreq 0xB0070001) = some (.step (.resetreq 0xB0070001)) := by decide +kernel

theorem witness_EncodingRoundTrip :
    (Instr.add 7 4 8 12).isWord = true ∧ (Instr.add 7 4 8 12).WellFormed ∧
    (Instr.cpy 7 4 8 1 0 8 3).isWord = true ∧ (Instr.cpy 7 4 8 1 0 8 3).WellFormed := by decide +kernel

theorem witness_StepKeepsMemory :
    MemoryWf base ∧ (match step base with | .next _ => true | _ => false) = true := by
  refine ⟨?_, ?_⟩ <;> decide +kernel

/-! ### WellFormed: an ill-formed term for each check -/

/-- Each term with the reason of Table 3.3 that its field gives. -/
theorem smoke_words_refused :
    ([(.lea 7 5 8 12, 5), (.leaK 7 4 63 0, 4), (.add64 7 4 8 13, 5), (.shl64 7 5 8 12, 5), (.shlImm 7 4 8 0 32, 14),
      (.shrImm 7 5 8 1 0, 5), (.sraImm 7 4 8 0 40, 14), (.rotImm 7 4 9 1 0, 5), (.cmp 7 7 0 0 4 8 0, 6),
      (.cmp 7 0 1 0 5 8 0, 5), (.cmp 7 0 0 3 4 8 0, 14), (.cmp 7 0 0 0 4 8 12, 2), (.cmpImm 7 7 0 4 0, 6),
      (.plop 7 7 0 0 0 0 0, 6), (.plop 7 0 0 0 0 0 3, 14), (.fcmp 7 0 3 4 8 0, 14), (.fcmp 7 0 0 4 8 14, 2),
      (.cvt 7 4 8 15 0 0 0, 14), (.cvt 7 4 8 0 0 0 15, 2), (.cvt 7 5 8 0 0 0 11, 5), (.cvt 7 4 9 12 0 0 0, 5),
      (.cvtpk 7 4 9 1 0 0, 5), (.cvtpk 7 4 8 13 0 0, 14), (.cvtup 7 5 8 1, 5), (.ld 7 4 8 7 0 0, 14), (.ld 7 5 8 5 0 0, 5),
      (.ld 7 4 9 4 0 0, 5), (.ld 7 62 8 6 0 0, 4), (.st 7 4 8 1 0 0, 14), (.st 7 4 8 4 3 0, 14), (.ldx 7 4 8 3 0 0, 14),
      (.ldx 7 5 8 1 0 0, 5), (.stx 7 4 8 0 3 0, 14), (.ldro 7 4 8 4 1 0, 14), (.fence 7 5 0, 14), (.fence 7 0 3, 14),
      (.wait 7 0 0, 14), (.pf 7 2 8 0, 14), (.cmaintCleanL2 7 9 0, 5), (.ldp 7 0 34 0 0, 5), (.ldp 7 0 36 0 7, 6),
      (.stp 7 0 61, 4), (.qunp 7 4 0 0 4, 14), (.qpk 7 0 4 0 0 0, 14), (.qpk 7 0 4 1 0 3, 14), (.shflx 7 4 8 32, 14),
      (.pcons 7 7 0 0, 6), (.pcons 7 8 0 0, 4), (.pcons 7 0 8 0, 4), (.pcons 7 0 0 4, 14), (.lmask 7 4 8, 4),
      (.red 7 4 8 11, 14), (.scan 7 4 8 0 11, 14), (.jinit 7 4 8, 4), (.jinit 7 5 0, 5), (.jsign 7 4 8, 4),
      (.gsplit 7 4 8 0, 4), (.gsplit 0 4 0 0, 14), (.gjoin 0 4, 14), (.ret 7 5, 5), (.jmpi 7 5 0, 5)] :
      List (Instr × Nat)).all (fun x => (legality x.1).contains x.2 && decide (¬ x.1.WellFormed)) = true := by decide +kernel

theorem smoke_wide_words_refused :
    ([(.bflyct 7 2 2 4 0, 14), (.nperm 7 5 8 0 0, 5), (.nperm 7 6 8 0 1, 5), (.nperm 7 4 8 5 0, 14), (.nrev 7 4 8 0, 14),
      (.nrev 7 4 8 6, 14), (.modset 7 2 10 0 1, 3), (.modset 7 2 11 0 0, 5), (.spbegin 7 4 9, 5), (.spst 7 4 8 3, 14),
      (.spld 7 4 8 7, 14), (.spstate 7 9 8, 5), (.sysr 7 4 7, 4), (.sysr 7 5 0x11, 5), (.sysw 7 4 0, 14),
      (.tlbinv 7 1 0 8 0, 3), (.tlbinv 7 0 0 9 8, 5), (.launch 7 4 9 8, 5), (.fqrpPeek 7 5, 5),
      (.mma 7 0 24 0 0 16 32 0 0 0 0 8, 14), (.mma 7 0 0 0 0 17 32 0 0 0 0 8, 5), (.mma 7 0 0 0 0 52 32 0 0 0 0 8, 4),
      (.mma 7 0 9 0 0 16 32 0 0 0 0 8, 14), (.mmas 7 0 0 0 0 16 32 0 0 0 0 8 8, 14), (.mma 7 0 0 0 0 17 32 1 1 0 0 8, 5),
      (.mconv 7 0 6 0 0 12 16 0 0 1 24 8, 14), (.mconv 7 0 0 0 0 13 16 0 0 1 24 8, 5), (.mtrn 7 0 0 0 0 9, 4),
      (.accld 7 0 3 0 8 256 8, 14), (.accld 7 0 0 0 9 256 8, 5), (.accst 7 0 0 0 1 8 252 8, 14), (.accrd 7 0 9 1 8, 5),
      (.atom 7 4 8 1 12 0 0 0 0 1 0, 3), (.atom 7 5 8 1 12 0 1 0 0 0 0, 5), (.atom 7 4 8 3 12 0 0 0 0 0 0, 14),
      (.atom 7 4 8 1 12 14 0 0 0 0 0, 14), (.atom 7 4 8 1 12 9 1 0 0 0 0, 14), (.atom 7 4 8 1 12 0 0 5 0 0 0, 14),
      (.atom 7 4 8 1 12 0 0 0 0 0 2, 14), (.cas 7 4 8 1 12 17 1 0 0 0, 5), (.cas 7 4 8 3 12 16 0 0 0 0, 14),
      (.cpy 7 5 8 0 1 8 0, 5), (.cpy 7 4 8 3 1 8 0, 14), (.cpy 7 4 8 1 1 9 0, 4), (.cpyt 7 4 8 12 1 0 1 8, 14),
      (.cpyt 7 5 8 12 0 0 0 8, 5), (.cpyp 7 36 12 2 1 0 0 8 0, 14), (.cpyp 7 36 12 0 17 0 0 8 0, 14),
      (.cpyp 7 37 12 0 1 0 0 8 0, 5), (.cpyx 7 4 9 8 0 0 8 0, 5), (.cpyf 7 5 8 12 0 8 0, 5), (.ringinit 7 8 0 0, 14),
      (.rawait 7 8 9 18, 14)] : List (Instr × Nat)).all
      (fun x => (legality x.1).contains x.2 && decide (¬ x.1.WellFormed)) = true := by decide +kernel

/-- Steps that name a unit that does not exist, or whose value is not their row's write. -/
theorem smoke_steps_refused :
    [.arbitration 320, .commandComplete 0 48, .matrixCommandComplete 320 0, .ringCommandStart 0 48, .asyncCopyFault 320 0,
     .elementParked 0 48, .deferredFaultDelivery 0 0 32, .windowOpen 0 0 32, .spcommitExecute 0 48, .spabortExecute 320 0,
     .queueEnable 0 0, .queueDisable 0 0x80000000, .contextEnable 0 0, .portStateChange 18 true, .cbreq 40 0,
     .bankModeChange 40, .cbhealth 40 0, .selogClear 40, .transferRetry 6 0, .pseudoChannelHold 0 160, .hrelRelease 6 0,
     .hrelFail 0 160, .hswap 6 0 0, .hlogClearArray 6, .hlogClearTransfer 6].all (fun i => !stepNamesExist i) = true := by
  decide +kernel

/-! ### Decoding: words of the spec's listings, each field written apart -/

/-- Whether two words decode to an instruction. -/
def decodesTo (w w2 : Word) (i : Instr) : Bool :=
  match decodeWords w w2 with | .ok j => j == i | .error _ => false

theorem test_decode_integer_words :
    decodesTo 0b000000_0111_000110_000101_000010_0000 0 (.add 7 6 5 2) = true ∧
    decodesTo 0b000001_0111_000010_000000_000000_1101 0 (.movK 7 2 0) = true ∧
    decodesTo 0b000000_0111_001110_000000_001100_1101 0 (.mov 7 14 12) = true := by decide +kernel

theorem test_decode_immediates :
    decodesTo 0b000110_0111_000011_000010_0000000001 0 (.andImm 7 3 2 1) = true ∧
    decodesTo 0b000101_0111_000101_000010_0001100100 0 (.addImm 7 5 2 100) = true ∧
    decodesTo 0b001001_0111_000101_000010_000_0_000100 0 (.shlImm 7 5 2 0 4) = true ∧
    decodesTo 0b001010_0111_000001_0000000000000001 0 (.movi 7 1 1) = true := by decide +kernel

theorem test_decode_comparisons :
    decodesTo 0b001101_0111_000_001_000011_0000000000 0 (.cmpImm 7 0 1 3 0) = true := by decide +kernel

theorem test_decode_float :
    decodesTo 0b010000_0111_000001_000010_000011_0000 0 (.fadd 7 1 2 3) = true ∧
    decodesTo 0b010001_0111_000010_000011_001001_0010 0 (.fmulK 7 2 3 9) = true ∧
    decodesTo 0b010011_0111_000100_000101_000110_0011 0 (.ffmaBf16x2 7 4 5 6) = true ∧
    decodesTo 0b010010_0111_000111_000000_001000_0111 0 (.fnegF16x2 7 7 8) = true ∧
    decodesTo 0b010110_0111_000001_000010_0000_1_0_0001 0 (.cvt 7 1 2 0 1 0 1) = true := by decide +kernel

theorem test_decode_memory :
    decodesTo 0b011000_0111_000110_000010_101_00_00000 0 (.ld 7 6 2 5 0 0) = true ∧
    decodesTo 0b011001_0111_000101_000110_100_00_00000 0 (.st 7 5 6 4 0 0) = true ∧
    decodesTo 0b011010_0111_001000_000000_10_00_00_0000 0 (.ldx 7 8 0 2 0 0) = true ∧
    decodesTo 0b011100_0111_000_01_00000000000000000 0 (.fence 7 0 1) = true ∧
    decodesTo 0b011101_0111_001_000000_0000000000000 0 (.wait 7 1 0) = true := by decide +kernel

theorem test_decode_planes :
    decodesTo 0b011111_0111_0000_001000_0010_001_00000 0 (.ldp 7 0 8 2 1) = true ∧
    decodesTo 0b011111_0111_0000_001000_0111_001_00001 0 (.ldpr 7 0 8 7 1) = true ∧
    decodesTo 0b100000_0111_000100_0000_1_000_00000000 0 (.qunp 7 4 0 1 0) = true ∧
    decodesTo 0b100000_0111_000111_0000_000000000010 0 (.qtagGet 7 7 0) = true := by decide +kernel

theorem test_decode_lanes_and_control :
    decodesTo 0b100001_0111_000010_000001_0_1_0000_0110 0 (.scan 7 2 1 1 0) = true ∧
    decodesTo 0b100010_0111_000100_000000_00000_0_0100 0 (.gsplit 7 4 0 0) = true ∧
    decodesTo 0b100010_0111_000000_000100_0000000101 0 (.gjoin 7 4) = true ∧
    decodesTo 0b100011_0000_0000000000000000000101 0 (.bru 0 5) = true ∧
    decodesTo 0b100100_0111_0000000000000000000101 0 (.jmp 7 5) = true ∧
    decodesTo 0b100110_0111_0000000000000000000010 0 (.exit 7) = true := by decide +kernel

theorem test_decode_modular_and_network :
    decodesTo 0b110000_0111_00010_00011_00100_00_00011 0 (.mmulm 7 2 3 4 0) = true ∧
    decodesTo 0b110001_0111_00010_00011_00100_00_00010 0 (.bflyct 7 2 3 4 0) = true ∧
    decodesTo 0b110010_0111_000010_001010_00_0_0000011 0 (.modset 7 2 10 0 0) = true ∧
    decodesTo 0b110010_0111_000110_000100_010_0_000000 0 (.nperm 7 6 4 2 0) = true := by decide +kernel

theorem test_decode_system :
    decodesTo 0b110100_0111_110010_00010000_00000000 0 (.sysr 7 50 16) = true ∧
    decodesTo 0b110100_0111_101000_00001010_00000001 0 (.sysw 7 40 10) = true ∧
    decodesTo 0b110100_0111_000000000000000001_1000 0 (.halt 7 1) = true ∧
    decodesTo 0b110100_0111_001001_001000_0000000101 0 (.bankmode 7 9 8) = true ∧
    decodesTo 0b110100_0111_0000000000000000000010 0 (.trapret 7) = true := by decide +kernel

theorem test_decode_logic_and_pairs :
    decodesTo 0b000010_0111_000100_000101_000110_0000 0 (.and 7 4 5 6) = true ∧
    decodesTo 0b000010_0111_000100_000101_000110_0100 0 (.shl 7 4 5 6) = true ∧
    decodesTo 0b000100_0111_000100_001000_001100_0000 0 (.add64 7 4 8 12) = true := by decide +kernel

theorem test_decode_uniform_and_predicates :
    decodesTo 0b001111_0111_000100_0_000101_000000000 0 (.kmov 7 4 5) = true ∧
    decodesTo 0b001100_0111_001_0_10_000100_000101_0011 0 (.cmp 7 1 0 2 4 5 3) = true := by decide +kernel

theorem test_decode_windows :
    decodesTo 0b110011_0111_000100_000101_0000001000 0 (.treemask 7 4 5) = true ∧
    decodesTo 0b110011_0111_000000_000100_000101_0101 0 (.spcommit 7 4 5) = true := by decide +kernel

theorem test_decode_prefetch :
    decodesTo 0b011110_0111_01_0000_000100_000101_0000 0 (.pf 7 1 4 5) = true := by decide +kernel

theorem test_decode_two_words :
    decodesTo 0xFDD00520 0x480FC000 (.cpy 7 5 8 1 0 8 63) = true ∧
    decodesTo 0xFDC28108 0x18000000 (.accwr 7 0 8 1 6) = true ∧
    decodesTo 0xFDC24980 0x18000000 (.accrd 7 1 12 0 6) = true ∧
    decodesTo 0xFDC14800 0x00000008 (.mred 7 1 0 0 0 0 8) = true ∧
    decodesTo 0xFC880030 0x28128000 (.atom 2 0 12 0 10 0 0 4 2 1 0) = true := by decide +kernel

/-! ### Worked values of the spec -/

/-- Register d of lane 0 after a word, with some registers of lane 0 as given. -/
def resultOf (i : Instr) (vs : List (Nat × Word)) (d : Nat) : Word :=
  (vReg (getThread (after i (vs.foldl (fun s x => laneV 0 x.1 x.2 s) (prepared (placed i)))) 1 0 0) d).val

/-- A pair of lane 0 after a modular word of Table 7.2: q = 257, slot 0 holding 1,020 and slot 1 1,000, x = 5, and y and w. -/
def modularOf (i : Instr) (y w d : Nat) : Dword :=
  let s := modThread (prepared (placed i)) 1 0 0 (fun x => writePair (writePair (writePair
    { x with mods := [(0, some { q := 257, c := 1020 }), (1, some { q := 257, c := 1000 })] } 4 5 false)
      6 (BitVec.ofNat 64 y) false) 8 (BitVec.ofNat 64 w) false)
  pairV (getThread (after i s) 1 0 0) d

/-- R99: division by zero, and of the most negative number by −1; ABS of it. -/
theorem test_division :
    resultOf (.div 0 4 8 12) [(8, 7), (12, 0)] 4 = 0xFFFFFFFF ∧
    resultOf (.div 0 4 8 12) [(8, 0x80000000), (12, 0xFFFFFFFF)] 4 = 0x80000000 ∧
    resultOf (.rem 0 4 8 12) [(8, 0x80000000), (12, 0xFFFFFFFF)] 4 = 0 ∧
    resultOf (.abs 0 4 12) [(12, 0x80000000)] 4 = 0x80000000 := by decide +kernel

/-- Table 7.2 and the example of R67. -/
theorem test_modular :
    modularOf (.mmulm 0 2 3 4 0) 200 16 4 = 116 ∧ modularOf (.bflyct 0 2 3 4 0) 200 16 4 = 121 ∧
    modularOf (.bflyct 0 2 3 4 0) 200 16 6 = 146 ∧ modularOf (.bflygs 0 2 3 4 0) 200 16 4 = 205 ∧
    modularOf (.bflygs 0 2 3 4 0) 200 16 6 = 221 ∧ modularOf (.mmulm 0 2 3 4 1) 256 256 4 = 1029 ∧
    modularOf (.mmulm 0 2 3 4 0) 256 256 4 = 1 := by decide +kernel

/-- The example of R132: eight participants whose values are 3, 5, 3, 3, 0, 5, 9, 3. -/
def eight (i : Instr) (l : Nat) : Word :=
  let vs : List Word := [3, 5, 3, 3, 0, 5, 9, 3]
  let s := (List.range 8).foldl (fun s k => modThread (laneV k 8 (vs.getD k 0) s) 1 0 k (fun x => { x with p := [(0, { val := true })] }))
    (prepared (placed i))
  (vReg (getThread (after i s) 1 0 l) 4).val

theorem test_matching :
    eight (.matchEq 0 4 8) 2 = 0x8D ∧ eight (.conflict 0 4 8) 3 = 0x5 ∧
    [0, 1, 2, 3, 4, 5, 6, 7].map (eight (.hist 0 4 8)) = [1, 0, 0, 4, 0, 2, 0, 0] := by decide +kernel

/-- Table 2.6. -/
theorem test_conversions :
    let m : FpMode := { rm := 0, ftz := false, nft := false }
    let cvt (dst : Nat) (sat : Bool) (x : Nat) : Nat := (convertBits 0 dst sat false m x).1
    [1, 2, 4, 5, 8].map (fun dst => cvt dst false 0x3F800000) = [0x3C00, 0x3F80, 0x38, 0x3C, 0x2] ∧
    cvt 2 false 0x3F808000 = 0x3F80 ∧ cvt 4 false 0x43960000 = 0x79 ∧ cvt 4 false 0x43FA0000 = 0x7F ∧
    cvt 4 true 0x43FA0000 = 0x7E ∧ cvt 1 false 0x477FF000 = 0x7C00 ∧ cvt 1 true 0x477FF000 = 0x7BFF ∧
    cvt 1 false 0x35800000 = 0x0010 ∧ (convertBits 0 1 false false { m with ftz := true } 0x35800000).1 = 0 ∧
    cvt 8 false 0xC0200000 = 0xC ∧ cvt 1 false 0xFFC01234 = 0x7E00 ∧ cvt 8 false 0xFFC01234 = 0x0 ∧
    (convertBits 9 0 false false m 16777217).1 = 0x4B800000 := by decide +kernel

/-- Table 6.3 at its special operands: FEX2 at 128 and −150, FSIN and FCOS at −3, 3 and 1.5, FTANH at 2^−12 and −10, and a
negative x. -/
theorem test_special_functions :
    let m : FpMode := { rm := 0, ftz := false, nft := true }
    [specialBits 3 m 0x43000000, specialBits 3 m 0xC3160000, specialBits 5 m 0xC0400000, specialBits 6 m 0x40400000,
     specialBits 6 m 0x3FC00000, specialBits 7 m 0x39800000, specialBits 7 m 0xC1200000, specialBits 1 m 0xBF800000] =
      [0x7F800000, 0, 0x80000000, 0xBF800000, 0, 0x39800000, 0xBF800000, 0x7FC00000] ∧
    specialFails 3 m 0x43000000 = true ∧ specialFails 2 m 0x80000000 = false ∧ specialFails 4 m 0xBF800000 = true := by
  decide +kernel

/-- The example of R49: 5.5625 with all seven planes, 4.0 with two, 5.0 with two under .mid. -/
theorem test_planes :
    unpackValue 0 { rm := 0, ftz := false, nft := false } (planeValue 0x3782 false 0b101100100000000 7 false) = 0x40B20000 ∧
    unpackValue 0 { rm := 0, ftz := false, nft := false } (planeValue 0x3782 false 0b101100100000000 2 false) = 0x40800000 ∧
    unpackValue 0 { rm := 0, ftz := false, nft := false } (planeValue 0x3782 false 0b101100100000000 2 true) = 0x40A00000 := by decide +kernel

/-- Table 4.6: a BRU whose predicate is poisoned in lane 3 and differs among the others. -/
theorem test_mixed_branch :
    let s := modThread (prepared (placed (.bru 0 5))) 1 0 3 (fun x => { x with p := [(0, { poison := true })] })
    ([0, 1, 3, 31].map (fun l => ((getThread (after (.bru 0 5) s) 1 0 l).stalled.map (fun t => t.cause)))) =
      [some 3, some 3, some 5, some 3] := by decide +kernel

end Sys2Proof.Tests
end

/-! ### Barrett reduction (R67): the quotient estimate, its one correction, and the bounds of the constant -/

namespace Sys2Proof.Machine

theorem bitLength_of_pos {q : Nat} (hq : 0 < q) : bitLength q = Nat.log2 q + 1 := if_neg (Nat.ne_of_gt hq)

/-- barrett corrects its quotient estimate t by at most one subtraction of the modulus. -/
theorem barrett_of_estimate {x q c t : Nat} (hq : 0 < q) (ht : x * c / 2 ^ (2 * (Nat.log2 q + 1)) = t) :
    barrett x q c = BitVec.ofInt 64
      (if (q : Int) ≤ (x : Int) - (t * q : Nat) then (x : Int) - (t * q : Nat) - q else (x : Int) - (t * q : Nat)) := by
  rw [barrett, bitLength_of_pos hq, ht]

/-- An odd number from 3 on is no power of two, so its leading bit lies strictly below it. -/
theorem two_pow_log2_lt_of_odd {q : Nat} (hodd : q % 2 = 1) (hq : 3 ≤ q) : 2 ^ Nat.log2 q < q := by
  refine Nat.lt_of_le_of_ne (Nat.log2_self_le (by omega)) fun he => ?_
  cases hk : Nat.log2 q with
  | zero => rw [hk] at he; omega
  | succ k => rw [hk, Nat.pow_succ] at he; omega

/-- The constant of a modulus q above 2^k, whose bit length is k + 1, fits in k + 2 bits. -/
theorem barrett_constant_lt {q k : Nat} (hk : 2 ^ k < q) : 2 ^ (2 * (k + 1)) / q < 2 ^ (k + 1 + 1) :=
  (Nat.div_lt_iff_lt_mul (Nat.zero_lt_of_lt hk)).2 <|
    calc 2 ^ (2 * (k + 1)) = 2 ^ (k + 1 + 1) * 2 ^ k := by rw [← Nat.pow_add]; congr 1; omega
      _ < 2 ^ (k + 1 + 1) * q := Nat.mul_lt_mul_of_pos_left hk (Nat.two_pow_pos _)

/-- Products and sums of operands reduced by q, which stay below q(q + 1), meet the bound of R67. -/
theorem mul_succ_lt_two_pow {q n : Nat} (hn : q < 2 ^ n) : q * (q + 1) < 2 ^ (2 * n) :=
  calc q * (q + 1) < 2 ^ n * 2 ^ n := Nat.mul_lt_mul_of_lt_of_le hn hn (Nat.two_pow_pos n)
    _ = 2 ^ (2 * n) := by rw [← Nat.pow_add, ← Nat.two_mul]

/-- The estimate taken with the floored reciprocal of q at scale N, times q, does not exceed x. -/
theorem estimate_mul_le {N : Nat} (hN : 0 < N) (x q : Nat) : x * (N / q) / N * q ≤ x := by
  refine Nat.le_of_mul_le_mul_right ?_ hN
  calc x * (N / q) / N * q * N = x * (N / q) / N * N * q := Nat.mul_right_comm ..
    _ ≤ x * (N / q) * q := Nat.mul_le_mul_right q (Nat.div_mul_le_self ..)
    _ = x * (N / q * q) := Nat.mul_assoc ..
    _ ≤ x * N := Nat.mul_le_mul_left x (Nat.div_mul_le_self ..)

/-- Flooring the reciprocal loses less than x / N < 1 of the quotient and flooring the estimate less than 1 more, so x lies
within two moduli of the estimate. -/
theorem lt_estimate_add_two_mul {x q N : Nat} (hq : 0 < q) (hx : x < N) : x < (x * (N / q) / N + 2) * q := by
  have hN : 0 < N := Nat.zero_lt_of_lt hx
  have hrecip : N ≤ (N / q + 1) * q := Nat.le_of_lt (Nat.lt_mul_of_div_lt (Nat.lt_succ_self _) hq)
  have hest : x * (N / q) < (x * (N / q) / N + 1) * N := Nat.lt_mul_of_div_lt (Nat.lt_succ_self _) hN
  refine Nat.lt_of_mul_lt_mul_right (a := N) ?_
  calc x * N ≤ x * ((N / q + 1) * q) := Nat.mul_le_mul_left x hrecip
    _ = (x * (N / q) + x) * q := by rw [← Nat.mul_assoc, Nat.mul_succ]
    _ < ((x * (N / q) / N + 1) * N + N) * q := Nat.mul_lt_mul_of_pos_right (Nat.add_lt_add hest hx) hq
    _ = (x * (N / q) / N + 2) * q * N := by rw [← Nat.succ_mul, Nat.mul_right_comm]

/-- With the floored reciprocal, the estimate is the quotient or one less. -/
theorem estimate_eq_div {x q N : Nat} (hq : 0 < q) (hx : x < N) :
    x * (N / q) / N = x / q ∨ x * (N / q) / N + 1 = x / q := by
  have hlow : x * (N / q) / N ≤ x / q :=
    (Nat.le_div_iff_mul_le hq).2 (estimate_mul_le (Nat.zero_lt_of_lt hx) x q)
  have hhigh : x / q < x * (N / q) / N + 2 := (Nat.div_lt_iff_lt_mul hq).2 (lt_estimate_add_two_mul hq hx)
  omega

/-- From a quotient estimate t that is right or one short, one conditional subtraction reaches the remainder. -/
theorem corrected_eq_mod {x q t : Nat} (hq : 0 < q) (ht : t = x / q ∨ t + 1 = x / q) :
    (if (q : Int) ≤ (x : Int) - (t * q : Nat) then (x : Int) - (t * q : Nat) - q else (x : Int) - (t * q : Nat)) =
      (x % q : Nat) := by
  have hdiv : x / q * q + x % q = x := Nat.div_add_mod' x q
  have hmod : x % q < q := Nat.mod_lt x hq
  rcases ht with ht | ht
  · rw [← ht] at hdiv
    rw [if_neg (by omega)]
    omega
  · rw [← ht, Nat.succ_mul] at hdiv
    rw [if_pos (by omega)]
    omega

/-- R67: barrett is the remainder once its estimate is the quotient or one less. -/
theorem toNat_barrett_of_estimate {x q c : Nat} (hq : 0 < q) (hword : q < 2 ^ 64)
    (ht : x * c / 2 ^ (2 * (Nat.log2 q + 1)) = x / q ∨ x * c / 2 ^ (2 * (Nat.log2 q + 1)) + 1 = x / q) :
    (barrett x q c).toNat = x % q := by
  rw [barrett_of_estimate hq rfl, corrected_eq_mod hq ht, BitVec.ofInt_natCast]
  exact (BitVec.toNat_ofNat ..).trans <| Nat.mod_eq_of_lt (Nat.lt_trans (Nat.mod_lt x hq) hword)

/-- Settles O25: with the floored reciprocal the estimate is the quotient or one less, and the conditional subtraction makes
up for the one. -/
theorem barrettIsRemainder : Obligations.BarrettIsRemainder := by
  unfold Obligations.BarrettIsRemainder
  refine ⟨fun x q c hq => barrett_of_estimate (by omega) rfl, fun q hodd hq hrange => ⟨?_, ?_, fun x hx => ?_⟩⟩
  · exact barrett_constant_lt (two_pow_log2_lt_of_odd hodd hq)
  · exact mul_succ_lt_two_pow Nat.lt_log2_self
  · have hpos : 0 < q := by omega
    have hest := estimate_eq_div hpos hx
    exact ⟨hest, toNat_barrett_of_estimate hpos (Nat.lt_trans hrange (by decide)) hest⟩

end Sys2Proof.Machine
